-- ==== Sys2Proof/Word.lean ====
section
/-! DEFINITION. Words of the T7: the widths the manual names, and nothing more (spec/00 R3, R4). -/

namespace Sys2Proof

/-- One byte. -/
abbrev Byte := BitVec 8
/-- A 32-bit register word, a code unit, a code offset, or a mask of lanes. -/
abbrev W32 := BitVec 32
/-- A 64-bit instruction word or address value. -/
abbrev W64 := BitVec 64

/-- Lanes of a group (spec/08 R158). -/
abbrev laneCount : Nat := 32

/-- The lane numbers, ascending. -/
def lanes : List Nat := List.range laneCount

end Sys2Proof
end

