-- ==== Sys2Proof/Syntax.lean ====
section
/-! DEFINITION. The instructions and steps of the T7, one constructor for each row of the opcode table.
Machine instructions carry their decoded fields (spec/01 Tables 1.4 to 1.14); the other rows are steps of
the part (spec/95) and carry what names them. -/

namespace Sys2Proof

/-- A guard: the predicate G[10:8], negated by G[11] (spec/01 R26). -/
structure Guard where
  neg : Bool
  pn : BitVec 3
  deriving DecidableEq, Repr

/-- An operand field of Table 1.13, without its reserved codes. -/
inductive Opnd where
  | v (n : BitVec 7)
  | s (n : BitVec 6)
  | q (n : BitVec 4)
  | zr
  deriving DecidableEq, Repr

/-- A source of format A with its modifier (R15, R32). -/
structure Src where
  o : Opnd
  sel : BitVec 3
  trap : Bool
  deriving DecidableEq, Repr

/-- A predicate selector (spec/04 Table 4.2), bits [7:4] zero. -/
structure PSel where
  neg : Bool
  pn : BitVec 3
  deriving DecidableEq, Repr

/-- The DUAL prefix (Table 1.4). -/
structure Dual where
  n : BitVec 3
  tm : Bool
  deriving DecidableEq, Repr

/-- NOP: bits [63:12] are ignored (R33). -/
structure FmtNop where
  g : Guard
  rest : BitVec 52
  deriving DecidableEq, Repr

/-- Format A (Table 1.5). -/
structure FmtA where
  g : Guard
  u : Bool
  d : Opnd
  a : Src
  b : Src
  c : Src
  fn : BitVec 4
  fl : BitVec 3
  deriving DecidableEq, Repr

/-- Format A with a predicate selector in D (ICMP, FCMP). -/
structure FmtAP where
  g : Guard
  u : Bool
  pd : PSel
  a : Src
  b : Src
  c : Src
  fn : BitVec 4
  fl : BitVec 3
  deriving DecidableEq, Repr

/-- SEL: format A with a predicate selector in C and its modifier field. -/
structure FmtSel where
  g : Guard
  u : Bool
  d : Opnd
  a : Src
  b : Src
  pc : PSel
  mc : BitVec 4
  fn : BitVec 4
  fl : BitVec 3
  deriving DecidableEq, Repr

/-- PLOP: format A with selectors in D, A and B (Table 4.6). -/
structure FmtPlop where
  g : Guard
  u : Bool
  pd : PSel
  pa : PSel
  ma : BitVec 4
  pb : PSel
  mb : BitVec 4
  c : Src
  fn : BitVec 4
  fl : BitVec 3
  deriving DecidableEq, Repr

/-- The destination of PPOLL: a predicate for ALL and ANY, a register for MASK (Table 8.3). -/
inductive PollDst where
  | pred (p : PSel)
  | reg (o : Opnd)
  deriving DecidableEq, Repr

/-- PPOLL. -/
structure FmtPoll where
  g : Guard
  u : Bool
  d : PollDst
  pa : PSel
  ma : BitVec 4
  b : Src
  c : Src
  fn : BitVec 4
  fl : BitVec 3
  deriving DecidableEq, Repr

/-- WAITF: D is 0xFF for the waiting form, else a selector (R104). -/
structure FmtWait where
  g : Guard
  u : Bool
  pd : Option PSel
  a : Src
  b : Src
  c : Src
  fn : BitVec 4
  fl : BitVec 3
  deriving DecidableEq, Repr

/-- Format B (Table 1.6). -/
structure FmtB where
  g : Guard
  u : Bool
  d : Opnd
  a : Opnd
  fa : Bool
  fn : BitVec 2
  imm : W32
  deriving DecidableEq, Repr

/-- Format B with a predicate selector in D (ICMPI, BART). -/
structure FmtBP where
  g : Guard
  u : Bool
  pd : PSel
  a : Opnd
  fa : Bool
  fn : BitVec 2
  imm : W32
  deriving DecidableEq, Repr

/-- Format M (Table 1.7). -/
structure FmtM where
  g : Guard
  ch : BitVec 2
  mca : Bool
  u : Bool
  ord : BitVec 2
  sc : BitVec 3
  sz : BitVec 3
  ofs : BitVec 16
  b : Opnd
  a : Opnd
  d : Opnd
  deriving DecidableEq, Repr

/-- Format MA (Table 1.8). -/
structure FmtMA where
  g : Guard
  ch : BitVec 2
  mca : Bool
  u : Bool
  ord : BitVec 2
  sc : BitVec 3
  sz : BitVec 3
  fn : BitVec 4
  ofs : BitVec 12
  b : Opnd
  a : Opnd
  d : Opnd
  deriving DecidableEq, Repr

/-- Format X (Table 1.9). -/
structure FmtX where
  g : Guard
  tgt : BitVec 24
  rc : BitVec 20
  d : Opnd
  deriving DecidableEq, Repr

/-- Format P (Table 1.10), its must-be-zero bits gone. -/
structure FmtP where
  g : Guard
  gslot : BitVec 8
  qid : BitVec 16
  sb : BitVec 6
  pf : BitVec 3
  deriving DecidableEq, Repr

/-- Format T (Table 1.11), its must-be-zero bits gone. -/
structure FmtT where
  g : Guard
  sp : BitVec 2
  acc : Bool
  z : Bool
  ta : BitVec 3
  asrc : Bool
  mq : BitVec 2
  kc : Opnd
  sf : BitVec 6
  sb : BitVec 6
  sa : BitVec 6
  td : BitVec 3
  deriving DecidableEq, Repr

/-- A part that can fail and be fenced (spec/20 R355). -/
inductive Part where
  | socket (n : Nat)
  | link (k : Nat)
  | channel (c : Nat)
  deriving DecidableEq, Repr

/-- A function that becomes ready (spec/23 R397). -/
inductive Func where
  | die (socket : Nat)
  | channel (c : Nat)
  | link (k : Nat)
  deriving DecidableEq, Repr

/-- An observer of the visibility rules (spec/20): a die by socket, the host, or a peer device. -/
inductive Observer where
  | socket (n : Nat)
  | host
  | peer (p : Nat)
  deriving DecidableEq, Repr

/-- A write or a read of a peer device (spec/18 R344). -/
inductive PeerOp where
  | write (data : List Byte)
  | read (len : Nat)
  deriving DecidableEq, Repr

/-- An exchange block from another device (spec/21 R369): the sender's exchange tag, the key, the expert, the receiving
die, and the data. -/
structure FarBlock where
  tag : Nat
  round : Nat
  sender : Nat
  seq : Nat
  expert : Nat
  die : Nat
  data : List Byte
  /-- the level of the group that pushed its command (R404) -/
  sup : Bool := false
  /-- sequence numbers of its sender's earlier blocks to its expert that have yet to come (R371) -/
  missing : List Nat := []
  deriving DecidableEq, Repr

/-- The block of an exchange step: one that this device sent, by name, or one from another device. -/
inductive BlockName where
  | own (bid : Nat)
  | far (f : FarBlock)
  deriving DecidableEq, Repr

/-- One flit of a Wilkai link as its receiver sees it (spec/23 R393). -/
inductive Flit where
  /-- a data flit with its sequence number, and whether its check code holds -/
  | data (seq : BitVec 12) (good : Bool)
  /-- a cumulative acknowledgement -/
  | ack (seq : BitVec 12)
  /-- a negative acknowledgement -/
  | nak (seq : BitVec 12)
  deriving DecidableEq, Repr

/-- The instructions and steps, in the opcode table's order. -/
inductive Instr where
  -- integer, predicate and move (spec/04)
  | nop (w : FmtNop)
  | iadd (w : FmtA)
  | isub (w : FmtA)
  | iaddi (w : FmtB)
  | imul (w : FmtA)
  | imad (w : FmtA)
  | imin (w : FmtA)
  | imax (w : FmtA)
  | iabs (w : FmtA)
  | andL (w : FmtA)
  | orL (w : FmtA)
  | xorL (w : FmtA)
  | andn (w : FmtA)
  | andi (w : FmtB)
  | ori (w : FmtB)
  | xori (w : FmtB)
  | shl (w : FmtA)
  | shr (w : FmtA)
  | sar (w : FmtA)
  | rotl (w : FmtA)
  | shli (w : FmtB)
  | shri (w : FmtB)
  | sari (w : FmtB)
  | bfe (w : FmtA)
  | bfi (w : FmtA)
  | popc (w : FmtA)
  | clz (w : FmtA)
  | brev (w : FmtA)
  | icmp (w : FmtAP)
  | icmpi (w : FmtBP)
  | sel (p : Option Dual) (w : FmtSel)
  | mov (p : Option Dual) (w : FmtA)
  | movi (w : FmtB)
  | iadd64 (w : FmtA)
  | lea (w : FmtA)
  | plop (w : FmtPlop)
  | prd (w : FmtA)
  | pwr (w : FmtA)
  -- floating point (spec/05)
  | fadd (p : Option Dual) (w : FmtA)
  | fsub (p : Option Dual) (w : FmtA)
  | fmul (p : Option Dual) (w : FmtA)
  | ffma (p : Option Dual) (w : FmtA)
  | fmin (p : Option Dual) (w : FmtA)
  | fmax (p : Option Dual) (w : FmtA)
  | fcmp (w : FmtAP)
  | fsgn (p : Option Dual) (w : FmtA)
  | frcp (p : Option Dual) (w : FmtA)
  | frsq (p : Option Dual) (w : FmtA)
  | fsqrt (p : Option Dual) (w : FmtA)
  | fex2 (p : Option Dual) (w : FmtA)
  | flg2 (p : Option Dual) (w : FmtA)
  | fsin (p : Option Dual) (w : FmtA)
  | fcos (p : Option Dual) (w : FmtA)
  | ftanh (p : Option Dual) (w : FmtA)
  | fdiv (p : Option Dual) (w : FmtA)
  | fmuli (p : Option Dual) (w : FmtB)
  | faddi (p : Option Dual) (w : FmtB)
  | hadd2 (p : Option Dual) (w : FmtA)
  | hmul2 (p : Option Dual) (w : FmtA)
  | hfma2 (p : Option Dual) (w : FmtA)
  | hext2 (p : Option Dual) (w : FmtA)
  | dp4 (w : FmtA)
  | dp8 (w : FmtA)
  | dpf8 (p : Option Dual) (w : FmtA)
  | dpf4 (p : Option Dual) (w : FmtA)
  | bscale (p : Option Dual) (w : FmtA)
  | fcvt (p : Option Dual) (w : FmtA)
  | i2f (w : FmtA)
  | f2i (w : FmtA)
  | pack2 (p : Option Dual) (w : FmtA)
  | crnd (w : FmtA)
  | tget (w : FmtA)
  | tset (w : FmtA)
  -- memory and queues (spec/06, spec/12)
  | ld (p : Option Dual) (w : FmtM)
  | st (p : Option Dual) (w : FmtM)
  | atom (p : Option Dual) (w : FmtMA)
  | cas (w : FmtMA)
  | ldq (p : Option Dual) (w : FmtM)
  | pfd (w : FmtM)
  | pfi (w : FmtM)
  | qcfg (w : FmtB)
  | ldt (p : Option Dual) (w : FmtM)
  | stt (p : Option Dual) (w : FmtM)
  | ldl (p : Option Dual) (w : FmtM)
  | stl (p : Option Dual) (w : FmtM)
  | ldw (p : Option Dual) (w : FmtM)
  -- lanes (spec/08)
  | lxch (p : Option Dual) (w : FmtA)
  | ppoll (w : FmtPoll)
  | lred (w : FmtA)
  | leqv (w : FmtA)
  | lpick (p : Option Dual) (w : FmtA)
  -- flow (spec/04, spec/08, spec/10)
  | bra (w : FmtX)
  | brx (w : FmtX)
  | call (w : FmtX)
  | ret (w : FmtX)
  | loop (w : FmtX)
  | lbrk (w : FmtX)
  | exit (w : FmtA)
  | exitE (w : FmtA)
  | claim (w : FmtA)
  | trap (w : FmtB)
  | bkpt (w : FmtB)
  | tret (w : FmtX)
  | region (w : FmtX)
  | yield (w : FmtX)
  | waitf (w : FmtWait)
  | mfs (w : FmtB)
  | mts (w : FmtB)
  -- barriers, engines, tasks, matrix (spec/09, spec/14, spec/15, spec/21)
  | bari (w : FmtB)
  | bara (w : FmtB)
  | barw (w : FmtB)
  | bart (w : FmtBP)
  | barx (w : FmtB)
  | fbar (w : FmtB)
  | push (w : FmtP)
  | wpw (w : FmtP)
  | guard (w : FmtP)
  | tgrab (w : FmtB)
  | tdone (w : FmtB)
  | tcfg (w : FmtT)
  | trel (w : FmtT)
  | mzero (p : Option Dual) (w : FmtT)
  | mloop (p : Option Dual) (w : FmtT)
  | mst (p : Option Dual) (w : FmtT)
  | mld (p : Option Dual) (w : FmtT)
  | mflg (w : FmtA)
  -- landings and group events; `err`: the returned data has an uncorrectable error (R153)
  | loadLands (id : Nat) (err : Bool)
  | ldqEntryLands (id : Nat) (err : Bool)
  | crndLands (id : Nat)
  | remoteMfsLands (id : Nat)
  | claimLands (id : Nat) (err : Bool)
  | atomResultLands (id : Nat) (err : Bool)
  | asyncFault (gid : Nat)
  | instructionMissFill (gid : Nat)
  | translationWalk (die : Nat)
  | barrierRelease (gid : Nat)
  -- scheduler (spec/09)
  | launchPort (port ctx : Nat) (bytes : List Byte)
  | launch (ctx : Nat) (team : Nat) (lane : Nat) (gid : Nat) (bytes : List Byte)
  | dependenceResolve (ctx queue : Nat)
  | teamPlacement (lid die row col : Nat)
  | launchComplete (lid : Nat)
  | task (cid : Nat)
  -- commands (spec/14, spec/18, spec/21): the running command's own work
  | copy (cid n : Nat)
  | copy2d (cid n : Nat)
  | reblock (cid n : Nat)
  | gather (cid n : Nat)
  | fill (cid n : Nat)
  | wsload (cid n : Nat)
  | dsnap (cid : Nat)
  | exch (cid : Nat)
  | combine (cid : Nat)
  | preempt (cid : Nat)
  | resume (cid : Nat)
  | commandStart (cid : Nat)
  | delivery (cid n : Nat)
  | commandComplete (cid : Nat)
  | returnWordLands (id : Nat)
  -- matrix unit (spec/15); core is die * 256 + COREPOS
  | matrixOperationStart (core : Nat) (queue : Bool)
  | kStep (core : Nat) (err : Bool)
  | matrixOperationComplete (core : Nat) (queue : Bool)
  -- exchange (spec/21)
  | blockArrival (b : BlockName)
  | codedPacket (b : BlockName) (c : Nat)
  | decodeFallback (b : BlockName)
  | fabricBarrierComplete (ctx fid : Nat)
  -- weight store refresh (spec/12)
  | wsRefresh (die bank : Nat)
  -- fault responses and translation (spec/17)
  | replay (ctx : Nat) (seq : W32)
  | endLaunch (ctx : Nat) (seq : W32)
  | continue_ (ctx : Nat) (seq : W32)
  | tlbinv (ctx : Nat) (bytes : List Byte)
  | invalidationComplete (id : Nat)
  | debugRead (ctx : Nat) (bytes : List Byte)
  | debugWrite (ctx : Nat) (bytes : List Byte)
  | debugstop (ctx : Nat) (bytes : List Byte)
  -- contexts (spec/18)
  | contextCreate (bytes : List Byte)
  | contextDestroy (ctx : Nat)
  | contextDestroyDetach (ctx : Nat)
  -- host (spec/23)
  | supmask (value : W64)
  | attest (nonce : List Byte)
  | hostRegisterWrite (port offset : Nat) (ctxPage : Bool) (bytes : List Byte)
  | memoryWindowWrite (ctx offset : Nat) (bytes : List Byte)
  | memoryWindowRead (ctx offset len : Nat)
  | status
  | recover (nonce : List Byte)
  | recoverN
  | getrecord
  | i3cAttest (nonce : List Byte)
  | loadfw (len : Nat)
  | powerGood
  | functionReady (f : Func)
  | readinessTimeout (f : Func)
  -- failures and links (spec/20, spec/23)
  | partFailure (p : Part)
  | fence (p : Part)
  | acklost (wid : Nat) (p : Part)
  | wilkaiFlit (port : Nat) (f : Flit)
  | retransmitTimeout (port : Nat)
  | limitExceeded
  | refreshWindowEnd (die bank : Nat)
  | mcaSingleMoment (wid : Nat)
  | writeArrival (wid : Nat) (o : Observer)
  | peerDeviceAccess (ctx : Nat) (va : W64) (op : PeerOp)
  | powerLoss
  deriving DecidableEq, Repr

end Sys2Proof
end

