-- ==== Sys2Proof/WellFormed.lean ====
section
/-! DEFINITION. The encoding rules a word must obey: every one of them traps ILLOP when broken (spec/01 R35).
`Instr.wf` is what the decoder checks after it has pulled the fields out. -/

namespace Sys2Proof

namespace Opnd

/-- An S register or ZR: what a uniform instruction may name (R27). -/
def isSZ : Opnd → Bool
  | .s _ => true
  | .zr => true
  | _ => false

def isV : Opnd → Bool
  | .v _ => true
  | _ => false

def isS : Opnd → Bool
  | .s _ => true
  | _ => false

def isQ : Opnd → Bool
  | .q _ => true
  | _ => false

def isVSZ : Opnd → Bool
  | .q _ => false
  | _ => true

/-- A register number that is a multiple of `m`; ZR passes, a queue does not (R88, R137, R138). -/
def alignedTo (m : Nat) : Opnd → Bool
  | .v n => n.toNat % m == 0
  | .s n => n.toNat % m == 0
  | .q _ => false
  | .zr => true

/-- A range of `k` registers from this one stays inside its class (R123, R206). ZR passes. -/
def rangeFits (k : Nat) : Opnd → Bool
  | .v n => n.toNat + k ≤ 128
  | .s n => n.toNat + k ≤ 64
  | .q _ => false
  | .zr => true

end Opnd

/-- A field the instruction does not use: 0xFF with modifier 0 (R33). -/
def Src.unused (s : Src) : Bool := s == ⟨.zr, 0, false⟩

/-- A source without a bit-moving modifier; the reader mode is free. -/
def Src.noSel (s : Src) : Bool := s.sel == 0

/-- A source without any modifier (WAITF, CLAIM, EXIT.E). -/
def Src.bare (s : Src) : Bool := s.sel == 0 && !s.trap

/-- The prefix has a legal count, and TM = 1 only on the memory rows of Table 5.6 (R25, R130). -/
def dualOk (mem : Bool) : Option Dual → Bool
  | none => true
  | some p => p.n.toNat ≤ 4 && (mem || !p.tm)

/-- R27 for format A with a `.U` form and a register destination. -/
def FmtA.uOk (w : FmtA) : Bool :=
  if w.u then w.d.isSZ && w.a.o.isSZ && w.b.o.isSZ && w.c.o.isSZ else !w.d.isS

def FmtA.flOnly (w : FmtA) (mask : BitVec 3) : Bool := w.fl &&& ~~~mask == 0

/-- The number of sources used, in field order; the rest hold ZR (R33). -/
def FmtA.srcs (w : FmtA) : Nat → Bool
  | 0 => w.a.unused && w.b.unused && w.c.unused
  | 1 => w.b.unused && w.c.unused
  | 2 => w.c.unused
  | _ => true

/-- A lane-by-lane instruction of format A with `n` sources, FN below `fns`, and the given FL bits. -/
def FmtA.plain (w : FmtA) (n fns : Nat) (fl : BitVec 3) : Bool :=
  w.uOk && w.srcs n && decide (w.fn.toNat < fns) && w.flOnly fl

def FmtAP.plain (w : FmtAP) (fns : Nat) (fl : BitVec 3) : Bool :=
  !w.pd.neg && w.c.unused && decide (w.fn.toNat < fns) && w.fl &&& ~~~fl == 0 &&
    (!w.u || (w.a.o.isSZ && w.b.o.isSZ))

/-- Format B with a source A and a register destination. -/
def FmtB.plain (w : FmtB) : Bool :=
  w.fn == 0 && (if w.u then w.d.isSZ && w.a.isSZ else !w.d.isS)

/-- Format B with neither operand, not uniform (TRAP, BKPT). -/
def FmtB.bareImm (w : FmtB) : Bool := w.fn == 0 && !w.u && !w.fa && w.d == .zr && w.a == .zr

/-- FL masks: bit 2 is FL[63], bit 1 FL[62], bit 0 FL[61]. -/
abbrev flNone : BitVec 3 := 0
abbrev satUnsBits : BitVec 3 := 3
abbrev unsBit : BitVec 3 := 1
abbrev satBit : BitVec 3 := 2
abbrev flFlush : BitVec 3 := 4
abbrev flRound : BitVec 3 := 3
abbrev flAll : BitVec 3 := 7

/-- IMUL and IMAD: SAT only with FN 0 (R81). -/
def mulWf (w : FmtA) (n : Nat) : Bool := w.plain n 2 satUnsBits && (w.fn == 0 || w.fl &&& satBit == 0)

/-- IADD64 and LEA name even pairs without modifier (R88). -/
def pairWf (w : FmtA) (bPair : Bool) : Bool :=
  w.d.alignedTo 2 && w.a.o.alignedTo 2 && w.a.noSel && (!bPair || (w.b.o.alignedTo 2 && w.b.noSel))

/-- BSCALE (R123). -/
def bscaleWf (w : FmtA) : Bool :=
  w.plain 3 2 flAll && w.a.o.rangeFits 4 && w.b.o.rangeFits 4 && w.a.noSel && w.b.noSel && !w.d.isQ

/-- FCVT: MB is the conversion control (R124). -/
def fcvtWf (w : FmtA) : Bool :=
  w.uOk && w.b.o == .zr && !w.b.trap && (w.b.sel == 0 || w.b.sel == 1) && decide (w.fn.toNat < 14) &&
    (w.b.sel == 0 || decide (w.fn.toNat < 5) || decide (9 < w.fn.toNat)) &&
    (decide (w.fn.toNat < 5) || w.fl &&& flRound == 0) && (decide (9 < w.fn.toNat) || w.c.unused)

/-- The special-register identifiers of Table 1.3. -/
def srListed (i : Nat) : Bool :=
  i ≤ 0x00C || (0x040 ≤ i && i ≤ 0x044) || i == 0x080 || i == 0x081 || (0x0C0 ≤ i && i ≤ 0x0D0) ||
    (0x100 ≤ i && i ≤ 0x102) || i == 0x140 || i == 0x141 || i == 0x180

/-- The identifiers with access RO (Table 1.3). -/
def srReadOnly (i : Nat) : Bool :=
  i ≤ 0x00C || i == 0x042 || i == 0x043 || (0x0C0 ≤ i && i ≤ 0x0CF) || i == 0x100 || i == 0x140 || i == 0x180

/-- Registers marked remote in Table 1.3: BRWIN, WSREF, READY. -/
def srRemote (i : Nat) : Bool := i == 0x102 || i == 0x140 || i == 0x180

/-- Registers of extent Thread: LANEID, FPST, FPTE and QOCC. -/
def srThread (i : Nat) : Bool := i == 0 || i == 0x080 || i == 0x081 || (0x0C0 ≤ i && i ≤ 0x0CF)

/-- Rules shared by every format M and MA instruction: SC, SZ, an even base that is no queue (R28, R29, R137). -/
def baseOk (a : Opnd) (sc sz : BitVec 3) : Bool := a.alignedTo 2 && sc.toNat ≤ 5 && sz.toNat ≤ 4

/-- The alignment of a data field for SZ (R138). A queue or ZR needs none. -/
def dataAligned (sz : BitVec 3) (d : Opnd) : Bool :=
  d.isQ || d.alignedTo (if sz == 3 then 2 else if sz == 4 then 4 else 1)

/-- A queue as store data is allowed for SZ 0 to 2 (R138). -/
def storeData (sz : BitVec 3) (d : Opnd) : Bool := dataAligned sz d && (!d.isQ || sz.toNat ≤ 2)

/-- A load destination: no queue, and an S register only with U = 1 (R27, R138). -/
def loadDst (sz : BitVec 3) (u : Bool) (d : Opnd) : Bool := dataAligned sz d && !d.isQ && (u || !d.isS)

/-- Uniform memory forms need S or ZR operands (R138). -/
def FmtM.uOk (w : FmtM) : Bool := !w.u || (w.a.isSZ && w.d.isSZ && w.b.isSZ)

def FmtM.ldWf (w : FmtM) : Bool :=
  baseOk w.a w.sc w.sz && w.b == .zr && w.ord.toNat ≤ 1 && !w.mca && w.uOk && loadDst w.sz w.u w.d

def FmtM.stWf (w : FmtM) : Bool :=
  baseOk w.a w.sc w.sz && w.b == .zr && (w.ord == 0 || w.ord == 2) && w.uOk && storeData w.sz w.d

def FmtMA.atomWf (w : FmtMA) (fns : Nat) : Bool :=
  baseOk w.a w.sc w.sz && (w.sz == 2 || w.sz == 3) && decide (w.fn.toNat < fns) &&
    (decide (w.fn.toNat < 9) || w.sz == 2) && loadDst w.sz w.u w.d && dataAligned w.sz w.b &&
    (!w.b.isQ || w.sz == 2) && (!w.u || (w.a.isSZ && w.d.isSZ && w.b.isSZ))

def FmtM.ldqWf (w : FmtM) : Bool :=
  baseOk w.a w.sc w.sz && w.b == .zr && w.ord.toNat ≤ 1 && !w.mca && !w.u && w.d.isQ && w.sz.toNat ≤ 2

def FmtM.pfWf (w : FmtM) : Bool :=
  baseOk w.a w.sc w.sz && w.b == .zr && w.d == .zr && w.sz == 0 && w.ord == 0 && !w.mca && w.uOk

/-- The on-chip accesses of Table 12.4. -/
def FmtM.chipWf (w : FmtM) (store remote : Bool) : Bool :=
  baseOk w.a w.sc w.sz && !w.mca && w.ch == 0 && w.uOk &&
    (if remote then w.b.isSZ && w.sc.toNat ≤ 2 && (w.ord == 0 || w.ord == (if store then 2 else 1))
     else w.b == .zr && w.sc == 0 && w.ord == 0) &&
    (if store then storeData w.sz w.d else loadDst w.sz w.u w.d)

/-- The format X rows of Table 4.7. -/
def FmtX.bare (w : FmtX) : Bool := w.d == .zr && w.rc == 0 && w.tgt == 0

/-- IMM32[15:10] of a barrier instruction is zero, and IMM32[31:16] is below `top` (R194). -/
def barImm (imm : W32) (top : Nat) : Bool := imm.toNat / 1024 % 64 == 0 && decide (imm.toNat / 65536 < top)

/-- The listed queue identifiers (Table 1.12). -/
def qidListed (q : BitVec 16) : Bool :=
  q.toNat < 0x100 || (0x1000 ≤ q.toNat && q.toNat ≤ 0x1007) || q == 0x2000 || q == 0x3000

/-- Format T with only TD and SA in use (Table 15.2). -/
def FmtT.rest (w : FmtT) : Bool :=
  w.sp == 0 && !w.acc && !w.z && w.ta == 0 && !w.asrc && w.mq == 0 && w.kc == .zr && w.sf == 0 && w.sb == 0

/-- CLAIM (R211). -/
def claimWf (w : FmtA) : Bool :=
  !w.u && w.fl == 0 && w.c.unused && w.a.bare && w.b.bare && w.b.o.isV && w.b.o.rangeFits (w.fn.toNat + 1) &&
    (w.a.o == .zr || (w.a.o.isV && w.a.o.alignedTo 2)) &&
    (match w.d, w.b.o with
     | .q _, _ => false
     | .v d, .v b => decide (d.toNat < b.toNat) || decide (b.toNat + w.fn.toNat < d.toNat)
     | _, _ => true)

/-- EXIT.E (R206). -/
def exitEWf (w : FmtA) : Bool :=
  !w.u && w.fl == 0 && w.d == .zr && w.b.bare && w.c.bare && w.b.o.isV && w.b.o.rangeFits (w.fn.toNat + 1) &&
    (w.c.o == .zr || (w.c.o.isV && w.c.o.alignedTo 2))

/-- The encoding rules of every machine instruction; the steps of the part have no encoding. -/
def Instr.wf : Instr → Bool
  | .nop _ => true
  | .iadd w => w.plain 2 1 satUnsBits
  | .isub w => w.plain 2 1 satUnsBits
  | .iaddi w => w.plain
  | .imul w => mulWf w 2
  | .imad w => mulWf w 3
  | .imin w => w.plain 2 1 unsBit
  | .imax w => w.plain 2 1 unsBit
  | .iabs w => w.plain 1 1 satBit
  | .andL w => w.plain 2 1 flNone
  | .orL w => w.plain 2 1 flNone
  | .xorL w => w.plain 2 1 flNone
  | .andn w => w.plain 2 1 flNone
  | .andi w => w.plain
  | .ori w => w.plain
  | .xori w => w.plain
  | .shl w => w.plain 2 1 flNone
  | .shr w => w.plain 2 1 flNone
  | .sar w => w.plain 2 1 flNone
  | .rotl w => w.plain 2 1 flNone
  | .shli w => w.plain && decide (w.imm.toNat ≤ 31)
  | .shri w => w.plain && decide (w.imm.toNat ≤ 31)
  | .sari w => w.plain && decide (w.imm.toNat ≤ 31)
  | .bfe w => w.plain 2 1 unsBit
  | .bfi w => w.plain 3 1 flNone
  | .popc w => w.plain 1 1 flNone
  | .clz w => w.plain 1 1 flNone
  | .brev w => w.plain 1 1 flNone
  | .icmp w => w.plain 6 unsBit
  | .icmpi w => !w.pd.neg && (!w.u || w.a.isSZ)
  | .sel p w => dualOk false p && w.mc == 0 && w.fn == 0 && w.fl == 0 &&
      (if w.u then w.d.isSZ && w.a.o.isSZ && w.b.o.isSZ else !w.d.isS)
  | .mov p w => dualOk false p && w.plain 1 1 flNone
  | .movi w => w.plain && w.a == .zr && !w.fa
  | .iadd64 w => w.plain 2 1 flNone && pairWf w true
  | .lea w => w.plain 2 5 unsBit && pairWf w false
  | .plop w => !w.pd.neg && w.ma == 0 && w.mb == 0 && w.c.unused && decide (w.fn.toNat < 4) && w.fl == 0
  | .prd w => w.plain 0 1 flNone
  | .pwr w => w.plain 2 1 flNone && w.d == .zr
  | .fadd p w => dualOk false p && w.plain 2 1 flAll
  | .fsub p w => dualOk false p && w.plain 2 1 flAll
  | .fmul p w => dualOk false p && w.plain 2 1 flAll
  | .ffma p w => dualOk false p && w.plain 3 1 flAll
  | .fmin p w => dualOk false p && w.plain 2 1 flFlush
  | .fmax p w => dualOk false p && w.plain 2 1 flFlush
  | .fcmp w => w.plain 8 flFlush
  | .fsgn p w => dualOk false p && w.plain 2 3 flNone && (w.fn == 2 || w.b.unused)
  | .frcp p w => dualOk false p && w.plain 1 1 flAll
  | .frsq p w => dualOk false p && w.plain 1 1 flAll
  | .fsqrt p w => dualOk false p && w.plain 1 1 flAll
  | .fex2 p w => dualOk false p && w.plain 1 1 flFlush
  | .flg2 p w => dualOk false p && w.plain 1 1 flFlush
  | .fsin p w => dualOk false p && w.plain 1 1 flFlush
  | .fcos p w => dualOk false p && w.plain 1 1 flFlush
  | .ftanh p w => dualOk false p && w.plain 1 1 flFlush
  | .fdiv p w => dualOk false p && w.plain 2 1 flAll
  | .fmuli p w => dualOk false p && w.plain
  | .faddi p w => dualOk false p && w.plain
  | .hadd2 p w => dualOk false p && w.plain 2 2 flAll
  | .hmul2 p w => dualOk false p && w.plain 2 2 flAll
  | .hfma2 p w => dualOk false p && w.plain 3 2 flAll
  | .hext2 p w => dualOk false p && w.plain 2 4 flFlush
  | .dp4 w => w.plain 3 1 satUnsBits
  | .dp8 w => w.plain 3 1 satUnsBits
  | .dpf8 p w => dualOk false p && w.plain 3 2 flAll
  | .dpf4 p w => dualOk false p && w.plain 3 1 flAll
  | .bscale p w => dualOk false p && bscaleWf w
  | .fcvt p w => dualOk false p && fcvtWf w
  | .i2f w => w.plain 1 2 flRound
  | .f2i w => w.plain 1 2 flAll
  | .pack2 p w => dualOk false p && w.plain 2 3 flAll &&
      (decide (w.fn.toNat < 2) || (p == none && w.fl &&& 6 == 0))
  | .crnd w => w.plain 2 1 flNone
  | .tget w => w.plain 1 4 flNone
  | .tset w => w.plain 1 4 flNone && !w.d.isQ
  | .ld p w => dualOk true p && w.ldWf
  | .st p w => dualOk true p && w.stWf
  | .atom p w => dualOk true p && w.atomWf 12 && (p == none || w.fn == 9)
  | .cas w => w.atomWf 1
  | .ldq p w => dualOk true p && w.ldqWf
  | .pfd w => w.pfWf
  | .pfi w => w.pfWf
  | .qcfg w => w.fn == 0 && !w.u && !w.fa && w.a == .zr && w.d.isQ && decide (w.imm.toNat ≤ 8)
  | .ldt p w => dualOk true p && w.chipWf false true
  | .stt p w => dualOk true p && w.chipWf true true
  | .ldl p w => dualOk true p && w.chipWf false false
  | .stl p w => dualOk true p && w.chipWf true false
  | .ldw p w => dualOk true p && w.chipWf false false
  -- DESIGN CHOICE (log 36): Table 8.3 lists V as the destination of LXCH, and ZR is taken as well
  | .lxch p w => dualOk false p && !w.u && w.c.unused && decide (w.fn.toNat < 4) && decide (w.fl.toNat ≤ 5) &&
      (w.d.isV || w.d == .zr)
  | .ppoll w => !w.u && w.ma == 0 && w.b.unused && w.c.unused && w.fl == 0 &&
      (match w.d with
       | .pred p => !p.neg && decide (w.fn.toNat < 2)
       | .reg o => o.isVSZ && w.fn == 2)
  | .lred w => !w.u && w.srcs 1 && decide (w.fn.toNat < 8) && w.fl == 0 && w.d.isVSZ
  | .leqv w => !w.u && w.srcs 1 && decide (w.fn.toNat < 2) && w.fl == 0 && w.d.isVSZ
  | .lpick p w => dualOk false p && !w.u && w.srcs 2 && w.fn == 0 && w.fl == 0 && w.d.isSZ &&
      (w.a.o.isV || w.a.o.isS) && w.b.o.isSZ
  | .bra w => w.d == .zr
  | .brx w => w.d.isVSZ && w.tgt == 0
  | .call w => w.d.isVSZ && w.rc == 0
  | .ret w => w.d.isVSZ && w.rc == 0 && w.tgt == 0
  | .loop w => w.d.isVSZ && w.rc == 0 && decide (4 ≤ w.tgt.toInt)
  | .lbrk w => w.bare
  | .exit w => !w.u && w.fl == 0 && w.fn == 0 && w.srcs 1 && w.d == .zr
  | .exitE w => exitEWf w
  | .claim w => claimWf w
  | .trap w => w.bareImm
  | .bkpt w => w.bareImm
  | .tret w => w.bare
  | .region w => w.bare
  | .yield w => w.bare
  | .waitf w => w.fn == 0 && w.fl == 0 && w.a.bare && w.b.bare && w.c.bare &&
      (!w.u || (w.a.o.isSZ && w.b.o.isSZ && w.c.o.isSZ)) &&
      (match w.pd with
       | none => true
       | some p => !p.neg)
  | .mfs w => w.fn == 0 && w.a == .zr && !w.fa && srListed w.imm.toNat && (!w.u || w.d.isSZ)
  | .mts w => w.fn == 0 && w.d == .zr && srListed w.imm.toNat && !srReadOnly w.imm.toNat && !w.u
  | .bari w => w.fn == 0 && w.u && w.a.isSZ && w.d.isSZ && w.d.alignedTo 2 && barImm w.imm 65536
  | .bara w => w.fn == 0 && w.a.isSZ && w.d == .zr && barImm w.imm 1
  | .barw w => w.fn == 0 && w.a.isSZ && w.d.isSZ && barImm w.imm 2
  | .bart w => w.fn == 0 && w.a.isSZ && !w.pd.neg && barImm w.imm 2
  | .barx w => w.fn == 0 && w.u && w.a.isSZ && w.d.isSZ && w.d.alignedTo 2 && barImm w.imm 1
  | .fbar w => w.fn == 0 && w.u && w.a == .zr && w.d == .zr && !w.fa && barImm w.imm 65536
  | .push w => qidListed w.qid && decide (w.sb.toNat ≤ 48)
  | .wpw w => decide (w.qid.toNat < 0x100) && decide (w.sb.toNat ≤ 48) && w.gslot == 0
  | .guard w => qidListed w.qid && decide (w.sb.toNat ≤ 48) && w.pf == 7 && w.gslot != 0
  | .tgrab w => w.fn == 0 && w.u && w.a == .zr && !w.fa && w.d.isS && w.d.alignedTo 4 && decide (w.imm.toNat < 256)
  | .tdone w => w.fn == 0 && w.u && w.a == .zr && !w.fa && w.d.isS && w.d.alignedTo 4 && w.imm == 0
  | .tcfg w => w.rest && w.td == 0 && decide (w.sa.toNat ≤ 60)
  | .trel w => w.rest && w.sa == 0
  | .mzero p w => dualOk false p && w.rest && w.sa == 0
  | .mloop p w => dualOk false p && decide (w.sa.toNat ≤ 60) && decide (w.sb.toNat ≤ 62) &&
      decide (w.sf.toNat ≤ 62) && w.kc.isSZ && decide (w.mq.toNat < 2) && decide (w.sp.toNat < 2)
  | .mst p w => dualOk false p && w.rest && decide (w.sa.toNat ≤ 60)
  | .mld p w => dualOk false p && w.rest && decide (w.sa.toNat ≤ 60)
  | .mflg w => w.srcs 0 && w.fn == 0 && w.fl == 0 &&
      (if w.u then w.d.isSZ else w.d.isV || w.d == .zr)
  | _ => true

/-- The step is a machine instruction, one that a group fetches and issues. -/
def Instr.isMachine : Instr → Bool
  | .loadLands .. | .ldqEntryLands .. | .crndLands .. | .remoteMfsLands .. | .claimLands .. | .atomResultLands ..
  | .asyncFault .. | .instructionMissFill .. | .translationWalk .. | .barrierRelease .. | .launchPort .. | .launch ..
  | .dependenceResolve .. | .teamPlacement .. | .launchComplete .. | .task .. | .copy .. | .copy2d .. | .reblock ..
  | .gather .. | .fill .. | .wsload .. | .dsnap .. | .exch .. | .combine .. | .preempt .. | .resume ..
  | .commandStart .. | .delivery .. | .commandComplete .. | .returnWordLands .. | .matrixOperationStart ..
  | .kStep .. | .matrixOperationComplete .. | .blockArrival .. | .codedPacket .. | .decodeFallback ..
  | .fabricBarrierComplete .. | .wsRefresh .. | .replay .. | .endLaunch .. | .continue_ .. | .tlbinv ..
  | .invalidationComplete .. | .debugRead .. | .debugWrite .. | .debugstop .. | .contextCreate ..
  | .contextDestroy .. | .contextDestroyDetach .. | .supmask .. | .attest .. | .hostRegisterWrite ..
  | .memoryWindowWrite .. | .memoryWindowRead .. | .status | .recover .. | .recoverN | .getrecord | .i3cAttest ..
  | .loadfw .. | .powerGood | .functionReady .. | .readinessTimeout .. | .partFailure .. | .fence .. | .acklost ..
  | .wilkaiFlit .. | .retransmitTimeout .. | .limitExceeded | .refreshWindowEnd .. | .mcaSingleMoment ..
  | .writeArrival .. | .peerDeviceAccess .. | .powerLoss => false
  | _ => true

end Sys2Proof
end

