-- ==== Sys2Proof/Decode.lean ====
section
/-! DEFINITION. From code units to instructions and back (spec/01 Tables 1.4 to 1.15).
Decoding is total and refuses by name; a refusal is an ILLOP of the machine (R35). -/

namespace Sys2Proof

/-- Why a word is no instruction. Each traps ILLOP (R35). -/
inductive DecodeErr where
  /-- fewer units than the instruction has -/
  | truncated
  /-- a prefix opcode other than 0xF1, N above 4, or a nonzero bit in [31:12] (R25) -/
  | badPrefix
  /-- DUAL followed by a prefix unit (R25) -/
  | prefixPrefix
  /-- DUAL before an instruction that does not accept it (R25, R130) -/
  | prefixRefused
  /-- an opcode absent from Table 1.15 (R34) -/
  | noOpcode
  /-- an operand field of 0xD0 to 0xFE (R31), or a selector with a nonzero [7:4] (R79) -/
  | reservedOperand
  /-- a nonzero field marked must be zero (R29) -/
  | mustBeZero
  /-- a field value its instruction does not allow (R27, R29, R33, R34 and the entries) -/
  | illegalField
  deriving DecidableEq, Repr

/-! ### Fields -/

def Guard.code (g : Guard) : BitVec 4 := BitVec.ofBool g.neg ++ g.pn

def Guard.ofCode (c : BitVec 4) : Guard := ⟨c.getLsbD 3, c.extractLsb' 0 3⟩

def Opnd.code : Opnd → BitVec 8
  | .v n => 0#1 ++ n
  | .s n => 2#2 ++ n
  | .q n => 12#4 ++ n
  | .zr => 0xFF#8

/-- Table 1.13. -/
def Opnd.ofCode (c : BitVec 8) : Except DecodeErr Opnd :=
  if c.toNat < 0x80 then .ok (.v (c.extractLsb' 0 7))
  else if c.toNat < 0xC0 then .ok (.s (c.extractLsb' 0 6))
  else if c.toNat < 0xD0 then .ok (.q (c.extractLsb' 0 4))
  else if c = 0xFF#8 then .ok .zr
  else .error .reservedOperand

def PSel.code (p : PSel) : BitVec 8 := 0#4 ++ BitVec.ofBool p.neg ++ p.pn

/-- Table 4.2. -/
def PSel.ofCode (c : BitVec 8) : Except DecodeErr PSel :=
  if c.toNat < 16 then .ok ⟨c.getLsbD 3, c.extractLsb' 0 3⟩ else .error .reservedOperand

/-- A modifier field: reader mode in bit 3, SEL below (R15, R32). -/
def Src.mod (s : Src) : BitVec 4 := BitVec.ofBool s.trap ++ s.sel

def Src.ofCode (c : BitVec 8) (m : BitVec 4) : Except DecodeErr Src :=
  (Opnd.ofCode c).map fun o => ⟨o, m.extractLsb' 0 3, m.getLsbD 3⟩

/-- Bits [lo+len-1:lo] of a word. -/
abbrev fld (w : W64) (lo len : Nat) : BitVec len := w.extractLsb' lo len

/-! ### Formats -/

def decNop (w : W64) : Except DecodeErr FmtNop := .ok ⟨Guard.ofCode (fld w 8 4), fld w 12 52⟩

def encNop (op : BitVec 8) (x : FmtNop) : W64 := x.rest ++ x.g.code ++ op

def decA (w : W64) : Except DecodeErr FmtA := do
  let d ← Opnd.ofCode (fld w 12 8)
  let a ← Src.ofCode (fld w 20 8) (fld w 44 4)
  let b ← Src.ofCode (fld w 28 8) (fld w 48 4)
  let c ← Src.ofCode (fld w 36 8) (fld w 52 4)
  .ok ⟨Guard.ofCode (fld w 8 4), w.getLsbD 60, d, a, b, c, fld w 56 4, fld w 61 3⟩

def encA (op : BitVec 8) (x : FmtA) : W64 :=
  x.fl ++ BitVec.ofBool x.u ++ x.fn ++ x.c.mod ++ x.b.mod ++ x.a.mod ++ x.c.o.code ++ x.b.o.code ++ x.a.o.code ++
    x.d.code ++ x.g.code ++ op

def decAP (w : W64) : Except DecodeErr FmtAP := do
  let pd ← PSel.ofCode (fld w 12 8)
  let a ← Src.ofCode (fld w 20 8) (fld w 44 4)
  let b ← Src.ofCode (fld w 28 8) (fld w 48 4)
  let c ← Src.ofCode (fld w 36 8) (fld w 52 4)
  .ok ⟨Guard.ofCode (fld w 8 4), w.getLsbD 60, pd, a, b, c, fld w 56 4, fld w 61 3⟩

def encAP (op : BitVec 8) (x : FmtAP) : W64 :=
  x.fl ++ BitVec.ofBool x.u ++ x.fn ++ x.c.mod ++ x.b.mod ++ x.a.mod ++ x.c.o.code ++ x.b.o.code ++ x.a.o.code ++
    x.pd.code ++ x.g.code ++ op

def decSel (w : W64) : Except DecodeErr FmtSel := do
  let d ← Opnd.ofCode (fld w 12 8)
  let a ← Src.ofCode (fld w 20 8) (fld w 44 4)
  let b ← Src.ofCode (fld w 28 8) (fld w 48 4)
  let pc ← PSel.ofCode (fld w 36 8)
  .ok ⟨Guard.ofCode (fld w 8 4), w.getLsbD 60, d, a, b, pc, fld w 52 4, fld w 56 4, fld w 61 3⟩

def encSel (op : BitVec 8) (x : FmtSel) : W64 :=
  x.fl ++ BitVec.ofBool x.u ++ x.fn ++ x.mc ++ x.b.mod ++ x.a.mod ++ x.pc.code ++ x.b.o.code ++ x.a.o.code ++
    x.d.code ++ x.g.code ++ op

def decPlop (w : W64) : Except DecodeErr FmtPlop := do
  let pd ← PSel.ofCode (fld w 12 8)
  let pa ← PSel.ofCode (fld w 20 8)
  let pb ← PSel.ofCode (fld w 28 8)
  let c ← Src.ofCode (fld w 36 8) (fld w 52 4)
  .ok ⟨Guard.ofCode (fld w 8 4), w.getLsbD 60, pd, pa, fld w 44 4, pb, fld w 48 4, c, fld w 56 4, fld w 61 3⟩

def encPlop (op : BitVec 8) (x : FmtPlop) : W64 :=
  x.fl ++ BitVec.ofBool x.u ++ x.fn ++ x.c.mod ++ x.mb ++ x.ma ++ x.c.o.code ++ x.pb.code ++ x.pa.code ++
    x.pd.code ++ x.g.code ++ op

/-- PPOLL: D is a selector for FN 0 and 1, a register otherwise (Table 8.3). -/
def decPoll (w : W64) : Except DecodeErr FmtPoll := do
  let d ← if (fld w 56 4).toNat < 2 then (PSel.ofCode (fld w 12 8)).map PollDst.pred
          else (Opnd.ofCode (fld w 12 8)).map PollDst.reg
  let pa ← PSel.ofCode (fld w 20 8)
  let b ← Src.ofCode (fld w 28 8) (fld w 48 4)
  let c ← Src.ofCode (fld w 36 8) (fld w 52 4)
  .ok ⟨Guard.ofCode (fld w 8 4), w.getLsbD 60, d, pa, fld w 44 4, b, c, fld w 56 4, fld w 61 3⟩

def PollDst.code : PollDst → BitVec 8
  | .pred p => p.code
  | .reg o => o.code

def encPoll (op : BitVec 8) (x : FmtPoll) : W64 :=
  x.fl ++ BitVec.ofBool x.u ++ x.fn ++ x.c.mod ++ x.b.mod ++ x.ma ++ x.c.o.code ++ x.b.o.code ++ x.pa.code ++
    x.d.code ++ x.g.code ++ op

/-- WAITF: D = 0xFF is the waiting form (R104). -/
def decWait (w : W64) : Except DecodeErr FmtWait := do
  let pd ← if fld w 12 8 = 0xFF#8 then .ok none else (PSel.ofCode (fld w 12 8)).map some
  let a ← Src.ofCode (fld w 20 8) (fld w 44 4)
  let b ← Src.ofCode (fld w 28 8) (fld w 48 4)
  let c ← Src.ofCode (fld w 36 8) (fld w 52 4)
  .ok ⟨Guard.ofCode (fld w 8 4), w.getLsbD 60, pd, a, b, c, fld w 56 4, fld w 61 3⟩

def encWait (op : BitVec 8) (x : FmtWait) : W64 :=
  x.fl ++ BitVec.ofBool x.u ++ x.fn ++ x.c.mod ++ x.b.mod ++ x.a.mod ++ x.c.o.code ++ x.b.o.code ++ x.a.o.code ++
    (match x.pd with
     | none => 0xFF#8
     | some p => p.code) ++ x.g.code ++ op

def decB (w : W64) : Except DecodeErr FmtB := do
  let d ← Opnd.ofCode (fld w 12 8)
  let a ← Opnd.ofCode (fld w 20 8)
  .ok ⟨Guard.ofCode (fld w 8 4), w.getLsbD 29, d, a, w.getLsbD 28, fld w 30 2, fld w 32 32⟩

def encB (op : BitVec 8) (x : FmtB) : W64 :=
  x.imm ++ x.fn ++ BitVec.ofBool x.u ++ BitVec.ofBool x.fa ++ x.a.code ++ x.d.code ++ x.g.code ++ op

def decBP (w : W64) : Except DecodeErr FmtBP := do
  let pd ← PSel.ofCode (fld w 12 8)
  let a ← Opnd.ofCode (fld w 20 8)
  .ok ⟨Guard.ofCode (fld w 8 4), w.getLsbD 29, pd, a, w.getLsbD 28, fld w 30 2, fld w 32 32⟩

def encBP (op : BitVec 8) (x : FmtBP) : W64 :=
  x.imm ++ x.fn ++ BitVec.ofBool x.u ++ BitVec.ofBool x.fa ++ x.a.code ++ x.pd.code ++ x.g.code ++ op

def decM (w : W64) : Except DecodeErr FmtM := do
  let d ← Opnd.ofCode (fld w 12 8)
  let a ← Opnd.ofCode (fld w 20 8)
  let b ← Opnd.ofCode (fld w 28 8)
  .ok ⟨Guard.ofCode (fld w 8 4), fld w 62 2, w.getLsbD 61, w.getLsbD 60, fld w 58 2, fld w 55 3, fld w 52 3,
    fld w 36 16, b, a, d⟩

def encM (op : BitVec 8) (x : FmtM) : W64 :=
  x.ch ++ BitVec.ofBool x.mca ++ BitVec.ofBool x.u ++ x.ord ++ x.sc ++ x.sz ++ x.ofs ++ x.b.code ++ x.a.code ++
    x.d.code ++ x.g.code ++ op

def decMA (w : W64) : Except DecodeErr FmtMA := do
  let d ← Opnd.ofCode (fld w 12 8)
  let a ← Opnd.ofCode (fld w 20 8)
  let b ← Opnd.ofCode (fld w 28 8)
  .ok ⟨Guard.ofCode (fld w 8 4), fld w 62 2, w.getLsbD 61, w.getLsbD 60, fld w 58 2, fld w 55 3, fld w 52 3,
    fld w 48 4, fld w 36 12, b, a, d⟩

def encMA (op : BitVec 8) (x : FmtMA) : W64 :=
  x.ch ++ BitVec.ofBool x.mca ++ BitVec.ofBool x.u ++ x.ord ++ x.sc ++ x.sz ++ x.fn ++ x.ofs ++ x.b.code ++
    x.a.code ++ x.d.code ++ x.g.code ++ op

def decX (w : W64) : Except DecodeErr FmtX := do
  let d ← Opnd.ofCode (fld w 12 8)
  .ok ⟨Guard.ofCode (fld w 8 4), fld w 40 24, fld w 20 20, d⟩

def encX (op : BitVec 8) (x : FmtX) : W64 := x.tgt ++ x.rc ++ x.d.code ++ x.g.code ++ op

def decP (w : W64) : Except DecodeErr FmtP :=
  if fld w 56 8 = 0 ∧ fld w 22 10 = 0 ∧ fld w 15 1 = 0 then
    .ok ⟨Guard.ofCode (fld w 8 4), fld w 48 8, fld w 32 16, fld w 16 6, fld w 12 3⟩
  else .error .mustBeZero

def encP (op : BitVec 8) (x : FmtP) : W64 :=
  0#8 ++ x.gslot ++ x.qid ++ 0#10 ++ x.sb ++ 0#1 ++ x.pf ++ x.g.code ++ op

def decT (w : W64) : Except DecodeErr FmtT :=
  if fld w 52 12 = 0 ∧ fld w 15 1 = 0 then
    (Opnd.ofCode (fld w 34 8)).map fun kc =>
      ⟨Guard.ofCode (fld w 8 4), fld w 50 2, w.getLsbD 49, w.getLsbD 48, fld w 45 3, w.getLsbD 44, fld w 42 2, kc,
        fld w 28 6, fld w 22 6, fld w 16 6, fld w 12 3⟩
  else .error .mustBeZero

def encT (op : BitVec 8) (x : FmtT) : W64 :=
  0#12 ++ x.sp ++ BitVec.ofBool x.acc ++ BitVec.ofBool x.z ++ x.ta ++ BitVec.ofBool x.asrc ++ x.mq ++ x.kc.code ++
    x.sf ++ x.sb ++ x.sa ++ 0#1 ++ x.td ++ x.g.code ++ op

/-! ### Words -/

/-- An instruction outside Table 5.6 refuses the prefix (R25). -/
def noDual (p : Option Dual) (r : Except DecodeErr Instr) : Except DecodeErr Instr :=
  match p with
  | none => r
  | some _ => .error .prefixRefused

/-- Opcode 0x86 is EXIT when B holds ZR, else EXIT.E (R173, R206). -/
def exitOf (w : FmtA) : Instr := if w.b.o = .zr then .exit w else .exitE w

/-- The opcode map (Table 1.15). -/
def decodeFields (p : Option Dual) (w : W64) : Except DecodeErr Instr :=
  match (fld w 0 8).toNat with
  | 0x01 => noDual p ((decNop w).map .nop)
  | 0x02 => noDual p ((decA w).map .iadd)
  | 0x03 => noDual p ((decB w).map .iaddi)
  | 0x04 => noDual p ((decA w).map .isub)
  | 0x05 => noDual p ((decA w).map .imul)
  | 0x06 => noDual p ((decA w).map .imad)
  | 0x07 => noDual p ((decA w).map .imin)
  | 0x08 => noDual p ((decA w).map .imax)
  | 0x09 => noDual p ((decA w).map .iabs)
  | 0x0A => noDual p ((decA w).map .andL)
  | 0x0B => noDual p ((decA w).map .orL)
  | 0x0C => noDual p ((decA w).map .xorL)
  | 0x0D => noDual p ((decA w).map .andn)
  | 0x0E => noDual p ((decB w).map .andi)
  | 0x0F => noDual p ((decB w).map .ori)
  | 0x10 => noDual p ((decB w).map .xori)
  | 0x11 => noDual p ((decA w).map .shl)
  | 0x12 => noDual p ((decA w).map .shr)
  | 0x13 => noDual p ((decA w).map .sar)
  | 0x14 => noDual p ((decB w).map .shli)
  | 0x15 => noDual p ((decB w).map .shri)
  | 0x16 => noDual p ((decB w).map .sari)
  | 0x17 => noDual p ((decA w).map .rotl)
  | 0x18 => noDual p ((decA w).map .bfe)
  | 0x19 => noDual p ((decA w).map .bfi)
  | 0x1A => noDual p ((decA w).map .popc)
  | 0x1B => noDual p ((decA w).map .clz)
  | 0x1C => noDual p ((decA w).map .brev)
  | 0x1D => noDual p ((decAP w).map .icmp)
  | 0x1E => noDual p ((decBP w).map .icmpi)
  | 0x1F => (decSel w).map (.sel p)
  | 0x20 => (decA w).map (.mov p)
  | 0x21 => noDual p ((decB w).map .movi)
  | 0x22 => noDual p ((decA w).map .iadd64)
  | 0x23 => noDual p ((decA w).map .lea)
  | 0x24 => noDual p ((decPlop w).map .plop)
  | 0x25 => noDual p ((decA w).map .prd)
  | 0x26 => noDual p ((decA w).map .pwr)
  | 0x30 => (decA w).map (.fadd p)
  | 0x31 => (decA w).map (.fsub p)
  | 0x32 => (decA w).map (.fmul p)
  | 0x33 => (decA w).map (.ffma p)
  | 0x34 => (decA w).map (.fmin p)
  | 0x35 => (decA w).map (.fmax p)
  | 0x36 => noDual p ((decAP w).map .fcmp)
  | 0x37 => (decA w).map (.fsgn p)
  | 0x38 => (decA w).map (.frcp p)
  | 0x39 => (decA w).map (.frsq p)
  | 0x3A => (decA w).map (.fsqrt p)
  | 0x3B => (decA w).map (.fex2 p)
  | 0x3C => (decA w).map (.flg2 p)
  | 0x3D => (decA w).map (.fsin p)
  | 0x3E => (decA w).map (.fcos p)
  | 0x3F => (decA w).map (.ftanh p)
  | 0x40 => (decA w).map (.fdiv p)
  | 0x41 => (decB w).map (.fmuli p)
  | 0x42 => (decB w).map (.faddi p)
  | 0x44 => (decA w).map (.hadd2 p)
  | 0x45 => (decA w).map (.hmul2 p)
  | 0x46 => (decA w).map (.hfma2 p)
  | 0x47 => (decA w).map (.hext2 p)
  | 0x48 => noDual p ((decA w).map .dp4)
  | 0x49 => noDual p ((decA w).map .dp8)
  | 0x4A => (decA w).map (.dpf8 p)
  | 0x4B => (decA w).map (.dpf4 p)
  | 0x4C => (decA w).map (.bscale p)
  | 0x50 => (decA w).map (.fcvt p)
  | 0x51 => noDual p ((decA w).map .i2f)
  | 0x52 => noDual p ((decA w).map .f2i)
  | 0x53 => (decA w).map (.pack2 p)
  | 0x54 => noDual p ((decA w).map .crnd)
  | 0x58 => noDual p ((decA w).map .tget)
  | 0x59 => noDual p ((decA w).map .tset)
  | 0x60 => (decM w).map (.ld p)
  | 0x61 => (decM w).map (.st p)
  | 0x62 => (decMA w).map (.atom p)
  | 0x63 => noDual p ((decMA w).map .cas)
  | 0x64 => (decM w).map (.ldq p)
  | 0x65 => (decM w).map (.ldt p)
  | 0x66 => (decM w).map (.stt p)
  | 0x67 => (decM w).map (.ldl p)
  | 0x68 => (decM w).map (.stl p)
  | 0x69 => (decM w).map (.ldw p)
  | 0x6A => noDual p ((decM w).map .pfd)
  | 0x6B => noDual p ((decM w).map .pfi)
  | 0x6C => noDual p ((decB w).map .qcfg)
  | 0x70 => (decA w).map (.lxch p)
  | 0x71 => noDual p ((decPoll w).map .ppoll)
  | 0x72 => noDual p ((decA w).map .lred)
  | 0x73 => noDual p ((decA w).map .leqv)
  | 0x74 => (decA w).map (.lpick p)
  | 0x80 => noDual p ((decX w).map .bra)
  | 0x81 => noDual p ((decX w).map .brx)
  | 0x82 => noDual p ((decX w).map .call)
  | 0x83 => noDual p ((decX w).map .ret)
  | 0x84 => noDual p ((decX w).map .loop)
  | 0x85 => noDual p ((decX w).map .lbrk)
  | 0x86 => noDual p ((decA w).map exitOf)
  | 0x87 => noDual p ((decA w).map .claim)
  | 0x88 => noDual p ((decB w).map .trap)
  | 0x89 => noDual p ((decX w).map .tret)
  | 0x8A => noDual p ((decX w).map .region)
  | 0x8B => noDual p ((decX w).map .yield)
  | 0x8C => noDual p ((decWait w).map .waitf)
  | 0x8D => noDual p ((decB w).map .bkpt)
  | 0x90 => noDual p ((decB w).map .bari)
  | 0x91 => noDual p ((decB w).map .bara)
  | 0x92 => noDual p ((decB w).map .barw)
  | 0x93 => noDual p ((decBP w).map .bart)
  | 0x94 => noDual p ((decB w).map .barx)
  | 0x95 => noDual p ((decB w).map .fbar)
  | 0xA0 => noDual p ((decP w).map .push)
  | 0xA1 => noDual p ((decP w).map .wpw)
  | 0xA2 => noDual p ((decP w).map .guard)
  | 0xB0 => noDual p ((decT w).map .tcfg)
  | 0xB1 => noDual p ((decT w).map .trel)
  | 0xB2 => (decT w).map (.mzero p)
  | 0xB3 => (decT w).map (.mloop p)
  | 0xB4 => (decT w).map (.mst p)
  | 0xB5 => (decT w).map (.mld p)
  | 0xB6 => noDual p ((decA w).map .mflg)
  | 0xC0 => noDual p ((decB w).map .tgrab)
  | 0xC1 => noDual p ((decB w).map .tdone)
  | 0xD0 => noDual p ((decB w).map .mfs)
  | 0xD1 => noDual p ((decB w).map .mts)
  | _ => .error .noOpcode

/-- One instruction word under an optional prefix, with every encoding rule checked. -/
def decodeWord (p : Option Dual) (w : W64) : Except DecodeErr Instr :=
  match decodeFields p w with
  | .error e => .error e
  | .ok i => if i.wf then .ok i else .error .illegalField

/-- The prefix unit (Table 1.4). -/
def decodePrefix (u : W32) : Except DecodeErr Dual :=
  if u.extractLsb' 0 8 = 0xF1#8 ∧ u.extractLsb' 12 20 = 0 ∧ (u.extractLsb' 8 3).toNat ≤ 4 then
    .ok ⟨u.extractLsb' 8 3, u.getLsbD 11⟩
  else .error .badPrefix

def Dual.unit (p : Dual) : W32 := 0#20 ++ BitVec.ofBool p.tm ++ p.n ++ 0xF1#8

/-- A unit at an instruction boundary is a prefix when its low byte is 0xF0 or above (R23). -/
def isPrefixUnit (u : W32) : Bool := 0xF0 ≤ (u.extractLsb' 0 8).toNat

/-- Decode the instruction that starts at the first unit (R23). -/
def decode : List W32 → Except DecodeErr Instr
  | [] => .error .truncated
  | u :: rest =>
    if isPrefixUnit u then
      match decodePrefix u with
      | .error e => .error e
      | .ok p =>
        match rest with
        | lo :: hi :: _ => if isPrefixUnit lo then .error .prefixPrefix else decodeWord (some p) (hi ++ lo)
        | _ => .error .truncated
    else
      match rest with
      | hi :: _ => decodeWord none (hi ++ u)
      | [] => .error .truncated

/-- The instruction the decoder reads from a table word: `nbits` bits of `w`, the first unit lowest. -/
def decodeTableWord (nbits w : Nat) : Option Instr :=
  let v := w % 2 ^ nbits
  (decode [BitVec.ofNat 32 v, BitVec.ofNat 32 (v / 2 ^ 32), BitVec.ofNat 32 (v / 2 ^ 64)]).toOption

/-! ### The encoder -/

/-- The prefix and the word of a machine instruction; none for a step that no group fetches. -/
def encodeWord : Instr → Option (Option Dual × W64)
  | .nop w => some (none, encNop 0x01 w)
  | .iadd w => some (none, encA 0x02 w)
  | .iaddi w => some (none, encB 0x03 w)
  | .isub w => some (none, encA 0x04 w)
  | .imul w => some (none, encA 0x05 w)
  | .imad w => some (none, encA 0x06 w)
  | .imin w => some (none, encA 0x07 w)
  | .imax w => some (none, encA 0x08 w)
  | .iabs w => some (none, encA 0x09 w)
  | .andL w => some (none, encA 0x0A w)
  | .orL w => some (none, encA 0x0B w)
  | .xorL w => some (none, encA 0x0C w)
  | .andn w => some (none, encA 0x0D w)
  | .andi w => some (none, encB 0x0E w)
  | .ori w => some (none, encB 0x0F w)
  | .xori w => some (none, encB 0x10 w)
  | .shl w => some (none, encA 0x11 w)
  | .shr w => some (none, encA 0x12 w)
  | .sar w => some (none, encA 0x13 w)
  | .shli w => some (none, encB 0x14 w)
  | .shri w => some (none, encB 0x15 w)
  | .sari w => some (none, encB 0x16 w)
  | .rotl w => some (none, encA 0x17 w)
  | .bfe w => some (none, encA 0x18 w)
  | .bfi w => some (none, encA 0x19 w)
  | .popc w => some (none, encA 0x1A w)
  | .clz w => some (none, encA 0x1B w)
  | .brev w => some (none, encA 0x1C w)
  | .icmp w => some (none, encAP 0x1D w)
  | .icmpi w => some (none, encBP 0x1E w)
  | .sel p w => some (p, encSel 0x1F w)
  | .mov p w => some (p, encA 0x20 w)
  | .movi w => some (none, encB 0x21 w)
  | .iadd64 w => some (none, encA 0x22 w)
  | .lea w => some (none, encA 0x23 w)
  | .plop w => some (none, encPlop 0x24 w)
  | .prd w => some (none, encA 0x25 w)
  | .pwr w => some (none, encA 0x26 w)
  | .fadd p w => some (p, encA 0x30 w)
  | .fsub p w => some (p, encA 0x31 w)
  | .fmul p w => some (p, encA 0x32 w)
  | .ffma p w => some (p, encA 0x33 w)
  | .fmin p w => some (p, encA 0x34 w)
  | .fmax p w => some (p, encA 0x35 w)
  | .fcmp w => some (none, encAP 0x36 w)
  | .fsgn p w => some (p, encA 0x37 w)
  | .frcp p w => some (p, encA 0x38 w)
  | .frsq p w => some (p, encA 0x39 w)
  | .fsqrt p w => some (p, encA 0x3A w)
  | .fex2 p w => some (p, encA 0x3B w)
  | .flg2 p w => some (p, encA 0x3C w)
  | .fsin p w => some (p, encA 0x3D w)
  | .fcos p w => some (p, encA 0x3E w)
  | .ftanh p w => some (p, encA 0x3F w)
  | .fdiv p w => some (p, encA 0x40 w)
  | .fmuli p w => some (p, encB 0x41 w)
  | .faddi p w => some (p, encB 0x42 w)
  | .hadd2 p w => some (p, encA 0x44 w)
  | .hmul2 p w => some (p, encA 0x45 w)
  | .hfma2 p w => some (p, encA 0x46 w)
  | .hext2 p w => some (p, encA 0x47 w)
  | .dp4 w => some (none, encA 0x48 w)
  | .dp8 w => some (none, encA 0x49 w)
  | .dpf8 p w => some (p, encA 0x4A w)
  | .dpf4 p w => some (p, encA 0x4B w)
  | .bscale p w => some (p, encA 0x4C w)
  | .fcvt p w => some (p, encA 0x50 w)
  | .i2f w => some (none, encA 0x51 w)
  | .f2i w => some (none, encA 0x52 w)
  | .pack2 p w => some (p, encA 0x53 w)
  | .crnd w => some (none, encA 0x54 w)
  | .tget w => some (none, encA 0x58 w)
  | .tset w => some (none, encA 0x59 w)
  | .ld p w => some (p, encM 0x60 w)
  | .st p w => some (p, encM 0x61 w)
  | .atom p w => some (p, encMA 0x62 w)
  | .cas w => some (none, encMA 0x63 w)
  | .ldq p w => some (p, encM 0x64 w)
  | .ldt p w => some (p, encM 0x65 w)
  | .stt p w => some (p, encM 0x66 w)
  | .ldl p w => some (p, encM 0x67 w)
  | .stl p w => some (p, encM 0x68 w)
  | .ldw p w => some (p, encM 0x69 w)
  | .pfd w => some (none, encM 0x6A w)
  | .pfi w => some (none, encM 0x6B w)
  | .qcfg w => some (none, encB 0x6C w)
  | .lxch p w => some (p, encA 0x70 w)
  | .ppoll w => some (none, encPoll 0x71 w)
  | .lred w => some (none, encA 0x72 w)
  | .leqv w => some (none, encA 0x73 w)
  | .lpick p w => some (p, encA 0x74 w)
  | .bra w => some (none, encX 0x80 w)
  | .brx w => some (none, encX 0x81 w)
  | .call w => some (none, encX 0x82 w)
  | .ret w => some (none, encX 0x83 w)
  | .loop w => some (none, encX 0x84 w)
  | .lbrk w => some (none, encX 0x85 w)
  | .exit w => some (none, encA 0x86 w)
  | .exitE w => some (none, encA 0x86 w)
  | .claim w => some (none, encA 0x87 w)
  | .trap w => some (none, encB 0x88 w)
  | .tret w => some (none, encX 0x89 w)
  | .region w => some (none, encX 0x8A w)
  | .yield w => some (none, encX 0x8B w)
  | .waitf w => some (none, encWait 0x8C w)
  | .bkpt w => some (none, encB 0x8D w)
  | .bari w => some (none, encB 0x90 w)
  | .bara w => some (none, encB 0x91 w)
  | .barw w => some (none, encB 0x92 w)
  | .bart w => some (none, encBP 0x93 w)
  | .barx w => some (none, encB 0x94 w)
  | .fbar w => some (none, encB 0x95 w)
  | .push w => some (none, encP 0xA0 w)
  | .wpw w => some (none, encP 0xA1 w)
  | .guard w => some (none, encP 0xA2 w)
  | .tcfg w => some (none, encT 0xB0 w)
  | .trel w => some (none, encT 0xB1 w)
  | .mzero p w => some (p, encT 0xB2 w)
  | .mloop p w => some (p, encT 0xB3 w)
  | .mst p w => some (p, encT 0xB4 w)
  | .mld p w => some (p, encT 0xB5 w)
  | .mflg w => some (none, encA 0xB6 w)
  | .tgrab w => some (none, encB 0xC0 w)
  | .tdone w => some (none, encB 0xC1 w)
  | .mfs w => some (none, encB 0xD0 w)
  | .mts w => some (none, encB 0xD1 w)
  | _ => none

/-- The code units of a machine instruction, in memory order (R23, R25). -/
def encode (i : Instr) : List W32 :=
  match encodeWord i with
  | none => []
  | some (p, w) =>
    (match p with
     | none => []
     | some d => [d.unit]) ++ [fld w 0 32, fld w 32 32]

/-- The bytes an instruction occupies: 12 with an explicit prefix, else 8 (R23). -/
def Instr.size (i : Instr) : Nat := 4 * (encode i).length

end Sys2Proof
end

