-- ==== Sys2Proof/Config.lean ====
section
/-! DEFINITION. What one implementation fixes and the manual does not state: free values, without bodies.
No proof can learn what they are. -/

namespace Sys2Proof.Config

/-- A fresh free word (log 2): applied to the counter that `State.free` holds. -/
opaque freeWord : Nat → W32

/-- A fresh free natural number (log 2). -/
opaque freeNat : Nat → Nat

/-- A fresh free choice between two outcomes (log 2). -/
opaque freeBit : Nat → Bool

/-- A free choice by one access of several lanes (log 11): the first argument is the counter, the second names the
location. -/
opaque laneChoice : Nat → Nat → Nat

/-- The word that stands for piece name 0 of the task unit (log 24): handles are counted from it. -/
opaque handleBase : W32

/-- Cycles that pass at a core in step `n` (log 8). The manual bounds times, it does not give them (R6). -/
opaque cycleGap : Nat → Nat → Nat

/-- The CYCLE count of a core at reset (log 8). CYCLE values of two cores are not comparable (R7). -/
opaque cycleBase : Nat → Nat

/-- The fixed mapping of a function of limited accuracy (R118): its bits are taken where they lie within the bound of
Table 5.4 (log 12). The first argument names the function: 0 FEX2, 1 FLG2, 2 FSIN, 3 FCOS, 4 FTANH. -/
opaque unaryBits : Nat → W32 → W32

/-- The fixed mapping of the derivative of such a function (R118), taken where it lies within the bound of R76
(log 12). -/
opaque derivBits : Nat → W32 → W32

/-- Where a firmware image holds what its signature covers, the signature, and the key that its header carries, if any
(R395): the format of an image is not the manual's (log 21). -/
opaque signedPart : List Byte → List Byte
opaque signaturePart : List Byte → List Byte
opaque headerKey : List Byte → Option (List Byte)

/-- Plecor's public key (R395). -/
opaque plecorKey : List Byte

/-- The private identity key of the package (R399): the seed of its one-time keys, the key of its randomizer, and its public
seed. -/
opaque identitySeed : List Byte
opaque identityPrf : List Byte
opaque identityPublicSeed : List Byte

/-- The Crown firmware image in the module flash, and the ROM (R395, log 4). -/
opaque crownImage : List Byte
opaque romImage : List Byte
/-- The device firmware in the module flash (R395, log 4). -/
opaque flashImage : List Byte
/-- The OPEN fuse (R395, log 4). -/
opaque openFuse : Bool

end Sys2Proof.Config
end

