-- ==== Sys2Proof/Machine/State.lean ====
section
/-! DEFINITION. The state of the T7 package as plain data: groups, teams, cores, dies, memory, launches,
commands, contexts, the fabric, the Crown, and the model's own agenda. -/

namespace Sys2Proof.Machine

/-- A sparse table: keys strictly rising, no entry equal to the default of its table. -/
abbrev SMap (α : Type) := List (Nat × α)

/-- A register's primal word and its four tangents (R9, R133). -/
structure Datum where
  val : W32 := 0
  t0 : W32 := 0
  t1 : W32 := 0
  t2 : W32 := 0
  t3 : W32 := 0
  deriving DecidableEq, Repr

/-- A register of one lane: its datum and its full/empty bit (R9). -/
structure Cell where
  d : Datum := {}
  full : Bool := true
  deriving DecidableEq, Repr

/-- A queue entry: landed, or reserved under a name (R150, R259); `stays` says that a fault of its group does not release it,
as it does the entry of an LDQ (R154). -/
inductive QEnt where
  | landed (d : Datum)
  | reserved (id : Nat) (stays : Bool)
  deriving DecidableEq, Repr

/-- One queue of one lane; `retained` holds the entries popped since the region entry, oldest first (R322). -/
structure Queue where
  depth : Nat := 0
  entries : List QEnt := []
  retained : List Datum := []
  deriving DecidableEq, Repr

/-- An address of code, counted from the kernel entry modulo 2^64. A code offset register holds its low 32 bits; a branch
may also reach code below the entry (R91). -/
abbrev CodeAt := BitVec 64

/-- A loop stack entry (R94). -/
structure LoopEnt where
  start : CodeAt
  fin : CodeAt
  count : W32
  deriving DecidableEq, Repr

/-- A divergence stack entry (Table 8.1); `join` marks a join entry (R159), and `loops` is the loop stack that the
group held at the branch that made the path (R97). -/
structure DivEnt where
  pc : CodeAt
  mask : W32
  rcv : Option CodeAt
  join : Bool := false
  loops : List LoopEnt := []
  deriving DecidableEq, Repr

/-- The control state of a group; both stacks with their top first (R94, R158). -/
structure Ctl where
  div : List DivEnt
  loops : List LoopEnt
  deriving DecidableEq, Repr

/-- Where an agent stands (Table 13.2): a group with its team, cluster, die and context; an engine with the team, the
cluster and the context of its command and the die of its engine. -/
structure Site where
  gid : Option Nat := none
  team : Nat := 0
  cluster : Nat := 0
  die : Nat := 0
  ctx : Nat := 0
  deriving DecidableEq, Repr

/-- A release side (R246): where it was made, its scope, the names of the writes on their way that it carries (R247), and
those of reads of its group that it waits for (R146). -/
structure Rel where
  site : Site
  sc : Nat
  ids : List Nat
  reads : List Nat := []
  deriving DecidableEq, Repr

/-- What a fault-record entry says of its cause (Table 17.4). -/
structure CauseRec where
  code : BitVec 8
  conv : Bool := false
  ih : Bool := false
  lane : Nat := 0
  space : Nat := 5
  addr : W64 := 0
  pc : W32 := 0
  region : W32 := 0
  detail : W64 := 0
  /-- an error in the data that a CLAIM fetches, which R316 makes replayable in any region (R213) -/
  fetch : Bool := false
  deriving DecidableEq, Repr

/-- Whether a group can run (R190, R316, R332). -/
inductive GStatus where
  | running
  /-- it holds causes and waits for its producers to land (R316, rule 3) -/
  | draining
  /-- its entries are posted and it awaits a response (R316, R320) -/
  | awaiting
  /-- its launch has ended (R321): it retires once the producers that have issued have landed -/
  | ending
  deriving DecidableEq, Repr

/-- What a running group waits for. -/
inductive Wait where
  | none
  /-- its instruction could not issue; any other progress lets it try again -/
  | blocked
  /-- a barrier phase: team, barrier, awaited phase (R195) -/
  | bar (team bar : Nat) (phase : Bool)
  /-- the awaited phase has completed; the Regulator has yet to release the group (R197, R364) -/
  | barDone (team bar : Nat) (phase : Bool)
  /-- the Regulator has released the group (R364) -/
  | barGo (team bar : Nat) (phase : Bool)
  /-- an instruction miss on the line of this code address (R192) -/
  | miss (line : Nat)
  /-- page walks that must finish (R327) -/
  | walk
  deriving DecidableEq, Repr

/-- What a replay writes for the lanes of a CLAIM whose data had an error (R213): the range, the status destination, and
the status word that the other lanes gave. -/
structure Refill where
  lanes : List Nat
  base : Nat
  n : Nat
  dst : Opnd
  word : W32
  deriving DecidableEq, Repr

/-- One resident group (spec/08, spec/18 Tables 18.2 and 18.3). -/
structure Group where
  id : Nat
  team : Nat
  groupId : Nat
  nthreads : Nat
  pipe : Bool := false
  ctl : Ctl
  saved : Option Ctl := none
  recorded : Ctl
  v : SMap Cell := []
  s : SMap Cell := []
  p : SMap W32 := []
  q : SMap Queue := []
  lmem : SMap Byte := []
  cause : W32 := 0
  causePc : W32 := 0
  regionPc : W32 := 0
  regionCnt : W32 := 0
  tvec : W32 := 0
  tanStride : W32 := 0
  fbgrp : W32 := 0
  slipCnt : W32 := 0
  fpst : SMap (BitVec 5) := []
  fpte : SMap (BitVec 5) := []
  inHandler : Bool := false
  status : GStatus := .running
  debugStop : Bool := false
  wait : Wait := .none
  walked : List Nat := []
  /-- names of writes on their way that acquires of the group have put before its later accesses (R246, R247) -/
  seen : List Nat := []
  /-- release sides that plain reads of the group have met, for a later acquire fence (R246, R248) -/
  notes : List Rel := []
  /-- release fences of the group, which its later writes stand for (R246, R248) -/
  fences : List Rel := []
  async : List CauseRec := []
  refill : List Refill := []
  lastIssue : Nat := 0
  /-- the latest step after which it was not ready, or that of its birth (R191) -/
  unready : Nat := 0
  deriving DecidableEq, Repr

/-- Barrier state (Table 9.4). -/
structure Barrier where
  count : Nat := 0
  arr : Nat := 0
  ph : Bool := false
  pend : Int := 0
  brk : Bool := false
  /-- arrivals and deliveries that an acquire of the barrier observes (R196, R278) -/
  rels : List Rel := []
  deriving DecidableEq, Repr

/-- A placed team (spec/09 R176, R188; spec/18 Table 18.4). -/
structure Team where
  id : Nat
  lid : Nat
  ctx : Nat
  x : Nat
  y : Nat
  die : Nat
  /-- COREPOS: row * 16 + column -/
  core : Nat
  /-- the cluster's corner, COREPOS -/
  corner : Nat
  cw : Nat
  ch : Nat
  /-- teams of one cluster share this name -/
  cluster : Nat
  /-- the pipes that its groups were bound to at their birth, in their order (R190) -/
  pipes : List Bool := []
  tile : SMap Byte := []
  bars : SMap Barrier := []
  wptr : SMap W64 := []
  /-- deliveries that a WPW observes, by queue (R278) -/
  wrels : SMap (List Rel) := []
  mflags : BitVec 5 := 0
  deriving DecidableEq, Repr

/-- An accumulator tile (Table 15.1); word (m, n) has key 64 m + n. -/
structure Tile where
  h : Nat := 0
  w : Nat := 0
  words : SMap W32 := []
  deriving DecidableEq, Repr

/-- An accepted matrix operation, its operands read at issue (R287), and its progress. -/
structure MOp where
  id : Nat
  team : Nat
  gid : Nat
  td : Nat
  /-- the A tile when ASRC = 1 -/
  ta : Option Nat
  tans : Nat
  acc : Bool
  z : Bool
  skip : Bool
  a0 : Nat
  ainc : Int
  b0 : Nat
  binc : Int
  bsp : Bool
  /-- source line of each active row; none is a line of zeros (R292) -/
  rowOf : List (Option Nat)
  rows : Nat
  cols : Nat
  afmt : Nat
  bfmt : Nat
  bl16 : Bool
  at_ : Bool
  bt : Bool
  aso : Nat
  bso : Nat
  stride : W32
  bar : Option Nat
  count : Nat
  /-- the release of its MLOOP, until the operation begins (R302), and the names of the writes that it carried then -/
  forks : List Rel := []
  carry : List Nat := []
  /-- flags that its K-steps have raised, which join the matrix flags as it completes (R296, R306) -/
  flags : BitVec 5 := 0
  step : Nat := 0
  started : Bool := false
  /-- the last K-step has written its tiles -/
  done : Bool := false
  deriving DecidableEq, Repr

/-- A claim on tiles by a waiting instruction of a group, or by an operation (R282). -/
structure Claim where
  isOp : Bool
  key : Nat
  tiles : List Nat
  /-- the queue in which a waiting MLOOP awaits room -/
  mq : Option Nat := none
  deriving DecidableEq, Repr

/-- The matrix unit and the registers of one core (spec/15, Table 1.3). -/
structure CoreSt where
  mqratio : Nat := 4
  owner : Option Nat := none
  tiles : SMap Tile := []
  mq0 : List MOp := []
  mq1 : List MOp := []
  /-- consecutive K-steps of queue 0 while queue 1 could run (R298) -/
  q0run : Nat := 0
  /-- claims, oldest first -/
  claims : List Claim := []
  deriving DecidableEq, Repr

/-- The registers of one compute die (Table 1.3, R228, R364). -/
structure DieSt where
  brwin : Nat := 64
  refresh : Option Nat := none
  nextBank : Nat := 0
  deriving DecidableEq, Repr

/-- A place an access touches. -/
inductive Loc where
  /-- a physical byte address -/
  | mem (pa : Nat)
  /-- a byte of a die's weight store -/
  | ws (die ofs : Nat)
  /-- a byte of a team's tile region -/
  | tile (team ofs : Nat)
  /-- a byte of a lane's stretch -/
  | lane (gid ln ofs : Nat)
  deriving DecidableEq, Repr

/-- One access of one lane: `k` is 0 for the primal, j + 1 for tangent j (R149, R235).
`val` is its value once the access has been performed. -/
structure Access where
  lane : Nat
  k : Nat
  loc : Loc
  va : W64
  val : Option (List Byte) := none
  deriving DecidableEq, Repr

/-- What an estate holds (Table 10.1, R205). -/
structure EstateRec where
  chain : Nat
  ident : Nat
  makerSeq : Nat
  die : Nat
  core : Nat
  ttl : Nat
  prim : List W32
  tans : List (List W32)
  deriving DecidableEq, Repr

/-- The level that holds an estate (R209), or its discard (Table 10.5). -/
inductive EstLevel where
  | core (die core : Nat)
  | die (die : Nat)
  | gddr (die : Nat)
  /-- discarded with this cause; counted and logged by the next completion that R214 names -/
  | discarded (cause : Nat)
  deriving DecidableEq, Repr

/-- A live or discarded estate of a context. -/
structure Estate where
  ctx : Nat
  /-- order of making -/
  order : Nat
  lid : Nat
  body : EstateRec
  level : EstLevel
  /-- the release of its EXIT.E (R208) -/
  rels : List Rel := []
  deriving DecidableEq, Repr

/-- The result of one lane of a CLAIM: status and what was received (R212). -/
structure ClaimLane where
  lane : Nat
  st : Nat
  est : Option Estate
  deriving DecidableEq, Repr

/-- An ATOM or CAS that has issued: function of Table 6.3 (12 is CAS), bytes, and whether its writes are MCA writes. -/
structure AtomOp where
  fn : Nat
  n : Nat
  mca : Bool
  deriving DecidableEq, Repr

/-- What a long-latency producer will land (R14). -/
inductive PendKind where
  | load
  /-- lands in reserved queue entries -/
  | ldq
  | crnd
  | mfs (sr : Nat)
  | claim (base n : Nat) (got : List ClaimLane)
  | atom (op : AtomOp)
  deriving DecidableEq, Repr

/-- A pending long-latency producer (R14). -/
structure Pending where
  id : Nat
  gid : Nat
  pc : W32
  region : W32
  kind : PendKind
  dst : Opnd
  uni : Bool
  bytes : Nat
  lanes : List Nat
  accs : List Access := []
  /-- per lane: the data that will land, where they are known at issue; of an atomic its operand and then its
  comparand -/
  data : List (Nat × List Datum) := []
  /-- registers, each with its lane, that a debugger has forced: their data is discarded (R330) -/
  forced : List (Opnd × Nat) := []
  /-- an acquire: later accesses of the group wait until it has been performed (R146) -/
  acq : Bool := false
  /-- the scope of that acquire -/
  sc : Nat := 0
  /-- of an atomic: the release side that it is, if it is one, and the release fences before it (R146, R248) -/
  side : Option Rel := none
  fences : List Rel := []
  /-- writes of these names must reach their single moment first (R359) -/
  after : List Nat := []
  deriving DecidableEq, Repr

/-- A write that is not yet visible everywhere (R358 to R360). Those that have a place in coherence order (R241) stand first
and in that order, the others after them in order of issue: a write takes its place when an agent besides its group can
first read it. -/
structure InWrite where
  id : Nat
  site : Site
  /-- the launch of the group or of the command that made it -/
  lid : Nat := 0
  /-- the team in whose tile region it lies -/
  tile : Option Nat := none
  /-- where it begins: its physical address or tile offset; and its length in bytes -/
  base : Nat := 0
  len : Nat := 0
  /-- the bytes that no coherence-later write has overwritten everywhere -/
  cells : List Host.Cell
  mca : Bool := false
  /-- release sides that it stands for: its own, those of its group's fences, and those of the write that it read as an
  atomic (R246) -/
  rels : List Rel := []
  /-- it has its place in coherence order -/
  placed : Bool := false
  /-- names of overlapping writes that are ordered before it, so that they take their places first (R142, R251) -/
  prior : List Nat := []
  /-- the team or cluster scope, 1 or 2, at which a release has performed it: before it arrives, an agent within that
  extent finds it all the same (R244, R247) -/
  owed : Nat := 0
  /-- an atomic or CAS with OR 1 or 3: its group's later accesses wait for it (R359) -/
  acq : Bool := false
  /-- the copy command that made the write (R363), and the place of its first byte in delivery order -/
  cmd : Option Nat := none
  off : Nat := 0
  /-- the atomic that made it, where that landed later than it issued: release sides made meanwhile carry it (R146) -/
  maker : Nat := 0
  /-- a write of an engine or of the matrix unit: a load that meets it finds each byte before or after it (R237, R279) -/
  torn : Bool := false
  arrived : List Observer := []
  /-- it has been performed at system scope, and its dirty bit is set (R344) -/
  counted : Bool := false
  /-- what a fault-record entry says of it (R361) -/
  lane : Nat := 0
  va : W64 := 0
  pc : W32 := 0
  region : W32 := 0
  pos : W32 := 0
  groupId : Nat := 0
  core : Nat := 0
  deriving DecidableEq, Repr

/-- The running reductions of a launch (R175, R214). -/
structure Reduce where
  maxSt : Nat := 0
  orSt : BitVec 8 := 0
  nonzero : Nat := 0
  exited : Nat := 0
  made : Nat := 0
  claimed : Nat := 0
  unclaimed : Nat := 0
  deriving DecidableEq, Repr

/-- Where a return word goes (R259). -/
structure RetTo where
  gid : Nat
  lane : Nat
  q : Nat
  res : Nat
  deriving DecidableEq, Repr

/-- An accepted, uncompleted launch (spec/18 Table 18.4). -/
structure Launch where
  id : Nat
  ctx : Nat
  record : List Byte
  seq : Nat
  queue : Nat
  /-- the team that pushed it, none for a port -/
  team : Option Nat := none
  /-- the barrier count of that team's launch (R178) -/
  pushBars : Nat := 0
  gslot : Nat := 0
  verdict : Option Bool := none
  ret : Option RetTo := none
  depDone : Bool := false
  /-- clusters placed -/
  placed : Nat := 0
  red : Reduce := {}
  /-- the status it will complete with when this is not OK -/
  fate : Option Nat := none
  /-- no further team is placed -/
  closed : Bool := false
  /-- it was ended (R321), or its context's end has cut it short: its record counts what its lanes had gathered (R180) -/
  ended : Bool := false
  /-- the image that its context last flushed lists it (R334) -/
  imaged : Bool := false
  /-- its record awaits an earlier record of its queue (R182) -/
  finished : Bool := false
  /-- the status of the launch it depends on, once that has completed (R186, rule 1) -/
  depStatus : Option Nat := none
  /-- the acceptance number of that launch -/
  depSeq : Nat := 0
  /-- names of writes that acquires of its retired groups put before its record (R181, R247) -/
  seen : List Nat := []
  /-- its forks, until it makes its first access (R263, R277), and the names of the writes that they carried then -/
  forks : List Rel := []
  fork : List Nat := []
  deriving DecidableEq, Repr

/-- Command states of Table 14.5; a command that is COMPLETE has left its queue. -/
inductive CState where
  | queued
  | held
  | running
  | residual
  deriving DecidableEq, Repr

/-- What an exchange engine's read at the start of a command found: the bytes, or the cause that the command meets when
it comes to them. -/
inductive Found where
  | bytes (bs : List Byte)
  | cause (code : BitVec 8)
  deriving DecidableEq, Repr

/-- An accepted command (spec/14, spec/18 Table 18.4). -/
structure Cmd where
  id : Nat
  ctx : Nat
  qid : Nat
  /-- scheduler queue, for commands pushed to SCH -/
  squeue : Nat := 0
  team : Nat
  lid : Nat
  die : Nat
  core : Nat
  /-- the cluster of the pushing team and its corner -/
  cluster : Nat
  corner : Nat
  teampos : W32
  priv : Bool
  bytes : List Byte
  gslot : Nat
  /-- its forks, until its operation begins (R263, R277), and the names of the writes that they carried then -/
  forks : List Rel := []
  carry : List Nat := []
  verdict : Option Bool := none
  state : CState := .queued
  ret : Option RetTo := none
  delivered : Nat := 0
  /-- bytes read and not yet delivered, in delivery order -/
  staged : List Byte := []
  /-- bytes read so far, in delivery order -/
  fetched : Nat := 0
  /-- bytes of the source that the engine has read ahead of their turn: space, address, byte (R279) -/
  early : List (Nat × Nat × Byte) := []
  /-- bytes of an MCA write on its way, which count as delivered at its single moment (R359) -/
  moving : Nat := 0
  /-- the source and destination overlap, so all reads precede all writes (R271) -/
  overlap : Bool := false
  fate : Option CauseRec := none
  /-- exchange: blocks decided, and the counts of the status word -/
  done : Nat := 0
  dropped : Nat := 0
  failed : Nat := 0
  decevict : Bool := false
  /-- exchange: descriptors or tokens taken so far -/
  taken : Nat := 0
  /-- exchange: the descriptors and the expert table entries read at the start (R368, R373), the entries by expert -/
  descs : List Found := []
  entries : SMap Found := []
  /-- PREEMPT and RESUME: the status that the record will hold, once it may be written (R182) -/
  outcome : Option Nat := none
  /-- the image that its context last flushed lists it (R334) -/
  imaged : Bool := false
  deriving DecidableEq, Repr

/-- A fault-record entry that has been posted, or waits for room in the ring (R318). -/
structure Posting where
  src : Nat
  why : CauseRec
  repl : Bool := false
  regionPc : W32 := 0
  lseq : Nat := 0
  teampos : W32 := 0
  groupId : Nat := 0
  die : Nat := 0
  core : Nat := 0
  gid : Option Nat := none
  /-- the debug stop of R332 -/
  debug : Bool := false
  deriving DecidableEq, Repr

/-- An entry with REPL = 1 that awaits a response (R320). -/
structure Await where
  seq : W32
  gid : Nat
  debug : Bool
  deriving DecidableEq, Repr

/-- Node states of Table 9.10. -/
inductive NodeState where
  | waiting
  | ready
  | running
  | done
  deriving DecidableEq, Repr

/-- A range-task node (Table 9.9). -/
structure Node where
  graph : Nat
  node : Nat
  preds : Nat
  succs : List Nat
  lo : Nat
  hi : Nat
  grain : Nat
  record : W64
  notify : Bool
  /-- the completion barrier of a sink: team and barrier (R201) -/
  bar : Option (Nat × Nat) := none
  /-- what a failed record write posts (R404) -/
  posting : Posting
  state : NodeState := .waiting
  /-- the iterations not yet retired, as intervals -/
  left : List (Nat × Nat) := []
  deriving DecidableEq, Repr

/-- A piece of an interval; `holder` is none when a retired group returned it (R200). -/
structure Piece where
  handle : Nat
  graph : Nat
  node : Nat
  next : Nat
  hi : Nat
  chunkLo : Nat
  chunkHi : Nat
  holder : Option Nat
  die : Nat
  deriving DecidableEq, Repr

/-- A drop map entry that a sender's engine has written ADMITTED: its command, the sender's die, its address, its expert,
the home die, and the peer device of a home elsewhere (R381). -/
structure Admit where
  cid : Nat
  die : Nat
  at_ : W64
  expert : Nat
  home : Nat
  far : Option Nat := none
  deriving DecidableEq, Repr

/-- Round state of one context (R370, R371). -/
structure Round where
  r : Nat
  dom : Nat
  /-- next sequence number of each sender -/
  seqs : SMap Nat := []
  offered : SMap Nat := []
  admitted : SMap Nat := []
  /-- CAP of each expert when the round's first block reached a home (R379): key home * 512 + expert; the key
  home * 512 + 256 says that one has -/
  caps : SMap Nat := []
  /-- delivered keys: sender * 2^32 + sequence -/
  keys : List Nat := []
  /-- keys of blocks of other devices that have reached their home here (R383) -/
  got : List Nat := []
  /-- the sequence after the last one delivered, by sender * 256 + expert -/
  order : SMap Nat := []
  /-- of each home die, the expert table that the first EXCH of the round to name it gave it (R368) -/
  tables : SMap Nat := []
  /-- entries written ADMITTED (R381) -/
  admits : List Admit := []
  deriving DecidableEq, Repr

/-- An accepted EXCH that no completed fabric barrier of its round has recorded (R370, R377). -/
structure Offer where
  cid : Nat
  dom : Nat
  r : Nat
  die : Nat
  deriving DecidableEq, Repr

/-- An open fabric barrier (R377). -/
structure FabBar where
  id : Nat
  fbgrp : W32
  r : Nat
  arrived : List Nat := []
  /-- the EXCH commands recorded, and whether any was of round r -/
  recorded : List Nat := []
  hadExch : Bool := false
  /-- notify barriers: team and barrier number -/
  notify : List (Nat × Nat) := []
  /-- the releases of its arrivals (R378) -/
  rels : List Rel := []
  deriving DecidableEq, Repr

/-- A capacity register with the copied entry fields (R379). -/
structure Expert where
  home : Nat
  slots : Nat
  h : Nat
  k : Nat
  cnt : W64
  cap : Nat
  avg : Nat
  deriving DecidableEq, Repr

/-- The context descriptor (Table 18.1), with its fault and estate descriptors (Tables 17.3, 10.4). -/
structure CtxDesc where
  ctx : Nat
  mode : Nat
  dev : Nat
  qfirst : Nat
  qcount : Nat
  root : Nat
  frBase : Nat
  frCount : Nat
  logSize : Nat
  logBase : Nat
  areaSize : Nat
  areaBase : Nat
  imgBase : Nat
  imgSize : Nat
  dirtyVa : Nat
  dirtyPages : Nat
  /-- WSPHYS and WSSIZE of each compute socket, in 64 KiB units -/
  ws : List (Nat × Nat)
  xtag : Nat
  xv : Bool
  deriving DecidableEq, Repr

/-- Whether a context runs, with the state code of its image header (R336). -/
inductive Phase where
  | live
  | preempted
  | flushed
  /-- a fenced channel or a double fault ends it: its work waits for room for its records and entries (R355, R356, R365) -/
  | ending
  deriving DecidableEq, Repr

/-- A live context (spec/18). -/
structure Ctx where
  desc : CtxDesc
  priv : Bool
  acc : Nat := 0
  fin : Nat := 0
  produced : Nat := 0
  faultQ : List Posting := []
  awaits : List Await := []
  /-- responses that arrived during a pre-emption: sequence and action (R317) -/
  responses : List (W32 × Nat) := []
  /-- dirty page numbers, ascending -/
  dirty : List Nat := []
  phase : Phase := .live
  /-- cores that keep the room of its pre-empted teams (R338) -/
  held : List Nat := []
  debugStop : Bool := false
  nodes : List Node := []
  pieces : List Piece := []
  /-- successor decrements held for undefined nodes: graph * 4096 + node -/
  heldDecs : List Nat := []
  rounds : List Round := []
  fbars : List FabBar := []
  offers : List Offer := []
  experts : SMap Expert := []
  xtab : Option W64 := none
  /-- of each graph, the releases of its TDONEs that its record comes after (R201) -/
  taskRels : List (Nat × Rel) := []
  /-- names of writes that every access of the context comes after, since a RESUME with REL (R342) -/
  before : List Nat := []
  /-- the matrix state of its pre-empted teams, by core (R301, R338) -/
  kept : SMap CoreSt := []
  deriving DecidableEq, Repr

/-- An exchange block on its way (R370 to R375). -/
inductive BState where
  /-- on the fabric, uncoded -/
  | flying
  /-- decided ADMITTED, waiting for delivery in sequence order, with its slot -/
  | admitted (slot : Nat)
  deriving DecidableEq, Repr

structure Block where
  id : Nat
  cid : Nat
  ctx : Nat
  round : Nat
  dom : Nat
  /-- sending endpoint -/
  sender : Nat
  seq : Nat
  expert : Nat
  home : Nat
  peer : Nat
  coded : Bool
  data : List Byte
  /-- the expert's table entry: as the command read it, and once admitted that of the home -/
  entry : List Byte := []
  /-- DMAP of the command -/
  dmap : W64 := 0
  /-- the level of the group that pushed the command (R404) -/
  sup : Bool := false
  /-- sequence numbers of its sender's earlier blocks to its expert that had not come when it came (R371) -/
  after : List Nat := []
  state : BState := .flying
  /-- a coded packet that may carry it has lost what its receiver must cancel (R375) -/
  lost : Bool := false
  /-- the other block of the coded packet that carries it, once that block has arrived: its name, sender, sequence and
  data (R374) -/
  mate : Option (Nat × Nat × Nat × List Byte) := none
  deriving DecidableEq, Repr

/-- An entry of a die's side-information table (R375). -/
structure SideInfo where
  die : Nat
  ctx : Nat
  dom : Nat
  round : Nat
  sender : Nat
  seq : Nat
  data : List Byte
  /-- a sent block not yet acknowledged: the entry stays -/
  stay : Bool
  deriving DecidableEq, Repr

/-- A cached translation (R327). -/
structure TlbEnt where
  die : Nat
  ctx : Nat
  /-- virtual page number, 64 KiB pages -/
  page : Nat
  pa : Nat
  /-- physical address of the leaf entry -/
  pte : Nat
  w : Bool
  x : Bool
  usr : Bool
  /-- the core whose TLB holds it, none for that of the die -/
  core : Option Nat := none
  deriving DecidableEq, Repr

/-- A queued page walk (R327). -/
structure Walk where
  die : Nat
  ctx : Nat
  page : Nat
  waiters : List Nat
  deriving DecidableEq, Repr

/-- An invalidation in progress (R328). -/
structure Inval where
  id : Nat
  ctx : Nat
  va : Nat
  pages : Nat
  done : Nat
  deriving DecidableEq, Repr

/-- An orphan log entry (Table 20.8). -/
structure Orphan where
  body : List Byte
  addr : W64
  kind : Bool
  ctx : Nat
  lseq : Nat
  /-- vectors raised once the entry is written (R391) -/
  irqs : List Nat := []
  deriving DecidableEq, Repr

/-- The state of one Wilkai link's transmitter and receiver (R393). -/
structure Link where
  /-- next sequence number to send, and the flits not yet acknowledged, oldest first, each with its peer device -/
  nextSeq : BitVec 12 := 0
  unacked : List (BitVec 12 × Nat) := []
  /-- flits that came from a port that went down and wait for room, by peer device (R394) -/
  waiting : List Nat := []
  retries : Nat := 0
  /-- next sequence number the receiver accepts -/
  expect : BitVec 12 := 0
  /-- the flits that the latest step of the link sent -/
  out : List Flit := []
  deriving DecidableEq, Repr

/-- An entry of the attestation log (R395). -/
structure AttEntry where
  stage : Nat
  signer : Nat
  digest : List Byte
  keyDigest : List Byte
  deriving DecidableEq, Repr

/-- What the package does (Table 23.4). -/
inductive PkgState where
  | off
  | running
  | scrubbing
  | recovery
  deriving DecidableEq, Repr

/-- The Crown (spec/23). -/
structure Crown where
  state : PkgState := .off
  scrubStart : Nat := 0
  scrubDone : Nat := 0
  leaf : Nat := 0
  log : List AttEntry := []
  nonce : List Byte := []
  record : List Byte := []
  report : List Byte := []
  deriving DecidableEq, Repr

/-- Package-level registers (Tables 20.1, 23.2). -/
structure Pkg where
  mode : Option Nat := none
  ready : BitVec 13 := 0
  chReady : BitVec 64 := 0
  linkUp : BitVec 16 := 0
  fencedSock : BitVec 13 := 0
  fencedLink : BitVec 16 := 0
  fencedChan : BitVec 64 := 0
  event : Bool := false
  supmask : BitVec 64 := 0
  route : SMap W32 := []
  self : W32 := 0
  orphans : List Orphan := []
  orphanProd : Nat := 0
  orphanCons : Nat := 0
  /-- entries waiting for room in the orphan log -/
  orphanQ : List Orphan := []
  /-- destroyed contexts whose last fault-record entries wait for room (R318, R355) -/
  rings : List Ctx := []
  createReply : Nat := 0
  destroyReply : Nat := 0
  /-- last launch-port number: port * 64 + context -/
  portReply : SMap Nat := []
  debugReply : SMap (List Byte) := []
  mwBase : SMap W64 := []
  werr : SMap W64 := []
  failing : List Part := []
  /-- a double fault is ending every context (R356) -/
  doubled : Bool := false
  links : SMap Link := []
  crown : Crown := {}
  deriving DecidableEq, Repr

/-- One turn of the agenda: a step of the part, or the issue of a group (log 3). -/
inductive Turn where
  | run (i : Instr)
  /-- `err`: data that a store of the turn overwrites in part, or that an atomic of the turn reads at once, has an
  uncorrectable error (R153) -/
  | issue (gid : Nat) (err : Bool)
  /-- a step of the part whose source data has an uncorrectable error (R276) -/
  | runErr (i : Instr)
  /-- the access `k` of a pending producer is performed ahead of its others (R240) -/
  | look (id k : Nat)
  /-- a running copy command reads a byte of its source ahead of its turn (R279) -/
  | fetch (cid space va : Nat)
  deriving DecidableEq, Repr

/-- The whole package. -/
structure State where
  groups : List Group := []
  teams : List Team := []
  /-- key die * 256 + COREPOS -/
  cores : SMap CoreSt := []
  dies : SMap DieSt := []
  mem : List Host.Cell := []
  inflight : List InWrite := []
  /-- key die * 3 GiB + byte -/
  ws : SMap Byte := []
  pend : List Pending := []
  launches : List Launch := []
  cmds : List Cmd := []
  /-- return words on their way: name, target, word (R259) -/
  returns : List (Nat × RetTo × W32) := []
  ctxs : SMap Ctx := []
  estates : List Estate := []
  tlb : List TlbEnt := []
  walks : List Walk := []
  invs : List Inval := []
  /-- resident code lines of each cluster: cluster name and line number (R192) -/
  icache : List (Nat × Nat) := []
  blocks : List Block := []
  sideInfo : List SideInfo := []
  pkg : Pkg := {}
  /-- MSI-X vectors raised, newest first (R391) -/
  irqs : List Nat := []
  /-- bytes returned by the most recent read of the host, an I3C master, a debugger or a peer -/
  reply : List Byte := []
  /-- the model's own: which agent moves next -/
  agenda : List Turn := []
  /-- the model's own: the issuing group -/
  cur : Nat := 0
  /-- the model's own: the data that the turn reads has an uncorrectable error (R153, R276) -/
  ecc : Bool := false
  /-- the model's own: the counter behind free values -/
  free : Nat := 0
  /-- the model's own: the step count behind CYCLE -/
  tick : Nat := 0
  /-- the model's own: the next unused name -/
  nextId : Nat := 1
  deriving DecidableEq, Repr

/-- Reasons a step stops. No architectural trap or fault is among them: those are next states. -/
inductive Fault where
  /-- raised by every machine instruction when `State.cur` names no resident group with a team and a launch.
  Safe: only a state that no step reaches. -/
  | noGroup
  /-- raised by a step of the part whose agent, operation or entry does not exist, or is not in the state that the
  step starts from. Safe: the part takes no such step. -/
  | notEnabled
  deriving DecidableEq, Repr

/-- Reasons a step is refused. -/
inductive Refusal where
  /-- raised by the dispatch for an instruction without a meaning. Safe. -/
  | notModelled (mnemonic : String)
  deriving DecidableEq, Repr

/-- The package when its supply comes up, before the ROM has run (spec/23 R395): nothing is ready, no context is
live, every register is zero but MQRATIO (4, R298) and BRWIN (64, R364). -/
def State.reset : State := {}

end Sys2Proof.Machine
end

