-- ==== Sys2Proof/Machine/Tables.lean ====
section
/-! DEFINITION. Sparse tables, little-endian bytes, and the reading and writing of the entries of `State`. -/

namespace Sys2Proof.Machine

/-! ### Sparse tables -/

/-- The entry of key `k`, or the default. -/
def look {α : Type} (dflt : α) : List (Nat × α) → Nat → α
  | [], _ => dflt
  | (k', v) :: m, k => if k' = k then v else look dflt m k

/-- Removes the entry of key `k`. -/
def drop? {α : Type} (m : List (Nat × α)) (k : Nat) : List (Nat × α) := m.filter fun e => e.1 ≠ k

/-- Sets the entry of key `k`; an entry equal to the default is not listed. -/
def keep {α : Type} [DecidableEq α] (dflt : α) : List (Nat × α) → Nat → α → List (Nat × α)
  | [], k, v => if v = dflt then [] else [(k, v)]
  | (k', x) :: m, k, v =>
    if k < k' then (if v = dflt then (k', x) :: drop? m k else (k, v) :: (k', x) :: m)
    else if k = k' then (if v = dflt then drop? m k else (k, v) :: m)
    else (k', x) :: keep dflt m k v

/-- The entry of key `k`, if listed. -/
def look? {α : Type} : List (Nat × α) → Nat → Option α
  | [], _ => none
  | (k', v) :: m, k => if k' = k then some v else look? m k

/-- Sets the entry of key `k` of a table without a default. -/
def put {α : Type} : List (Nat × α) → Nat → α → List (Nat × α)
  | [], k, v => [(k, v)]
  | (k', x) :: m, k, v =>
    if k < k' then (k, v) :: (k', x) :: m
    else if k = k' then (k, v) :: m
    else (k', x) :: put m k v

/-- Keys strictly rising from `lo` on, no entry equal to the default. -/
def tableWfFrom {α : Type} [DecidableEq α] (dflt : α) (lo : Nat) : List (Nat × α) → Bool
  | [] => true
  | (k, v) :: m => decide (lo ≤ k) && decide (v ≠ dflt) && tableWfFrom dflt (k + 1) m

/-- The canonical form of a sparse table. -/
def tableWf {α : Type} [DecidableEq α] (dflt : α) (m : List (Nat × α)) : Bool := tableWfFrom dflt 0 m

/-- The entries of a list, and those of another that are not among them. -/
def joinNew {α : Type} [DecidableEq α] (xs ys : List α) : List α := xs ++ ys.filter fun y => !xs.contains y

/-! ### Bytes (R4) -/

/-- The low `n` bytes of `x`, lowest first. -/
def leBytes : Nat → Nat → List Byte
  | 0, _ => []
  | n + 1, x => BitVec.ofNat 8 x :: leBytes n (x / 256)

/-- Bytewise exclusive or. -/
def xorBytes (a b : List Byte) : List Byte := (a.zip b).map fun p => p.1 ^^^ p.2

/-- The number that bytes denote, lowest first. -/
def ofLe : List Byte → Nat
  | [] => 0
  | b :: bs => b.toNat + 256 * ofLe bs

/-- `n` bytes of a record from offset `o`, as a number. -/
def recNat (bs : List Byte) (o n : Nat) : Nat := ofLe ((bs.drop o).take n)

/-- Bits [hi:lo] of the number at offset `o`. -/
def recBits (bs : List Byte) (o lo len : Nat) : Nat := (ofLe ((bs.drop o).take 8) >>> lo) % 2 ^ len

/-- `n` bits of a word. -/
def bitsOf (x lo len : Nat) : Nat := (x >>> lo) % 2 ^ len

/-- Replaces the bytes at offset `o`. -/
def splice (bs : List Byte) (o : Nat) (new : List Byte) : List Byte :=
  bs.take o ++ new ++ bs.drop (o + new.length)

/-- A number read as a two's-complement number of `n` bits. -/
def signed (n x : Nat) : Int := if x % 2 ^ n < 2 ^ (n - 1) then (x % 2 ^ n : Nat) else (x % 2 ^ n : Nat) - (2 : Int) ^ n

/-- An integer as a 32-bit word. -/
def word (x : Int) : W32 := BitVec.ofInt 32 x

/-! ### Memory as a table of bytes (log 5) -/

/-- What an unlisted byte of memory reads as. -/
abbrev blankByte : Byte := 0

namespace Memory

/-- The byte at an address. -/
def read (m : List Host.Cell) (a : Nat) : Byte := look blankByte m a

/-- Writes one byte. -/
def write (m : List Host.Cell) (a : Nat) (b : Byte) : List Host.Cell := keep blankByte m a b

/-- Writes a list of cells, first to last. -/
def writeCells (m : List Host.Cell) (cs : List Host.Cell) : List Host.Cell :=
  cs.foldl (fun m c => write m c.1 c.2) m

/-- Addresses strictly rising, no byte equal to what an unlisted address reads as. -/
def wf (m : List Host.Cell) : Bool := tableWf blankByte m

end Memory

/-- Bytes laid out from an address. -/
def cellsAt (a : Nat) : List Byte → List Host.Cell
  | [] => []
  | b :: bs => (a, b) :: cellsAt (a + 1) bs

/-! ### Entries of the state -/

def State.group? (s : State) (id : Nat) : Option Group := s.groups.find? fun g => g.id = id

/-- Replaces the group of the same name. -/
def State.setGroup (s : State) (g : Group) : State :=
  { s with groups := s.groups.map fun h => if h.id = g.id then g else h }

def State.onGroup (s : State) (id : Nat) (f : Group → Group) : State :=
  { s with groups := s.groups.map fun h => if h.id = id then f h else h }

def State.team? (s : State) (id : Nat) : Option Team := s.teams.find? fun t => t.id = id

def State.onTeam (s : State) (id : Nat) (f : Team → Team) : State :=
  { s with teams := s.teams.map fun t => if t.id = id then f t else t }

def State.launch? (s : State) (id : Nat) : Option Launch := s.launches.find? fun l => l.id = id

def State.onLaunch (s : State) (id : Nat) (f : Launch → Launch) : State :=
  { s with launches := s.launches.map fun l => if l.id = id then f l else l }

def State.cmd? (s : State) (id : Nat) : Option Cmd := s.cmds.find? fun c => c.id = id

def State.onCmd (s : State) (id : Nat) (f : Cmd → Cmd) : State :=
  { s with cmds := s.cmds.map fun c => if c.id = id then f c else c }

def State.pend? (s : State) (id : Nat) : Option Pending := s.pend.find? fun p => p.id = id

def State.dropPend (s : State) (id : Nat) : State := { s with pend := s.pend.filter fun p => p.id ≠ id }

def State.ctx? (s : State) (n : Nat) : Option Ctx := look? s.ctxs n

def State.onCtx (s : State) (n : Nat) (f : Ctx → Ctx) : State :=
  { s with ctxs := s.ctxs.map fun e => if e.1 = n then (e.1, f e.2) else e }

/-- The key of a core: die and COREPOS. -/
def coreKey (die core : Nat) : Nat := die * 256 + core

def State.coreSt (s : State) (key : Nat) : CoreSt := look {} s.cores key

def State.setCore (s : State) (key : Nat) (c : CoreSt) : State := { s with cores := keep {} s.cores key c }

def State.onCore (s : State) (key : Nat) (f : CoreSt → CoreSt) : State := s.setCore key (f (s.coreSt key))

def State.dieSt (s : State) (die : Nat) : DieSt := look {} s.dies die

def State.onDie (s : State) (die : Nat) (f : DieSt → DieSt) : State :=
  { s with dies := keep {} s.dies die (f (s.dieSt die)) }

/-- A fresh name. -/
def State.fresh (s : State) : Nat × State := (s.nextId, { s with nextId := s.nextId + 1 })

/-! ### Records of launches -/

def Launch.entry (l : Launch) : Nat := recNat l.record 8 8
def Launch.param (l : Launch) : Nat := recNat l.record 0x10 8
def Launch.recordAddr (l : Launch) : Nat := recNat l.record 0x18 8
def Launch.depAddr (l : Launch) : Nat := recNat l.record 0x20 8
def Launch.gridX (l : Launch) : Nat := recNat l.record 0x28 2
def Launch.gridY (l : Launch) : Nat := recNat l.record 0x2A 2
def Launch.groupsPerTeam (l : Launch) : Nat := recNat l.record 0x2C 1
def Launch.lastThreads (l : Launch) : Nat := recNat l.record 0x2D 1
def Launch.cw (l : Launch) : Nat := recBits l.record 0x2E 0 4
def Launch.ch (l : Launch) : Nat := recBits l.record 0x2E 4 4
def Launch.affinity (l : Launch) : Nat := recNat l.record 0x2F 1
def Launch.vregs (l : Launch) : Nat := recNat l.record 0x30 1
def Launch.sregs (l : Launch) : Nat := recNat l.record 0x31 1
def Launch.queueTotal (l : Launch) : Nat := recNat l.record 0x32 1
/-- The DUAL byte (R132): DUALN in [2:0], TM in [3]. -/
def Launch.dualN (l : Launch) : Nat := recBits l.record 0x33 0 3
def Launch.dualTm (l : Launch) : Bool := (recNat l.record 0x33 1).testBit 3
def Launch.tileUnits (l : Launch) : Nat := recNat l.record 0x34 2
def Launch.laneBytes (l : Launch) : Nat := recNat l.record 0x36 2
def Launch.barriers (l : Launch) : Nat := recNat l.record 0x38 2
def Launch.chain (l : Launch) : Nat := recNat l.record 0x3A 2
def Launch.ttl (l : Launch) : Nat := recNat l.record 0x3C 1
def Launch.chainEnd (l : Launch) : Bool := (recNat l.record 0x3D 1).testBit 0
def Launch.chainLog (l : Launch) : Bool := (recNat l.record 0x3D 1).testBit 1
def Launch.prio (l : Launch) : Nat := recNat l.record 3 1
def Launch.cbar (l : Launch) : Nat := recNat l.record 4 2
def Launch.notify (l : Launch) : Bool := (recNat l.record 1 1).testBit 1
def Launch.gridTeams (l : Launch) : Nat := l.gridX * l.gridY
def Launch.clusters (l : Launch) : Nat := l.gridTeams / (l.cw * l.ch)

/-- The compute sockets of a context's device (Table 20.2). -/
def CtxDesc.sockets (d : CtxDesc) : List Nat :=
  if d.mode = 0 then List.range 8 else if d.mode = 1 then (List.range 4).map (4 * d.dev + ·) else [d.dev]

/-- The GDDR 7 range of a context's device (Table 20.2): base and size. -/
def CtxDesc.range (d : CtxDesc) : Nat × Nat :=
  if d.mode = 0 then (0, 0x3000000000)
  else if d.mode = 1 then (d.dev * 0x1800000000, 0x1800000000)
  else (d.dev * 0x600000000, 0x600000000)

/-- The scheduler queues of a device (Table 20.2). -/
def modeQueues (mode : Nat) : Nat := if mode = 0 then 64 else if mode = 1 then 32 else 8

end Sys2Proof.Machine
end

