-- ==== Sys2Proof/Machine/Control.lean ====
section
/-! DEFINITION. The control state of a group: loop stack (spec/04 R94 to R98), divergence stack (spec/08 R158 to R162),
and where a group goes after an instruction. -/

namespace Sys2Proof.Machine

/-- The lanes of a mask, ascending. -/
def maskLanes (m : W32) : List Nat := lanes.filter m.getLsbD

/-- The mask of a list of lanes. -/
def laneMask (ls : List Nat) : W32 := BitVec.ofNat 32 (lanes.foldl (fun x l => if ls.contains l then x + 2 ^ l else x) 0)

/-- The group's program counter: that of the top entry (R158). -/
def Ctl.pc (c : Ctl) : CodeAt := match c.div with
  | [] => 0
  | e :: _ => e.pc

/-- The address that a code offset register names: the group's own program counter while the register holds its offset,
else the unsigned offset from the kernel entry. -/
def Ctl.near (c : Ctl) (x : W32) : CodeAt := if c.pc.setWidth 32 = x then c.pc else x.setWidth 64

/-- The active mask (R158). -/
def Ctl.mask (c : Ctl) : W32 := match c.div with
  | [] => 0
  | e :: _ => e.mask

def Ctl.setPc (c : Ctl) (pc : CodeAt) : Ctl := match c.div with
  | [] => c
  | e :: es => { c with div := { e with pc := pc } :: es }

/-- The lanes that remain in the group: those of the base entry. -/
def Ctl.alive (c : Ctl) : W32 := match c.div.getLast? with
  | none => 0
  | some e => e.mask

/-- How an instruction ends. -/
inductive Next where
  /-- without transferring control -/
  | fall
  /-- CALL, RET, TRET and a split: no unwinding of the loop stack (R95, R96) -/
  | jump (t : CodeAt)
  /-- a uniform taken branch (R96) -/
  | branch (t : CodeAt)
  deriving DecidableEq, Repr

/-- The end check of R95, over the loops above the `floor` lowest. -/
def endCheck (floor : Nat) : List LoopEnt → CodeAt → List LoopEnt × CodeAt
  | [], pc => ([], pc)
  | e :: es, pc =>
    if floor < es.length + 1 ∧ pc = e.fin then
      if e.count - 1 = 0 then endCheck floor es pc
      else ({ e with count := e.count - 1 } :: es, e.start)
    else (e :: es, pc)

/-- The unwinding of R96. -/
def unwind : List LoopEnt → CodeAt → List LoopEnt
  | [], _ => []
  | e :: es, t => if e.start.sle t && t.slt e.fin then e :: es else unwind es t

/-- The loops that a path's own end check leaves alone: at its reconvergence address, those the group held at the
branch, which are checked once, when the join entry becomes top (R95, R97). -/
def Ctl.floor (c : Ctl) (pc : CodeAt) : Nat := match c.div with
  | [] => 0
  | e :: _ => if e.rcv = some pc then e.loops.length else 0

/-- The reconvergence check of R161 with the emptied paths of R162; `none` is the LOOPDIV of R97.
The last component says whether a join entry became top. -/
def rejoin : List DivEnt → List LoopEnt → CodeAt → Bool → Option (List DivEnt × List LoopEnt × CodeAt × Bool)
  | [], loops, pc, j => some ([], loops, pc, j)
  | [e], loops, pc, j => some ([e], loops, pc, j)
  | e :: e' :: es, loops, pc, j =>
    if e.mask = 0 then rejoin (e' :: es) (if e'.join then loops else e'.loops) e'.pc e'.join
    else if e.rcv = some pc then
      if e.loops.length < loops.length then none
      else rejoin (e' :: es) (if e'.join then loops else e'.loops) e'.pc e'.join
    else some (e :: e' :: es, loops, pc, j)

/-- The checks after the end check: R161, R162, and the end check of a group that is whole again. -/
def Ctl.settle (div : List DivEnt) (loops : List LoopEnt) (pc : CodeAt) : Option Ctl :=
  match rejoin div loops pc false with
  | none => none
  | some (div, loops, pc, joined) =>
    let r := if joined then endCheck 0 loops pc else (loops, pc)
    some (Ctl.setPc ⟨div, r.1⟩ r.2)

/-- The control state after an instruction whose successor in line is at `a8`; `none` is the LOOPDIV of R97. -/
def Ctl.advance (c : Ctl) (a8 : CodeAt) : Next → Option Ctl
  | .fall =>
    let r := endCheck (c.floor a8) c.loops a8
    Ctl.settle c.div r.1 r.2
  | .jump t => Ctl.settle c.div c.loops t
  | .branch t => Ctl.settle c.div (unwind c.loops t) t

/-- Removes emptied paths from the top (R162). -/
def Ctl.prune (c : Ctl) : Ctl := (Ctl.settle c.div c.loops c.pc).getD c

/-- The split of R159 at address `a`: the causes of R160 and R97, else the new stack. -/
def Ctl.split (c : Ctl) (a t j : CodeAt) (taken fall : W32) : Except (BitVec 8) Ctl :=
  match c.div with
  | [] => .error 0x01
  | top :: es =>
    if top.rcv.any fun r => r.slt j then .error 0x01
    else if 254 < c.div.length then .error 0x12
    else if !(match c.loops with
        | [] => true
        | l :: _ => l.start.sle t && t.slt l.fin && a.slt j && j.sle l.fin) then .error 0x04
    else .ok { c with div :=
      { pc := a + 8, mask := fall, rcv := some j, loops := c.loops } ::
      { pc := t, mask := taken, rcv := some j, loops := c.loops } ::
      { top with pc := j, join := true } :: es }

/-- Removes exited lanes from every entry (R174, step 3). -/
def Ctl.removeLanes (c : Ctl) (gone : W32) : Ctl :=
  { c with div := c.div.map fun e => { e with mask := e.mask &&& ~~~gone } }

/-- The stack of a handler or of a newborn group: one entry without reconvergence. -/
def Ctl.single (pc : CodeAt) (mask : W32) : Ctl := ⟨[{ pc := pc, mask := mask, rcv := none }], []⟩

end Sys2Proof.Machine
end

