-- ==== Sys2Proof/Machine/Memory.lean ====
section
/-! DEFINITION. Physical memory: the address map (spec/12 R222, R223), channels and fencing (spec/20 R352, R355),
writes on their way to their observers (spec/20 R358 to R360), and page walks (spec/17 R324 to R328). -/

namespace Sys2Proof.Machine

/-! ### The address map -/

/-- GDDR 7 lies below this address (Table 12.2). -/
abbrev gddrTop : Nat := 0x3000000000
/-- Host memory lies from this address on (Table 12.2). -/
abbrev hostBase : Nat := 0x8000000000000
/-- The weight store window (R226). -/
abbrev windowBase : Nat := 0x00FF000000000000
/-- 3 GiB: the weight store of a die, and the window range (R226). -/
abbrev windowSpan : Nat := 0xC0000000

/-- The channel of a GDDR 7 address in a device mode, with MODE codes of Table 18.1 (Table 20.2). -/
def channelOf (mode p : Nat) : Nat :=
  if mode = 0 then bitsOf p 12 6
  else if mode = 1 then 32 * (p / 0x1800000000) + bitsOf (p % 0x1800000000) 12 5
  else 8 * (p / 0x600000000) + bitsOf (p % 0x600000000) 12 3

/-- Whether an address lies on a fenced channel, as a device mode lays the channels out (R355). -/
def State.fencedIn (s : State) (mode pa : Nat) : Bool :=
  decide (pa < gddrTop) && s.pkg.fencedChan.getLsbD (channelOf mode pa)

/-- Whether an address lies on a fenced channel (R355). -/
def State.fencedAt (s : State) (pa : Nat) : Bool := s.fencedIn (s.pkg.mode.getD 0) pa

/-- Whether a part is one of the package and not yet fenced. -/
def State.partLive (s : State) (p : Part) : Bool :=
  match p with
  | .socket k => decide (k ≤ 12) && !s.pkg.fencedSock.getLsbD k
  | .link k => decide (k < 16) && !s.pkg.fencedLink.getLsbD k
  | .channel c => decide (c < 64) && !s.pkg.fencedChan.getLsbD c

/-- Who makes an access (R223): its level, whether it belongs to a copy command, and the die of the group that pushed that
command, whose weight store window counts for it (R270). -/
structure Who where
  sup : Bool
  copy : Bool := false
  win : Option Nat := none
  deriving DecidableEq, Repr

/-- Whether [a, a + n) and [b, b + m) meet. -/
def meets (a n b m : Nat) : Bool := decide (a < b + m ∧ b < a + n ∧ 0 < n ∧ 0 < m)

/-! ### Writes on their way -/

/-- The observers of R357 that a write must reach before it is in memory; peers receive it with the host (log 6). -/
def allObservers : List Observer := (List.range 12).map .socket ++ [.host]

/-- Whether agent `b` stands within the extent of scope `sc` for agent `a` (Table 13.2). -/
def Site.holds (sc : Nat) (a b : Site) : Bool :=
  match sc with
  | 0 => a.gid.isSome && a.gid == b.gid
  | 1 => a.team == b.team
  | 2 => a.cluster == b.cluster
  | 3 => a.ctx == b.ctx && a.die == b.die
  | 4 => a.ctx == b.ctx
  | _ => true

/-- Whether a write is one of memory, not of a tile region. -/
def InWrite.flat (w : InWrite) : Bool := w.tile.isNone

/-- Whether a write of memory is visible to a reader (R142, R358, R359). -/
def InWrite.visible (w : InWrite) (gid : Option Nat) (o : Observer) : Bool :=
  w.flat && ((gid.isSome && decide (w.site.gid = gid)) || w.arrived.contains o)

/-- The byte that a reader finds: that of the coherence-latest write visible to it (R241, R252). -/
def State.viewByte (s : State) (gid : Option Nat) (o : Observer) (a : Nat) : Byte :=
  s.inflight.foldl (fun b w => if w.visible gid o then (look? w.cells a).getD b else b) (Memory.read s.mem a)

def State.viewBytes (s : State) (gid : Option Nat) (o : Observer) (a n : Nat) : List Byte :=
  (List.range n).map fun i => s.viewByte gid o (a + i)

/-- Whether a write of a team's tile region is visible to a group, or to another agent (R142, R236). -/
def InWrite.visibleTile (w : InWrite) (team : Nat) (reader : Site) : Bool :=
  decide (w.tile = some team) && ((reader.gid.isSome && w.site.gid == reader.gid) || !w.arrived.isEmpty)

/-- The byte of a team's tile region that a group finds (R142, R236). DESIGN CHOICE (log 36): of a team that has retired since the
access was issued, every byte reads 0. -/
def State.tileByte (s : State) (reader : Site) (team ofs : Nat) : Byte :=
  s.inflight.foldl (fun b w => if w.visibleTile team reader then (look? w.cells ofs).getD b else b)
    (((s.team? team).map fun t => look 0 t.tile ofs).getD 0)

/-- Of the values of a byte before and after the writes that arrive while an operation reads it, the one that it finds: where
they differ, which one is free (R237, R279). -/
def State.pickByte (s : State) (key : Nat) (before after : Byte) : Byte :=
  if before = after then after else if Config.laneChoice s.free key % 2 = 1 then after else before

/-- The byte of a team's tile region that a matrix operation or an engine finds where stores arrive while it reads, between
`s` and `t`. -/
def State.unitByte (s t : State) (team ofs : Nat) : Byte :=
  t.pickByte ofs (s.tileByte {} team ofs) (t.tileByte {} team ofs)

/-- The bytes of memory that an engine finds where writes arrive while it reads, between `s` and `t`. -/
def State.engineBytes (s t : State) (o : Observer) (a n : Nat) : List Byte :=
  (List.range n).map fun i => t.pickByte (a + i) (s.viewByte none o (a + i)) (t.viewByte none o (a + i))

/-- Sets the dirty-page bits of written bytes (R344). -/
def State.markDirty (s : State) (ctx va n : Nat) : State :=
  s.onCtx ctx fun c =>
    let one (c : Ctx) (a : Nat) : Ctx :=
      if c.desc.dirtyVa ≤ a ∧ (a - c.desc.dirtyVa) / 65536 < c.desc.dirtyPages then
        { c with dirty := (keep 0 (c.dirty.map fun p => (p, 1)) ((a - c.desc.dirtyVa) / 65536) 1).map (·.1) }
      else c
    if n = 0 then c else one (one c va) (va + n - 1)

/-- Whether a write covers a byte of another one. -/
def InWrite.covers (w x : InWrite) (c : Host.Cell) : Bool := w.tile == x.tile && w.cells.any fun d => d.1 = c.1

/-- Every reader sees a write of memory: the dirty bits of its bytes are set at that moment (R344). -/
def State.countWrite (s : State) (w : InWrite) : State :=
  if w.counted ∨ !w.flat then s
  else
    State.markDirty { s with inflight := s.inflight.map fun (x : InWrite) =>
      if x.id = w.id then { x with counted := true } else x } w.site.ctx w.va.toNat w.len

/-- A write becomes part of the place that it writes: it leaves the list, and coherence-earlier writes lose the bytes it
covers. -/
def State.settleWrite (s : State) (id : Nat) : State :=
  match s.inflight.find? fun w => w.id = id with
  | none => s
  | some w =>
    let before := (s.inflight.takeWhile fun x => decide (x.id ≠ id)).map fun x =>
      { x with cells := x.cells.filter fun c => !w.covers x c }
    let after := (s.inflight.dropWhile fun x => decide (x.id ≠ id)).drop 1
    let s := { s with inflight := before ++ after }
    match w.tile with
    | some t => s.onTeam t fun t => { t with tile := w.cells.foldl (fun m c => keep 0 m c.1 c.2) t.tile }
    | none => { s with mem := Memory.writeCells s.mem w.cells }

/-- Whether a write has one moment for every reader: one of a tile region (R252), or one of host memory, which no cache
holds and which is performed as it reaches the port (R224). -/
def InWrite.single (w : InWrite) : Bool := !w.flat || decide (hostBase ≤ w.base)

/-- Whether every reader sees a write. -/
def InWrite.whole (w : InWrite) : Bool :=
  !w.mca && allObservers.all fun o => w.arrived.contains o

/-- Whether a release side carries a write (R247): it names it, or a pending atomic that has made it since (R146). -/
def Rel.carries (r : Rel) (w : InWrite) : Bool := r.ids.contains w.id || r.reads.contains w.maker

/-- The names of the writes on their way that a release side carries. -/
def State.idsOf (s : State) (r : Rel) : List Nat := (s.inflight.filter r.carries).map (·.id)

/-- Whether a release side that a write stands for still carries another write that is on its way: the write then stays
in the list, so that a later acquire of it is known as one (R247). -/
def State.bears (s : State) (w : InWrite) : Bool :=
  w.rels.any fun r => s.inflight.any fun x => decide (x.id ≠ w.id) && r.carries x

/-- Every write that all readers see and that bears no other settles, in coherence order. -/
def State.settleWrites (s : State) : State :=
  s.inflight.foldl (fun s w =>
    if !w.whole then s
    else if s.bears w then s.countWrite w
    else (s.countWrite w).settleWrite w.id) s

/-- Of these names, those of writes that are on their way. -/
def State.onWay (s : State) (ids : List Nat) : List Nat :=
  (s.inflight.map (·.id)).filter ids.contains

/-- A release has performed writes at team or cluster scope (R244, R247): each is owed to the agents of that extent. -/
def State.owe (s : State) (sc : Nat) (ids : List Nat) : State :=
  { s with inflight := s.inflight.map fun (w : InWrite) => if ids.contains w.id then { w with owed := max w.owed sc } else w }

/-- A write takes its place in coherence order, after every write that has one (R241); what its release sides of team and
cluster scope carry is performed with it. -/
def State.place (s : State) (id : Nat) : State :=
  match s.inflight.find? fun w => w.id = id with
  | none => s
  | some w =>
    if w.placed then s
    else
      let rest := s.inflight.filter fun x => x.id ≠ id
      let s := { s with inflight := rest.filter (·.placed) ++ [{ w with placed := true }] ++ rest.filter fun x => !x.placed }
      (w.rels.filter fun r => decide (r.sc ≤ 2)).foldl (fun s r => s.owe r.sc (s.idsOf r)) s

/-- A write becomes visible everywhere. -/
def State.landWrite (s : State) (id : Nat) : State :=
  let s := s.place id
  State.settleWrites { s with inflight := s.inflight.map fun (w : InWrite) =>
    if w.id = id then { w with arrived := allObservers, mca := false, acq := false } else w }

/-- The arrival of a write at observers (R358): at its own die with the first of them; one that has a single moment
reaches all of them at once. -/
def State.arrive (s : State) (id : Nat) (os : List Observer) : State :=
  if os.isEmpty then s
  else
    let s := s.place id
    State.settleWrites { s with inflight := s.inflight.map fun (w : InWrite) =>
      if w.id ≠ id then w
      else if w.single then { w with arrived := allObservers }
      else { w with arrived := joinNew w.arrived (if w.mca then os else joinNew [.socket w.site.die] os) } }

/-! ### What must come before a write -/

/-- Whether the values of a producer's accesses are fixed (R244). -/
def Pending.performed (p : Pending) : Bool := p.accs.all (·.val.isSome)

/-- The observers of a scope (Table 13.2): group scope needs none, device scope reaches the homes, the scheduler and the
task unit on sockets 8 and 9, system scope is every observer. -/
def scopeObservers (d : CtxDesc) (die sc : Nat) : List Observer :=
  if sc = 0 then []
  else if sc ≤ 3 then [.socket die]
  else if sc = 4 then (d.sockets ++ [8, 9, 10, 11]).map .socket
  else allObservers

/-- The observers at which a release side has what it carries. -/
def State.sideObservers (s : State) (r : Rel) : List Observer :=
  match s.ctx? r.site.ctx with
  | none => allObservers
  | some c => scopeObservers c.desc r.site.die r.sc

/-- Whether the reads that a release side waits for have been performed (R146). -/
def State.readsDone (s : State) (r : Rel) : Bool := s.pend.all fun p => !r.reads.contains p.id || p.performed

/-- Whether a write on its way has been performed at the scope of a release side that carries it (R244, R247), where team
and cluster scope ask for no arrival; an MCA write has not before its moment (R359). -/
def State.doneFor (s : State) (r : Rel) (x : InWrite) : Bool :=
  !x.mca && (decide (r.sc ≤ 2) || (if x.flat then (s.sideObservers r).all x.arrived.contains else !x.arrived.isEmpty))

/-- Whether everything has been performed that the release sides of a write carry: no agent reads the write before
(R247, R248). -/
def State.relsDone (s : State) (w : InWrite) : Bool :=
  w.rels.all fun r => s.readsDone r && s.inflight.all fun x => decide (x.id = w.id) || !r.carries x || s.doneFor r x

/-- The MCA writes that hold a write back: those of its bytes before it in coherence order (R360). -/
def State.holders (s : State) (w : InWrite) : List InWrite :=
  (s.inflight.takeWhile fun x => decide (x.id ≠ w.id)).filter fun x =>
    x.placed && x.mca && w.cells.any fun c => x.covers w c

/-- Whether a coherence-earlier MCA write to its location holds a write back (R360). -/
def State.heldBack (s : State) (w : InWrite) : Bool := !(s.holders w).isEmpty

/-- Whether everything that comes before a write has happened: no MCA write holds it back (R360), overlapping writes before
it have their places (R251), and its release sides have performed what they carry (R247). -/
def State.clear (s : State) (w : InWrite) : Bool :=
  !s.heldBack w && (s.inflight.all fun x => !w.prior.contains x.id || (x.placed && !x.mca)) && s.relsDone w

/-- The names of the writes that must move before a write can. -/
def State.deps (s : State) (w : InWrite) : List Nat :=
  let late (r : Rel) (id : Nat) : Bool := decide (3 ≤ r.sc) || s.inflight.any fun x => decide (x.id = id) && x.mca
  (s.holders w).map (·.id) ++
    if w.placed && !w.mca then [] else w.prior ++ w.rels.flatMap fun r => (s.idsOf r).filter (late r)

/-- Names with all the writes that must move before these. -/
def State.needs (s : State) : Nat → List Nat → List Nat
  | 0, ids => ids
  | k + 1, ids => s.needs k (joinNew ids ((s.inflight.filter fun w => ids.contains w.id).flatMap s.deps))

/-- Whether every write that a write needs satisfies `ok`. -/
def State.allNeeded (s : State) (id : Nat) (ok : InWrite → Bool) : Bool :=
  let ids := s.needs s.inflight.length [id]
  s.inflight.all fun w => !ids.contains w.id || ok w

/-- Whether the reads that the release sides of a write wait for have been performed. -/
def State.unread (s : State) (w : InWrite) : Bool := (w.placed && !w.mca) || w.rels.all s.readsDone

/-- Whether a write can be brought to a reader now: neither it nor what it needs waits for an MCA write's moment. -/
def State.canBring (s : State) (id : Nat) : Bool := s.allNeeded id fun w => !w.mca && s.unread w

/-- Whether a write can become visible everywhere now: no MCA write that it needs has lost an acknowledgement. -/
def State.canLand (s : State) (id : Nat) : Bool := s.allNeeded id fun w => (!w.mca || w.arrived.isEmpty) && s.unread w

/-- A write arrives at observers now, and before it all that it needs: each write that a release side carries at the
observers of that side's scope, an MCA write at its single moment. -/
def State.bring (s : State) (id : Nat) (os : List Observer) : State :=
  let ids := s.needs s.inflight.length [id]
  let ws := s.inflight.filter fun w => ids.contains w.id
  let goal (x : InWrite) : List Observer := if x.id = id then os else
    ws.flatMap fun w => (if w.prior.contains x.id then [.socket x.site.die] else []) ++
      w.rels.flatMap fun r => if r.carries x ∧ 3 ≤ r.sc then s.sideObservers r else []
  ws.foldl (fun s x => if !x.mca then s.arrive x.id (goal x) else if x.arrived.isEmpty then s.landWrite x.id else s) s

/-- Writes become visible everywhere, with all that they need. -/
def State.bringAll (s : State) (ids : List Nat) : State := ids.foldl (fun s id => s.bring id allObservers) s

/-- Writes are performed at the scope of a release side (R247). -/
def State.performFor (s : State) (r : Rel) (ids : List Nat) : State :=
  if r.sc ≤ 2 then s.owe r.sc ids else (s.onWay ids).foldl (fun s id => s.bring id (s.sideObservers r)) s

/-- Whether a release side still has something to wait for. -/
def State.bears? (s : State) (r : Rel) : Bool := !(s.idsOf r).isEmpty || !s.readsDone r

/-- Some of the stores to a team's tile region that are on their way arrive while a matrix operation or an engine reads it:
which ones is free (R237, R252). -/
def State.stirTile (s : State) (team : Nat) : State :=
  let ws := s.inflight.filter fun w => decide (w.tile = some team) && w.arrived.isEmpty &&
    decide (Config.laneChoice s.free w.id % 2 = 1) && s.canBring w.id
  { ws.foldl (fun s w => s.bring w.id [.socket w.site.die]) s with free := s.free + 1 }

/-- Some of the writes of memory that are on their way arrive at a die while an engine there reads: which ones is free
(R279). -/
def State.stirMem (s : State) (die : Nat) : State :=
  let ws := s.inflight.filter fun w => w.flat && !w.arrived.contains (.socket die) &&
    decide (Config.laneChoice s.free w.id % 2 = 1) && s.canBring w.id
  { ws.foldl (fun s w => s.bring w.id [.socket die]) s with free := s.free + 1 }

/-! ### What a read must find -/

/-- Whether a write meets a place of `n` bytes. -/
def InWrite.on (w : InWrite) (n : Nat) : Loc → Bool
  | .mem pa => w.flat && meets w.base w.len pa n
  | .tile team ofs => w.tile == some team && meets w.base w.len ofs n
  | _ => false

/-- Whether a write is one of the reader's own group. -/
def InWrite.mine (w : InWrite) (me : Site) : Bool := me.gid.isSome && w.site.gid == me.gid

/-- Whether a write has been performed at a team or cluster scope within whose extent a reader stands. -/
def InWrite.owedTo (w : InWrite) (me : Site) : Bool := decide (1 ≤ w.owed) && Site.holds w.owed w.site me

/-- Whether a write has arrived where an agent stands. -/
def InWrite.here (w : InWrite) (me : Site) : Bool :=
  if w.flat then w.arrived.contains (.socket me.die) else !w.arrived.isEmpty

/-- The writes of a place that an agent must find and that have not arrived where it stands: its own (R142), and those that
a release has performed toward it (R244). -/
def State.due (s : State) (me : Site) (n : Nat) (l : Loc) : List InWrite :=
  s.inflight.filter fun w => w.on n l && (w.mine me || w.owedTo me) && !w.here me

/-- Whether an agent can read a place now. Its own write arrives at its die before it reads it (R252), but for an MCA
write and one held back by such a write, which the group alone reads (R359, R360); a release comes after all that it
carries for its own group too (R247). -/
def State.canRead (s : State) (me : Site) (n : Nat) (l : Loc) : Bool :=
  (s.due me n l).all fun w => s.canBring w.id || (w.mine me && s.allNeeded w.id s.relsDone)

/-- The writes of a place that an agent must find arrive at its die, at the moment at which it reads (R252). -/
def State.summon (s : State) (me : Site) (n : Nat) (l : Loc) : State :=
  (s.due me n l).foldl (fun s w => if s.canBring w.id then s.bring w.id [.socket me.die] else s) s

/-- The writes that have been performed toward an operation and have not arrived where it stands. -/
def State.owing (s : State) (me : Site) (hit : InWrite → Bool) : List InWrite :=
  s.inflight.filter fun w => hit w && w.owedTo me && !w.here me

/-- These writes arrive before the operation reads; `none` where one cannot yet. -/
def State.summonAll (s : State) (me : Site) (hit : InWrite → Bool) : Option State :=
  let ws := s.owing me hit
  if ws.all fun w => s.canBring w.id then some (ws.foldl (fun s w => s.bring w.id [.socket me.die]) s) else none

/-! ### Writes of the device -/

/-- MCA writes of these bytes that no observer has yet reach their moment, so that a write made now comes after them
(R359, R360). -/
def State.clearWay (s : State) (pa n : Nat) : State :=
  ((s.inflight.filter fun w => w.placed && w.mca && w.on n (.mem pa)).map (·.id)).foldl
    (fun s id => if s.canLand id then s.bring id allObservers else s) s

/-- A write that is visible everywhere at once and ends every earlier write of its bytes: of rings, images and areas. An MCA
write that some observers have and that has lost an acknowledgement stays after it in coherence order (R361, log 6). -/
def State.writeRaw (s : State) (pa : Nat) (bs : List Byte) : State :=
  let s := s.clearWay pa bs.length
  let hit (c : Host.Cell) : Bool := decide (pa ≤ c.1 ∧ c.1 < pa + bs.length)
  { s with mem := Memory.writeCells s.mem (cellsAt pa bs)
           inflight := s.inflight.map fun w =>
             if w.flat && w.placed && !w.mca then { w with cells := w.cells.filter fun c => !hit c } else w }

/-- A write by the device itself, an engine or the host, visible everywhere at once (log 6). -/
def State.writeNow (s : State) (ctx va pa : Nat) (bs : List Byte) : State :=
  (s.writeRaw pa bs).markDirty ctx va bs.length

/-- An engine or the exchange writes bytes of a team's tile region at once: it ends every earlier write of them (R237). -/
def State.writeTile (s : State) (team ofs : Nat) (bs : List Byte) : State :=
  let hit (c : Host.Cell) : Bool := decide (ofs ≤ c.1 ∧ c.1 < ofs + bs.length)
  let strip (w : InWrite) : InWrite :=
    if w.tile = some team ∧ w.placed then { w with cells := w.cells.filter fun c => !hit c } else w
  State.onTeam { s with inflight := s.inflight.map strip } team fun t =>
    { t with tile := (cellsAt ofs bs).foldl (fun m e => keep 0 m e.1 e.2) t.tile }

/-- The home of an address: the memory-interface die of its channel, or the host (R351). -/
def State.homeOf (s : State) (pa : Nat) : Observer :=
  if gddrTop ≤ pa then .host else if channelOf (s.pkg.mode.getD 0) pa < 32 then .socket 8 else .socket 9

/-- The bytes at their home. -/
def State.homeBytes (s : State) (pa n : Nat) : List Byte :=
  (List.range n).map fun i => s.viewByte none (s.homeOf (pa + i)) (pa + i)

/-! ### Carve-outs -/

/-- Whether a range of GDDR 7 lies in a device's part (R354). -/
def CtxDesc.holds (d : CtxDesc) (pa n : Nat) : Bool := decide (d.range.1 ≤ pa ∧ pa + n ≤ d.range.1 + d.range.2)

/-- Whether the device can use a context's image area; one outside its device's range faults PROT (R354). -/
def CtxDesc.imageOk (d : CtxDesc) : Bool := d.imgSize != 0 && d.holds d.imgBase (d.imgSize * 65536)

/-- Whether the device can use a context's GDDR estate area (R354). -/
def CtxDesc.areaOk (d : CtxDesc) : Bool := d.areaSize == 0 || d.holds d.areaBase (d.areaSize * 65536)

/-- Whether the device can use a context's fault ring: it lies in host memory or in the device's range (R354). -/
def CtxDesc.ringOk (d : CtxDesc) : Bool := decide (hostBase ≤ d.frBase) || d.holds d.frBase (64 + 64 * d.frCount)

/-- The state code of a context's image (R336): that of the header in the image area once FLUSH has written it. -/
def State.imageState (s : State) (c : Ctx) : Nat :=
  match c.phase with
  | .live => 0
  | .preempted => 1
  | .ending => 1
  | .flushed => if c.desc.imageOk then ((s.homeBytes (c.desc.imgBase + 8) 1).headD 0).toNat else 0

/-- Whether a live context's carve-outs close the bytes to this access (R223). -/
def State.closes (s : State) (c : Ctx) (who : Who) (pa n : Nat) : Bool :=
  let d := c.desc
  (meets pa n d.imgBase (d.imgSize * 65536) && !(who.copy && who.sup && s.imageState c == 2))
  || meets pa n d.areaBase (d.areaSize * 65536)
  || (meets pa n d.frBase (64 + 64 * d.frCount) && !who.sup)

/-- Whether some carve-out of any kind holds the bytes (R324). -/
def CtxDesc.carves (d : CtxDesc) (pa n : Nat) : Bool :=
  meets pa n d.imgBase (d.imgSize * 65536) || meets pa n d.areaBase (d.areaSize * 65536)
  || meets pa n d.frBase (64 + 64 * d.frCount)

/-- A physical address that an access may not use: reserved (R222), closed (R223), or outside the device (R354). -/
def State.paBad (s : State) (d : CtxDesc) (who : Who) (pa n : Nat) : Bool :=
  if pa < gddrTop then
    !(decide (d.range.1 ≤ pa ∧ pa + n ≤ d.range.1 + d.range.2)) || s.ctxs.any fun c => s.closes c.2 who pa n
  else decide (pa < hostBase)

/-! ### Page walks -/

/-- Whether a virtual address is canonical (R137). -/
def canonical (va : Nat) : Bool := bitsOf va 57 7 == (if va.testBit 56 then 127 else 0)

/-- A leaf that a walk reached: physical address of the 64 KiB page, permissions, D, and the entry's address. -/
structure Leaf where
  pa : Nat
  w : Bool
  x : Bool
  usr : Bool
  pte : Nat
  deriving DecidableEq, Repr

/-- What access is translated. -/
inductive Kind where
  | read | write | fetch
  deriving DecidableEq, Repr

/-- PGRD or PGWR (R325). -/
def Kind.pgCause : Kind → BitVec 8
  | .write => 0x11
  | _ => 0x10

/-- A table must lie in the context's part of GDDR 7, outside every carve-out (R324, R354). -/
def State.tableBad (s : State) (d : CtxDesc) (pa n : Nat) : Bool :=
  !(decide (d.range.1 ≤ pa ∧ pa + n ≤ d.range.1 + d.range.2)) || s.ctxs.any fun c => c.2.desc.carves pa n

/-- The walk of R325 from a table, over the levels below: each is the lowest bit and the width of its index. -/
def State.walkFrom (s : State) (o : Observer) (d : CtxDesc) (k : Kind) (va : Nat) :
    List (Nat × Nat) → Nat → Except (BitVec 8) Leaf
  | [], _ => .error 0x12
  | (lo, len) :: rest, table =>
    if s.tableBad d table (8 * 2 ^ len) then .error 0x12
    else
      let at_ := table + 8 * bitsOf va lo len
      let e := ofLe (s.viewBytes none o at_ 8)
      let pa := bitsOf e 16 36 * 65536
      if !e.testBit 0 then .error k.pgCause
      else if e.testBit 1 then
        if lo = 16 then .ok ⟨pa, e.testBit 2, e.testBit 5, e.testBit 4, at_⟩
        else if lo = 29 then
          if bitsOf e 16 13 ≠ 0 then .error 0x12
          else .ok ⟨pa + bitsOf va 16 13 * 65536, e.testBit 2, e.testBit 5, e.testBit 4, at_⟩
        else .error 0x12
      else if lo = 16 then .error 0x12
      else s.walkFrom o d k va rest pa

/-- The four levels of R324. -/
def State.walk (s : State) (o : Observer) (d : CtxDesc) (k : Kind) (va : Nat) : Except (BitVec 8) Leaf :=
  s.walkFrom o d k va [(55, 2), (42, 13), (29, 13), (16, 13)] d.root

/-- The checks at the leaf, in the order of R325's table. -/
def State.leafCheck (s : State) (d : CtxDesc) (who : Who) (k : Kind) (va n : Nat) (l : Leaf) :
    Except (BitVec 8) Nat :=
  let pa := l.pa + va % 65536
  if k = .write ∧ !l.w then .error 0x11
  else if k = .fetch ∧ !l.x then .error 0x10
  else if !who.sup && !l.usr then .error 0x12
  else if s.paBad d who pa n then .error 0x12
  else .ok pa

/-- Whether a virtual address lies in the window range as an agent beside an observer finds it (R226): on a compute die
the die's own window counts, elsewhere that of any die. -/
def CtxDesc.windowed (d : CtxDesc) (o : Observer) (va : Nat) : Bool :=
  decide (windowBase ≤ va ∧ va < windowBase + windowSpan) &&
  match o with
  | .socket k => if k < 8 then (d.ws.getD k (0, 0)).2 != 0 else d.ws.any fun w => w.2 != 0
  | _ => d.ws.any fun w => w.2 != 0

/-- Translation by a fresh walk, for engines, the scheduler, the host and peers (R404). Page tables do not cover the
window range (R226). A write there raises WSWRITE (R227). DESIGN CHOICE (log 36): a read there by an exchange engine, the
scheduler, the host or a peer raises PROT, which no rule states; an exchange engine goes by the window of its own die. -/
def State.translate (s : State) (o : Observer) (d : CtxDesc) (who : Who) (k : Kind) (va n : Nat) :
    Except (BitVec 8) Nat :=
  if !canonical va then .error k.pgCause
  else if d.windowed ((who.win.map .socket).getD o) va then .error (if k = .write then 0x13 else 0x12)
  else do s.leafCheck d who k va n (← s.walk o d k va)

/-- The first write through a leaf with D = 0 sets D, by an OR at system scope (R326). -/
def State.setDirty (s : State) (pte : Nat) : State :=
  let b := (s.homeBytes pte 1).headD 0
  if b.getLsbD 3 then s else s.writeRaw pte [b ||| 8]

/-- Sets D of the leaf that maps an address, where a write through it translates. -/
def State.setDirtyAt (s : State) (o : Observer) (d : CtxDesc) (va : Nat) : State :=
  match s.walk o d .write va with
  | .error _ => s
  | .ok l => s.setDirty l.pte

end Sys2Proof.Machine
end

