-- ==== Sys2Proof/Machine/Ops.lean ====
section
/-! DEFINITION. Shared operations: taking an exception and returning from it (spec/17 R311 to R322), the fault record
(R318, R319) and the orphan log (spec/20 R365), retiring groups and teams, barriers (spec/09 R195), and the
commitment of an instruction. -/

namespace Sys2Proof.Machine

/-- The result of a step. -/
abbrev Res := Host.Outcome State Fault Refusal

/-! ### Causes (Table 17.1) -/

/-- Whether a cause is of class trap. -/
def isTrapCause (c : BitVec 8) : Bool :=
  [0x01, 0x02, 0x03, 0x04, 0x08, 0x20, 0x21, 0x22, 0x23, 0x24, 0x28, 0x29, 0x40, 0x41].contains c.toNat

/-- The rank of a cause; the five floating-point causes share one. -/
def causeRank (c : BitVec 8) : Nat :=
  match c.toNat with
  | 0x01 => 1 | 0x02 => 2 | 0x03 => 3 | 0x10 => 4 | 0x11 => 4 | 0x12 => 5 | 0x13 => 6 | 0x08 => 7 | 0x04 => 8
  | 0x28 => 9 | 0x29 => 10 | 0x2A => 11 | 0x20 => 12 | 0x21 => 12 | 0x22 => 12 | 0x23 => 12 | 0x24 => 12
  | 0x31 => 13 | 0x18 => 14 | 0x30 => 15 | 0x40 => 16 | 0x41 => 17
  | _ => 18

/-! ### Interrupts, the orphan log and the fault record -/

/-- Raises an MSI-X vector (R391). -/
def State.interrupt (s : State) (v : Nat) : State := { s with irqs := v :: s.irqs }

/-- Whether the orphan log has room for an entry, none waiting ahead of it (R365). -/
def State.orphanRoom (s : State) : Bool :=
  s.pkg.orphanQ.isEmpty && decide (s.pkg.orphanProd - s.pkg.orphanCons < 4096)

/-- Writes orphan log entries while there is room, each before the interrupts that follow it (R365, R391). -/
def drainOrphans : List Orphan → State → State
  | [], s => { s with pkg := { s.pkg with orphanQ := [] } }
  | o :: os, s =>
    if s.pkg.orphanProd - s.pkg.orphanCons < 4096 then
      drainOrphans os ((128 :: o.irqs).foldl State.interrupt { s with pkg := { s.pkg with
        orphans := (s.pkg.orphans ++ [o]).drop (s.pkg.orphans.length + 1 - 4096)
        orphanProd := s.pkg.orphanProd + 1 } })
    else { s with pkg := { s.pkg with orphanQ := o :: os } }

/-- The 128 bytes of an entry (Table 20.8). -/
def Orphan.bytes (o : Orphan) : List Byte :=
  o.body ++ List.replicate (64 - o.body.length) 0 ++ leBytes 8 o.addr.toNat
  ++ leBytes 8 ((if o.kind then 1 else 0) + o.ctx % 64 * 256) ++ leBytes 8 o.lseq ++ List.replicate 40 0

/-- The bytes of the orphan log: entry q lies at 128 × (q mod 4,096) (R365). -/
def Pkg.orphanByte (p : Pkg) (a : Nat) : Byte :=
  let held := p.orphans.length
  let slot := a / 128 % 4096
  let q := (List.range held).find? fun i => decide ((p.orphanProd - held + i) % 4096 = slot)
  match q.bind fun i => p.orphans[i]? with
  | none => 0
  | some o => o.bytes.getD (a % 128) 0

/-- An entry for the orphan log (Table 20.8). -/
def State.orphan (s : State) (o : Orphan) : State := drainOrphans (s.pkg.orphanQ ++ [o]) s

/-- The 64 bytes of a fault-record entry (Table 17.4). -/
def Posting.bytes (p : Posting) (seq : Nat) : List Byte :=
  leBytes 8 (p.why.code.toNat + (if p.why.conv then 0x100 else 0) + p.src * 0x200
    + (if p.why.ih then 0x1000 else 0) + (if p.repl then 0x2000 else 0) + p.why.lane * 0x10000
    + p.why.space * 0x1000000 + (seq % 2 ^ 32) * 2 ^ 32)
  ++ leBytes 8 p.why.addr.toNat ++ leBytes 4 p.why.pc.toNat ++ leBytes 4 p.regionPc.toNat
  ++ leBytes 8 p.why.region.toNat ++ leBytes 8 p.lseq
  ++ leBytes 8 (p.teampos.toNat + p.groupId * 2 ^ 32 + p.die * 2 ^ 40 + p.core * 2 ^ 48)
  ++ leBytes 8 p.why.detail.toNat ++ leBytes 8 0

/-- Whether a context's next entry, or its ring header, lies on a fenced channel (R355). -/
def State.ringFenced (s : State) (c : Ctx) : Bool :=
  s.fencedIn c.desc.mode (c.desc.frBase + 64 + 64 * (c.produced % c.desc.frCount)) || s.fencedIn c.desc.mode c.desc.frBase

/-- Writes one entry, then PRODUCED, then raises the interrupt (R318); on a fenced channel the entry goes to the
orphan log (R365). -/
def State.writeEntry (s : State) (c : Ctx) (p : Posting) : State × Ctx :=
  let n := c.desc.ctx
  let q := c.produced
  let a := c.desc.frBase + 64 + 64 * (q % c.desc.frCount)
  let c' : Ctx := { c with
    produced := q + 1
    awaits := if p.repl then c.awaits ++ [⟨BitVec.ofNat 32 q, p.gid.getD 0, p.debug⟩] else c.awaits }
  (if s.ringFenced c then s.orphan ⟨p.bytes q, BitVec.ofNat 64 a, true, n, p.lseq, [2 * n + 1]⟩
   else ((s.writeRaw a (p.bytes q)).writeRaw c.desc.frBase (leBytes 8 (q + 1))).interrupt (2 * n + 1), c')

/-- The status of a launch that meets another: PARTFAIL gives way (R381), else the first stays. -/
def worse (fate : Option Nat) (status : Nat) : Option Nat :=
  match fate with
  | none => some status
  | some 4 => some status
  | some x => some x

/-- Whether a context's next entry has room: in its fault record (R318), or in the orphan log where the ring lies on a fenced
channel (R365). -/
def State.entryRoom (s : State) (c : Ctx) : Bool :=
  if s.ringFenced c then s.orphanRoom
  else
    let consumed := ofLe (s.homeBytes (c.desc.frBase + 8) 8)
    decide ((c.produced + 2 ^ 64 - consumed) % 2 ^ 64 < c.desc.frCount)

/-- An entry for a ring outside the device's range: its posting faults PROT (R354), which has no ring to stand in. DESIGN CHOICE
(log 36): the launch that it concerns completes FAULT. -/
def State.lostEntry (s : State) (n : Nat) (p : Posting) : State :=
  { s with launches := s.launches.map fun (l : Launch) =>
      if l.ctx = n ∧ l.seq = p.lseq then { l with fate := worse l.fate 1 } else l }

/-- Writes entries of a context while there is room; the others wait (R318). -/
def drainFaults : List Posting → State × Ctx → State × Ctx
  | [], x => (x.1, { x.2 with faultQ := [] })
  | p :: ps, x =>
    if !x.2.desc.ringOk then drainFaults ps (x.1.lostEntry x.2.desc.ctx p, x.2)
    else if x.1.entryRoom x.2 then drainFaults ps (x.1.writeEntry x.2 p) else (x.1, { x.2 with faultQ := p :: ps })

/-- Posts entries to a context's fault record, after those that wait for room. -/
def State.postAll (s : State) (n : Nat) (ps : List Posting) : State :=
  match s.ctx? n with
  | none => s
  | some c =>
    let r := drainFaults (c.faultQ ++ ps) (s, c)
    r.1.onCtx n fun c => { c with produced := r.2.produced, awaits := r.2.awaits, faultQ := r.2.faultQ }

/-- Whether every entry that leads from one state to another has found room, in the fault record of context `n` and in
the orphan log. -/
def State.postedBy (s : State) (n : Nat) (s' : State) : Bool :=
  let waiting (s : State) : List Posting := ((s.ctx? n).map (·.faultQ)).getD []
  (s'.pkg.orphanQ.isEmpty || s'.pkg.orphanQ == s.pkg.orphanQ) && ((waiting s').isEmpty || waiting s' == waiting s)

/-- Posts an entry to a context's fault record. -/
def State.post (s : State) (n : Nat) (p : Posting) : State := s.postAll n [p]

/-- Entries and orphan entries that have waited for room are written where there is room now. -/
def State.drain (s : State) : State :=
  let s := if s.pkg.orphanQ.isEmpty then s else drainOrphans s.pkg.orphanQ s
  let s := s.ctxs.foldl (fun s e => if e.2.faultQ.isEmpty then s else s.postAll e.1 []) s
  let r := s.pkg.rings.foldl (fun (x : State × List Ctx) c =>
    let y := drainFaults c.faultQ (x.1, c)
    (y.1, if y.2.faultQ.isEmpty then x.2 else x.2 ++ [y.2])) (s, [])
  { r.1 with pkg := { r.1.pkg with rings := r.2 } }

/-! ### Waiting groups -/

/-- Every group whose instruction could not issue may try again. -/
def State.wake (s : State) : State :=
  { s with groups := s.groups.map fun g => if g.wait = .blocked then { g with wait := .none } else g }

/-! ### Barriers (Table 9.4) -/

/-- check_phase of R195. -/
def Barrier.check (b : Barrier) : Barrier :=
  if b.count ≤ b.arr ∧ b.pend = 0 then { b with arr := b.arr - b.count, ph := !b.ph } else b

def Team.bar (t : Team) (n : Nat) : Barrier := look {} t.bars n

/-- Stores a barrier; the groups that wait for its phase may be released (R197). -/
def State.setBar (s : State) (team n : Nat) (b : Barrier) : State :=
  let s := s.onTeam team fun t => { t with bars := keep {} t.bars n b }
  { s with groups := s.groups.map fun g =>
      if g.wait = .bar team n b.ph then { g with wait := .barDone team n b.ph } else g }

/-- A BAROVF entry of an arrival or delivery that no group makes (R195). -/
def State.postBar (s : State) (t : Team) (n qid : Nat) : State :=
  s.post t.ctx { src := 4, why := { code := 0x2A, detail := BitVec.ofNat 64 (n + qid * 0x10000) }
                 lseq := ((s.launch? t.lid).map (·.seq)).getD 0
                 teampos := BitVec.ofNat 32 (t.y * 65536 + t.x), die := t.die, core := t.core }

/-- The barrier holds the releases that an acquire of it observes, as far as they carry writes on their way (R196). -/
def State.carriedBy (s : State) (b : Barrier) (rs : List Rel) : Barrier :=
  { b with rels := (b.rels ++ rs).filter s.bears? }

/-- An arrival that no instruction makes, with the releases that it stands for (R195). -/
def State.deviceArrive (s : State) (team n : Nat) (rs : List Rel := []) : State :=
  match s.team? team with
  | none => s
  | some t =>
    let b := s.carriedBy (t.bar n) rs
    if b.brk then s
    else if 65535 < b.arr + 1 then (s.setBar team n { b with brk := true }).postBar t n 0xFFFF
    else s.setBar team n (Barrier.check { b with arr := b.arr + 1 })

/-- The smallest and the largest PEND (R195). -/
def pendOk (p : Int) : Bool := decide (-(2 : Int) ^ 55 ≤ p ∧ p < (2 : Int) ^ 55)

/-- An engine delivers `n` bytes on a barrier, with the releases that the delivery stands for (R195, R266, R278). -/
def State.deliverBar (s : State) (team bar n qid : Nat) (rs : List Rel := []) : State :=
  match s.team? team with
  | none => s
  | some t =>
    let b := s.carriedBy (t.bar bar) rs
    if b.brk then s
    else if pendOk (b.pend - n) then s.setBar team bar (Barrier.check { b with pend := b.pend - n })
    else (s.setBar team bar { b with brk := true }).postBar t bar qid

/-! ### Retiring -/

/-- The verdict 0 of R264. -/
def State.discardGuards (s : State) (team : Nat) : State :=
  { s with
    cmds := s.cmds.map fun c =>
      if c.team = team ∧ c.gslot ≠ 0 ∧ c.verdict = none then { c with verdict := some false } else c
    launches := s.launches.map fun l =>
      if l.team = some team ∧ l.gslot ≠ 0 ∧ l.verdict = none then { l with verdict := some false } else l }

/-- A team without groups whose matrix operations have completed is gone: its tiles are absent and zero (R281), its
regions released, and its commands without a verdict discarded (R264). DESIGN CHOICE (log 36): a store of another core on its way
to its region is dropped, as deliveries are (R268). -/
def State.retireTeam (s : State) (team : Nat) : State :=
  match s.team? team with
  | none => s
  | some t =>
    let k := coreKey t.die t.core
    let c := s.coreSt k
    if s.groups.any (fun g => g.team = team) ∨ (c.mq0 ++ c.mq1).any (fun m => m.team = team) then s
    else
      let s := { s with inflight := s.inflight.filter fun w => w.tile ≠ some team }
      let s := if c.owner = some team then s.setCore k { c with owner := none, tiles := [], claims := [], q0run := 0 }
        else s
      State.discardGuards { s with teams := s.teams.filter fun t => t.id ≠ team } team

/-- Estates that a pending CLAIM has received. -/
def Pending.received (p : Pending) : Nat :=
  match p.kind with
  | .claim _ _ got => (got.filter fun c => c.est.isSome).length
  | _ => 0

/-- CLAIMs of a group that leaves before they land count as claims of its launch (R214, R217). -/
def State.countClaims (s : State) (g : Group) : State :=
  match s.team? g.team with
  | none => s
  | some t =>
    let n := (s.pend.filter fun p => p.gid = g.id).foldl (fun n p => n + p.received) 0
    if n = 0 then s else s.onLaunch t.lid fun l => { l with red := { l.red with claimed := l.red.claimed + n } }

/-- The claim of a matrix instruction that has not issued ends when its group leaves it (R282). -/
def State.dropClaims (s : State) (gid : Nat) : State :=
  match (s.group? gid).bind fun g => s.team? g.team with
  | none => s
  | some t => s.onCore (coreKey t.die t.core) fun c =>
      { c with claims := c.claims.filter fun k => !(!k.isOp && decide (k.key = gid)) }

/-- A group leaves: its registers are released (R174), its pieces go back to their nodes (R200). -/
def State.retireGroup (s : State) (gid : Nat) : State :=
  match s.group? gid with
  | none => s
  | some g =>
    let s := (s.countClaims g).dropClaims gid
    let s := { s with
      groups := s.groups.filter fun h => h.id ≠ gid
      pend := s.pend.filter fun p => p.gid ≠ gid
      walks := s.walks.map fun (w : Walk) => { w with waiters := w.waiters.filter (· ≠ gid) } }
    let s := match s.team? g.team with
      | none => s
      | some t =>
        let s := s.onLaunch t.lid fun l => { l with seen := l.seen ++ g.seen.filter fun w => !l.seen.contains w }
        s.onCtx t.ctx fun c => { c with
          awaits := c.awaits.filter fun a => a.gid ≠ gid
          pieces := c.pieces.map fun (p : Piece) =>
            if p.holder = some gid then { p with holder := none, next := p.chunkLo } else p }
    s.retireTeam g.team

/-- The team, launch and context of a group. -/
def State.home? (s : State) (g : Group) : Option (Team × Launch) := do
  let t ← s.team? g.team
  let l ← s.launch? t.lid
  some (t, l)

def Team.pos (t : Team) : W32 := BitVec.ofNat 32 (t.y * 65536 + t.x)

/-- The entry of one cause of a group (R319). -/
def groupPosting (g : Group) (t : Team) (l : Launch) (repl : Bool) (c : CauseRec) : Posting :=
  { src := 0, why := { c with region := g.regionCnt }, repl := repl, regionPc := g.regionPc, lseq := l.seq,
    teampos := t.pos, groupId := g.groupId, die := t.die, core := t.core, gid := some g.id
    debug := g.debugStop && c.code == 0x41 }

/-- Posts the causes that a group holds, each as its own entry (R316, rule 4). -/
def State.postCauses (s : State) (g : Group) (repl : Bool) : State :=
  match s.home? g with
  | none => s
  | some (t, l) => s.postAll t.ctx (g.async.map (groupPosting g t l repl))

/-- A group whose launch has ended retires once the causes that it holds have been posted, which waits for room (R318,
R321). -/
def State.retireEnded (s : State) (g : Group) : State :=
  let s' := s.postCauses g false
  let posted := ((s.team? g.team).map fun t => s.postedBy t.ctx s').getD true
  if posted then s'.retireGroup g.id
  else (s.setGroup { g with status := .ending, wait := .none, walked := [] }).dropClaims g.id

/-- A group stops at its instruction boundary because its launch has ended: it retires once what it has issued has
landed; on a fenced die it has stopped already, and what it had issued is lost (R321, R355). -/
def State.stopGroup (s : State) (g : Group) : State :=
  let fenced := ((s.team? g.team).map fun t => s.pkg.fencedSock.getLsbD t.die).getD true
  if fenced then State.retireEnded { s with pend := s.pend.filter fun p => p.gid ≠ g.id } g
  else if !s.pend.any fun p => p.gid = g.id then s.retireEnded g
  else (s.setGroup { g with status := .ending, wait := .none, walked := [] }).dropClaims g.id

/-- Ends a launch with a status (R321): its groups stop and retire without an exit status, and no further team is
placed. -/
def State.endLaunch (s : State) (lid status : Nat) : State :=
  let s := s.onLaunch lid fun l => { l with fate := worse l.fate status, closed := true, ended := true }
  let gone := s.groups.filter fun g => s.teams.any fun t => t.id = g.team ∧ t.lid = lid
  gone.foldl State.stopGroup s

/-! ### Taking an exception -/

/-- The code offset of a group's program counter, as CAUSEPC and REGIONPC hold it (Table 1.3). -/
def Group.pc32 (g : Group) : W32 := g.ctl.pc.setWidth 32

/-- Trap entry (R313): CAUSE and CAUSEPC, the saved control state, one handler entry at TVEC. -/
def enterTrap (g : Group) (code : BitVec 8) (pc hmask : W32) : Group :=
  { g with
    cause := code.setWidth 32, causePc := pc, saved := some g.ctl, ctl := Ctl.single (g.tvec.setWidth 64) hmask
    inHandler := true, wait := .none, walked := [] }

/-- Where TRET resumes (R101). -/
def Group.resumePc (g : Group) : CodeAt :=
  let at_ := (g.saved.getD g.ctl).near g.causePc
  if g.cause.setWidth 8 = 0x40#8 ∨ g.cause.setWidth 8 = 0x41#8 then at_ + 8 else at_

/-- Return from a trap (R101, R314): the saved control state, without the handler's. -/
def leaveTrap (g : Group) (c : Ctl) : Group := { g with ctl := c, saved := none, inHandler := false }

/-- Of the causes a group holds, the one of highest rank, the first raised among equals (R316, rule 4). -/
def topCause : List CauseRec → Option CauseRec
  | [] => none
  | c :: cs => match topCause cs with
    | none => some c
    | some d => if causeRank c.code ≤ causeRank d.code then some c else some d

/-- Whether a context's fault ring can take entries, so that a group that it has posted for can await a response (R354). -/
def State.ringOf (s : State) (n : Nat) : Bool := ((s.ctx? n).map fun c => c.desc.ringOk).getD true

/-- Once every producer of a descheduled group has landed, its causes are posted (R316, rules 3 to 6); the group waits for room
(R318). -/
def State.settleFault (s : State) (gid : Nat) : State :=
  match s.group? gid with
  | none => s
  | some g =>
    if s.pend.any (fun p => p.gid = gid) then s
    else match g.status, s.home? g, topCause g.async with
      | .ending, _, _ => s.retireEnded g
      | .draining, some (t, _), some top =>
        let repl := (g.async.all fun c => c.fetch || c.region == g.regionCnt) && s.ringOf t.ctx
        let s' := State.postCauses (s.setGroup { g with
          status := .awaiting, async := [], cause := 0x100 ||| top.code.setWidth 32, causePc := top.pc, wait := .none }) g repl
        if !s.postedBy t.ctx s' then s else if repl then s' else s'.endLaunch t.lid 1
      | _, _, _ => s

/-- Groups whose causes have waited for room post them where there is room now (R318). -/
def State.settleFaults (s : State) : State :=
  ((s.groups.filter fun g => g.status == .draining || g.status == .ending).map (·.id)).foldl State.settleFault s

/-- Releases the entries that LDQs reserved (R154, R322). -/
def Group.releaseLdq (g : Group) : Group :=
  { g with q := g.q.map fun e => (e.1, { e.2 with entries := e.2.entries.filter fun x =>
      match x with
      | .reserved _ false => false
      | _ => true }) }

/-- A group is descheduled for the causes that it holds (R316); at a debug stop its open LDQ entries stay (R154, R332). -/
def Group.deschedule (g : Group) : Group :=
  let g := if g.debugStop then g else g.releaseLdq
  { g with status := .draining, wait := .none, walked := [] }

/-- A cause deschedules its group (R316). -/
def State.faultGroup (s : State) (gid : Nat) (c : CauseRec) : State :=
  (s.onGroup gid fun g => { g.deschedule with async := g.async ++ [c] }).settleFault gid

/-- A synchronous cause of the instruction at the group's program counter: trap entry, or a fault (R22, R101, R313,
R316), or the debug stop of R332. `hmask` holds the lanes that run in a handler. -/
def State.raise (s : State) (g : Group) (debug : Bool) (c : CauseRec) (hmask : W32) : State :=
  let c := { c with pc := g.pc32, ih := g.inHandler, region := g.regionCnt }
  let s := ((s.setGroup { g with walked := [] }).dropClaims g.id).wake
  if isTrapCause c.code then
    if g.tvec = 0 ∨ g.inHandler then s.faultGroup g.id { c with conv := true }
    else if c.code = 0x41 ∧ debug then
      (s.setGroup { g with debugStop := true, walked := [], ctl := g.ctl.setPc (g.ctl.pc + 8) }).faultGroup g.id
        { c with conv := true }
    else s.setGroup (enterTrap g c.code c.pc hmask)
  else s.faultGroup g.id c

/-! ### Region entries and replay (R12, R102, R322) -/

/-- A region entry at the group's next instruction; nothing is recorded inside a handler (R314). -/
def Group.openRegion (g : Group) : Group :=
  if g.inHandler then g
  else { g with
    regionPc := g.pc32, regionCnt := g.regionCnt + 1, recorded := g.ctl
    q := g.q.map fun e => (e.1, { e.2 with retained := [] }) }

/-- Replay (R322): the recorded control state, the popped entries back at the heads, LDQ reservations released. -/
def Group.replay (g : Group) : Group :=
  let g := g.releaseLdq
  { g with
    ctl := (g.recorded.setPc (g.recorded.near g.regionPc)).prune, saved := none, inHandler := false
    status := .running, debugStop := false, wait := .none
    q := g.q.map fun e => (e.1, { e.2 with
      entries := e.2.retained.map .landed ++ e.2.entries
      retained := [] }) }

/-! ### Issue and commitment -/

/-- Why an instruction does not complete: it must wait, or it raises a cause. Either way the state holds only what
happens before the instruction's own effect (walks queued, D bits set, claims made). `moves` says that the instruction
would have left its path. -/
inductive Stop where
  | stall (s : State) (w : Wait)
  | cause (s : State) (c : CauseRec) (moves : Bool := false)

/-- What an issuing instruction finds. -/
structure Iss where
  s : State
  g : Group
  t : Team
  l : Launch
  c : Ctx
  /-- bytes of the instruction, its prefix included -/
  size : Nat
  /-- the lanes that execute (R26); of a uniform instruction, the lowest active lane if it executes (R27) -/
  ex : List Nat
  uni : Bool

/-- A completed instruction. -/
structure Done where
  s : State
  g : Group
  next : Next := .fall
  region : Bool := false

/-- A predicate of a lane after negation; P7 reads 1 (R9). -/
def Group.pred (g : Group) (neg : Bool) (pn : BitVec 3) (lane : Nat) : Bool :=
  xor (if pn = 7 then true else (look 0 g.p pn.toNat).getLsbD lane) neg

/-- The lanes that execute (R26, R27). -/
def Group.executing (g : Group) (gd : Guard) (u : Bool) : List Nat :=
  if u then ((maskLanes g.ctl.mask).take 1).filter (g.pred gd.neg gd.pn)
  else (maskLanes g.ctl.mask).filter (g.pred gd.neg gd.pn)

/-- The issuing group with its team, launch and context, all on what it is doing. -/
def State.issuer (s : State) : Option (Group × Team × Launch × Ctx) := do
  let g ← s.group? s.cur
  let t ← s.team? g.team
  let l ← s.launch? t.lid
  let c ← s.ctx? t.ctx
  some (g, t, l, c)

/-- Bytes of an instruction with an optional prefix. -/
def dualSize (p : Option Dual) : Nat := if p.isSome then 12 else 8

/-- The address of the word after the instruction (R24, R91: `a` + 8). -/
def Iss.after (i : Iss) : CodeAt := i.g.ctl.pc + BitVec.ofNat 64 i.size
/-- The address of the instruction's word. -/
def Iss.addr (i : Iss) : CodeAt := i.g.ctl.pc + BitVec.ofNat 64 (i.size - 8)

/-- The lanes that run in a handler of a trap of this instruction (R313). -/
def Iss.hmask (i : Iss) : W32 := if i.uni then i.g.ctl.mask else laneMask i.ex

/-- The group goes on under its new control state (R95, R161), and a region opens where R102 puts it. -/
def State.commit (s : State) (g : Group) (ctl : Ctl) (region : Bool) : State :=
  let g := { g with ctl := ctl, wait := .none, walked := [], lastIssue := s.tick }
  (s.setGroup (if region then g.openRegion else g)).wake

/-- The LOOPDIV of R97 outranks the causes of ranks 9 to 15 of an instruction that would fall through. -/
def outranked (c : BitVec 8) : Bool := decide (8 < causeRank c ∧ causeRank c < 16)

/-- The group as it stands where its instruction does not complete: it keeps what its reads have met meanwhile (R246). -/
def Iss.kept (i : Iss) (s : State) : Group :=
  match s.group? i.g.id with
  | none => i.g
  | some g => { i.g with seen := g.seen, notes := g.notes }

/-- How the effect of an instruction becomes the next state. -/
def Iss.finish (i : Iss) (r : Except Stop Done) : Res :=
  let loopdiv : Res := .next (i.s.raise i.g i.c.debugStop { code := 0x04, lane := i.ex.headD 0 } i.hmask)
  match r with
  | .error (.stall s w) => .next (s.setGroup { i.kept s with wait := w })
  | .error (.cause s c moves) =>
    if outranked c.code && !moves && (i.g.ctl.advance i.after .fall).isNone then loopdiv
    else .next (s.raise (i.kept s) i.c.debugStop c i.hmask)
  | .ok d =>
    match d.g.ctl.advance i.after d.next with
    | none => loopdiv
    | some ctl => .next (d.s.commit d.g ctl d.region)

/-- Runs an instruction of the issuing group: nothing but the advance when no lane executes (R26). -/
def issue (s : State) (size : Nat) (gd : Guard) (u : Bool) (body : Iss → Except Stop Done) : Res :=
  match s.issuer with
  | none => .fault .noGroup
  | some (g, t, l, c) =>
    let i : Iss := { s := s, g := g, t := t, l := l, c := c, size := size, ex := g.executing gd u, uni := u }
    i.finish (if i.ex.isEmpty then .ok { s := s, g := g } else body i)

/-- The instruction waits. -/
def Iss.wait {α : Type} (i : Iss) : Except Stop α := .error (.stall i.s .blocked)

/-- The instruction raises a cause, in the lowest executing lane if no other is named (R319). -/
def Iss.cause {α : Type} (i : Iss) (code : BitVec 8) (lane : Nat := i.ex.headD 0) : Except Stop α :=
  .error (.cause i.s { code := code, lane := lane })

/-- Guards a cause. -/
def Iss.check (i : Iss) (ok : Bool) (code : BitVec 8) (lane : Nat := i.ex.headD 0) : Except Stop Unit :=
  if ok then .ok () else i.cause code lane

/-- The instruction completes and falls through. -/
def Iss.done (s : State) (g : Group) : Except Stop Done := .ok { s := s, g := g }

/-- A step of the part completes: blocked groups may try again. -/
def State.did (s : State) : Res := .next s.wake

/-- A step of the part whose agent, operation or entry does not exist or is not ready (log 10). -/
def notEnabled : Res := .fault .notEnabled

/-- A step of work that must have its entries written before it is done: without room the work waits (R318, R365). -/
def State.didPosting (s : State) (n : Nat) (s' : State) : Res := if s.postedBy n s' then s'.did else notEnabled

/-- A step of work, once every entry that it causes has found room (R318, R365). -/
def State.posting (s : State) (n : Nat) (r : Res) : Res :=
  match r with
  | .next s' => if s.postedBy n s' then r else notEnabled
  | _ => r

end Sys2Proof.Machine
end

