-- ==== Sys2Proof/Machine/Operands.lean ====
section
/-! DEFINITION. Operands: registers, queues, modifiers, full/empty bits, bounds (spec/01 R13 to R19, R26, R27, R31, R32;
spec/06 R138, R150). -/

namespace Sys2Proof.Machine

/-! ### Registers and queues -/

/-- The cell of V register `n` in a lane. -/
def Group.vCell (g : Group) (n lane : Nat) : Cell := look {} g.v (n * 32 + lane)
/-- The cell of S register `n`. -/
def Group.sCell (g : Group) (n : Nat) : Cell := look {} g.s n
/-- Queue `n` of a lane. -/
def Group.queue (g : Group) (lane n : Nat) : Queue := look {} g.q (lane * 16 + n)

def Group.setV (g : Group) (n lane : Nat) (c : Cell) : Group := { g with v := keep {} g.v (n * 32 + lane) c }
def Group.setS (g : Group) (n : Nat) (c : Cell) : Group := { g with s := keep {} g.s n c }
def Group.setQueue (g : Group) (lane n : Nat) (q : Queue) : Group := { g with q := keep {} g.q (lane * 16 + n) q }

/-- Writes a predicate of a lane; P7 discards the write (R9, R79). -/
def Group.setPred (g : Group) (pn : BitVec 3) (lane : Nat) (b : Bool) : Group :=
  if pn = 7 then g
  else
    let old := look 0 g.p pn.toNat
    let bit : W32 := BitVec.ofNat 32 (2 ^ lane)
    { g with p := keep 0 g.p pn.toNat (if b then old ||| bit else old &&& ~~~bit) }

/-- Writes a predicate in several lanes. -/
def Group.setPreds (g : Group) (pn : BitVec 3) (ls : List Nat) (b : Bool) : Group :=
  ls.foldl (fun g l => g.setPred pn l b) g

/-- Whether a queue entry has landed. -/
def QEnt.landed? : QEnt → Option Datum
  | .landed d => some d
  | .reserved _ _ => none

/-- Landed entries of a queue (R150). -/
def Queue.occupancy (q : Queue) : Nat := (q.entries.filter fun e => e.landed?.isSome).length

/-- The room of a queue (R150). -/
def Queue.room (q : Queue) : Nat := q.depth - q.entries.length

/-- The data of an operand in a lane; the entry at the head of a queue (R17). -/
def Group.datum (g : Group) (lane : Nat) : Opnd → Datum
  | .v n => (g.vCell n.toNat lane).d
  | .s n => (g.sCell n.toNat).d
  | .q n => ((g.queue lane n.toNat).entries.head?.bind QEnt.landed?).getD {}
  | .zr => {}

/-- Pops the head of a queue operand, retained until the next region entry (R17, R322). -/
def Group.pop (g : Group) (lane : Nat) : Opnd → Group
  | .q n =>
    let q := g.queue lane n.toNat
    match q.entries with
    | .landed d :: es => g.setQueue lane n.toNat { q with entries := es, retained := q.retained ++ [d] }
    | _ => g
  | _ => g

/-- Reads an operand in a lane: its datum, and the group after the pop. -/
def Group.take (g : Group) (lane : Nat) (o : Opnd) : Datum × Group := (g.datum lane o, g.pop lane o)

/-- Writes an operand in a lane and marks it full; pushes on a queue; ZR discards (R14, R17, R31). -/
def Group.give (g : Group) (lane : Nat) (o : Opnd) (d : Datum) : Group :=
  match o with
  | .v n => g.setV n.toNat lane { d := d, full := true }
  | .s n => g.setS n.toNat { d := d, full := true }
  | .q n =>
    let q := g.queue lane n.toNat
    g.setQueue lane n.toNat { q with entries := q.entries ++ [.landed d] }
  | .zr => g

/-- Marks a register empty (R14). -/
def Group.markEmpty (g : Group) (lane : Nat) : Opnd → Group
  | .v n => g.setV n.toNat lane { d := {}, full := false }
  | .s n => g.setS n.toNat { d := {}, full := false }
  | _ => g

/-- Whether an operand is full, its `nth` use in one instruction (R15, R18). -/
def Group.isFull (g : Group) (lane nth : Nat) : Opnd → Bool
  | .v n => (g.vCell n.toNat lane).full
  | .s n => (g.sCell n.toNat).full
  | .q n =>
    let es := (g.queue lane n.toNat).entries
    decide (nth < es.length) && (es.take (nth + 1)).all fun e => e.landed?.isSome
  | .zr => true

end Sys2Proof.Machine

namespace Sys2Proof

/-- A register and those after it: ranges and pairs (R88, R138). -/
def Opnd.range (o : Opnd) (n : Nat) : List Opnd :=
  match o with
  | .v k => (List.range n).map fun i => .v (k + BitVec.ofNat 7 i)
  | .s k => (List.range n).map fun i => .s (k + BitVec.ofNat 6 i)
  | _ => [o]

def Opnd.isQueue : Opnd → Bool
  | .q _ => true
  | _ => false

end Sys2Proof

namespace Sys2Proof.Machine

/-! ### Modifiers (Table 1.14) -/

/-- The bytes of a word in the other order. -/
def byteSwap (x : W32) : W32 := x.extractLsb' 0 8 ++ x.extractLsb' 8 8 ++ x.extractLsb' 16 8 ++ x.extractLsb' 24 8

/-- Each byte with its nibbles exchanged. -/
def nibbleSwap (x : W32) : W32 := ((x &&& 0x0F0F0F0F) <<< 4) ||| ((x >>> 4) &&& 0x0F0F0F0F)

def modify (sel : BitVec 3) (x : W32) : W32 :=
  match sel.toNat with
  | 0 => x
  | 1 => x &&& 0xFFFF
  | 2 => x >>> 16
  | 3 => (x <<< 16) ||| (x >>> 16)
  | 4 => (x <<< 16) ||| (x &&& 0xFFFF)
  | 5 => (x &&& 0xFFFF0000) ||| (x >>> 16)
  | 6 => byteSwap x
  | _ => nibbleSwap x

/-- A modifier touches the primal word only (R32). -/
def Datum.modify (sel : BitVec 3) (d : Datum) : Datum := { d with val := Machine.modify sel d.val }

/-- A word with zero tangents. -/
def plain (x : W32) : Datum := { val := x }

/-- Tangent `k` of a datum. -/
def Datum.tan (d : Datum) (k : Nat) : W32 :=
  if k = 0 then d.t0 else if k = 1 then d.t1 else if k = 2 then d.t2 else if k = 3 then d.t3 else 0

/-- The first `n` tangents as given, the others zero (R75). -/
def withTans (x : W32) (n : Nat) (t : Nat → W32) : Datum :=
  { val := x, t0 := if 0 < n then t 0 else 0, t1 := if 1 < n then t 1 else 0
    t2 := if 2 < n then t 2 else 0, t3 := if 3 < n then t 3 else 0 }

/-- Keeps the first `n` tangents (R75). -/
def Datum.cut (d : Datum) (n : Nat) : Datum := withTans d.val n d.tan

/-! ### Checks in the order of R36 -/

/-- A source field: its operand, its modifier and its reader mode (R15). -/
structure Field where
  o : Opnd
  trap : Bool := false
  deriving DecidableEq, Repr

end Sys2Proof.Machine

/-- The source field of a format A source. -/
def Sys2Proof.Src.field (s : Sys2Proof.Src) : Sys2Proof.Machine.Field := ⟨s.o, s.trap⟩

namespace Sys2Proof.Machine

/-- R13 for one operand in a lane: declared counts, and the lane's queue depths. -/
def Iss.inBoundsAt (i : Iss) (lane : Nat) : Opnd → Bool
  | .v n => decide (n.toNat < i.l.vregs)
  | .s n => decide (n.toNat < i.l.sregs)
  | .q n => decide ((i.g.queue lane n.toNat).depth ≠ 0)
  | .zr => true

/-- R13 for one operand in each executing lane. -/
def Iss.inBounds (i : Iss) (o : Opnd) : Bool := i.ex.all fun lane => i.inBoundsAt lane o

/-- The lowest lane with an operand out of bounds (R319). -/
def Iss.outLane (i : Iss) (os : List Opnd) : Nat := (i.ex.find? fun lane => !os.all (i.inBoundsAt lane)).getD 0

def Iss.checkBounds (i : Iss) (os : List Opnd) : Except Stop Unit := i.check (os.all i.inBounds) 0x12 (i.outLane os)

/-- Each source in field order: it waits, or traps FEEMPTY, while a lane finds it empty (R15, R18). `seen` holds the
operands before it. -/
def Iss.checkSrcs (i : Iss) : List Field → List Opnd → Except Stop Unit
  | [], _ => .ok ()
  | f :: fs, seen =>
    match i.ex.find? fun lane => !i.g.isFull lane (seen.filter (· = f.o)).length f.o with
    | some lane => if f.trap then i.cause 0x08 lane else i.wait
    | none => i.checkSrcs fs (f.o :: seen)

/-- The registers that a producer lands in; queue entries are reserved by name (R14, R150, R212). -/
def Pending.regs (p : Pending) : List Opnd :=
  match p.kind with
  | .ldq => []
  | .claim base n _ => (if p.dst.isQueue then [] else [p.dst]) ++ (Opnd.v (BitVec.ofNat 7 base)).range n
  | _ => if p.dst.isQueue then [] else p.dst.range ((p.bytes + 3) / 4)

/-- The lane that names a register: an S register has one copy. -/
def Opnd.home (o : Opnd) (lane : Nat) : Opnd × Nat :=
  match o with
  | .v _ => (o, lane)
  | _ => (o, 0)

/-- Whether a pending producer of the group will land in a register (R14, R16, R330). -/
def Pending.covers (p : Pending) (lane : Nat) (o : Opnd) : Bool :=
  p.regs.contains o && (match o with
    | .v _ => p.lanes.contains lane
    | _ => true) && !p.forced.contains (Opnd.home o lane)

/-- Whether a destination can be written: no pending value for it (R16), room in a queue once the instruction's own
pops are counted (R18). -/
def Iss.dstReady (i : Iss) (srcs : List Opnd) (o : Opnd) : Bool :=
  i.ex.all fun lane =>
    match o with
    | .q n =>
      let q := i.g.queue lane n.toNat
      decide (q.entries.length < q.depth + (srcs.filter (· = o)).length)
    | .zr => true
    | _ => i.g.isFull lane 0 o || !(i.s.pend.any fun p => p.gid = i.g.id && p.covers lane o)

/-- The checks of R36 before any effect: bounds, sources, destinations. -/
def Iss.ready (i : Iss) (srcs : List Field) (dsts : List Opnd) : Except Stop Unit := do
  i.checkBounds (srcs.map (·.o) ++ dsts)
  i.checkSrcs srcs []
  if dsts.all (i.dstReady (srcs.map (·.o))) then .ok () else i.wait

/-- Reads sources in field order in one lane. -/
def Group.takeAll (g : Group) (lane : Nat) : List Opnd → List Datum × Group
  | [] => ([], g)
  | o :: os =>
    let r := (g.pop lane o).takeAll lane os
    (g.datum lane o :: r.1, r.2)

/-- Reads the sources of every executing lane, in lane order. -/
def Group.gather (g : Group) (os : List Opnd) : List Nat → List (Nat × List Datum) × Group
  | [] => ([], g)
  | lane :: ls =>
    let r := g.takeAll lane os
    let r' := r.2.gather os ls
    ((lane, r.1) :: r'.1, r'.2)

/-- Writes a destination: in each lane, or an S register once, with the result of the lowest lane (R27, R165). -/
def Group.giveAll (g : Group) (o : Opnd) (rs : List (Nat × Datum)) : Group :=
  match o with
  | .s _ => match rs with
    | [] => g
    | (lane, d) :: _ => g.give lane o d
  | _ => rs.foldl (fun g r => g.give r.1 o r.2) g

/-- The S registers of a range as words, without popping (R255, R283). -/
def Group.sWords (g : Group) (base n : Nat) : List W32 := (List.range n).map fun k => (g.sCell (base + k)).d.val

/-- Sources that are S registers from `base` on; they block (R15). -/
def sFields (base n : Nat) : List Field := (List.range n).map fun k => ⟨.s (BitVec.ofNat 6 (base + k)), false⟩

/-! ### Long-latency producers (R14) -/

/-- At issue: the destination registers are empty in each executing lane; a queue reserves an entry (R14, R17, R150), which a
fault releases if an LDQ made it (R154). -/
def Group.expect (g : Group) (id n : Nat) (o : Opnd) (ls : List Nat) (ldq : Bool := false) : Group :=
  match o with
  | .q k => ls.foldl (fun g lane =>
      let q := g.queue lane k.toNat
      g.setQueue lane k.toNat { q with entries := q.entries ++ [.reserved id (!ldq)] }) g
  | .s _ => (o.range n).foldl (fun g o => g.markEmpty 0 o) g
  | _ => ls.foldl (fun g lane => (o.range n).foldl (fun g o => g.markEmpty lane o) g) g

/-- The queue entry reserved under a name goes without a value. -/
def Queue.forgo (q : Queue) (id : Nat) : Queue :=
  { q with entries := q.entries.filter fun e =>
      match e with
      | .reserved i _ => i != id
      | .landed _ => true }

/-- A value lands in the queue entry reserved under a name (R150). -/
def Queue.fill (q : Queue) (id : Nat) (d : Datum) : Queue :=
  { q with entries := q.entries.map fun e =>
      match e with
      | .reserved i _ => if i = id then .landed d else e
      | .landed _ => e }

/-- At landing: the values of a lane reach its destination (R14, R150), but for registers that a debugger has forced
(R330). -/
def Group.land (g : Group) (p : Pending) (o : Opnd) (lane : Nat) (ds : List Datum) : Group :=
  match o with
  | .q k => g.setQueue lane k.toNat ((g.queue lane k.toNat).fill p.id (ds.headD {}))
  | _ => ((o.range ds.length).zip ds).foldl
    (fun g r => if p.forced.contains (Opnd.home r.1 lane) then g else g.give lane r.1 r.2) g

end Sys2Proof.Machine
end

