-- ==== Sys2Proof/Machine/Float.lean ====
section
/-! DEFINITION. Number formats and exact arithmetic (spec/03): decoding, exact sums, products, quotients and roots, and
the one rounding of each operation. -/

namespace Sys2Proof.Machine

/-- A floating-point format (Table 3.1): exponent and fraction bits, bias, code of the largest finite value, and its
special encodings. -/
structure FFmt where
  eb : Nat
  fb : Nat
  bias : Nat
  maxCode : Nat
  /-- e all ones, f = 0 is an infinity, and f ≠ 0 a NaN -/
  ieee : Bool
  /-- a NaN code exists -/
  hasNan : Bool
  canon : Nat
  deriving DecidableEq, Repr

def fp32 : FFmt := ⟨8, 23, 127, 0x7F7FFFFF, true, true, 0x7FC00000⟩
def fp16 : FFmt := ⟨5, 10, 15, 0x7BFF, true, true, 0x7E00⟩
def bf16 : FFmt := ⟨8, 7, 127, 0x7F7F, true, true, 0x7FC0⟩
def e4m3 : FFmt := ⟨4, 3, 7, 0x7E, false, true, 0x7F⟩
def e5m2 : FFmt := ⟨5, 2, 15, 0x7B, true, true, 0x7E⟩
def e2m1 : FFmt := ⟨2, 1, 1, 0x7, false, false, 0⟩

/-- Position of the sign bit. -/
def FFmt.signBit (f : FFmt) : Nat := f.eb + f.fb

/-- The exponent of the lowest fraction bit of a subnormal. -/
def FFmt.emin (f : FFmt) : Int := 1 - (f.bias : Int) - (f.fb : Int)

/-- An exact extended value. A finite one is (−1)^neg × m × 2^e, or strictly between that magnitude and the next
multiple of 2^e when `st` is set (a quotient or a root). -/
inductive XV where
  | nan
  | inf (neg : Bool)
  | fin (neg : Bool) (m : Nat) (e : Int) (st : Bool)
  deriving DecidableEq, Repr

/-- A zero of a sign. -/
def XV.zero (neg : Bool) : XV := .fin neg 0 0 false

def XV.isZero : XV → Bool
  | .fin _ 0 _ false => true
  | _ => false

def XV.isNan : XV → Bool
  | .nan => true
  | _ => false

def XV.isInf : XV → Bool
  | .inf _ => true
  | _ => false

def XV.neg? : XV → Bool
  | .nan => false
  | .inf n => n
  | .fin n _ _ _ => n

def XV.negate : XV → XV
  | .nan => .nan
  | .inf n => .inf !n
  | .fin n m e st => .fin (!n) m e st

/-- The value of an encoding (R60, Table 3.1). -/
def FFmt.decode (f : FFmt) (x : Nat) : XV :=
  let neg := x.testBit f.signBit
  let e := bitsOf x f.fb f.eb
  let fr := bitsOf x 0 f.fb
  if f.ieee ∧ e = 2 ^ f.eb - 1 then (if fr = 0 then .inf neg else .nan)
  else if f.hasNan ∧ !f.ieee ∧ bitsOf x 0 f.signBit = f.canon then .nan
  else if e = 0 then .fin neg fr f.emin false
  else .fin neg (2 ^ f.fb + fr) (f.emin + (e : Int) - 1) false

/-- A signalling NaN (R62): FP32, FP16 and BF16 only. -/
def FFmt.signalling (f : FFmt) (x : Nat) : Bool :=
  (f.decode x).isNan && f.ieee && decide (f.eb + f.fb ≠ 7) && !x.testBit (f.fb - 1)

/-- Whether an encoding is subnormal. -/
def FFmt.subnormal (f : FFmt) (x : Nat) : Bool := decide (bitsOf x f.fb f.eb = 0 ∧ bitsOf x 0 f.fb ≠ 0)

/-- A source under the flush bit (R63): a subnormal is a zero of its sign. -/
def FFmt.source (f : FFmt) (ftz : Bool) (x : Nat) : XV :=
  if ftz && f.subnormal x then .zero (x.testBit f.signBit) else f.decode x

/-! ### Flags, in the bit order of FPST (Table 1.3) -/

abbrev Flags := BitVec 5
abbrev flagInvalid : Flags := 1
abbrev flagDivZero : Flags := 2
abbrev flagOverflow : Flags := 4
abbrev flagUnderflow : Flags := 8
abbrev flagInexact : Flags := 16

/-- A flag if a condition holds. -/
def flagIf (b : Bool) (f : Flags) : Flags := if b then f else 0

/-! ### Rounding (R68 to R70) -/

/-- Whether rounding goes up in magnitude: mode of Table 3.5, sign, lowest kept bit, remainder against half. -/
def roundsUp (mode : Nat) (neg odd : Bool) (rem half : Nat) (st : Bool) : Bool :=
  let inexact := decide (rem ≠ 0) || st
  match mode with
  | 0 => decide (half < rem) || (decide (rem = half) && (st || odd))
  | 1 => false
  | 2 => inexact && neg
  | _ => inexact && !neg

/-- The code, without sign, and exactness, of a magnitude with the exponent range unbounded above (R68). -/
def FFmt.roundMag (f : FFmt) (mode : Nat) (neg : Bool) (m : Nat) (e : Int) (st : Bool) : Nat × Bool :=
  if m = 0 ∧ !st then (0, true)
  else
    let k := f.fb + 4
    let m := m * 2 ^ k
    let e := e - k
    let top := e + (m.log2 : Int)
    let q := max (top - f.fb) f.emin
    let d := (q - e).toNat
    let n := m / 2 ^ d
    let rem := m % 2 ^ d
    let up := roundsUp mode neg (n % 2 = 1) rem (2 ^ (d - 1)) st
    ((q - f.emin).toNat * 2 ^ f.fb + n + (if up then 1 else 0), decide (rem = 0) && !st)

/-- The infinity that an overflow gives, or the largest finite value (Table 3.5). -/
def overflowInf (mode : Nat) (neg : Bool) : Bool :=
  match mode with
  | 0 => true
  | 1 => false
  | 2 => neg
  | _ => !neg

/-- The encoding with a sign. -/
def FFmt.signed (f : FFmt) (neg : Bool) (code : Nat) : Nat := if neg then 2 ^ f.signBit + code else code

/-- The code of an infinite result, by R69. -/
def FFmt.infCode (f : FFmt) (sat neg : Bool) : Nat :=
  if sat ∨ !f.hasNan then f.signed neg f.maxCode
  else if f.ieee then f.signed neg (f.maxCode + 1)
  else f.canon

/-- The rounding of an exact value to a format, with saturation (R69) and the flush bit (R63): encoding and flags.
`src` says that an infinity is an infinite source of a conversion. -/
def FFmt.round (f : FFmt) (mode : Nat) (sat ftz src : Bool) : XV → Nat × Flags
  | .nan => if f.hasNan then (f.canon, 0) else (0, flagInvalid)
  | .inf neg => (f.infCode sat neg, flagIf (src && (sat || !f.ieee)) flagInvalid)
  | .fin neg m e st =>
    let r := f.roundMag mode neg m e st
    if f.maxCode < r.1 then
      ((if overflowInf mode neg then f.infCode sat neg else f.signed neg f.maxCode), flagOverflow ||| flagInexact)
    else
      let sub := decide (r.1 ≠ 0 ∧ r.1 < 2 ^ f.fb)
      if ftz && sub then (f.signed neg 0, flagUnderflow ||| flagInexact)
      else (f.signed neg r.1, flagIf (!r.2) flagInexact ||| flagIf (sub && !r.2) flagUnderflow)

/-! ### Exact arithmetic -/

/-- A signed integer at an exponent. -/
def toInt (neg : Bool) (m : Nat) : Int := if neg then -(m : Int) else m

/-- The product; `true` marks the invalid 0 × ∞ (Table 3.6). -/
def XV.mul : XV → XV → XV × Bool
  | .nan, _ => (.nan, false)
  | _, .nan => (.nan, false)
  | .inf n, .inf n' => (.inf (xor n n'), false)
  | .inf n, .fin n' m _ _ => if m = 0 then (.nan, true) else (.inf (xor n n'), false)
  | .fin n m _ _, .inf n' => if m = 0 then (.nan, true) else (.inf (xor n n'), false)
  | .fin n m e _, .fin n' m' e' _ => (.fin (xor n n') (m * m') (e + e') false, false)

/-- The sum, with the zero signs of R112; `true` marks the invalid ∞ − ∞. -/
def XV.add (mode : Nat) : XV → XV → XV × Bool
  | .nan, _ => (.nan, false)
  | _, .nan => (.nan, false)
  | .inf n, .inf n' => if n = n' then (.inf n, false) else (.nan, true)
  | .inf n, _ => (.inf n, false)
  | _, .inf n => (.inf n, false)
  | .fin n m e _, .fin n' m' e' _ =>
    if m = 0 ∧ m' = 0 then (.zero (if n = n' then n else mode == 2), false)
    else
      let lo := min e e'
      let v := toInt n m * 2 ^ (e - lo).toNat + toInt n' m' * 2 ^ (e' - lo).toNat
      if v = 0 then (.zero (mode == 2), false) else (.fin (decide (v < 0)) v.natAbs lo false, false)

/-- The quotient, to more bits than any format has, with what is left in `st`; flags of R111. -/
def XV.div : XV → XV → XV × Flags
  | .nan, _ => (.nan, 0)
  | _, .nan => (.nan, 0)
  | .inf _, .inf _ => (.nan, flagInvalid)
  | .inf n, .fin n' _ _ _ => (.inf (xor n n'), 0)
  | .fin n _ _ _, .inf n' => (.zero (xor n n'), 0)
  | .fin n m e _, .fin n' m' e' _ =>
    if m' = 0 then (if m = 0 then (.nan, flagInvalid) else (.inf (xor n n'), flagDivZero))
    else
      let k := 64 + m'.log2
      (.fin (xor n n') (m * 2 ^ k / m') (e - e' - k) (m * 2 ^ k % m' ≠ 0), 0)

/-- The integer square root, one bit after the other from bit `k` − 1. -/
def isqrtFrom (n : Nat) : Nat → Nat → Nat
  | 0, r => r
  | k + 1, r => isqrtFrom n k (if (r + 2 ^ k) * (r + 2 ^ k) ≤ n then r + 2 ^ k else r)

def isqrt (n : Nat) : Nat := isqrtFrom n (n.log2 / 2 + 1) 0

/-- √(m × 2^e), to at least 64 bits. -/
def sqrtPos (m : Nat) (e : Int) : XV :=
  let k : Nat := 128
  let odd := e % 2 ≠ 0
  let m := (if odd then 2 * m else m) * 2 ^ (2 * k)
  let e := (if odd then e - 1 else e) - 2 * k
  let r := isqrt m
  .fin false r (e / 2) (r * r ≠ m)

/-- 1 / √(m × 2^e) for m ≠ 0, to at least 64 bits. -/
def rsqrtPos (m : Nat) (e : Int) : XV :=
  let odd := e % 2 ≠ 0
  let m := if odd then 2 * m else m
  let e := if odd then e - 1 else e
  let k := 128 + m.log2
  let r := isqrt (2 ^ (2 * k) / m)
  .fin false r (-(e / 2) - k) (r * r * m ≠ 2 ^ (2 * k))

/-- Compares two values that are no NaN: negative, zero or positive as the first is below, equal or above. -/
def XV.cmp : XV → XV → Int
  | .nan, _ => 0
  | _, .nan => 0
  | .inf n, .inf n' => if n = n' then 0 else if n then -1 else 1
  | .inf n, _ => if n then -1 else 1
  | _, .inf n => if n then 1 else -1
  | .fin n m e _, .fin n' m' e' _ =>
    let lo := min e e'
    (toInt n m * 2 ^ (e - lo).toNat) - (toInt n' m' * 2 ^ (e' - lo).toNat)

/-- A rounded word with its flags, the invalid operations counted. -/
structure FRes where
  w : W32
  flags : Flags
  deriving DecidableEq, Repr

/-- Rounds an FP32 result (R111): `bad` marks an invalid operation, `sig` a signalling source. -/
def round32 (mode : Nat) (ftz : Bool) (x : XV) (bad sig : Bool) (more : Flags := 0) : FRes :=
  let r := fp32.round mode false ftz false x
  ⟨BitVec.ofNat 32 r.1, r.2 ||| flagIf (bad || sig) flagInvalid ||| more⟩

/-- The exact sum of products of R71, R72 and Table 3.7; `skip` is zero-skip mode, in which a product with a zero A
element is exactly +0. The second component marks an invalid operation. -/
structure BlockSum where
  /-- a NaN element, or an invalid product -/
  nan : Bool := false
  posInf : Bool := false
  negInf : Bool := false
  invalid : Bool := false
  v : Int := 0
  e : Int := 0
  /-- every product so far is −0 -/
  allNegZero : Bool := true
  deriving DecidableEq, Repr

/-- Adds a signed dyadic. -/
def BlockSum.addInt (s : BlockSum) (v e : Int) : BlockSum :=
  if v = 0 then s
  else if s.v = 0 then { s with v := v, e := e }
  else
    let lo := min s.e e
    { s with v := s.v * 2 ^ (s.e - lo).toNat + v * 2 ^ (e - lo).toNat, e := lo }

/-- Adds one product. -/
def BlockSum.product (s : BlockSum) (skip : Bool) (a b : XV) : BlockSum :=
  if skip && a.isZero then { s with allNegZero := false }
  else match a.mul b with
    | (.nan, bad) => { s with nan := true, invalid := s.invalid || bad, allNegZero := false }
    | (.inf n, _) => { s with posInf := s.posInf || !n, negInf := s.negInf || n, allNegZero := false }
    | (.fin n m e _, _) =>
      { s.addInt (toInt n m) e with allNegZero := s.allNegZero && decide (m = 0) && n }

/-- The exact block sum as a value, and whether it is invalid. -/
def BlockSum.value (s : BlockSum) : XV × Bool :=
  if s.posInf && s.negInf then (.nan, true)
  else if s.nan then (.nan, s.invalid)
  else if s.posInf then (.inf false, s.invalid)
  else if s.negInf then (.inf true, s.invalid)
  else (.fin (if s.v = 0 then s.allNegZero else decide (s.v < 0)) s.v.natAbs s.e false, s.invalid)

/-- The S16 scale (R66): a NaN scale is NaN. -/
def scale16 (x : Nat) : XV :=
  let e := bitsOf x 8 8
  if e = 0 then .zero false
  else if e = 255 then .nan
  else .fin false (256 + bitsOf x 0 8) ((e : Int) - 127 - 8) false

/-- acc + s × g, rounded once (R71). -/
def accumulate (mode : Nat) (ftz : Bool) (acc : XV) (sig : Bool) (s : BlockSum) (g : XV) : FRes :=
  let sv := s.value
  let p := sv.1.mul g
  let r := acc.add mode p.1
  round32 mode ftz r.1 (sv.2 || p.2 || r.2) sig

/-- Element `j` of width `w` of a register word (R64). -/
def element (x : W32) (w j : Nat) : Nat := bitsOf x.toNat (w * j) w

end Sys2Proof.Machine
end

