-- ==== Sys2Proof/Machine/Unary.lean ====
section
/-! DEFINITION. The unary functions of spec/05 R116 to R118 and their derivatives (spec/03 R76). FRCP, FRSQ and FSQRT
are correctly rounded. For the others the manual bounds the error and fixes no bits: the result is that of an opaque
mapping where it lies within the bound, and the nearest value otherwise (log 12). -/

namespace Sys2Proof.Machine

/-- Fraction bits of the fixed-point numbers below. -/
abbrev fxBits : Nat := 320

/-- π / 2 and ln 2, rounded down at 320 fraction bits; 2 / π at 512. -/
def halfPiFx : Int :=
  0x1921fb54442d18469898cc51701b839a252049c1114cf98e804177d4c76273644a29410f31c6809bb
def ln2Fx : Int :=
  0xb17217f7d1cf79abc9e3b39803f2f6af40f343267298b62d8a0d175b8baafa2be7b876206debac98
def twoOverPi : Nat :=
  0xa2f9836e4e441529fc2757d1f534ddc0db6295993c439041fe5163abdebbc561b7246e3a424dd2e006492eea09d1921cfe1deb1cb129a73ee88235f52ebb4484

def fxMul (a b : Int) : Int := a * b / 2 ^ fxBits

/-- The sum of the next `k` terms of exp: term `n` is the last one times x / n. -/
def expTerms (x : Int) : Nat → Nat → Int → Int → Int
  | 0, _, _, acc => acc
  | k + 1, n, t, acc =>
    let t := fxMul t x / (n : Int)
    expTerms x k (n + 1) t (acc + t)

/-- exp of a fixed-point number of magnitude below 1. -/
def expFx (x : Int) : Int := expTerms x 80 1 (2 ^ fxBits) (2 ^ fxBits)

/-- The sum of the next `k` terms of sin or cos: the last one times −x² / (n (n + 1)). -/
def trigTerms (x2 : Int) : Nat → Nat → Int → Int → Int
  | 0, _, _, acc => acc
  | k + 1, n, t, acc =>
    let t := -(fxMul t x2) / ((n * (n + 1) : Nat) : Int)
    trigTerms x2 k (n + 2) t (acc + t)

def sinFx (x : Int) : Int := trigTerms (fxMul x x) 45 2 x x
def cosFx (x : Int) : Int := trigTerms (fxMul x x) 45 1 (2 ^ fxBits) (2 ^ fxBits)

/-- A fixed-point number as an exact value. -/
def fxVal (v : Int) (e : Int := 0) : XV := .fin (decide (v < 0)) v.natAbs (e - fxBits) false

/-- The quadrant and the reduced angle of m × 2^e (R116: exact argument reduction). -/
def reduceAngle (m : Nat) (e : Int) : Nat × Int :=
  let y : Int := m * twoOverPi
  let s := (512 - e).toNat
  let k := (y + 2 ^ (s - 1)) / 2 ^ s
  let r := (y - k * 2 ^ s) / 2 ^ (s - fxBits)
  ((k % 4).toNat, fxMul r halfPiFx)

def sinRef (neg : Bool) (m : Nat) (e : Int) : XV :=
  let q := reduceAngle m e
  let v := match q.1 with
    | 0 => sinFx q.2
    | 1 => cosFx q.2
    | 2 => -(sinFx q.2)
    | _ => -(cosFx q.2)
  fxVal (if neg then -v else v)

def cosRef (m : Nat) (e : Int) : XV :=
  let q := reduceAngle m e
  fxVal (match q.1 with
    | 0 => cosFx q.2
    | 1 => -(sinFx q.2)
    | 2 => -(cosFx q.2)
    | _ => sinFx q.2)

/-- 2^x for a fixed-point x, with a large magnitude cut off. -/
def exp2Fx (x : Int) : XV :=
  let n := x / 2 ^ fxBits
  let f := x % 2 ^ fxBits
  fxVal (expFx (fxMul f ln2Fx)) (max (-2000) (min 2000 n))

/-- m × 2^e as a fixed-point number. -/
def toFx (neg : Bool) (m : Nat) (e : Int) : Int := toInt neg m * 2 ^ (e + fxBits).toNat

/-- The next `k` bits of log2 of a number in [1, 2) with 200 fraction bits. -/
def log2Bits : Nat → Nat → Nat → Nat
  | 0, _, acc => acc
  | k + 1, x, acc =>
    let x := x * x / 2 ^ 200
    if 2 ^ 201 ≤ x then log2Bits k (x / 2) (2 * acc + 1) else log2Bits k x (2 * acc)

/-- log2 of m × 2^e for m ≠ 0, with 160 fraction bits. -/
def log2Ref (m : Nat) (e : Int) : XV :=
  let x := m * 2 ^ 200 / 2 ^ m.log2
  let v := (e + m.log2) * 2 ^ 160 + (log2Bits 160 x 0 : Int)
  .fin (decide (v < 0)) v.natAbs (-160) false

/-- e^(−2|x|) for x = m × 2^e. -/
def decayRef (m : Nat) (e : Int) : XV :=
  let y := 2 * toFx false m (min e 100)
  exp2Fx (-(y * 2 ^ fxBits / ln2Fx))

/-- A value as a fixed-point number, cut off below. -/
def XV.fx : XV → Int
  | .fin n m e _ => if 0 ≤ e + fxBits then toInt n m * 2 ^ (e + fxBits).toNat else toInt n m / 2 ^ (-(e + fxBits)).toNat
  | _ => 0

def tanhRef (neg : Bool) (m : Nat) (e : Int) : XV :=
  let t := (decayRef m e).fx
  let v := (2 ^ fxBits - max t 1) * 2 ^ fxBits / (2 ^ fxBits + t)
  fxVal (if neg then -v else v)

/-- 1 − tanh² = 4 t / (1 + t)². -/
def tanhDerivRef (m : Nat) (e : Int) : XV :=
  let t := decayRef m e
  let one := 2 ^ fxBits + t.fx
  ((XV.fin false 4 0 false).mul t).1.div (fxVal (fxMul one one)) |>.1

/-! ### The bound (Table 5.4) -/

/-- Two units in the last place of FP32 at the magnitude of a value, as an exponent of 2. -/
def twoUlpExp : XV → Int
  | .fin _ m e _ => max (e + (m.log2 : Int) - 23) (-149) + 1
  | _ => 0

/-- Whether FP32 bits lie within 2^tol of a value; an infinity counts as 2^128. -/
def within (ref : XV) (tol : Int) (w : W32) : Bool :=
  let c := match fp32.decode w.toNat with
    | .nan => XV.nan
    | .inf n => .fin n 1 128 false
    | v => v
  match c, (c.add 0 ref.negate).1 with
  | .nan, _ => false
  | _, .fin _ m e _ => XV.cmp (.fin false m e false) (.fin false 1 tol false) ≤ 0
  | _, _ => false

/-- The mapped bits where they are within the bound, else the nearest value. -/
def chosen (cand : W32) (ref : XV) (tol : Int) : W32 :=
  if within ref tol cand then cand else BitVec.ofNat 32 (fp32.round 0 false false false ref).1

/-- A result of limited accuracy with its flags: inexact always, underflow and overflow by R70, flushing by R63. -/
def limited (ftz : Bool) (w : W32) : FRes :=
  if ftz && fp32.subnormal w.toNat then ⟨w &&& 0x80000000, flagUnderflow ||| flagInexact⟩
  else ⟨w, flagInexact ||| flagIf (fp32.subnormal w.toNat) flagUnderflow
          ||| flagIf (fp32.decode w.toNat).isInf flagOverflow⟩

/-! ### The functions -/

/-- The unary functions in Table 5.4's order. -/
inductive UFn where
  | rcp | rsq | sqrt | ex2 | lg2 | sin | cos | tanh
  deriving DecidableEq, Repr

def one32 : XV := .fin false 1 0 false

/-- FEX2 of a finite value. -/
def ex2Of (ftz : Bool) (a : W32) (neg : Bool) (m : Nat) (e : Int) : FRes :=
  if m = 0 then ⟨0x3F800000, 0⟩
  else if !neg ∧ 128 ≤ toFx false m (min e 20) / 2 ^ fxBits then ⟨0x7F800000, flagOverflow ||| flagInexact⟩
  else
    let x := toFx neg m (min e 20)
    let n := x / 2 ^ fxBits
    if x % 2 ^ fxBits = 0 ∧ -149 ≤ n then round32 0 ftz (.fin false 1 n false) false false
    else
      let ref := exp2Fx x
      limited ftz (chosen (Config.unaryBits 0 a) ref (twoUlpExp ref))

/-- FLG2 of a positive finite value. -/
def lg2Of (ftz : Bool) (a : W32) (m : Nat) (e : Int) : FRes :=
  let ref := log2Ref m e
  if m = 2 ^ m.log2 then round32 0 ftz ref false false
  else
    let near := decide (XV.cmp (.fin false 1 (-1) false) (.fin false m e false) ≤ 0
      ∧ XV.cmp (.fin false m e false) (.fin false 2 0 false) ≤ 0)
    limited ftz (chosen (Config.unaryBits 1 a) ref (if near then -22 else twoUlpExp ref))

/-- The primal result of Tables 5.4 and 5.5 on a source after flushing. -/
def UFn.eval (f : UFn) (mode : Nat) (ftz : Bool) (a : W32) (x : XV) (sig : Bool) : FRes :=
  let nan (bad : Bool) : FRes := round32 mode ftz .nan bad sig
  match f, x with
  | _, .nan => nan false
  | .rcp, .inf n => round32 mode ftz (.zero n) false sig
  | .rcp, .fin n m e _ => let r := one32.div (.fin n m e false); round32 mode ftz r.1 false sig r.2
  | .rsq, .inf n => if n then nan true else round32 mode ftz (.zero false) false sig
  | .rsq, .fin n m e _ =>
    if m = 0 then round32 mode ftz (.inf n) false sig flagDivZero
    else if n then nan true else round32 mode ftz (rsqrtPos m e) false sig
  | .sqrt, .inf n => if n then nan true else round32 mode ftz (.inf false) false sig
  | .sqrt, .fin n m e _ =>
    if m = 0 then round32 mode ftz (.zero n) false sig
    else if n then nan true else round32 mode ftz (sqrtPos m e) false sig
  | .ex2, .inf n => round32 mode ftz (if n then .zero false else .inf false) false sig
  | .ex2, .fin n m e _ => ex2Of ftz a n m e
  | .lg2, .inf n => if n then nan true else round32 mode ftz (.inf false) false sig
  | .lg2, .fin n m e _ =>
    if m = 0 then round32 mode ftz (.inf true) false sig flagDivZero
    else if n then nan true else lg2Of ftz a m e
  | .sin, .inf _ => nan true
  | .sin, .fin n m e _ =>
    if m = 0 then round32 mode ftz (.zero n) false sig
    else
      let ref := sinRef n m e
      limited ftz (chosen (Config.unaryBits 2 a) ref (max (twoUlpExp ref) (-24)))
  | .cos, .inf _ => nan true
  | .cos, .fin _ m e _ =>
    if m = 0 then ⟨0x3F800000, 0⟩
    else
      let ref := cosRef m e
      limited ftz (chosen (Config.unaryBits 3 a) ref (max (twoUlpExp ref) (-24)))
  | .tanh, .inf n => ⟨if n then 0xBF800000 else 0x3F800000, 0⟩
  | .tanh, .fin n m e _ =>
    if m = 0 then round32 mode ftz (.zero n) false sig
    else
      let ref := tanhRef n m e
      limited ftz (chosen (Config.unaryBits 4 a) ref (twoUlpExp ref))

/-- A correctly rounded derivative (R76). -/
def nearest32 (x : XV) : XV := fp32.decode (fp32.round 0 false false false x).1

/-- A derivative within two units in the last place (R76). -/
def nearDeriv (fn : Nat) (a : W32) (ref : XV) : XV :=
  fp32.decode (chosen (Config.derivBits fn a) ref (twoUlpExp ref)).toNat

/-- Half of a value. -/
def XV.half : XV → XV
  | .fin n m e st => .fin n m (e - 1) st
  | x => x

/-- d = f′(a) of Table 3.9, rounded to FP32; where it is infinite or undefined, the IEEE value of the formula. DESIGN
CHOICE (log 35): computing d raises no flag, and −0.5 × a^−1.5 is −∞ at −0 and a NaN at −∞. -/
def UFn.deriv (f : UFn) (a : W32) (x : XV) : XV :=
  match f, x with
  | _, .nan => .nan
  | .rcp, .inf _ => .zero true
  | .rcp, .fin _ m e _ => nearest32 ((XV.fin true 1 0 false).div (.fin false (m * m) (2 * e) false)).1
  | .rsq, .inf n => if n then .nan else .zero true
  | .rsq, .fin n m e _ =>
    if m = 0 then .inf true else if n then .nan
    else nearest32 (rsqrtPos (m * m * m) (3 * e)).half.negate
  | .sqrt, .inf n => if n then .nan else .zero false
  | .sqrt, .fin n m e _ =>
    if m = 0 then .inf n else if n then .nan else nearest32 (rsqrtPos m e).half
  | .ex2, .inf n => if n then .zero false else .inf false
  | .ex2, .fin n m e _ => nearDeriv 0 a ((fxVal ln2Fx).mul (exp2Fx (toFx n m (min e 20)))).1
  | .lg2, .inf n => .zero n
  | .lg2, .fin n m e _ =>
    if m = 0 then .inf n else nearDeriv 1 a (one32.div ((XV.fin n m e false).mul (fxVal ln2Fx)).1).1
  | .sin, .inf _ => .nan
  | .sin, .fin _ m e _ => nearDeriv 2 a (cosRef m e)
  | .cos, .inf _ => .nan
  | .cos, .fin n m e _ => if m = 0 then .zero (!n) else nearDeriv 3 a (sinRef n m e).negate
  | .tanh, .inf _ => .zero false
  | .tanh, .fin _ m e _ => nearDeriv 4 a (tanhDerivRef m e)

end Sys2Proof.Machine
end

