-- ==== Sys2Proof/Machine/Flags.lean ====
section
/-! DEFINITION. Floating-point flags and precise traps (spec/05 R109, R110; spec/03 R70, R77), and the general execution
of an instruction that computes a result in each lane (spec/01 R36). -/

namespace Sys2Proof.Machine

/-- What one lane of an instruction delivers: a datum for each destination, predicates, the flags of the primal, and
the flags of its tangents, which never trap (R77). -/
structure LaneOut where
  out : List Datum := []
  preds : List (BitVec 3 × Bool) := []
  flags : Flags := 0
  tflags : Flags := 0
  deriving DecidableEq, Repr

/-- The causes of the flags, in the order of R110. -/
def fpCauses : List (Flags × BitVec 8) :=
  [(flagInvalid, 0x20), (flagDivZero, 0x21), (flagOverflow, 0x22), (flagUnderflow, 0x23), (flagInexact, 0x24)]

/-- The trap of R110: the first flag, in order, that some executing lane raises and enables, and the lowest such lane. -/
def Group.fpTrap (g : Group) (outs : List (Nat × LaneOut)) : Option (BitVec 8 × Nat) :=
  fpCauses.findSome? fun fc =>
    (outs.find? fun o => (o.2.flags &&& look 0 g.fpte o.1 &&& fc.1) ≠ 0).map fun o => (fc.2, o.1)

/-- ORs flags into FPST of a lane. -/
def Group.orFlags (g : Group) (f : Flags) (lane : Nat) : Group :=
  { g with fpst := keep 0 g.fpst lane (look 0 g.fpst lane ||| f) }

/-- The lanes that receive the flags and predicates of a lane's result: of a uniform instruction, every active lane
(R80, R109). -/
def Iss.reach (i : Iss) (lane : Nat) : List Nat := if i.uni then maskLanes i.g.ctl.mask else [lane]

/-- Writes destinations in the order of the instruction's fields. -/
def Group.giveOuts (g : Group) : List Opnd → List (Nat × List Datum) → Group
  | [], _ => g
  | o :: os, rs =>
    (g.giveAll o (rs.map fun r => (r.1, r.2.headD {}))).giveOuts os (rs.map fun r => (r.1, r.2.tail))

/-- Writes flags, destinations and predicates. -/
def Iss.writeBack (i : Iss) (g : Group) (dsts : List Opnd) (outs : List (Nat × LaneOut)) : Group :=
  let g := outs.foldl (fun g o => (i.reach o.1).foldl (fun g l => g.orFlags (o.2.flags ||| o.2.tflags) l) g) g
  let g := g.giveOuts dsts (outs.map fun o => (o.1, o.2.out))
  outs.foldl (fun g o => o.2.preds.foldl (fun g p => g.setPreds p.1 (i.reach o.1) p.2) g) g

/-- General execution (R36): checks, reads with pops in field order, results over all executing lanes, the trap of R110
before any write, writes. -/
def Iss.applyAll (i : Iss) (srcs : List Field) (dsts : List Opnd)
    (f : List (Nat × List Datum) → List (Nat × LaneOut)) : Except Stop Done := do
  i.ready srcs dsts
  let r := i.g.gather (srcs.map (·.o)) i.ex
  let outs := f r.1
  match i.g.fpTrap outs with
  | some (c, lane) => i.cause c lane
  | none => .ok { s := i.s, g := i.writeBack r.2 dsts outs }

/-- General execution, lane by lane. -/
def Iss.apply (i : Iss) (srcs : List Field) (dsts : List Opnd) (f : Nat → List Datum → LaneOut) :
    Except Stop Done :=
  i.applyAll srcs dsts fun xs => xs.map fun x => (x.1, f x.1 x.2)

/-- The source words of a lane after their modifiers (R32). -/
def words (srcs : List Src) (ds : List Datum) : List W32 := srcs.zipWith (fun s d => modify s.sel d.val) ds

/-- The `n`th of a list of words, zero beyond. -/
def nth (ws : List W32) (n : Nat) : W32 := ws.getD n 0

end Sys2Proof.Machine
end

