-- ==== Sys2Proof/Machine/Integer.lean ====
section
/-! DEFINITION. Integer, logic, shift, bitfield, compare, select, move and predicate instructions (spec/04 R78 to R89)
and NOP (spec/01 R33). -/

namespace Sys2Proof.Machine

/-! ### Integer results -/

/-- A source as an integer: zero- or sign-extended (R81). -/
def ext (uns : Bool) (x : W32) : Int := if uns then (x.toNat : Int) else x.toInt

/-- The result word, clamped when SAT is set (R65, R81). -/
def satWord (sat uns : Bool) (x : Int) : W32 :=
  if sat then
    let lo : Int := if uns then 0 else -(2 : Int) ^ 31
    let hi : Int := if uns then 2 ^ 32 - 1 else 2 ^ 31 - 1
    word (max lo (min hi x))
  else word x

/-- FL[61] and FL[62] of Table 4.1. -/
def flUns (fl : BitVec 3) : Bool := fl.getLsbD 0
def flSat (fl : BitVec 3) : Bool := fl.getLsbD 1

/-- IMUL, low or high word (Table 4.3). -/
def mulWord (fn : BitVec 4) (fl : BitVec 3) (a b : W32) : W32 :=
  let p := ext (flUns fl) a * ext (flUns fl) b
  if fn = 0 then satWord (flSat fl) (flUns fl) p else word (p / 2 ^ 32)

/-- IMAD, low or high word (Table 4.3). -/
def madWord (fn : BitVec 4) (fl : BitVec 3) (a b c : W32) : W32 :=
  let p := ext (flUns fl) a * ext (flUns fl) b
  if fn = 0 then satWord (flSat fl) (flUns fl) (p + ext (flUns fl) c) else word (p / 2 ^ 32 + ext (flUns fl) c)

/-- SHL, SHR and SAR with the whole word as amount (R83). -/
def shlWord (a n : W32) : W32 := if n.toNat < 32 then a <<< n.toNat else 0
def shrWord (a n : W32) : W32 := if n.toNat < 32 then a >>> n.toNat else 0
def sarWord (a n : W32) : W32 := a.sshiftRight (min n.toNat 32)
def rotlWord (a n : W32) : W32 := a.rotateLeft (n.toNat % 32)

/-- The position and the width of a field control (R85). -/
def fieldOf (b : W32) : Nat × Nat :=
  let pos := bitsOf b.toNat 0 5
  (pos, min (min (bitsOf b.toNat 8 6) 32) (32 - pos))

def bfeWord (uns : Bool) (a b : W32) : W32 :=
  let pw := fieldOf b
  let x := bitsOf a.toNat pw.1 pw.2
  if pw.2 = 0 then 0 else if uns then BitVec.ofNat 32 x else word (signed pw.2 x)

def bfiWord (a b c : W32) : W32 :=
  let pw := fieldOf b
  let m : W32 := BitVec.ofNat 32 ((2 ^ pw.2 - 1) * 2 ^ pw.1)
  (c &&& ~~~m) ||| ((a <<< pw.1) &&& m)

def popcount (a : W32) : W32 := BitVec.ofNat 32 (lanes.filter a.getLsbD).length

/-- Zero bits above the highest one (R85). -/
def clzWord (a : W32) : W32 := BitVec.ofNat 32 (if a = 0 then 32 else 31 - a.toNat.log2)

/-- The relations of Table 1.16. -/
def relates (fn : Nat) (a b : Int) : Bool :=
  match fn with
  | 0 => a = b
  | 1 => a ≠ b
  | 2 => a < b
  | 3 => a ≤ b
  | 4 => b < a
  | _ => b ≤ a

/-- The relations of ICMPI (R86). -/
def relatesImm (fn : Nat) (a b : Int) : Bool := relates (if fn = 3 then 5 else fn) a b

/-- The functions of PLOP (Table 4.6). -/
def plopBit (fn : Nat) (a b : Bool) : Bool :=
  match fn with
  | 0 => a && b
  | 1 => a || b
  | 2 => xor a b
  | _ => a && !b

/-! ### General forms -/

/-- An instruction of format A that writes one word with zero tangents (R75, R80). -/
def alu (w : FmtA) (srcs : List Src) (f : List W32 → W32) (s : State) : Res :=
  issue s 8 w.g w.u fun i =>
    i.apply (srcs.map Src.field) [w.d] fun _ ds => { out := [plain (f (words srcs ds))] }

/-- An instruction of format B that writes one word with zero tangents. -/
def aluImm (w : FmtB) (f : W32 → W32 → W32) (s : State) : Res :=
  issue s 8 w.g w.u fun i =>
    i.apply [⟨w.a, w.fa⟩] [w.d] fun _ ds => { out := [plain (f (ds.headD {}).val w.imm)] }

/-- The effective tangent count of an accepting instruction (R75, R132). -/
def Iss.tans (i : Iss) (p : Option Dual) : Nat := match p with
  | some d => d.n.toNat
  | none => i.l.dualN

/-- The effective TM of a memory instruction (R132). -/
def Iss.tm (i : Iss) (p : Option Dual) : Bool := match p with
  | some d => d.tm
  | none => i.l.dualTm

/-! ### The instructions -/

/-- NOP (R33). -/
def execNop (w : FmtNop) (s : State) : Res := issue s 8 w.g false fun i => .ok { s := i.s, g := i.g }

/-- IADD (R81). -/
def execIadd (w : FmtA) (s : State) : Res :=
  alu w [w.a, w.b]
    (fun x => satWord (flSat w.fl) (flUns w.fl) (ext (flUns w.fl) (nth x 0) + ext (flUns w.fl) (nth x 1))) s

/-- ISUB (R81). -/
def execIsub (w : FmtA) (s : State) : Res :=
  alu w [w.a, w.b]
    (fun x => satWord (flSat w.fl) (flUns w.fl) (ext (flUns w.fl) (nth x 0) - ext (flUns w.fl) (nth x 1))) s

/-- IADDI (R81). -/
def execIaddi (w : FmtB) (s : State) : Res := aluImm w (fun a imm => a + imm) s

/-- IMUL (R81). -/
def execImul (w : FmtA) (s : State) : Res := alu w [w.a, w.b] (fun x => mulWord w.fn w.fl (nth x 0) (nth x 1)) s

/-- IMAD (R81). -/
def execImad (w : FmtA) (s : State) : Res :=
  alu w [w.a, w.b, w.c] (fun x => madWord w.fn w.fl (nth x 0) (nth x 1) (nth x 2)) s

/-- IMIN (R81). -/
def execImin (w : FmtA) (s : State) : Res :=
  alu w [w.a, w.b] (fun x => word (min (ext (flUns w.fl) (nth x 0)) (ext (flUns w.fl) (nth x 1)))) s

/-- IMAX (R81). -/
def execImax (w : FmtA) (s : State) : Res :=
  alu w [w.a, w.b] (fun x => word (max (ext (flUns w.fl) (nth x 0)) (ext (flUns w.fl) (nth x 1)))) s

/-- IABS (R82). -/
def execIabs (w : FmtA) (s : State) : Res :=
  alu w [w.a] (fun x => satWord (flSat w.fl) false (nth x 0).toInt.natAbs) s

/-- AND, OR, XOR, ANDN (R83). -/
def execAnd (w : FmtA) (s : State) : Res := alu w [w.a, w.b] (fun x => nth x 0 &&& nth x 1) s
def execOr (w : FmtA) (s : State) : Res := alu w [w.a, w.b] (fun x => nth x 0 ||| nth x 1) s
def execXor (w : FmtA) (s : State) : Res := alu w [w.a, w.b] (fun x => nth x 0 ^^^ nth x 1) s
def execAndn (w : FmtA) (s : State) : Res := alu w [w.a, w.b] (fun x => nth x 0 &&& ~~~(nth x 1)) s

/-- ANDI, ORI, XORI (R83). -/
def execAndi (w : FmtB) (s : State) : Res := aluImm w (fun a imm => a &&& imm) s
def execOri (w : FmtB) (s : State) : Res := aluImm w (fun a imm => a ||| imm) s
def execXori (w : FmtB) (s : State) : Res := aluImm w (fun a imm => a ^^^ imm) s

/-- SHL, SHR, SAR, ROTL (R83). -/
def execShl (w : FmtA) (s : State) : Res := alu w [w.a, w.b] (fun x => shlWord (nth x 0) (nth x 1)) s
def execShr (w : FmtA) (s : State) : Res := alu w [w.a, w.b] (fun x => shrWord (nth x 0) (nth x 1)) s
def execSar (w : FmtA) (s : State) : Res := alu w [w.a, w.b] (fun x => sarWord (nth x 0) (nth x 1)) s
def execRotl (w : FmtA) (s : State) : Res := alu w [w.a, w.b] (fun x => rotlWord (nth x 0) (nth x 1)) s

/-- SHLI, SHRI, SARI (R83, R84). -/
def execShli (w : FmtB) (s : State) : Res := aluImm w shlWord s
def execShri (w : FmtB) (s : State) : Res := aluImm w shrWord s
def execSari (w : FmtB) (s : State) : Res := aluImm w sarWord s

/-- BFE, BFI, POPC, CLZ, BREV (R85). -/
def execBfe (w : FmtA) (s : State) : Res := alu w [w.a, w.b] (fun x => bfeWord (flUns w.fl) (nth x 0) (nth x 1)) s
def execBfi (w : FmtA) (s : State) : Res :=
  alu w [w.a, w.b, w.c] (fun x => bfiWord (nth x 0) (nth x 1) (nth x 2)) s
def execPopc (w : FmtA) (s : State) : Res := alu w [w.a] (fun x => popcount (nth x 0)) s
def execClz (w : FmtA) (s : State) : Res := alu w [w.a] (fun x => clzWord (nth x 0)) s
def execBrev (w : FmtA) (s : State) : Res := alu w [w.a] (fun x => (nth x 0).reverse) s

/-- ICMP (R86). -/
def execIcmp (w : FmtAP) (s : State) : Res :=
  issue s 8 w.g w.u fun i =>
    i.apply [w.a.field, w.b.field] [] fun _ ds =>
      let x := words [w.a, w.b] ds
      { preds := [(w.pd.pn, relates w.fn.toNat (ext (flUns w.fl) (nth x 0)) (ext (flUns w.fl) (nth x 1)))] }

/-- ICMPI (R86). -/
def execIcmpi (w : FmtBP) (s : State) : Res :=
  issue s 8 w.g w.u fun i =>
    i.apply [⟨w.a, w.fa⟩] [] fun _ ds =>
      { preds := [(w.pd.pn, relatesImm w.fn.toNat (ds.headD {}).val.toInt w.imm.toInt)] }

/-- The tangents of a delivered word: the canonical NaN where the word is a NaN (Table 3.8, Selection; R77). DESIGN CHOICE
(log 35): SEL has no element format, and the spec does not say in which one its word counts as a NaN; the word is read as FP32,
whatever it holds. -/
def Datum.selected (d : Datum) : Datum :=
  if (fp32.decode d.val.toNat).isNan then withTans d.val 4 fun _ => BitVec.ofNat 32 fp32.canon else d

/-- SEL (R87): the operand it delivers, with that operand's tangents (R80, R77). -/
def execSel (p : Option Dual) (w : FmtSel) (s : State) : Res :=
  issue s (dualSize p) w.g w.u fun i =>
    i.apply [w.a.field, w.b.field] [w.d] fun lane ds =>
      let d := if i.g.pred w.pc.neg w.pc.pn lane then (ds.getD 0 {}).modify w.a.sel else (ds.getD 1 {}).modify w.b.sel
      { out := [d.selected.cut (i.tans p)] }

/-- MOV (R87): the source with its tangents (R80). -/
def execMov (p : Option Dual) (w : FmtA) (s : State) : Res :=
  issue s (dualSize p) w.g w.u fun i =>
    i.apply [w.a.field] [w.d] fun _ ds => { out := [((ds.headD {}).modify w.a.sel).cut (i.tans p)] }

/-- MOVI (R87). -/
def execMovi (w : FmtB) (s : State) : Res :=
  issue s 8 w.g w.u fun i => i.apply [] [w.d] fun _ _ => { out := [plain w.imm] }

/-- A 64-bit number from its low and high words. -/
def pairNat (lo hi : W32) : Nat := lo.toNat + hi.toNat * 2 ^ 32

/-- The words of a 64-bit result. -/
def pairOut (x : Int) : List Datum := [plain (word x), plain (word (x / 2 ^ 32))]

/-- A pair source: both words in order; ZR stands for both (R88). -/
def pairFields (a : Src) : List Field := (a.o.range 2).map fun o => ⟨o, a.trap⟩

/-- The value of a pair among the words read, and the words after it. -/
def takePair (o : Opnd) (ws : List W32) : Nat × List W32 :=
  if o = .zr then (0, ws.drop 1) else (pairNat (nth ws 0) (nth ws 1), ws.drop 2)

/-- IADD64 (R88). -/
def execIadd64 (w : FmtA) (s : State) : Res :=
  issue s 8 w.g w.u fun i =>
    i.apply (pairFields w.a ++ pairFields w.b) (w.d.range 2) fun _ ds =>
      let a := takePair w.a.o (ds.map (·.val))
      { out := pairOut ((a.1 + (takePair w.b.o a.2).1 : Nat) : Int) }

/-- LEA (R88): FN is the shift of b. -/
def execLea (w : FmtA) (s : State) : Res :=
  issue s 8 w.g w.u fun i =>
    i.apply (pairFields w.a ++ [w.b.field]) (w.d.range 2) fun _ ds =>
      let a := takePair w.a.o (ds.map (·.val))
      let b := modify w.b.sel (nth a.2 0)
      { out := pairOut ((a.1 : Int) + ext (flUns w.fl) b * 2 ^ w.fn.toNat) }

/-- PLOP (R89). -/
def execPlop (w : FmtPlop) (s : State) : Res :=
  issue s 8 w.g w.u fun i =>
    i.apply [] [] fun lane _ =>
      { preds := [(w.pd.pn, plopBit w.fn.toNat (i.g.pred w.pa.neg w.pa.pn lane) (i.g.pred w.pb.neg w.pb.pn lane))] }

/-- The predicates of a lane as a byte; bit 7 reads 1 (R89). -/
def Group.predByte (g : Group) (lane : Nat) : W32 :=
  BitVec.ofNat 32 ((List.range 8).foldl (fun x n => if g.pred false (BitVec.ofNat 3 n) lane then x + 2 ^ n else x) 0)

/-- PRD (R89). -/
def execPrd (w : FmtA) (s : State) : Res :=
  issue s 8 w.g w.u fun i => i.apply [] [w.d] fun lane _ => { out := [plain (i.g.predByte lane)] }

/-- PWR (R89). -/
def execPwr (w : FmtA) (s : State) : Res :=
  issue s 8 w.g w.u fun i =>
    i.apply [w.a.field, w.b.field] [] fun _ ds =>
      let x := words [w.a, w.b] ds
      { preds := ((List.range 7).filter fun n => (nth x 1).getLsbD n).map
          fun n => (BitVec.ofNat 3 n, (nth x 0).getLsbD n) }

end Sys2Proof.Machine
end

