-- ==== Sys2Proof/Machine/Fp.lean ====
section
/-! DEFINITION. Floating-point, packed, dot-product, conversion and tangent instructions (spec/05 R108 to R135), with
the tangent rules of spec/03 Table 3.8. -/

namespace Sys2Proof.Machine

/-! ### FL fields -/

/-- The rounding mode FL[62:61] (Table 3.5). -/
def flMode (fl : BitVec 3) : Nat := bitsOf fl.toNat 0 2
/-- The flush bit FL[63] (R63). -/
def flFtz (fl : BitVec 3) : Bool := fl.getLsbD 2

/-! ### Exact results with their invalid flags -/

/-- An exact value and the flags that its computation raises. -/
abbrev XF := XV × Flags

def mulX (a b : XV) : XF := let r := a.mul b; (r.1, flagIf r.2 flagInvalid)

def addX (mode : Nat) (a b : XF) : XF :=
  let r := a.1.add mode b.1
  (r.1, a.2 ||| b.2 ||| flagIf r.2 flagInvalid)

def pureX (a : XV) : XF := (a, 0)

def divX (a : XF) (b : XV) : XF := let r := a.1.div b; (r.1, a.2 ||| r.2)

/-- An arithmetic class of R111. -/
inductive Arith where
  | add | sub | mul | fma | div
  deriving DecidableEq, Repr

/-- The exact primal result (R111). -/
def Arith.exact (k : Arith) (mode : Nat) (a b c : XV) : XF :=
  match k with
  | .add => addX mode (pureX a) (pureX b)
  | .sub => addX mode (pureX a) (pureX b.negate)
  | .mul => mulX a b
  | .fma => addX mode (mulX a b) (pureX c)
  | .div => divX (pureX a) b

/-- The exact tangent (Table 3.8): values a, b, tangents a', b', c', and the rounded quotient q. -/
def Arith.tangent (k : Arith) (mode : Nat) (a b q a' b' c' : XV) : XF :=
  match k with
  | .add => addX mode (pureX a') (pureX b')
  | .sub => addX mode (pureX a') (pureX b'.negate)
  | .mul => addX mode (mulX a' b) (mulX a b')
  | .fma => addX mode (addX mode (mulX a' b) (mulX a b')) (pureX c')
  | .div => divX (addX mode (pureX a') ((mulX q b').1.negate, (mulX q b').2)) b

/-! ### Elements -/

/-- A format with its place in a register: width and number of elements (Table 3.3). -/
structure Layout where
  f : FFmt
  w : Nat
  n : Nat
  deriving DecidableEq, Repr

def lay32 : Layout := ⟨fp32, 32, 1⟩
def lay16 (bf : Bool) : Layout := ⟨if bf then bf16 else fp16, 16, 2⟩

/-- Invalid for a signalling source (R62). -/
def FFmt.sigFlag (f : FFmt) (x : Nat) : Flags := flagIf (f.signalling x) flagInvalid

/-- The rounding of an exact result: encoding and flags. -/
def FFmt.finish (f : FFmt) (mode : Nat) (ftz : Bool) (x : XF) : Nat × Flags :=
  let r := f.round mode false ftz false x.1
  (r.1, r.2 ||| x.2)

/-- Joins elements into a word, with their flags ORed. -/
def joinElems (w : Nat) (es : List (Nat × Flags)) : W32 × Flags :=
  (BitVec.ofNat 32 (es.foldr (fun e x => e.1 + x * 2 ^ w) 0), es.foldl (fun f e => f ||| e.2) 0)

/-- A result with tangents: the primal with its flags, and tangent `k` with its flags. -/
def dualOut (n : Nat) (x : W32 × Flags) (t : Nat → W32 × Flags) : LaneOut :=
  { out := [withTans x.1 n fun k => (t k).1], flags := x.2
    tflags := (List.range n).foldl (fun f k => f ||| (t k).2) 0 }

/-- One arithmetic operation, element by element, with its tangents (R111, R119, R75). `xs` are the modified source
words, `ts k` the tangents of the sources. -/
def arithOut (k : Arith) (l : Layout) (mode : Nat) (ftz : Bool) (n : Nat) (xs : List W32) (ts : Nat → List W32) :
    LaneOut :=
  let el (ws : List W32) (i j : Nat) : Nat := element (nth ws i) l.w j
  let src (ws : List W32) (i j : Nat) : XV := l.f.source ftz (el ws i j)
  let sig (ws : List W32) (j : Nat) : Flags :=
    (List.range ws.length).foldl (fun f i => f ||| l.f.sigFlag (el ws i j)) 0
  let prim (j : Nat) : Nat × Flags :=
    let x := k.exact mode (src xs 0 j) (src xs 1 j) (src xs 2 j)
    l.f.finish mode ftz (x.1, x.2 ||| sig xs j)
  let tang (t j : Nat) : Nat × Flags :=
    let x := k.tangent mode (src xs 0 j) (src xs 1 j) (l.f.decode (prim j).1)
      (src (ts t) 0 j) (src (ts t) 1 j) (src (ts t) 2 j)
    l.f.finish mode ftz (x.1, x.2 ||| sig (ts t) j)
  dualOut n (joinElems l.w ((List.range l.n).map prim)) fun t => joinElems l.w ((List.range l.n).map (tang t))

/-- The tangents `k` of the sources (R135). -/
def tansOf (ds : List Datum) (k : Nat) : List W32 := ds.map (·.tan k)

/-- An arithmetic instruction of format A. -/
def arithA (k : Arith) (l : Layout) (p : Option Dual) (w : FmtA) (srcs : List Src) (s : State) : Res :=
  issue s (dualSize p) w.g w.u fun i =>
    i.apply (srcs.map Src.field) [w.d] fun _ ds =>
      arithOut k l (flMode w.fl) (flFtz w.fl) (i.tans p) (words srcs ds) (tansOf ds)

/-- An arithmetic instruction with a literal: RNE, no flush, the literal without tangents (R111, R75). -/
def arithImm (k : Arith) (p : Option Dual) (w : FmtB) (s : State) : Res :=
  issue s (dualSize p) w.g w.u fun i =>
    i.apply [⟨w.a, w.fa⟩] [w.d] fun _ ds =>
      arithOut k lay32 0 false (i.tans p) [(ds.headD {}).val, w.imm] fun t => [(ds.headD {}).tan t, 0]

/-! ### Scalar arithmetic -/

/-- FADD, FSUB, FMUL, FFMA, FDIV (R111, R112). -/
def execFadd (p : Option Dual) (w : FmtA) (s : State) : Res := arithA .add lay32 p w [w.a, w.b] s
def execFsub (p : Option Dual) (w : FmtA) (s : State) : Res := arithA .sub lay32 p w [w.a, w.b] s
def execFmul (p : Option Dual) (w : FmtA) (s : State) : Res := arithA .mul lay32 p w [w.a, w.b] s
def execFfma (p : Option Dual) (w : FmtA) (s : State) : Res := arithA .fma lay32 p w [w.a, w.b, w.c] s
def execFdiv (p : Option Dual) (w : FmtA) (s : State) : Res := arithA .div lay32 p w [w.a, w.b] s
/-- FMULI, FADDI (R111). -/
def execFmuli (p : Option Dual) (w : FmtB) (s : State) : Res := arithImm .mul p w s
def execFaddi (p : Option Dual) (w : FmtB) (s : State) : Res := arithImm .add p w s
/-- HADD2, HMUL2, HFMA2 (R119). -/
def execHadd2 (p : Option Dual) (w : FmtA) (s : State) : Res := arithA .add (lay16 (w.fn == 1)) p w [w.a, w.b] s
def execHmul2 (p : Option Dual) (w : FmtA) (s : State) : Res := arithA .mul (lay16 (w.fn == 1)) p w [w.a, w.b] s
def execHfma2 (p : Option Dual) (w : FmtA) (s : State) : Res :=
  arithA .fma (lay16 (w.fn == 1)) p w [w.a, w.b, w.c] s

/-! ### Selection, comparison, sign (R113 to R115, R120) -/

/-- Which source is delivered: `none` is the canonical NaN. A goes before B when they compare equal (Table 3.8), but
−0 is below +0. -/
def choose (max : Bool) (a b : XV) : Option Bool :=
  if a.isNan && b.isNan then none
  else if a.isNan then some false
  else if b.isNan then some true
  else
    let c := XV.cmp a b
    let c := if c = 0 ∧ a.isZero then (if a.neg? = b.neg? then 0 else if a.neg? then -1 else 1) else c
    some (if max then decide (0 ≤ c) else decide (c ≤ 0))

/-- FMIN, FMAX and HEXT2 of one lane: the tangent is that of the delivered operand (Table 3.8, R77). -/
def extremeOut (max : Bool) (l : Layout) (ftz : Bool) (n : Nat) (a b : W32) (ta tb : Nat → W32) : LaneOut :=
  let pick (j : Nat) : Option Bool :=
    choose max (l.f.source ftz (element a l.w j)) (l.f.source ftz (element b l.w j))
  let flushed (x : Nat) : Nat := if ftz && l.f.subnormal x then l.f.signed (x.testBit l.f.signBit) 0 else x
  let prim (j : Nat) : Nat × Flags :=
    (match pick j with
      | none => l.f.canon
      | some true => flushed (element a l.w j)
      | some false => flushed (element b l.w j),
     l.f.sigFlag (element a l.w j) ||| l.f.sigFlag (element b l.w j))
  let tang (k j : Nat) : Nat × Flags :=
    (match pick j with
      | none => l.f.canon
      | some true => element (ta k) l.w j
      | some false => element (tb k) l.w j, 0)
  dualOut n (joinElems l.w ((List.range l.n).map prim)) fun k => joinElems l.w ((List.range l.n).map (tang k))

def extreme (max : Bool) (l : Layout) (p : Option Dual) (w : FmtA) (s : State) : Res :=
  issue s (dualSize p) w.g w.u fun i =>
    i.apply [w.a.field, w.b.field] [w.d] fun _ ds =>
      let x := words [w.a, w.b] ds
      extremeOut max l (flFtz w.fl) (i.tans p) (nth x 0) (nth x 1) (ds.getD 0 {}).tan (ds.getD 1 {}).tan

/-- FMIN, FMAX (R113). -/
def execFmin (p : Option Dual) (w : FmtA) (s : State) : Res := extreme false lay32 p w s
def execFmax (p : Option Dual) (w : FmtA) (s : State) : Res := extreme true lay32 p w s
/-- HEXT2 (R120). -/
def execHext2 (p : Option Dual) (w : FmtA) (s : State) : Res :=
  extreme (w.fn.getLsbD 0) (lay16 (w.fn.getLsbD 1)) p w s

/-- The functions of Table 5.3. -/
def fcmpBit (fn : Nat) (a b : XV) : Bool :=
  let un := a.isNan || b.isNan
  let c := XV.cmp a b
  match fn with
  | 0 => !un && decide (c = 0)
  | 1 => un || decide (c ≠ 0)
  | 2 => !un && decide (c < 0)
  | 3 => !un && decide (c ≤ 0)
  | 4 => !un && decide (0 < c)
  | 5 => !un && decide (0 ≤ c)
  | 6 => !un
  | _ => un

/-- FCMP (R114). -/
def execFcmp (w : FmtAP) (s : State) : Res :=
  issue s 8 w.g w.u fun i =>
    i.apply [w.a.field, w.b.field] [] fun _ ds =>
      let x := words [w.a, w.b] ds
      let a := fp32.source (flFtz w.fl) (nth x 0).toNat
      let b := fp32.source (flFtz w.fl) (nth x 1).toNat
      let ordered := decide (2 ≤ w.fn.toNat ∧ w.fn.toNat ≤ 5)
      { preds := [(w.pd.pn, fcmpBit w.fn.toNat a b)]
        flags := fp32.sigFlag (nth x 0).toNat ||| fp32.sigFlag (nth x 1).toNat
          ||| flagIf (ordered && (a.isNan || b.isNan)) flagInvalid }

/-- FSGN (R115): the sign bit of the result, and whether tangents change sign (Table 3.8). -/
def execFsgn (p : Option Dual) (w : FmtA) (s : State) : Res :=
  issue s (dualSize p) w.g w.u fun i =>
    i.apply ((if w.fn = 2 then [w.a, w.b] else [w.a]).map Src.field) [w.d] fun _ ds =>
      let a := modify w.a.sel (ds.getD 0 {}).val
      let b := modify w.b.sel (ds.getD 1 {}).val
      let flip := if w.fn = 0 then a.msb else if w.fn = 1 then true else xor a.msb b.msb
      let turn (x : W32) : W32 := if flip then x ^^^ 0x80000000 else x
      { out := [withTans (turn a) (i.tans p) fun k => turn ((ds.getD 0 {}).tan k)] }

/-! ### Unary functions (R116 to R118) -/

/-- The word that an FP32 input is taken as: with the flush bit, a subnormal is the zero of its sign (R63, R76). -/
def delivered32 (ftz : Bool) (a : W32) : W32 := if ftz && fp32.subnormal a.toNat then a &&& 0x80000000 else a

def unaryOut (f : UFn) (mode : Nat) (ftz : Bool) (n : Nat) (a : W32) (ta : Nat → W32) : LaneOut :=
  let x := fp32.source ftz a.toNat
  let r := f.eval mode ftz a x (fp32.signalling a.toNat)
  dualOut n (r.w, r.flags) fun k =>
    let t := (ta k).toNat
    let y := mulX (f.deriv (delivered32 ftz a) x) (fp32.source ftz t)
    let z := fp32.finish mode ftz (y.1, y.2 ||| fp32.sigFlag t)
    (BitVec.ofNat 32 z.1, z.2)

def unary (f : UFn) (p : Option Dual) (w : FmtA) (s : State) : Res :=
  issue s (dualSize p) w.g w.u fun i =>
    i.apply [w.a.field] [w.d] fun _ ds =>
      unaryOut f (flMode w.fl) (flFtz w.fl) (i.tans p) (modify w.a.sel (ds.headD {}).val) (ds.headD {}).tan

/-- FRCP, FRSQ, FSQRT, FEX2, FLG2, FSIN, FCOS, FTANH (R116). -/
def execFrcp (p : Option Dual) (w : FmtA) (s : State) : Res := unary .rcp p w s
def execFrsq (p : Option Dual) (w : FmtA) (s : State) : Res := unary .rsq p w s
def execFsqrt (p : Option Dual) (w : FmtA) (s : State) : Res := unary .sqrt p w s
def execFex2 (p : Option Dual) (w : FmtA) (s : State) : Res := unary .ex2 p w s
def execFlg2 (p : Option Dual) (w : FmtA) (s : State) : Res := unary .lg2 p w s
def execFsin (p : Option Dual) (w : FmtA) (s : State) : Res := unary .sin p w s
def execFcos (p : Option Dual) (w : FmtA) (s : State) : Res := unary .cos p w s
def execFtanh (p : Option Dual) (w : FmtA) (s : State) : Res := unary .tanh p w s

/-! ### Dot products (R121, R122) and block scaling (R123) -/

/-- c plus the sum of element products, clamped when SAT is set (R121). -/
def dotInt (width : Nat) (uns sat : Bool) (a b c : W32) : W32 :=
  let e (x : W32) (j : Nat) : Int := if uns then (element x width j : Int) else signed width (element x width j)
  satWord sat uns ((List.range (32 / width)).foldl (fun v j => v + e a j * e b j) (ext uns c))

/-- DP4, DP8 (R121). -/
def execDp4 (w : FmtA) (s : State) : Res :=
  alu w [w.a, w.b, w.c] (fun x => dotInt 8 (flUns w.fl) (flSat w.fl) (nth x 0) (nth x 1) (nth x 2)) s
def execDp8 (w : FmtA) (s : State) : Res :=
  alu w [w.a, w.b, w.c] (fun x => dotInt 4 (flUns w.fl) (flSat w.fl) (nth x 0) (nth x 1) (nth x 2)) s

/-- The elements of registers, in order (R64, R123). -/
def elements (width : Nat) (xs : List W32) : List Nat :=
  xs.flatMap fun x => (List.range (32 / width)).map (element x width)

/-- Adds the products of two lists of elements to a block sum. -/
def BlockSum.dot (s : BlockSum) (f : FFmt) (a b : List Nat) : BlockSum :=
  (a.zip b).foldl (fun s e => s.product false (f.decode e.1) (f.decode e.2)) s

/-- A dense block sum with its accumulator, scale and tangents (R71, R122, R123, Table 3.8). -/
def dotOut (f : FFmt) (width mode : Nat) (ftz : Bool) (n : Nat) (g : XV) (a b : List W32) (c : W32)
    (ta tb : Nat → List W32) (tc : Nat → W32) : LaneOut :=
  let acc (c : W32) (s : BlockSum) : W32 × Flags :=
    let r := accumulate mode ftz (fp32.source ftz c.toNat) (fp32.signalling c.toNat) s g
    (r.w, r.flags)
  let el := elements width
  dualOut n (acc c (BlockSum.dot {} f (el a) (el b))) fun k =>
    acc (tc k) (BlockSum.dot (BlockSum.dot {} f (el (ta k)) (el b)) f (el a) (el (tb k)))

def dotA (f : FFmt) (width : Nat) (p : Option Dual) (w : FmtA) (s : State) : Res :=
  issue s (dualSize p) w.g w.u fun i =>
    i.apply [w.a.field, w.b.field, w.c.field] [w.d] fun _ ds =>
      let x := words [w.a, w.b, w.c] ds
      let t (i k : Nat) : W32 := (ds.getD i {}).tan k
      dotOut f width (flMode w.fl) (flFtz w.fl) (i.tans p) one32 [nth x 0] [nth x 1] (nth x 2)
        (fun k => [t 0 k]) (fun k => [t 1 k]) (t 2)

/-- DPF8, DPF4 (R122). -/
def execDpf8 (p : Option Dual) (w : FmtA) (s : State) : Res := dotA (if w.fn = 0 then e4m3 else e5m2) 8 p w s
def execDpf4 (p : Option Dual) (w : FmtA) (s : State) : Res := dotA e2m1 4 p w s

/-- The four registers of a block source; ZR reads as zeros (R123). -/
def blockFields (a : Src) : List Field := (a.o.range 4).map fun o => ⟨o, a.trap⟩

/-- The data of a block source among those read, and the rest. -/
def takeBlock (o : Opnd) (ds : List Datum) : List Datum × List Datum :=
  if o = .zr then (List.replicate 4 {}, ds.drop 1) else (ds.take 4, ds.drop 4)

/-- BSCALE (R123): D is read after A, B and C. -/
def execBscale (p : Option Dual) (w : FmtA) (s : State) : Res :=
  issue s (dualSize p) w.g w.u fun i =>
    i.apply (blockFields w.a ++ blockFields w.b ++ [w.c.field, ⟨w.d, false⟩]) [w.d] fun _ ds =>
      let a := takeBlock w.a.o ds
      let b := takeBlock w.b.o a.2
      let c := modify w.c.sel (b.2.getD 0 {}).val
      let d := b.2.getD 1 {}
      let g := ((scale16 (bitsOf c.toNat 0 16)).mul (scale16 (bitsOf c.toNat 16 16))).1
      let f := if w.fn = 0 then e4m3 else e2m1
      dotOut f (if w.fn = 0 then 8 else 4) (flMode w.fl) (flFtz w.fl) (i.tans p) g
        (a.1.map (·.val)) (b.1.map (·.val)) d.val (tansOf a.1) (tansOf b.1) d.tan

/-! ### Conversions (R124 to R128) -/

/-- The value of a finite magnitude with stochastic rounding (R73): code and exactness. -/
def FFmt.stochMag (f : FFmt) (r m : Nat) (e : Int) : Nat × Bool :=
  if m = 0 then (0, true)
  else
    let k := f.fb + 24
    let m := m * 2 ^ k
    let e := e - k
    let q := max (e + (m.log2 : Int) - f.fb) f.emin
    let d := (q - e).toNat
    ((q - f.emin).toNat * 2 ^ f.fb + (m + r * 2 ^ (d - 16)) / 2 ^ d, decide (m % 2 ^ d = 0))

/-- Stochastic conversion (R73): overflow as in RNE, then R69. -/
def FFmt.stochastic (f : FFmt) (sat ftz : Bool) (r : Nat) : XV → Nat × Flags
  | .fin neg m e _ =>
    let x := f.stochMag r m e
    if f.maxCode < x.1 then (f.infCode sat neg, flagOverflow ||| flagInexact)
    else
      let sub := decide (x.1 ≠ 0 ∧ x.1 < 2 ^ f.fb)
      if ftz && sub then (f.signed neg 0, flagUnderflow ||| flagInexact)
      else (f.signed neg x.1, flagIf (!x.2) flagInexact ||| flagIf (sub && !x.2) flagUnderflow)
  | x => f.round 0 sat ftz true x

/-- Source and destination of a conversion (Table 1.17), with the width of the source element. -/
def fcvtFormats (fn : Nat) : FFmt × Nat × FFmt :=
  match fn with
  | 0 => (fp32, 32, fp16) | 1 => (fp32, 32, bf16) | 2 => (fp32, 32, e4m3) | 3 => (fp32, 32, e5m2)
  | 4 => (fp32, 32, e2m1) | 5 => (fp16, 16, fp32) | 6 => (bf16, 16, fp32) | 7 => (e4m3, 8, fp32)
  | 8 => (e5m2, 8, fp32) | 9 => (e2m1, 4, fp32) | 10 => (fp32, 32, bf16) | 11 => (fp32, 32, fp16)
  | 12 => (fp32, 32, e4m3) | _ => (fp32, 32, e5m2)

/-- A format that the flush bit reaches (R63). -/
def FFmt.flushes (f : FFmt) : Bool := decide (15 ≤ f.signBit)

/-- One conversion (R125); `rand` gives the stochastic form. -/
def convert (src dst : FFmt) (mode : Nat) (sat ftz : Bool) (rand : Option Nat) (x : Nat) : Nat × Flags :=
  let v := src.source (ftz && src.flushes) x
  let y := match rand with
    | some r => dst.stochastic sat (ftz && dst.flushes) r v
    | none => dst.round mode sat (ftz && dst.flushes) true v
  (y.1, y.2 ||| src.sigFlag x)

/-- FCVT (R124, R125). -/
def execFcvt (p : Option Dual) (w : FmtA) (s : State) : Res :=
  let f := fcvtFormats w.fn.toNat
  let srcs := if 9 < w.fn.toNat then [w.a, w.c] else [w.a]
  let sat := w.b.sel.getLsbD 0
  issue s (dualSize p) w.g w.u fun i =>
    i.apply (srcs.map Src.field) [w.d] fun _ ds =>
      let x := words srcs ds
      let rand := if 9 < w.fn.toNat then some (bitsOf (nth x 1).toNat 0 16) else none
      let conv (mode : Nat) (rand : Option Nat) (v : W32) : W32 × Flags :=
        let r := convert f.1 f.2.2 mode sat (flFtz w.fl) rand (bitsOf v.toNat 0 f.2.1)
        (BitVec.ofNat 32 r.1, r.2)
      dualOut (i.tans p) (conv (flMode w.fl) rand (nth x 0)) fun k => conv 0 none ((ds.headD {}).tan k)

/-- I2F (R126). -/
def i2fOut (fn : BitVec 4) (mode : Nat) (a : W32) : LaneOut :=
  let v := ext (fn == 1) a
  let r := fp32.round mode false false false (.fin (decide (v < 0)) v.natAbs 0 false)
  { out := [plain (BitVec.ofNat 32 r.1)], flags := r.2 }

def execI2f (w : FmtA) (s : State) : Res :=
  issue s 8 w.g w.u fun i =>
    i.apply [w.a.field] [w.d] fun _ ds => i2fOut w.fn (flMode w.fl) (modify w.a.sel (ds.headD {}).val)

/-- A finite value rounded to an integer, and whether it is exact. -/
def roundInt (mode : Nat) (neg : Bool) (m : Nat) (e : Int) : Int × Bool :=
  if 0 ≤ e then (toInt neg (m * 2 ^ e.toNat), true)
  else
    let d := (-e).toNat
    let n := m / 2 ^ d
    let up := roundsUp mode neg (n % 2 = 1) (m % 2 ^ d) (2 ^ (d - 1)) false
    (toInt neg (n + if up then 1 else 0), decide (m % 2 ^ d = 0))

/-- F2I (R127). -/
def f2iOut (uns : Bool) (mode : Nat) (ftz : Bool) (a : W32) : LaneOut :=
  let lo : Int := if uns then 0 else -(2 : Int) ^ 31
  let hi : Int := if uns then 2 ^ 32 - 1 else 2 ^ 31 - 1
  match fp32.source ftz a.toNat with
  | .nan => { out := [{}], flags := flagInvalid }
  | .inf n => { out := [plain (word (if n then lo else hi))], flags := flagInvalid }
  | .fin neg m e _ =>
    let r := roundInt mode neg m e
    if r.1 < lo then { out := [plain (word lo)], flags := flagInvalid }
    else if hi < r.1 then { out := [plain (word hi)], flags := flagInvalid }
    else { out := [plain (word r.1)], flags := flagIf (!r.2) flagInexact }

def execF2i (w : FmtA) (s : State) : Res :=
  issue s 8 w.g w.u fun i =>
    i.apply [w.a.field] [w.d] fun _ ds =>
      f2iOut (w.fn == 1) (flMode w.fl) (flFtz w.fl) (modify w.a.sel (ds.headD {}).val)

/-- A word saturated to 16 bits (R128). -/
def sat16 (uns : Bool) (x : W32) : Nat :=
  let lo : Int := if uns then 0 else -32768
  let hi : Int := if uns then 65535 else 32767
  bitsOf (word (max lo (min hi (ext uns x)))).toNat 0 16

/-- PACK2 (R128). -/
def execPack2 (p : Option Dual) (w : FmtA) (s : State) : Res :=
  issue s (dualSize p) w.g w.u fun i =>
    i.apply [w.a.field, w.b.field] [w.d] fun _ ds =>
      let x := words [w.a, w.b] ds
      if w.fn = 2 then
        { out := [plain (joinElems 16 [(sat16 (flUns w.fl) (nth x 0), 0), (sat16 (flUns w.fl) (nth x 1), 0)]).1] }
      else
        let f := if w.fn = 0 then fp16 else bf16
        let pair (mode : Nat) (a b : W32) : W32 × Flags :=
          joinElems 16 [convert fp32 f mode false (flFtz w.fl) none a.toNat,
            convert fp32 f mode false (flFtz w.fl) none b.toNat]
        dualOut (i.tans p) (pair (flMode w.fl) (nth x 0) (nth x 1)) fun k =>
          pair 0 ((ds.getD 0 {}).tan k) ((ds.getD 1 {}).tan k)

/-! ### CRND (R74, R129), TGET and TSET (R134) -/

/-- The function h of R74. -/
def crndHash (a b : W32) : W32 :=
  let h := (a ^^^ b) * 0x9E3779B9
  let h := h ^^^ (h >>> 16)
  let h := h * 0x85EBCA6B
  h ^^^ (h >>> 13)

/-- CRND: a long-latency producer (R129). -/
def execCrnd (w : FmtA) (s : State) : Res :=
  issue s 8 w.g w.u fun i => do
    i.ready [w.a.field, w.b.field] [w.d]
    let r := i.g.gather [w.a.o, w.b.o] i.ex
    let data := r.1.map fun x =>
      let ws := words [w.a, w.b] x.2
      (x.1, [plain (crndHash (nth ws 0) (nth ws 1))])
    if w.d = .zr then .ok { s := i.s, g := r.2 }
    else
      let n := i.s.fresh
      let p : Pending := { id := n.1, gid := i.g.id, pc := i.g.pc32, region := i.g.regionCnt, kind := .crnd
                           dst := w.d, uni := w.u, bytes := 4, lanes := i.ex, data := data }
      .ok { s := { n.2 with pend := n.2.pend ++ [p] }, g := r.2.expect n.1 1 w.d i.ex }

/-- TGET: the modifier applies to the tangent read (R134). -/
def execTget (w : FmtA) (s : State) : Res :=
  issue s 8 w.g w.u fun i =>
    i.apply [w.a.field] [w.d] fun _ ds => { out := [plain (modify w.a.sel ((ds.headD {}).tan w.fn.toNat))] }

/-- A datum with one tangent replaced. -/
def Datum.setTan (d : Datum) (k : Nat) (x : W32) : Datum :=
  withTans d.val 4 fun j => if j = k then x else d.tan j

/-- TSET: D keeps its primal and its other tangents (R134). -/
def execTset (w : FmtA) (s : State) : Res :=
  issue s 8 w.g w.u fun i =>
    i.apply [w.a.field, ⟨w.d, false⟩] [w.d] fun _ ds =>
      { out := [(ds.getD 1 {}).setTan w.fn.toNat (modify w.a.sel (ds.getD 0 {}).val)] }

end Sys2Proof.Machine
end

