-- ==== Sys2Proof/Machine/Lane.lean ====
section
/-! DEFINITION. Lane instructions (spec/08 R167 to R172): every executing lane reads before any lane writes. -/

namespace Sys2Proof.Machine

/-- The source lane of LXCH within its segment (R168). -/
def lxchLane (fn w lane : Nat) (n : W32) : Nat :=
  let p := lane % w
  let base := lane - p
  match fn with
  | 0 => base + n.toNat % 32 % w
  | 1 => if n.toNat ≤ p then lane - n.toNat else lane
  | 2 => if p + n.toNat < w then lane + n.toNat else lane
  | _ => base + (p ^^^ (n.toNat % 32)) % w

/-- The entry of a lane among the lanes read. -/
def laneData (xs : List (Nat × List Datum)) (lane : Nat) : Option (List Datum) :=
  (xs.find? fun x => x.1 = lane).map (·.2)

/-- LXCH (R168). -/
def execLxch (p : Option Dual) (w : FmtA) (s : State) : Res :=
  issue s (dualSize p) w.g w.u fun i =>
    i.applyAll [w.a.field, w.b.field] [w.d] fun xs =>
      xs.map fun x =>
        let n := modify w.b.sel (x.2.getD 1 {}).val
        let src := lxchLane w.fn.toNat (32 >>> w.fl.toNat) x.1 n
        let ds := (laneData xs src).getD x.2
        (x.1, { out := [((ds.headD {}).modify w.a.sel).cut (i.tans p)] })

/-- PPOLL (R169). -/
def execPpoll (w : FmtPoll) (s : State) : Res :=
  issue s 8 w.g w.u fun i =>
    let m := i.ex.filter (i.g.pred w.pa.neg w.pa.pn)
    match w.d with
    | .pred pd =>
      i.apply [] [] fun _ _ => { preds := [(pd.pn, if w.fn = 0 then decide (m.length = i.ex.length) else !m.isEmpty)] }
    | .reg o => i.apply [] [o] fun _ _ => { out := [plain (laneMask m)] }

/-- The functions of LRED on two words (R170, Table 1.16). -/
def lredWord (fn : Nat) (a b : W32) : W32 :=
  match fn with
  | 0 => a + b
  | 1 => if a.toInt ≤ b.toInt then a else b
  | 2 => if a.toNat ≤ b.toNat then a else b
  | 3 => if a.toInt ≤ b.toInt then b else a
  | 4 => if a.toNat ≤ b.toNat then b else a
  | 5 => a &&& b
  | 6 => a ||| b
  | _ => a ^^^ b

/-- The source words of all lanes. -/
def laneWords (a : Src) (xs : List (Nat × List Datum)) : List (Nat × W32) :=
  xs.map fun x => (x.1, modify a.sel (x.2.headD {}).val)

/-- LRED (R170). -/
def execLred (w : FmtA) (s : State) : Res :=
  issue s 8 w.g w.u fun i =>
    i.applyAll [w.a.field] [w.d] fun xs =>
      let ws := (laneWords w.a xs).map (·.2)
      let r := ws.tail.foldl (lredWord w.fn.toNat) (ws.headD 0)
      xs.map fun x => (x.1, { out := [plain r] })

/-- LEQV (R171). -/
def execLeqv (w : FmtA) (s : State) : Res :=
  issue s 8 w.g w.u fun i =>
    i.applyAll [w.a.field] [w.d] fun xs =>
      let ws := laneWords w.a xs
      ws.map fun x =>
        let same := (ws.filter fun y => y.2 = x.2).map (·.1)
        let r := if w.fn = 0 then same else if same.length = ws.length then same else []
        (x.1, { out := [plain (laneMask r)] })

/-- LPICK (R172). -/
def execLpick (p : Option Dual) (w : FmtA) (s : State) : Res :=
  issue s (dualSize p) w.g w.u fun i =>
    i.applyAll [w.a.field, w.b.field] [w.d] fun xs =>
      xs.map fun x =>
        let sel := bitsOf (modify w.b.sel (x.2.getD 1 {}).val).toNat 0 5
        let ds := (laneData xs sel).getD ((xs.head?.map (·.2)).getD [])
        (x.1, { out := [((ds.headD {}).modify w.a.sel).cut (i.tans p)] })

end Sys2Proof.Machine
end

