-- ==== Sys2Proof/Machine/Flow.lean ====
section
/-! DEFINITION. Flow instructions, WAITF, traps and regions, MFS and MTS (spec/04 R90 to R107, spec/08 R158 to R162). -/

namespace Sys2Proof.Machine

/-! ### Branches -/

/-- A target in 4-byte units from the instruction (R91). -/
def Iss.target (i : Iss) (tgt : BitVec 24) : CodeAt := i.addr + (tgt.signExtend 64) * 4

/-- The reconvergence address (R91). -/
def Iss.join (i : Iss) (rc : BitVec 20) : CodeAt := i.addr + (rc.setWidth 64) * 4

/-- Whether the guard is true in some active lanes only. -/
def Iss.mixed (i : Iss) : Bool := decide (i.ex.length ≠ (maskLanes i.g.ctl.mask).length)

/-- The outcome of a branch whose taken lanes execute (Table 4.8). -/
def Iss.branchTo (i : Iss) (rc : BitVec 20) (t : CodeAt) : Except Stop Done :=
  if !i.mixed then .ok { s := i.s, g := i.g, next := .branch t }
  else if rc = 0 then i.cause 0x01
  else
    let taken := laneMask i.ex
    match i.g.ctl.split i.addr t (i.join rc) taken (i.g.ctl.mask &&& ~~~taken) with
    | .error c => i.cause c
    | .ok ctl => .ok { s := i.s, g := { i.g with ctl := ctl }, next := .jump i.after }

/-- The ILLOP cases of a branch that need no target (R91, R160). -/
def Iss.branchLegal (i : Iss) (rc : BitVec 20) : Bool :=
  !i.mixed || (rc ≠ 0 && match i.g.ctl.div with
    | [] => true
    | top :: _ => !(top.rcv.any fun r => r.slt (i.join rc)))

/-- The word that every executing lane holds in an operand, if they agree. -/
def Iss.agreed (i : Iss) (o : Opnd) : Option W32 :=
  let xs := i.ex.map fun lane => (i.g.datum lane o).val
  if xs.all (· = xs.headD 0) then some (xs.headD 0) else none

/-- A code offset read from D: PROT, wait, ILLOP without agreement, ALIGN (R92). -/
def Iss.codeOffset (i : Iss) (d : Opnd) : Except Stop CodeAt := do
  i.checkBounds [d]
  i.checkSrcs [⟨d, false⟩] []
  match i.agreed d with
  | none => i.cause 0x01
  | some t => if t.extractLsb' 0 2 = 0 then .ok (t.setWidth 64) else i.cause 0x03

/-- BRA (R91). -/
def execBra (w : FmtX) (s : State) : Res := issue s 8 w.g false fun i => i.branchTo w.rc (i.target w.tgt)

/-- BRX (R91, R92). -/
def execBrx (w : FmtX) (s : State) : Res :=
  issue s 8 w.g false fun i => do
    i.check (i.branchLegal w.rc) 0x01
    i.branchTo w.rc (← i.codeOffset w.d)

/-- CALL (R93): the link keeps its tangents (R80). -/
def execCall (w : FmtX) (s : State) : Res :=
  issue s 8 w.g false fun i => do
    i.check (!i.mixed) 0x01
    i.ready [] [w.d]
    let link := i.ex.map fun lane => (lane, { i.g.datum lane w.d with val := i.after.setWidth 32 })
    .ok { s := i.s, g := i.g.giveAll w.d link, next := .jump (i.target w.tgt) }

/-- RET (R93). -/
def execRet (w : FmtX) (s : State) : Res :=
  issue s 8 w.g false fun i => do
    i.check (!i.mixed) 0x01
    .ok { s := i.s, g := i.g, next := .jump (← i.codeOffset w.d) }

/-! ### The loop stack -/

/-- LOOP (R94), its steps in order. -/
def execLoop (w : FmtX) (s : State) : Res :=
  issue s 8 w.g false fun i => do
    let t := i.target w.tgt
    i.checkBounds [w.d]
    i.check (!i.mixed) 0x04
    i.checkSrcs [⟨w.d, false⟩] []
    match i.agreed w.d with
    | none => i.cause 0x04
    | some n =>
      if n = 0 then .ok { s := i.s, g := i.g, next := .branch t }
      else
        let loops := i.g.ctl.loops
        i.check (decide (loops.length < 4)) 0x04
        i.check (loops.head?.all fun e => t.sle e.fin) 0x04
        .ok { s := i.s, g := { i.g with ctl := { i.g.ctl with loops := ⟨i.after, t, n⟩ :: loops } } }

/-- LBRK (R98). -/
def execLbrk (w : FmtX) (s : State) : Res :=
  issue s 8 w.g false fun i => do
    i.check (!i.mixed) 0x04
    i.check (!i.g.ctl.loops.isEmpty) 0x04
    .ok { s := i.s, g := { i.g with ctl := { i.g.ctl with loops := i.g.ctl.loops.tail } } }

/-! ### Traps, breakpoints, regions (R100 to R103) -/

/-- TRAP (R100). -/
def execTrap (w : FmtB) (s : State) : Res := issue s 8 w.g w.u fun i => i.cause 0x40

/-- BKPT (R100, R332). -/
def execBkpt (w : FmtB) (s : State) : Res := issue s 8 w.g w.u fun i => i.cause 0x41

/-- TRET (R101, R314): the reconvergence check runs at the resumption point (R161). -/
def execTret (w : FmtX) (s : State) : Res :=
  issue s 8 w.g false fun i =>
    match i.g.inHandler, i.g.saved with
    | true, some ctl => .ok { s := i.s, g := leaveTrap i.g ctl, next := .jump i.g.resumePc }
    | _, _ => i.cause 0x01

/-- REGION (R102). -/
def execRegion (w : FmtX) (s : State) : Res :=
  issue s 8 w.g false fun i => .ok { s := i.s, g := i.g, region := true }

/-- YIELD (R103): no architectural state; the group is the last issued of its pipe. -/
def execYield (w : FmtX) (s : State) : Res := issue s 8 w.g false fun i => .ok { s := i.s, g := i.g }

/-! ### WAITF (R104) -/

/-- WAITF: both forms; it pops nothing. -/
def execWaitf (w : FmtWait) (s : State) : Res :=
  issue s 8 w.g w.u fun i => do
    let os := [w.a.o, w.b.o, w.c.o]
    i.checkBounds os
    let ok (lane : Nat) : Bool := os.all (i.g.isFull lane 0)
    match w.pd with
    | none => if i.ex.all ok then .ok { s := i.s, g := i.g } else i.wait
    | some p => .ok { s := i.s, g := i.ex.foldl (fun g lane => g.setPreds p.pn (i.reach lane) (ok lane)) i.g }

/-! ### Special registers (Table 1.3) -/

/-- The team's core within its cluster (CLUSTPOS). -/
def Team.clusterPos (t : Team) : Nat := (t.core / 16 - t.corner / 16) * 16 + (t.core % 16 - t.corner % 16)

/-- The device number of a socket in a mode (Table 20.2). -/
def deviceOf (mode socket : Nat) : Nat := if mode = 0 then 0 else if mode = 1 then socket / 4 else socket

/-- QOCC of a queue: depth and occupancy. -/
def Queue.qocc (q : Queue) : Nat := q.depth % 16 * 16 + q.occupancy % 16

/-- CYCLE of a core (Table 1.3): the cycles it had counted at reset, and those of every step since (log 8). -/
def cycleCount (key : Nat) : Nat → Nat
  | 0 => Config.cycleBase key
  | n + 1 => cycleCount key n + Config.cycleGap key n

/-- The value of a register that is not remote, in a lane (R105, Table 1.3). -/
def Iss.special (i : Iss) (sr lane : Nat) : W32 :=
  let num (n : Nat) : W32 := BitVec.ofNat 32 n
  match sr with
  | 0x000 => num lane
  | 0x001 => num i.g.groupId
  | 0x002 => i.t.pos
  | 0x003 => num i.t.clusterPos
  | 0x004 => num i.t.core
  | 0x005 => num (deviceOf i.c.desc.mode i.t.die * 8 + i.t.die)
  | 0x006 => num (i.l.gridY * 65536 + i.l.gridX)
  | 0x007 => num i.g.nthreads
  | 0x008 => num i.c.desc.ctx
  | 0x009 => num (if i.c.priv then 1 else 0)
  | 0x00A => num (cycleCount (coreKey i.t.die i.t.core) i.s.tick)
  | 0x00B => num i.l.param
  | 0x00C => num (i.l.param / 2 ^ 32)
  | 0x040 => i.g.cause
  | 0x041 => i.g.causePc
  | 0x042 => i.g.regionPc
  | 0x043 => i.g.regionCnt
  | 0x044 => i.g.tvec
  | 0x080 => (look 0 i.g.fpst lane).setWidth 32
  | 0x081 => (look 0 i.g.fpte lane).setWidth 32
  | 0x0D0 => i.g.tanStride
  | 0x100 => i.g.slipCnt
  | 0x101 => num (i.s.coreSt (coreKey i.t.die i.t.core)).mqratio
  | 0x141 => i.g.fbgrp
  | n => if 0x0C0 ≤ n ∧ n ≤ 0x0CF then num (i.g.queue lane (n - 0x0C0)).qocc else 0

/-- MFS (R105): a remote register's value lands later. -/
def execMfs (w : FmtB) (s : State) : Res :=
  issue s 8 w.g w.u fun i =>
    let sr := w.imm.toNat
    if srRemote sr then do
      i.ready [] [w.d]
      if w.d = .zr then .ok { s := i.s, g := i.g }
      else
        let n := i.s.fresh
        let p : Pending := { id := n.1, gid := i.g.id, pc := i.g.pc32, region := i.g.regionCnt, kind := .mfs sr
                             dst := w.d, uni := w.u, bytes := 4, lanes := i.ex }
        .ok { s := { n.2 with pend := n.2.pend ++ [p] }, g := i.g.expect n.1 1 w.d i.ex }
    else i.apply [] [w.d] fun lane _ => { out := [plain (i.special sr lane)] }

/-- The write of a group, core or die register; unlisted bits are ignored (R20, R106). -/
def writeSpecial (sr : Nat) (x : W32) (t : Team) (s : State) (g : Group) : State × Group :=
  match sr with
  | 0x040 => (s, { g with cause := x &&& 0x1FF })
  | 0x041 => (s, { g with causePc := x &&& 0xFFFFFFFC })
  | 0x044 => (s, { g with tvec := x &&& 0xFFFFFFFC })
  | 0x0D0 => (s, { g with tanStride := x &&& 0xFFFFFFF0 })
  | 0x101 => (s.onCore (coreKey t.die t.core) fun c => { c with mqratio := bitsOf x.toNat 0 5 }, g)
  | 0x102 => (s.onDie t.die fun d => { d with brwin := bitsOf x.toNat 0 9 }, g)
  | 0x141 => (s, { g with fbgrp := x &&& 0x8000FFFF })
  | _ => (s, g)

/-- The limits of MQRATIO and BRWIN (R21). -/
def specialOk (sr : Nat) (x : W32) : Bool :=
  if sr = 0x101 then decide (1 ≤ bitsOf x.toNat 0 5 ∧ bitsOf x.toNat 0 5 ≤ 16)
  else if sr = 0x102 then decide (bitsOf x.toNat 0 9 ≤ 256)
  else true

/-- MTS (R106, R107). -/
def execMts (w : FmtB) (s : State) : Res :=
  issue s 8 w.g w.u fun i => do
    let sr := w.imm.toNat
    let readable := i.inBounds w.a && i.ex.all fun lane => i.g.isFull lane 0 w.a
    let bad := readable && !specialOk sr (i.g.datum (i.ex.headD 0) w.a).val
    i.check (i.c.priv || sr ≠ 0x102 || bad) 0x02
    i.ready [⟨w.a, w.fa⟩] []
    let r := i.g.gather [w.a] i.ex
    let vals := r.1.map fun x => (x.1, (x.2.headD {}).val)
    let flags (x : W32) : BitVec 5 := x.extractLsb' 0 5
    if sr = 0x080 then
      .ok { s := i.s, g := vals.foldl (fun g x => { g with fpst := keep 0 g.fpst x.1 (flags x.2) }) r.2 }
    else if sr = 0x081 then
      .ok { s := i.s, g := vals.foldl (fun g x => { g with fpte := keep 0 g.fpte x.1 (flags x.2) }) r.2 }
    else
      let x := (vals.head?.map (·.2)).getD 0
      i.check (specialOk sr x) 0x01
      let sg := writeSpecial sr x i.t i.s r.2
      .ok { s := sg.1, g := sg.2 }

end Sys2Proof.Machine
end

