-- ==== Sys2Proof/Machine/Access.lean ====
section
/-! DEFINITION. Accesses of groups: addresses and their checks (spec/06 R137 to R139, spec/12 R226, R232, R233), performing
loads, stores and atomics (R140 to R145), order (R142, R146, R248; spec/20 R357 to R360). -/

namespace Sys2Proof.Machine

/-! ### Data -/

/-- `k` words from bytes (R4). -/
def wordsFrom (k : Nat) (bs : List Byte) : List W32 :=
  (List.range k).map fun j => BitVec.ofNat 32 (ofLe ((bs.drop (4 * j)).take 4))

/-- Registers that hold `n` bytes (R138). -/
def regsFor (n : Nat) : Nat := (n + 3) / 4

/-- The bytes that a store writes: of the primals for `k` = 0, of tangent `k` − 1 otherwise (R149). -/
def dataBytes (n k : Nat) (ds : List Datum) : List Byte :=
  (ds.flatMap fun d => leBytes 4 (if k = 0 then d.val else d.tan (k - 1)).toNat).take n

/-- The bytes of one access of a pending producer, once performed. -/
def Pending.got (p : Pending) (lane k : Nat) : List Byte :=
  ((p.accs.find? fun a => a.lane = lane ∧ a.k = k).bind (·.val)).getD []

/-- What lands in a lane: a datum for each register of the range, zero-extended (R138, R140, R149). -/
def Pending.loaded (p : Pending) (lane : Nat) : List Datum :=
  let r := regsFor p.bytes
  let w (k j : Nat) : W32 := nth (wordsFrom r (p.got lane k)) j
  (List.range r).map fun j => withTans (w 0 j) 4 fun m => w (m + 1) j

/-- An access that met an error holds no bytes (R153, R355). -/
def Pending.failed (p : Pending) : Bool := p.accs.any fun a => a.val == some []

/-! ### Performing accesses -/

/-- The key of a byte of the lane-local memory of a group. -/
def laneKey (lane ofs : Nat) : Nat := lane * 1024 + ofs

/-- The key of a byte of a die's weight store. -/
def wsKey (die ofs : Nat) : Nat := die * windowSpan + ofs

/-- Where a group stands (Table 13.2). -/
def State.siteOf (s : State) (gid : Nat) : Site :=
  match (s.group? gid).bind fun g => s.team? g.team with
  | none => { gid := some gid }
  | some t => { gid := some gid, team := t.id, cluster := t.cluster, die := t.die, ctx := t.ctx }

/-- The bytes of a place as a group finds them. -/
def State.readLoc (s : State) (site : Site) (n : Nat) : Loc → List Byte
  | .mem pa => if s.fencedAt pa then [] else s.viewBytes site.gid (.socket site.die) pa n
  | .ws d ofs => (List.range n).map fun i => look 0 s.ws (wsKey d (ofs + i))
  | .tile team ofs => (List.range n).map fun i => s.tileByte site team (ofs + i)
  | .lane g ln ofs =>
    (List.range n).map fun i => ((s.group? g).map fun h => look 0 h.lmem (laneKey ln (ofs + i))).getD 0

/-- The latest write of a byte that a reader finds, if it is on its way. -/
def State.writerOf (s : State) (visible : InWrite → Bool) (a : Nat) : Option InWrite :=
  s.inflight.reverse.find? fun w => visible w && (look? w.cells a).isSome

/-- The release sides that the writers of these bytes stand for. -/
def State.relsOf (s : State) (visible : InWrite → Bool) (a n : Nat) : List Rel :=
  (List.range n).foldl (fun rs i => joinNew rs (((s.writerOf visible (a + i)).map (·.rels)).getD [])) []

/-- The release sides that a read of a place meets (R246). -/
def State.metBy (s : State) (site : Site) (n : Nat) : Loc → List Rel
  | .mem pa => s.relsOf (·.visible site.gid (.socket site.die)) pa n
  | .tile team ofs => s.relsOf (·.visibleTile team site) ofs n
  | _ => []

/-- Whether two places of `n` and `m` bytes overlap. -/
def Loc.overlaps (a : Loc) (n : Nat) (b : Loc) (m : Nat) : Bool :=
  match a, b with
  | .mem x, .mem y => meets x n y m
  | .tile t x, .tile u y => t == u && meets x n y m
  | .lane g l x, .lane h k y => g == h && l == k && meets x n y m
  | _, _ => false

/-- Whether a release side synchronises with an acquire at a scope: each of the two lies within the other's extent
(R246). -/
def Rel.syncs (r : Rel) (me : Site) (sc : Nat) : Bool := Site.holds r.sc r.site me && Site.holds sc me r.site

/-- The launch of a group. -/
def State.lidOf (s : State) (gid : Nat) : Nat :=
  (((s.group? gid).bind fun g => s.team? g.team).map (·.lid)).getD 0

/-- An acquire of a group takes the release sides with which it synchronises: what they carry comes before the group's
later accesses (R246, R247). `scope` is the scope at which it acquires each. -/
def State.take (s : State) (gid : Nat) (scope : Rel → Nat) (rs : List Rel) : State :=
  let met := rs.filter fun r => r.syncs (s.siteOf gid) (scope r)
  s.onGroup gid fun g => { g with seen := s.onWay (g.seen ++ met.flatMap s.idsOf) }

/-- An acquire at a scope (R246). -/
def State.acquire (s : State) (gid sc : Nat) (rs : List Rel) : State := s.take gid (fun _ => sc) rs

/-- A read keeps the release sides that it meets, for an acquire fence (R246, R248). -/
def State.note (s : State) (gid : Nat) (rs : List Rel) : State :=
  if rs.isEmpty then s else s.onGroup gid fun g => { g with notes := (joinNew g.notes rs).filter s.bears? }

/-- A read that has been performed, an acquire at a scope or none, has met release sides. -/
def State.met (s : State) (gid : Nat) (acq : Option Nat) (rs : List Rel) : State :=
  match acq with
  | some sc => (s.note gid rs).acquire gid sc rs
  | none => s.note gid rs

/-- A new write of a group or a command. Its own group alone finds it at first; it takes its place in coherence order as it
arrives (R241, R358). -/
def State.addWrite (s : State) (w : InWrite) : State :=
  let n := s.fresh
  { n.2 with inflight := n.2.inflight ++ [{ w with id := n.1 }] }

/-- The names of the writes that a release of a group carries: its own on their way and those that it has acquired
(R247). -/
def State.carried (s : State) (gid : Nat) (seen : List Nat) : List Nat :=
  (s.inflight.filter fun w => decide (w.site.gid = some gid) || seen.contains w.id).map (·.id)

/-- A write of a group with its place in the launch, the release sides that it stands for (R246), and the overlapping writes
that come before it: the group's own and those that it has acquired (R142, R251). -/
def State.writeOf (s : State) (g : Group) (pc region : W32) (a : Access) (tile : Option Nat) (base : Nat) (bs : List Byte)
    (rels : List Rel) : InWrite :=
  let t := s.team? g.team
  let site := s.siteOf g.id
  let first (w : InWrite) : Bool := !w.placed && w.tile == tile && meets w.base w.len base bs.length &&
    (w.mine site || g.seen.contains w.id)
  { id := 0, site := site, lid := (t.map (·.lid)).getD 0, tile := tile, base := base, len := bs.length
    cells := cellsAt base bs, rels := rels.filter s.bears?, prior := (s.inflight.filter first).map (·.id)
    lane := a.lane, va := a.va, pc := pc, region := region
    pos := (t.map Team.pos).getD 0, groupId := g.groupId, core := (t.map (·.core)).getD 0 }

/-- The coherence-latest bytes (R241). -/
def State.latestBytes (s : State) (pa n : Nat) : List Byte :=
  (List.range n).map fun i =>
    s.inflight.foldl (fun b w => if w.flat && w.placed then (look? w.cells (pa + i)).getD b else b) (Memory.read s.mem (pa + i))

/-- Whether an atomic can be performed at a place now: the writes that come before it can take their places, and no MCA
write of the place waits for its moment (R359, R360). -/
def State.canMeet (s : State) (me : Site) (n : Nat) (l : Loc) : Bool :=
  ((s.due me n l).all fun w => s.canBring w.id) &&
  s.inflight.all fun w => !(w.placed && w.on n l) || (!w.mca && !s.heldBack w)

/-- The writes before an atomic take their places, and those of its place arrive at its die, where it reads the latest of
them (R241, R252); an MCA write that the same instruction has just made keeps waiting for its moment (R359). -/
def State.meet (s : State) (me : Site) (n : Nat) (l : Loc) : State :=
  let s := s.summon me n l
  ((s.inflight.filter fun w => w.placed && !w.mca && !s.heldBack w && w.on n l).map (·.id)).foldl
    (fun s id => s.arrive id [.socket me.die]) s

/-- FADD, FMIN and FMAX of memory: no flush, no flag (R143). -/
def atomFloat (fn old b : Nat) : Nat :=
  let x := fp32.decode old
  let y := fp32.decode b
  if fn = 9 then (fp32.round 0 false false false (x.add 0 y).1).1
  else match choose (fn == 11) x y with
    | none => fp32.canon
    | some true => old
    | some false => b

/-- The new value of an atomic (Table 6.3), or of a CAS, which is function 12; `none` writes nothing (R144). -/
def atomNew (fn n old b cmp : Nat) : Option Nat :=
  let sg := signed (8 * n)
  match fn with
  | 0 => some ((old + b) % 2 ^ (8 * n))
  | 1 => some (if sg old ≤ sg b then old else b)
  | 2 => some (min old b)
  | 3 => some (if sg old ≤ sg b then b else old)
  | 4 => some (max old b)
  | 5 => some (old &&& b)
  | 6 => some (old ||| b)
  | 7 => some (old ^^^ b)
  | 8 => some b
  | 12 => if old = cmp then some b else none
  | _ => some (atomFloat fn old b)

/-- One indivisible access of an atomic (R143, R144), with the release sides that its read meets; its write stands for
them too (R246). An acquire and release first performs at its scope what its own read acquires (R247). -/
def State.atomOne (s : State) (p : Pending) (op : AtomOp) (own : Option Rel) (a : Access) : State × Access × List Rel :=
  match a.loc, s.group? p.gid with
  | .mem pa, some g =>
    let me := s.siteOf p.gid
    let s := s.meet me op.n a.loc
    let old := s.latestBytes pa op.n
    let met := s.relsOf (fun w => w.flat && w.placed) pa op.n
    let gained := if p.acq then (met.filter fun r => r.syncs me p.sc).flatMap s.idsOf else []
    let s := match own with
      | none => s
      | some r => s.performFor r gained
    let ds := (look? p.data a.lane).getD []
    let r := regsFor op.n
    let b := ofLe (dataBytes op.n a.k (ds.take r))
    let cmp := ofLe (dataBytes op.n 0 (ds.drop r))
    let s := match atomNew op.fn op.n (ofLe old) b cmp with
      | none => s
      | some v =>
        let own := own.map fun r => { r with ids := joinNew r.ids (gained ++ [s.nextId]) }
        let w := s.writeOf g p.pc p.region a none pa (leBytes op.n v) (joinNew p.fences met)
        let id := s.nextId
        let s := s.addWrite { w with rels := joinNew own.toList w.rels, mca := op.mca, acq := op.mca, maker := p.id }
        if op.mca then s.place id else s.arrive id [.socket me.die]
    (s, { a with val := some old }, met)
  | _, _ => (s, { a with val := some [] }, [])

/-- Inserts by key. -/
def insertBy (key : Access → Nat) (a : Access) : List Access → List Access
  | [] => [a]
  | b :: bs => if key a ≤ key b then a :: b :: bs else b :: insertBy key a bs

/-- The order of an atomic's accesses: the primal before the tangents (R149), lanes in a free order (R143). -/
def atomOrder (free : Nat) (accs : List Access) : List Access :=
  (List.range 5).flatMap fun k =>
    (accs.filter fun a => a.k = k).foldr (insertBy fun a => Config.laneChoice free (a.lane * 8 + k)) []

/-- A free choice of one element; none is needed where there is only one. -/
def pickOne {α : Type} (free key : Nat) : List α → Option α
  | [] => none
  | [x] => some x
  | xs => xs[Config.laneChoice free key % xs.length]?

/-- The access that a failure names: the first that met an error; one at the landing may strike any of them (R153). -/
def State.failing (s : State) (p : Pending) : Option Access :=
  (p.accs.find? fun a => a.val == some []).orElse fun _ => pickOne s.free p.id p.accs

/-- Whether an access meets a fenced channel (R355), or has no place in memory. -/
def State.lost (s : State) (a : Access) : Bool :=
  match a.loc with
  | .mem pa => s.fencedAt pa
  | _ => true

/-- An atomic that meets an error performs none of its accesses: those on a fenced channel met it, else any one of them
(R153, R355). -/
def State.atomFails (s : State) (p : Pending) : Pending :=
  let hit := if p.accs.any s.lost then p.accs.filter s.lost else (pickOne s.free p.id p.accs).toList
  { p with accs := p.accs.map fun a => { a with val := some (if hit.contains a then [] else List.replicate p.bytes 0) } }

/-- Performs accesses of an atomic, or none where one meets an error (R153). A release first performs what it carries at its
scope (R247), the accesses of the primal and of lower tangents among it (R149); an acquire takes the release sides that it
meets. -/
def State.atomAll (s : State) (p : Pending) (op : AtomOp) (err : Bool) (sel : Access → Bool := fun _ => true) :
    State × Pending :=
  if err || p.accs.any s.lost then ({ s with free := s.free + 1 }, s.atomFails p)
  else
    let s := (p.side.toList ++ p.fences).foldl (fun s r => s.performFor r (s.idsOf r)) s
    let step (x : State × List Access × List Rel × List (Nat × Nat)) (a : Access) :=
      let low := (x.2.2.2.filter fun y => decide (y.1 < a.k)).map (·.2)
      let own := p.side.map fun r => { r with ids := joinNew r.ids low }
      let s := if op.mca then x.1 else own.toList.foldl (fun s r => s.performFor r low) x.1
      let y := s.atomOne p op own a
      (y.1, x.2.1 ++ [y.2.1], joinNew x.2.2.1 y.2.2,
        x.2.2.2 ++ if y.1.nextId = s.nextId then [] else [(a.k, s.nextId)])
    let r := (atomOrder s.free (p.accs.filter fun a => a.val.isNone && sel a)).foldl step (s, [], [], [])
    (State.met { r.1 with free := r.1.free + 1 } p.gid (if p.acq then some p.sc else none) r.2.2.1
     , { p with
        accs := p.accs.map fun a => (r.2.1.find? fun b => b.lane = a.lane ∧ b.k = a.k).getD a
        after := if op.mca then p.after ++ r.2.2.2.map (·.2) else p.after })

/-- Whether accesses of a pending producer can be performed now: each finds its place readable; an atomic also waits for
what its release, or a release fence before it, must perform first (R146, R248). -/
def State.canPerform (s : State) (p : Pending) (sel : Access → Bool := fun _ => true) : Bool :=
  let me := s.siteOf p.gid
  let todo := p.accs.filter fun a => a.val.isNone && sel a
  match p.kind with
  | .atom op =>
    ((p.side.toList ++ p.fences).all fun r => s.readsDone r && (s.idsOf r).all s.canBring)
    && todo.all fun a => s.lost a || s.canMeet me op.n a.loc
  | _ => todo.all fun a => s.canRead me p.bytes a.loc

/-- Fixes the values of accesses of a pending producer, where they can be performed now (R244). -/
def State.performPart (s : State) (id : Nat) (sel : Access → Bool) : State :=
  match s.pend? id with
  | none => s
  | some p =>
    if p.performed || !s.canPerform p sel then s
    else
      let me := s.siteOf p.gid
      let r : State × Pending := match p.kind with
        | .atom op => s.atomAll p op false sel
        | _ =>
          let todo := p.accs.filter fun a => a.val.isNone && sel a
          let s := todo.foldl (fun s a => s.summon me p.bytes a.loc) s
          let met := todo.foldl (fun rs (a : Access) => joinNew rs (s.metBy me p.bytes a.loc)) []
          let fix (a : Access) : Access :=
            if a.val.isNone && sel a then { a with val := some (s.readLoc me p.bytes a.loc) } else a
          (s.met p.gid (if p.acq then some p.sc else none) met, { p with accs := p.accs.map fix })
      { r.1 with pend := r.1.pend.map fun q => if q.id = id then r.2 else q }

/-- Fixes the values of a pending producer's accesses. -/
def State.perform (s : State) (id : Nat) : State := s.performPart id fun _ => true

/-- Performs every pending access of a group, oldest first. -/
def State.performAll (s : State) (gid : Nat) : State :=
  ((s.pend.filter fun p => p.gid = gid).map (·.id)).foldl State.perform s

/-- Whether a producer of a group accesses one of these places of `n` bytes. -/
def Pending.meets (p : Pending) (gid n : Nat) (locs : List Loc) : Bool :=
  decide (p.gid = gid) && p.accs.any fun a => locs.any fun l => a.loc.overlaps p.bytes l n

/-- Performs the pending accesses of a group that overlap places it accesses next (R142). -/
def State.performOver (s : State) (gid n : Nat) (locs : List Loc) : State :=
  ((s.pend.filter fun p => p.meets gid n locs).map (·.id)).foldl State.perform s

/-- The issue continues from a state in which accesses of the group have been performed. -/
def Iss.goOn (i : Iss) (s : State) : Iss := { i with s := s, g := i.kept s }

/-! ### Release sides -/

/-- What a release side carries is performed at its scope (R247): its group's earlier reads, and the writes; `none` where
some of it cannot be performed yet, as an MCA write cannot before its moment (R359). -/
def State.fulfil (s : State) (r : Rel) : Option State :=
  let s := ((s.pend.filter fun p => r.reads.contains p.id).map (·.id)).foldl State.perform s
  if s.readsDone r && (s.idsOf r).all s.canBring then some (s.performFor r (s.idsOf r)) else none

/-- What release sides carry is performed. -/
def State.fulfilAll (s : State) (rs : List Rel) : Option State := rs.foldl (fun o r => o.bind fun s => s.fulfil r) (some s)

/-- A group acquires the arrivals, deliveries and makes that it observes, each at its own scope, once what they carry has been
performed (R196, R208, R278, R378). -/
def State.observe (s : State) (gid : Nat) (rs : List Rel) : Option State :=
  (s.fulfilAll (rs.filter fun r => r.syncs (s.siteOf gid) r.sc)).map fun s => s.take gid Rel.sc rs

/-- An instruction observes arrivals or deliveries. -/
def Iss.observe (i : Iss) (rs : List Rel) : Except Stop Iss :=
  match i.s.observe i.g.id rs with
  | none => i.wait
  | some s => .ok (i.goOn s)

/-! ### Order -/

/-- Whether a producer has yet to acquire: its accesses are not performed, or its estate has not landed (R208). -/
def Pending.acquiring (p : Pending) : Bool :=
  p.acq && match p.kind with
    | .claim .. => true
    | _ => !p.performed

/-- Whether an acquire of the group has yet to be performed, so that its later accesses wait (R146, R359). -/
def Iss.held (i : Iss) : Bool :=
  (i.s.pend.any fun p => decide (p.gid = i.g.id) && p.acquiring)
  || i.s.inflight.any fun w => decide (w.site.gid = some i.g.id) && w.acq

/-- Waits for the group's acquires. -/
def Iss.gate (i : Iss) : Except Stop Unit := if i.held then i.wait else .ok ()

/-- A number for a place, to name a free choice. -/
def Loc.key : Loc → Nat
  | .mem pa => pa
  | .ws _ ofs => ofs
  | .tile _ ofs => ofs
  | .lane _ l ofs => laneKey l ofs

/-- A load meets a write of an engine or of the matrix unit byte by byte (R237, R279): a read of a group that is yet to be
performed may be performed while that write of `n` bytes happens, between `s` and `t`, and finds some bytes before it and
some after it. -/
def State.tear (s t : State) (n : Nat) (l : Loc) : State :=
  let one (t : State) (p : Pending) (a : Access) : State × Access :=
    let me := s.siteOf p.gid
    if a.val.isNone && (!p.acq || p.accs.all fun b => decide (a.k ≤ b.k) || b.val.isSome)
        && a.loc.overlaps p.bytes l n && (Config.laneChoice t.free a.loc.key % 2 == 1)
        && s.canRead me p.bytes a.loc && t.canRead me p.bytes a.loc then
      let t := t.summon me p.bytes a.loc
      let old := (s.summon me p.bytes a.loc).readLoc me p.bytes a.loc
      let new := t.readLoc me p.bytes a.loc
      let byte (x : Byte × Byte × Nat) : Byte := if Config.laneChoice (t.free + 1) (a.loc.key + x.2.2) % 2 = 1 then x.2.1 else x.1
      (t.met p.gid (if p.acq then some p.sc else none) (t.metBy me p.bytes a.loc),
        { a with val := some ((old.zip (new.zip (List.range old.length))).map byte) })
    else (t, a)
  let load (p : Pending) : Bool := p.kind == .load || p.kind == .ldq
  if !t.pend.any fun p => load p && p.accs.any fun a => a.val.isNone && a.loc.overlaps p.bytes l n then t
  else
    let t := (t.pend.filter load).foldl (fun t p =>
      let r := p.accs.foldl (fun (x : State × List Access) a =>
        let y := one x.1 p a
        (y.1, x.2 ++ [y.2])) (t, [])
      { r.1 with pend := r.1.pend.map fun q => if q.id = p.id then { q with accs := r.2 } else q }) t
    { t with free := t.free + 2 }

/-- Every earlier access of the group that overlaps places it accesses next is performed; the instruction waits where one
cannot be yet (R142). -/
def Iss.over (i : Iss) (n : Nat) (locs : List Loc) : Except Stop Iss :=
  let s := i.s.performOver i.g.id n locs
  if s.pend.any fun p => p.meets i.g.id n locs && !p.performed then i.wait else .ok (i.goOn s)

/-- Every earlier read of the group is performed; the instruction waits where one cannot be yet. -/
def Iss.readAll (i : Iss) : Except Stop Iss :=
  let s := i.s.performAll i.g.id
  if s.pend.any fun p => decide (p.gid = i.g.id) && !p.performed then i.wait else .ok (i.goOn s)

/-- The release side that a group stands for now, at a scope (R246). -/
def State.sideOf (s : State) (gid : Nat) (seen : List Nat) (sc : Nat) : Rel :=
  { site := s.siteOf gid, sc := sc, ids := s.carried gid seen
    reads := (s.pend.filter fun p => decide (p.gid = gid) && !p.performed).map (·.id) }

/-- The release side that an instruction of the group stands for (R246). -/
def Iss.side (i : Iss) (sc : Nat) : Rel := i.s.sideOf i.g.id i.g.seen sc

/-- A release that is no access of memory, at a scope (R146, R247): what stands for it is performed before an agent observes
it, and the group's later accesses do not wait for that. -/
def Iss.release (i : Iss) (sc : Nat) : Except Stop Rel := do
  i.gate
  .ok (i.side sc)

/-- Everything before a null atomic with OR 3 is performed at its scope now (R248). It waits for the group's MCA writes and for
writes held back by one (R359, R360). -/
def Iss.settle (i : Iss) (sc : Nat) : Except Stop Iss :=
  match i.s.fulfil (i.side sc) with
  | none => i.wait
  | some s => .ok (i.goOn s)

/-- A release fence: later writes of the group stand for it (R246, R248). -/
def Iss.fenceOut (i : Iss) (sc : Nat) : Iss :=
  { i with g := { i.g with fences := (i.g.fences ++ [i.side sc]).filter i.s.bears? } }

/-- An acquire fence: every earlier read is performed, and the release sides that they met are taken (R246, R248). -/
def Iss.fenceIn (i : Iss) (sc : Nat) : Except Stop Iss := do
  let i ← i.readAll
  .ok (i.goOn (i.s.acquire i.g.id sc i.g.notes))

/-! ### Addresses -/

/-- The source fields of a base pair (R137). -/
def baseFields (a : Opnd) : List Field := if a = .zr then [] else (a.range 2).map fun o => ⟨o, false⟩

/-- The 64-bit base of a lane (R137). -/
def Iss.base (i : Iss) (a : Opnd) (lane : Nat) : Nat :=
  if a = .zr then 0
  else pairNat (i.g.datum lane a).val (((a.range 2).tail.head?.map fun o => (i.g.datum lane o).val).getD 0)

/-- The effective address (R137). -/
def Iss.va (i : Iss) (a : Opnd) (ofs : Int) (lane : Nat) : Nat :=
  (((i.base a lane : Int) + ofs) % 2 ^ 64).toNat

/-- Address of each access of a lane: the primal, then the tangents (R149). -/
def Iss.spread (i : Iss) (m tans : Nat) (addr : Nat → Nat) : List (Nat × Nat × Nat) :=
  i.ex.flatMap fun lane => (List.range (tans + 1)).map fun k =>
    (lane, k, (addr lane + k * i.g.tanStride.toNat) % m)

/-- What the checks find for one access. -/
structure Checked where
  acc : Access
  cause : Option CauseRec := none
  /-- the leaf of a write that translates (R326) -/
  pte : Option Nat := none
  /-- the page that no TLB entry covers -/
  miss : Option Nat := none
  /-- a translation of the die's TLB that the core's TLB lacks -/
  fill : Option TlbEnt := none
  deriving DecidableEq, Repr

/-- The entry of a TLB, of a core or of a die (R327). -/
def State.tlbEntry (s : State) (die : Nat) (core : Option Nat) (ctx page : Nat) : Option TlbEnt :=
  s.tlb.find? fun e => decide (e.die = die ∧ e.core = core ∧ e.ctx = ctx ∧ e.page = page)

/-- A translation enters a TLB in place of one of its page; a full TLB, of 64 entries at a core and 8,192 at a die, gives
up any of its entries (R327). -/
def State.tlbFill (s : State) (e : TlbEnt) : State :=
  let own (x : TlbEnt) : Bool := decide (x.die = e.die ∧ x.core = e.core)
  let rest := s.tlb.filter fun x => !(own x && decide (x.ctx = e.ctx ∧ x.page = e.page))
  let mine := rest.filter own
  if mine.length < (if e.core.isSome then 64 else 8192) then { s with tlb := rest ++ [e] }
  else
    let out := pickOne s.free e.page mine
    { s with tlb := rest.filter (some · ≠ out) ++ [e], free := s.free + 1 }

/-- The translation of a page from the core's TLB or the die's, or by the walk that served the group's miss; `none` is a
miss. -/
def Iss.leafOf (i : Iss) (k : Kind) (va : Nat) : Option (Except (BitVec 8) Leaf) :=
  let page := va / 65536
  match i.s.tlbEntry i.t.die (some i.t.core) i.t.ctx page <|> i.s.tlbEntry i.t.die none i.t.ctx page with
  | some e => some (.ok ⟨e.pa, e.w, e.x, e.usr, e.pte⟩)
  | none => if i.g.walked.contains page then some (i.s.walk (.socket i.t.die) i.c.desc k va) else none

/-- What the core's TLB takes from the die's (R327). -/
def Iss.fillOf (i : Iss) (va : Nat) : Option TlbEnt :=
  if (i.s.tlbEntry i.t.die (some i.t.core) i.t.ctx (va / 65536)).isSome then none
  else (i.s.tlbEntry i.t.die none i.t.ctx (va / 65536)).map fun e => { e with core := some i.t.core }

/-- Checks one flat access (R137, R139, R226, R325). -/
def Iss.checkFlat (i : Iss) (k : Kind) (n : Nat) (x : Nat × Nat × Nat) : Checked :=
  let va := x.2.2
  let acc : Access := { lane := x.1, k := x.2.1, loc := .mem 0, va := BitVec.ofNat 64 va }
  let cause (c : BitVec 8) : Option CauseRec :=
    some { code := c, lane := x.1, space := 0, addr := BitVec.ofNat 64 va }
  let align := va % n ≠ 0
  let pick (c : BitVec 8) : Option CauseRec := if align then cause 0x03 else cause c
  let ws := i.c.desc.ws.getD i.t.die (0, 0)
  if !canonical va then { acc := acc, cause := pick k.pgCause }
  else if ws.2 ≠ 0 ∧ windowBase ≤ va ∧ va < windowBase + windowSpan then
    let o := va - windowBase
    let acc := { acc with loc := .ws i.t.die (ws.1 * 65536 + o) }
    if k = .write then { acc := acc, cause := pick 0x13 }
    else if ws.2 * 65536 < o + n then { acc := acc, cause := pick 0x12 }
    else { acc := acc, cause := if align then cause 0x03 else none }
  else match i.leafOf k va with
    | none => { acc := acc, miss := some (va / 65536) }
    | some (.error c) => { acc := acc, cause := pick c }
    | some (.ok l) => match i.s.leafCheck i.c.desc ⟨i.c.priv, false, none⟩ k va n l with
      | .error c => { acc := acc, cause := pick c, fill := i.fillOf va }
      | .ok pa => { acc := { acc with loc := .mem pa }, cause := if align then cause 0x03 else none
                    pte := if k = .write then some l.pte else none, fill := i.fillOf va }

/-- Checks one access of a space with a limit (R232): `mk` places it, `space` tags a failure. -/
def checkLimit (space limit n : Nat) (mk : Nat → Nat → Loc) (x : Nat × Nat × Nat) : Checked :=
  let o := x.2.2
  let cause (c : BitVec 8) : Option CauseRec :=
    some { code := c, lane := x.1, space := space, addr := BitVec.ofNat 64 o }
  { acc := { lane := x.1, k := x.2.1, loc := mk x.1 o, va := BitVec.ofNat 64 o }
    cause := if o % n ≠ 0 then cause 0x03 else if limit < o + n then cause 0x12 else none }

/-- Queues the walk of a page that a group waits for; a queued page serves every waiter, and the queue of a die holds
512 pages (R327). -/
def State.queueWalk (s : State) (die ctx gid page : Nat) : State :=
  let same (w : Walk) : Bool := decide (w.die = die ∧ w.ctx = ctx ∧ w.page = page)
  if s.walks.any same then
    { s with walks := s.walks.map fun (w : Walk) =>
        if same w ∧ gid ∉ w.waiters then { w with waiters := w.waiters ++ [gid] } else w }
  else if (s.walks.filter fun w => w.die = die).length < 512 then { s with walks := s.walks ++ [⟨die, ctx, page, [gid]⟩] }
  else s

/-- A group waits for the walks of its missing pages, or for room in the walk queue (R327). -/
def Iss.waitWalks (i : Iss) (pages : List Nat) : Stop :=
  let s := pages.foldl (fun s p => s.queueWalk i.t.die i.t.ctx i.g.id p) i.s
  let queued (p : Nat) : Bool := s.walks.any fun w => decide (w.die = i.t.die ∧ w.ctx = i.t.ctx ∧ w.page = p)
  .stall s (if pages.all queued then .walk else .blocked)

/-- The result of the checks over all lanes: the group waits for walks; D is set for each lane whose write translates
(R326); the cause of highest rank, of the lowest lane (R139, R311); or the accesses. -/
def Iss.judge (i : Iss) (cs : List Checked) : Except Stop (Iss × List Access) :=
  let pages := cs.filterMap (·.miss)
  let i : Iss := { i with s := (cs.filterMap Checked.fill).foldl State.tlbFill i.s }
  if !pages.isEmpty then .error (i.waitWalks pages)
  else
    let s := (cs.filterMap (·.pte)).foldl State.setDirty i.s
    match topCause (cs.filterMap (·.cause)) with
    | some c => .error (.cause s c)
    | none => .ok ({ i with s := s }, cs.map (·.acc))

/-- R13 against the address causes that outrank it (R311): with a register out of bounds, an address formed from a
readable base may still raise ALIGN, PGRD or PGWR. -/
def Iss.bounded (i : Iss) (base : List Field) (os : List Opnd)
    (prep : Unit → Except Stop (Iss × List Access)) : Except Stop Unit :=
  let readable := base.all fun f => i.inBounds f.o && i.ex.all fun lane => i.g.isFull lane 0 f.o
  if os.all i.inBounds then .ok ()
  else if readable then
    match prep () with
    | .error (.stall s w) => .error (.stall s w)
    | .error (.cause s c m) =>
      if causeRank c.code < 5 then .error (.cause s c m) else .error (.cause s { code := 0x12, lane := i.outLane os })
    | .ok r => .error (.cause r.1.s { code := 0x12, lane := i.outLane os })
  else i.cause 0x12 (i.outLane os)

/-! ### Loads and stores -/

/-- A load or LDQ (R140, R150): its accesses are performed later, and its value lands later still. It waits for its
destination, a queue's room among it, before the checks of R139 (log 36). -/
def Iss.load (i : Iss) (kind : PendKind) (base : List Field) (d : Opnd) (n : Nat) (acq : Bool) (sc : Nat)
    (prep : Iss → Except Stop (Iss × List Access)) : Except Stop Done := do
  let dsts := d.range (regsFor n)
  i.bounded base (base.map (·.o) ++ dsts) fun _ => prep i
  i.ready base dsts
  i.gate
  let r ← prep i
  let i ← r.1.over n (r.2.map (·.loc))
  let f := i.s.fresh
  let p : Pending := { id := f.1, gid := i.g.id, pc := i.g.pc32, region := i.g.regionCnt, kind := kind, dst := d
                       uni := i.uni, bytes := n, lanes := i.ex, accs := r.2, acq := acq, sc := sc }
  .ok { s := { f.2 with pend := f.2.pend ++ [p] }, g := i.g.expect f.1 (regsFor n) d i.ex (kind == .ldq) }

/-- Of the accesses of a store to one place, one lane's remains (R141). -/
def winners (free : Nat) (accs : List Access) : List Access :=
  (List.range 5).flatMap fun k =>
    let ks := accs.filter fun a => a.k = k
    ks.filter fun a => pickOne free a.loc.key ((ks.filter fun b => b.loc = a.loc).map (·.lane)) == some a.lane

/-- Performs one access of a store; `rel` is the release side that it is, if it is one. -/
def Iss.put (i : Iss) (mca : Bool) (rel : Option Rel) (a : Access) (bs : List Byte) : Iss :=
  let write (base : Nat) (tile : Option Nat) : Iss :=
    let own := rel.map fun r => { r with ids := r.ids ++ [i.s.nextId] }
    let w := i.s.writeOf i.g i.g.pc32 i.g.regionCnt a tile base bs (i.g.fences)
    { i with s := i.s.addWrite { w with mca := mca, rels := own.toList ++ w.rels } }
  match a.loc with
  | .mem pa => write pa none
  | .tile team ofs => write ofs (some team)
  | .lane _ ln ofs =>
    { i with g := { i.g with lmem := (cellsAt (laneKey ln ofs) bs).foldl (fun m c => keep 0 m c.1 c.2) i.g.lmem } }
  | .ws _ _ => i

/-- The accesses of a store, primals first and then the tangents in order: a release carries those before it (R149). -/
def Iss.putAll (i : Iss) (mca : Bool) (rel : Option Nat) (accs : List Access) (bytes : Access → List Byte) : Iss :=
  (List.range 5).foldl (fun i k =>
    let side := rel.map i.side
    (accs.filter fun a => a.k = k).foldl (fun i a => i.put mca side a (bytes a)) i) i

/-- The report of an uncorrectable error in data that a store overwrites in part (R153, R238): any of its accesses may
have met it. -/
def Iss.reportEcc (i : Iss) (space : Nat) (accs : List Access) : Iss :=
  if !i.s.ecc then i
  else match pickOne i.s.free i.s.nextId accs with
    | none => i
    | some a =>
      let c : CauseRec := { code := 0x31, ih := i.g.inHandler, lane := a.lane, space := space, addr := a.va
                            pc := i.g.pc32 }
      { i with s := State.post { i.s with free := i.s.free + 1 } i.t.ctx (groupPosting i.g i.t i.l false c) }

/-- A store whose report finds no room in the fault record waits (R318). -/
def Iss.roomFor (i j : Iss) : Except Stop Unit := if i.s.postedBy i.t.ctx j.s then .ok () else i.wait

/-- A store of a group to a fenced channel raises MEMERR at once (R312, R355): a store is no long-latency producer. -/
def Iss.checkFence (i : Iss) (accs : List Access) : Except Stop Unit :=
  match accs.find? fun a => match a.loc with
    | .mem pa => i.s.fencedAt pa
    | _ => false with
  | none => .ok ()
  | some a => .error (.cause i.s { code := 0x31, lane := a.lane, space := 0, addr := a.va })

/-- A store (R141): data read at issue; a release arrives nowhere before what precedes it has been performed (R146). -/
def Iss.store (i : Iss) (base : List Field) (d : Opnd) (n space : Nat) (mca : Bool) (rel : Option Nat)
    (prep : Iss → Except Stop (Iss × List Access)) : Except Stop Done := do
  let srcs := d.range (regsFor n)
  i.bounded base (base.map (·.o) ++ srcs) fun _ => prep i
  i.ready (base ++ srcs.map fun o => ⟨o, false⟩) []
  i.gate
  let r ← prep i
  r.1.checkFence r.2
  let i ← r.1.over n (r.2.map (·.loc))
  let data := i.g.gather srcs i.ex
  let i := { i with g := data.2, s := { i.s with free := i.s.free + 1 } }
  let i := i.putAll mca rel (winners (i.s.free - 1) r.2) fun a =>
    dataBytes n a.k (if d = .zr then List.replicate 4 {} else (look? data.1 a.lane).getD [])
  let j := i.reportEcc space r.2
  r.1.roomFor j
  .ok { s := j.s, g := j.g, region := rel.isSome }

/-- The tangents that an access of a memory instruction moves (R149, R235). -/
def Iss.memTans (i : Iss) (p : Option Dual) : Nat := if i.tm p then i.tans p else 0

/-- Bytes of an access (R137). -/
def szBytes (sz : BitVec 3) : Nat := 2 ^ sz.toNat

/-- The checks of a flat access over all lanes and tangents. -/
def Iss.flat (i : Iss) (k : Kind) (n tans : Nat) (a : Opnd) (ofs : Int) : Except Stop (Iss × List Access) :=
  i.judge ((i.spread (2 ^ 64) tans (i.va a ofs)).map (i.checkFlat k n))

/-- The order fields (R146). -/
def isAcq (ord : BitVec 2) : Bool := ord.getLsbD 0
def isRel (ord : BitVec 2) : Bool := ord.getLsbD 1

/-- Whether a write is an MCA write (R357). -/
def mcaWrite (mca : Bool) (sc : BitVec 3) : Bool := mca && decide (4 ≤ sc.toNat)

end Sys2Proof.Machine
end

