-- ==== Sys2Proof/Machine/Mem.lean ====
section
/-! DEFINITION. Memory and queue instructions: flat memory (spec/06 R136 to R154), tile, lane-local and weight-store
accesses (spec/12 R226 to R238). -/

namespace Sys2Proof.Machine

/-! ### Flat memory -/

/-- LD (R140). -/
def execLd (p : Option Dual) (w : FmtM) (s : State) : Res :=
  issue s (dualSize p) w.g w.u fun i =>
    let n := szBytes w.sz
    i.load .load (baseFields w.a) w.d n (isAcq w.ord) w.sc.toNat fun i => i.flat .read n (i.memTans p) w.a w.ofs.toInt

/-- LDQ (R150). -/
def execLdq (p : Option Dual) (w : FmtM) (s : State) : Res :=
  issue s (dualSize p) w.g w.u fun i =>
    let n := szBytes w.sz
    i.load .ldq (baseFields w.a) w.d n (isAcq w.ord) w.sc.toNat fun i => i.flat .read n (i.memTans p) w.a w.ofs.toInt

/-- ST (R141). -/
def execSt (p : Option Dual) (w : FmtM) (s : State) : Res :=
  issue s (dualSize p) w.g w.u fun i =>
    let n := szBytes w.sz
    i.store (baseFields w.a) w.d n 0 (mcaWrite w.mca w.sc) (if isRel w.ord then some w.sc.toNat else none)
      fun i => i.flat .write n (i.memTans p) w.a w.ofs.toInt

/-- A null atomic (R145, R248): an order without an access. One with OR 3 first performs every earlier read and takes what
they met, and then performs every earlier access at its scope, so that nothing later comes before it. -/
def Iss.nullAtomic (i : Iss) (w : FmtMA) : Except Stop Done := do
  i.ready (baseFields w.a) []
  i.gate
  let sc := w.sc.toNat
  let i ← if isAcq w.ord then i.fenceIn sc else .ok i
  let i ← if isAcq w.ord && isRel w.ord then i.settle sc else .ok i
  let i := if isRel w.ord then i.fenceOut sc else i
  .ok { s := i.s, g := i.g, region := true }

/-- The data of a register range; ZR stands for zeros (R138). -/
def rangeData (o : Opnd) (n : Nat) (ds : List Datum) : List Datum × List Datum :=
  if o = .zr then (List.replicate n {}, ds.drop 1) else (ds.take (o.range n).length, ds.drop (o.range n).length)

/-- ATOM and CAS (R143, R144): performed at once where nothing lands or the write is an MCA write, else until landing. -/
def Iss.atomic (i : Iss) (w : FmtMA) (fn tans : Nat) : Except Stop Done := do
  let n := szBytes w.sz
  let r := regsFor n
  let dsts := w.d.range r
  let bs := w.b.range r
  let cmp := if fn = 12 then dsts else []
  let prep (i : Iss) := i.flat .write n tans w.a w.ofs.toInt
  i.bounded (baseFields w.a) ((baseFields w.a).map (·.o) ++ bs ++ dsts) fun _ => prep i
  i.ready (baseFields w.a ++ (bs ++ cmp).map fun o => ⟨o, false⟩) dsts
  i.gate
  let c ← prep i
  let op : AtomOp := ⟨fn, n, mcaWrite w.mca w.sc⟩
  let now := decide (w.d = .zr) || op.mca
  let i ← c.1.over n (c.2.map (·.loc))
  let i ← if now && isRel w.ord then i.readAll else .ok i
  let read := i.g.gather (bs ++ cmp) i.ex
  let data := read.1.map fun x =>
    let b := rangeData w.b r x.2
    (x.1, b.1 ++ if fn = 12 then (rangeData w.d r b.2).1 else [])
  let f := i.s.fresh
  let p : Pending := { id := f.1, gid := i.g.id, pc := i.g.pc32, region := i.g.regionCnt, kind := .atom op, dst := w.d
                       uni := i.uni, bytes := n, lanes := i.ex, accs := c.2, data := data, acq := isAcq w.ord, sc := w.sc.toNat
                       side := if isRel w.ord then some (i.side w.sc.toNat) else none, fences := i.g.fences }
  if now then
    if !i.s.canPerform p then i.wait
    else
      let a := f.2.atomAll p op f.2.ecc
      let i := { i with g := read.2 }.goOn a.1
      if w.d = .zr then
        let failed : List CauseRec := (if a.2.failed then (i.s.failing a.2).toList else []).map fun x =>
          { code := 0x31, lane := x.lane, space := 0, addr := x.va, pc := i.g.pc32, region := i.g.regionCnt
            ih := i.g.inHandler }
        .ok { s := i.s, g := { i.g with async := i.g.async ++ failed }, region := true }
      else
        .ok { s := { i.s with pend := i.s.pend ++ [a.2] }, g := i.g.expect f.1 r w.d i.ex, region := true }
  else
    .ok { s := { f.2 with pend := f.2.pend ++ [p] }, g := read.2.expect f.1 r w.d i.ex, region := true }

/-- ATOM (R143); tangents only with FN 9 (R149). -/
def execAtom (p : Option Dual) (w : FmtMA) (s : State) : Res :=
  issue s (dualSize p) w.g w.u fun i =>
    if w.d = .zr ∧ w.b = .zr ∧ (w.fn = 0 ∨ w.fn = 6 ∨ w.fn = 7) then i.nullAtomic w
    else i.atomic w w.fn.toNat (if w.fn = 9 then i.memTans p else 0)

/-- CAS (R144). -/
def execCas (w : FmtMA) (s : State) : Res := issue s 8 w.g w.u fun i => i.atomic w 12 0

/-! ### Prefetch and queue configuration -/

/-- PFD (R152): caches of data hold no state of their own, so it waits for its base and has no other effect (log 13). -/
def execPfd (w : FmtM) (s : State) : Res :=
  issue s 8 w.g w.u fun i => do
    i.ready (baseFields w.a) []
    .ok { s := i.s, g := i.g }

/-- Whether the line of code at an address can be fetched: it is mapped executable, outside the weight store window, and
reachable (R152, R192, R325). -/
def Iss.codeAt (i : Iss) (va : Nat) : Bool :=
  !((i.c.desc.ws.getD i.t.die (0, 0)).2 != 0 && decide (windowBase ≤ va ∧ va < windowBase + windowSpan)) &&
  match i.s.translate (.socket i.t.die) i.c.desc ⟨i.c.priv, false, none⟩ .fetch va 4 with
  | .error _ => false
  | .ok pa => !i.s.fencedAt pa

/-- Lines of a cluster's instruction cache that prefetches name: each may be fetched, or dropped (R152, log 13). -/
def State.prefetchLines : List (Nat × Nat) → State → State
  | [], s => s
  | x :: xs, s =>
    State.prefetchLines xs { s with
      free := s.free + 1
      icache := if Config.freeBit s.free && !s.icache.contains x then s.icache ++ [x] else s.icache }

/-- PFI (R152). -/
def execPfi (w : FmtM) (s : State) : Res :=
  issue s 8 w.g w.u fun i => do
    i.ready (baseFields w.a) []
    let vas := (i.ex.map fun lane => i.va w.a w.ofs.toInt lane).filter i.codeAt
    .ok { s := i.s.prefetchLines (vas.map fun va => (i.t.cluster, va / 128)), g := i.g }

/-- The depths of the other queues of a lane. -/
def Group.otherDepths (g : Group) (lane n : Nat) : Nat :=
  ((List.range 16).filter (· ≠ n)).foldl (fun x k => x + (g.queue lane k).depth) 0

/-- QCFG (R151): the depths are checked before it waits for reserved entries (log 36). -/
def execQcfg (w : FmtB) (s : State) : Res :=
  issue s 8 w.g w.u fun i =>
    match w.d with
    | .q n => do
      let deep := i.ex.find? fun lane => decide (i.l.queueTotal < i.g.otherDepths lane n.toNat + w.imm.toNat)
      i.check deep.isNone 0x12 (deep.getD 0)
      let open_ := i.ex.any fun lane => (i.g.queue lane n.toNat).entries.any fun e => e.landed?.isNone
      if open_ then i.wait
      else
        .ok { s := i.s, g := i.ex.foldl (fun g lane =>
          g.setQueue lane n.toNat { g.queue lane n.toNat with depth := w.imm.toNat, entries := [] }) i.g }
    | _ => i.cause 0x01

/-! ### Tile memory -/

/-- The team on the core at a core offset, of the same cluster (R194, R233): `b` holds signed row and column offsets. DESIGN
CHOICE (log 36): a core of the cluster whose team has retired names no team, so that the instruction faults PROT; R194 asks
only that the core belong to the cluster. -/
def State.clusterTeam (s : State) (t : Team) (b : W32) : Option Team :=
  let row := (t.core / 16 : Nat) + signed 8 (bitsOf b.toNat 8 8)
  let col := (t.core % 16 : Nat) + signed 8 (bitsOf b.toNat 0 8)
  if 0 ≤ row ∧ 0 ≤ col ∧ col < 16 then
    s.teams.find? fun u => u.cluster = t.cluster ∧ (u.core : Int) = row * 16 + col
  else none

/-- The team that a core-offset operand names; ZR names the group's own (R194, R233). -/
def Iss.coreTeam (i : Iss) (b : Opnd) : Option Team :=
  if b = .zr then some i.t else i.s.clusterTeam i.t (i.g.datum 0 b).val

/-- The source fields of a tile or lane-local access: the low base register and the core offset (R232, R233). -/
def chipFields (a b : Opnd) : List Field := (if a = .zr then [] else [⟨a, false⟩]) ++ if b = .zr then [] else [⟨b, false⟩]

/-- The tile or lane offset of a lane (R232). -/
def Iss.chipAddr (i : Iss) (a : Opnd) (ofs : Int) (lane : Nat) : Nat :=
  ((((i.g.datum lane a).val.toNat : Int) + ofs) % 2 ^ 32).toNat

/-- The checks of a tile access (R232, R233): with no team of the cluster at the offset, nothing lies in bounds. -/
def Iss.tileAccess (i : Iss) (p : Option Dual) (w : FmtM) : Except Stop (Iss × List Access) :=
  let n := szBytes w.sz
  let t := i.coreTeam w.b
  let limit := if t.isSome then i.l.tileUnits * 256 else 0
  let team := (t.map (·.id)).getD 0
  i.judge ((i.spread (2 ^ 64) (i.memTans p) (i.chipAddr w.a w.ofs.toInt)).map
    (checkLimit 1 limit n fun _ o => .tile team o))

/-- The checks of a lane-local access (R232). -/
def Iss.laneAccess (i : Iss) (p : Option Dual) (w : FmtM) : Except Stop (Iss × List Access) :=
  i.judge ((i.spread (2 ^ 64) (i.memTans p) (i.chipAddr w.a w.ofs.toInt)).map
    (checkLimit 2 i.l.laneBytes (szBytes w.sz) fun lane o => .lane i.g.id lane o))

/-- The checks of LDW (R232). -/
def Iss.windowAccess (i : Iss) (p : Option Dual) (w : FmtM) : Except Stop (Iss × List Access) :=
  let ws := i.c.desc.ws.getD i.t.die (0, 0)
  let ofs (lane : Nat) : Nat := (i.va w.a w.ofs.toInt lane + 2 ^ 64 - windowBase) % 2 ^ 64
  i.judge ((i.spread (2 ^ 64) (i.memTans p) ofs).map
    (checkLimit 3 (ws.2 * 65536) (szBytes w.sz) fun _ o => .ws i.t.die (ws.1 * 65536 + o)))

/-- LDT (R234). -/
def execLdt (p : Option Dual) (w : FmtM) (s : State) : Res :=
  issue s (dualSize p) w.g w.u fun i =>
    i.load .load (chipFields w.a w.b) w.d (szBytes w.sz) (isAcq w.ord) w.sc.toNat fun i => i.tileAccess p w

/-- STT (R234). -/
def execStt (p : Option Dual) (w : FmtM) (s : State) : Res :=
  issue s (dualSize p) w.g w.u fun i =>
    i.store (chipFields w.a w.b) w.d (szBytes w.sz) 1 false (if isRel w.ord then some w.sc.toNat else none)
      fun i => i.tileAccess p w

/-- LDL (R234). -/
def execLdl (p : Option Dual) (w : FmtM) (s : State) : Res :=
  issue s (dualSize p) w.g w.u fun i =>
    i.load .load (chipFields w.a .zr) w.d (szBytes w.sz) false 0 fun i => i.laneAccess p w

/-- STL (R234). -/
def execStl (p : Option Dual) (w : FmtM) (s : State) : Res :=
  issue s (dualSize p) w.g w.u fun i =>
    i.store (chipFields w.a .zr) w.d (szBytes w.sz) 2 false none fun i => i.laneAccess p w

/-- LDW (R226, R234). -/
def execLdw (p : Option Dual) (w : FmtM) (s : State) : Res :=
  issue s (dualSize p) w.g w.u fun i =>
    i.load .load (baseFields w.a) w.d (szBytes w.sz) false 0 fun i => i.windowAccess p w

end Sys2Proof.Machine
end

