-- ==== Sys2Proof/Machine/Estate.lean ====
section
/-! DEFINITION. EXIT, EXIT.E and CLAIM: lanes that leave, and estates (spec/08 R173 to R175, spec/10 R202 to R213). -/

namespace Sys2Proof.Machine

/-! ### Leaving (R174) -/

/-- Whether a producer lands in registers or queues of lanes, not only in a group-wide register (R174, step 1). -/
def Pending.lanewise (p : Pending) : Bool :=
  match p.kind, p.dst with
  | .claim .., _ => true
  | _, .s _ => false
  | _, .zr => false
  | _, _ => true

/-- Whether the exiting lanes are the last that remain in the group. -/
def Iss.lastLanes (i : Iss) : Bool :=
  let base := (i.g.saved.getD i.g.ctl).alive
  base &&& ~~~(laneMask i.ex) == 0

/-- Whether the exiting lanes are the last of a team whose matrix operations have not all completed (R281). -/
def Iss.matrixBusy (i : Iss) : Bool :=
  let c := i.s.coreSt (coreKey i.t.die i.t.core)
  i.lastLanes && !(i.s.groups.any fun g => decide (g.team = i.t.id ∧ g.id ≠ i.g.id))
    && (c.mq0 ++ c.mq1).any fun m => decide (m.team = i.t.id)

/-- The waits of R174, step 1, and of R281. -/
def Iss.waitProducers (i : Iss) : Except Stop Unit :=
  if i.matrixBusy || i.s.pend.any fun p => decide (p.gid = i.g.id) &&
      ((p.lanewise && p.lanes.any i.ex.contains) || (i.lastLanes && !(p.dst == .zr && !p.lanewise)))
  then i.wait else .ok ()

/-- One exit status enters the reductions of the launch (R175). -/
def Reduce.exit (r : Reduce) (st : BitVec 8) : Reduce :=
  { r with maxSt := max r.maxSt st.toNat, orSt := r.orSt ||| st, nonzero := r.nonzero + (if st = 0 then 0 else 1)
           exited := r.exited + 1 }

/-- Steps 2 to 4 of R174: statuses, removal of the lanes from every mask, the end of the group. DEDUCED (log 16):
where all lanes of a handler leave and others remain, the interrupted path goes on as at TRET. -/
def Iss.leave (i : Iss) (s : State) (g : Group) (statuses : List (Nat × BitVec 8)) (region : Bool) : Done :=
  let s := s.onLaunch i.l.id fun l => { l with red := statuses.foldl (fun r x => r.exit x.2) l.red }
  let gone := laneMask i.ex
  let g : Group := { g with
                    ctl := g.ctl.removeLanes gone, saved := g.saved.map fun c => c.removeLanes gone
                    recorded := g.recorded.removeLanes gone }
  let s := if i.lastLanes then s.retireGroup g.id else s
  match g.inHandler && decide (g.ctl.alive = 0), g.saved with
  | true, some ctl => { s := s, g := leaveTrap g ctl, next := .jump g.resumePc }
  | _, _ => { s := s, g := g, next := if g.ctl.mask = 0 then .jump i.after else .fall, region := region }

/-- The exit status of each lane (R173). -/
def exitStatuses (a : Src) (xs : List (Nat × List Datum)) : List (Nat × BitVec 8) :=
  (laneWords a xs).map fun x => (x.1, x.2.setWidth 8)

/-- EXIT (R173, R174). -/
def execExit (w : FmtA) (s : State) : Res :=
  issue s 8 w.g w.u fun i => do
    i.ready [w.a.field] []
    i.waitProducers
    let r := i.g.gather [w.a.o] i.ex
    .ok (i.leave i.s r.2 (exitStatuses w.a r.1) false)

/-! ### Estates -/

/-- Bytes of an estate record (R205). -/
def EstateRec.size (e : EstateRec) : Nat := (16 + 4 * e.prim.length * (1 + e.tans.length) + 15) / 16 * 16

/-- The bytes of an estate record with the CAUSE field of the log (R205, Table 10.1). -/
def EstateRec.bytes (e : EstateRec) (cause ttl : Nat) (zeroed : Bool) : List Byte :=
  let hi := ttl + e.makerSeq % 256 * 2 ^ 8 + e.core * 2 ^ 16 + e.die * 2 ^ 24 + cause * 2 ^ 40
  let lo := e.ident + e.chain * 2 ^ 40 + (e.prim.length - 1) * 2 ^ 56 + e.tans.length * 2 ^ 60
  let body := (e.prim ++ e.tans.flatten).flatMap fun x => leBytes 4 (if zeroed then 0 else x.toNat)
  leBytes 8 lo ++ leBytes 8 hi ++ body ++ List.replicate (e.size - 16 - body.length) 0

/-- Sizes of the core store and the die area (R209). -/
abbrev coreStoreBytes : Nat := 16384
abbrev dieAreaBytes : Nat := 2097152

/-- Bytes that estates take. -/
def bytesOf (es : List Estate) : Nat := es.foldl (fun n e => n + e.body.size) 0

/-- The oldest estate, by time of making (R210). -/
def oldest : List Estate → Option Estate
  | [] => none
  | e :: es => match oldest es with
    | none => some e
    | some f => if e.order ≤ f.order then some e else some f

/-- Moves one estate to a level. -/
def moveTo (es : List Estate) (order : Nat) (l : EstLevel) : List Estate :=
  es.map fun e => if e.order = order then { e with level := l } else e

def inDie (die : Nat) (e : Estate) : Bool := e.level == .die die
def inGddr (ctx : Nat) (e : Estate) : Bool := decide (e.ctx = ctx) && match e.level with
  | .gddr _ => true
  | _ => false

/-- Makes room in a die area for `need` bytes of a context: its oldest estates there go to the context's GDDR area of
`area` bytes (R210). DESIGN CHOICE (log 24): where the estates of other contexts fill the die area and the context has none
there to move, no room is made, whatever its GDDR area could hold: ESTFULL. -/
def roomInDie (die ctx area need : Nat) : Nat → List Estate → Option (List Estate)
  | 0, _ => none
  | fuel + 1, es =>
    if bytesOf (es.filter (inDie die)) + need ≤ dieAreaBytes then some es
    else match oldest (es.filter fun e => inDie die e && decide (e.ctx = ctx)) with
      | none => none
      | some e =>
        if bytesOf (es.filter (inGddr ctx)) + e.body.size ≤ area then
          roomInDie die ctx area need fuel (moveTo es e.order (.gddr die))
        else none

/-- Makes room in a core's store for `need` bytes (R210); `area` gives a context's GDDR area. -/
def roomInCore (die core need : Nat) (area : Nat → Nat) : Nat → List Estate → Option (List Estate)
  | 0, _ => none
  | fuel + 1, es =>
    let mine := es.filter fun e => e.level == .core die core
    if bytesOf mine + need ≤ coreStoreBytes then some es
    else match oldest mine with
      | none => none
      | some e =>
        match roomInDie die e.ctx (area e.ctx) e.body.size (es.length + 1) es with
        | none => none
        | some es => roomInCore die core need area fuel (moveTo es e.order (.die die))

/-- The default identity of a lane (R203). -/
def Iss.defaultIdentity (i : Iss) (lane : Nat) : Nat :=
  let t := i.t.y * i.l.gridX + i.t.x
  ((t * i.l.groupsPerTeam + i.g.groupId) * 32 + lane) % 2 ^ 40

/-- The identity of a lane from a pair, or the default (R203). -/
def Iss.identity (i : Iss) (o : Opnd) (lane : Nat) : Nat :=
  if o = .zr then i.defaultIdentity lane else i.base o lane % 2 ^ 40

/-- Whether an estate lives: discarded ones are never found (R217). -/
def Estate.live (e : Estate) : Bool := match e.level with
  | .discarded _ => false
  | _ => true

/-- Whether a live estate of a context has a key (R202). -/
def Estate.hasKey (e : Estate) (ctx chain ident : Nat) : Bool :=
  e.live && decide (e.ctx = ctx ∧ e.body.chain = chain ∧ e.body.ident = ident)

/-- Stores an estate; one of the same key is discarded with CAUSE 2 and counted for the maker's launch (R207, R214). -/
def State.storeEstate (s : State) (e : Estate) : State :=
  let es := s.estates.map fun (f : Estate) =>
    if f.hasKey e.ctx e.body.chain e.body.ident then { f with level := .discarded 2, lid := e.lid } else f
  { s with estates := es ++ [e] }

/-- EXIT.E (R206 to R208, R210): without room, the lowest lane in lane order whose estate finds none has the cause
(log 36): ESTFULL, or PROT where only an area outside the device's range could take the estates (R354). -/
def execExitE (w : FmtA) (s : State) : Res :=
  issue s 8 w.g w.u fun i => do
    let n := w.fn.toNat + 1
    let range := w.b.o.range n
    let pair := baseFields w.c.o
    i.check (i.l.chain ≠ 0) 0x12
    i.ready (w.a.field :: (pair ++ range.map fun o => ⟨o, false⟩)) []
    i.waitProducers
    let side ← i.release 4
    let r := i.g.gather [w.a.o] i.ex
    let recs := i.ex.map fun lane =>
      let ds := range.map (i.g.datum lane)
      ({ chain := i.l.chain, ident := i.identity w.c.o lane, makerSeq := i.l.seq, die := i.t.die, core := i.t.core
         ttl := i.l.ttl, prim := ds.map (·.val)
         tans := (List.range i.l.dualN).map fun k => ds.map (·.tan k) } : EstateRec)
    let need (es : List EstateRec) : Nat := es.foldl (fun x e => x + e.size) 0
    let area (all : Bool) (ctx : Nat) : Nat :=
      ((i.s.ctx? ctx).map fun c => if all || c.desc.areaOk then c.desc.areaSize * 65536 else 0).getD 0
    let roomWith (all : Bool) (es : List EstateRec) : Option (List Estate) :=
      roomInCore i.t.die i.t.core (need es) (area all) (i.s.estates.length + 1) i.s.estates
    let room := roomWith false
    match room recs with
    | none =>
      let fits := ((List.range i.ex.length).filter fun k => (room (recs.take (k + 1))).isSome).length
      .error (.cause i.s
        (if (roomWith true recs).isSome then { code := 0x12, lane := i.ex.getD fits 0 }
         else { code := 0x30, lane := i.ex.getD fits 0, detail := BitVec.ofNat 64 i.l.chain }) (!i.mixed))
    | some es =>
      let s := recs.foldl (fun (s : State) e =>
        let f := s.fresh
        f.2.storeEstate ⟨i.t.ctx, f.1, i.l.id, e, .core i.t.die i.t.core, [side]⟩) { i.s with estates := es }
      let s := s.onLaunch i.l.id fun l => { l with red := { l.red with made := l.red.made + recs.length } }
      .ok (i.leave s r.2 (exitStatuses w.a r.1) true)

/-! ### CLAIM -/

/-- The claims of the lanes, in lane order: each consumes the live estate of its key (R212, R213). -/
def State.claimAll (s : State) (ctx chain n : Nat) : List (Nat × Nat) → State × List ClaimLane
  | [] => (s, [])
  | (lane, ident) :: ls =>
    match s.estates.find? fun e => e.hasKey ctx chain ident with
    | none =>
      let r := s.claimAll ctx chain n ls
      (r.1, ⟨lane, 1, none⟩ :: r.2)
    | some e =>
      let m := e.body.prim.length
      let r := State.claimAll { s with estates := s.estates.erase e } ctx chain n ls
      (r.1, ⟨lane, if m = n then 0 else if m < n then 2 else 3, some e⟩ :: r.2)

/-- CLAIM (R211, R212): the home orders it at issue; its results land later. -/
def execClaim (w : FmtA) (s : State) : Res :=
  issue s 8 w.g w.u fun i => do
    let n := w.fn.toNat + 1
    let range := w.b.o.range n
    let base := match w.b.o with
      | .v b => b.toNat
      | _ => 0
    i.check (i.l.chain ≠ 0) 0x12
    i.ready (baseFields w.a.o) (w.d :: range)
    let c := i.s.claimAll i.t.ctx i.l.chain n (i.ex.map fun lane => (lane, i.identity w.a.o lane))
    let f := c.1.fresh
    let after := if i.g.inHandler then i.g.regionCnt else i.g.regionCnt + 1
    let p : Pending := { id := f.1, gid := i.g.id, pc := i.g.pc32, region := after, kind := .claim base n c.2, dst := w.d
                         uni := false, bytes := 4, lanes := i.ex, acq := c.2.any (·.est.isSome), sc := 4 }
    .ok { s := { f.2 with pend := f.2.pend ++ [p] }
          g := (i.g.expect f.1 1 w.d i.ex).expect f.1 n w.b.o i.ex, region := true }

end Sys2Proof.Machine
end

