-- ==== Sys2Proof/Machine/Barrier.lean ====
section
/-! DEFINITION. Barrier instructions (spec/09 R193 to R197) and FBAR (spec/21 R376 to R378). -/

namespace Sys2Proof.Machine

/-- The barrier that an instruction names: PROT beyond the declared count or outside the cluster (R193, R194). -/
def Iss.barrier (i : Iss) (a : Opnd) (fa : Bool) (imm : W32) (more : List Opnd) : Except Stop (Team × Nat) := do
  i.ready (⟨a, fa⟩ :: more.map fun o => ⟨o, false⟩) []
  let n := bitsOf imm.toNat 0 10
  i.check (decide (n < i.l.barriers)) 0x12
  match i.coreTeam a with
  | none => i.cause 0x12
  | some t => .ok (t, n)

/-- The byte pair of BARI and BARX, a signed number (R194). -/
def Iss.bytePair (i : Iss) (d : Opnd) : Int := signed 64 (i.base d 0)

/-- The registers of a byte pair. -/
def pairOf (d : Opnd) : List Opnd := if d = .zr then [] else d.range 2

/-- The scope of a barrier: team on the issuing core, cluster on another (R196). -/
def Iss.barScope (i : Iss) (t : Team) : Nat := if t.id = i.t.id then 1 else 2

/-- BARI (R195). -/
def execBari (w : FmtB) (s : State) : Res :=
  issue s 8 w.g w.u fun i => do
    let b ← i.barrier w.a w.fa w.imm (pairOf w.d)
    let v := i.bytePair w.d
    i.check (pendOk v) 0x2A
    let bar := { b.1.bar b.2 with count := w.imm.toNat / 65536, arr := 0, pend := v, brk := false }
    .ok { s := i.s.setBar b.1.id b.2 bar, g := i.g, region := true }

/-- BARA (R195, R196): a release. -/
def execBara (w : FmtB) (s : State) : Res :=
  issue s 8 w.g w.u fun i => do
    let b ← i.barrier w.a w.fa w.imm []
    let old := b.1.bar b.2
    let arr := old.arr + i.ex.length
    i.check (decide (arr ≤ 65535)) 0x2A
    let sc := i.barScope b.1
    let side ← i.release sc
    let old := i.s.carriedBy old [side]
    .ok { s := i.s.setBar b.1.id b.2 (Barrier.check { old with arr := arr }), g := i.g, region := true }

/-- BARX (R195). -/
def execBarx (w : FmtB) (s : State) : Res :=
  issue s 8 w.g w.u fun i => do
    let b ← i.barrier w.a w.fa w.imm (pairOf w.d)
    let old := b.1.bar b.2
    let v := old.pend + i.bytePair w.d
    i.check (pendOk v) 0x2A
    .ok { s := i.s.setBar b.1.id b.2 (Barrier.check { old with pend := v }), g := i.g, region := true }

/-- BARW (R195 to R197): a group that has waited goes on once the Regulator releases it. One whose phase has completed passes it,
whatever the barrier does next, once what the arrivals carry has been performed. -/
def execBarw (w : FmtB) (s : State) : Res :=
  issue s 8 w.g w.u fun i => do
    let b ← i.barrier w.a w.fa w.imm [w.d]
    let q := xor (w.imm.getLsbD 16) ((i.g.datum 0 w.d).val.getLsbD 0)
    let bar := b.1.bar b.2
    let through : Except Stop Done := match i.observe bar.rels with
      | .error _ => .error (.stall i.s (.barGo b.1.id b.2 q))
      | .ok i => .ok { s := i.s, g := i.g }
    if i.g.wait = .barGo b.1.id b.2 q then through
    else do
      i.check (!bar.brk) 0x2A
      if bar.ph = q then through else .error (.stall i.s (.bar b.1.id b.2 q))

/-- BART (R195): an acquire where it writes 1 (R196). -/
def execBart (w : FmtBP) (s : State) : Res :=
  issue s 8 w.g w.u fun i => do
    let b ← i.barrier w.a w.fa w.imm []
    let bar := b.1.bar b.2
    i.check (!bar.brk) 0x2A
    let yes := bar.ph == w.imm.getLsbD 16
    let i ← if yes then i.observe bar.rels else .ok i
    .ok { s := i.s, g := i.ex.foldl (fun g lane => g.setPreds w.pd.pn (i.reach lane) yes) i.g }

/-! ### Fabric barriers -/

/-- The members of a fabric barrier (R376). -/
def members (fbgrp : W32) : List Nat := (List.range 16).filter fbgrp.getLsbD

/-- The member that a group of a die belongs to: its socket, or its device's peer number (R366, R377). -/
def State.memberOf (s : State) (fbgrp : W32) (die : Nat) : Nat :=
  if fbgrp.msb then bitsOf s.pkg.self.toNat 0 4 else die

/-- ROUND and DOM of an exchange command (Tables 21.1, 21.6). -/
def Cmd.round (c : Cmd) : Nat := recNat c.bytes 8 2
def Cmd.dom (c : Cmd) : Nat := recBits c.bytes 8 16 1
def Cmd.opc (c : Cmd) : Nat := recNat c.bytes 0 1
/-- The number of a die as an exchange endpoint (R366). -/
def State.senderOf (s : State) (dom die : Nat) : Nat := if dom = 0 then die else 8 * bitsOf s.pkg.self.toNat 0 4 + die

def Ctx.round? (c : Ctx) (dom r : Nat) : Option Round := c.rounds.find? fun x => x.dom = dom ∧ x.r = r

/-- FBAR (R376 to R378), a collective instruction (R166): it arrives for its member, with all that its group had ordered, and
records the member's EXCH commands; a later one of an arrived member only adds its notify barrier. It never waits but for the
sixteenth open instance to close. -/
def execFbar (w : FmtB) (s : State) : Res :=
  issue s 8 w.g false fun i => do
    let n := bitsOf w.imm.toNat 0 10
    let r := w.imm.toNat / 65536
    let fb := i.g.fbgrp
    let dom := if fb.msb then 1 else 0
    let me := i.s.memberOf fb i.t.die
    i.check (decide (n < i.l.barriers)) 0x12
    i.check (!(members fb).isEmpty && (members fb).contains me) 0x12
    i.check (dom == 1 || (members fb).all i.c.desc.sockets.contains) 0x12
    let old := i.c.fbars.find? fun b => b.fbgrp = fb ∧ b.r = r
    if old.isNone ∧ 16 ≤ i.c.fbars.length then i.wait
    else
      let side ← i.release (if dom = 0 then 4 else 5)
      let f := i.s.fresh
      let b : FabBar := old.getD { id := f.1, fbgrp := fb, r := r }
      let first := !b.arrived.contains me
      let mine (c : Cmd) : Bool := decide (c.ctx = i.t.ctx ∧ c.opc = 0x20) &&
        (dom == 1 || c.qid == 0x1000 + i.t.die)
      let now := if first then i.s.cmds.filter mine else []
      let offers := if first then i.c.offers.filter fun o => decide (o.dom = dom ∧ o.r = r) && (dom == 1 || o.die == i.t.die)
        else []
      let b : FabBar := { b with
        arrived := if first then b.arrived ++ [me] else b.arrived
        recorded := joinNew b.recorded (now.map (·.id) ++ offers.map (·.cid))
        hadExch := b.hadExch || !offers.isEmpty
        notify := b.notify ++ [(i.t.id, n)]
        rels := if first then b.rels ++ [side] else b.rels }
      let s := f.2.onCtx i.t.ctx fun c => { c with
        fbars := if old.isSome then c.fbars.map fun x => if x.id = b.id then b else x else c.fbars ++ [b] }
      .ok { s := s, g := i.g, region := true }

end Sys2Proof.Machine
end

