-- ==== Sys2Proof/Machine/Engine.lean ====
section
/-! DEFINITION. PUSH, WPW and GUARD (spec/14 R254 to R264). -/

namespace Sys2Proof.Machine

/-- The socket of an engine queue (R239): copy and exchange engines only. -/
def engineSocket (qid : Nat) : Option Nat :=
  if qid < 192 then some (qid / 24)
  else if qid < 224 then some 8
  else if qid < 256 then some 9
  else if 0x1000 ≤ qid ∧ qid ≤ 0x1007 then some (qid - 0x1000)
  else none

/-- The scheduler queue of a priority (R185); a priority above 7 enters the last queue (log 36). -/
def CtxDesc.queueOf (d : CtxDesc) (prio : Nat) : Nat := min (prio * d.qcount / 8) (d.qcount - 1)

/-- The scope of a command (R256, R366). -/
def cmdScope (bytes : List Byte) : Nat :=
  let opc := recNat bytes 0 1
  if 1 ≤ opc ∧ opc ≤ 7 then recBits bytes 8 0 3
  else if opc = 0x20 ∨ opc = 0x21 then (if recBits bytes 8 16 1 = 0 then 4 else 5)
  else 4

/-- Accepted, uncompleted launches and commands of a scheduler queue (R184). -/
def State.schedulerLoad (s : State) (ctx queue : Nat) : Nat :=
  (s.launches.filter fun l => decide (l.ctx = ctx ∧ l.queue = queue)).length
  + (s.cmds.filter fun c => decide (c.ctx = ctx ∧ c.qid = 0x2000 ∧ c.squeue = queue)).length

/-- Whether a queue has room for a command of a team (Table 14.1). -/
def State.queueRoom (s : State) (c : Ctx) (team qid : Nat) (bytes : List Byte) : Bool :=
  if qid = 0x2000 then decide (s.schedulerLoad c.desc.ctx (c.desc.queueOf (recNat bytes 3 1)) < 256)
  else if qid = 0x3000 then
    decide ((s.cmds.filter fun x => decide (x.ctx = c.desc.ctx ∧ x.qid = qid)).length < 256)
  else
    let here := s.cmds.filter fun x => x.qid = qid
    decide (here.length < 64 ∧ (here.filter fun x => x.team = team).length < 16)

/-- The command bytes of S registers, with the slot written by the device (R255). -/
def Iss.commandBytes (i : Iss) (sb gslot : Nat) : List Byte :=
  splice ((i.g.sWords sb 16).flatMap fun x => leBytes 4 x.toNat) 2 [BitVec.ofNat 8 gslot]

/-- Reserves a queue entry for a return (R259). -/
def Group.reserve (g : Group) (lane n id : Nat) : Group :=
  let q := g.queue lane n
  g.setQueue lane n { q with entries := q.entries ++ [.reserved id true] }

/-- What a context notes when an exchange engine accepts an EXCH: it belongs to its round (R377), and one with LOAD names
the expert table of the receiving side (R369). -/
def Ctx.noteExch (x : Ctx) (c : Cmd) : Ctx :=
  if c.qid < 0x1000 ∨ 0x1007 < c.qid ∨ c.opc ≠ 0x20 then x
  else { x with
    offers := x.offers ++ [⟨c.id, c.dom, c.round, c.qid - 0x1000⟩]
    xtab := if recBits c.bytes 8 17 1 = 1 then some (BitVec.ofNat 64 (recNat c.bytes 0x18 8)) else x.xtab }

/-- Acceptance of a command (R258, R261) with its forks (R277), and after what a RESUME has put before all work of its context
(R342): a LAUNCH goes to the scheduler as a step of its own, the very next (log 3). -/
def Iss.accept (i : Iss) (qid gslot lane : Nat) (bytes : List Byte) (ret : Option RetTo) (forks : List Rel) : State :=
  let f := i.s.fresh
  if qid = 0x2000 ∧ recNat bytes 0 1 = 0x40 then
    { i.s with agenda := .run (.launch i.t.ctx i.t.id lane i.g.id bytes) :: i.s.agenda }
  else
    let c : Cmd := { id := f.1, ctx := i.t.ctx, qid := qid, squeue := i.c.desc.queueOf (recNat bytes 3 1), team := i.t.id
                     lid := i.l.id, die := i.t.die, core := i.t.core, cluster := i.t.cluster, corner := i.t.corner
                     teampos := i.t.pos, priv := i.c.priv, bytes := bytes, gslot := gslot, ret := ret
                     forks := forks, carry := i.s.onWay i.c.before }
    State.onCtx { f.2 with cmds := f.2.cmds ++ [c] } i.t.ctx fun x => x.noteExch c

/-- PUSH (R258, R259, R277). -/
def execPush (w : FmtP) (s : State) : Res :=
  issue s 8 w.g false fun i => do
    i.ready (sFields w.sb.toNat 16) []
    let qid := w.qid.toNat
    let bytes := i.commandBytes w.sb.toNat w.gslot.toNat
    let opc := recNat bytes 0 1
    i.check (i.c.priv || !(opc == 0x41 || opc == 0x42)) 0x02
    i.check ((engineSocket qid).all fun k => decide (8 ≤ k) || i.c.desc.sockets.contains k) 0x12
    let lane := i.ex.headD 0
    let qr := recBits bytes 0 52 1 = 1
    let qn := recBits bytes 0 48 4
    let q := i.g.queue lane qn
    i.check (!qr || q.depth ≠ 0) 0x12 lane
    let flag (i : Iss) (b : Bool) : Group :=
      if w.pf = 7 then i.g else i.g.setPreds w.pf (maskLanes i.g.ctl.mask) b
    if i.s.queueRoom i.c i.t.id qid bytes && (!qr || q.entries.length < q.depth) then
      let fork := recBits bytes 0 8 1 = 1
      let forks ← if fork then do .ok [← i.release (cmdScope bytes)] else .ok []
      let f := i.s.fresh
      let ret : Option RetTo := if qr then some ⟨i.g.id, lane, qn, f.1⟩ else none
      let i := if qr then { i with s := f.2, g := i.g.reserve lane qn f.1 } else i
      .ok { s := i.accept qid w.gslot.toNat lane bytes ret forks, g := flag i false, region := true }
    else if w.pf ≠ 7 then .ok { s := i.s, g := flag i true, region := true }
    else i.wait

/-- WPW (R260): an acquire where it returns or writes 1 (R278). -/
def execWpw (w : FmtP) (s : State) : Res :=
  issue s 8 w.g false fun i => do
    i.ready (sFields w.sb.toNat 2) []
    let ws := i.g.sWords w.sb.toNat 2
    let t := pairNat (nth ws 0) (nth ws 1)
    let yes := decide (t ≤ (look 0 i.t.wptr w.qid.toNat).toNat)
    let i' ← if yes then i.observe (look [] i.t.wrels w.qid.toNat) else .ok i
    if w.pf ≠ 7 then .ok { s := i'.s, g := i'.g.setPreds w.pf (maskLanes i.g.ctl.mask) yes }
    else if yes then .ok { s := i'.s, g := i'.g }
    else i.wait

/-- Whether a GUARD applies to a command (R262). -/
def Cmd.guarded (c : Cmd) (team qid slot : Nat) : Bool :=
  decide (c.team = team ∧ c.qid = qid ∧ c.gslot = slot ∧ c.verdict = none)

/-- Whether a GUARD of the scheduler applies to a launch (R262). -/
def Launch.guarded (l : Launch) (team slot : Nat) : Bool :=
  decide (l.team = some team ∧ l.gslot = slot ∧ l.verdict = none)

/-- GUARD (R262, R263): with verdict 1 a fork of each command that it releases, at that command's scope. -/
def execGuard (w : FmtP) (s : State) : Res :=
  issue s 8 w.g false fun i => do
    i.ready (sFields w.sb.toNat 1) []
    let v := (nth (i.g.sWords w.sb.toNat 1) 0).getLsbD 0
    let slot := w.gslot.toNat
    let qid := w.qid.toNat
    let hit := (i.s.cmds.any fun c => c.guarded i.t.id qid slot) ||
      (qid == 0x2000 && i.s.launches.any fun l => l.guarded i.t.id slot)
    if v && hit then i.gate
    let fork (bytes : List Byte) : List Rel := if v then [i.side (cmdScope bytes)] else []
    let s := { i.s with
      cmds := i.s.cmds.map fun (c : Cmd) =>
        if c.guarded i.t.id qid slot then { c with verdict := some v, forks := c.forks ++ fork c.bytes } else c
      launches := i.s.launches.map fun (l : Launch) =>
        if qid = 0x2000 ∧ l.guarded i.t.id slot then { l with verdict := some v, forks := l.forks ++ fork l.record } else l }
    .ok { s := s, g := i.g, region := true }

end Sys2Proof.Machine
end

