-- ==== Sys2Proof/Machine/Landing.lean ====
section
/-! DEFINITION. Landings of long-latency producers (spec/01 R14; spec/06 R140, R143, R144, R150, R153; spec/10 R212, R213),
asynchronous faults (spec/17 R312, R316), instruction misses (spec/09 R192), page walks (spec/17 R327) and barrier
releases (spec/09 R197). -/

namespace Sys2Proof.Machine

/-! ### Failures -/

/-- The MEMERR of a producer (R153, R312). -/
def Pending.memErr (p : Pending) (ih : Bool) (lane space : Nat) (addr : W64) : CauseRec :=
  { code := 0x31, ih := ih, lane := lane, space := space, addr := addr, pc := p.pc, region := p.region }

/-- What ADDR means for an access (Table 17.4). -/
def Access.space (a : Access) : Nat :=
  match a.loc with
  | .mem _ => 0
  | .ws _ _ => if windowBase ≤ a.va.toNat then 0 else 3
  | .tile _ _ => 1
  | .lane _ _ _ => 2

/-- A cause that takes effect at the group's next instruction boundary (R312, R316); a group that has left its core stands at
one, so that its open LDQ entries are released (R154), those of a debug stop too. -/
def State.asyncCause (s : State) (gid : Nat) (c : Bool → CauseRec) : State :=
  (s.onGroup gid fun g =>
    { (if g.status = .draining then g.releaseLdq else g) with async := g.async ++ [c g.inHandler] }).settleFault gid

/-- The queue entries that a producer reserved go without a value. -/
def Group.forgo (g : Group) (p : Pending) : Group :=
  match p.dst with
  | .q k => p.lanes.foldl (fun g lane => g.setQueue lane k.toNat ((g.queue lane k.toNat).forgo p.id)) g
  | _ => g

/-- A producer that fails lands nothing; its destination stays empty (R153), and an entry that it reserved is released. -/
def State.failPending (s : State) (p : Pending) : State :=
  let s := (s.dropPend p.id).onGroup p.gid fun g => g.forgo p
  match s.failing p with
  | none => s
  | some a => ({ s with free := s.free + 1 }).asyncCause p.gid fun ih => p.memErr ih a.lane a.space a.va

/-- A producer lands its data (R14); a group that waited for its producers goes on (R316, rule 3). -/
def State.landPending (s : State) (p : Pending) (data : List (Nat × List Datum)) : State :=
  let s := s.onGroup p.gid fun g => (data.filter fun x => decide (x.1 < 32)).foldl (fun g x => g.land p p.dst x.1 x.2) g
  (s.dropPend p.id).settleFault p.gid

/-! ### Landings -/

/-- The bank of a byte of a weight store (R228). -/
def wsBank (ofs : Nat) : Nat := bitsOf ofs 16 3

/-- Whether a read reaches a bank that is being refreshed (R228). -/
def State.refreshing (s : State) (p : Pending) : Bool :=
  p.accs.any fun a => match a.loc with
    | .ws d ofs => (s.dieSt d).refresh == some (wsBank ofs)
    | _ => false

/-- A load or LDQ entry lands (R140, R150, R153), once its accesses can be performed. -/
def State.landLoad (s : State) (p : Pending) (err : Bool) : Res :=
  if s.refreshing p then notEnabled
  else
    let s := s.perform p.id
    let p := (s.pend? p.id).getD p
    if !p.performed then notEnabled
    else if err || p.failed then (s.failPending p).did
    else (s.landPending p (p.lanes.map fun lane => (lane, p.loaded lane))).did

/-- A load's value lands (R14, R140, R234). -/
def execLoadLands (id : Nat) (err : Bool) (s : State) : Res :=
  match s.pend? id with
  | none => notEnabled
  | some p => if p.kind = .load then s.landLoad p err else notEnabled

/-- An LDQ's entries land (R150). -/
def execLdqEntryLands (id : Nat) (err : Bool) (s : State) : Res :=
  match s.pend? id with
  | none => notEnabled
  | some p => if p.kind = .ldq then s.landLoad p err else notEnabled

/-- CRND's bits land (R129). -/
def execCrndLands (id : Nat) (s : State) : Res :=
  match s.pend? id with
  | none => notEnabled
  | some p => if p.kind = .crnd then (s.landPending p p.data).did else notEnabled

/-- The READY register (Table 1.3). -/
def State.readyReg (s : State) : W32 := s.pkg.ready.setWidth 32

/-- The WSREF register of a die (R228): its cycles field is open below the 12,800 cycles that part two windows (log 9). -/
def State.wsref (s : State) (die : Nat) : W32 :=
  let d := s.dieSt die
  BitVec.ofNat 32 ((if d.refresh.isSome then 0x100000 else 0) + Config.freeNat s.free % 12801 * 8 + d.nextBank % 8)

/-- A remote special register's value at the landing (R105). -/
def State.remoteReg (s : State) (die sr : Nat) : W32 :=
  if sr = 0x102 then BitVec.ofNat 32 (s.dieSt die).brwin
  else if sr = 0x140 then s.wsref die
  else s.readyReg

/-- The value of a remote register lands (R105). DESIGN CHOICE (log 7): of the moments between issue and landing, the register is
read at the landing. -/
def execRemoteMfsLands (id : Nat) (s : State) : Res :=
  match s.pend? id with
  | none => notEnabled
  | some p =>
    match p.kind with
    | .mfs sr =>
      let x := s.remoteReg (s.siteOf p.gid).die sr
      (State.landPending { s with free := s.free + 1 } p (p.lanes.map fun lane => (lane, [plain x]))).did
    | _ => notEnabled

/-- One access of a load, an LDQ or an atomic is performed ahead of the others: the lanes of an instruction are unordered,
but that lanes of one load that read the same place receive the same value (R240), and that the primal and the tangents of
an acquire or of an atomic come in order (R149). A release performs its accesses together (log 6). -/
def State.lookAt (s : State) (id k : Nat) : Res :=
  match s.pend? id, (s.pend? id).bind fun p => p.accs[k]? with
  | some p, some a =>
    let atom := match p.kind with
      | .atom _ => true
      | _ => false
    let first := p.accs.filter fun b => decide (b.k < a.k) && (p.acq || b.loc == a.loc)
    let sel (b : Access) : Bool := if atom then b == a else b.loc == a.loc
    let s' := s.performPart id sel
    if a.val.isSome || p.side.isSome || (atom && p.accs.any s.lost) || s.refreshing { p with accs := [a] } ||
        !(first.all fun b => b.val.isSome || (!atom && b.loc == a.loc)) || !s.canPerform p sel then notEnabled
    else s'.did
  | _, _ => notEnabled

/-! ### CLAIM -/

/-- The range of a lane of a CLAIM (R212). -/
def claimWords (n duals : Nat) (e : Option Estate) : List Datum :=
  match e with
  | none => List.replicate n {}
  | some e =>
    (List.range n).map fun j =>
      if j < e.body.prim.length then
        withTans (nth e.body.prim j) (min e.body.tans.length duals) fun k => nth (e.body.tans.getD k []) j
      else {}

/-- The status word of a CLAIM with an S destination (R212). -/
def statusWord (sts : List Nat) : W32 :=
  BitVec.ofNat 32 ((List.range 4).foldl (fun x k => if sts.contains k then x + 2 ^ k else x) 0)

/-- The lanes of a CLAIM land in their ranges and, but for an S register that waits for a lost lane, in D. -/
def Group.landClaim (g : Group) (p : Pending) (base n duals : Nat) (got : List ClaimLane) (lost : Bool) : Group :=
  let got := got.filter fun c => decide (c.lane < 32)
  let g := got.foldl (fun g c => g.land p (.v (BitVec.ofNat 7 base)) c.lane (claimWords n duals c.est)) g
  match p.dst with
  | .s _ => if lost then g else g.land p p.dst 0 [plain (statusWord (got.map (·.st)))]
  | _ => got.foldl (fun g c => g.land p p.dst c.lane [plain (BitVec.ofNat 32 c.st)]) g

/-- The lanes whose estates an error loses: any of those that received one, and at least one of them (R213). -/
def lostLanes (free : Nat) (got : List ClaimLane) : List Nat :=
  let hit := (got.filter fun c => c.est.isSome).map (·.lane)
  let one := pickOne free 32 hit
  hit.filter fun lane => some lane = one || Config.laneChoice free lane % 2 = 1

/-- A CLAIM lands (R212, R213), once what the makes of its estates carry has been performed (R208); an error loses the estates
of some lanes. -/
def execClaimLands (id : Nat) (err : Bool) (s : State) : Res :=
  match s.pend? id with
  | none => notEnabled
  | some p =>
    match p.kind with
    | .claim base n got =>
      let lost := if err then lostLanes s.free got else []
      let rest := got.filter fun c => !lost.contains c.lane
      let took := rest.filterMap (·.est)
      match s.observe p.gid (took.flatMap (·.rels)) with
      | none => notEnabled
      | some s =>
      match s.group? p.gid, (s.group? p.gid).bind s.home? with
      | some g, some (t, l) =>
        if err ∧ lost.isEmpty then notEnabled
        else
          let g := g.landClaim p base n l.dualN rest err
          let g := if err then { g with refill := g.refill ++ [⟨lost, base, n, p.dst, statusWord (rest.map (·.st))⟩] } else g
          let s := (s.setGroup g).onLaunch l.id fun l =>
            { l with red := { l.red with claimed := l.red.claimed + took.length } }
          let s := State.dropPend { s with free := s.free + 1 } id
          if err then
            let gone := (got.filter fun c => lost.contains c.lane).filterMap fun c =>
              c.est.map fun e => { e with level := .discarded 3, lid := t.lid }
            (State.asyncCause { s with estates := s.estates ++ gone } p.gid
              fun ih => { p.memErr ih (lost.headD 0) 5 0 with fetch := true }).did
          else (s.settleFault p.gid).did
      | _, _ => notEnabled
    | _ => notEnabled

/-- What a replay writes for lanes that a CLAIM lost (R213). -/
def Group.refilled (g : Group) : Group :=
  let one (g : Group) (r : Refill) : Group :=
    let g := r.lanes.foldl (fun g lane =>
      ((Opnd.v (BitVec.ofNat 7 r.base)).range r.n).foldl (fun g o => g.give lane o {}) g) g
    match r.dst with
    | .s _ => g.give 0 r.dst (plain (r.word ||| 2))
    | .q _ => g
    | _ => r.lanes.foldl (fun g lane => g.give lane r.dst (plain 1)) g
  { g.refill.foldl one g with refill := [] }

/-! ### Atomics -/

/-- The old value of an ATOM or CAS lands (R143, R144); an atomic that meets an error writes nothing (R153). The value
of an MCA atomic lands after its write's single moment (R359). -/
def execAtomResultLands (id : Nat) (err : Bool) (s : State) : Res :=
  match s.pend? id with
  | none => notEnabled
  | some p =>
    match p.kind with
    | .atom op =>
      if p.after.any fun w => s.inflight.any fun x => decide (x.id = w) then notEnabled
      else if p.performed then
        if p.failed then (s.failPending p).did
        else if err then notEnabled
        else (s.landPending p (p.lanes.map fun lane => (lane, p.loaded lane))).did
      else if !s.canPerform p || (err && p.accs.any (·.val.isSome)) then notEnabled
      else
        let r := s.atomAll p op err
        if r.2.failed then (r.1.failPending r.2).did
        else
          (r.1.landPending r.2 (p.lanes.map fun lane => (lane, r.2.loaded lane))).did
    | _ => notEnabled

/-! ### Group events -/

/-- Asynchronous causes take effect at an instruction boundary (R312, R316). -/
def execAsyncFault (gid : Nat) (s : State) : Res :=
  match s.group? gid with
  | none => notEnabled
  | some g =>
    if g.status = .running ∧ !g.async.isEmpty then
      (((s.setGroup g.deschedule).dropClaims gid).settleFault gid).did
    else notEnabled

/-- The cluster of a group. -/
def State.clusterOf (s : State) (g : Group) : Nat := ((s.team? g.team).map (·.cluster)).getD 0

/-- A missing line of code reaches the cluster's instruction cache (R192). -/
def execInstructionMissFill (gid : Nat) (s : State) : Res :=
  match s.group? gid with
  | none => notEnabled
  | some g =>
    match g.wait with
    | .miss line =>
      let cl := s.clusterOf g
      let free (h : Group) : Group := if h.wait = .miss line ∧ s.clusterOf h = cl then { h with wait := .none } else h
      State.did { s with icache := s.icache ++ [(cl, line)], groups := s.groups.map free }
    | _ => notEnabled

/-- A walk of a die ends (R327), any of the 16 that its walkers have begun, oldest first: a translation enters the die's
TLB, or every waiter meets the failure. -/
def execTranslationWalk (die : Nat) (s : State) : Res :=
  match pickOne s.free die ((s.walks.filter fun w => w.die = die).take 16) with
  | none => notEnabled
  | some w =>
    match s.ctx? w.ctx with
    | none => notEnabled
    | some c =>
      let hit (g : Group) : Bool := w.waiters.contains g.id
      let same (v : Walk) : Bool := decide (v.die = die ∧ v.ctx = w.ctx ∧ v.page = w.page)
      let s := { s with walks := s.walks.filter fun v => !same v, free := s.free + 1 }
      match s.walk (.socket die) c.desc .read (w.page * 65536) with
      | .ok l =>
        let s := s.tlbFill { die := die, ctx := w.ctx, page := w.page, pa := l.pa, pte := l.pte, w := l.w, x := l.x
                             usr := l.usr }
        State.did { s with
          groups := s.groups.map fun g => if hit g ∧ g.wait = .walk then { g with wait := .none } else g }
      | .error _ =>
        State.did { s with
          groups := s.groups.map fun g =>
            if hit g ∧ g.wait = .walk then { g with wait := .none, walked := g.walked ++ [w.page] } else g }

/-- The Regulator releases a group whose phase has completed (R197, R364). -/
def execBarrierRelease (gid : Nat) (s : State) : Res :=
  match s.group? gid with
  | none => notEnabled
  | some g =>
    match g.wait with
    | .barDone t n ph => State.did (s.setGroup { g with wait := .barGo t n ph })
    | _ => notEnabled

end Sys2Proof.Machine
end

