-- ==== Sys2Proof/Machine/Record.lean ====
section
/-! DEFINITION. Completion: records (spec/09 R180 to R182), the estate steps of a launch (spec/10 R214, R215), and the
completion of commands (spec/14 R259, R266, R267, R276). -/

namespace Sys2Proof.Machine

/-! ### Completion records (R180, R181) -/

/-- The 32 bytes of a completion record (Table 9.3). -/
def recordBytes (status : Nat) (r : Reduce) (fin : Nat) : List Byte :=
  leBytes 4 (status + r.maxSt * 256 + r.orSt.toNat * 65536) ++ leBytes 4 r.nonzero ++ leBytes 4 r.exited
  ++ leBytes 4 r.made ++ leBytes 4 r.claimed ++ leBytes 4 r.unclaimed ++ leBytes 8 fin

/-- A write of the device for a context, through its page table at supervisor level (R404); `none` where the address
lies on a fenced channel. -/
def State.deviceWrite (s : State) (c : Ctx) (va : Nat) (bs : List Byte) : Except (BitVec 8) (Option State) :=
  match s.translate .host c.desc ⟨true, false, none⟩ .write va bs.length with
  | .error e => .error e
  | .ok pa =>
    let s := s.setDirtyAt .host c.desc va
    if s.fencedAt pa then .ok none else .ok (some (s.writeNow c.desc.ctx va pa bs))

/-- The next completion record of a context is written at `va` (R181, R182, R365); `p` is the entry that a failed
translation posts. -/
def State.writeRecord (s : State) (n va status : Nat) (r : Reduce) (p : Posting) : State :=
  match s.ctx? n with
  | none => s
  | some c =>
    let fin := c.fin + 1
    let body := recordBytes status r fin
    let s := s.onCtx n fun c => { c with fin := fin }
    match s.deviceWrite c va body with
    | .error e => s.post n { p with why := { p.why with code := e, space := 0, addr := BitVec.ofNat 64 va } }
    | .ok none => s.orphan ⟨body ++ leBytes 32 0, BitVec.ofNat 64 va, false, n, p.lseq, []⟩
    | .ok (some s) => s

/-- The completion interrupt of a context (R391). -/
def State.notify (s : State) (n : Nat) (yes : Bool) : State := if yes then s.interrupt (2 * n) else s

/-- A return word starts on its way (R259). -/
def State.returnWord (s : State) (ret : Option RetTo) (status delivered : Nat) : State :=
  match ret with
  | none => s
  | some r =>
    let f := s.fresh
    { f.2 with returns := f.2.returns ++ [(f.1, r, BitVec.ofNat 32 (status + delivered % 2 ^ 24 * 256))] }

/-- A return word lands in the entry reserved for it; the word of a retired group is discarded (R259). -/
def execReturnWordLands (id : Nat) (s : State) : Res :=
  match s.returns.find? fun r => r.1 = id with
  | none => notEnabled
  | some r =>
    let s := { s with returns := s.returns.filter fun x => x.1 ≠ id }
    State.did (s.onGroup r.2.1.gid fun g =>
      g.setQueue r.2.1.lane r.2.1.q ((g.queue r.2.1.lane r.2.1.q).fill r.2.1.res (plain r.2.2)))

/-! ### Estates at a completion (R214, R215) -/

/-- Steps 1 and 2 of R214 for one estate. -/
def Launch.passEstate (l : Launch) (e : Estate) : Estate :=
  if e.live && decide (e.ctx = l.ctx ∧ e.body.chain = l.chain) then
    if e.body.makerSeq = l.seq then
      if l.chainEnd then { e with level := .discarded 1, lid := l.id } else e
    else
      let ttl := e.body.ttl - 1
      let e := { e with body := { e.body with ttl := ttl } }
      if ttl = 0 then { e with level := .discarded 0, lid := l.id }
      else if l.chainEnd then { e with level := .discarded 1, lid := l.id } else e
  else e

/-- Whether a discarded estate is counted at the completion of a launch (R214, step 3). -/
def Launch.counts (l : Launch) (e : Estate) : Bool :=
  match e.level with
  | .discarded 4 => decide (e.ctx = l.ctx ∧ e.body.chain = l.chain)
  | .discarded _ => decide (e.lid = l.id)
  | _ => false

/-- The cause of a discard (Table 10.1). -/
def Estate.cause (e : Estate) : Nat := match e.level with
  | .discarded c => c
  | _ => 0

/-- Writes `bs` at `va` in 16-byte pieces (R216): the new state, or a cause with its address. The flag says whether any
piece lies on a fenced channel. -/
def State.logWrite (s : State) (c : Ctx) : Nat → Nat → List Byte → Except (BitVec 8 × Nat) (State × Bool)
  | 0, _, _ => .ok (s, false)
  | k + 1, va, bs =>
    match s.deviceWrite c va (bs.take 16) with
    | .error e => .error (e, va)
    | .ok none => .ok (s, true)
    | .ok (some s) => s.logWrite c k (va + 16) (bs.drop 16)

/-- Log records at ascending addresses: NEXT, WRITTEN, DROPPED (R215), and a cause that ended the writing. DESIGN CHOICE
(log 24): after a write that faults (R216) the records that follow are neither written nor counted in DROPPED, and the
header is still updated. -/
def State.logAll (s : State) (c : Ctx) : List Estate → Nat × Nat × Nat → State × (Nat × Nat × Nat) × Option (BitVec 8 × Nat)
  | [], h => (s, h, none)
  | e :: es, h =>
    let bs := e.body.bytes e.cause e.body.ttl (e.cause == 4)
    if c.desc.logSize < h.1 + bs.length then s.logAll c es (h.1, h.2.1, h.2.2 + 1)
    else match s.logWrite c (bs.length / 16) (c.desc.logBase + h.1) bs with
      | .error x => (s, h, some x)
      | .ok (_, true) => s.logAll c es (h.1, h.2.1, h.2.2 + 1)
      | .ok (s, false) => s.logAll c es (h.1 + bs.length, h.2.1 + 1, h.2.2)

/-- An entry of a launch (SRC 1). -/
def launchPosting (l : Launch) (code : BitVec 8) (detail : Nat) : Posting :=
  { src := 1, why := { code := code, detail := BitVec.ofNat 64 detail }, lseq := l.seq }

/-- The log of R215: records, then the header. A failed write completes the launch FAULT (R216); the header is read where
it will be written (R404). -/
def State.writeLog (s : State) (c : Ctx) (l : Launch) (es : List Estate) : State :=
  let fail (s : State) (x : BitVec 8 × Nat) : State :=
    let p := launchPosting l x.1 0
    State.post (s.onLaunch l.id fun l => { l with fate := worse l.fate 1 }) l.ctx
      { p with why := { p.why with space := 0, addr := BitVec.ofNat 64 x.2 } }
  let part (o : Nat) : Except (BitVec 8) Nat := s.translate .host c.desc ⟨true, false, none⟩ .write (c.desc.logBase + o) 16
  match part 0, part 16 with
  | .ok a, .ok b =>
    let h := s.homeBytes a 16 ++ s.homeBytes b 16
    let r := s.logAll c es (recNat h 0 8, recNat h 8 8, recNat h 16 8)
    let s := match r.2.2 with
      | some x => fail r.1 x
      | none => r.1
    let hd := leBytes 8 r.2.1.1 ++ leBytes 8 r.2.1.2.1 ++ leBytes 8 r.2.1.2.2 ++ leBytes 8 0
    match s.logWrite c 2 c.desc.logBase hd with
    | .ok (s, _) => s
    | .error x => if r.2.2.isSome then s else fail s x
  | .error e, _ => fail s (e, c.desc.logBase)
  | _, .error e => fail s (e, c.desc.logBase + 16)

/-- The steps of R214 for a launch that takes part in a chain. A launch that was ended counts and logs the estates that its
own makes and claims discarded, and no other (R180, R215); an estate of a fenced die waits for the next completion of its
chain that counts it. DESIGN CHOICE (log 24): the spec gives the records of one completion no order; those of CAUSE 0 come
first, then those of CAUSE 1, then the others, each in order of making. -/
def State.estateSteps (s : State) (c : Ctx) (l : Launch) : State :=
  if l.chain = 0 ∨ l.placed = 0 then s
  else
    let es := s.estates.map l.passEstate
    let lost := es.filter fun e => l.counts e && (!l.ended || decide (e.cause = 2 ∨ e.cause = 3))
    let lost := (lost.filter fun e => e.cause == 0) ++ (lost.filter fun e => e.cause == 1) ++
      lost.filter fun e => decide (2 ≤ e.cause)
    let s := { s with estates := es.filter fun e => !(l.counts e && (!l.ended || decide (e.cause < 4))) }
    let s := s.onLaunch l.id fun l => { l with red := { l.red with unclaimed := l.red.unclaimed + lost.length } }
    if l.chainLog ∧ !lost.isEmpty then s.writeLog c l lost else s

/-! ### Launches -/

/-- Whether every cluster of a launch has been placed. A record without one breaks a limit (R179), so it never has. -/
def Launch.allPlaced (l : Launch) : Bool := decide (0 < l.placed ∧ l.clusters ≤ l.placed)

/-- A launch whose record is written leaves (R181, R182): the record, the arrival, the interrupt, the return word, and
the status for the launches that depend on it (R186, rule 1): a dependent keeps the status of the latest producer
accepted before it, also of one that completes while the dependent is queued (log 36). -/
def State.retireLaunch (s : State) (l : Launch) : State :=
  let status := l.fate.getD 0
  let s := s.writeRecord l.ctx l.recordAddr status l.red (launchPosting l 0 0x18)
  let s := if l.pushBars ≤ l.cbar then s else match l.team with
    | none => s
    | some t => s.deviceArrive t l.cbar
  let s := s.notify l.ctx l.notify
  let s := s.returnWord l.ret status 0
  let rest := s.launches.filter fun x => x.id ≠ l.id
  let last (d : Launch) : Bool := decide (d.depSeq < l.seq) && !rest.any fun x =>
    decide (x.ctx = l.ctx ∧ x.recordAddr = d.depAddr ∧ l.seq < x.seq ∧ x.seq < d.seq)
  { s with launches := rest.map fun (d : Launch) =>
      if d.ctx = l.ctx ∧ d.depAddr = l.recordAddr ∧ d.depAddr ≠ 0 ∧ l.seq < d.seq ∧ !d.depDone ∧ last d then
        { d with depStatus := some status, depSeq := l.seq }
      else d }

/-- The launch of a queue that was accepted first. -/
def State.firstLaunch (s : State) (ctx queue : Nat) : Option Launch :=
  s.launches.find? fun l => l.ctx = ctx ∧ l.queue = queue ∧
    s.launches.all fun x => !(decide (x.ctx = ctx ∧ x.queue = queue)) || decide (l.seq ≤ x.seq)

/-- Records of a queue, in acceptance order, while the first launch has finished (R182). -/
def State.writeRecords (s : State) (ctx queue : Nat) : Nat → State
  | 0 => s
  | fuel + 1 =>
    match s.firstLaunch ctx queue with
    | none => s
    | some l => if l.finished then (s.retireLaunch l).writeRecords ctx queue fuel else s

/-- A launch finishes: its estate steps, then its record once the earlier records of its queue are written. -/
def State.finishLaunch (s : State) (c : Ctx) (l : Launch) : State :=
  let s := s.estateSteps c l
  let s := s.onLaunch l.id fun l => { l with finished := true, closed := true }
  s.writeRecords l.ctx l.queue s.launches.length

/-! ### Commands -/

/-- CBAR, NOTIFY and LEN of a command (Tables 14.2, 14.6). -/
def Cmd.cbar (c : Cmd) : Nat := recNat c.bytes 4 2
def Cmd.notifies (c : Cmd) : Bool := (recNat c.bytes 1 1).testBit 1
def Cmd.lenField (c : Cmd) : Nat := recNat c.bytes 0x0C 4

/-- Whether a queue is a copy engine's. -/
def Cmd.onCopy (c : Cmd) : Bool := decide (c.qid < 256)

/-- XCTL of REBLOCK: element width in bits, DIR, ROLE, TR (R272). -/
def Cmd.xctl (c : Cmd) : Nat := recNat c.bytes 9 1
def Cmd.elemBits (c : Cmd) : Nat := 4 * 2 ^ bitsOf c.xctl 0 2
def Cmd.readsCb (c : Cmd) : Bool := c.xctl.testBit 2

/-- The declared length L of a copy command (Table 14.7), of an EXCH (R372) or of a COMBINE (R380); 0 of any other.
DESIGN CHOICE (log 36): a copy opcode in a queue that does not accept it is no copy command, and has 0 too. -/
def Cmd.len (c : Cmd) : Nat :=
  let n := c.lenField
  let x := recNat c.bytes 0x20 4
  if 0x1000 ≤ c.qid ∧ c.qid < 0x1008 then (if c.opc = 0x20 then 4 * n else if c.opc = 0x21 then 512 * n else 0)
  else if !c.onCopy then 0
  else match c.opc with
    | 1 => n
    | 2 => x * n
    | 3 =>
      if c.readsCb then n * x * c.elemBits / 8
      else 8 * ((n + 7) / 8) * (32 * ((x + 31) / 32)) * c.elemBits / 8
    | 4 => x * n
    | 5 => n
    | 6 => n
    | 7 => n
    | _ => 0

/-- Whether CBAR keeps its limits (R256). -/
def State.cbarOk (s : State) (c : Cmd) : Bool :=
  c.cbar == 0xFFFF || ((s.launch? c.lid).map fun l => decide (c.cbar < l.barriers)).getD false

/-- Where the operation of a command stands: its engine's die, within the extents of the pushing team (R242, R270). -/
def Cmd.site (c : Cmd) : Site :=
  { team := c.team, cluster := c.cluster, ctx := c.ctx, die := (engineSocket c.qid).getD c.die }

/-- The writes of a command on their way. -/
def State.cmdWrites (s : State) (c : Cmd) : List Nat := (s.inflight.filter fun w => w.cmd = some c.id).map (·.id)

/-- The release that a delivery of a command stands for (R278): what its fork carried, and its delivered writes. -/
def State.deliverySide (s : State) (c : Cmd) : Rel :=
  { site := c.site, sc := cmdScope c.bytes
    ids := c.carry ++ (s.inflight.filter fun w => decide (w.cmd = some c.id ∧ w.off < c.delivered)).map (·.id) }

/-- `n` bytes of a command are delivered: the pointer of its stream and its barrier move (R266, R268). A command that never
began passes its forks on. -/
def State.deliver (s : State) (c : Cmd) (n : Nat) : State :=
  let sides := c.forks ++ [s.deliverySide c]
  let keepSide (rs : List Rel) : List Rel := (rs ++ sides).filter s.bears?
  let s := if !c.onCopy then s else s.onTeam c.team fun t => { t with
    wptr := keep 0 t.wptr c.qid (look 0 t.wptr c.qid + BitVec.ofNat 64 n)
    wrels := keep [] t.wrels c.qid (keepSide (look [] t.wrels c.qid)) }
  if c.cbar ≠ 0xFFFF ∧ s.cbarOk c then s.deliverBar c.team c.cbar n c.qid sides else s

/-- The entry of a command that ends FAULT (R267, Table 17.4). -/
def State.cmdPosting (s : State) (c : Cmd) (why : CauseRec) : Posting :=
  { src := 2
    why := { why with detail := BitVec.ofNat 64 (c.opc + c.qid * 0x10000 + c.delivered % 2 ^ 32 * 2 ^ 32) }
    lseq := ((s.launch? c.lid).map (·.seq)).getD 0
    teampos := c.teampos, die := c.die, core := c.core }

/-- The launch of the pushing team completes FAULT (R267). -/
def State.failLaunch (s : State) (lid : Nat) : State := s.onLaunch lid fun l => { l with fate := worse l.fate 1 }

/-- A command leaves its queue with a status: pointer and barrier take the remainder, the interrupt, the return word
(R259, R266, R267). Before an interrupt its writes are performed at system scope (R391), an MCA write at its single moment
(R359). -/
def State.leaveQueue (s : State) (c : Cmd) (status : Nat) : State :=
  let s := { s with cmds := s.cmds.filter fun x => x.id ≠ c.id }
  let s := if c.notifies then s.bringAll (s.cmdWrites c) else s
  let rest := c.len - c.delivered
  let s := if rest ≠ 0 then s.deliver c rest else s
  (s.notify c.ctx c.notifies).returnWord c.ret status c.delivered

/-- A command completes FAULT with a cause, which is posted; the launch of the pushing team completes FAULT (R267). -/
def State.faultCmd (s : State) (c : Cmd) (why : CauseRec) : State :=
  State.failLaunch ((s.post c.ctx (s.cmdPosting c why)).leaveQueue c 1) c.lid

end Sys2Proof.Machine
end

