-- ==== Sys2Proof/Machine/Scheduler.lean ====
section
/-! DEFINITION. The scheduler: submission, dependences, placement and completion of launches (spec/09 R176 to R189). -/

namespace Sys2Proof.Machine

/-! ### Records (R178, R179) -/

/-- Whether a 64-bit value is canonical and aligned. -/
def goodAddr (align a : Nat) : Bool := canonical a && decide (a % align = 0)

/-- The offset of the first field of a record that breaks a limit (R179, R132, R177, R216); `bars` is the pushing team's
barrier count, none for a port. -/
def Launch.broken (l : Launch) (c : CtxDesc) (bars : Option Nat) : Option Nat :=
  let h := recNat l.record 0 8
  let port := bars.isNone
  let sockets := c.sockets
  let lim (ok : Bool) (o : Nat) : Option Nat := if ok then none else some o
  [ lim (bitsOf h 10 2 == 0 && bitsOf h 12 4 == 0) 0x01,
    lim (!port || bitsOf h 16 8 == 0) 0x02,
    lim (decide (l.prio ≤ 7)) 0x03,
    lim (l.cbar == 0xFFFF || (bars.map fun b => decide (l.cbar < b)).getD false) 0x04,
    lim (bitsOf h 53 11 == 0 && (bitsOf h 52 1 == 0 && bitsOf h 48 4 == 0 || !port && bitsOf h 52 1 == 1)) 0x06,
    lim (goodAddr 4 l.entry) 0x08,
    lim (goodAddr 32 l.recordAddr) 0x18,
    lim (l.depAddr == 0 || goodAddr 32 l.depAddr) 0x20,
    lim (decide (1 ≤ l.gridX) && (l.cw == 0 || decide (l.gridX % l.cw = 0))) 0x28,
    lim (decide (1 ≤ l.gridY) && (l.ch == 0 || decide (l.gridY % l.ch = 0))) 0x2A,
    lim (decide (1 ≤ l.groupsPerTeam ∧ l.groupsPerTeam ≤ 32)) 0x2C,
    lim (decide (1 ≤ l.lastThreads ∧ l.lastThreads ≤ 32)) 0x2D,
    lim (decide (1 ≤ l.cw ∧ l.cw ≤ 12 ∧ 1 ≤ l.ch ∧ l.ch ≤ 12 ∧ l.cw * l.ch ≤ 12)) 0x2E,
    lim ((List.range 8).all fun k => !l.affinity.testBit k || sockets.contains k) 0x2F,
    lim (decide (1 ≤ l.vregs ∧ l.vregs ≤ 128)) 0x30,
    lim (decide (l.sregs ≤ 64)) 0x31,
    lim (decide (l.queueTotal ≤ 32)) 0x32,
    lim (decide (l.dualN ≤ 4) && recBits l.record 0x33 4 4 == 0) 0x33,
    lim (decide (l.tileUnits ≤ 896)) 0x34,
    lim (decide (l.laneBytes ≤ 1024 ∧ l.laneBytes % 4 = 0 ∧ l.laneBytes * l.groupsPerTeam ≤ 1024)) 0x36,
    lim (decide (l.barriers ≤ 1024)) 0x38,
    lim (if l.chain = 0 then l.ttl == 0 else decide (1 ≤ l.ttl)) 0x3C,
    lim (recBits l.record 0x3D 2 6 == 0 && (!l.chainLog || decide (c.logSize ≠ 0))) 0x3D,
    lim (recNat l.record 0x3E 2 == 0) 0x3E ].findSome? fun o => o

/-- The barrier count that bounds a launch's completion barrier, none for a port (R178). -/
def Launch.pusherBars (l : Launch) : Option Nat := l.team.map fun _ => l.pushBars

/-! ### Submission (R182 to R185) -/

/-- A launch is accepted, with its forks (R277), and takes the next acceptance sequence number (R182); what a RESUME has put
before all work of its context comes before it (R342). -/
def State.acceptLaunch (s : State) (c : Ctx) (bytes : List Byte) (team : Option Nat) (ret : Option RetTo)
    (forks : List Rel := []) : State × Nat :=
  let f := s.fresh
  let bars := ((team.bind f.2.team?).bind fun t => f.2.launch? t.lid).map (·.barriers)
  let l : Launch := { id := f.1, ctx := c.desc.ctx, record := bytes, seq := c.acc + 1
                      queue := c.desc.queueOf (recNat bytes 3 1), team := team, pushBars := bars.getD 0
                      gslot := recNat bytes 2 1, ret := ret, forks := forks, fork := s.onWay c.before }
  let s := f.2.onCtx c.desc.ctx fun c => { c with acc := c.acc + 1 }
  ({ s with launches := s.launches ++ [l] }, c.acc + 1)

/-- Whether a PCI Express port is up: its I/O die is ready (R388, Table 20.3). -/
def State.portUp (s : State) (port : Nat) : Bool := decide (port < 2) && s.pkg.ready.getLsbD (10 + port)

/-- The reply that a port holds for a context (R183, Table 23.1). -/
def State.setPortReply (s : State) (port ctx n : Nat) : State :=
  { s with pkg := { s.pkg with portReply := keep 0 s.pkg.portReply (port * 64 + ctx) n } }

/-- A write to a launch port (R183). DESIGN CHOICE (log 14): a launch that has completed but holds its record back (R182) is
uncompleted until that record is written, and counts among the 256. -/
def execLaunchPort (port ctx : Nat) (bytes : List Byte) (s : State) : Res :=
  match s.portUp port, s.ctx? ctx with
  | true, some c =>
    let q := c.desc.queueOf (recNat bytes 3 1)
    if bytes.length ≠ 64 ∨ recNat bytes 0 1 ≠ 0x40 ∨
        256 ≤ (s.launches.filter fun l => decide (l.ctx = ctx ∧ l.queue = q)).length then
      (s.setPortReply port ctx 0).did
    else
      let r := s.acceptLaunch c bytes none none
      (r.1.setPortReply port ctx r.2).did
  | true, none => .next s
  | false, _ => notEnabled

/-- The name of the entry that the latest PUSH of a lane reserved in a queue (R259). -/
def Group.lastReserved (g : Group) (lane q : Nat) : Option Nat :=
  ((g.queue lane q).entries.reverse.findSome? fun e =>
    match e with
    | .reserved id true => some id
    | _ => none)

/-- The acceptance of a LAUNCH command (R184). -/
def execLaunch (ctx team lane gid : Nat) (bytes : List Byte) (s : State) : Res :=
  match s.ctx? ctx with
  | none => notEnabled
  | some c =>
    let q := recBits bytes 0 48 4
    let ret : Option RetTo :=
      if recBits bytes 0 52 1 = 1 then
        ((s.group? gid).bind fun g => g.lastReserved lane q).map fun id => ⟨gid, lane, q, id⟩
      else none
    let forks := if recBits bytes 0 8 1 = 1 then [s.sideOf gid (((s.group? gid).map (·.seen)).getD []) 4] else []
    (s.acceptLaunch c bytes (some team) ret forks).1.did

/-- What the forks of a launch carry is performed before its first access (R263, R277); `none` where it cannot be yet. -/
def State.joinLaunch (s : State) (l : Launch) : Option (State × Launch) :=
  (s.fulfilAll l.forks).map fun s =>
    let l := { l with forks := [], fork := s.onWay (l.fork ++ l.forks.flatMap s.idsOf) }
    (s.onLaunch l.id fun _ => l, l)

/-! ### The head of a queue (R185, R186, R261) -/

/-- Whether everything accepted earlier on its scheduler queue lets a launch or command begin (R185, R261). -/
def State.atHead (s : State) (ctx queue id : Nat) : Bool :=
  (s.launches.all fun x => !(decide (x.ctx = ctx ∧ x.queue = queue ∧ x.id < id)) || x.allPlaced || x.finished)
  && s.cmds.all fun x => !(decide (x.ctx = ctx ∧ x.qid = 0x2000 ∧ x.squeue = queue ∧ x.id < id))

/-- Whether a launch has a verdict that lets it run, or needs none (R262): no GUARD reaches a launch from a port. -/
def Launch.cleared (l : Launch) : Bool := l.gslot == 0 || l.team.isNone || l.verdict == some true

/-- Whether a launch may place teams now, room and dies apart. -/
def State.startable (s : State) (l : Launch) : Bool :=
  match s.ctx? l.ctx with
  | none => false
  | some c =>
    decide (c.phase = .live) && s.atHead l.ctx l.queue l.id && l.cleared && !l.closed && !l.allPlaced
    && (l.broken c.desc l.pusherBars).isNone && (l.depAddr == 0 || l.depDone)

/-- A launch ends before it has run a thread, or places no further team. -/
def State.close (s : State) (l : Launch) (status : Nat) : State :=
  s.onLaunch l.id fun l => { l with fate := some status, closed := true }

/-- The uncompleted launch that a dependence waits for (R186, rule 1). -/
def State.producer (s : State) (l : Launch) : Option Launch :=
  s.launches.find? fun x => x.ctx = l.ctx ∧ x.recordAddr = l.depAddr ∧ x.seq < l.seq

/-- The dependence of the launch at the head of a queue is resolved (R186). DEDUCED (log 14): a record on a fenced channel fails the
dependence, with MEMERR where a translation failure has its cause. -/
def execDependenceResolve (ctx queue : Nat) (s : State) : Res :=
  match s.ctx? ctx, s.launches.find? fun l => l.ctx = ctx ∧ l.queue = queue ∧ !l.allPlaced ∧ !l.finished with
  | some c, some l =>
    if c.phase ≠ .live ∨ !s.atHead ctx queue l.id ∨ !l.cleared ∨ l.closed ∨ l.depAddr = 0 ∨ l.depDone ∨
        (l.broken c.desc l.pusherBars).isSome then notEnabled
    else match s.joinLaunch l with
    | none => notEnabled
    | some (s, l) =>
      let settle (s : State) (st : Nat) : State :=
        if st = 0 then s.onLaunch l.id fun l => { l with depDone := true }
        else (s.close l 3).onLaunch l.id fun l => { l with depDone := true }
      let fail (code : BitVec 8) : State :=
        let p := launchPosting l code 0x20
        settle (s.post ctx { p with why := { p.why with space := 0, addr := BitVec.ofNat 64 l.depAddr } }) 3
      match l.depStatus with
      | some st => (settle s st).did
      | none =>
        if (s.producer l).isSome then notEnabled
        else match s.translate .host c.desc ⟨true, false, none⟩ .read l.depAddr 1 with
          | .error e => s.didPosting ctx (fail e)
          | .ok pa =>
            if s.fencedAt pa then s.didPosting ctx (fail 0x31)
            else (settle s ((s.homeBytes pa 1).headD 0).toNat).did
  | _, _ => notEnabled

/-! ### Placement (R177, R187 to R189) -/

/-- Whether a WSLOAD into a die's slice of a context has begun, so that no team may be placed there yet (R227). -/
def State.loading (s : State) (c : CtxDesc) (die : Nat) : Bool :=
  s.cmds.any fun x => decide (x.ctx = c.ctx ∧ x.opc = 6 ∧ recBits x.bytes 0x20 0 3 = die) && x.onCopy &&
    (x.state == .running || x.state == .residual)

/-- Whether a die is usable by a context (R187). -/
def State.usable (s : State) (c : CtxDesc) (die : Nat) : Bool :=
  c.sockets.contains die && s.pkg.ready.getLsbD die && !s.pkg.fencedSock.getLsbD die

/-- The dies that a launch's mask names (Table 9.2). -/
def Launch.maskDies (l : Launch) (c : CtxDesc) : List Nat :=
  c.sockets.filter fun k => l.affinity == 0 || l.affinity.testBit k

/-- Teams that hold room on a core (R177, R338). -/
def State.coreTeams (s : State) (die core : Nat) : List Team :=
  s.teams.filter fun t => decide (t.die = die ∧ t.core = core) &&
    ((s.ctx? t.ctx).map fun c => decide (c.phase = .live) || c.held.contains (coreKey die core)).getD true

/-- What a core holds: groups, tile units, lane-local bytes, barriers (R177). -/
structure Load where
  groups : Nat := 0
  units : Nat := 0
  bytes : Nat := 0
  bars : Nat := 0
  deriving DecidableEq, Repr

/-- Whether some group of a team has yet to retire: until the last one does, all groups of the team are resident (R176). -/
def State.teamResides (s : State) (t : Team) : Bool := s.groups.any fun g => g.team = t.id

def State.coreLoad (s : State) (die core : Nat) : Load :=
  (s.coreTeams die core).foldl (fun x t =>
    match s.launch? t.lid with
    | none => x
    | some l =>
      let n := if s.teamResides t then l.groupsPerTeam else 0
      ⟨x.groups + n, x.units + l.tileUnits, x.bytes + n * l.laneBytes, x.bars + l.barriers⟩) {}

/-- Whether a team of a launch fits a core (R177). -/
def Load.fits (x : Load) (groups : Nat) (l : Launch) : Bool :=
  decide (x.groups + groups ≤ 32 ∧ x.units + l.tileUnits ≤ 896 ∧ x.bytes + groups * l.laneBytes ≤ 1024
    ∧ x.bars + l.barriers ≤ 1024)

/-- The cores of a rectangle, row by row, with their offsets. -/
def rectangle (row col w h : Nat) : List (Nat × Nat × Nat) :=
  (List.range h).flatMap fun y => (List.range w).map fun x => (x, y, (row + y) * 16 + col + x)

/-- Whether a rectangle of a launch's clusters lies on the mesh and has room (R188). -/
def State.rectFits (s : State) (l : Launch) (die row col : Nat) : Bool :=
  decide (row + l.ch ≤ 12 ∧ col + l.cw ≤ 16) &&
  (rectangle row col l.cw l.ch).all fun r => (s.coreLoad die r.2.2).fits l.groupsPerTeam l

/-- Whether a launch could place a cluster on a rectangle that meets another one (R185). -/
def State.couldTake (s : State) (l : Launch) (die row col w h : Nat) : Bool :=
  s.startable l &&
  ((s.ctx? l.ctx).map fun c =>
    (l.maskDies c.desc).contains die && s.usable c.desc die && !s.loading c.desc die).getD false &&
  (List.range (h + l.ch - 1)).any fun y => (List.range (w + l.cw - 1)).any fun x =>
    decide (l.ch ≤ row + y + 1 ∧ l.cw ≤ col + x + 1) && s.rectFits l die (row + y + 1 - l.ch) (col + x + 1 - l.cw)

/-- Whether a launch is offered a freed core before another (R185). -/
def Launch.before (l m : Launch) : Bool := decide (m.prio < l.prio ∨ (l.prio = m.prio ∧ l.id < m.id))

/-- A group at its birth (R11, R12); what the fork of its launch carried comes before its accesses (R277). -/
def newGroup (id team groupId threads : Nat) (pipe : Bool) (fork : List Nat) (tick : Nat := 0) : Group :=
  let ctl := Ctl.single 0 (BitVec.ofNat 32 (2 ^ threads - 1))
  { id := id, team := team, groupId := groupId, nthreads := threads, pipe := pipe, ctl := ctl, recorded := ctl, seen := fork
    unready := tick }

/-- The pipes of the groups resident on a core: those of the teams whose last group has yet to retire, of contexts that are
not pre-empted (R176, R190). -/
def State.residents (s : State) (die core : Nat) : List Bool :=
  (s.teams.filter fun t => decide (t.die = die ∧ t.core = core) && s.teamResides t &&
    ((s.ctx? t.ctx).map fun c => decide (c.phase = .live)).getD false).flatMap (·.pipes)

/-- Pipe of the next group of a core: the one with fewer resident groups, pipe 0 on a tie (R190). -/
def State.nextPipe (s : State) (die core : Nat) : Bool :=
  let here := s.residents die core
  decide (here.count true < here.count false)

/-- The groups of a team are born, each bound to a pipe (R189, R190). -/
def State.bearGroups (s : State) (l : Launch) (t : Team) : State :=
  (List.range l.groupsPerTeam).foldl (fun s k =>
    let f := s.fresh
    let threads := if k + 1 = l.groupsPerTeam then l.lastThreads else 32
    let pipe := f.2.nextPipe t.die t.core
    State.onTeam { f.2 with groups := f.2.groups ++ [newGroup f.1 t.id k threads pipe (f.2.onWay l.fork) s.tick] } t.id
      fun t => { t with pipes := t.pipes ++ [pipe] }) s

/-- A cluster is placed, all its teams at once (R188, R189). -/
def State.placeCluster (s : State) (l : Launch) (die row col : Nat) : State :=
  let cl := s.fresh
  let across := l.gridX / l.cw
  let x0 := l.placed % across * l.cw
  let y0 := l.placed / across * l.ch
  let s := (rectangle row col l.cw l.ch).foldl (fun s r =>
    let f := s.fresh
    let t : Team := { id := f.1, lid := l.id, ctx := l.ctx, x := x0 + r.1, y := y0 + r.2.1, die := die, core := r.2.2
                      corner := row * 16 + col, cw := l.cw, ch := l.ch, cluster := cl.1 }
    State.bearGroups { f.2 with teams := f.2.teams ++ [t] } l t) cl.2
  s.onLaunch l.id fun l => { l with placed := l.placed + 1 }

/-- The launch at the head of its queue places its next cluster, or ends before that: DISCARDED (R262), FAULT (R179),
AFFINITY_EMPTY, or FAULT with no usable die left (R187). -/
def execTeamPlacement (lid die row col : Nat) (s : State) : Res :=
  match s.launch? lid with
  | none => notEnabled
  | some l =>
    match s.ctx? l.ctx with
    | none => notEnabled
    | some c =>
      if c.phase ≠ .live ∨ !s.atHead l.ctx l.queue l.id ∨ l.closed ∨ l.allPlaced then notEnabled
      else if l.gslot ≠ 0 ∧ l.verdict = some false then (s.close l 5).did
      else if !l.cleared then notEnabled
      else match l.broken c.desc l.pusherBars with
        | some o => s.didPosting l.ctx ((s.post l.ctx (launchPosting l 0x12 o)).close l 1)
        | none =>
          if l.depAddr ≠ 0 ∧ !l.depDone then notEnabled
          else
            let dies := l.maskDies c.desc
            if dies.all fun k => s.pkg.fencedSock.getLsbD k then (s.close l (if l.placed = 0 then 2 else 1)).did
            else if dies.contains die && s.usable c.desc die && !s.loading c.desc die && s.rectFits l die row col &&
                !(s.launches.any fun m => m.before l && s.couldTake m die row col l.cw l.ch) then
              match s.joinLaunch l with
              | none => notEnabled
              | some (s, l) => (s.placeCluster l die row col).did
            else notEnabled

/-! ### Completion (R181) -/

/-- Writes that a launch's record comes after: its own, those of its commands, and those acquired before them. -/
def Launch.owns (l : Launch) (w : InWrite) : Bool :=
  w.lid == l.id || l.seen.contains w.id || l.fork.contains w.id || l.forks.any fun r => r.carries w

/-- Whether nothing of a launch runs any more (R181). -/
def State.launchIdle (s : State) (l : Launch) : Bool :=
  (l.closed || l.allPlaced) && (s.teams.all fun t => t.lid ≠ l.id) && (s.cmds.all fun c => c.lid ≠ l.id)
  && s.inflight.all fun w => !l.owns w || s.canBring w.id

/-- A launch completes (R181). It waits for its entries in the fault record (R318) and for room in the orphan log
(R365). -/
def execLaunchComplete (lid : Nat) (s : State) : Res :=
  match s.launch? lid with
  | none => notEnabled
  | some l =>
    match s.ctx? l.ctx with
    | none => notEnabled
    | some c =>
      if c.phase ≠ .live ∨ l.finished ∨ !s.launchIdle l ∨ c.faultQ.any (fun p => p.lseq = l.seq)
      then notEnabled
      else match s.joinLaunch l with
        | none => notEnabled
        | some (t, l) =>
          let ids := (t.inflight.filter l.owns).map (·.id)
          if !ids.all t.canBring then notEnabled
          else
            let s' := t.bringAll ids
            s.didPosting l.ctx (s'.finishLaunch c l)

end Sys2Proof.Machine
end

