-- ==== Sys2Proof/Machine/Command.lean ====
section
/-! DEFINITION. Copy commands: streams, the checks at their start, what they read, and deliveries (spec/14 R254 to R279;
spec/12 R226 to R228; spec/18 R345). -/

namespace Sys2Proof.Machine

/-! ### Streams (R261) -/

/-- Whether two commands belong to one stream. -/
def Cmd.sameStream (a b : Cmd) : Bool :=
  if a.qid = 0x2000 then decide (b.qid = 0x2000 ∧ a.ctx = b.ctx ∧ a.squeue = b.squeue)
  else if a.qid = 0x3000 then decide (b.qid = 0x3000 ∧ a.ctx = b.ctx)
  else decide (a.qid = b.qid ∧ a.team = b.team)

/-- Whether a command stands at the head of its stream. -/
def State.cmdHead (s : State) (c : Cmd) : Bool :=
  if c.qid = 0x2000 then s.atHead c.ctx c.squeue c.id
  else s.cmds.all fun x => !(c.sameStream x && decide (x.id < c.id))

/-- The socket of a command's engine. -/
def Cmd.socket (c : Cmd) : Nat := (engineSocket c.qid).getD c.die

/-- Whether the engine of a command is on a fenced die (R276). -/
def State.engineFenced (s : State) (c : Cmd) : Bool :=
  (engineSocket c.qid).any fun k => s.pkg.fencedSock.getLsbD k

/-! ### Fields (Tables 14.2, 14.6, 14.7) -/

def Cmd.sc (c : Cmd) : Nat := recBits c.bytes 8 0 3
def Cmd.mcaBit (c : Cmd) : Bool := recBits c.bytes 8 3 1 == 1
def Cmd.ssp (c : Cmd) : Nat := recBits c.bytes 8 4 2
def Cmd.dsp (c : Cmd) : Nat := recBits c.bytes 8 6 2
def Cmd.coff (c : Cmd) : W32 := BitVec.ofNat 32 (recNat c.bytes 0x0A 2)
def Cmd.src (c : Cmd) : Nat := recNat c.bytes 0x10 8
def Cmd.dst (c : Cmd) : Nat := recNat c.bytes 0x18 8
/-- The 32-bit field at 0x20: rows, K, count, pattern. -/
def Cmd.x20 (c : Cmd) : Nat := recNat c.bytes 0x20 4
def Cmd.x28 (c : Cmd) : Nat := recNat c.bytes 0x28 8
def Cmd.x30 (c : Cmd) : Nat := recNat c.bytes 0x30 8
/-- Whether the writes of a copy command are MCA writes (R357). -/
def Cmd.mca (c : Cmd) : Bool := c.mcaBit && decide (4 ≤ c.sc)
/-- TARGET, or the context that DSNAP names. -/
def Cmd.other (c : Cmd) : Nat := if recBits c.bytes 0x20 6 1 = 1 then recBits c.bytes 0x20 0 6 else c.ctx

/-- The opcodes that a queue accepts (Table 14.1). -/
def Cmd.accepted (c : Cmd) : Bool :=
  if c.qid < 256 then decide (1 ≤ c.opc ∧ c.opc ≤ 7)
  else if c.qid = 0x2000 then decide (0x40 ≤ c.opc ∧ c.opc ≤ 0x42)
  else if c.qid = 0x3000 then c.opc == 0x50
  else c.opc == 0x20 || c.opc == 0x21

/-- The header's limits (R256). -/
def State.headerOk (s : State) (c : Cmd) : Bool :=
  let h := recNat c.bytes 0 8
  bitsOf h 12 4 == 0 && bitsOf h 53 11 == 0 && decide (recNat c.bytes 3 1 ≤ 7) && s.cbarOk c
  && (bitsOf h 10 1 == 0 || c.opc == 0x20) && (bitsOf h 11 1 == 0 || c.opc == 0x21)

/-! ### REBLOCK (R272) -/

/-- Outer count padded, and K padded. -/
def Cmd.p8 (c : Cmd) : Nat := 8 * ((c.lenField + 7) / 8)
/-- Whether the outer index is the row of the row-major matrix. -/
def Cmd.outerRow (c : Cmd) : Bool := xor (!c.xctl.testBit 3) (c.xctl.testBit 4)
/-- Columns of the row-major matrix. -/
def Cmd.cols (c : Cmd) : Nat := if c.outerRow then c.x20 else c.lenField
/-- Bytes of a row of the row-major matrix. -/
def Cmd.rowBytes (c : Cmd) : Nat := c.cols * c.elemBits / 8

/-- Outer index and k of CB32 element `e`. -/
def Cmd.fromCb (c : Cmd) (e : Nat) : Nat × Nat :=
  (e % (c.p8 * 32) / 32, e / (c.p8 * 32) * 32 + e % 32)

/-- CB32 element of (i, k). -/
def Cmd.toCb (c : Cmd) (i k : Nat) : Nat := k / 32 * c.p8 * 32 + i * 32 + k % 32

/-- Bit position, from the source base, of bit `q` of the delivered bytes; none is padding. -/
def Cmd.reblockBit (c : Cmd) (q : Nat) : Option Nat :=
  let w := c.elemBits
  if c.readsCb then
    let r := q / (8 * c.rowBytes)
    let col := q % (8 * c.rowBytes) / w
    let ik := if c.outerRow then (r, col) else (col, r)
    some (c.toCb ik.1 ik.2 * w + q % w)
  else
    let ik := c.fromCb (q / w)
    if ik.1 < c.lenField ∧ ik.2 < c.x20 then
      let rc := if c.outerRow then ik else (ik.2, ik.1)
      some (rc.1 * c.x28 * 8 + rc.2 * w + q % w)
    else none

/-! ### Addresses -/

/-- Sum of an address and a signed offset (64 bits). -/
def wrapAdd (a : Nat) (o : Int) : Nat := (((a : Int) + o) % 2 ^ 64).toNat

/-- The destination of delivery byte `j` (Table 14.7). -/
def Cmd.dstOf (c : Cmd) (j : Nat) : Nat :=
  match c.opc with
  | 2 => wrapAdd c.dst ((j / c.lenField : Nat) * signed 64 c.x30 + (j % c.lenField : Nat))
  | 3 => if c.readsCb then wrapAdd c.dst ((j / c.rowBytes * c.x28 + j % c.rowBytes : Nat)) else wrapAdd c.dst j
  | _ => wrapAdd c.dst j

/-- Delivery bytes from `j` on whose destinations are consecutive. -/
def Cmd.runFrom (c : Cmd) (j : Nat) : Nat :=
  match c.opc with
  | 2 => c.lenField - j % c.lenField
  | 3 => if c.readsCb then c.rowBytes - j % c.rowBytes else c.len - j
  | _ => c.len - j

/-- The source byte of COPY, COPY2D and WSLOAD. -/
def Cmd.srcOf (c : Cmd) (j : Nat) : Nat :=
  if c.opc = 2 then wrapAdd c.src ((j / c.lenField : Nat) * signed 64 c.x28 + (j % c.lenField : Nat)) else wrapAdd c.src j

/-- Source ranges that are known before any access (address, bytes). -/
def Cmd.srcRanges (c : Cmd) : List (Nat × Nat) :=
  match c.opc with
  | 1 => [(c.src, c.lenField)]
  | 2 => (List.range c.x20).map fun (i : Nat) => (wrapAdd c.src (i * signed 64 c.x28), c.lenField)
  | 3 =>
    if c.readsCb then [(c.src, c.p8 * (32 * ((c.x20 + 31) / 32)) * c.elemBits / 8)]
    else (List.range (if c.outerRow then c.lenField else c.x20)).map fun r =>
      (wrapAdd c.src (r * c.x28 : Nat), (c.cols * c.elemBits + 7) / 8)
  | 6 => [(c.src, c.lenField)]
  | _ => []

/-- Destination ranges. -/
def Cmd.dstRanges (c : Cmd) : List (Nat × Nat) :=
  match c.opc with
  | 2 => (List.range c.x20).map fun (i : Nat) => (wrapAdd c.dst (i * signed 64 c.x30), c.lenField)
  | 3 =>
    if c.readsCb then
      (List.range (if c.outerRow then c.lenField else c.x20)).map fun r => (wrapAdd c.dst (r * c.x28 : Nat), c.rowBytes)
    else [(c.dst, c.len)]
  | _ => [(c.dst, c.len)]

/-! ### Sides -/

/-- Whether the core at COFF belongs to the pushing team's cluster, and its COREPOS (R194, R270). -/
def State.member (s : State) (c : Cmd) : Option Nat :=
  let row := (c.core / 16 : Nat) + signed 8 (bitsOf c.coff.toNat 8 8)
  let col := (c.core % 16 : Nat) + signed 8 (bitsOf c.coff.toNat 0 8)
  match s.launch? c.lid with
  | none => none
  | some l =>
    if (c.corner / 16 : Nat) ≤ row ∧ row < (c.corner / 16 + l.ch : Nat) ∧ (c.corner % 16 : Nat) ≤ col ∧
        col < (c.corner % 16 + l.cw : Nat) then some (row * 16 + col).toNat
    else none

/-- The team at COFF, while it is resident. -/
def State.memberTeam (s : State) (c : Cmd) : Option Team :=
  (s.member c).bind fun k => s.teams.find? fun t => t.cluster = c.cluster ∧ t.core = k

/-- Bytes of tile memory that the launch declares (R229). -/
def State.tileBytes (s : State) (c : Cmd) : Nat := ((s.launch? c.lid).map fun l => l.tileUnits * 256).getD 0

/-- WSPHYS and WSSIZE of a context on a die, in bytes. -/
def CtxDesc.slice (d : CtxDesc) (die : Nat) : Nat × Nat :=
  let w := d.ws.getD die (0, 0)
  (w.1 * 65536, w.2 * 65536)

/-- Whether an address lies in the window range of the pushing context on the pusher's die (R226). -/
def Cmd.inWindow (c : Cmd) (d : CtxDesc) (va : Nat) : Bool :=
  decide ((d.slice c.die).2 ≠ 0 ∧ windowBase ≤ va ∧ va < windowBase + windowSpan)

/-- Pieces of a range that stay within one 64 KiB page. -/
def pagePieces : Nat → Nat → Nat → List (Nat × Nat)
  | 0, _, _ => []
  | fuel + 1, va, n =>
    if n = 0 then []
    else
      let k := min n (65536 - va % 65536)
      (va, k) :: pagePieces fuel ((va + k) % 2 ^ 64) (n - k)

/-- The pieces of ranges. -/
def splitPages (rs : List (Nat × Nat)) : List (Nat × Nat) := rs.flatMap fun r => pagePieces (r.2 / 65536 + 2) r.1 r.2

/-- Whether a global range meets a carve-out that is closed to the command (R223, Table 14.8). -/
def State.carved (s : State) (c : Cmd) (x : Ctx) (k : Kind) (rs : List (Nat × Nat)) : Bool :=
  (splitPages rs).any fun r =>
    canonical r.1 && !c.inWindow x.desc r.1 &&
    match s.walk (.socket c.socket) x.desc k r.1 with
    | .error _ => false
    | .ok l => decide (l.pa < gddrTop) && s.ctxs.any fun y => s.closes y.2 ⟨c.priv, true, some c.die⟩ (l.pa + r.1 % 65536) r.2

/-- Whether ranges lie within a limit. -/
def inside (limit : Nat) (rs : List (Nat × Nat)) : Bool := rs.all fun r => decide (r.1 + r.2 ≤ limit)

/-- Whether a side in tile memory is legal (R270). -/
def State.tileSideOk (s : State) (c : Cmd) (base : Nat) (rs : List (Nat × Nat)) (write : Bool) : Bool :=
  (s.member c).isSome && decide (base < 2 ^ 32) && inside (s.tileBytes c) rs
  && (!write || c.coff == 0 || decide (2 ≤ c.sc))

/-- Whether no source byte lies in the window range beyond the slice (R226, R270). -/
def Cmd.windowSrcOk (c : Cmd) (d : CtxDesc) (rs : List (Nat × Nat)) : Bool :=
  let size := (d.slice c.die).2
  size == 0 || rs.all fun r => !meets r.1 r.2 (windowBase + size) (windowSpan - size)

/-- The fields at 0x20 to 0x3F and XCTL (Table 14.7, R272 to R275). -/
def Cmd.fieldsOk (c : Cmd) (dirtyBytes : Nat) : Bool :=
  let hi := recNat c.bytes 0x24 4
  let tail (o : Nat) : Bool := recNat c.bytes o (0x40 - o) == 0
  match c.opc with
  | 1 => decide (1 ≤ c.lenField) && tail 0x20 && c.xctl == 0
  | 2 => decide (1 ≤ c.lenField ∧ 1 ≤ c.x20 ∧ hi = 0 ∧ (c.lenField : Int) ≤ signed 64 c.x30) && tail 0x38 && c.xctl == 0
  | 3 =>
    decide (1 ≤ c.lenField ∧ 1 ≤ c.x20 ∧ hi = 0 ∧ 0 < signed 64 c.x28) && tail 0x30 && bitsOf c.xctl 5 3 == 0
    && (!c.readsCb || decide (c.cols * c.elemBits % 8 = 0 ∧ c.rowBytes ≤ c.x28))
  | 4 => decide (1 ≤ c.lenField ∧ hi = 0 ∧ c.x28 % 4 = 0) && tail 0x38 && decide (c.xctl ≤ 1)
  | 5 => decide (1 ≤ c.lenField ∧ hi = 0 ∧ c.ssp = 0 ∧ c.src = 0) && tail 0x28 && c.xctl == 0
  | 6 => decide (1 ≤ c.lenField ∧ recNat c.bytes 0x20 8 < 8 ∧ c.ssp = 0) && tail 0x28 && c.xctl == 0 && c.coff == 0
  | 7 =>
    decide (c.lenField = dirtyBytes ∧ recNat c.bytes 0x20 8 < 128 ∧ c.ssp = 0 ∧ c.src = 0) && tail 0x28 && c.xctl == 0
  | _ => false

/-- Bytes of a context's dirty-page bitmap (R345). -/
def CtxDesc.dirtyBytes (d : CtxDesc) : Nat := 8 * ((d.dirtyPages + 63) / 64)

/-- The target socket of WSLOAD. -/
def Cmd.target (c : Cmd) : Nat := recBits c.bytes 0x20 0 3

/-- The checks of a copy command when it becomes RUNNING (R269, R270, R274 to R276): PROT, then WSWRITE. -/
def State.copyCheck (s : State) (c : Cmd) (x : Ctx) : Option (BitVec 8) :=
  let dirty := ((s.ctx? c.other).map fun y => y.desc.dirtyBytes).getD 0
  let reads := decide (c.opc ≠ 5 ∧ c.opc ≠ 7)
  let index := [(c.x28, 4 * c.x20)]
  let ok :=
    s.headerOk c && c.accepted && decide (1 ≤ c.sc ∧ c.sc ≤ 5 ∧ c.ssp ≤ 1 ∧ c.dsp ≤ 2)
    && (c.dsp == 2) == (c.opc == 6) && c.fieldsOk dirty
    && (if c.socket < 8 then decide (4 ≤ c.sc) || c.socket == c.die else decide (4 ≤ c.sc))
    && (c.opc ≠ 6 || (x.desc.sockets.contains c.target && decide (4 ≤ c.sc)))
    && (c.opc ≠ 7 || (s.ctx? c.other).isSome && (c.priv || recBits c.bytes 0x20 6 1 == 0))
    && (c.dsp ≠ 1 || s.tileSideOk c c.dst c.dstRanges true)
    && (!reads || c.ssp ≠ 1 || s.tileSideOk c c.src c.srcRanges false)
    && (!reads || c.ssp ≠ 0 || c.windowSrcOk x.desc c.srcRanges)
    && (c.opc ≠ 4 || (if c.xctl = 1 then s.tileSideOk c c.x28 index false else c.windowSrcOk x.desc index))
    && (c.dsp ≠ 2 || decide (windowBase ≤ c.dst ∧ c.dst - windowBase + c.lenField ≤ (x.desc.slice c.target).2))
    && !(c.dsp == 0 && s.carved c x .write c.dstRanges)
    && !(reads && c.ssp == 0 && s.carved c x .read c.srcRanges)
    && !(c.opc == 4 && c.xctl == 0 && s.carved c x .read index)
  if !ok then some 0x12
  else if c.dsp = 0 ∧ (splitPages c.dstRanges).any fun r => c.inWindow x.desc r.1 then some 0x13
  else none

/-- Places of the pieces of a side, where they are known (R271). -/
def State.pieces (s : State) (c : Cmd) (x : Ctx) (space : Nat) (k : Kind) (rs : List (Nat × Nat)) : List (Loc × Nat) :=
  if space = 1 then rs.map fun r => (.tile 0 r.1, r.2)
  else (splitPages rs).filterMap fun r =>
    if c.inWindow x.desc r.1 then none
    else match s.walk (.socket c.socket) x.desc k r.1 with
      | .error _ => none
      | .ok l => some (.mem (l.pa + r.1 % 65536), r.2)

/-- Whether the source and the destination of a COPY or COPY2D overlap (R271). -/
def State.copyOverlaps (s : State) (c : Cmd) (x : Ctx) : Bool :=
  decide (c.opc = 1 ∨ c.opc = 2) &&
  let a := s.pieces c x c.ssp .read c.srcRanges
  let b := s.pieces c x c.dsp .write c.dstRanges
  a.any fun p => b.any fun q => p.1.overlaps p.2 q.1 q.2

/-- Whether a team of a context is placed on a die; those of a pre-empted context count (R227). -/
def State.teamOn (s : State) (ctx die : Nat) : Bool := s.teams.any fun t => t.ctx = ctx ∧ t.die = die

/-! ### Reading -/

/-- One source byte of a command: from global memory, the weight store window or tile memory (R270); `none` waits for a
refresh window. Data with an uncorrectable error end the command (R276). Of tile memory each byte is that of
`old` or of `s`, between which stores have arrived (R237). DESIGN CHOICE (log 36): a byte of the tile memory of a team that has
retired, of which R268 states only the deliveries, is a free value. -/
def State.srcByte (old s : State) (c : Cmd) (x : Ctx) (space va : Nat) : Except (BitVec 8) (Option Byte) :=
  if s.ecc then .error 0x31
  else if let some e := c.early.find? fun e => e.1 = space ∧ e.2.1 = va then .ok (some e.2.2)
  else if space = 1 then
    match s.memberTeam c with
    | some t => .ok (some (old.unitByte s t.id va))
    | none => .ok (some (BitVec.ofNat 8 (Config.laneChoice s.free va)))
  else if c.inWindow x.desc va then
    let o := va - windowBase
    let w := x.desc.slice c.die
    if w.2 ≤ o then .error 0x12
    else if (s.dieSt c.die).refresh = some (wsBank (w.1 + o)) then .ok none
    else .ok (some (look 0 s.ws (wsKey c.die (w.1 + o))))
  else match s.translate (.socket c.socket) x.desc ⟨c.priv, true, some c.die⟩ .read va 1 with
    | .error e => .error e
    | .ok pa => if s.fencedAt pa then .error 0x31 else .ok (some (s.viewByte none (.socket c.socket) pa))

/-- Bytes read by one step, and how the step ended: all read, waiting for a refresh, or with a cause. -/
structure Fetched where
  got : List Byte := []
  wait : Bool := false
  cause : Option (BitVec 8) := none
  deriving DecidableEq, Repr

/-- Reads bytes one by one until one waits or fails. -/
def fetchBytes (f : Nat → Except (BitVec 8) (Option Byte)) : List Nat → Fetched
  | [] => {}
  | j :: js =>
    match f j with
    | .error e => { cause := some e }
    | .ok none => { wait := true }
    | .ok (some b) =>
      let r := fetchBytes f js
      { r with got := b :: r.got }

/-- A running copy command whose engine can read on. -/
def State.reading (s : State) (c : Cmd) : Bool :=
  c.onCopy && decide (c.state = .running ∧ c.fetched < c.len) && c.fate.isNone && !s.engineFenced c

/-- The bytes of a step enter the engine; a cause ends the command once it completes (R276). -/
def State.stage (s : State) (c : Cmd) (r : Fetched) : Res :=
  if r.got.isEmpty ∧ r.cause.isNone then notEnabled
  else State.did { s.onCmd c.id fun c => { c with
      staged := c.staged ++ r.got, fetched := c.fetched + r.got.length
      fate := r.cause.map fun e => { code := e } } with free := s.free + 1 }

/-- The bytes that a step of `n` bytes reads. -/
def Cmd.nextBytes (c : Cmd) (n : Nat) : List Nat := (List.range (min n (c.len - c.fetched))).map (c.fetched + ·)

/-- Half a byte of REBLOCK from its source. -/
def State.reblockHalf (old s : State) (c : Cmd) (x : Ctx) (q : Nat) : Except (BitVec 8) (Option (BitVec 4)) :=
  match c.reblockBit q with
  | none => .ok (some 0)
  | some p =>
    match old.srcByte s c x c.ssp (wrapAdd c.src (p / 8 : Nat)) with
    | .error e => .error e
    | .ok none => .ok none
    | .ok (some b) => .ok (some (b.extractLsb' (p % 8) 4))

/-- A row of GATHER: its index is read once, with its bytes (R273). DESIGN CHOICE (log 36): a row whose index takes it outside
the tile or window bounds faults PROT when it is read, after the rows before it; Table 14.8 puts that check at the start, where
no index is known. -/
def State.gatherRow (old s : State) (c : Cmd) (x : Ctx) (row : Nat) : Fetched :=
  let r := fetchBytes (fun k => old.srcByte s c x (if c.xctl = 1 then 1 else 0) (wrapAdd c.x28 (4 * row + k : Nat)))
    (List.range 4)
  if r.got.length < 4 then { r with got := [] }
  else
    let idx := ofLe r.got
    if idx = 0xFFFFFFFF then { got := List.replicate c.lenField 0 }
    else
      let base := wrapAdd c.src (idx * signed 64 c.x30)
      let bad := c.ssp = 1 ∧ s.tileBytes c < base + c.lenField
      if bad then { cause := some 0x12 }
      else
        let r := fetchBytes (fun k => old.srcByte s c x c.ssp (wrapAdd base (k : Nat))) (List.range c.lenField)
        if r.wait then { wait := true } else r

/-- The bytes of a dirty-page bitmap (R345). -/
def Ctx.bitmap (x : Ctx) : List Byte :=
  (List.range x.desc.dirtyBytes).map fun k =>
    BitVec.ofNat 8 ((List.range 8).foldl (fun b i => if x.dirty.contains (8 * k + i) then b + 2 ^ i else b) 0)

/-- The writes that have been performed toward a command at team or cluster scope arrive before it reads (R244, R277). -/
def State.summonFor (s : State) (c : Cmd) : Option State := s.summonAll c.site fun _ => decide (c.sc ≤ 2)

/-- Stores to the tile memory that a command reads arrive while it does (R237). -/
def State.stirSource (s : State) (c : Cmd) : State := ((s.memberTeam c).map fun t => s.stirTile t.id).getD s

/-- What the next step of a copy command reads (Table 14.7): `n` bytes, `n` rows of GATHER, or the whole of DSNAP, which
clears the bitmap that it copies (R275). A GATHER that resumes within a row reads it again, and delivers on from its first
undelivered byte (R341). DESIGN CHOICE (log 36): where the context that DSNAP names has been destroyed since its check, no rule
says what the command does, and it stays RUNNING. -/
def State.readStep (s : State) (c : Cmd) (x : Ctx) (n : Nat) : Res :=
  if !s.reading c then notEnabled
  else match s.summonFor c with
  | none => notEnabled
  | some old =>
  let s := old.stirSource c
  match c.opc with
  | 3 => s.stage c (fetchBytes (fun j =>
      match old.reblockHalf s c x (8 * j), old.reblockHalf s c x (8 * j + 4) with
      | .error e, _ => .error e
      | _, .error e => .error e
      | .ok (some lo), .ok (some hi) => .ok (some (hi ++ lo))
      | _, _ => .ok none) (c.nextBytes n))
  | 4 =>
    let row := c.fetched / c.lenField
    let step (a : Fetched) (k : Nat) : Fetched :=
      if a.wait || a.cause.isSome then a
      else
        let r := old.gatherRow s c x (row + k)
        { r with got := a.got ++ r.got }
    let r := (List.range (min n (c.x20 - row))).foldl step {}
    s.stage c { r with got := r.got.drop (c.fetched % c.lenField) }
  | 5 => s.stage c { got := (c.nextBytes n).map fun j => BitVec.ofNat 8 (c.x20 / 256 ^ (j % 4)) }
  | 7 => match s.ctx? c.other with
    | none => notEnabled
    | some y => (s.onCtx c.other fun y => { y with dirty := [] }).stage c { got := y.bitmap.take c.len }
  | _ => s.stage c (fetchBytes (fun j => old.srcByte s c x c.ssp (c.srcOf j)) (c.nextBytes n))

/-! ### Delivery (R266 to R268) -/

/-- Whether the writes of a command reach their observers in steps of their own (R358, R359): those to global memory at device
or system scope. -/
def Cmd.spreads (c : Cmd) : Bool := decide (c.dsp = 0 ∧ 4 ≤ c.sc)

/-- A global write of a command (R357), at its place in delivery order; at die scope it is performed at once (R266), where a load
meets it byte by byte (R279). -/
def State.engineWrite (s : State) (c : Cmd) (x : Ctx) (va pa : Nat) (bs : List Byte) : State :=
  let s := s.setDirtyAt (.socket c.socket) x.desc va
  let w : InWrite := { id := s.nextId, site := c.site, lid := c.lid, base := pa, len := bs.length, cells := cellsAt pa bs
                       mca := c.mca, cmd := some c.id, off := c.delivered + c.moving, torn := true
                       va := BitVec.ofNat 64 va }
  let t := s.addWrite w
  if c.spreads then t
  else s.tear (t.arrive s.nextId (.socket c.socket :: scopeObservers x.desc c.socket c.sc)) bs.length (.mem pa)

/-- What a piece of a delivery meets. -/
inductive Put where
  | done (s : State)
  /-- an MCA write of the bytes holds it back (R360) -/
  | wait
  | fail (e : BitVec 8)

/-- The writes of a place that come before a write of a command: those that its fork carried (R277), and those performed
toward it. -/
def State.before (s : State) (c : Cmd) (n : Nat) (l : Loc) : List InWrite :=
  s.inflight.filter fun w => !w.placed && w.on n l && (c.carry.contains w.id || (decide (c.sc ≤ 2) && w.owedTo c.site))

/-- A write of a command at a place, after those that come before it have their places there (R251) and no MCA write holds
it back (R360). -/
def State.putAfter (s : State) (c : Cmd) (n : Nat) (l : Loc) (write : State → State) : Put :=
  let ws := s.before c n l
  if (s.inflight.any fun w => w.placed && w.mca && w.on n l) || !ws.all fun w => s.canBring w.id then .wait
  else .done (write (ws.foldl (fun s w => s.bring w.id [.socket c.socket]) s))

/-- Writes `bs`, which stay within one page, at a destination (R268, R270, R274). -/
def State.putBytes (s : State) (c : Cmd) (x : Ctx) (a : Nat) (bs : List Byte) : Put :=
  if c.dsp = 1 then
    match s.memberTeam c with
    | none => .done s
    | some t =>
      let l := Loc.tile t.id a
      s.putAfter c bs.length l fun s => s.tear (s.writeTile t.id a bs) bs.length l
  else if c.dsp = 2 then
    let o := (x.desc.slice c.target).1 + (a - windowBase)
    .done { s with ws := (cellsAt (wsKey c.target o) bs).foldl (fun m e => keep 0 m e.1 e.2) s.ws }
  else match s.translate (.socket c.socket) x.desc ⟨c.priv, true, some c.die⟩ .write a bs.length with
    | .error e => .fail e
    | .ok pa => if s.fencedAt pa then .fail 0x31 else s.putAfter c bs.length (.mem pa) fun s => s.engineWrite c x a pa bs

/-- Whether an MCA write of a command has yet to reach its single moment. -/
def State.mcaPending (s : State) (c : Cmd) : Bool := s.inflight.any fun w => w.mca && decide (w.cmd = some c.id)

/-- A command that has delivered its last byte completes OK (R267). -/
def State.settleCmd (s : State) (cid : Nat) : State :=
  match s.cmd? cid with
  | none => s
  | some c => if c.len ≤ c.delivered then s.leaveQueue c 0 else s

/-- `n` bytes of a command count as delivered (R266). -/
def State.countDelivery (s : State) (c : Cmd) (n : Nat) : State :=
  ((s.onCmd c.id fun c => { c with delivered := c.delivered + n }).deliver { c with delivered := c.delivered + n } n).settleCmd
    c.id

/-- Whether a write of a command has been performed at its scope (R266). -/
def State.performedOf (s : State) (c : Cmd) (w : InWrite) : Bool :=
  !w.mca && ((s.ctx? c.ctx).map fun x => (scopeObservers x.desc c.socket c.sc).all w.arrived.contains).getD true

/-- The bytes on their way that count as delivered now: those before the first write that has not been performed (R266). -/
def State.moved (s : State) (c : Cmd) : Nat :=
  (s.inflight.filter fun w => decide (w.cmd = some c.id) && !s.performedOf c w).foldl
    (fun n w => min n (w.off - c.delivered)) c.moving

/-- The bytes of performed writes count as delivered (R266, R359, R363). -/
def State.countMoved (s : State) (c : Cmd) : State :=
  let n := s.moved c
  if n = 0 then s else (s.onCmd c.id fun c => { c with moving := c.moving - n }).countDelivery c n

/-- What of a command a step has delivered that moved a write. -/
def State.countFor (s : State) (cid : Option Nat) : State :=
  match cid.bind s.cmd? with
  | none => s
  | some c => s.countMoved c

/-- Delivers up to `n` staged bytes, piece by piece. -/
def State.deliverBytes (s : State) (cid : Nat) (x : Ctx) : Nat → Nat → Bool → Res
  | 0, _, some_ => if some_ then s.did else notEnabled
  | fuel + 1, n, some_ =>
    match s.cmd? cid with
    | none => s.did
    | some c =>
      let at_ := c.delivered + c.moving
      let a := c.dstOf at_
      let page := if c.dsp = 0 then 65536 - a % 65536 else n
      let k := min (min n c.staged.length) (min (c.runFrom at_) page)
      if k = 0 then (if some_ then s.did else notEnabled)
      else match s.putBytes c x a (c.staged.take k) with
        | .wait => if some_ then s.did else notEnabled
        | .fail e => (s.onCmd cid fun c => { c with fate := some { code := e }, staged := [] }).did
        | .done s =>
          let s := s.onCmd cid fun c => { c with staged := c.staged.drop k }
          if !c.spreads then (s.countDelivery c k).deliverBytes cid x fuel (n - k) true
          else
            let s := s.onCmd cid fun c => { c with moving := c.moving + k }
            if c.mca then s.did else s.deliverBytes cid x fuel (n - k) true

/-- A delivery of up to `n` bytes (R266), once the entry of a barrier that it breaks finds room (R195, R318). What its writes
have performed since counts first. A command whose sides overlap delivers once all is read (R271); one with MCA writes sends one
at a time, which counts at its single moment (R359). -/
def State.deliverStep (s : State) (c : Cmd) (x : Ctx) (n : Nat) : Res :=
  if c.state ≠ .running ∨ !c.onCopy then notEnabled
  else if s.moved c ≠ 0 then s.didPosting c.ctx (s.countMoved c)
  else if s.engineFenced c ∨ s.mcaPending c ∨ (c.overlap ∧ c.fetched < c.len) then notEnabled
  else s.posting c.ctx (s.deliverBytes c.id x n n false)

/-! ### Service (R261) -/

/-- Whether a step happens. -/
def Res.happens : Res → Bool
  | .next _ => true
  | _ => false

/-- Whether a command goes before another of its engine: a higher PRIO, or an earlier acceptance. -/
def Cmd.before (x c : Cmd) : Bool :=
  decide (recNat c.bytes 3 1 < recNat x.bytes 3 1 ∨ (recNat x.bytes 3 1 = recNat c.bytes 3 1 ∧ x.id < c.id))

/-- Whether a command of a live context may become RUNNING, HELD apart (Table 14.5, R227). -/
def State.mayStart (s : State) (c : Cmd) (x : Ctx) : Bool :=
  decide (x.phase = .live) && (c.state == .queued || c.state == .held) && s.cmdHead c && decide (c.verdict ≠ some false)
  && !(c.onCopy && c.opc == 6 && s.teamOn c.ctx c.target)

/-- Whether a copy command at the head of its stream can go on now. -/
def State.wants (s : State) (c : Cmd) (x : Ctx) : Bool :=
  (s.mayStart c x && (c.gslot == 0 || c.verdict.isSome))
  || Res.happens (s.readStep c x 1) || Res.happens (s.deliverStep c x 1)

/-- Whether a copy engine serves this command: no other stream of it has a head that goes before and can go on. -/
def State.serves (s : State) (c : Cmd) : Bool :=
  s.cmds.all fun y => !(decide (y.qid = c.qid) && y.before c && s.cmdHead y &&
    ((s.ctx? y.ctx).map (s.wants y)).getD false)

/-- A step of a copy command that its engine serves. -/
def State.copyStep (s : State) (cid opc : Nat) (body : Cmd → Ctx → Res) : Res :=
  match s.cmd? cid with
  | none => notEnabled
  | some c =>
    match s.ctx? c.ctx with
    | none => notEnabled
    | some x => if (opc = 0 ∨ c.opc = opc) ∧ s.serves c then body c x else notEnabled

/-- COPY reads its next `n` bytes (R271). -/
def execCopy (cid n : Nat) (s : State) : Res := s.copyStep cid 1 fun c x => s.readStep c x n

/-- COPY2D reads its next `n` bytes (R271). -/
def execCopy2d (cid n : Nat) (s : State) : Res := s.copyStep cid 2 fun c x => s.readStep c x n

/-- REBLOCK reads and reorders its next `n` bytes (R272). -/
def execReblock (cid n : Nat) (s : State) : Res := s.copyStep cid 3 fun c x => s.readStep c x n

/-- GATHER reads its next `n` rows (R273). -/
def execGather (cid n : Nat) (s : State) : Res := s.copyStep cid 4 fun c x => s.readStep c x n

/-- FILL makes its next `n` bytes (R271). -/
def execFill (cid n : Nat) (s : State) : Res := s.copyStep cid 5 fun c x => s.readStep c x n

/-- WSLOAD reads its next `n` bytes (R274). -/
def execWsload (cid n : Nat) (s : State) : Res := s.copyStep cid 6 fun c x => s.readStep c x n

/-- DSNAP copies and clears the bitmap in one step (R275). -/
def execDsnap (cid : Nat) (s : State) : Res := s.copyStep cid 7 fun c x => s.readStep c x 1

/-- A delivery of a copy command (R266). -/
def execDelivery (cid n : Nat) (s : State) : Res := s.copyStep cid 0 fun c x => s.deliverStep c x n

/-- A running copy command reads a byte of its source ahead of its turn: its accesses are unordered among themselves
(R279). -/
def State.fetchEarly (s : State) (cid space va : Nat) : Res :=
  s.copyStep cid 0 fun c x =>
    if !s.reading c || c.opc == 5 || c.opc == 7 || c.early.any (fun e => decide (e.1 = space ∧ e.2.1 = va)) then notEnabled
    else match s.summonFor c with
      | none => notEnabled
      | some old =>
        let s := old.stirSource c
        match old.srcByte s c x space va with
        | .ok (some b) =>
          State.did { s.onCmd cid fun c => { c with early := c.early ++ [(space, va, b)] } with free := s.free + 1 }
        | _ => notEnabled

end Sys2Proof.Machine
end

