-- ==== Sys2Proof/Machine/Task.lean ====
section
/-! DEFINITION. Range tasks: the TASK command, TGRAB and TDONE (spec/09 R198 to R201). -/

namespace Sys2Proof.Machine

/-! ### The TASK command (Table 9.9) -/

def Cmd.graph (c : Cmd) : Nat := recNat c.bytes 8 1
def Cmd.node (c : Cmd) : Nat := recBits c.bytes 8 16 12
def Cmd.succCount (c : Cmd) : Nat := recBits c.bytes 8 40 3
def Cmd.succs (c : Cmd) : List Nat := (List.range (min c.succCount 4)).map fun k => recNat c.bytes (0x20 + 2 * k) 2 % 4096
def Cmd.taskRecord (c : Cmd) : Nat := recNat c.bytes 0x28 8

/-- The body's limits (R198). -/
def Cmd.taskOk (c : Cmd) : Bool :=
  recBits c.bytes 8 8 8 == 0 && recBits c.bytes 8 28 4 == 0 && recBits c.bytes 8 43 21 == 0
  && decide (c.succCount ≤ 4 ∧ recNat c.bytes 0x10 4 ≤ recNat c.bytes 0x14 4)
  && ((List.range 4).all fun k => recBits c.bytes (0x20 + 2 * k) 12 4 == 0)
  && recNat c.bytes 0x1C 4 == 0 && recNat c.bytes 0x30 16 == 0
  && (c.succCount == 0 || c.taskRecord == 0)

/-! ### Nodes (Table 9.10) -/

def Node.named (x : Node) (graph node : Nat) : Bool := decide (x.graph = graph ∧ x.node = node)

/-- GRAIN; 0 is taken as 1. -/
def Node.step (x : Node) : Nat := max x.grain 1

/-- The iterations of a node's interval, as intervals. -/
def Node.whole (x : Node) : List (Nat × Nat) := if x.lo < x.hi then [(x.lo, x.hi)] else []

/-- Intervals without the numbers from `a` to below `b`. -/
def cutOut (a b : Nat) (xs : List (Nat × Nat)) : List (Nat × Nat) :=
  if b ≤ a then xs else xs.flatMap fun x => [(x.1, min x.2 a), (max x.1 b, x.2)].filter fun y => decide (y.1 < y.2)

/-- A node that waits and has no predecessor left is READY; one of an empty interval is DONE. -/
def Node.ripen (x : Node) : Node :=
  if x.state = .waiting ∧ x.preds = 0 then { x with state := if x.lo = x.hi then .done else .ready } else x

/-- One successor decrement: on a node that waits it counts; on a node not defined it is held (R198). DESIGN CHOICE (log 24),
where R198 is silent: one that meets a DONE node is held for that node's redefinition, and one that meets a READY or RUNNING
node is dropped. The flag says whether the node became DONE. -/
def Ctx.decrement (c : Ctx) (graph node : Nat) : Ctx × Bool :=
  match c.nodes.find? fun x => x.named graph node && decide (x.state ≠ .done) with
  | none => ({ c with heldDecs := c.heldDecs ++ [graph * 4096 + node] }, false)
  | some x =>
    if x.state = .waiting then
      let y := Node.ripen { x with preds := x.preds - 1 }
      ({ c with nodes := c.nodes.map fun z => if z.named graph node then y else z }, decide (y.state = .done))
    else (c, false)

/-- Decrements spread: each node that becomes DONE decrements its own successors. The sinks that became DONE come back
in order. -/
def Ctx.spreadDone (c : Ctx) : Nat → List (Nat × Nat) → Ctx × List Node
  | _, [] => (c, [])
  | 0, _ => (c, [])
  | fuel + 1, (g, n) :: rest =>
    match c.nodes.find? fun x => x.named g n with
    | none => c.spreadDone fuel rest
    | some x =>
      if x.succs.isEmpty then
        let r := c.spreadDone fuel rest
        (r.1, x :: r.2)
      else
        let r := x.succs.foldl (fun (a : Ctx × List (Nat × Nat)) m =>
          let d := a.1.decrement g m
          (d.1, if d.2 then a.2 ++ [(g, m)] else a.2)) (c, [])
        r.1.spreadDone fuel (rest ++ r.2)

/-- Everything before the TDONEs of a graph is performed at system scope (R201); `none` where it cannot be yet. -/
def State.graphDone (s : State) (n graph : Nat) : Option State :=
  let of (x : Nat × Rel) : Bool := x.1 == graph
  let rels := ((s.ctx? n).map (·.taskRels)).getD []
  (s.fulfilAll ((rels.filter of).map (·.2))).map fun s =>
    s.onCtx n fun c => { c with taskRels := c.taskRels.filter fun x => !of x }

/-- The record of a graph whose sink is DONE, after what its TDONEs carried, then its arrival and its interrupt (R201). DESIGN CHOICE (log 24): a record that
fails translation posts an entry of SRC 2 with the DETAIL of the TASK command that defined the sink; R181 states only that of
a launch's record. -/
def State.sinkDone (s : State) (n : Nat) (x : Node) : Option State :=
  (s.graphDone n x.graph).map fun s =>
  let s := s.writeRecord n x.record.toNat 0 {} x.posting
  let s := match x.bar with
    | none => s
    | some b => s.deviceArrive b.1 b.2
  s.notify n x.notify

/-- A node of a context has become DONE. -/
def State.nodeDone (s : State) (n graph node : Nat) : Option State :=
  match s.ctx? n with
  | none => some s
  | some c =>
    let r := c.spreadDone (4 * c.nodes.length + 4) [(graph, node)]
    r.2.foldl (fun o x => o.bind fun s => s.sinkDone n x) (some (s.onCtx n fun _ => r.1))

/-- TASK defines a node (R198), and completes. For a node that is defined and not DONE it completes FAULT and has no
effect but its arrival (R266, log 24). The completion barrier of a sink waits for its graph. -/
def execTask (cid : Nat) (s : State) : Res :=
  match s.cmd? cid with
  | none => notEnabled
  | some c =>
    match s.ctx? c.ctx with
    | none => notEnabled
    | some x =>
      if c.opc ≠ 0x50 ∨ c.state ≠ .running then notEnabled
      else if x.nodes.any fun y => y.named c.graph c.node && decide (y.state ≠ .done) then
        let t := s.leaveQueue c 1
        s.didPosting c.ctx (if c.cbar = 0xFFFF then t else t.deviceArrive c.team c.cbar)
      else
        let key := c.graph * 4096 + c.node
        let held := (x.heldDecs.filter (· = key)).length
        let sink := c.succCount = 0
        let y : Node :=
          { graph := c.graph, node := c.node, preds := recBits c.bytes 8 32 8 - held, succs := c.succs
            lo := recNat c.bytes 0x10 4, hi := recNat c.bytes 0x14 4, grain := recNat c.bytes 0x18 4
            record := BitVec.ofNat 64 c.taskRecord, notify := c.notifies
            bar := if c.cbar = 0xFFFF then none else some (c.team, c.cbar), posting := s.cmdPosting c { code := 0 } }
        let y := Node.ripen { y with left := y.whole }
        let s' := s
        let s := s.onCtx c.ctx fun x => { x with
          heldDecs := x.heldDecs.filter (· ≠ key)
          nodes := (x.nodes.filter fun z => !z.named c.graph c.node) ++ [y] }
        let s := { s with cmds := s.cmds.filter fun z => z.id ≠ cid }
        let s := if sink ∨ c.cbar = 0xFFFF then s else s.deviceArrive c.team c.cbar
        let s := (if sink then s else s.notify c.ctx c.notifies).returnWord c.ret 0 0
        match if y.state = .done then s.nodeDone c.ctx c.graph c.node else some s with
        | none => notEnabled
        | some s => s'.didPosting c.ctx s

/-! ### Pieces (R200) -/

/-- The word that names a piece. -/
def handleWord (handle : Nat) : W32 := Config.handleBase + BitVec.ofNat 32 handle

/-- Of pieces, the one with the most iterations left; on ties that of the lowest node, then the oldest. -/
def largest : List Piece → Option Piece
  | [] => none
  | p :: ps => match largest ps with
    | none => some p
    | some q =>
      let a := p.hi - p.next
      let b := q.hi - q.next
      if b < a ∨ (a = b ∧ p.node ≤ q.node) then some p else some q

/-- Of nodes, the one of the lowest number. -/
def lowestNode : List Node → Option Node
  | [] => none
  | x :: xs => match lowestNode xs with
    | none => some x
    | some y => if x.node ≤ y.node then some x else some y

/-- The grain of a piece's node. -/
def Ctx.grainOf (c : Ctx) (p : Piece) : Nat :=
  ((c.nodes.find? fun x => x.named p.graph p.node).map Node.step).getD 1

/-- The next chunk of a piece (hand_out). -/
def Ctx.handOut (c : Ctx) (p : Piece) : Ctx × Piece :=
  let q := { p with chunkLo := p.next, chunkHi := min (p.next + c.grainOf p) p.hi
                    next := min (p.next + c.grainOf p) p.hi }
  ({ c with pieces := c.pieces.map fun x => if x.handle = p.handle then q else x }, q)

/-- What TGRAB takes (R200): a READY node, a returned piece, or the upper half of the largest piece. -/
def Ctx.grab (c : Ctx) (graph gid die handle : Nat) : Option (Ctx × Piece) :=
  match lowestNode (c.nodes.filter fun x => decide (x.graph = graph ∧ x.state = .ready)) with
  | some x =>
    let p : Piece := ⟨handle, graph, x.node, x.lo, x.hi, x.lo, x.lo, some gid, die⟩
    some ({ c with
      nodes := c.nodes.map fun y => if y.named graph x.node then { y with state := .running } else y
      pieces := c.pieces ++ [p] }, p)
  | none =>
    match largest (c.pieces.filter fun p => decide (p.graph = graph ∧ p.holder = none)) with
    | some p =>
      let q := { p with holder := some gid, die := die }
      some ({ c with pieces := c.pieces.map fun x => if x.handle = p.handle then q else x }, q)
    | none =>
      let can := c.pieces.filter fun p => decide (p.graph = graph ∧ 2 * c.grainOf p ≤ p.hi - p.next)
      let near := can.filter fun p => p.die = die
      match largest (if near.isEmpty then can else near) with
      | none => none
      | some p =>
        let mid := p.next + (p.hi - p.next) / 2
        let q : Piece := ⟨handle, graph, p.node, mid, p.hi, mid, mid, some gid, die⟩
        some ({ c with pieces := (c.pieces.map fun x => if x.handle = p.handle then { x with hi := mid } else x) ++ [q] }, q)

/-- Writes the four registers of TGRAB and TDONE. -/
def Group.giveFour (g : Group) (d : Opnd) (ws : List W32) : Group :=
  ((d.range 4).zip ws).foldl (fun g x => g.give 0 x.1 (plain x.2)) g

/-- The registers of a chunk (hand_out). -/
def Group.giveChunk (g : Group) (d : Opnd) (p : Piece) : Group :=
  g.giveFour d [BitVec.ofNat 32 p.chunkLo, BitVec.ofNat 32 p.chunkHi, BitVec.ofNat 32 p.node, handleWord p.handle]

/-- The registers where nothing is handed out: the chunk registers stay. -/
def Group.giveNone (g : Group) (d : Opnd) : Group :=
  ((d.range 4).drop 2 |>.zip [0xFFFFFFFF, 0]).foldl (fun g x => g.give 0 x.1 (plain x.2)) g

/-- TGRAB (R200). -/
def execTgrab (w : FmtB) (s : State) : Res :=
  issue s 8 w.g w.u fun i => do
    i.ready [] (w.d.range 4)
    let f := i.s.fresh
    match i.c.grab w.imm.toNat i.g.id i.t.die f.1 with
    | none => .ok { s := i.s, g := i.g.giveNone w.d, region := true }
    | some r =>
      let h := r.1.handOut r.2
      .ok { s := f.2.onCtx i.t.ctx fun _ => h.1, g := i.g.giveChunk w.d h.2, region := true }

/-- Iterations of a node are retired, from `a` to below `b`; with the last that was left, the node is DONE (R199). -/
def Node.retire (x : Node) (a b : Nat) : Node :=
  let x := { x with left := cutOut a b x.left }
  if x.state = .running ∧ x.left.isEmpty then { x with state := .done } else x

/-- The iterations from `a` to below `b` of a piece's node are retired (R200). -/
def Ctx.retireChunk (c : Ctx) (p : Piece) (a b : Nat) : Ctx :=
  { c with nodes := c.nodes.map fun x => if x.named p.graph p.node then x.retire a b else x }

/-- TDONE (R200, R201): everything before it comes before the record of its graph. It holds its group while the record of a
graph that it ends waits for that, or for room. -/
def execTdone (w : FmtB) (s : State) : Res :=
  issue s 8 w.g w.u fun i => do
    let ds := w.d.range 4
    i.ready (ds.map fun o => ⟨o, false⟩) ds
    let v (k : Nat) : W32 := (i.g.datum 0 (ds.getD k .zr)).val
    match i.c.pieces.find? fun p => p.holder = some i.g.id ∧ handleWord p.handle = v 3 with
    | none => i.cause 0x12
    | some p =>
      let side ← i.release 5
      let c := i.c.retireChunk p (v 0).toNat (v 1).toNat
      let ended := (i.c.nodes.any fun x => x.named p.graph p.node && x.state == .running)
        && c.nodes.any fun x => x.named p.graph p.node && x.state == .done
      let h := c.handOut p
      let more := decide (p.next < p.hi)
      let c := if more then h.1 else { c with pieces := c.pieces.filter fun x => x.handle ≠ p.handle }
      let g := if more then i.g.giveChunk w.d h.2 else i.g.giveNone w.d
      let rels := (i.c.taskRels ++ [(p.graph, side)]).filter fun x => i.s.bears? x.2
      let s := i.s.onCtx i.t.ctx fun x => { x with nodes := c.nodes, pieces := c.pieces, taskRels := rels }
      match if ended then s.nodeDone i.t.ctx p.graph p.node else some s with
      | none => i.wait
      | some s' =>
        let i' := { i with g := g }.goOn s'
        if s.postedBy i.t.ctx s' then .ok { s := i'.s, g := i'.g, region := true } else i.wait

end Sys2Proof.Machine
end

