-- ==== Sys2Proof/Machine/Matrix.lean ====
section
/-! DEFINITION. The matrix unit (spec/15): tiles and claims, TCFG, TREL, MZERO, MLOOP, MST, MLD, MFLG, and the unit's own
steps. -/

namespace Sys2Proof.Machine

/-! ### Tiles (R280) -/

def CoreSt.tile (c : CoreSt) (n : Nat) : Tile := look {} c.tiles n

def CoreSt.setTile (c : CoreSt) (n : Nat) (t : Tile) : CoreSt := { c with tiles := keep {} c.tiles n t }

/-- Element (m, n). -/
def Tile.at (t : Tile) (m n : Nat) : W32 := look 0 t.words (64 * m + n)

/-- A tile of a shape with given elements; a row has at most 64. -/
def Tile.build (h w : Nat) (f : Nat → Nat → W32) : Tile :=
  { h := h, w := w
    words := (List.range h).flatMap fun m => (List.range (min w 64)).filterMap fun n =>
      if f m n = 0 then none else some (64 * m + n, f m n) }

/-- A tile and the `n` that follow it (R295); there are eight tiles. -/
def tileRun (d n : Nat) : List Nat := ((List.range (n + 1)).map (d + ·)).filter (· < 8)

/-- The condition of R295 on the tiles that follow `d`. -/
def CoreSt.followers (c : CoreSt) (d n : Nat) : Bool :=
  decide (d + n ≤ 7) && (tileRun d n).all fun k => (c.tile k).h = (c.tile d).h ∧ (c.tile k).w = (c.tile d).w

/-! ### Claims (R282) -/

/-- Whether a claim is that of a group's waiting instruction. -/
def Claim.ofGroup (k : Claim) (key : Nat) : Bool := !k.isOp && k.key == key

/-- A group's instruction claims tiles as it issues: while it waits its claim keeps its place (R282). `mq` is the queue of an
MLOOP. -/
def CoreSt.claim (c : CoreSt) (key : Nat) (tiles : List Nat) (mq : Option Nat := none) : CoreSt :=
  if c.claims.any (·.ofGroup key) then c else { c with claims := c.claims ++ [⟨false, key, tiles, mq⟩] }

/-- The tiles that a group's waiting instruction has claimed. -/
def CoreSt.claimed (c : CoreSt) (key : Nat) : List Nat := ((c.claims.find? (·.ofGroup key)).map (·.tiles)).getD []

/-- Ends a claim. -/
def CoreSt.unclaim (c : CoreSt) (isOp : Bool) (key : Nat) : CoreSt :=
  { c with claims := c.claims.filter fun k => !(k.isOp == isOp && k.key == key) }

/-- Whether no claim made before that of a claimant remains on these tiles. -/
def CoreSt.claimFree (c : CoreSt) (isOp : Bool) (key : Nat) (tiles : List Nat) : Bool :=
  (c.claims.takeWhile fun k => !(k.isOp == isOp && k.key == key)).all fun k => !k.tiles.any tiles.contains

/-! ### What the matrix instructions share -/

/-- A plain read of places of `n` bytes at once: the writes that it must find arrive first (R252), and it meets release
sides, as any plain read does (R246). -/
def Iss.meet (i : Iss) (n : Nat) (locs : List Loc) : Except Stop Iss :=
  let me := i.s.siteOf i.g.id
  if !locs.all (i.s.canRead me n) then i.wait
  else
    let s := locs.foldl (fun s l => s.summon me n l) i.s
    let met := locs.foldl (fun rs l => joinNew rs (s.metBy me n l)) []
    .ok (i.goOn (s.met i.g.id none met))

/-- The matrix unit of the issuing core. -/
def Iss.unit (i : Iss) : CoreSt := i.s.coreSt (coreKey i.t.die i.t.core)

def Iss.setUnit (i : Iss) (c : CoreSt) : State := i.s.setCore (coreKey i.t.die i.t.core) c

/-- Reads the operand registers (R13, R15, R283) and waits while another team owns the tiles (R281). `aligned` is the
ALIGN check, which outranks R13 (R311). -/
def Iss.operands (i : Iss) (fs : List Field) (aligned : Bool) : Except Stop Unit := do
  let readable := fs.all fun f => !i.inBounds f.o || i.g.isFull 0 0 f.o
  i.check (aligned || !readable || fs.all fun f => i.inBounds f.o) 0x03
  i.ready fs []
  match i.unit.owner with
  | some t => if t = i.t.id then .ok () else i.wait
  | none => .ok ()

/-- Claims tiles and waits for the claims made earlier (R282). -/
def Iss.claimTiles (i : Iss) (tiles : List Nat) : Except Stop Unit :=
  let c := i.unit.claim i.g.id tiles
  if c.claimFree false i.g.id (c.claimed i.g.id) then .ok () else .error (.stall (i.setUnit c) .blocked)

/-- The instruction completes and its claim ends. -/
def Iss.matrixDone (i : Iss) (c : CoreSt) : Except Stop Done :=
  .ok { s := i.setUnit (c.unclaim false i.g.id), g := i.g }

/-! ### TCFG, TREL, MZERO (R284, R285) -/

/-- A dimension of a tile. -/
def dimOk (x : Nat) : Bool := decide (x % 8 = 0 ∧ x ≤ 64)

/-- The eight shapes of TCFG. -/
def shapesOf (ws : List W32) : List (Nat × Nat) :=
  ws.flatMap fun x => [(bitsOf x.toNat 0 8, bitsOf x.toNat 8 8), (bitsOf x.toNat 16 8, bitsOf x.toNat 24 8)]

def shapesOk (shapes : List (Nat × Nat)) : Bool :=
  (shapes.all fun x => dimOk x.1 && dimOk x.2 && (x.1 == 0) == (x.2 == 0))
    && decide (shapes.foldl (fun n x => n + 4 * x.1 * x.2) 0 ≤ 65536)

/-- Whether an operation that has begun works on one of these tiles. -/
def CoreSt.busyOn (c : CoreSt) (tiles : List Nat) : Bool :=
  (c.mq0 ++ c.mq1).any fun m => m.started && c.claims.any fun k => k.isOp && k.key == m.id && k.tiles.any tiles.contains

/-- TCFG (R284): it claims as it issues the tiles whose shape it changes, and acts once no earlier claim remains on them (R282).
DESIGN CHOICE (log 18): where an earlier instruction has meanwhile changed the shape of another tile, TCFG gives that tile its
shape too, once no operation that has begun works on it. -/
def execTcfg (w : FmtT) (s : State) : Res :=
  issue s 8 w.g false fun i => do
    i.operands (sFields w.sa.toNat 4) true
    let shapes := shapesOf (i.g.sWords w.sa.toNat 4)
    i.check (shapesOk shapes) 0x29
    let i := { i with s := i.setUnit { i.unit with owner := some i.t.id } }
    let c := i.unit
    let shape (n : Nat) : Nat × Nat := shapes.getD n (0, 0)
    let changed := (List.range 8).filter fun n => ((c.tile n).h, (c.tile n).w) ≠ shape n
    i.claimTiles changed
    let held := (c.claim i.g.id changed).claimed i.g.id
    if c.busyOn (changed.filter fun n => !held.contains n) then .error (.stall (i.setUnit (c.claim i.g.id changed)) .blocked)
    else i.matrixDone (changed.foldl (fun c n => c.setTile n { h := (shape n).1, w := (shape n).2 }) c)

def execTrel (w : FmtT) (s : State) : Res :=
  issue s 8 w.g false fun i => do
    i.operands [] true
    i.claimTiles [w.td.toNat]
    i.matrixDone (i.unit.setTile w.td.toNat {})

def execMzero (p : Option Dual) (w : FmtT) (s : State) : Res :=
  issue s (dualSize p) w.g false fun i => do
    i.operands [] true
    let d := w.td.toNat
    let n := i.tans p
    i.check ((i.unit.tile d).h ≠ 0 && i.unit.followers d n) 0x29
    i.claimTiles (tileRun d n)
    i.matrixDone ((tileRun d n).foldl (fun c k => c.setTile k { c.tile k with words := [] }) i.unit)

/-! ### Element formats (Table 15.5) -/

/-- The class of a format code. -/
def mxClass (f : Nat) : Option Nat := [0, 1, 2, 2, 3, 4, 5][f]?
/-- Bits of an element. -/
def mxWidth (f : Nat) : Nat := if f ≤ 1 then 16 else if f = 4 ∨ f = 6 then 4 else 8
/-- Bytes of a line of 32 elements (R286). -/
def mxLine (f : Nat) : Nat := 4 * mxWidth f
def mxInt (f : Nat) : Bool := decide (5 ≤ f)
def mxScaled (f : Nat) : Bool := decide (2 ≤ f ∧ f ≤ 4)
def mxFloat (f : Nat) : FFmt :=
  if f = 0 then bf16 else if f = 1 then fp16 else if f = 2 then e4m3 else if f = 3 then e5m2 else e2m1

/-! ### Where an operation reads (R287, R291, R292, R295) -/

def MOp.bank (m : MOp) : Nat := if m.bl16 then 2 else 1
def MOp.aScaled (m : MOp) : Bool := mxScaled m.afmt && m.ta.isNone
def MOp.bScaled (m : MOp) : Bool := mxScaled m.bfmt

/-- The location of a line of a panel. -/
def lineAt (base : Nat) (inc : Int) (step line fmt : Nat) : Int := base + step * inc + line * (mxLine fmt : Nat)

/-- The location of the scales of a line (R291). -/
def scaleAt (base : Nat) (ofs : Nat) (inc : Int) (step line fmt bank : Nat) : Int :=
  base + 16 * ofs + step * (inc / (mxLine fmt : Nat)) * bank * 2 + 2 * line * bank

def MOp.aAt (m : MOp) (step line : Nat) : Int := lineAt m.a0 m.ainc step line m.afmt
def MOp.bAt (m : MOp) (step line : Nat) : Int := lineAt m.b0 m.binc step line m.bfmt
def MOp.aScaleAt (m : MOp) (step line : Nat) : Int := scaleAt m.a0 m.aso m.ainc step line m.afmt m.bank
def MOp.bScaleAt (m : MOp) (step line : Nat) : Int := scaleAt m.b0 m.bso m.binc step line m.bfmt m.bank

/-- The locations and sizes that a line of an operand takes, its tangents with it. -/
def MOp.tangentsAt (m : MOp) (on : Bool) (x : Int) (n : Nat) : List (Int × Nat) :=
  (x, n) :: if on then (List.range m.tans).map fun (k : Nat) => (x + (k + 1) * (m.stride.toNat : Nat), n) else []

/-- What a K-step reads of A, in tile memory. -/
def MOp.aReads (m : MOp) (step : Nat) : List (Int × Nat) :=
  if m.ta.isSome then []
  else (m.rowOf.filterMap fun r => r).flatMap fun r =>
    m.tangentsAt m.at_ (m.aAt step r) (mxLine m.afmt)
    ++ if m.aScaled then [(m.aScaleAt step r, 2 * m.bank)] else []

/-- What a K-step reads of B, in B's space. -/
def MOp.bReads (m : MOp) (step : Nat) : List (Int × Nat) :=
  (List.range m.cols).flatMap fun n =>
    m.tangentsAt m.bt (m.bAt step n) (mxLine m.bfmt)
    ++ if m.bScaled then [(m.bScaleAt step n, 2 * m.bank)] else []

/-- Whether pieces lie within a space. -/
def withinSpace (limit : Nat) (xs : List (Int × Nat)) : Bool := xs.all fun x => decide (0 ≤ x.1 ∧ x.1 + x.2 ≤ limit)

/-- Locations move linearly with the step, so the first and the last step bound all of them. -/
def MOp.readsOk (m : MOp) (tileLimit wsLimit : Nat) : Bool :=
  [0, m.count - 1].all fun step => m.count = 0 ∨
    (withinSpace tileLimit (m.aReads step) ∧
      withinSpace (if m.bsp then wsLimit else tileLimit) (m.bReads step))

/-! ### MLOOP (R287 to R289, R297) -/

/-- The gather list (R292). -/
def gatherRows (xs : List Byte) (rows : Nat) : List (Option Nat) :=
  (List.range rows).map fun m =>
    let x := recNat xs (2 * m) 2
    if x = 0xFFFF then none else some x

/-- The operation that an MLOOP describes; its gather list comes with it. -/
def Iss.mop (i : Iss) (p : Option Dual) (w : FmtT) (list : List Byte) : MOp :=
  let a (k : Nat) : Nat := (nth (i.g.sWords w.sa.toNat 4) k).toNat
  let b (k : Nat) : Nat := (nth (i.g.sWords w.sb.toNat 2) k).toNat
  let f (k : Nat) : Nat := (nth (i.g.sWords w.sf.toNat 2) k).toNat
  let t := i.unit.tile w.td.toNat
  let rows := if bitsOf (a 3) 0 8 = 0 then t.h else bitsOf (a 3) 0 8
  let cols := if bitsOf (a 3) 8 8 = 0 then t.w else bitsOf (a 3) 8 8
  let bsp := (b 0).testBit 31
  let afmt := bitsOf (f 0) 0 4
  { id := 0, team := i.t.id, gid := i.g.id, td := w.td.toNat, ta := if w.asrc then some w.ta.toNat else none
    tans := i.tans p, acc := w.acc, z := w.z, skip := w.sp.getLsbD 0
    a0 := a 0, ainc := signed 32 (a 1)
    b0 := if bsp then 16 * bitsOf (b 0) 0 31 else bitsOf (b 0) 0 31, binc := signed 32 (b 1), bsp := bsp
    rowOf := if a 2 = 0 then (List.range rows).map some else gatherRows list rows
    rows := rows, cols := cols, afmt := afmt, bfmt := bitsOf (f 0) 4 4
    bl16 := (f 0).testBit 8 && mxScaled afmt, at_ := (f 0).testBit 9, bt := (f 0).testBit 10
    aso := bitsOf (f 1) 0 16, bso := bitsOf (f 1) 16 16, stride := i.g.tanStride
    bar := if bitsOf (a 3) 16 16 = 0xFFFF then none else some (bitsOf (a 3) 16 16)
    count := (i.g.datum 0 w.kc).val.toNat }

/-- The TSHAPE checks of R289 that the operation's own description decides. -/
def MOp.shapeOk (m : MOp) (c : CoreSt) : Bool :=
  let t := c.tile m.td
  t.h ≠ 0 && decide (m.rows ≤ t.h ∧ m.cols ≤ t.w)
    && (match m.ta with
        | none => true
        | some a => (c.tile a).h ≠ 0 && (m.tans = 0 || c.followers a m.tans))
    && (mxClass m.afmt).isSome && mxClass m.afmt == mxClass m.bfmt
    && (!m.aScaled || m.ainc % (mxLine m.afmt : Nat) = 0) && (!m.bScaled || m.binc % (mxLine m.bfmt : Nat) = 0)
    && (m.tans = 0 || c.followers m.td m.tans)

/-- The TALIAS check of R289. -/
def MOp.aliases (m : MOp) : Bool :=
  match m.ta with
  | none => false
  | some a => decide (1 < m.count) &&
    (List.range (m.tans + 1)).any fun j => (List.range (m.tans + 1)).any fun k => a + j = m.td + k

/-- The tiles that an operation names (R282). -/
def MOp.names (m : MOp) : List Nat :=
  tileRun m.td m.tans ++ match m.ta with
    | none => []
    | some a => tileRun a m.tans

/-- Whether a queue takes the operation of a group's MLOOP: it has room, which goes to the waiting MLOOPs in the order of
their claims, so that acceptance follows the claims (R282, R297). -/
def CoreSt.accepts (c : CoreSt) (gid mq : Nat) : Bool :=
  decide ((if mq = 0 then c.mq0 else c.mq1).length < 4)
  && (c.claims.takeWhile fun k => k.isOp || k.key != gid).all fun k => k.isOp || k.mq != some mq

/-- MLOOP: a release at team scope toward its operation (R302). DESIGN CHOICE (log 35): with c = 0, where no K-step reads, a
nonzero GLIST is bounds-checked (R289) and its list read at issue (R292) all the same; and the entry of
a PROT names no byte of tile memory or of the weight store (log 15). -/
def execMloop (p : Option Dual) (w : FmtT) (s : State) : Res :=
  issue s (dualSize p) w.g false fun i => do
    let fs := sFields w.sa.toNat 4 ++ sFields w.sb.toNat 2 ++ sFields w.sf.toNat 2 ++ [⟨w.kc, false⟩]
    let a (k : Nat) : Nat := (nth (i.g.sWords w.sa.toNat 4) k).toNat
    let b (k : Nat) : Nat := (nth (i.g.sWords w.sb.toNat 2) k).toNat
    let aligned := (w.asrc || (a 0 % 16 == 0 && a 1 % 16 == 0)) && (b 1 % 16 == 0)
      && ((b 0).testBit 31 || b 0 % 16 == 0) && a 2 % 2 == 0
    i.operands fs aligned
    i.check aligned 0x03
    let f0 := (nth (i.g.sWords w.sf.toNat 2) 0).toNat
    let region := i.l.tileUnits * 256
    let ws := i.c.desc.ws.getD i.t.die (0, 0)
    let bare := i.mop p w []
    let listBytes := 2 * bare.rows
    i.check (a 2 = 0 || w.asrc || listBytes = 0 || a 2 + listBytes ≤ region) 0x12
    i.check (bare.bar.all fun n => decide (n < i.l.barriers)) 0x12
    i.check (!bare.bsp || ws.2 ≠ 0) 0x12
    i.gate
    let listAt : List Loc := if a 2 = 0 then [] else [.tile i.t.id (a 2)]
    let i ← i.over listBytes listAt
    let i ← i.meet listBytes listAt
    let list := i.s.readLoc (i.s.siteOf i.g.id) listBytes (.tile i.t.id (a 2))
    let m := i.mop p w list
    i.check ((mxClass m.afmt).isNone || (mxClass m.bfmt).isNone || m.readsOk region (ws.2 * 65536)) 0x12
    i.check (!m.aliases) 0x28
    i.check (m.shapeOk i.unit && f0 / 2048 == 0 && !(w.asrc && a 2 ≠ 0)) 0x29
    let side ← i.release 1
    let c := i.unit.claim i.g.id m.names (some w.mq.toNat)
    if !c.accepts i.g.id w.mq.toNat then .error (.stall (i.setUnit c) .blocked)
    else
      let n := i.s.fresh
      let m := { m with id := n.1, forks := [side] }
      let i := { i with s := n.2 }
      let c := { c with claims := c.claims.map fun (k : Claim) =>
                   if !k.isOp && k.key == i.g.id then ⟨true, m.id, k.tiles, none⟩ else k }
      let c := if w.mq = 0 then { c with mq0 := c.mq0 ++ [m] } else { c with mq1 := c.mq1 ++ [m] }
      .ok { s := i.setUnit c, g := i.g, region := true }

/-! ### What a K-step computes (R290 to R296) -/

/-- The elements of a line (R286). -/
def lineCodes (fmt : Nat) (bs : List Byte) : List Nat :=
  let x := ofLe bs
  (List.range 32).map fun k => bitsOf x (mxWidth fmt * k) (mxWidth fmt)

/-- A line as read: its elements, its tangents, and the scale of each block. -/
structure MLine where
  codes : List Nat
  tans : List (List Nat) := []
  scales : List XV := []
  deriving DecidableEq, Repr

/-- How an operation reads its spaces: whether the window, the location, the length. -/
abbrev Reader := Bool → Int → Nat → List Byte

def readLine (rd : Reader) (window : Bool) (fmt tans bank : Nat) (stride : W32) (at_ : Int) (on : Bool)
    (scale : Option Int) : MLine :=
  { codes := lineCodes fmt (rd window at_ (mxLine fmt))
    tans := (List.range tans).map fun (k : Nat) =>
      if on then lineCodes fmt (rd window (at_ + (k + 1) * (stride.toNat : Nat)) (mxLine fmt)) else List.replicate 32 0
    scales := match scale with
      | none => []
      | some x => (List.range bank).map fun j => scale16 (recNat (rd window x (2 * bank)) (2 * j) 2) }

/-- The B line of column `n` (R290, R291, R295). -/
def MOp.bLine (m : MOp) (rd : Reader) (n : Nat) : MLine :=
  readLine rd m.bsp m.bfmt m.tans m.bank m.stride (m.bAt m.step n) m.bt
    (if m.bScaled then some (m.bScaleAt m.step n) else none)

/-- An element of a tile converted to an operand format (R293). -/
def toElement (fmt : Nat) (x : W32) : Nat × Flags :=
  if mxInt fmt then
    let lim : Int := 2 ^ (mxWidth fmt - 1)
    ((word (max (-lim) (min (lim - 1) x.toInt))).toNat % 2 ^ mxWidth fmt, 0)
  else convert fp32 (mxFloat fmt) 0 false false none x.toNat

/-- The elements of row `m` of a tile at a K-step (R293). -/
def Tile.row (t : Tile) (fmt step m : Nat) : List (Nat × Flags) :=
  (List.range 32).map fun k =>
    if m < t.h ∧ 32 * step + k < t.w then toElement fmt (t.at m (32 * step + k)) else (0, 0)

/-- The A line of row `r` (R290 to R293, R295), with the flags of the conversion of the primal's elements and of each tangent's. -/
def MOp.aLine (m : MOp) (rd : Reader) (c : CoreSt) (r : Nat) : MLine × List Flags :=
  match m.ta with
  | some a =>
    let rows := (List.range (m.tans + 1)).map fun k => (c.tile (a + k)).row m.afmt m.step r
    let codes := rows.map fun xs => xs.map (·.1)
    ({ codes := codes.headD [], tans := codes.drop 1 }, rows.map fun xs => xs.foldl (fun f x => f ||| x.2) 0)
  | none =>
    match m.rowOf.getD r none with
    | none => ({ codes := List.replicate 32 0, tans := List.replicate m.tans (List.replicate 32 0) }, [])
    | some line =>
      (readLine rd false m.afmt m.tans m.bank m.stride (m.aAt m.step line) m.at_
        (if m.aScaled then some (m.aScaleAt m.step line) else none), [])

/-- Adds the products of two lists of elements (R71, R72). -/
def BlockSum.mix (s : BlockSum) (fa fb : FFmt) (skip : Bool) (xs : List (Nat × Nat)) : BlockSum :=
  xs.foldl (fun s x => s.product skip (fa.decode x.1) (fb.decode x.2)) s

/-- Whether a product that counts has a signalling element (R62). -/
def sigPair (fa fb : FFmt) (skip : Bool) (x : Nat × Nat) : Bool :=
  !(skip && (fa.decode x.1).isZero) && (fa.signalling x.1 || fb.signalling x.2)

/-- The pairs of elements that form a sum: the primal's, or tangent `k`'s (R290, R295). -/
def pairsOf (a b : MLine) : Option Nat → List (List (Nat × Nat))
  | none => [a.codes.zip b.codes]
  | some k => [(a.tans.getD k []).zip b.codes, a.codes.zip (b.tans.getD k [])]

/-- The blocks of a K-step added to an FP32 element, lower first (R71, R290). DEDUCED (log 35): with SP = 1 each of the
two products a′·b and a·b′ of a tangent is skipped by its own A factor (R72). -/
def MOp.addFloat (m : MOp) (a b : MLine) (k : Option Nat) (acc : W32) : W32 × Flags :=
  let len := 32 / m.bank
  let fa := mxFloat m.afmt
  let fb := mxFloat m.bfmt
  (List.range m.bank).foldl (fun r j =>
    let cut := (pairsOf a b k).map fun xs => (xs.drop (j * len)).take len
    let g := ((a.scales.getD j one32).mul (b.scales.getD j one32)).1
    let sum := cut.foldl (fun (s : BlockSum) xs => s.mix fa fb m.skip xs) {}
    let sig := cut.any fun xs => xs.any (sigPair fa fb m.skip)
    let y := accumulate 0 false (fp32.decode r.1.toNat) (fp32.signalling r.1.toNat || sig) sum g
    (y.w, r.2 ||| y.flags)) (acc, 0)

/-- A K-step added to an INT32 element modulo 2^32 (R290). -/
def MOp.addInt (m : MOp) (a b : MLine) (acc : W32) : W32 :=
  let w := mxWidth m.afmt
  acc + word ((a.codes.zip b.codes).foldl (fun x e => x + signed w e.1 * signed w e.2) 0)

/-- One element of TD or of tangent tile `k` after a K-step. -/
def MOp.add (m : MOp) (a b : MLine) (k : Option Nat) (acc : W32) : W32 × Flags :=
  if mxInt m.afmt then (if k.isNone then (m.addInt a b acc, 0) else (0, 0)) else m.addFloat a b k acc

/-- A tile after a step: `f` gives the active elements from what the step finds there; the others follow Z (R290). -/
def MOp.retile (m : MOp) (t : Tile) (f : Nat → Nat → W32 → W32) : Tile :=
  let first := decide (m.step = 0)
  Tile.build t.h t.w fun r n =>
    if r < m.rows ∧ n < m.cols then f r n (if first && !m.acc then 0 else t.at r n)
    else if first && m.z then 0 else t.at r n

/-- The tiles that an operation writes: TD, and its tangent tiles with their numbers. -/
def MOp.targets (m : MOp) : List (Nat × Option Nat) :=
  (m.td, none) :: (List.range m.tans).map fun k => (m.td + 1 + k, some k)

/-- Writes every target of an operation. -/
def MOp.write (m : MOp) (c : CoreSt) (f : Option Nat → Nat → Nat → W32 → W32) : CoreSt :=
  m.targets.foldl (fun c' x => c'.setTile x.1 (m.retile (c.tile x.1) (f x.2))) c

/-- The active elements that a tile has of an operation: its active rows and columns, cut to the tile's shape (R290). -/
def MOp.active (m : MOp) (t : Tile) : List (Nat × Nat) :=
  (List.range (min m.rows t.h)).flatMap fun r => (List.range (min m.cols t.w)).map fun n => (r, n)

/-- The conversions of A that a target uses: the primal's elements, and for tangent `k` its own (R293, R295). -/
def conversions (k : Option Nat) : List Nat := 0 :: (k.map (· + 1)).toList

/-- One K-step: the new tiles, and the flags that their elements and the conversions of what they use raise (R296). -/
def MOp.run (m : MOp) (rd : Reader) (c : CoreSt) : CoreSt × Flags :=
  let as := (List.range m.rows).map (m.aLine rd c)
  let bs := (List.range m.cols).map (m.bLine rd)
  let cell (k : Option Nat) (r n : Nat) (x : W32) : W32 × Flags :=
    m.add (as.getD r ({ codes := [] }, [])).1 (bs.getD n { codes := [] }) k x
  let start (t : Tile) (r n : Nat) : W32 := if m.step = 0 ∧ !m.acc then 0 else t.at r n
  let raised := m.targets.flatMap fun x => (m.active (c.tile x.1)).flatMap fun e =>
    (cell x.2 e.1 e.2 (start (c.tile x.1) e.1 e.2)).2 ::
      (conversions x.2).map fun j => ((as[e.1]?).map fun a => a.2.getD j 0).getD 0
  (m.write c fun k r n x => (cell k r n x).1, raised.foldl (· ||| ·) 0)

/-- What an operation of no K-steps does (R290, R299). -/
def MOp.empty (m : MOp) (c : CoreSt) : CoreSt :=
  m.write c fun k _ _ x => if mxInt m.afmt && k.isSome then 0 else x

/-! ### The unit's steps (R282, R298 to R300) -/

def CoreSt.queue (c : CoreSt) (q : Bool) : List MOp := if q then c.mq1 else c.mq0

def CoreSt.setQueue (c : CoreSt) (q : Bool) (ms : List MOp) : CoreSt :=
  if q then { c with mq1 := ms } else { c with mq0 := ms }

/-- Replaces the head of a queue. -/
def CoreSt.setHead (c : CoreSt) (q : Bool) (m : MOp) : CoreSt := c.setQueue q (m :: (c.queue q).drop 1)

/-- The head of a queue where it may run (R282). -/
def CoreSt.runnable (c : CoreSt) (q : Bool) : Option MOp :=
  (c.queue q).head?.filter fun m => !m.done && c.claimFree true m.id m.names

/-- Whether the context of a team runs (R301). -/
def State.teamLive (s : State) (team : Nat) : Bool :=
  (((s.team? team).bind fun t => s.ctx? t.ctx).map fun c => decide (c.phase = .live)).getD false

/-- An operation at the head of its queue begins once its claims allow it (R282, R308), after everything that its MLOOP carries
(R302); one of no K-steps completes. -/
def execMatrixOperationStart (core : Nat) (queue : Bool) (s : State) : Res :=
  let c := s.coreSt core
  match c.runnable queue with
  | none => notEnabled
  | some m =>
    if m.started || !s.teamLive m.team then notEnabled
    else match s.fulfilAll m.forks with
      | none => notEnabled
      | some s =>
        let m := { m with forks := [], carry := s.onWay (m.forks.flatMap s.idsOf), started := true }
        (s.setCore core (if m.count = 0 then (m.empty c).setHead queue { m with done := true } else c.setHead queue m)).did

/-- The queue that takes the next K-step (R298). -/
def CoreSt.pick (c : CoreSt) : Option Bool :=
  match c.runnable false, c.runnable true with
  | none, none => none
  | some _, none => some false
  | none, some _ => some true
  | some _, some _ => some (decide (c.mqratio - 1 ≤ c.q0run))

/-- Where the operation of an MLOOP stands: with the groups of its team (Table 13.2). -/
def State.opSite (s : State) (m : MOp) : Site :=
  match s.team? m.team with
  | none => { team := m.team }
  | some t => { team := t.id, cluster := t.cluster, die := t.die, ctx := t.ctx }

/-- The release at team scope that the arrival of an operation stands for (R302). -/
def State.opSide (s : State) (m : MOp) : Rel := { site := s.opSite m, sc := 1, ids := m.carry }

/-- How an operation of a team reads its spaces; of tile memory it finds each byte as in `old` or as in `s`, between which
stores have arrived (R237, R302). -/
def State.reader (old s : State) (m : MOp) (t : Team) (wsBase : Nat) : Reader := fun window at_ n =>
  (List.range n).map fun k =>
    if window then look 0 s.ws (wsKey t.die (wsBase + at_.toNat + k)) else old.unitByte s m.team (at_.toNat + k)

/-- Whether a K-step reads a bank that is being refreshed (R228, R307). -/
def MOp.refreshWait (m : MOp) (wsBase : Nat) (refresh : Option Nat) : Bool :=
  m.bsp && (m.bReads m.step).any fun x =>
    refresh == some (wsBank (wsBase + x.1.toNat)) || refresh == some (wsBank (wsBase + x.1.toNat + x.2 - 1))

/-- The entry of an uncorrectable error in operand data (R300, Table 17.4). -/
def MOp.posting (m : MOp) (t : Team) (lseq : Nat) (queue : Bool) : Posting :=
  { src := 3
    why := { code := 0x31, detail := BitVec.ofNat 64 (m.td + (if queue then 8 else 0) + m.step % 2 ^ 32 * 2 ^ 32) }
    lseq := lseq, teampos := t.pos, die := t.die, core := t.core }

/-- The K-step of the queue that R298 chooses. -/
def execKStep (core : Nat) (err : Bool) (s : State) : Res :=
  let c := s.coreSt core
  match c.pick with
  | none => notEnabled
  | some q =>
    match c.runnable q, (c.runnable q).bind fun m => s.team? m.team with
    | some m, some t =>
      let wsBase := (((s.ctx? t.ctx).map fun x => x.desc.ws.getD t.die (0, 0)).getD (0, 0)).1 * 65536
      if !m.started || !s.teamLive m.team || m.refreshWait wsBase (s.dieSt t.die).refresh then notEnabled
      else
        let run := if !q && (c.runnable true).isSome then c.q0run + 1 else 0
        if err then
          let c' : CoreSt := m.write c fun _ _ _ _ => 0
          let s := s.setCore core { c'.setHead q { m with done := true } with q0run := run }
          let lseq := ((s.launch? t.lid).map (·.seq)).getD 0
          s.didPosting t.ctx ((s.post t.ctx (m.posting t lseq q)).failLaunch t.lid)
        else match s.summonAll (s.opSite m) fun w => w.tile == some m.team with
          | none => notEnabled
          | some old =>
            let s := old.stirTile m.team
            let r := m.run (old.reader s m t wsBase) c
            let m' := { m with step := m.step + 1, done := decide (m.count ≤ m.step + 1), flags := m.flags ||| r.2 }
            (State.setCore { s with free := s.free + 1 } core { r.1.setHead q m' with q0run := run }).did
    | _, _ => notEnabled

/-- An operation completes: its claims end, its flags join the matrix flags (R296, R306), and it arrives on its barrier (R299);
the entry of a barrier that it breaks finds room first (R195, R318). -/
def execMatrixOperationComplete (core : Nat) (queue : Bool) (s : State) : Res :=
  let c := s.coreSt core
  match c.queue queue with
  | [] => notEnabled
  | m :: ms =>
    if !m.done || !s.teamLive m.team then notEnabled
    else
      let c := (c.setQueue queue ms).unclaim true m.id
      let t := (s.setCore core (if queue then { c with q0run := 0 } else c)).onTeam m.team fun t =>
        { t with mflags := t.mflags ||| m.flags }
      let t := match m.bar with
        | none => t
        | some b => t.deviceArrive m.team b [t.opSide m]
      s.didPosting (((s.team? m.team).map (·.ctx)).getD 64) (t.retireTeam m.team)

/-! ### MST, MLD, MFLG (R304 to R306) -/

/-- The operands of MST and MLD (Table 15.7). -/
structure MStore where
  addr : Nat
  stride : Nat
  ctl : Nat
  last : Nat
  deriving DecidableEq, Repr

def Iss.mstore (i : Iss) (w : FmtT) : MStore :=
  let x (k : Nat) : Nat := (nth (i.g.sWords w.sa.toNat 4) k).toNat
  ⟨x 0, x 1, x 2, x 3⟩

def MStore.fmt (m : MStore) : Nat := bitsOf m.ctl 0 3
def MStore.tan (m : MStore) : Bool := m.ctl.testBit 6
/-- Bytes of an element. -/
def MStore.size (m : MStore) : Nat := if m.fmt = 0 then 4 else if m.fmt ≤ 2 then 2 else 1
def MStore.rows (m : MStore) (t : Tile) : Nat := if bitsOf m.last 0 8 = 0 then t.h else bitsOf m.last 0 8
def MStore.cols (m : MStore) (t : Tile) : Nat := if bitsOf m.last 8 8 = 0 then t.w else bitsOf m.last 8 8
def MStore.aligned (m : MStore) : Bool := m.addr % m.size == 0 && m.stride % m.size == 0

/-- Location of the first element of a row, of the primal or of tangent `k`. -/
def MStore.row (m : MStore) (tanStride : W32) (r : Nat) : Option Nat → Nat
  | none => m.addr + r * m.stride
  | some k => m.addr + r * m.stride + (k + 1) * tanStride.toNat

/-- The tiles that move: TD, and its tangent tiles where they do. -/
def moved (n : Nat) (tan : Bool) : List (Option Nat) := none :: if tan then (List.range n).map some else []

/-- The checks that MST and MLD share, and their claim (R304, R305). DESIGN CHOICE (log 18): they are made as the instruction
issues and again each time that it tries to act, and see TD's shape as it stands then. DESIGN CHOICE (log 15): the entry of a PROT
for a byte beyond the tile region names no byte: its SPACE is 5 and its ADDR 0. -/
def Iss.mstoreChecks (i : Iss) (w : FmtT) (m : MStore) (n : Nat) (loads : Bool) : Except Stop Unit := do
  let t := i.unit.tile w.td.toNat
  let fmtOk := if loads then m.fmt ≤ 2 && bitsOf m.ctl 3 3 == 0 else m.fmt ≤ 5
  i.operands (sFields w.sa.toNat 4) m.aligned
  i.check m.aligned 0x03
  let rows := (List.range (m.rows t)).flatMap fun r => (moved n m.tan).map (m.row i.g.tanStride r)
  i.check (m.cols t = 0 || rows.all fun x => decide (x + m.cols t * m.size ≤ i.l.tileUnits * 256)) 0x12
  i.check (t.h ≠ 0 && decide (m.rows t ≤ t.h ∧ m.cols t ≤ t.w ∧ m.cols t * m.size ≤ m.stride)
    && fmtOk && m.ctl / 128 == 0 && bitsOf m.last 16 16 == 0xFFFF
    && (n = 0 || !(m.tan || loads) || i.unit.followers w.td.toNat n)) 0x29
  i.gate
  i.claimTiles (tileRun w.td.toNat n)

/-- The rows of tile memory that MST writes or MLD reads. -/
def Iss.mstoreLocs (i : Iss) (w : FmtT) (m : MStore) (n : Nat) : List Loc :=
  (List.range (m.rows (i.unit.tile w.td.toNat))).flatMap fun r =>
    (moved n m.tan).map fun k => Loc.tile i.t.id (m.row i.g.tanStride r k)

/-- The group's earlier accesses to the bytes of MST or MLD are performed first (R142, R303). -/
def Iss.mstoreOrder (i : Iss) (w : FmtT) (m : MStore) (n : Nat) : Except Stop Iss :=
  i.over (m.cols (i.unit.tile w.td.toNat) * m.size) (i.mstoreLocs w m n)

/-- What MST writes for an element; tangents are rounded with RNE (R305). -/
def MStore.code (m : MStore) (k : Option Nat) (x : W32) : Nat × Flags :=
  if m.fmt = 0 then (x.toNat, 0)
  else if m.fmt = 5 then ((word (max (-128) (min 127 x.toInt))).toNat % 256, 0)
  else
    let f := if m.fmt = 1 then bf16 else if m.fmt = 2 then fp16 else if m.fmt = 3 then e4m3 else e5m2
    convert fp32 f (if k.isSome then 0 else bitsOf m.ctl 3 2) (m.ctl.testBit 5) false none x.toNat

/-- A row that MST writes is performed at team scope (R303); a load of another group meets it byte by byte (R237). -/
def Iss.putRow (i : Iss) (s : State) (ofs : Nat) (bs : List Byte) : State :=
  let a : Access := { lane := 0, k := 0, loc := .tile i.t.id ofs, va := 0 }
  let w := s.writeOf i.g i.g.pc32 i.g.regionCnt a (some i.t.id) ofs bs i.g.fences
  s.tear (s.addWrite { w with owed := 1, torn := true }) bs.length a.loc

/-- The tile of the primal or of tangent `k`. -/
def CoreSt.part (c : CoreSt) (d : Nat) : Option Nat → Tile
  | none => c.tile d
  | some k => c.tile (d + 1 + k)

def execMst (p : Option Dual) (w : FmtT) (s : State) : Res :=
  issue s (dualSize p) w.g false fun i => do
    let m := i.mstore w
    let n := i.tans p
    i.mstoreChecks w m n false
    let i ← i.mstoreOrder w m n
    let d := w.td.toNat
    let t := i.unit.tile d
    let out := (moved n m.tan).flatMap fun k => (List.range (m.rows t)).map fun r =>
      (m.row i.g.tanStride r k, (List.range (m.cols t)).map fun j => m.code k ((i.unit.part d k).at r j))
    let flags := out.foldl (fun f x => x.2.foldl (fun f y => f ||| y.2) f) (0 : Flags)
    let s := out.foldl (fun s x => i.putRow s x.1 (x.2.flatMap fun y => leBytes m.size y.1)) i.s
    let s := s.onTeam i.t.id fun u => { u with mflags := u.mflags ||| flags }
    Iss.matrixDone { i with s := s } i.unit

/-- What MLD makes of an element (R305); a NaN becomes the canonical one (R62). DESIGN CHOICE (log 35): widening a
signalling NaN raises no matrix flag. -/
def MStore.load (m : MStore) (bs : List Byte) : W32 :=
  let x := ofLe bs
  if m.fmt = 0 then BitVec.ofNat 32 x
  else BitVec.ofNat 32 (convert (if m.fmt = 1 then bf16 else fp16) fp32 0 false false none x).1

def execMld (p : Option Dual) (w : FmtT) (s : State) : Res :=
  issue s (dualSize p) w.g false fun i => do
    let m := i.mstore w
    let n := i.tans p
    i.mstoreChecks w m n true
    let i ← i.mstoreOrder w m n
    let d := w.td.toNat
    let t := i.unit.tile d
    let i ← i.meet (m.cols t * m.size) (i.mstoreLocs w m n)
    let fresh (k : Option Nat) (r j : Nat) : W32 :=
      if k.isSome && !m.tan then 0
      else m.load (i.s.readLoc (i.s.siteOf i.g.id) m.size (.tile i.t.id (m.row i.g.tanStride r k + j * m.size)))
    let one (c : CoreSt) (k : Option Nat) : CoreSt :=
      let u := c.part d k
      c.setTile (match k with
        | none => d
        | some k => d + 1 + k) (Tile.build u.h u.w fun r j =>
          if r < m.rows t ∧ j < m.cols t then fresh k r j else u.at r j)
    i.matrixDone ((moved n true).foldl one i.unit)

/-- MFLG (R306). -/
def execMflg (w : FmtA) (s : State) : Res :=
  issue s 8 w.g false fun i => do
    i.ready [] [w.d]
    let give (x : W32) : Group := i.g.giveAll w.d (i.ex.map fun lane => (lane, plain x))
    match i.unit.owner with
    | none => .ok { s := i.s, g := give 0 }
    | some t =>
      if t ≠ i.t.id ∨ (i.unit.mq0 ++ i.unit.mq1).any (fun m => decide (m.gid = i.g.id)) then i.wait
      else .ok { s := i.s.onTeam i.t.id fun u => { u with mflags := 0 }, g := give (i.t.mflags.setWidth 32) }

end Sys2Proof.Machine
end

