-- ==== Sys2Proof/Machine/Coherence.lean ====
section
/-! DEFINITION. How writes become visible across dies (spec/20 R357 to R360; spec/13 R252), and the refresh windows of the
weight stores (spec/12 R228). -/

namespace Sys2Proof.Machine

/-- Whether a write may reach an observer next: its own die first (R358); one with a single moment reaches its tile memory
(R252) or the port of the host (R224); an MCA write reaches observers one by one only while a part has failed that will
not acknowledge it (R361). -/
def State.mayArrive (s : State) (w : InWrite) (o : Observer) : Bool :=
  let own := Observer.socket w.site.die
  if w.mca then s.pkg.failing.any s.partLive && !w.single
  else if w.single then o == if w.flat then .host else own
  else o == own || w.arrived.contains own

/-- Where a write begins. -/
def InWrite.loc (w : InWrite) : Loc := match w.tile with
  | none => .mem w.base
  | some t => .tile t w.base

/-- What a write of an engine or of the matrix unit leaves: a load that it meets finds each byte before or after it (R237,
R279). -/
def State.meetLoads (s : State) (w : InWrite) (t : State) : State := if w.torn then s.tear t w.len w.loc else t

/-- A write has moved: what it brings of its command's bytes counts as delivered (R266). -/
def State.afterMove (s t : State) (w : InWrite) : Res := s.didPosting w.site.ctx ((s.meetLoads w t).countFor w.cmd)

/-- A write arrives at an observer (R358), once everything that comes before it has happened (R247, R251, R360). -/
def execWriteArrival (wid : Nat) (o : Observer) (s : State) : Res :=
  match s.inflight.find? fun w => w.id = wid with
  | none => notEnabled
  | some w =>
    if !s.clear w || w.arrived.contains o || !allObservers.contains o || !s.mayArrive w o then notEnabled
    else s.afterMove (s.arrive wid [o]) w

/-- An MCA write becomes visible at every observer at one moment (R359, R360), unless it has lost its acknowledgement. -/
def execMcaSingleMoment (wid : Nat) (s : State) : Res :=
  match s.inflight.find? fun w => w.id = wid with
  | none => notEnabled
  | some w =>
    if !w.mca || !s.clear w || !w.arrived.isEmpty then notEnabled
    else s.afterMove (s.landWrite wid) w

/-- The refresh window of the next bank of a die opens (R228). -/
def execWsRefresh (die bank : Nat) (s : State) : Res :=
  let d := s.dieSt die
  if die < 8 ∧ d.refresh = none ∧ bank = d.nextBank ∧ s.pkg.ready.getLsbD die then
    State.did (s.onDie die fun d => { d with refresh := some bank, nextBank := (bank + 1) % 8 })
  else notEnabled

/-- The refresh window of a bank closes (R228). -/
def execRefreshWindowEnd (die bank : Nat) (s : State) : Res :=
  if (s.dieSt die).refresh = some bank then State.did (s.onDie die fun d => { d with refresh := none }) else notEnabled

end Sys2Proof.Machine
end

