-- ==== Sys2Proof/Machine/Image.lean ====
section
/-! DEFINITION. Context images (spec/18 R335, R336; spec/17 R322): the bytes of Tables 18.2 to 18.4, written and read
back. Where Table 18.4 names contents without a layout, and for what the model's state holds besides, the layout is the
model's own: streams of numbers (log 20). -/

namespace Sys2Proof.Machine

/-- Rounds up to 4,096 bytes. -/
def pageUp (n : Nat) : Nat := (n + 4095) / 4096 * 4096

/-! ### Streams of numbers (log 20) -/

/-- A number in groups of seven bits, lowest first; a set top bit says that another follows. -/
def packNat : Nat → Nat → List Byte
  | 0, _ => []
  | fuel + 1, x => if x < 128 then [BitVec.ofNat 8 x] else BitVec.ofNat 8 (128 + x % 128) :: packNat fuel (x / 128)

/-- A stream in bytes. -/
def packNats (xs : List Nat) : List Byte := xs.flatMap (packNat 64)

/-- The numbers of a stream; `m` and `x` hold what is read of the next one. -/
def unpackNats : List Byte → Nat → Nat → List Nat
  | [], _, _ => []
  | b :: bs, m, x =>
    let x := x + b.toNat % 128 * m
    if b.toNat < 128 then x :: unpackNats bs 1 0 else unpackNats bs (m * 128) x

/-- A stream with its length in eight bytes. -/
def streamBytes (xs : List Nat) : List Byte :=
  let bs := packNats xs
  leBytes 8 bs.length ++ bs

/-- The stream at an offset. -/
def streamAt (bs : List Byte) (o : Nat) : List Nat := unpackNats ((bs.drop (o + 8)).take (recNat bs o 8)) 1 0

def putBool (b : Bool) : List Nat := [if b then 1 else 0]
def putInt (x : Int) : List Nat := [if 0 ≤ x then 2 * x.toNat else 2 * (-x).toNat + 1]
def putOpt {α : Type} (f : α → List Nat) : Option α → List Nat
  | none => [0]
  | some x => 1 :: f x
def putList {α : Type} (f : α → List Nat) (xs : List α) : List Nat := xs.length :: xs.flatMap f

/-- A reader of a stream; beyond its end it finds zeros. -/
abbrev Reads := StateM (List Nat)

def getNat : Reads Nat := modifyGet fun xs => (xs.headD 0, xs.tail)
def getBool : Reads Bool := do return (← getNat) != 0
def getInt : Reads Int := do
  let x ← getNat
  return if x % 2 = 0 then (x / 2 : Nat) else -((x / 2 : Nat) : Int)
def getOpt {α : Type} (f : Reads α) : Reads (Option α) := do
  if (← getNat) = 0 then return none else return some (← f)
def getMany {α : Type} (f : Reads α) : Nat → Reads (List α)
  | 0 => return []
  | n + 1 => do
    let x ← f
    return x :: (← getMany f n)
/-- A list, of no more items than the stream has numbers. -/
def getList {α : Type} (f : Reads α) : Reads (List α) := do
  let n ← getNat
  let xs ← get
  getMany f (min n xs.length)
def getWord {w : Nat} : Reads (BitVec w) := do return BitVec.ofNat w (← getNat)
def getPair {α β : Type} (f : Reads α) (g : Reads β) : Reads (α × β) := do
  let x ← f
  return (x, ← g)

/-! ### Group images (Tables 18.2, 18.3) -/

/-- Bytes of a group image of a launch with `nV` V registers (R335). -/
def groupImageSize (nV : Nat) : Nat := pageUp (58368 + 640 * nV)

def DivEnt.bytes (e : DivEnt) : List Byte :=
  leBytes 4 e.pc.toNat ++ leBytes 4 e.mask.toNat ++ leBytes 4 (e.rcv.getD 0).toNat
  ++ leBytes 4 ((if e.rcv.isNone then 1 else 0) + if e.join then 2 else 0)

def LoopEnt.bytes (e : LoopEnt) : List Byte := leBytes 4 e.start.toNat ++ leBytes 4 e.fin.toNat ++ leBytes 4 e.count.toNat

/-- The divergence and the loop stack of a control state, base entries first. -/
def Ctl.pieces (c : Option Ctl) (divAt loopAt : Nat) : List (Nat × List Byte) :=
  match c with
  | none => []
  | some c => [(divAt, c.div.reverse.flatMap DivEnt.bytes), (loopAt, c.loops.reverse.flatMap LoopEnt.bytes),
               (loopAt + 0x30, leBytes 4 c.loops.length)]

/-- Depth of a divergence stack. -/
def Ctl.depth (c : Option Ctl) : Nat := (c.map fun c => c.div.length).getD 0

/-- The slots of one queue: retained, landed, reserved. -/
def Queue.slots (q : Queue) : List Datum :=
  q.retained ++ (q.entries.filterMap QEnt.landed?) ++ List.replicate (q.entries.length - q.occupancy) ({} : Datum)

def Datum.bytes (d : Datum) : List Byte := (d.val :: (List.range 4).map d.tan).flatMap fun x => leBytes 4 x.toNat

/-- The queue word. -/
def Queue.word (q : Queue) (head : Nat) : Nat :=
  (if q.slots.isEmpty then 0 else head % 64) + q.occupancy * 2 ^ 6 + (q.entries.length - q.occupancy) * 2 ^ 12
  + q.retained.length * 2 ^ 18 + q.depth * 2 ^ 24

/-- The queue words of a lane from queue `n` on, with the first free slot, and its slots. -/
def Group.laneQueues (g : Group) (lane : Nat) : Nat → Nat → Nat → List Byte × List Datum
  | 0, _, _ => ([], [])
  | fuel + 1, n, slot =>
    let q := g.queue lane n
    let r := g.laneQueues lane fuel (n + 1) (slot + q.slots.length)
    (leBytes 4 (q.word slot) ++ r.1, q.slots ++ r.2)

/-- The predicates of a lane. -/
def Group.predImage (g : Group) (lane : Nat) : Byte :=
  BitVec.ofNat 8 ((List.range 7).foldl (fun x n => if (look 0 g.p n).getLsbD lane then x + 2 ^ n else x) 0)

/-- The lanes in which a V register is full. -/
def Group.fullMask (g : Group) (n : Nat) : Nat :=
  lanes.foldl (fun x lane => if (g.vCell n lane).full then x + 2 ^ lane else x) 0

/-- Where the queues of a lane stand in a group image. -/
def laneQueueAt (lane : Nat) : Nat := 0x3C00 + 1344 * lane

/-- The pieces of a group image, each with its offset; the rest is zero. -/
def Group.image (g : Group) (l : Launch) (team : Nat) : List (Nat × List Byte) :=
  let w (x : W32) : List Byte := leBytes 4 x.toNat
  let regs := [g.cause, g.causePc, g.regionPc, g.regionCnt, g.tvec, g.tanStride, g.fbgrp, g.slipCnt]
  let queue (lane : Nat) : List (Nat × List Byte) :=
    let r := g.laneQueues lane 16 0 0
    [(laneQueueAt lane, r.1), (laneQueueAt lane + 64, r.2.flatMap Datum.bytes)]
  let tangents (at_ : Nat → Nat) (d : Datum) : List (Nat × List Byte) :=
    (List.range 4).map fun k => (at_ k, w (d.tan k))
  [ (0, w g.pc32),
    (4, leBytes 4 ((if g.inHandler then 1 else 0) + (if g.status = .awaiting then 2 else 0)
      + if g.debugStop then 4 else 0)),
    (8, regs.flatMap w),
    (0x28, leBytes 4 (Ctl.depth (some g.ctl) + Ctl.depth g.saved * 2 ^ 9 + Ctl.depth (some g.recorded) * 2 ^ 18)),
    (0x2C, leBytes 4 (team + g.groupId * 2 ^ 16)),
    (0x100, lanes.flatMap fun n => leBytes 4 (look 0 g.fpst n).toNat),
    (0x180, lanes.flatMap fun n => leBytes 4 (look 0 g.fpte n).toNat),
    (0x200, lanes.map g.predImage),
    (0x3900, (List.range l.vregs).flatMap fun n => leBytes 4 (g.fullMask n)),
    (0x3B00, leBytes 8 ((List.range l.sregs).foldl (fun x n => if (g.sCell n).full then x + 2 ^ n else x) 0)) ]
  ++ Ctl.pieces (some g.ctl) 0x400 0x40 ++ Ctl.pieces g.saved 0x1400 0x80 ++ Ctl.pieces (some g.recorded) 0x2400 0xC0
  ++ (g.s.flatMap fun e => (0x3400 + 4 * e.1, w e.2.d.val) :: tangents (fun k => 0x3500 + 256 * k + 4 * e.1) e.2.d)
  ++ lanes.flatMap queue
  ++ g.v.flatMap fun e =>
    let n := e.1 / 32
    let lane := e.1 % 32
    if n < l.vregs then
      (0xE400 + 128 * n + 4 * lane, w e.2.d.val)
        :: tangents (fun k => 0xE400 + 128 * (l.vregs * (1 + k) + n) + 4 * lane) e.2.d
    else []

/-! ### What Table 18.4 lists without a layout, and the rest of the model's state (log 20) -/

def RetTo.put (r : RetTo) : List Nat := [r.gid, r.lane, r.q, r.res]
def RetTo.get : Reads RetTo := do return ⟨← getNat, ← getNat, ← getNat, ← getNat⟩

def CauseRec.put (c : CauseRec) : List Nat :=
  [c.code.toNat] ++ putBool c.conv ++ putBool c.ih ++ [c.lane, c.space, c.addr.toNat, c.pc.toNat, c.region.toNat, c.detail.toNat]
  ++ putBool c.fetch
def CauseRec.get : Reads CauseRec := do
  return { code := ← getWord, conv := ← getBool, ih := ← getBool, lane := ← getNat, space := ← getNat, addr := ← getWord
           pc := ← getWord, region := ← getWord, detail := ← getWord, fetch := ← getBool }

def Posting.put (p : Posting) : List Nat :=
  [p.src] ++ p.why.put ++ putBool p.repl ++ [p.regionPc.toNat, p.lseq, p.teampos.toNat, p.groupId, p.die, p.core]
  ++ putOpt (fun g => [g]) p.gid ++ putBool p.debug
def Posting.get : Reads Posting := do
  return { src := ← getNat, why := ← CauseRec.get, repl := ← getBool, regionPc := ← getWord, lseq := ← getNat
           teampos := ← getWord, groupId := ← getNat, die := ← getNat, core := ← getNat, gid := ← getOpt getNat
           debug := ← getBool }

def NodeState.code : NodeState → Nat
  | .waiting => 0
  | .ready => 1
  | .running => 2
  | .done => 3
def NodeState.ofCode (n : Nat) : NodeState := [.waiting, .ready, .running].getD n .done

def Node.put (x : Node) : List Nat :=
  [x.graph, x.node, x.preds] ++ putList (fun n => [n]) x.succs ++ [x.lo, x.hi, x.grain, x.record.toNat]
  ++ putBool x.notify ++ putOpt (fun b => [b.1, b.2]) x.bar ++ x.posting.put ++ [x.state.code]
  ++ putList (fun i => [i.1, i.2]) x.left
def Node.get : Reads Node := do
  return { graph := ← getNat, node := ← getNat, preds := ← getNat, succs := ← getList getNat, lo := ← getNat
           hi := ← getNat, grain := ← getNat, record := ← getWord, notify := ← getBool
           bar := ← getOpt (getPair getNat getNat), posting := ← Posting.get, state := NodeState.ofCode (← getNat)
           left := ← getList (getPair getNat getNat) }

def Piece.put (p : Piece) : List Nat :=
  [p.handle, p.graph, p.node, p.next, p.hi, p.chunkLo, p.chunkHi] ++ putOpt (fun g => [g]) p.holder ++ [p.die]
def Piece.get : Reads Piece := do
  return ⟨← getNat, ← getNat, ← getNat, ← getNat, ← getNat, ← getNat, ← getNat, ← getOpt getNat, ← getNat⟩

def Tile.put (t : Tile) : List Nat := [t.h, t.w] ++ putList (fun x => [x.1, x.2.toNat]) t.words
def Tile.get : Reads Tile := do
  return { h := ← getNat, w := ← getNat, words := ← getList (getPair getNat getWord) }

def MOp.put (m : MOp) : List Nat :=
  [m.id, m.team, m.gid, m.td] ++ putOpt (fun n => [n]) m.ta ++ [m.tans] ++ putBool m.acc ++ putBool m.z ++ putBool m.skip
  ++ [m.a0] ++ putInt m.ainc ++ [m.b0] ++ putInt m.binc ++ putBool m.bsp ++ putList (putOpt fun n => [n]) m.rowOf
  ++ [m.rows, m.cols, m.afmt, m.bfmt] ++ putBool m.bl16 ++ putBool m.at_ ++ putBool m.bt
  ++ [m.aso, m.bso, m.stride.toNat] ++ putOpt (fun n => [n]) m.bar ++ [m.count, m.flags.toNat, m.step] ++ putBool m.started ++ putBool m.done
def MOp.get : Reads MOp := do
  return { id := ← getNat, team := ← getNat, gid := ← getNat, td := ← getNat, ta := ← getOpt getNat, tans := ← getNat
           acc := ← getBool, z := ← getBool, skip := ← getBool, a0 := ← getNat, ainc := ← getInt, b0 := ← getNat
           binc := ← getInt, bsp := ← getBool, rowOf := ← getList (getOpt getNat), rows := ← getNat, cols := ← getNat
           afmt := ← getNat, bfmt := ← getNat, bl16 := ← getBool, at_ := ← getBool, bt := ← getBool, aso := ← getNat
           bso := ← getNat, stride := ← getWord, bar := ← getOpt getNat, count := ← getNat, flags := ← getWord, step := ← getNat
           started := ← getBool, done := ← getBool }

def Claim.put (c : Claim) : List Nat := putBool c.isOp ++ [c.key] ++ putList (fun n => [n]) c.tiles
def Claim.get : Reads Claim := do return { isOp := ← getBool, key := ← getNat, tiles := ← getList getNat }

/-- The matrix state of an owner team: tiles, shapes, queues with residual operations, claims (R301). -/
def CoreSt.put (c : CoreSt) : List Nat :=
  putList (fun e => e.1 :: e.2.put) c.tiles ++ putList MOp.put c.mq0 ++ putList MOp.put c.mq1 ++ [c.q0run]
  ++ putList Claim.put c.claims
def CoreSt.get (owner mqratio : Nat) : Reads CoreSt := do
  return { mqratio := mqratio, owner := some owner, tiles := ← getList (getPair getNat Tile.get), mq0 := ← getList MOp.get
           mq1 := ← getList MOp.get, q0run := ← getNat, claims := ← getList Claim.get }

/-- The high halves of addresses of code, and the loop stacks of branches (R97), of a control state. -/
def LoopEnt.putHigh (e : LoopEnt) : List Nat := [e.start.toNat / 2 ^ 32, e.fin.toNat / 2 ^ 32]
def LoopEnt.putAll (e : LoopEnt) : List Nat := [e.start.toNat, e.fin.toNat, e.count.toNat]
def LoopEnt.getAll : Reads LoopEnt := do return ⟨← getWord, ← getWord, ← getWord⟩
def Ctl.put (c : Ctl) : List Nat :=
  putList (fun (e : DivEnt) =>
    [e.pc.toNat / 2 ^ 32, (e.rcv.getD 0).toNat / 2 ^ 32] ++ putList LoopEnt.putAll e.loops) c.div
  ++ putList LoopEnt.putHigh c.loops

/-- The rest of a control state. -/
structure CtlRest where
  div : List ((Nat × Nat) × List LoopEnt)
  loops : List (Nat × Nat)
  deriving DecidableEq, Repr
def CtlRest.get : Reads CtlRest := do
  return ⟨← getList (getPair (getPair getNat getNat) (getList LoopEnt.getAll)), ← getList (getPair getNat getNat)⟩

def putOpnd : Opnd → List Nat
  | .v n => [0, n.toNat]
  | .s n => [1, n.toNat]
  | .q n => [2, n.toNat]
  | .zr => [3, 0]
def getOpnd : Reads Opnd := do
  let k ← getNat
  let n ← getNat
  return if k = 0 then .v (BitVec.ofNat _ n) else if k = 1 then .s (BitVec.ofNat _ n)
    else if k = 2 then .q (BitVec.ofNat _ n) else .zr

def Refill.put (r : Refill) : List Nat := putList (fun n => [n]) r.lanes ++ [r.base, r.n] ++ putOpnd r.dst ++ [r.word.toNat]
def Refill.get : Reads Refill := do
  return ⟨← getList getNat, ← getNat, ← getNat, ← getOpnd, ← getWord⟩

/-- The names of a queue's reserved entries, in reservation order. -/
def Queue.names (q : Queue) : List Nat :=
  q.entries.filterMap fun e => match e with
    | .reserved id _ => some id
    | .landed _ => none

/-- The order of a queue's entries, which the parts of a group image do not show: 0 for a landed one, else one more than the
name of a reserved one. -/
def Queue.order (q : Queue) : List Nat :=
  q.entries.map fun e => match e with
    | .reserved id _ => id + 1
    | .landed _ => 0

/-- The rest of a group. -/
def Group.put (g : Group) : List Nat :=
  [g.id, g.nthreads] ++ putBool g.pipe ++ g.ctl.put ++ putOpt Ctl.put g.saved ++ g.recorded.put
  ++ putList (fun e => e.1 :: putList (fun n => [n]) (Queue.order e.2)) g.q ++ putList Refill.put g.refill
structure GroupRest where
  id : Nat
  nthreads : Nat
  pipe : Bool
  ctl : CtlRest
  saved : Option CtlRest
  recorded : CtlRest
  orders : List (Nat × List Nat)
  refill : List Refill
  deriving DecidableEq, Repr
def GroupRest.get : Reads GroupRest := do
  return ⟨← getNat, ← getNat, ← getBool, ← CtlRest.get, ← getOpt CtlRest.get, ← CtlRest.get
         , ← getList (getPair getNat (getList getNat)), ← getList Refill.get⟩

/-- The rest of a launch. -/
def Launch.put (l : Launch) : List Nat :=
  [l.id] ++ putOpt (fun n => [n]) l.team ++ [l.pushBars] ++ putOpt putBool l.verdict ++ putOpt RetTo.put l.ret
  ++ putBool l.depDone ++ putOpt (fun n => [n]) l.fate ++ putBool l.closed ++ putBool l.ended ++ putBool l.finished
  ++ putOpt (fun n => [n]) l.depStatus ++ [l.depSeq]

/-- The rest of a command. -/
def Cmd.put (c : Cmd) : List Nat :=
  [c.id, c.squeue, c.team, c.lid, c.die, c.core, c.cluster, c.corner, c.teampos.toNat] ++ putBool c.priv
  ++ putOpt RetTo.put c.ret ++ putOpt CauseRec.put c.fate ++ [c.lenField, c.src, c.dst]

/-- The rest of a team: its name, its launch, the name that its cluster shares, and the pipes of its groups. -/
def Team.put (t : Team) : List Nat := [t.id, t.lid, t.cluster] ++ putList putBool t.pipes
/-- That rest. -/
structure TeamRest where
  id : Nat
  lid : Nat
  cluster : Nat
  pipes : List Bool
  deriving DecidableEq, Repr
def TeamRest.get : Reads TeamRest := do return ⟨← getNat, ← getNat, ← getNat, ← getList getBool⟩

/-! ### The sections -/

/-- Where a team stands among others. -/
def teamIndex (ts : List Team) (id : Nat) : Nat := (ts.takeWhile fun t => decide (t.id ≠ id)).length

/-- What an image holds of a context. -/
structure Image where
  mode : Nat
  dev : Nat
  qcount : Nat
  acc : Nat
  fin : Nat
  nodes : List Node
  pieces : List Piece
  heldDecs : List Nat
  launches : List Launch
  cmds : List Cmd
  teams : List Team
  groups : List Group
  /-- by core: MQRATIO, and the matrix state of an owner team -/
  cores : SMap CoreSt
  deriving DecidableEq, Repr

def Image.launchOf (m : Image) (t : Team) : Option Launch := m.launches.find? fun l => l.id = t.lid
def Image.teamOf (m : Image) (g : Group) : Option Team := m.teams.find? fun t => t.id = g.team
def Image.coreOf (m : Image) (t : Team) : Option CoreSt :=
  (look? m.cores (coreKey t.die t.core)).filter fun c => c.owner = some t.id

/-- The launch table's order: by queue, then by acceptance. -/
def Image.tableLaunches (m : Image) : List Launch :=
  (List.range 64).flatMap fun q => m.launches.filter fun l => l.queue = q

/-- The groups in the order of their images. -/
def Image.ordered (m : Image) : List Group := m.teams.flatMap fun t => m.groups.filter fun g => g.team = t.id

/-- What Table 18.4 names of the context state: MQRATIO of each core used, and the task unit. -/
def Image.stateStream (m : Image) : List Byte :=
  streamBytes (putList (fun e => [e.1, e.2.mqratio]) m.cores ++ putList Node.put m.nodes ++ putList Piece.put m.pieces
  ++ putList (fun n => [n]) m.heldDecs)

/-- The rest of what the sections hold. -/
def Image.restStream (m : Image) : List Byte :=
  streamBytes (putList Launch.put m.tableLaunches ++ putList Cmd.put m.cmds ++ putList Team.put m.teams
  ++ putList Group.put m.ordered)

/-- Bytes of the streams that the context-state section has room for, after its head of 32 bytes. -/
def stateRoom : Nat := 4096 - 32

/-- Both streams: the context-state section holds what it has room for, and the section of the team records the rest, after
its last record (log 20). -/
def Image.streams (m : Image) : List Byte := m.stateStream ++ m.restStream
def Image.spill (m : Image) : List Byte := m.streams.drop stateRoom

/-- The context-state section, of 4,096 bytes; `spill` is where the rest of the streams stands. -/
def Image.stateBytes (m : Image) (spill : Nat) : List Byte :=
  leBytes 1 m.mode ++ leBytes 1 m.dev ++ leBytes 2 m.qcount ++ leBytes 4 0
  ++ leBytes 8 m.acc ++ leBytes 8 m.fin ++ leBytes 8 spill ++ m.streams.take stateRoom

/-- A launch table entry (Table 18.4): the record comes first. -/
def Launch.entryBytes (l : Launch) (retired : Nat) : List Byte :=
  l.record ++ leBytes 8 l.seq ++ leBytes 4 l.queue ++ leBytes 4 l.placed ++ leBytes 4 retired ++ leBytes 4 l.red.maxSt
  ++ leBytes 4 l.red.orSt.toNat ++ leBytes 4 l.red.nonzero ++ leBytes 4 l.red.exited ++ leBytes 4 l.red.made
  ++ leBytes 4 l.red.claimed ++ leBytes 4 l.red.unclaimed

/-- Teams of a launch that have retired. -/
def Image.retired (m : Image) (l : Launch) : Nat :=
  l.placed * (l.cw * l.ch) - (m.teams.filter fun t => t.lid = l.id).length

def CState.code : CState → Nat
  | .queued => 0
  | .held => 1
  | .running => 2
  | .residual => 3
def CState.ofCode (n : Nat) : CState := [.queued, .held].getD n .residual

/-- Where the first undelivered byte of a copy command comes from; the rows of GATHER lie where their indices say. -/
def Cmd.srcNext (c : Cmd) : Nat :=
  match c.opc with
  | 3 => ((c.reblockBit (8 * c.delivered)).map fun p => wrapAdd c.src (p / 8 : Nat)).getD c.src
  | 4 | 5 | 7 => c.src
  | _ => c.srcOf c.delivered

/-- LEN, SRC and DST of a command, replaced. -/
def Cmd.sides (c : Cmd) (len src dst : Nat) : List Byte :=
  splice (splice (splice c.bytes 0x0C (leBytes 4 len)) 0x10 (leBytes 8 src)) 0x18 (leBytes 8 dst)

/-- A copy command past its delivered prefix: SRC and DST name the first byte that is left, LEN the bytes that are left. -/
def Cmd.moved (c : Cmd) : List Byte :=
  if c.delivered = 0 then c.bytes else c.sides ((c.len - c.delivered) % 2 ^ 32) c.srcNext (c.dstOf c.delivered)

/-- A command table entry: the command with SRC, DST and LEN past the delivered prefix comes first (log 20). -/
def Cmd.entryBytes (c : Cmd) (team : Nat) : List Byte :=
  (if c.onCopy then c.moved else c.bytes) ++ leBytes 2 c.qid ++ leBytes 2 team ++ leBytes 1 c.state.code
  ++ leBytes 1 (match c.verdict with
      | none => 255
      | some b => if b then 1 else 0) ++ leBytes 2 0 ++ leBytes 8 c.delivered

/-- Bytes of a barrier (Table 18.4). -/
def Barrier.bytes (b : Barrier) : List Byte :=
  leBytes 2 b.count ++ leBytes 2 b.arr ++ leBytes 1 (if b.ph then 1 else 0) ++ leBytes 1 (if b.brk then 1 else 0)
  ++ leBytes 2 0 ++ leBytes 8 (b.pend % 2 ^ 64).toNat

/-- Where the parts of a team record stand: write pointers, tile region, lane-local stretches, matrix state, the end. -/
structure TeamLayout where
  ptrs : Nat
  tile : Nat
  local_ : Nat
  matrix : Nat
  size : Nat
  deriving DecidableEq, Repr

/-- The layout of a record with `ptrs` write pointers and `matrix` bytes of matrix state. -/
def teamLayout (l : Launch) (ptrs matrix : Nat) : TeamLayout :=
  let at_ := 64 + 16 * l.barriers
  let tile := at_ + 16 * ptrs
  let local_ := tile + 256 * l.tileUnits
  let tiles := local_ + 32 * l.laneBytes * l.groupsPerTeam
  ⟨at_, tile, local_, tiles, (tiles + matrix + 15) / 16 * 16⟩

/-- The bytes of the matrix state that a team's record holds. -/
def Image.matrixBytes (m : Image) (t : Team) : List Byte :=
  match m.coreOf t with
  | none => []
  | some c => streamBytes c.put

def Image.layout (m : Image) (t : Team) (l : Launch) : TeamLayout :=
  teamLayout l t.wptr.length (m.matrixBytes t).length

/-- The pieces of a team record; its head holds the sizes of its parts. -/
def Image.record (m : Image) (t : Team) (l : Launch) : List (Nat × List Byte) :=
  let mx := m.matrixBytes t
  let y := m.layout t l
  [ (0, leBytes 1 t.die ++ leBytes 1 t.core ++ leBytes 1 t.corner ++ leBytes 1 (t.cw + 16 * t.ch)
      ++ leBytes 4 t.wptr.length ++ leBytes 8 l.seq ++ leBytes 4 t.pos.toNat ++ leBytes 4 t.mflags.toNat
      ++ leBytes 8 y.size ++ leBytes 8 mx.length) ]
  ++ (t.bars.map fun e => (64 + 16 * e.1, e.2.bytes))
  ++ [(y.ptrs, t.wptr.flatMap fun e => leBytes 8 e.1 ++ leBytes 8 e.2.toNat)]
  ++ (t.tile.map fun e => (y.tile + e.1, [e.2]))
  ++ ((m.groups.filter fun g => g.team = t.id).flatMap fun g => g.lmem.map fun e =>
      (y.local_ + (32 * g.groupId + e.1 / 1024) * l.laneBytes + e.1 % 1024, [e.2]))
  ++ [(y.matrix, mx)]

/-- Size of a team record. -/
def Image.teamSize (m : Image) (t : Team) : Nat :=
  match m.launchOf t with
  | none => 64
  | some l => (m.layout t l).size

def Image.groupSize (m : Image) (g : Group) : Nat :=
  groupImageSize ((((m.teamOf g).bind m.launchOf).map (·.vregs)).getD 1)

/-! ### Writing the image -/

/-- The estates that the makes and claims of a launch have discarded and that no completion has counted yet (R214). -/
def State.uncounted (s : State) (lid : Nat) : Nat :=
  (s.estates.filter fun e => decide (e.lid = lid) && (e.level == .discarded 2 || e.level == .discarded 3)).length

/-- What the device holds of a context, as an image would list it; the estate counts are those of this moment (R214). -/
def State.work (s : State) (n : Nat) (c : Ctx) (cores : SMap CoreSt) : Image :=
  let now (l : Launch) : Launch := { l with red := { l.red with unclaimed := l.red.unclaimed + s.uncounted l.id } }
  { mode := c.desc.mode, dev := c.desc.dev, qcount := c.desc.qcount, acc := c.acc, fin := c.fin, nodes := c.nodes
    pieces := c.pieces, heldDecs := c.heldDecs, launches := (s.launches.filter fun l => l.ctx = n).map now
    cmds := s.cmds.filter fun x => x.ctx = n ∧ x.state ≠ .running
    teams := s.teams.filter fun t => t.ctx = n
    groups := s.groups.filter fun g => s.teams.any fun t => t.id = g.team ∧ t.ctx = n
    cores := cores }

/-- Where the section of the team records begins, and where its last record ends. -/
def Image.teamsAt (m : Image) : Nat := 8192 + pageUp (128 * m.launches.length) + pageUp (96 * m.cmds.length)
def Image.spillAt (m : Image) : Nat := m.teams.foldl (fun n t => n + m.teamSize t) m.teamsAt

/-- Offsets of the five sections, and the size, which is where the last of them ends (R336). -/
def Image.offsets (m : Image) : List Nat × Nat :=
  let groups := pageUp (m.spillAt + m.spill.length)
  ([4096, 8192, 8192 + pageUp (128 * m.launches.length), m.teamsAt, groups],
   m.ordered.foldl (fun n g => n + m.groupSize g) groups)

/-- Items placed one after another. -/
def placeAll {α : Type} (size : α → Nat) : Nat → List α → List (Nat × α)
  | _, [] => []
  | o, x :: xs => (o, x) :: placeAll size (o + size x) xs

/-- Pieces moved to an offset. -/
def shiftPieces (o : Nat) (ps : List (Nat × List Byte)) : List (Nat × List Byte) := ps.map fun p => (o + p.1, p.2)

/-- Every piece of the image, with its offset. -/
def Image.pieceBytes (m : Image) : List (Nat × List Byte) :=
  let y := m.offsets
  let at_ (k : Nat) : Nat := y.1.getD k 0
  [(0, leBytes 8 y.2 ++ [2] ++ leBytes 7 0 ++ y.1.flatMap fun o => leBytes 8 o), (at_ 0, m.stateBytes m.spillAt),
   (m.spillAt, m.spill)]
  ++ ((placeAll (fun _ => 128) (at_ 1) m.tableLaunches).map fun e => (e.1, e.2.entryBytes (m.retired e.2)))
  ++ ((placeAll (fun _ => 96) (at_ 2) m.cmds).map fun e => (e.1, e.2.entryBytes (teamIndex m.teams e.2.team)))
  ++ ((placeAll m.teamSize (at_ 3) m.teams).flatMap fun e =>
      match m.launchOf e.2 with
      | none => []
      | some l => shiftPieces e.1 (m.record e.2 l))
  ++ (placeAll m.groupSize (at_ 4) m.ordered).flatMap fun e =>
      match (m.teamOf e.2).bind m.launchOf with
      | none => []
      | some l => shiftPieces e.1 (e.2.image l (teamIndex m.teams e.2.team))

/-- The bytes of a range become zero. -/
def State.zeroRange (s : State) (pa n : Nat) : State :=
  let out (c : Host.Cell) : Bool := !decide (pa ≤ c.1 ∧ c.1 < pa + n)
  { s with mem := s.mem.filter out
           inflight := s.inflight.map fun (w : InWrite) =>
             if w.flat && w.placed && !w.mca then { w with cells := w.cells.filter out } else w }

/-- Pieces written from a base. -/
def State.writePieces (s : State) (base : Nat) (ps : List (Nat × List Byte)) : State :=
  ps.foldl (fun s p => s.writeRaw (base + p.1) p.2) s

/-- Writes the image into the image area (R338). -/
def State.writeImage (s : State) (base : Nat) (m : Image) : State :=
  (s.zeroRange base m.offsets.2).writePieces base m.pieceBytes

/-- Writes one group's image again, where the header says that the group images stand (R330). -/
def State.writeGroupImage (s : State) (c : Ctx) (g : Group) (l : Launch) : State :=
  let m := s.work c.desc.ctx c []
  let base := c.desc.imgBase
  let start := ofLe (s.homeBytes (base + 48) 8)
  match (placeAll m.groupSize start m.ordered).find? fun e => e.2.id = g.id with
  | none => s
  | some e => (s.zeroRange (base + e.1) (m.groupSize g)).writePieces (base + e.1) (g.image l (teamIndex m.teams g.team))

/-- Writes the context-state section again, where the matrix ratios of the context have changed (R330). -/
def State.writeStateSection (s : State) (c : Ctx) (cores : SMap CoreSt) : State :=
  let m := s.work c.desc.ctx c cores
  let base := c.desc.imgBase
  let at_ := ofLe (s.homeBytes (base + 16) 8)
  let spill := ofLe (s.homeBytes (base + at_ + 24) 8)
  (s.writeRaw (base + at_ + 32) (m.stateStream.take stateRoom)).writeRaw (base + spill) (m.stateStream.drop stateRoom)

/-! ### Reading an image back (R341, R347) -/

/-- The nonzero bytes of a range as its home holds them, as offsets from its start. -/
def State.rangeCells (s : State) (pa n : Nat) : List Host.Cell :=
  let inside (c : Host.Cell) : Bool := decide (pa ≤ c.1 ∧ c.1 < pa + n)
  let base := s.mem.filter inside
  (s.inflight.foldl (fun m w =>
    Memory.writeCells m (w.cells.filter fun c => inside c && w.visible none (s.homeOf c.1))) base).map fun c =>
      (c.1 - pa, c.2)

/-- Cells of a part of a range. -/
def subCells (cells : List Host.Cell) (o n : Nat) : List Host.Cell :=
  cells.filterMap fun c => if o ≤ c.1 ∧ c.1 < o + n then some (c.1 - o, c.2) else none

/-- The `n` bytes from offset `o` on of rising cells. -/
def flatBytes : Nat → Nat → List Host.Cell → List Byte
  | 0, _, _ => []
  | n + 1, o, [] => 0 :: flatBytes n (o + 1) []
  | n + 1, o, c :: cs => if c.1 = o then c.2 :: flatBytes n (o + 1) cs else 0 :: flatBytes n (o + 1) (c :: cs)

/-- The bytes of a part of a range. -/
def partBytes (cells : List Host.Cell) (o n : Nat) : List Byte := flatBytes n 0 (subCells cells o n)

/-- The nonzero words of a range of bytes. -/
def cellWords : List Host.Cell → List (Nat × W32)
  | [] => []
  | c :: cs =>
    let x : W32 := BitVec.ofNat 32 (c.2.toNat * 2 ^ (8 * (c.1 % 4)))
    match cellWords cs with
    | (k, y) :: ws => if k = c.1 / 4 then (k, x ||| y) :: ws else (c.1 / 4, x) :: (k, y) :: ws
    | [] => [(c.1 / 4, x)]

/-- A word of an image. -/
def wordAt (ws : List (Nat × W32)) (o : Nat) : W32 := look 0 ws (o / 4)

/-- Sets one word of a datum: the primal, or tangent k − 1. -/
def Datum.setPart (d : Datum) (k : Nat) (x : W32) : Datum := if k = 0 then { d with val := x } else d.setTan (k - 1) x

/-- An address of code from its low word and its high half. -/
def codeOf (lo : W32) (hi : Nat) : CodeAt := BitVec.ofNat 64 (lo.toNat + hi * 2 ^ 32)

/-- A control state as a group image holds it. -/
def Ctl.fromImage (ws : List (Nat × W32)) (divAt loopAt depth : Nat) (r : CtlRest) : Ctl :=
  let ent (i : Nat) : DivEnt :=
    let o := divAt + 16 * i
    let x := r.div.getD (depth - 1 - i) ((0, 0), [])
    let flags := wordAt ws (o + 12)
    { pc := codeOf (wordAt ws o) x.1.1, mask := wordAt ws (o + 4)
      rcv := if flags.getLsbD 0 then none else some (codeOf (wordAt ws (o + 8)) x.1.2), join := flags.getLsbD 1
      loops := x.2 }
  let n := min 4 (wordAt ws (loopAt + 0x30)).toNat
  let lp (i : Nat) : LoopEnt :=
    let o := loopAt + 12 * i
    let x := r.loops.getD (n - 1 - i) (0, 0)
    ⟨codeOf (wordAt ws o) x.1, codeOf (wordAt ws (o + 4)) x.2, wordAt ws (o + 8)⟩
  ⟨((List.range depth).map ent).reverse, ((List.range n).map lp).reverse⟩

/-- Entries in an order, from the landed ones. -/
def inOrder : List Nat → List Datum → List QEnt
  | [], ds => ds.map .landed
  | 0 :: os, d :: ds => .landed d :: inOrder os ds
  | 0 :: os, [] => inOrder os []
  | (id + 1) :: os, ds => .reserved id true :: inOrder os ds

/-- A queue as a group image holds it, with the order of its entries. -/
def Queue.fromImage (ws : List (Nat × W32)) (lane n : Nat) (order : List Nat) : Queue :=
  let w := (wordAt ws (laneQueueAt lane + 4 * n)).toNat
  let datum (i : Nat) : Datum :=
    let o := laneQueueAt lane + 64 + 20 * ((bitsOf w 0 6 + i) % 64)
    (List.range 5).foldl (fun d k => Datum.setPart d k (wordAt ws (o + 4 * k))) ({} : Datum)
  let old := bitsOf w 18 6
  { depth := bitsOf w 24 4
    retained := (List.range old).map datum
    entries := inOrder order ((List.range (bitsOf w 6 6)).map fun i => datum (old + i)) }

/-- The registers of a group as its image holds them. -/
def Group.regsFromImage (g : Group) (l : Launch) (ws : List (Nat × W32)) : Group :=
  let nV := l.vregs
  let vWord (m : SMap Cell) (e : Nat × W32) : SMap Cell :=
    let i := e.1 - 0xE400 / 4
    let r := i / 32
    if 0xE400 / 4 ≤ e.1 ∧ r < 5 * nV then
      let key := r % nV * 32 + i % 32
      let c := look {} m key
      keep {} m key { c with d := c.d.setPart (r / nV) e.2 }
    else m
  let sWord (m : SMap Cell) (e : Nat × W32) : SMap Cell :=
    let i := e.1 - 0x3400 / 4
    if 0x3400 / 4 ≤ e.1 ∧ i < 5 * 64 then
      let c := look {} m (i % 64)
      keep {} m (i % 64) { c with d := c.d.setPart (i / 64) e.2 }
    else m
  let v := ws.foldl vWord []
  let v := (List.range nV).foldl (fun m n =>
    let full := wordAt ws (0x3900 + 4 * n)
    lanes.foldl (fun m lane => if full.getLsbD lane then m else keep {} m (n * 32 + lane) { look {} m (n * 32 + lane) with full := false }) m) v
  let s := ws.foldl sWord []
  let s := (List.range l.sregs).foldl (fun m n =>
    if (wordAt ws (0x3B00 + 4 * (n / 32))).getLsbD (n % 32) then m
    else keep {} m n { look {} m n with full := false }) s
  let flags (o : Nat) : SMap (BitVec 5) := lanes.foldl (fun m n => keep 0 m n ((wordAt ws (o + 4 * n)).extractLsb' 0 5)) []
  let preds := (List.range 7).foldl (fun m n =>
    keep 0 m n (laneMask (lanes.filter fun lane => (wordAt ws (0x200 + lane)).getLsbD (8 * (lane % 4) + n)))) []
  { g with
    v := v, s := s, p := preds, fpst := flags 0x100, fpte := flags 0x180
    cause := wordAt ws 0x08, causePc := wordAt ws 0x0C, regionPc := wordAt ws 0x10, regionCnt := wordAt ws 0x14
    tvec := wordAt ws 0x18, tanStride := wordAt ws 0x1C, fbgrp := wordAt ws 0x20, slipCnt := wordAt ws 0x24 }

/-- A group as its image holds it. -/
def GroupRest.group (r : GroupRest) (l : Launch) (ts : List Team) (ws : List (Nat × W32)) : Group :=
  let depths := (wordAt ws 0x28).toNat
  let bits := wordAt ws 4
  let who := (wordAt ws 0x2C).toNat
  let ctl := Ctl.fromImage ws 0x400 0x40 (bitsOf depths 0 9) r.ctl
  let ctl := ctl.setPc (codeOf (wordAt ws 0) (ctl.pc.toNat / 2 ^ 32))
  let saved := bitsOf depths 9 9
  let g : Group :=
    { id := r.id, team := ((ts[bitsOf who 0 16]?).map (·.id)).getD 0, groupId := bitsOf who 16 5, nthreads := r.nthreads
      pipe := r.pipe, ctl := ctl
      saved := if saved = 0 then none else some (Ctl.fromImage ws 0x1400 0x80 saved (r.saved.getD ⟨[], []⟩))
      recorded := Ctl.fromImage ws 0x2400 0xC0 (bitsOf depths 18 9) r.recorded
      inHandler := bits.getLsbD 0, status := if bits.getLsbD 1 then .awaiting else .running, debugStop := bits.getLsbD 2
      refill := r.refill
      q := lanes.foldl (fun m lane => (List.range 16).foldl (fun m n =>
        keep {} m (lane * 16 + n) (Queue.fromImage ws lane n ((look? r.orders (lane * 16 + n)).getD []))) m) [] }
  g.regsFromImage l ws

/-- A launch as its table entry and the stream hold it. -/
def Launch.get (bs : List Byte) : Reads Launch := do
  let id ← getNat
  let team ← getOpt getNat
  let bars ← getNat
  return {
    id := id, ctx := 0, record := bs.take 64, seq := recNat bs 64 8, queue := recNat bs 72 4, placed := recNat bs 76 4
    team := team, pushBars := bars, gslot := recNat bs 2 1, verdict := ← getOpt getBool, ret := ← getOpt RetTo.get
    depDone := ← getBool, fate := ← getOpt getNat, closed := ← getBool, ended := ← getBool, finished := ← getBool, depStatus := ← getOpt getNat
    depSeq := ← getNat
    red := { maxSt := recNat bs 84 4, orSt := BitVec.ofNat 8 (recNat bs 88 4), nonzero := recNat bs 92 4
             exited := recNat bs 96 4, made := recNat bs 100 4, claimed := recNat bs 104 4, unclaimed := recNat bs 108 4 } }

/-- A command as its table entry and the stream hold it. -/
def Cmd.get (bs : List Byte) : Reads Cmd := do
  let id ← getNat
  let squeue ← getNat
  let team ← getNat
  let lid ← getNat
  let die ← getNat
  let core ← getNat
  let cluster ← getNat
  let corner ← getNat
  let pos ← getNat
  let priv ← getBool
  let ret ← getOpt RetTo.get
  let fate ← getOpt CauseRec.get
  let len ← getNat
  let src ← getNat
  let dst ← getNat
  let done := recNat bs 72 8
  let v := recNat bs 69 1
  let c : Cmd := {
    id := id, ctx := 0, qid := recNat bs 64 2, squeue := squeue, team := team, lid := lid, die := die, core := core
    cluster := cluster, corner := corner, teampos := BitVec.ofNat 32 pos, priv := priv, bytes := bs.take 64
    gslot := recNat bs 2 1, ret := ret, fate := fate, state := CState.ofCode (recNat bs 68 1)
    verdict := if v = 255 then none else some (v == 1), delivered := done, fetched := done }
  return if c.onCopy then { c with bytes := c.sides len src dst } else c

/-- Reads one thing for each of a list of byte strings. -/
def getEach {α : Type} (f : List Byte → Reads α) : List (List Byte) → Reads (List α)
  | [] => return []
  | b :: bs => do
    let x ← f b
    return x :: (← getEach f bs)

/-- `n` table entries of a size. -/
def entriesAt (cells : List Host.Cell) (o size n : Nat) : List (List Byte) :=
  let bs := partBytes cells o (size * n)
  (List.range n).map fun k => (bs.drop (size * k)).take size

/-- A team as its record holds it. -/
def teamFromImage (l : Launch) (cells : List Host.Cell) (r : TeamRest) : Team :=
  let head := partBytes cells 0 64
  let y := teamLayout l (recNat head 4 4) (recNat head 32 8)
  let bar (n : Nat) : Barrier :=
    let b := partBytes cells (64 + 16 * n) 16
    { count := recNat b 0 2, arr := recNat b 2 2, ph := recNat b 4 1 == 1, brk := recNat b 5 1 == 1
      pend := signed 64 (recNat b 8 8) }
  let used := (subCells cells 64 (16 * l.barriers)).foldl (fun ns (c : Host.Cell) =>
    if ns.contains (c.1 / 16) then ns else ns ++ [c.1 / 16]) []
  let pos := recNat head 16 4
  { id := r.id, lid := r.lid, ctx := 0, x := pos % 65536, y := pos / 65536, die := recNat head 0 1, core := recNat head 1 1
    corner := recNat head 2 1, cw := recBits head 3 0 4, ch := recBits head 3 4 4, cluster := r.cluster, pipes := r.pipes
    tile := subCells cells y.tile (256 * l.tileUnits)
    bars := used.foldl (fun m n => keep {} m n (bar n)) []
    wptr := (List.range (recNat head 4 4)).foldl (fun m k =>
      let b := partBytes cells (y.ptrs + 16 * k) 16
      keep 0 m (recNat b 0 8) (BitVec.ofNat 64 (recNat b 8 8))) []
    mflags := BitVec.ofNat 5 (recNat head 20 4) }

/-- The matrix state that a team's record holds, if it has any. -/
def matrixFromImage (l : Launch) (cells : List Host.Cell) (owner ratio : Nat) : Option CoreSt :=
  let head := partBytes cells 0 64
  let n := recNat head 32 8
  if n = 0 then none
  else
    let y := teamLayout l (recNat head 4 4) n
    some ((CoreSt.get owner ratio).run (streamAt (partBytes cells y.matrix n) 0)).1

/-- The lane-local bytes of a group as its team's record holds them. -/
def Group.localFromImage (g : Group) (l : Launch) (cells : List Host.Cell) : Group :=
  let y := teamLayout l (recNat (partBytes cells 4 4) 0 4) 0
  let start := y.local_ + 32 * g.groupId * l.laneBytes
  { g with lmem := (subCells cells start (32 * l.laneBytes)).map fun c =>
      (laneKey (c.1 / l.laneBytes) (c.1 % l.laneBytes), c.2) }

/-- Places of records that follow one another: each with its launch and its cells; the size stands in the head. -/
def recordsAt (cells : List Host.Cell) (ls : List Launch) : Nat → List TeamRest →
    List (TeamRest × Option Launch × List Host.Cell)
  | _, [] => []
  | o, r :: rs =>
    let size := recNat (partBytes cells (o + 24) 8) 0 8
    (r, ls.find? (fun l => l.id = r.lid), subCells cells o size) :: recordsAt cells ls (o + size) rs

/-- The image that bytes hold (R341). -/
def imageOf (cells : List Host.Cell) (size : Nat) : Image :=
  let head := partBytes cells 0 64
  let at_ (k : Nat) : Nat := recNat head (16 + 8 * k) 8
  let sect := partBytes cells (at_ 0) 4096
  let streams := sect.drop 32 ++ partBytes cells (recNat sect 24 8) (min (at_ 4) size - recNat sect 24 8)
  let (ratios, nodes, pieces, decs) := ((do
    let ratios ← getList (getPair getNat getNat)
    let nodes ← getList Node.get
    let pieces ← getList Piece.get
    let decs ← getList getNat
    return (ratios, nodes, pieces, decs) : Reads _).run (streamAt streams 0)).1
  let (ls, cs, ts, gs) := ((do
    let nl ← getNat
    let ls ← getEach Launch.get (entriesAt cells (at_ 1) 128 (min nl ((at_ 2 - at_ 1) / 128)))
    let nc ← getNat
    let cs ← getEach Cmd.get (entriesAt cells (at_ 2) 96 (min nc ((at_ 3 - at_ 2) / 96)))
    let ts ← getList TeamRest.get
    let gs ← getList GroupRest.get
    return (ls, cs, ts, gs) : Reads _).run (streamAt streams (8 + recNat streams 0 8))).1
  let recs := recordsAt cells ls (at_ 3) ts
  let teams := recs.filterMap fun e => e.2.1.map fun l => teamFromImage l e.2.2 e.1
  let ratio (k : Nat) : Nat := (look? ratios k).getD 4
  let bare : SMap CoreSt := ratios.foldl (fun m e => put m e.1 { mqratio := e.2 }) []
  let cores := recs.foldl (fun m e =>
    match e.2.1 with
    | none => m
    | some l =>
      let k := coreKey (recNat (partBytes e.2.2 0 1) 0 1) (recNat (partBytes e.2.2 1 1) 0 1)
      match matrixFromImage l e.2.2 e.1.id (ratio k) with
      | none => m
      | some c => put m k c) bare
  let launchOfGroup (o : Nat) : Option (Launch × List Host.Cell) :=
    let who := recNat (partBytes cells (o + 0x2C) 4) 0 4
    (recs[who % 65536]?).bind fun e => e.2.1.map fun l => (l, e.2.2)
  let groups := (gs.foldl (fun (x : Nat × List Group) r =>
    match launchOfGroup x.1 with
    | none => x
    | some (l, cs) =>
      let size := groupImageSize l.vregs
      let g := r.group l teams (cellWords (subCells cells x.1 size))
      (x.1 + size, x.2 ++ [g.localFromImage l cs])) (at_ 4, [])).2
  { mode := recNat sect 0 1, dev := recNat sect 1 1, qcount := recNat sect 2 2, acc := recNat sect 8 8
    fin := recNat sect 16 8, nodes := nodes, pieces := pieces, heldDecs := decs, launches := ls, cmds := cs, teams := teams
    groups := groups, cores := cores }

/-- The image in a context's image area, with its size: header state 2, and no larger than the area (R341, R347). -/
def State.imageIn (s : State) (c : Ctx) : Option Image :=
  let d := c.desc
  let size := ofLe (s.homeBytes d.imgBase 8)
  if !d.imageOk ∨ s.imageState c ≠ 2 ∨ d.imgSize * 65536 < size then none
  else some (imageOf (s.rangeCells d.imgBase size) size)

/-! ### Fresh names for the work of a loaded image -/

def RetTo.shift (r : RetTo) (k : Nat) : RetTo := { r with gid := r.gid + k, res := r.res + k }

def Launch.shift (l : Launch) (k n : Nat) : Launch :=
  { l with id := l.id + k, ctx := n, team := l.team.map (· + k), ret := l.ret.map fun r => r.shift k }

def Team.shift (t : Team) (k n : Nat) : Team :=
  { t with id := t.id + k, lid := t.lid + k, ctx := n, cluster := t.cluster + k }

def Cmd.shift (c : Cmd) (k n : Nat) : Cmd :=
  { c with id := c.id + k, ctx := n, team := c.team + k, lid := c.lid + k, cluster := c.cluster + k
           ret := c.ret.map fun r => r.shift k }

def QEnt.shift (k : Nat) : QEnt → QEnt
  | .reserved id p => .reserved (id + k) p
  | .landed d => .landed d

def Group.shift (g : Group) (k : Nat) : Group :=
  { g with id := g.id + k, team := g.team + k
           q := g.q.map fun e => (e.1, { e.2 with entries := e.2.entries.map (QEnt.shift k) }) }

def MOp.shift (m : MOp) (k : Nat) : MOp := { m with id := m.id + k, team := m.team + k, gid := m.gid + k }

def CoreSt.shift (c : CoreSt) (k : Nat) : CoreSt :=
  { c with owner := c.owner.map (· + k), mq0 := c.mq0.map fun m => m.shift k, mq1 := c.mq1.map fun m => m.shift k
           claims := c.claims.map fun x => { x with key := x.key + k } }

/-- The largest name of an image. -/
def Image.top (m : Image) : Nat :=
  let names := m.launches.map (·.id) ++ m.cmds.map (·.id) ++ m.teams.flatMap (fun t => [t.id, t.cluster])
    ++ m.groups.flatMap (fun g => g.id :: g.q.flatMap fun e => Queue.names e.2)
    ++ m.cores.flatMap fun e => (e.2.mq0 ++ e.2.mq1).map (·.id)
  names.foldl max 0

def Image.shift (m : Image) (k n : Nat) : Image :=
  let nodes := m.nodes.map fun (x : Node) => { x with bar := x.bar.map fun b => (b.1 + k, b.2) }
  let pieces := m.pieces.map fun (p : Piece) => { p with holder := p.holder.map (· + k) }
  { m with nodes := nodes, pieces := pieces
           launches := m.launches.map fun l => l.shift k n
           cmds := m.cmds.map fun c => c.shift k n
           teams := m.teams.map fun t => t.shift k n
           groups := m.groups.map fun g => g.shift k
           cores := m.cores.map fun e => (e.1, e.2.shift k) }

end Sys2Proof.Machine
end

