-- ==== Sys2Proof/Machine/Respond.lean ====
section
/-! DEFINITION. Responses to fault-record entries (spec/17 R320, R321), translation invalidation (R328) and the debugger
port (R329 to R332). -/

namespace Sys2Proof.Machine

/-! ### Responses (R320) -/

/-- The group of an entry acts on a response; its other entries are answered as well (R320). -/
def State.answer (s : State) (n : Nat) (a : Await) (act : Nat) : State :=
  let s := s.onCtx n fun c => { c with awaits := c.awaits.filter fun b => b.gid ≠ a.gid }
  match s.group? a.gid with
  | none => s
  | some g =>
    if act = 1 then
      match s.team? g.team with
      | none => s
      | some t => s.endLaunch t.lid 1
    else if act = 2 ∧ a.debug then s.setGroup { g with status := .running, debugStop := false, wait := .none }
    else s.setGroup g.replay.refilled

/-- A response reaches the port. One for a pre-empted context takes effect after its RESUME (R317); one that no entry
awaits is ignored. -/
def State.respond (s : State) (n : Nat) (seq : W32) (act : Nat) : Res :=
  match s.ctx? n with
  | none => .next s
  | some c =>
    match c.awaits.find? fun a => a.seq = seq with
    | none => .next s
    | some a =>
      if c.phase = .live then (s.answer n a act).did
      else State.did (s.onCtx n fun c => { c with responses := c.responses ++ [(seq, act)] })

/-- The responses that waited for a RESUME (R317). -/
def State.lateResponses (s : State) (n : Nat) : State :=
  match s.ctx? n with
  | none => s
  | some c =>
    c.responses.foldl (fun s r =>
      match (s.ctx? n).bind fun c => c.awaits.find? fun a => a.seq = r.1 with
      | none => s
      | some a => s.answer n a r.2) (s.onCtx n fun c => { c with responses := [] })

/-- REPLAY (R320, R322). -/
def execReplay (ctx : Nat) (seq : W32) (s : State) : Res := s.respond ctx seq 0

/-- END (R320, R321). -/
def execEndLaunch (ctx : Nat) (seq : W32) (s : State) : Res := s.respond ctx seq 1

/-- CONTINUE (R320, R332). -/
def execContinue (ctx : Nat) (seq : W32) (s : State) : Res := s.respond ctx seq 2

/-! ### Invalidation (R328) -/

/-- A write to the translation invalidate port; one of another size, or whose addresses break their alignment, is
discarded (log 19). Its reserved bytes are ignored (R5). -/
def execTlbinv (ctx : Nat) (bytes : List Byte) (s : State) : Res :=
  let va := recNat bytes 0 8
  let done := recNat bytes 16 8
  if bytes.length ≠ 32 ∨ (s.ctx? ctx).isNone ∨ va % 65536 ≠ 0 ∨ done % 8 ≠ 0 ∨ 2 ^ 52 ≤ done then .next s
  else
    let f := s.fresh
    State.did { f.2 with invs := f.2.invs ++ [⟨f.1, ctx, va, recNat bytes 8 4, done⟩] }

/-- Whether an invalidation covers a page. -/
def Inval.covers (v : Inval) (ctx page : Nat) : Bool :=
  decide (v.ctx = ctx) && (v.pages == 0 || decide (v.va / 65536 ≤ page ∧ page < v.va / 65536 + v.pages))

/-- Whether a pending producer accesses a covered page. -/
def Pending.onPages (p : Pending) (hit : Nat → Bool) : Bool :=
  p.accs.any fun a => match a.loc with
    | .mem _ => hit (a.va.toNat / 65536)
    | _ => false

/-- The unperformed producers of a context that access a covered page. -/
def State.onCovered (s : State) (v : Inval) : List Nat :=
  (s.pend.filter fun p => decide ((s.siteOf p.gid).ctx = v.ctx) && !p.performed && p.onPages (v.covers v.ctx)).map (·.id)

/-- An invalidation completes: no TLB holds a covered page, and every access that may have used an old translation is
performed at system scope (R328): the producers are performed first, and the writes on their way, theirs among them,
then reach every observer. With an MCA write among these it waits for the write's moment. -/
def execInvalidationComplete (id : Nat) (s : State) : Res :=
  match s.invs.find? fun v => v.id = id with
  | none => notEnabled
  | some v =>
    let todo := s.onCovered v
    let s := todo.foldl State.perform s
    let writes := s.inflight.filter fun w => w.flat && v.covers w.site.ctx (w.va.toNat / 65536)
    if !(s.onCovered v).isEmpty || writes.any fun w => !s.canBring w.id then notEnabled
    else
      let s := { s with invs := s.invs.filter fun x => x.id ≠ id, tlb := s.tlb.filter fun e => !v.covers e.ctx e.page }
      let s := s.bringAll (writes.map (·.id))
      let reachable := (decide (v.done < gddrTop) || decide (hostBase ≤ v.done)) && !s.fencedAt v.done
      (if reachable then s.writeRaw v.done (leBytes 8 1) else s).did

/-! ### The debugger port (Table 17.8) -/

/-- The fields of a debugger operation. -/
structure DebugOp where
  op : Nat
  force : Bool
  cls : Nat
  index : Nat
  lane : Nat
  k : Nat
  pos : Nat
  lseq : Nat
  teampos : W32
  groupId : Nat
  value : W32
  /-- a field outside Table 17.8 -/
  bad : Bool
  deriving DecidableEq, Repr

def debugOp (bs : List Byte) : DebugOp :=
  let h := recNat bs 0 8
  let t := recNat bs 0x10 8
  { op := bitsOf h 0 8, force := h.testBit 8, cls := bitsOf h 12 4, index := bitsOf h 16 10, lane := bitsOf h 32 5
    k := bitsOf h 37 2, pos := bitsOf h 40 4, lseq := recNat bs 8 8, teampos := BitVec.ofNat 32 (bitsOf t 0 32)
    groupId := bitsOf t 32 5, value := BitVec.ofNat 32 (recNat bs 0x18 4)
    bad := bitsOf h 9 3 != 0 || bitsOf h 26 6 != 0 || h.testBit 39 || bitsOf h 44 20 != 0 || bitsOf t 37 27 != 0
      || recNat bs 0x1C 4 != 0 || decide (2 < bitsOf h 0 8 ∨ 7 < bitsOf h 12 4) }

/-- Leaves a reply for the next read of the port: STATUS, FULL, VALUE. -/
def State.debugSay (s : State) (n status : Nat) (full : Bool) (value : W32) : State :=
  let bs := leBytes 4 (status + if full then 256 else 0) ++ leBytes 4 value.toNat ++ leBytes 8 0
  { s with pkg := { s.pkg with debugReply := keep [] s.pkg.debugReply n bs } }

/-- The group that an operation names, with what it belongs to. -/
def State.debugTarget (s : State) (c : Ctx) (d : DebugOp) : Option (Group × Team × Launch) := do
  let l ← s.launches.find? fun l => l.ctx = c.desc.ctx ∧ l.seq = d.lseq
  let t ← s.teams.find? fun t => t.lid = l.id ∧ t.pos = d.teampos
  let g ← s.groups.find? fun g => g.team = t.id ∧ g.groupId = d.groupId
  some (g, t, l)

/-- Whether a group is stopped (R329). -/
def Ctx.stopped (c : Ctx) (g : Group) : Bool :=
  c.phase != .live || (g.status == .awaiting && c.awaits.any fun a => a.gid == g.id)

/-- Whether the selector lies within Table 17.8 and the launch's declared counts. -/
def DebugOp.inRange (d : DebugOp) (l : Launch) (g : Group) : Bool :=
  match d.cls with
  | 0 => decide (d.index < l.vregs)
  | 1 => decide (d.index < l.sregs)
  | 2 => decide (d.index < 8)
  | 3 => srListed d.index
  | 4 => decide (d.index < l.vregs)
  | 5 => decide (d.index < l.sregs)
  | 6 => true
  | 7 => decide (d.index < 16) && decide (d.pos < (g.queue d.lane d.index).entries.length)
  | _ => false

/-- The register that an operation names. -/
def DebugOp.opnd (d : DebugOp) : Opnd :=
  if d.cls = 0 ∨ d.cls = 4 then .v (BitVec.ofNat 7 d.index) else .s (BitVec.ofNat 6 d.index)

/-- The cell of a register. -/
def Group.cell (g : Group) (lane : Nat) : Opnd → Cell
  | .v n => g.vCell n.toNat lane
  | .s n => g.sCell n.toNat
  | _ => {}

/-- What a READ finds: whether the place is full, and its value. -/
def DebugOp.read (d : DebugOp) (i : Iss) : Bool × W32 :=
  let full (c : Cell) (x : W32) : Bool × W32 := if c.full then (true, x) else (false, 0)
  let c := i.g.cell d.lane d.opnd
  match d.cls with
  | 0 => full c c.d.val
  | 1 => full c c.d.val
  | 2 => (true, if i.g.pred false (BitVec.ofNat 3 d.index) d.lane then 1 else 0)
  | 3 => (true, if srRemote d.index then i.s.remoteReg i.t.die d.index else i.special d.index d.lane)
  | 4 => full c (c.d.tan d.k)
  | 5 => full c (c.d.tan d.k)
  | 6 => (true, i.g.pc32)
  | _ =>
    match (i.g.queue d.lane d.index).entries[d.pos]? with
    | some (.landed x) => (true, x.val)
    | _ => (false, 0)

/-- The core of a team, in the matrix state that the device keeps of a pre-empted context (R301). -/
def Ctx.keptCore (c : Ctx) (t : Team) : Option CoreSt := look? c.kept (coreKey t.die t.core)

/-- A selected group as an issuing one, for the registers that Table 1.3 reads in its place; MQRATIO is that which a
pre-empted context keeps. -/
def debugIss (s : State) (g : Group) (t : Team) (l : Launch) (c : Ctx) (lane : Nat) : Iss :=
  let s := match c.keptCore t with
    | none => s
    | some k => s.onCore (coreKey t.die t.core) fun x => { x with mqratio := k.mqratio }
  { s := s, g := g, t := t, l := l, c := c, size := 8, ex := [lane], uni := false }

/-- Routes an operation: discarded where the write has another size or no context is there, BADSEL, NOTSTOPPED, or
`act`. -/
def State.debug (s : State) (n : Nat) (bytes : List Byte) (ops : Nat → Bool)
    (act : DebugOp → Iss → Res) : Res :=
  match s.ctx? n with
  | none => .next s
  | some c =>
    let d := debugOp bytes
    if bytes.length ≠ 32 then .next s
    else if !ops d.op then notEnabled
    else if d.bad then (s.debugSay n 3 false 0).did
    else match s.debugTarget c d with
      | none => (s.debugSay n 2 false 0).did
      | some (g, t, l) =>
        if !c.stopped g then (s.debugSay n 2 false 0).did
        else if !d.inRange l g then (s.debugSay n 3 false 0).did
        else act d (debugIss s g t l c d.lane)

/-- MQRATIO of a core, written for a pre-empted context, comes back with its RESUME; while the context's image is in the image
area, the image takes it too (R301, R330, R340). -/
def State.keepRatio (s : State) (c : Ctx) (t : Team) (ratio : Nat) : State :=
  let n := c.desc.ctx
  let k := coreKey t.die t.core
  let kept := c.kept.map fun (e : Nat × CoreSt) => if e.1 = k then (e.1, { e.2 with mqratio := ratio }) else e
  let s := s.onCtx n fun c => { c with kept := kept }
  if c.phase = .flushed ∧ s.imageState c = 2 then s.writeStateSection c kept else s

/-- READ (R329); an operation code outside the table is answered BADSEL. -/
def execDebugRead (ctx : Nat) (bytes : List Byte) (s : State) : Res :=
  s.debug ctx bytes (fun op => op != 1 && op != 2) fun d i =>
    let r := d.read i
    State.did { s.debugSay ctx 0 r.1 r.2 with free := s.free + 1 }

/-- A register written by a debugger (R330): its value, or one tangent. -/
def DebugOp.newCell (d : DebugOp) (c : Cell) : Cell :=
  { d := if d.cls = 0 ∨ d.cls = 1 then { c.d with val := d.value } else c.d.setTan d.k d.value, full := true }

/-- A stopped group takes what a debugger wrote; while its image is in the image area, the image takes it too (R330,
R340). -/
def State.setStopped (s : State) (c : Ctx) (g : Group) (l : Launch) : State :=
  let s := s.setGroup g
  if c.phase = .flushed ∧ s.imageState c = 2 then s.writeGroupImage c g l else s

/-- The write of a V or S register or of a tangent (R330). -/
def DebugOp.writeReg (d : DebugOp) (n : Nat) (s : State) (i : Iss) : Res :=
  let o := d.opnd
  let inFlight (p : Pending) : Bool := decide (p.gid = i.g.id) && p.covers d.lane o
  let c := i.g.cell d.lane o
  if !c.full && s.pend.any inFlight && !d.force then (s.debugSay n 1 false 0).did
  else
    let g := match o with
      | .v k => i.g.setV k.toNat d.lane (d.newCell c)
      | .s k => i.g.setS k.toNat (d.newCell c)
      | _ => i.g
    let s := { s with pend := s.pend.map fun (p : Pending) =>
      if !c.full && inFlight p then { p with forced := p.forced ++ [Opnd.home o d.lane] } else p }
    ((s.setStopped i.c g i.l).debugSay n 0 true d.value).did

/-- WRITE (R330); writes of special registers follow Table 1.2 as for MTS at supervisor level. DEDUCED (log 19): a value out of
range for MQRATIO or BRWIN, which traps in an MTS (R21), is a bad selector here. -/
def execDebugWrite (ctx : Nat) (bytes : List Byte) (s : State) : Res :=
  s.debug ctx bytes (fun op => op == 1) fun d i =>
    let ok (s : State) (g : Group) : Res := ((s.setStopped i.c g i.l).debugSay ctx 0 true d.value).did
    match d.cls with
    | 2 => ok s (i.g.setPred (BitVec.ofNat 3 d.index) d.lane (d.value.getLsbD 0))
    | 3 =>
      if srReadOnly d.index || !specialOk d.index d.value then (s.debugSay ctx 3 false 0).did
      else if d.index = 0x101 ∧ (i.c.keptCore i.t).isSome then ok (s.keepRatio i.c i.t (bitsOf d.value.toNat 0 5)) i.g
      else if d.index = 0x080 then ok s { i.g with fpst := keep 0 i.g.fpst d.lane (d.value.extractLsb' 0 5) }
      else if d.index = 0x081 then ok s { i.g with fpte := keep 0 i.g.fpte d.lane (d.value.extractLsb' 0 5) }
      else
        let r := writeSpecial d.index d.value i.t s i.g
        ok r.1 r.2
    | 6 => ok s { i.g with ctl := i.g.ctl.setPc ((d.value &&& 0xFFFFFFFC).setWidth 64) }
    | 7 => (s.debugSay ctx 3 false 0).did
    | _ => d.writeReg ctx s i

/-- DEBUGSTOP sets the context's debug-stop mode (R332). -/
def execDebugstop (ctx : Nat) (bytes : List Byte) (s : State) : Res :=
  match s.ctx? ctx with
  | none => .next s
  | some _ =>
    let d := debugOp bytes
    if bytes.length ≠ 32 then .next s
    else if d.op ≠ 2 then notEnabled
    else if d.bad then (s.debugSay ctx 3 false 0).did
    else ((s.onCtx ctx fun c => { c with debugStop := d.value.getLsbD 0 }).debugSay ctx 0 true d.value).did

end Sys2Proof.Machine
end

