-- ==== Sys2Proof/Machine/Context.lean ====
section
/-! DEFINITION. Contexts: creation (spec/18 R333), PREEMPT and RESUME (R337 to R343, spec/19 R347), destruction (R334). -/

namespace Sys2Proof.Machine

/-! ### Creation (R333) -/

/-- The context descriptor that 256 bytes denote (Tables 18.1, 17.3, 10.4). -/
def parseDesc (bs : List Byte) : CtxDesc :=
  let h := recNat bs 0 8
  { ctx := bitsOf h 0 6, mode := bitsOf h 8 2, dev := bitsOf h 10 3, qfirst := bitsOf h 16 8, qcount := bitsOf h 24 8
    root := recBits bs 0x08 0 52
    frBase := recBits bs 0x10 0 52, frCount := recNat bs 0x18 4
    areaBase := recBits bs 0x20 0 52, areaSize := recNat bs 0x28 4
    logBase := recNat bs 0x30 8, logSize := recNat bs 0x38 4
    imgBase := recBits bs 0x40 0 52, imgSize := recNat bs 0x48 4
    dirtyVa := recNat bs 0x50 8, dirtyPages := recNat bs 0x58 4
    ws := (List.range 8).map fun k => (recNat bs (0x60 + 8 * k) 2, recNat bs (0x64 + 8 * k) 2)
    xtag := recNat bs 0xA0 2, xv := recBits bs 0xA0 16 1 == 1 }

/-- The fields that the tables say are zero. -/
def descZeros (bs : List Byte) : Bool :=
  recNat bs 0x04 4 == 0 && recBits bs 0x10 52 12 == 0 && recNat bs 0x1C 4 == 0
  && recBits bs 0x20 52 12 == 0 && recNat bs 0x2C 4 == 0 && recNat bs 0x3C 4 == 0
  && ((List.range 8).all fun k => recNat bs (0x62 + 8 * k) 2 == 0 && recNat bs (0x66 + 8 * k) 2 == 0)
  && recBits bs 0xA0 17 47 == 0 && recNat bs 0xA8 88 == 0

/-- The limits of Tables 18.1, 17.3 and 10.4, and of R226; areas outside the device's range are legal, and fault PROT when
they are used (R354). DESIGN CHOICE (log 22): a fault ring with a byte in the reserved physical addresses, and a GDDR estate
area past the top of GDDR 7, are refused, which those tables do not ask. -/
def CtxDesc.legal (d : CtxDesc) : Bool :=
  decide (d.mode < 3 ∧ d.dev < [1, 2, 8].getD d.mode 0 ∧ 1 ≤ d.qcount ∧ d.qfirst + d.qcount ≤ modeQueues d.mode)
  && decide (d.root % 32 = 0 ∧ d.frBase % 64 = 0)
  && ((List.range 13).any fun k => decide (d.frCount = 16 * 2 ^ k))
  && (decide (hostBase ≤ d.frBase) || decide (d.frBase + 64 + 64 * d.frCount ≤ gddrTop))
  && (if d.logSize = 0 then d.logBase == 0 else decide (32 ≤ d.logSize ∧ d.logSize % 16 = 0 ∧ d.logBase % 16 = 0))
  && decide (d.areaBase % 65536 = 0 ∧ d.imgBase % 65536 = 0)
  && (d.areaSize == 0 || decide (d.areaBase + d.areaSize * 65536 ≤ gddrTop))
  && decide (d.imgBase < gddrTop ∧ d.imgBase + d.imgSize * 65536 ≤ gddrTop)
  && canonical d.dirtyVa && decide (d.dirtyVa % 65536 = 0 ∧ d.dirtyPages ≤ 4194304)
  && d.ws.all fun w => decide (w.1 + w.2 ≤ 49152)

/-- The carve-outs that a descriptor names (R223): base and size; a ring in host memory is none. -/
def CtxDesc.carveOuts (d : CtxDesc) : List (Nat × Nat) :=
  [(d.imgBase, d.imgSize * 65536), (d.areaBase, d.areaSize * 65536)]
  ++ if d.frBase < gddrTop then [(d.frBase, 64 + 64 * d.frCount)] else []

/-- Whether a descriptor clashes with a live context (R333, R353). -/
def CtxDesc.clashes (d e : CtxDesc) : Bool :=
  d.ctx == e.ctx || d.mode != e.mode
  || (d.carveOuts.any fun a => e.carveOuts.any fun b => meets a.1 a.2 b.1 b.2)
  || (d.xv && e.xv && d.xtag == e.xtag)
  || (d.dev == e.dev && decide (d.qfirst < e.qfirst + e.qcount ∧ e.qfirst < d.qfirst + d.qcount))

/-- Whether the package runs contexts: its supply is up and no scrub runs (R398). -/
def Pkg.up (p : Pkg) : Bool := p.crown.state == .running

/-- A write to the context-creation port (R333); one of another size is discarded (R388). -/
def execContextCreate (bytes : List Byte) (s : State) : Res :=
  let d := parseDesc bytes
  if !s.pkg.up then notEnabled
  else if bytes.length ≠ 256 then .next s
  else if !descZeros bytes ∨ !d.legal ∨ s.ctxs.any fun c => d.clashes c.2.desc then
    State.did { s with pkg := { s.pkg with createReply := 1 } }
  else
    let c : Ctx := { desc := d, priv := s.pkg.supmask.getLsbD d.ctx }
    State.did { s with
      ctxs := put s.ctxs d.ctx c
      pkg := { s.pkg with
        mode := some d.mode, createReply := 0, mwBase := drop? s.pkg.mwBase d.ctx, werr := drop? s.pkg.werr d.ctx
        debugReply := drop? s.pkg.debugReply d.ctx
        portReply := s.pkg.portReply.filter fun e => e.1 % 64 ≠ d.ctx } }

/-! ### Stopping a context (R338) -/

/-- The groups of a context. -/
def State.groupsOf (s : State) (n : Nat) : List Group := s.groups.filter fun g => s.teams.any fun t => t.id = g.team ∧ t.ctx = n

/-- What a step leaves, or the state itself where the step is not enabled. -/
def Res.orKeep (r : Res) (s : State) : State := match r with
  | .next t => t
  | _ => s

/-- The delivered bytes of MCA writes that have arrived (R359). -/
def State.countAllMoved (s : State) : State :=
  ((s.cmds.filter fun c => c.moving ≠ 0).map (·.id)).foldl (fun s id =>
    match s.cmd? id with
    | none => s
    | some c => s.countMoved c) s

/-- The cores that a context's teams use. -/
def State.coresOf (s : State) (n : Nat) : List Nat :=
  (s.teams.filter fun t => t.ctx = n).foldl (fun ks t =>
    let k := coreKey t.die t.core
    if ks.contains k then ks else ks ++ [k]) []

/-- Names of the writes that a context's agents have acquired, released or noted. -/
def State.relNames (s : State) (n : Nat) : List Nat :=
  let ids (rs : List Rel) : List Nat := rs.flatMap s.idsOf
  ((s.groupsOf n).flatMap fun g => g.seen ++ ids g.notes ++ ids g.fences)
  ++ ((s.teams.filter fun t => t.ctx = n).flatMap fun t =>
    (t.bars.flatMap fun e => ids e.2.rels) ++ t.wrels.flatMap fun e => ids e.2)
  ++ ((s.cmds.filter fun c => c.ctx = n).flatMap fun c => c.carry ++ ids c.forks)
  ++ ((s.launches.filter fun l => l.ctx = n).flatMap fun l => l.seen ++ l.fork ++ ids l.forks)
  ++ ((s.coresOf n).flatMap fun k => ((s.coreSt k).mq0 ++ (s.coreSt k).mq1).flatMap fun m => m.carry ++ ids m.forks)
  ++ ((s.estates.filter fun e => e.ctx = n).flatMap fun e => ids e.rels)
  ++ (((s.ctx? n).map fun c => (c.fbars.flatMap fun b => ids b.rels) ++ ids (c.taskRels.map (·.2)) ++ c.before).getD [])

/-- The writes of a context on their way, and those of others that its agents have ordered before their later accesses. -/
def State.ownWrites (s : State) (n : Nat) : List InWrite :=
  let names := s.relNames n
  s.inflight.filter fun w => decide (w.site.ctx = n) || names.contains w.id

/-- Those of them become visible everywhere that can (R342), each with all that it needs. -/
def State.flushWrites (s : State) (n : Nat) : State :=
  (((s.ownWrites n).map (·.id)).foldl (fun s id => if s.canLand id then s.bring id allObservers else s) s).countAllMoved

/-- Whether the producers of a context have landed, the causes of its groups are posted, and its writes are visible everywhere
(R338, R342). -/
def State.landed (s : State) (n : Nat) : Bool :=
  ((s.groupsOf n).all fun g =>
    (g.status == .running || g.status == .awaiting) && s.pend.all fun p => decide (p.gid ≠ g.id))
  && (s.ownWrites n).all (·.whole)

/-- A producer lands now (R338). -/
def State.forceLanding (s : State) (id : Nat) : State :=
  match s.pend? id with
  | none => s
  | some p =>
    match p.kind with
    | .crnd => s.landPending p p.data
    | .mfs _ => Res.orKeep (execRemoteMfsLands id s) s
    | .claim .. => Res.orKeep (execClaimLands id false s) s
    | .atom _ => Res.orKeep (execAtomResultLands id false s) s
    | _ =>
      let s := s.perform id
      let p := (s.pend? id).getD p
      if !p.performed then s
      else if p.failed then s.failPending p else s.landPending p (p.lanes.map fun lane => (lane, p.loaded lane))

/-- The producers of a context land, its writes arrive everywhere, and the causes of failed producers take effect: a read may
wait for a write, and a release for a read. -/
def State.landAll (s : State) (n : Nat) : State :=
  let gids := (s.groupsOf n).map (·.id)
  let s := (gids.foldl State.performAll s).flushWrites n
  let s := (gids.foldl State.performAll s).flushWrites n
  let s := ((s.pend.filter fun p => gids.contains p.gid).map (·.id)).foldl State.forceLanding s
  let s := s.flushWrites n
  let s := ((s.returns.filter fun r => gids.contains r.2.1.gid).map (·.1)).foldl
    (fun s id => Res.orKeep (execReturnWordLands id s) s) s
  gids.foldl (fun s id => Res.orKeep (execAsyncFault id s) s) s

/-- Whether a team of a context owns a core's tiles. -/
def State.ownedBy (s : State) (c : CoreSt) (n : Nat) : Bool :=
  c.owner.any fun id => (s.team? id).any fun t => decide (t.ctx = n)

/-- The matrix state of a context's cores (R301): that of its owner teams, and MQRATIO of every core used. -/
def State.matrixOf (s : State) (n : Nat) : SMap CoreSt :=
  (s.coresOf n).foldl (fun m k =>
    let c := s.coreSt k
    put m k (if s.ownedBy c n then c else { mqratio := c.mqratio })) []

/-- Cores are handed back (R338). -/
def State.freeCores (s : State) (n : Nat) (ks : List Nat) : State :=
  ks.foldl (fun s k =>
    let c := s.coreSt k
    if s.ownedBy c n then s.setCore k { mqratio := c.mqratio } else s) s

/-- The cores whose teams' state the image area cannot hold, core by core: they keep their room (R338, log 20). -/
def Image.heldCores (m : Image) : Nat → List Nat → List Nat
  | _, [] => []
  | room, k :: ks =>
    let need := (m.teams.filter fun t => coreKey t.die t.core = k).foldl (fun n t => n + m.teamSize t) 0
    if need ≤ room then m.heldCores (room - need) ks else k :: m.heldCores room ks

/-- A running copy command becomes RESIDUAL: what it has read and not delivered is read again (Table 14.5). -/
def Cmd.suspend (c : Cmd) : Cmd :=
  if c.state ≠ .running ∨ !c.onCopy then c else { c with state := .residual, staged := [], early := [], fetched := c.delivered, moving := 0 }

/-- Whether operations of a context run that complete before it stops: exchange and TASK commands, copies whose sides
overlap (R338), and a DSNAP that has made its one step (R275, log 20). -/
def State.mustFinish (s : State) (n : Nat) : Bool :=
  s.cmds.any fun c => decide (c.ctx = n ∧ c.state = .running) &&
    (if c.onCopy then c.overlap || (c.opc == 7 && c.fetched != 0) else decide (c.qid ≠ 0x2000))

/-- Writes the state code of an image header (R336). -/
def State.header (s : State) (d : CtxDesc) (code : Nat) : State :=
  if d.imageOk then s.writeRaw (d.imgBase + 8) (leBytes 1 code) else s

/-- The context stops (R338): its groups wait for nothing, its producers have landed, its copies are RESIDUAL. -/
def State.halt (s : State) (n : Nat) : State :=
  let s := s.landAll n
  let gids := (s.groupsOf n).map (·.id)
  let s := gids.foldl State.dropClaims s
  { s with
    groups := s.groups.map fun (g : Group) =>
      if gids.contains g.id then { g with wait := .none, walked := [], seen := [], notes := [], fences := [] } else g
    walks := s.walks.map fun (w : Walk) => { w with waiters := w.waiters.filter fun x => !gids.contains x }
    cmds := s.cmds.map fun (c : Cmd) => if c.ctx = n then c.suspend else c }

/-- PREEMPT without FLUSH (R338). -/
def State.preemptStop (s : State) (n : Nat) : State :=
  let s := s.halt n
  match s.ctx? n with
  | none => s
  | some c =>
    let all := s.matrixOf n
    let held := (s.work n c all).heldCores (if c.desc.imageOk then c.desc.imgSize * 65536 else 0) (s.coresOf n)
    let s := s.onCtx n fun c => { c with
      phase := .preempted, held := held, kept := all.filter fun e => !held.contains e.1 }
    (s.freeCores n ((s.coresOf n).filter fun k => !held.contains k)).header c.desc 1

/-- The estates of a context that live. -/
def State.liveEstates (s : State) (n : Nat) : List Estate := s.estates.filter fun e => e.live && e.ctx == n

/-- FLUSH of a pre-empted context (R338, R339): the new state, or the cause of the failure; an area outside the device's
range faults PROT (R354). -/
def State.flush (s : State) (n : Nat) (c : Ctx) : Except (BitVec 8) State :=
  let m := s.work n c (c.held.foldl (fun m k => put m k (s.coreSt k)) c.kept)
  let es := s.liveEstates n
  if !c.desc.imageOk ∨ c.desc.imgSize * 65536 < m.offsets.2 then .error 0x12
  else if !es.isEmpty && !c.desc.areaOk then .error 0x12
  else if c.desc.areaSize * 65536 < bytesOf es then .error 0x30
  else
    let down (e : Estate) : Estate := if e.live && e.ctx == n then { e with level := .gddr e.body.die } else e
    let s := { s with estates := s.estates.map down }
    let s := s.writeImage c.desc.imgBase m
    .ok (State.onCtx { s with
      launches := s.launches.map fun (l : Launch) => if l.ctx = n then { l with imaged := true } else l
      cmds := s.cmds.map fun (c : Cmd) => if c.ctx = n ∧ c.state ≠ .running then { c with imaged := true } else c } n
        fun c => { c with phase := .flushed })

/-! ### PREEMPT and RESUME (R337) -/

/-- TARGET, FLUSH or LOAD, and RECORD. -/
def Cmd.targetCtx (c : Cmd) : Nat := recBits c.bytes 8 0 6
def Cmd.flag8 (c : Cmd) : Bool := recBits c.bytes 8 8 1 == 1
def Cmd.recordVa (c : Cmd) : Nat := recNat c.bytes 0x10 8

/-- Whether a command is PREEMPT or RESUME. -/
def Cmd.isSwitch (c : Cmd) : Bool := decide (c.qid = 0x2000 ∧ (c.opc = 0x41 ∨ c.opc = 0x42))

/-- The body's limits, apart from TARGET. -/
def Cmd.switchOk (c : Cmd) : Bool :=
  recBits c.bytes 8 6 2 == 0 && recBits c.bytes 8 9 55 == 0 && goodAddr 32 c.recordVa && recNat c.bytes 0x18 40 == 0

/-- Whether the record of a PREEMPT or RESUME may be written: those of the launches that its scheduler queue accepted
earlier are (R182), but for the launch that pushed it, which completes after it (R181, log 36). -/
def State.recordTurn (s : State) (c : Cmd) : Bool :=
  s.launches.all fun l => !decide (l.ctx = c.ctx ∧ l.queue = c.squeue ∧ l.id < c.id ∧ l.id ≠ c.lid)

/-- PREEMPT or RESUME completes: its record, its interrupt, its return word (R337, R342). -/
def State.finishSwitch (s : State) (c : Cmd) (status : Nat) : State :=
  let p := s.cmdPosting c { code := 0 }
  let s := if goodAddr 32 c.recordVa then s.writeRecord c.ctx c.recordVa status {} p else s
  s.leaveQueue c status

/-- PREEMPT or RESUME has done its work: it completes once its record may be written and finds its place (R182, R365). -/
def State.endSwitch (s : State) (c : Cmd) (status : Nat) : Res :=
  let s' := s.finishSwitch c status
  if s.recordTurn c && s.postedBy c.ctx s' then s'.did
  else (s.onCmd c.id fun c => { c with state := .running, outcome := some status }).did

/-- A PREEMPT or RESUME fails: once its entry is written, it completes FAULT (R318, R337, R339). -/
def State.failSwitch (s : State) (c : Cmd) (n : Nat) (p : Posting) : Res :=
  let s' := s.post n p
  if s.postedBy n s' then s'.endSwitch c 1 else notEnabled

/-- The entry of a switch that fails for its target's sake: no launch of the target is concerned (R337, R339). -/
def State.targetPosting (s : State) (c : Cmd) (code : BitVec 8) : Posting :=
  { s.cmdPosting c { code := code } with lseq := 0 }

/-- A running PREEMPT or RESUME whose work is not yet done. One whose target has been destroyed meanwhile names no live
context: it completes FAULT and posts PROT to the pushing context's record (R337, log 36). -/
def State.switchStep (s : State) (cid opc : Nat) (act : Cmd → Ctx → Res) : Res :=
  match s.cmd? cid with
  | none => notEnabled
  | some c =>
    if c.state ≠ .running ∨ !c.isSwitch ∨ c.opc ≠ opc ∨ c.outcome.isSome then notEnabled
    else match s.ctx? c.targetCtx with
      | none => s.failSwitch c c.ctx (s.cmdPosting c { code := 0x12 })
      | some t => act c t

/-- PREEMPT (R338, R339). -/
def execPreempt (cid : Nat) (s : State) : Res :=
  s.switchStep cid 0x41 fun c t =>
    let n := c.targetCtx
    if t.phase = .ending ∨ (t.phase = .live ∧ s.mustFinish n) then notEnabled
    else
      let s := if t.phase = .live then s.preemptStop n else s
      if !s.landed n then notEnabled
      else if c.flag8 then
        match s.ctx? n with
        | none => notEnabled
        | some t =>
          match s.flush n t with
          | .ok s => s.endSwitch c 0
          | .error e =>
            let s := (s.onCtx n fun c => { c with phase := .preempted }).header t.desc 1
            s.failSwitch c n (s.targetPosting c e)
      else s.endSwitch c 0

/-- Whether a core can hold the teams that a resumed context has on it (R177, R341). -/
def State.coreHolds (s : State) (k : Nat) : Bool :=
  let x := s.coreLoad (k / 256) (k % 256)
  decide (x.groups ≤ 32 ∧ x.units ≤ 896 ∧ x.bytes ≤ 1024 ∧ x.bars ≤ 1024)

/-- A context whose work is in place goes on (R341); `none` where some core has no room or some die is not usable yet. -/
def State.restart (s : State) (n : Nat) (code : Nat) : Option State :=
  match s.ctx? n with
  | none => none
  | some c =>
    let t := s.onCtx n fun c => { c with phase := .live, held := [], kept := [] }
    let room := (t.coresOf n).all fun k =>
      t.coreHolds k && t.usable c.desc (k / 256) &&
      (((look? c.kept k).bind (·.owner)).isNone || (t.coreSt k).owner.isNone)
    if !room then none
    else
      let t := c.kept.foldl (fun (t : State) e =>
        if e.2.owner.isSome then t.setCore e.1 e.2 else t.onCore e.1 fun c => { c with mqratio := e.2.mqratio }) t
      let go (x : Cmd) : Cmd :=
        if x.ctx ≠ n then x
        else { x with imaged := false, state := if x.state = .residual then .running else x.state }
      let t := { t with
        cmds := t.cmds.map go
        launches := t.launches.map fun (l : Launch) => if l.ctx = n then { l with imaged := false } else l }
      some ((t.header c.desc code).lateResponses n)

/-- A context without its work: groups, teams, launches, commands. -/
def State.dropWork (s : State) (n : Nat) : State :=
  let gids := (s.groupsOf n).map (·.id)
  let s := s.freeCores n (s.coresOf n)
  { s with
    groups := s.groups.filter fun g => !gids.contains g.id
    inflight := s.inflight.filter fun w => !w.tile.any fun k => s.teams.any fun t => decide (t.id = k ∧ t.ctx = n)
    teams := s.teams.filter fun t => t.ctx ≠ n
    launches := s.launches.filter fun l => l.ctx ≠ n
    cmds := s.cmds.filter fun c => c.ctx ≠ n
    pend := s.pend.filter fun p => !gids.contains p.gid
    walks := s.walks.filter fun w => w.ctx ≠ n }

/-- The entry that a load posts for a group that awaits a response (R347). -/
def Group.loadPosting (g : Group) (t : Team) (l : Launch) : Posting :=
  let trap := g.debugStop || (g.cause.getLsbD 8 && isTrapCause (g.cause.setWidth 8))
  groupPosting g t l true
    { code := g.cause.setWidth 8, conv := trap, ih := g.inHandler, pc := g.causePc, region := g.regionCnt }

/-- Launches and commands that a context accepted after its FLUSH follow those of the image that it takes, in their order
(R340, R343, log 26): they have names from `id` on, the launches acceptance numbers after `acc`. -/
def lateLaunches (id acc : Nat) : List Launch → List Launch
  | [] => []
  | l :: ls => { l with id := id, seq := acc + 1 } :: lateLaunches (id + 1) (acc + 1) ls

def lateCommands (id : Nat) : List Cmd → List Cmd
  | [] => []
  | c :: cs => { c with id := id } :: lateCommands (id + 1) cs

/-- Estates that launches of a context have discarded await the completion of the launches that an image makes of these;
the counts of the image hold them, and that completion counts them again (R214). -/
def State.keepDiscards (s : State) (n : Nat) (old new : List Launch) : State :=
  let heir (lid : Nat) : Option Launch := (old.find? fun l => l.id = lid).bind fun l => new.find? fun x => x.seq = l.seq
  let s := { s with estates := s.estates.map fun (e : Estate) =>
    if e.ctx = n ∧ !e.live then { e with lid := ((heir e.lid).map (·.id)).getD e.lid } else e }
  new.foldl (fun s l => s.onLaunch l.id fun l => { l with red := { l.red with
    unclaimed := l.red.unclaimed - s.uncounted l.id } }) s

/-- The work of an image becomes that of a context (R341, R347) in place of what its own FLUSH listed. -/
def State.adopt (s : State) (n : Nat) (m : Image) : State :=
  let old := s.launches.filter fun l => l.ctx = n ∧ l.imaged
  let late := s.launches.filter fun l => l.ctx = n ∧ !l.imaged
  let lateCmds := s.cmds.filter fun c => c.ctx = n ∧ !c.imaged
  let free := max s.nextId (m.top + 1)
  let s := s.dropWork n
  let s := { s with
    launches := s.launches ++ m.launches ++ lateLaunches free m.acc late
    cmds := s.cmds ++ m.cmds ++ lateCommands (free + late.length) lateCmds
    teams := s.teams ++ m.teams, groups := s.groups ++ m.groups, nextId := free + late.length + lateCmds.length }
  let s := (s.keepDiscards n old m.launches).onCtx n fun c => { c with
    acc := m.acc + late.length, fin := m.fin, nodes := m.nodes, pieces := m.pieces, heldDecs := m.heldDecs
    held := [], kept := m.cores, awaits := [], responses := [] }
  (m.groups.filter fun g => g.status = .awaiting).foldl (fun s g =>
    match s.home? g with
    | none => s
    | some (t, l) =>
      let s := s.post n (g.loadPosting t l)
      if s.ringOf n then s else s.endLaunch l.id 1) s

/-- Whether an image fits a context; its size is within the area (R347). -/
def Image.fits (m : Image) (d : CtxDesc) : Bool :=
  decide (m.mode = d.mode ∧ m.dev = d.dev ∧ m.qcount = d.qcount) && m.teams.all fun t => d.sockets.contains t.die

/-- What the fork of a RESUME carried comes before every access of the resumed context (R342, R247), those of the work that it
accepts later among them. -/
def State.orderAfter (s : State) (n : Nat) (carry : List Nat) : State :=
  let ids := s.onWay carry
  let gids := (s.groupsOf n).map (·.id)
  { s.onCtx n fun c => { c with before := joinNew c.before ids } with
    groups := s.groups.map fun (g : Group) => if gids.contains g.id then { g with seen := joinNew g.seen ids } else g
    cmds := s.cmds.map fun (c : Cmd) => if c.ctx = n then { c with carry := joinNew c.carry ids } else c
    launches := s.launches.map fun (l : Launch) => if l.ctx = n then { l with fork := joinNew l.fork ids } else l }

/-- RESUME (R341, R347); it waits while a PREEMPT of its target runs (R338). -/
def execResume (cid : Nat) (s : State) : Res :=
  s.switchStep cid 0x42 fun c t =>
    let n := c.targetCtx
    if t.phase = .ending ∨ s.cmds.any fun x => decide (x.state = .running ∧ x.isSwitch ∧ x.opc = 0x41 ∧ x.targetCtx = n) then
      notEnabled
    else if t.phase = .live then s.endSwitch c 0
    else if c.flag8 then
      match (s.imageIn t).filter fun m => m.fits t.desc with
      | none => s.failSwitch c n (s.targetPosting c 0x12)
      | some m =>
        match (s.adopt n (m.shift s.nextId n)).restart n 3 with
        | none => notEnabled
        | some s => (s.orderAfter n c.carry).endSwitch c 0
    else match s.restart n 0 with
      | none => notEnabled
      | some s => (s.orderAfter n c.carry).endSwitch c 0

/-! ### Destruction (R334) -/

/-- Inserts a number into a rising list. -/
def insertNat (x : Nat) : List Nat → List Nat
  | [] => [x]
  | y :: ys => if x ≤ y then x :: y :: ys else y :: insertNat x ys

/-- One launch or command of a context that ends completes with a status; a launch that has finished keeps its own. Every
access of a launch is performed before its record (R181, R391). A copy command that completes FAULT posts the fencing cause
(R267, R355). -/
def State.cutShort (s : State) (status id : Nat) : State :=
  match s.launch? id with
  | some l =>
    let s := (s.fulfilAll l.forks).getD s
    let s := s.bringAll ((s.inflight.filter l.owns).map (·.id))
    if l.finished then s.retireLaunch l
    else match s.ctx? l.ctx with
      | none => s
      | some c =>
        let l := { l with ended := true }
        let s := (s.onLaunch id fun l => { l with fate := none, ended := true }).estateSteps c l
        s.retireLaunch (((s.launch? id).map fun (l : Launch) => { l with fate := some (l.fate.getD status) }).getD l)
  | none =>
    match s.cmd? id with
    | some c =>
      if c.isSwitch then s.finishSwitch c status
      else if status = 1 ∧ c.onCopy then (s.post c.ctx (s.cmdPosting c { code := 0x31 })).leaveQueue c 1
      else s.leaveQueue c status
    | none => s

/-- The end of a stopped context: its work completes with a status, its estates are discarded without logging, its
carve-outs are lifted and its number is free. Entries that found no room in its ring wait for it still (R318). -/
def State.tearDown (s : State) (n status : Nat) : State :=
  let ids := (s.launches.filter fun l => l.ctx = n).map (·.id) ++ (s.cmds.filter fun c => c.ctx = n).map (·.id)
  let s := (ids.foldr insertNat []).foldl (fun s id => s.cutShort status id) s
  let late := ((s.ctx? n).filter fun c => !c.faultQ.isEmpty).toList
  let s := s.dropWork n
  let rest := drop? s.ctxs n
  { s with
    ctxs := rest, estates := s.estates.filter fun e => e.ctx ≠ n
    tlb := s.tlb.filter fun e => e.ctx ≠ n, invs := s.invs.filter fun v => v.ctx ≠ n
    blocks := s.blocks.filter fun b => b.ctx ≠ n, sideInfo := s.sideInfo.filter fun e => e.ctx ≠ n
    pkg := { s.pkg with mode := if rest.isEmpty then none else s.pkg.mode, rings := s.pkg.rings ++ late } }

/-- Whether the entries and records that lead from one state to another have found their places: work completes only then
(R318, R365). -/
def State.foundRoom (s s' : State) : Bool :=
  decide (s'.pkg.rings.length = s.pkg.rings.length) && (s'.pkg.orphanQ.isEmpty || s'.pkg.orphanQ == s.pkg.orphanQ)

/-- A context stops for good, its groups and teams gone, until its work can complete (R355, R356, R365). -/
def State.stopFor (s : State) (n : Nat) : State :=
  let gone := s.dropWork n
  State.onCtx { gone with
    launches := s.launches.map fun (l : Launch) => if l.ctx = n then { l with closed := true } else l
    cmds := s.cmds } n fun c => { c with phase := .ending }

/-- A failure ends a context: its work completes FAULT once its entries and records find their places; until then the context
stands stopped. -/
def State.endCtx (s : State) (n : Nat) (posts : State → State) : State :=
  let stopped := (s.ctx? n).any fun c => c.phase == .ending
  let t := if stopped then s else posts s
  let t' := t.tearDown n 1
  if s.foundRoom t' then t' else if stopped then s else t.stopFor n

/-- Whether a destruction of a context must wait (R334, R338). -/
def State.busySwitch (s : State) (c : Ctx) : Bool :=
  (s.cmds.any fun x => decide (x.state = .running ∧ x.isSwitch ∧ x.targetCtx = c.desc.ctx))
  || (decide (c.phase = .live) && s.mustFinish c.desc.ctx) || decide (c.phase = .ending)

/-- The reply of the context-destroy port. -/
def State.destroyed (s : State) (reply : Nat) : Res := State.did { s with pkg := { s.pkg with destroyReply := reply } }

/-- A destruction of a stopped context, once its entries and records find their places. -/
def State.destroy (s : State) (ctx : Nat) : Res :=
  let s' := s.tearDown ctx 6
  if s.landed ctx && s.foundRoom s' then s'.destroyed 0 else notEnabled

/-- A write to the context-destroy port without DETACH (R334). -/
def execContextDestroy (ctx : Nat) (s : State) : Res :=
  match s.ctx? ctx with
  | none => s.destroyed 1
  | some c =>
    if s.busySwitch c then notEnabled
    else State.destroy (if c.phase = .live then s.preemptStop ctx else s) ctx

/-- The launches and commands that the image of the context's last FLUSH lists leave without a record; work accepted after it
stays (R334). -/
def State.detach (s : State) (n : Nat) : State :=
  { s with
    launches := s.launches.filter fun l => !(decide (l.ctx = n) && l.imaged)
    cmds := s.cmds.filter fun c => !(decide (c.ctx = n) && c.imaged) }

/-- A write to the context-destroy port with DETACH (R334). -/
def execContextDestroyDetach (ctx : Nat) (s : State) : Res :=
  match s.ctx? ctx with
  | none => s.destroyed 1
  | some c =>
    if s.busySwitch c then notEnabled
    else if s.imageState c ≠ 2 then s.destroyed 1
    else (s.detach ctx).destroy ctx

end Sys2Proof.Machine
end

