-- ==== Sys2Proof/Machine/Exchange.lean ====
section
/-! DEFINITION. Exchange: EXCH, the decision and delivery of blocks, coded packets (spec/21 R366 to R375), fabric barrier
completion and the capacity controller (R377, R379), COMBINE (R380), and what a fence does to a round (R381). -/

namespace Sys2Proof.Machine

/-! ### Wilkai routes and senders (spec/23 R393, R394) -/

def State.link (s : State) (port : Nat) : Link := look {} s.pkg.links port
def State.setLink (s : State) (port : Nat) (l : Link) : State :=
  { s with pkg := { s.pkg with links := keep {} s.pkg.links port l } }

/-- The port that traffic to a peer device leaves through (R394). -/
def Pkg.portTo (p : Pkg) (peer : Nat) : Option Nat :=
  let r := look 0 p.route peer
  if r.getLsbD 31 then (List.range 16).find? fun k => r.getLsbD k && p.linkUp.getLsbD k else none

/-- A flit for a peer device leaves through a link, or waits for room: a link keeps 2,048 flits (R393). -/
def Link.push (l : Link) (peer : Nat) : Link :=
  if l.unacked.length < 2048 ∧ l.waiting.isEmpty then
    { l with nextSeq := l.nextSeq + 1, unacked := l.unacked ++ [(l.nextSeq, peer)], out := l.out ++ [.data l.nextSeq true] }
  else { l with waiting := l.waiting ++ [peer] }

/-- Flits for peer devices, in order; `out` holds those that left now. -/
def Link.send (l : Link) (peers : List Nat) : Link := peers.foldl Link.push { l with out := [] }

/-- This device's peer number. -/
def State.selfPeer (s : State) : Nat := bitsOf s.pkg.self.toNat 0 4

/-! ### Fields (Tables 21.1 to 21.3, 21.6) -/

def Cmd.count (c : Cmd) : Nat := recNat c.bytes 0x0C 4
def Cmd.list (c : Cmd) : Nat := recNat c.bytes 0x10 8
def Cmd.xtab (c : Cmd) : Nat := recNat c.bytes 0x18 8
def Cmd.dmap (c : Cmd) : Nat := recNat c.bytes 0x20 8
def Cmd.stat (c : Cmd) : Nat := recNat c.bytes 0x28 8
def Cmd.rows (c : Cmd) : Nat := recNat c.bytes 0x30 8
def Cmd.loads (c : Cmd) : Bool := recBits c.bytes 8 17 1 == 1
def Cmd.coded (c : Cmd) : Bool := recBits c.bytes 0 10 1 == 1
def Cmd.renorm (c : Cmd) : Bool := recBits c.bytes 0 11 1 == 1
def Cmd.kk (c : Cmd) : Nat := recBits c.bytes 8 20 4
/-- Whether a command is one of an exchange queue. -/
def Cmd.onXe (c : Cmd) : Bool := decide (0x1000 ≤ c.qid ∧ c.qid < 0x1008)
/-- The exchange engine's die. -/
def Cmd.xdie (c : Cmd) : Nat := c.qid - 0x1000

namespace XEntry

def home (e : List Byte) : Nat := recBits e 0 0 4
def tile (e : List Byte) : Bool := recBits e 0 4 1 == 1
def rdie (e : List Byte) : Nat := recBits e 0 5 3
def core (e : List Byte) : Nat := recBits e 0 8 8
def bar (e : List Byte) : Nat := recBits e 0 16 10
def bv (e : List Byte) : Bool := recBits e 0 26 1 == 1
def slots (e : List Byte) : Nat := recNat e 4 2
def h (e : List Byte) : Nat := recNat e 6 1
def k (e : List Byte) : Nat := recBits e 4 24 3
def rbase (e : List Byte) : Nat := recNat e 8 8
def cap0 (e : List Byte) : Nat := recNat e 0x10 4
def avg0 (e : List Byte) : Nat := recNat e 0x14 4
def obase (e : List Byte) : Nat := recNat e 0x18 8
def cnt (e : List Byte) : Nat := recNat e 0x20 8

/-- The limits of Table 21.3 for an entry in use. -/
def legal (d : CtxDesc) (dom : Nat) (e : List Byte) : Bool :=
  slots e == 0 ||
  (recBits e 0 27 5 == 0 && recBits e 4 27 5 == 0 && decide (1 ≤ k e ∧ k e ≤ 6 ∧ rbase e % 16 = 0 ∧ cnt e % 4 = 0)
   && recNat e 0x28 24 == 0 && (dom == 1 || (d.sockets.contains (home e) && rdie e == 0)))

end XEntry

/-! ### Accesses of an exchange engine -/

/-- A context as an access at a level finds it: that of the group that pushed a command (R404). -/
def Ctx.level (x : Ctx) (sup : Bool) : Ctx := { x with priv := sup }

/-- Bytes that an engine reads, at the level of the group that pushed the command (R404), while writes arrive between `old` and
`s` (R279). -/
def State.xRead (old s : State) (die : Nat) (x : Ctx) (va n : Nat) : Except (BitVec 8) (List Byte) :=
  if s.ecc then .error 0x31
  else
    let piece (r : Nat × Nat) : Except (BitVec 8) (List Byte) :=
      match s.translate (.socket die) x.desc ⟨x.priv, false, none⟩ .read r.1 r.2 with
      | .error e => .error e
      | .ok pa => if s.fencedAt pa then .error 0x31 else .ok (old.engineBytes s (.socket die) pa r.2)
    ((splitPages [(va, n)]).mapM piece).map List.flatten

/-- Pieces of a write, translated. -/
def State.xPieces (s : State) (die : Nat) (x : Ctx) (va n : Nat) : Except (BitVec 8) (List (Nat × Nat × Nat)) :=
  (splitPages [(va, n)]).mapM fun r =>
    match s.translate (.socket die) x.desc ⟨x.priv, false, none⟩ .write r.1 r.2 with
    | .error e => .error e
    | .ok pa => if s.fencedAt pa then .error 0x31 else .ok (r.1, pa, r.2)

/-- Writes the pieces of a range. -/
def State.xPut (s : State) (die : Nat) (x : Ctx) : List (Nat × Nat × Nat) → List Byte → State
  | [], _ => s
  | (va, pa, k) :: ps, bs =>
    let s := s.setDirtyAt (.socket die) x.desc va
    (s.tear (s.writeNow x.desc.ctx va pa (bs.take k)) k (.mem pa)).xPut die x ps (bs.drop k)

/-- A write of an engine, performed at once (log 6). -/
def State.xWrite (s : State) (die : Nat) (x : Ctx) (va : Nat) (bs : List Byte) : Except (BitVec 8) State :=
  match s.xPieces die x va bs.length with
  | .error e => .error e
  | .ok ps => .ok (s.xPut die x ps bs)

/-- A command that meets a cause at an access (R373). -/
def State.xFate (s : State) (cid : Nat) (e : BitVec 8) : State :=
  s.onCmd cid fun c => { c with fate := some (c.fate.getD { code := e }) }

/-- A delivery of an exchange command to its CBAR (R372, R380). -/
def State.xDeliver (s : State) (c : Cmd) (n : Nat) : State :=
  (s.onCmd c.id fun c => { c with delivered := c.delivered + n }).deliver c n

/-! ### Rounds (R370, R379) -/

/-- The round of a context, or a new instance of it. -/
def Ctx.round (c : Ctx) (dom r : Nat) : Round := (c.round? dom r).getD { r := r, dom := dom }

/-- Stores a round. -/
def Ctx.setRound (c : Ctx) (x : Round) : Ctx :=
  { c with rounds := (c.rounds.filter fun y => !(decide (y.dom = x.dom ∧ y.r = x.r))) ++ [x] }

/-- The capacities that hold when a round's first block reaches a home. -/
def Round.fixCaps (x : Round) (home : Nat) (experts : SMap Expert) : Round :=
  if look 0 x.caps (home * 512 + 256) = 1 then x
  else
    let caps := experts.foldl (fun m e => keep 0 m (home * 512 + e.1) e.2.cap) x.caps
    { x with caps := keep 0 caps (home * 512 + 256) 1 }

/-- LOAD registers every entry in use, and no other expert (R379). -/
def Ctx.loadExperts (c : Ctx) (table : List Byte) : Ctx :=
  let one (m : SMap Expert) (e : Nat) : SMap Expert :=
    let b := (table.drop (64 * e)).take 64
    if XEntry.slots b = 0 then m
    else put m e { home := XEntry.home b, slots := XEntry.slots b, h := XEntry.h b, k := XEntry.k b
                   cnt := BitVec.ofNat 64 (XEntry.cnt b), cap := XEntry.cap0 b, avg := XEntry.avg0 b }
  { c with experts := (List.range 256).foldl one [] }

/-! ### Side information (R375) -/

/-- Whether an entry is listed at a die under the key of a block. -/
def SideInfo.names (e : SideInfo) (die : Nat) (b : Block) : Bool :=
  decide (e.die = die ∧ e.ctx = b.ctx ∧ e.dom = b.dom ∧ e.round = b.round ∧ e.sender = b.sender ∧ e.seq = b.seq)

/-- What a die's table lists under the key of a block. -/
def State.listed (s : State) (die : Nat) (b : Block) : Option SideInfo := s.sideInfo.find? (·.names die b)

/-- Whether two blocks belong to one round and cross a link in opposite directions. -/
def Block.crosses (b c : Block) : Bool :=
  decide (b.id ≠ c.id ∧ b.ctx = c.ctx ∧ b.round = c.round ∧ b.dom = c.dom ∧ b.home ≠ c.home)

/-- Whether a block of this device is bound for a die of this device. -/
def State.near (s : State) (b : Block) : Bool := b.dom == 0 || b.peer == s.selfPeer

/-- Whether a stage of the interposer may have put two blocks into one coded packet (R374). -/
def State.codable (s : State) (b c : Block) : Bool :=
  b.coded && c.coded && b.state == .flying && c.state == .flying && b.mate.isNone && c.mate.isNone && b.crosses c
  && s.near b && s.near c && (s.listed b.home c).isSome && (s.listed c.home b).isSome

/-- The oldest evictable entry of a die leaves; the blocks of coded packets that needed it are marked. -/
def State.evict (s : State) (die : Nat) : Option State :=
  match s.sideInfo.find? fun e => e.die = die ∧ !e.stay with
  | none => none
  | some e =>
    let hit (b : Block) : Bool := decide (b.home = die) && s.blocks.any fun c => e.names die c && s.codable b c
    some { s with
      sideInfo := s.sideInfo.erase e
      blocks := s.blocks.map fun (b : Block) => if hit b then { b with lost := true } else b }

/-- Whether two entries have one place and one key. -/
def SideInfo.same (e x : SideInfo) : Bool :=
  decide (e.die = x.die ∧ e.ctx = x.ctx ∧ e.dom = x.dom ∧ e.round = x.round ∧ e.sender = x.sender ∧ e.seq = x.seq)

/-- A new entry of a die's table of 4,096, in the place of an older one of its key; `none` where it must wait for room. A
sent block that its home has not acknowledged keeps its entry (log 26). -/
def State.addSide (s : State) (e : SideInfo) : Option State :=
  if s.sideInfo.any fun x => x.same e && x.stay && !e.stay then some s
  else
    let s := { s with sideInfo := s.sideInfo.filter fun x => !x.same e }
    let room := if (s.sideInfo.filter fun x => x.die = e.die).length < 4096 then some s else s.evict e.die
    room.map fun s => { s with sideInfo := s.sideInfo ++ [e] }

/-- The home of a sent block has acknowledged it: its entry need not stay any longer. -/
def State.release (s : State) (b : Block) : State :=
  { s with sideInfo := s.sideInfo.map fun (e : SideInfo) =>
    if decide (e.ctx = b.ctx ∧ e.dom = b.dom ∧ e.round = b.round ∧ e.sender = b.sender ∧ e.seq = b.seq) then { e with stay := false } else e }

/-! ### Service (R261, R370) -/

/-- Whether an EXCH was accepted after its member's arrival at an open instance of its round, and so waits (R370). -/
def State.roundHolds (s : State) (c : Cmd) (x : Ctx) : Bool :=
  decide (c.opc = 0x20) && x.fbars.any fun b =>
    decide (b.r = c.round) && (if b.fbgrp.msb then c.dom == 1 else c.dom == 0)
    && b.arrived.contains (s.memberOf b.fbgrp c.xdie) && !b.recorded.contains c.id

/-- Whether an engine's command is in the midst of sending the blocks of a round. -/
def Cmd.sending (y c : Cmd) : Bool :=
  decide (y.qid = c.qid ∧ y.id ≠ c.id ∧ y.ctx = c.ctx ∧ y.dom = c.dom ∧ y.round = c.round ∧ y.opc = 0x20 ∧ c.opc = 0x20
    ∧ y.state = .running ∧ 0 < y.taken ∧ y.taken < y.count) && y.fate.isNone

/-- Whether a running exchange command goes on: the sequence numbers of a round pass from one command of an engine to the
next (R370). -/
def State.xGoes (s : State) (c : Cmd) : Bool :=
  c.onXe && decide (c.state = .running ∧ c.taken < c.count) && c.fate.isNone && !s.engineFenced c
  && !s.cmds.any fun y => y.sending c

/-- Whether an exchange command at the head of its stream can go on now. -/
def State.xWants (s : State) (c : Cmd) (x : Ctx) : Bool :=
  (s.mayStart c x && (c.gslot == 0 || c.verdict.isSome) && !s.roundHolds c x) || s.xGoes c

/-- Whether an exchange engine serves this command: no other stream of it has a head that goes before and can go on. -/
def State.xServes (s : State) (c : Cmd) : Bool :=
  s.cmds.all fun y => !(decide (y.qid = c.qid) && y.before c && s.cmdHead y &&
    ((s.ctx? y.ctx).map (s.xWants y)).getD false)

/-! ### EXCH (R367) -/

/-- A running exchange command that its engine serves, and its context at the level of the group that pushed it (R404). -/
def State.exchanging (s : State) (cid opc : Nat) : Option (Cmd × Ctx) :=
  match s.cmd? cid with
  | none => none
  | some c =>
    match s.ctx? c.ctx with
    | none => none
    | some x => if c.opc = opc ∧ s.xGoes c ∧ s.xServes c then some (c, x.level c.priv) else none

/-- Whether an endpoint can be reached (R381, R394): a die of a peer device, or of this one. -/
def State.reaches (s : State) (dom peer die : Nat) : Bool :=
  if dom = 1 ∧ peer ≠ s.selfPeer then (s.pkg.portTo peer).isSome else !s.pkg.fencedSock.getLsbD die

/-- Whether the home of a block can be reached. -/
def State.reachable (s : State) (b : Block) : Bool := s.reaches b.dom b.peer b.home

/-- The flits of a block for another device leave through its route: three of them (R374). -/
def State.sendFlits (s : State) (b : Block) : Option State :=
  if s.near b then some s
  else match s.pkg.portTo b.peer with
    | none => some s
    | some k =>
      let l := s.link k
      if 2048 < l.unacked.length + 3 ∨ !l.waiting.isEmpty then none
      else some (s.setLink k (l.send [b.peer, b.peer, b.peer]))

/-- The block that a command sends next. -/
def State.newBlock (s : State) (c : Cmd) (seq expert : Nat) (entry data : List Byte) : Block :=
  { id := s.nextId, cid := c.id, ctx := c.ctx, round := c.round, dom := c.dom, sender := s.senderOf c.dom c.xdie, seq := seq
    expert := expert, home := if c.dom = 0 then XEntry.home entry else XEntry.rdie entry
    peer := XEntry.home entry, coded := c.coded, data := data, entry := entry, dmap := BitVec.ofNat 64 c.dmap
    sup := c.priv }

/-- A block is sent: it takes its sequence and its side-information entry, and flies. -/
def State.sendBlock (s : State) (c : Cmd) (x : Ctx) (expert : Nat) (entry data : List Byte) : Option State :=
  let rd := x.round c.dom c.round
  let sender := s.senderOf c.dom c.xdie
  let seq := look 0 rd.seqs sender
  let b := s.newBlock c seq expert entry data
  match s.addSide ⟨c.xdie, c.ctx, c.dom, c.round, sender, seq, data, true⟩ with
  | none => none
  | some s =>
    match s.sendFlits b with
    | none => none
    | some s =>
      let s := s.onCtx c.ctx fun x => x.setRound { rd with seqs := keep 0 rd.seqs sender (seq + 1) }
      some { s with nextId := s.nextId + 1, blocks := s.blocks ++ [b] }

/-- LOAD, before the first block (R367, R379). -/
def State.firstLoad (old s : State) (c : Cmd) (x : Ctx) : Except (BitVec 8) State :=
  if c.loads ∧ c.taken = 0 then
    match old.xRead s c.xdie x c.xtab 16384 with
    | .error e => .error e
    | .ok table => .ok (s.onCtx c.ctx fun x => x.loadExperts table)
  else .ok s

/-- A descriptor is taken: the block at SRC is sent, or registered (R367, R374). -/
def State.takeBlock (s : State) (c : Cmd) (x : Ctx) (d data : List Byte) : Res :=
  if recBits d 8 63 1 = 1 then
    match s.addSide ⟨c.xdie, c.ctx, c.dom, c.round, recBits d 8 52 7, recBits d 8 32 20, data, false⟩ with
    | none => notEnabled
    | some t => s.didPosting c.ctx (t.xDeliver c 4)
  else match (look? c.entries (recNat d 8 1)).getD (.cause 0x12) with
    | .cause e => (s.xFate c.id e).did
    | .bytes entry => match s.sendBlock c x (recNat d 8 1) entry data with
      | none => notEnabled
      | some s => s.did

/-- EXCH takes its next descriptor (R367). A cause that the engine met at its start, or meets at the block, ends the command
(R373). -/
def execExch (cid : Nat) (s : State) : Res :=
  match s.exchanging cid 0x20 with
  | none => notEnabled
  | some (c, x) =>
    let old := s
    match old.firstLoad (old.stirMem c.xdie) c x with
    | .error e => (s.xFate cid e).did
    | .ok s =>
      match c.descs.getD c.taken (.cause 0x12), s.ctx? c.ctx with
      | .bytes d, some x =>
        match old.xRead s c.xdie (x.level c.priv) (recNat d 0 8) 512 with
        | .error e => (s.xFate cid e).did
        | .ok data => (s.onCmd cid fun c => { c with taken := c.taken + 1 }).takeBlock c x d data
      | .cause e, _ => (s.xFate cid e).did
      | _, none => notEnabled

/-! ### The home (R370, R371) -/

/-- The receiver team of an entry, while it is resident (R368). -/
def State.receiver (s : State) (ctx die core : Nat) : Option (Team × Launch) :=
  if ((s.ctx? ctx).map (·.phase)).getD .preempted ≠ .live then none
  else (s.teams.filter fun t => decide (t.ctx = ctx ∧ t.die = die ∧ t.core = core)).foldl (fun best t =>
    match s.launch? t.lid with
    | none => best
    | some l => match best with
      | none => some (t, l)
      | some b => if l.seq < b.2.seq then some (t, l) else best) none

/-- What a home decides. -/
inductive Decision where
  | admitted (slot : Nat)
  | dropped
  | failed
  deriving DecidableEq, Repr

/-- The drop map entry (Table 21.4). -/
def Decision.word (d : Decision) (expert : Nat) : Nat :=
  match d with
  | .admitted slot => 2 ^ 30 + expert * 65536 + slot % 65536
  | .dropped => 2 * 2 ^ 30 + expert * 65536
  | .failed => 3 * 2 ^ 30 + expert * 65536

/-- The entry that the home goes by: of the table that the round's first EXCH gave it (R368), in domain 1 of the receiving
context's own table (R369), where an unused entry fails the block; `none` fails, also where the table cannot be read
(log 26). -/
def State.homeEntry (old s : State) (b : Block) (x : Ctx) : Option (List Byte) :=
  let table := if b.dom = 0 then
      (look? (x.round b.dom b.round).tables b.home).or ((s.cmd? b.cid).map Cmd.xtab)
    else x.xtab.map (·.toNat)
  match table with
  | none => none
  | some t => match old.xRead s b.home (x.level b.sup) (t + 64 * b.expert) 64 with
    | .error _ => none
    | .ok e => if b.dom = 1 ∧ XEntry.slots e = 0 then none else some e

/-- What a home makes of a block: its decision, the round as it leaves it, a PROT for a slot outside its tile region, and
the entry that it went by. -/
structure Verdict where
  d : Decision
  round : Round
  why : Option CauseRec := none
  entry : List Byte := []
  deriving DecidableEq, Repr

/-- The decision of R370 at a home of this package. -/
def State.decideBlock (old s : State) (b : Block) (x : Ctx) : Verdict :=
  let rd := (x.round b.dom b.round).fixCaps b.home x.experts
  let rd := { rd with offered := keep 0 rd.offered b.expert (look 0 rd.offered b.expert + 1) }
  let a := look 0 rd.admitted b.expert
  if !s.reachable b then ⟨.failed, rd, none, []⟩
  else match old.homeEntry s b x with
    | none => ⟨.failed, rd, none, []⟩
    | some e =>
      if look 0 rd.caps (b.home * 512 + b.expert) ≤ a ∨ XEntry.slots e ≤ a then ⟨.dropped, rd, none, e⟩
      else
        let bad := XEntry.tile e && ((s.receiver b.ctx b.home (XEntry.core e)).map fun r =>
          decide (r.2.tileUnits * 256 < XEntry.rbase e + 512 * (a + 1))).getD false
        if bad then
          ⟨.failed, rd, some { code := 0x12, space := 1, addr := BitVec.ofNat 64 (XEntry.rbase e + 512 * a) }, e⟩
        else ⟨.admitted a, { rd with admitted := keep 0 rd.admitted b.expert (a + 1) }, none, e⟩

/-- The decision at a home of another device is open (R369, log 26). -/
def State.farDecision (s : State) (b : Block) : Decision :=
  if !s.reachable b then .failed
  else
    let n := Config.freeNat s.free
    if n % 3 = 0 then .admitted (n / 3 % 65536) else if n % 3 = 1 then .dropped else .failed

/-- The sender's engine writes a drop map entry and counts it (R370, R372). -/
def State.writeEntry21 (s : State) (b : Block) (d : Decision) : State :=
  match s.cmd? b.cid, s.ctx? b.ctx with
  | some c, some x =>
    let s := s.onCmd c.id fun c => match d with
      | .admitted _ => { c with done := c.done + 1 }
      | .dropped => { c with dropped := c.dropped + 1 }
      | .failed => { c with failed := c.failed + 1 }
    match s.xWrite c.xdie (x.level c.priv) (b.dmap.toNat + 4 * b.seq) (leBytes 4 (d.word b.expert)) with
    | .error e => s.xFate c.id e
    | .ok s => s.xDeliver c 4
  | _, _ => s

/-- The 512 bytes of a block are written to its slot, or the cause that the write meets (R371). Bytes for a team that is not
resident are discarded (R268). -/
def State.fillSlot (s : State) (b : Block) (x : Ctx) (slot : Nat) (team : Option (Team × Launch)) : Except (BitVec 8) State :=
  let at_ := XEntry.rbase b.entry + 512 * slot
  if XEntry.tile b.entry then
    match team with
    | none => .ok s
    | some r => .ok (s.tear (s.writeTile r.1.id at_ b.data) b.data.length (.tile r.1.id at_))
  else s.xWrite b.home (x.level b.sup) at_ b.data

/-- An admitted block is written to its slot, its key is recorded, and its barrier takes it (R371); where the write meets a
cause the command ends with it (R373). -/
def State.deliverBlock (s : State) (b : Block) (slot : Nat) : State :=
  let s := { s with blocks := s.blocks.filter fun x => x.id ≠ b.id }
  match s.ctx? b.ctx with
  | none => s
  | some x =>
    let team := s.receiver b.ctx b.home (XEntry.core b.entry)
    match s.fillSlot b x slot team with
    | .error c => s.xFate b.cid c
    | .ok s =>
      let s := s.onCtx b.ctx fun x =>
        let rd := x.round b.dom b.round
        x.setRound { rd with
          keys := rd.keys ++ [b.sender * 2 ^ 32 + b.seq], order := keep 0 rd.order (b.sender * 256 + b.expert) (b.seq + 1) }
      match team with
      | none => s
      | some r =>
        if XEntry.bv b.entry ∧ XEntry.bar b.entry < r.2.barriers then
          s.deliverBar r.1.id (XEntry.bar b.entry) 512 (0x1000 + b.sender % 8) ((s.cmd? b.cid).map s.deliverySide).toList
        else s

/-- Whether an earlier block of the same sender, round and expert has yet to be delivered, dropped or failed: one that this
device sent or holds, or one of another device that has yet to come. -/
def State.blockWaits (s : State) (b : Block) : Bool :=
  (s.blocks.any fun (c : Block) => decide (c.ctx = b.ctx ∧ c.dom = b.dom ∧ c.round = b.round ∧ c.sender = b.sender
    ∧ c.expert = b.expert ∧ c.seq < b.seq))
  || ((s.ctx? b.ctx).map fun x => b.after.any fun q =>
      !(x.round b.dom b.round).got.contains (b.sender * 2 ^ 32 + q)).getD false

/-- The next block that can be delivered in sequence order. -/
def State.nextDelivery (s : State) : Option (Block × Nat) :=
  s.blocks.findSome? fun b => match b.state with
    | .admitted slot => if s.blockWaits b then none else some (b, slot)
    | .flying => none

/-- Delivers every block whose turn has come (R371). -/
def State.deliverBlocks (s : State) : Nat → State
  | 0 => s
  | fuel + 1 =>
    match s.nextDelivery with
    | none => s
    | some (b, slot) => (s.deliverBlock b slot).deliverBlocks fuel

/-- A block leaves the fabric undelivered. -/
def State.dropBlock (s : State) (b : Block) : State := { s with blocks := s.blocks.filter fun y => y.id ≠ b.id }

/-- An entry that stands ADMITTED is noted (R381). -/
def State.noteAdmit (s : State) (b : Block) (far : Option Nat) : State :=
  s.onCtx b.ctx fun x =>
    let rd := x.round b.dom b.round
    let a : Admit := ⟨b.cid, b.sender % 8, b.dmap + BitVec.ofNat 64 (4 * b.seq), b.expert, b.home, far⟩
    x.setRound { rd with admits := rd.admits ++ [a] }

/-- The posting for a block of another device, whose command is not known here: OPC of EXCH, and the queue of the engine of the
sender's die there (Table 17.4, log 26). -/
def farPosting (b : Block) (why : CauseRec) : Posting :=
  { src := 2, why := { why with detail := BitVec.ofNat 64 (0x20 + (0x1000 + b.sender % 8) * 65536) } }

/-- A home of this package decides a block, and delivers what stands in order (R370, R371). -/
def State.receiveBlock (old s : State) (b : Block) (x : Ctx) : State :=
  let r := old.decideBlock s b x
  let s := s.onCtx b.ctx fun x => x.setRound r.round
  let s := match r.why with
    | none => s
    | some why => s.post b.ctx (((s.cmd? b.cid).map fun c => s.cmdPosting c why).getD (farPosting b why))
  let s := (s.writeEntry21 b r.d).release b
  let s := match r.d with
    | .admitted slot =>
      let s := if (s.cmd? b.cid).isSome then s.noteAdmit b none else s
      { s with blocks := (s.blocks.filter fun (y : Block) => y.id ≠ b.id) ++
          [{ b with state := .admitted slot, coded := false, mate := none, entry := r.entry }] }
    | _ => s.dropBlock b
  s.deliverBlocks s.blocks.length

/-- A block of another device's home: its decision is open (R369, log 26). -/
def State.sendAway (s : State) (b : Block) : State :=
  let d := s.farDecision b
  let s := (State.writeEntry21 { s with free := s.free + 1 } b d).release b
  let s := match d with
    | .admitted _ => s.noteAdmit b (some b.peer)
    | _ => s
  s.dropBlock b

/-- A block with its data reaches its home, whose engine reads the expert's entry while writes arrive there (R279). One whose
key the home has delivered is discarded (R371). -/
def State.arriveBlock (s : State) (b : Block) : State :=
  match s.ctx? b.ctx with
  | none => s
  | some x =>
    if (x.round b.dom b.round).keys.contains (b.sender * 2 ^ 32 + b.seq) then s.dropBlock b
    else if s.near b then s.receiveBlock (s.stirMem b.home) b x
    else s.sendAway b

def State.flying (s : State) (bid : Nat) : Option Block := s.blocks.find? fun b => b.id = bid ∧ b.state = .flying

/-! ### Blocks from other devices (R369) -/

/-- The receiving context of a block from another device: the live one that carries its tag. -/
def State.tagged (s : State) (tag : Nat) : Option Ctx := (s.ctxs.find? fun c => c.2.desc.xv && c.2.desc.xtag == tag).map (·.2)

/-- A block from another device, as its receiving context holds it. -/
def State.farBlock (s : State) (x : Ctx) (f : FarBlock) : Block :=
  { id := s.nextId, cid := 0, ctx := x.desc.ctx, round := f.round, dom := 1, sender := f.sender, seq := f.seq
    expert := f.expert, home := f.die, peer := s.selfPeer, coded := false, data := f.data, sup := f.sup, after := f.missing }

/-- What the sender of a block learns: its drop map entry. -/
def State.tellSender (s : State) (d : Decision) (expert : Nat) : State := { s with reply := leBytes 4 (d.word expert) }

/-- Whether a block from another device can reach a home now: some link is up, and the home has delivered no later block of
its sender and expert, since each such block waits there for the earlier ones that it names as missing (R371). -/
def State.farComes (s : State) (f : FarBlock) : Bool :=
  s.pkg.linkUp != 0 && decide (f.data.length = 512 ∧ f.die < 8 ∧ f.expert < 256 ∧ f.sender < 128 ∧ f.sender / 8 ≠ s.selfPeer) &&
  match s.tagged f.tag with
  | none => true
  | some x =>
    let rd := x.round 1 f.round
    rd.got.contains (f.sender * 2 ^ 32 + f.seq) || decide (look 0 rd.order (f.sender * 256 + f.expert) ≤ f.seq)

/-- A block from another device reaches a home of this one (R369): it fails without a receiving context. It is decided when
it comes, and delivered in the order of its sender's blocks (R370, R371); a second arrival is discarded (R383). -/
def State.arriveFar (s : State) (f : FarBlock) : State :=
  match s.tagged f.tag with
  | none => s.tellSender .failed f.expert
  | some x =>
    let b := s.farBlock x f
    let rd := x.round 1 f.round
    let key := f.sender * 2 ^ 32 + f.seq
    if rd.got.contains key then s
    else
      let x := x.setRound { rd with got := rd.got ++ [key] }
      let t := s.stirMem b.home
      let d := (s.decideBlock t b x).d
      State.tellSender (s.receiveBlock { t with nextId := s.nextId + 1 } b x) d f.expert

/-- A block reaches its home uncoded (R369 to R371). -/
def execBlockArrival (n : BlockName) (s : State) : Res :=
  match n with
  | .own bid => match s.flying bid with
    | none => notEnabled
    | some b => if b.mate.isSome then notEnabled else s.didPosting b.ctx (s.arriveBlock b)
  | .far f =>
    if !s.farComes f then notEnabled
    else s.didPosting (((s.tagged f.tag).map (·.desc.ctx)).getD 64) (s.arriveFar f)

/-- The first receiver of a coded packet cancels the block that it holds; the other block rides on (R374). -/
def State.firstCoded (s : State) (b c : Block) : Res :=
  match s.listed b.home c with
  | none => notEnabled
  | some held =>
    if !s.codable b c then notEnabled
    else
      let s' := s.arriveBlock { b with data := xorBytes (xorBytes b.data c.data) held.data }
      s.didPosting b.ctx { s' with blocks := s'.blocks.map fun (y : Block) =>
        if y.id = c.id then { y with mate := some (b.id, b.sender, b.seq, b.data) } else y }

/-- The other receiver cancels the block that it holds, while its table lists it (R374, R375). -/
def State.secondCoded (s : State) (b : Block) (m : Nat × Nat × Nat × List Byte) : Res :=
  match s.listed b.home { b with sender := m.2.1, seq := m.2.2.1 } with
  | none => notEnabled
  | some held => s.didPosting b.ctx (s.arriveBlock { b with data := xorBytes (xorBytes b.data m.2.2.2) held.data, mate := none })

/-- A block that a Wilkai port has coded with one of this device's own, bound for the sender's device (R374): the receiver
here cancels its device's block, which its table must list. -/
def State.farCoded (s : State) (f : FarBlock) (c : Block) : Option FarBlock :=
  if c.coded ∧ c.dom = 1 ∧ c.peer = f.sender / 8 ∧ c.round = f.round ∧ (s.tagged f.tag).any (fun x => x.desc.ctx = c.ctx) then
    (s.listed f.die c).map fun held => { f with data := xorBytes (xorBytes f.data c.data) held.data }
  else none

/-- A coded packet reaches a receiver, which cancels the block that it holds (R374): that of block `n`; `c` names the other
block of the packet. -/
def execCodedPacket (n : BlockName) (c : Nat) (s : State) : Res :=
  match n with
  | .own bid => match s.flying bid with
    | none => notEnabled
    | some b => match b.mate with
      | some m => if m.1 = c then s.secondCoded b m else notEnabled
      | none => match s.flying c with
        | none => notEnabled
        | some d => s.firstCoded b d
  | .far f => match (s.flying c).bind (s.farCoded f) with
    | none => notEnabled
    | some f => execBlockArrival (.far f) s

/-- Whether a coded packet may reach the receiver of a block that no longer holds what it must cancel (R375). The tables of
another device are not known here (log 26). -/
def State.mayFall (s : State) (b : Block) : Bool :=
  match b.mate with
  | some m => (s.listed b.home { b with sender := m.2.1, seq := m.2.2.1 }).isNone
  | none => b.coded && (b.lost || !s.near b)

/-- A receiver no longer holds what it must cancel: the sender sends the block again, uncoded (R375). A block of another
device will come again; nothing of this one changes. -/
def execDecodeFallback (n : BlockName) (s : State) : Res :=
  match n with
  | .far f => if s.farComes f ∧ (s.tagged f.tag).isSome then .next s else notEnabled
  | .own bid => match s.flying bid with
    | none => notEnabled
    | some b =>
      if !s.mayFall b then notEnabled
      else
        let s := { s with blocks := s.blocks.map fun (y : Block) =>
          if y.id = bid then { y with coded := false, lost := false, mate := none } else y }
        (s.onCmd b.cid fun c => { c with decevict := true }).did

/-! ### Status words and completion (R372, R373, R380) -/

/-- The status word (Table 21.5). -/
def Cmd.statusWord (c : Cmd) (status : Nat) : Nat :=
  status + (if c.decevict ∧ c.opc = 0x20 then 256 else 0) + c.done % 65536 * 2 ^ 16 + c.dropped % 65536 * 2 ^ 32
  + c.failed % 65536 * 2 ^ 48

/-- The status word is written where STAT translates; elsewhere the cause comes back. -/
def State.writeStat (s : State) (c : Cmd) (status : Nat) : State × Option (BitVec 8) :=
  match s.ctx? c.ctx with
  | none => (s, none)
  | some x => match s.xWrite c.xdie (x.level c.priv) c.stat (leBytes 8 (c.statusWord status)) with
    | .error e => (s, some e)
    | .ok s => (s, none)

/-- Whether blocks of a command are on their way. -/
def State.blocksOut (s : State) (cid : Nat) : Bool := s.blocks.any fun b => b.cid = cid

/-- An exchange command that has done its work completes (R372, R380, R381): its status word, and PARTFAIL for the
launch of a COMBINE that read a failed pair. -/
def State.finishExchange (s : State) (c : Cmd) : State :=
  let status := if c.opc = 0x21 ∧ c.failed ≠ 0 then 4 else 0
  match s.writeStat c status with
  | (s, some e) => s.faultCmd c { code := e }
  | (s, none) =>
    let s := if status = 4 then s.onLaunch c.lid fun l => { l with fate := worse l.fate 4 } else s
    s.leaveQueue c status

/-! ### COMBINE (R380) -/

/-- The home of an expert's entry in a domain: peer device and die. -/
def XEntry.place (dom : Nat) (e : List Byte) : Nat × Nat :=
  (XEntry.home e, if dom = 0 then XEntry.home e else XEntry.rdie e)

/-- A live pair: its weight, and where its output row stands. -/
structure Pair where
  weight : W32
  expert : Nat := 0
  slot : Nat := 0
  entry : List Byte := []
  row : List W32 := []
  deriving DecidableEq, Repr

/-- What the pairs of a token come to; a cause ends the command after what has been decided (R373). -/
structure PairSum where
  old : State
  s : State
  live : List Pair := []
  dropped : Nat := 0
  failed : Nat := 0
  cause : Option (BitVec 8) := none

/-- The table entry of an expert that a COMBINE names: as read at its start, or read now where a drop map entry has changed
since. -/
def State.namedEntry (old s : State) (c : Cmd) (x : Ctx) (expert : Nat) : Except (BitVec 8) (List Byte) :=
  match look? c.entries expert with
  | some (.bytes e) => .ok e
  | some (.cause e) => .error e
  | none => old.xRead s c.xdie x (c.xtab + 64 * expert) 64

/-- The first loop of R380 for one pair: its state, and its weight where it is live. -/
def State.pair (s : State) (c : Cmd) (x : Ctx) (i : Nat) (a : PairSum) : Except (BitVec 8) PairSum := do
  let p ← a.old.xRead s c.xdie x (c.list + 8 * i) 8
  let at_ := c.dmap + 4 * recBits p 0 0 20
  let w := ofLe (← a.old.xRead s c.xdie x at_ 4)
  match bitsOf w 30 2 with
  | 0 => .error 0x12
  | 2 => .ok { a with dropped := a.dropped + 1 }
  | 3 => .ok { a with failed := a.failed + 1 }
  | _ =>
    let expert := bitsOf w 16 8
    let entry ← a.old.namedEntry s c x expert
    let home := XEntry.place c.dom entry
    if !XEntry.legal x.desc c.dom entry then .error 0x12
    else if s.reaches c.dom home.1 home.2 then
      .ok { a with live := a.live ++ [⟨BitVec.ofNat 32 (recNat p 4 4), expert, bitsOf w 0 16, entry, []⟩] }
    else do
      let s ← s.xWrite c.xdie x at_ (leBytes 4 (Decision.failed.word expert))
      .ok { a with s := s, failed := a.failed + 1 }

/-- The first loop of R380 over the pairs of a token, up to a cause. -/
def PairSum.add (c : Cmd) (x : Ctx) (a : PairSum) (i : Nat) : PairSum :=
  if a.cause.isSome then a
  else match a.s.pair c x i a with
    | .error e => { a with cause := some e }
    | .ok a => a

/-- The output row of a live pair: at OBASE of its expert's entry, in domain 1 of the receiving context's entry, through the
page table of the receiving context, which is this context where the peer is this device; a row of another device is open
(log 26). -/
def State.outputRow (old s : State) (c : Cmd) (x : Ctx) (p : Pair) : Except (BitVec 8) (State × List W32) :=
  if c.dom = 1 ∧ XEntry.home p.entry ≠ s.selfPeer then
    .ok ({ s with free := s.free + 128 }, (List.range 128).map fun j => Config.freeWord (s.free + j))
  else do
    let e ← if c.dom = 0 then .ok p.entry
      else old.xRead s c.xdie x ((x.xtab.map (·.toNat)).getD c.xtab + 64 * p.expert) 64
    let bs ← old.xRead s c.xdie x (XEntry.obase e + 512 * p.slot) 512
    .ok (s, wordsFrom 128 bs)

/-- The rows of the live pairs, in ascending order, up to a cause. -/
def PairSum.rows (c : Cmd) (x : Ctx) (a : PairSum) : PairSum :=
  a.live.foldl (fun (a : PairSum) p =>
    if a.cause.isSome then a
    else match a.old.outputRow a.s c x p with
      | .error e => { a with cause := some e }
      | .ok (s, row) => { a with s := s, live := a.live ++ [{ p with row := row }] }) { a with live := [] }

/-- Rounds an exact FP32 value (R380: no flush, no flag). -/
def roundFp32 (v : XV) : W32 := BitVec.ofNat 32 (fp32.round 0 false false false v).1

/-- s + w, rounded. -/
def addFp32 (a b : W32) : W32 := roundFp32 ((fp32.decode a.toNat).add 0 (fp32.decode b.toNat)).1

/-- The weights after RENORM. -/
def renormed (ps : List Pair) : List Pair :=
  let sum := ps.foldl (fun s p => addFp32 s p.weight) 0
  let scaled (w : W32) : W32 :=
    if (fp32.decode sum.toNat).isZero then 0 else roundFp32 ((fp32.decode w.toNat).div (fp32.decode sum.toNat)).1
  ps.map fun p => { p with weight := scaled p.weight }

/-- One word of a combined row. -/
def combineWord (ps : List Pair) (j : Nat) : W32 :=
  ps.foldl (fun y p =>
    let prod := ((fp32.decode p.weight.toNat).mul (fp32.decode (nth p.row j).toNat)).1
    roundFp32 ((fp32.decode y.toNat).add 0 prod).1) 0

/-- The pairs of a token count in the status word. -/
def State.countPairs (s : State) (cid : Nat) (live : Nat) (a : PairSum) : State :=
  s.onCmd cid fun c => { c with
    done := c.done + live, dropped := c.dropped + a.dropped, failed := c.failed + a.failed }

/-- COMBINE computes its next token (R380): the states of all pairs first, then their rows, then the token's row. A cause
ends the command; the pairs decided before it count (R373), and the entries rewritten FAILED stay. -/
def execCombine (cid : Nat) (s : State) : Res :=
  match s.exchanging cid 0x21 with
  | none => notEnabled
  | some (c, x) =>
    let a := (List.range c.kk).foldl (fun a i => a.add c x (c.taken * c.kk + i)) ({ old := s, s := s.stirMem c.xdie } : PairSum)
    let n := a.live.length
    let r := if a.cause.isSome then a else a.rows c x
    let stop (e : BitVec 8) : Res := ((r.s.countPairs cid n r).xFate cid e).did
    match r.cause with
    | some e => stop e
    | none =>
      let ps := if c.renorm then renormed r.live else r.live
      let row := (List.range 128).flatMap fun j => leBytes 4 (combineWord ps j).toNat
      match r.s.xWrite c.xdie x (c.rows + 512 * c.taken) row with
      | .error e => stop e
      | .ok t => s.didPosting c.ctx
          (((t.countPairs cid n r).onCmd cid fun c => { c with taken := c.taken + 1 }).xDeliver c 512)

/-! ### Fabric barriers (R377, R379) -/

/-- The capacity update of an expert (R379). -/
def Expert.update (e : Expert) (load : Nat) : Expert :=
  let a : Int := (e.avg : Int) + Int.fdiv ((256 * load : Nat) - (e.avg : Int)) (2 ^ e.k)
  let a := min a.toNat (2 ^ 32 - 1)
  let cap := (e.h * a + 4095) / 4096
  { e with avg := a, cap := max 1 (min cap e.slots) }

/-- The CNT write of an expert (R379, R404). -/
def State.writeCnt (s : State) (n r e : Nat) (x : Expert) (count : Nat) : State :=
  match s.ctx? n with
  | none => s
  | some c =>
    match s.deviceWrite c x.cnt.toNat (leBytes 4 count) with
    | .error code => s.post n { src := 5, why :=
        { code := code, space := 0, addr := x.cnt, detail := BitVec.ofNat 64 (e + r * 65536) } }
    | .ok none => s
    | .ok (some s) => s

/-- Whether an expert is homed at a member of a fabric barrier: in domain 1 this device keeps its own experts. -/
def State.homedAt (s : State) (fb : W32) (x : Expert) : Bool :=
  (members fb).contains x.home && (!fb.msb || decide (x.home = s.selfPeer))

/-- The end of a round (R370): its state is cleared, with the offers that the barrier recorded and the side information that
no block still needs. -/
def State.endRound (s : State) (n dom : Nat) (b : FabBar) : State :=
  let s := s.onCtx n fun c => { c with
    rounds := c.rounds.filter fun y => !(decide (y.dom = dom ∧ y.r = b.r))
    offers := c.offers.filter fun o => !(decide (o.dom = dom ∧ o.r = b.r) && b.recorded.contains o.cid) }
  { s with sideInfo := s.sideInfo.filter fun e => e.stay || !decide (e.ctx = n ∧ e.dom = dom ∧ e.round = b.r) }

/-- Whether a fabric barrier recorded an EXCH of its round (R377): one of this device; in domain 1 also one of another member,
which blocks that came from there show. Whether a member recorded one that sent nothing here is open (log 26). -/
def State.recordedExch (s : State) (c : Ctx) (b : FabBar) : Bool :=
  let others := (members b.fbgrp).any fun m => decide (m ≠ s.selfPeer)
  b.hadExch || (b.fbgrp.msb && others &&
    (!(c.round 1 b.r).offered.isEmpty || decide (Config.freeNat s.free % 2 = 1)))

/-- complete(inst) of R377: with an EXCH of its round the capacities and counts first; then one arrival on each notify
barrier, which carries every member's arrival (R378). -/
def State.completeFbar (s : State) (n : Nat) (c : Ctx) (b : FabBar) : State :=
  let dom := if b.fbgrp.msb then 1 else 0
  let had := s.recordedExch c b
  let s := { s with free := s.free + 1 }
  let s :=
    if !had then s
    else
      let rd := c.round dom b.r
      let mine := c.experts.filter fun e => s.homedAt b.fbgrp e.2
      let s := s.onCtx n fun c => { c with
        experts := c.experts.map fun (e : Nat × Expert) =>
          if s.homedAt b.fbgrp e.2 then (e.1, e.2.update (look 0 rd.offered e.1)) else e }
      let s := mine.foldl (fun s e => s.writeCnt n b.r e.1 e.2 (look 0 rd.admitted e.1)) s
      s.endRound n dom b
  let s := s.onCtx n fun c => { c with fbars := c.fbars.filter fun y => y.id ≠ b.id }
  b.notify.foldl (fun s t => s.deviceArrive t.1 t.2 b.rels) s

/-- Whether every member of a fabric barrier has arrived or is fenced; the members on other devices arrive from
outside, when the step is taken (log 26). -/
def State.allArrived (s : State) (b : FabBar) : Bool :=
  if b.fbgrp.msb then b.arrived.contains s.selfPeer
  else (members b.fbgrp).all fun m => b.arrived.contains m || s.pkg.fencedSock.getLsbD m

/-- A fabric barrier completes (R377). -/
def execFabricBarrierComplete (ctx fid : Nat) (s : State) : Res :=
  match s.ctx? ctx with
  | none => notEnabled
  | some c =>
    match c.fbars.find? fun b => b.id = fid with
    | none => notEnabled
    | some b =>
      if c.phase ≠ .live ∨ !s.allArrived b ∨ (b.recorded.any fun id => (s.cmd? id).isSome) then notEnabled
      else s.didPosting ctx (s.completeFbar ctx c b)

/-! ### Fencing (R381) -/

/-- Entries that stand ADMITTED at endpoints that are gone become FAILED, and the counts of their commands follow; an engine
on a fenced die writes nothing any more. -/
def State.failAdmits (s : State) (gone : Admit → Bool) : State :=
  let rewrite (c : Ctx) (s : State) (a : Admit) : State :=
    if gone a ∧ !s.pkg.fencedSock.getLsbD a.die then
      let s := s.onCmd a.cid fun c => { c with done := c.done - 1, failed := c.failed + 1 }
      match s.xWrite a.die (c.level (((s.cmd? a.cid).map (·.priv)).getD c.priv)) a.at_.toNat (leBytes 4 (Decision.failed.word a.expert)) with
      | .error _ => s
      | .ok s => s
    else s
  let s := s.ctxs.foldl (fun (s : State) e => e.2.rounds.foldl (fun s r => r.admits.foldl (rewrite e.2) s) s) s
  { s with ctxs := s.ctxs.map fun (e : Nat × Ctx) => (e.1, { e.2 with
      rounds := e.2.rounds.map fun r => { r with admits := r.admits.filter fun a => !gone a } }) }

/-- A compute die is fenced while rounds are open: the entries of what was admitted there become FAILED, and the blocks
that its own engine had sent and not settled are gone. -/
def State.failRounds (s : State) (die : Nat) : State :=
  let s := s.failAdmits fun a => decide (a.home = die) && a.far.isNone
  let own (b : Block) : Bool := match s.cmd? b.cid with
    | none => false
    | some c => c.xdie == die
  let fly (b : Block) : Bool := b.state == BState.flying
  let s := { s with blocks := s.blocks.filter fun b => !(own b && fly b) && !(decide (b.home = die) && s.near b && !fly b) }
  s.deliverBlocks s.blocks.length

/-- Peer devices without a route count as fenced (R381). -/
def State.failPeers (s : State) : State :=
  s.failAdmits fun a => a.far.any fun p => (s.pkg.portTo p).isNone

end Sys2Proof.Machine
end

