-- ==== Sys2Proof/Machine/Failure.lean ====
section
/-! DEFINITION. Failures of parts, fencing and double faults (spec/20 R355, R356), lost acknowledgements (R361 to R363),
and the Wilkai links (spec/23 R393, R394). -/

namespace Sys2Proof.Machine

/-- Vector 128: a change of READY, CHREADY, LINKUP or FENCED (R391). -/
def State.changed (s : State) : State := s.interrupt 128

/-! ### Where a context's tables and areas lie (Table 20.3) -/

/-- Whether a range of GDDR 7 touches a channel. -/
def rangeOn (mode ch pa n : Nat) : Bool :=
  decide (pa < gddrTop ∧ n ≠ 0) &&
  (List.range (min 64 ((pa + n - 1) / 4096 - pa / 4096 + 1))).any fun k => channelOf mode (pa / 4096 * 4096 + 4096 * k) = ch

/-- The page tables of a context: base and bytes (R324, R325). -/
def State.tables (s : State) : List Nat → Nat → List (Nat × Nat)
  | [], _ => []
  | len :: lens, table =>
    let n := 8 * 2 ^ len
    let entry (e : Nat × W32) : Option Nat :=
      if e.1 % 2 = 0 ∧ e.2.getLsbD 0 ∧ !e.2.getLsbD 1 then
        some (bitsOf (ofLe (s.homeBytes (table + 4 * e.1) 8)) 16 36 * 65536)
      else none
    (table, n) :: ((cellWords (s.rangeCells table n)).filterMap entry).flatMap fun t => s.tables lens t

/-- Whether a context's page tables, ring, image area or estate area lie on a channel. -/
def State.restsOn (s : State) (d : CtxDesc) (ch : Nat) : Bool :=
  let ranges := s.tables [2, 13, 13, 13] d.root ++ d.carveOuts
  ranges.any fun r => rangeOn d.mode ch r.1 r.2

/-! ### Fencing (R355) -/

/-- The entry of a launch that fencing ends. -/
def fencePosting (l : Launch) (code : Nat) : Posting := launchPosting l 0x31 (0xFF + code * 256)

/-- Whether an uncompleted launch has a team on a die. -/
def State.onDieLaunches (s : State) (die : Nat) : List Launch :=
  s.launches.filter fun l => s.teams.any fun t => t.lid = l.id ∧ t.die = die

/-- Writes of a die's agents that have not been performed at device scope are lost; the others go on. What a copy command had
delivered ends before the first that is lost (R266). -/
def State.loseWrites (s : State) (die : Nat) : State :=
  let safe (w : InWrite) : Bool :=
    w.flat && !w.mca && match s.ctx? w.site.ctx with
      | none => false
      | some c => (scopeObservers c.desc die 4).all fun o => w.arrived.contains o
  let kept (w : InWrite) : Bool := decide (w.site.die ≠ die) || safe w
  let left (c : Cmd) : Nat := (s.inflight.filter fun w => decide (w.cmd = some c.id) && !kept w).foldl
    (fun n w => min n (w.off - c.delivered)) c.moving
  { s with inflight := s.inflight.filter kept, cmds := s.cmds.map fun (c : Cmd) => { c with moving := left c } }

/-- A compute die is fenced (Table 20.3): its groups, its matrix operations and so its teams are gone. -/
def State.fenceDie (s : State) (die : Nat) : State :=
  let s := s.loseWrites die
  let s := { s with
    cores := s.cores.filter fun e => e.1 / 256 ≠ die
    ctxs := s.ctxs.map fun (e : Nat × Ctx) => (e.1, { e.2 with kept := e.2.kept.filter fun k => k.1 / 256 ≠ die })
    dies := drop? s.dies die, tlb := s.tlb.filter fun e => e.die ≠ die, walks := s.walks.filter fun w => w.die ≠ die
    sideInfo := s.sideInfo.filter fun e => e.die ≠ die }
  let s := (s.onDieLaunches die).foldl (fun (s : State) l => (s.post l.ctx (fencePosting l die)).endLaunch l.id 1) s
  let s := ((s.teams.filter fun t => t.die = die).map (·.id)).foldl State.retireTeam s
  let lose (e : Estate) : Estate := match e.level with
    | .core d _ => if d = die then { e with level := .discarded 4 } else e
    | .die d => if d = die then { e with level := .discarded 4 } else e
    | _ => e
  State.failRounds { s with estates := s.estates.map lose } die

/-- The entries of the launches of a context that fencing ends (R355). -/
def State.postFence (s : State) (n code : Nat) : State :=
  (s.launches.filter fun l => decide (l.ctx = n) && !l.finished).foldl (fun s l => s.post n (fencePosting l code)) s

/-- A channel is fenced, and the contexts that rest on it are destroyed (Table 20.3). -/
def State.fenceChannel (s : State) (ch : Nat) : State :=
  if s.pkg.fencedChan.getLsbD ch then s
  else
    let hit := (s.ctxs.filter fun e => s.restsOn e.2.desc ch && e.2.phase != .ending).map (·.1)
    let s := { s with pkg := { s.pkg with
      fencedChan := s.pkg.fencedChan ||| BitVec.ofNat 64 (2 ^ ch)
      chReady := s.pkg.chReady &&& ~~~BitVec.ofNat 64 (2 ^ ch) } }
    hit.foldl (fun s n => s.endCtx n fun s => s.postFence n (64 + ch)) s

/-! ### Wilkai links (R393, R394) -/

/-- A port goes down: each flit that it had not delivered moves to the next up port of its peer's route (R394), the blocks
on their way through it are sent again uncoded, and what a peer without a route holds is failed (R381). -/
def State.linkDown (s : State) (port : Nat) (fenced : Bool) : State :=
  let l := s.link port
  let bit : BitVec 16 := BitVec.ofNat 16 (2 ^ port)
  let away (b : Block) : Bool := !s.near b && decide (s.pkg.portTo b.peer = some port)
  let s := { s with
    blocks := s.blocks.map fun (b : Block) => if away b then { b with coded := false } else b
    pkg := { s.pkg with
      linkUp := s.pkg.linkUp &&& ~~~bit
      fencedLink := if fenced then s.pkg.fencedLink ||| bit else s.pkg.fencedLink
      links := (drop? s.pkg.links port).map fun (e : Nat × Link) => (e.1, { e.2 with out := [] }) } }
  let move (s : State) (p : Nat) : State := match s.pkg.portTo p with
    | none => s
    | some k => s.setLink k ((s.link k).push p)
  ((l.unacked.map (·.2) ++ l.waiting).foldl move s).failPeers

/-- A part is fenced. -/
def State.fencePart (s : State) (p : Part) : State :=
  let s := { s with pkg := { s.pkg with failing := s.pkg.failing.filter fun q => q ≠ p } }
  let down (k : Nat) : State :=
    let bit : BitVec 13 := BitVec.ofNat 13 (2 ^ k)
    { s with pkg := { s.pkg with ready := s.pkg.ready &&& ~~~bit, fencedSock := s.pkg.fencedSock ||| bit } }
  let s := match p with
    | .socket k =>
      if k < 8 then (down k).fenceDie k
      else if k < 10 then ((List.range 32).map (32 * (k - 8) + ·)).foldl State.fenceChannel (down k)
      else ((List.range 8).map (8 * (k - 10) + ·)).foldl (fun s l => s.linkDown l false) (down k)
    | .link k => s.linkDown k true
    | .channel c => s.fenceChannel c
  s.changed

/-! ### Double faults (R356) -/

/-- Every context ends; its work completes FAULT. -/
def State.endAll (s : State) : State := (s.ctxs.map (·.1)).foldl (fun s n => s.endCtx n id) s

/-- The channels that a failed part takes with it. -/
def Part.channels : Part → List Nat
  | .socket k => if 8 ≤ k ∧ k < 10 then (List.range 32).map (32 * (k - 8) + ·) else []
  | .channel c => [c]
  | .link _ => []

/-- The channels of the failed parts no longer answer: what would lie there goes to the orphan log (R356). -/
def State.muteChannels (s : State) : State :=
  let lost := (s.pkg.failing.flatMap Part.channels).foldl (fun (m : BitVec 64) c => m ||| BitVec.ofNat 64 (2 ^ c)) 0
  { s with pkg := { s.pkg with fencedChan := s.pkg.fencedChan ||| lost, chReady := s.pkg.chReady &&& ~~~lost } }

/-- Contexts that a failure has stopped keep the failures that ended them from being over (R356, R365). -/
def State.holdFailing (s : State) (ps : List Part) : State :=
  if s.ctxs.any fun e => e.2.phase == .ending then { s with pkg := { s.pkg with failing := ps } }
  else { s with pkg := { s.pkg with doubled := false } }

/-- A double fault (R356): every context ends, and the failed parts and every compute die are fenced. -/
def State.doubleFault (s : State) : State :=
  let parts := s.pkg.failing ++ ((List.range 8).map fun k => Part.socket k).filter fun p => !s.pkg.failing.contains p
  let parts := parts.filter fun p => s.partLive p && p != .socket 12
  let s := s.muteChannels
  let t := State.endAll { s with pkg := { s.pkg with doubled := true } }
  State.holdFailing (parts.foldl State.fencePart t) s.pkg.failing

/-- A part is fenced, and the contexts that rest on it end; while one of them waits for room the fencing is not over. -/
def State.fence (s : State) (p : Part) : State :=
  let t := s.fencePart p
  t.holdFailing (t.pkg.failing ++ [p])

/-- The device finds that a part has failed and fences it; the Crown's failure, and one before the fencing of an earlier failure
is over, is a double fault (R356), and during a scrub the part is only marked (R398). -/
def State.failNow (s : State) (p : Part) : State :=
  let marked := { s with pkg := { s.pkg with failing := joinNew s.pkg.failing [p] } }
  if s.pkg.crown.state = .scrubbing then marked
  else if p = .socket 12 ∨ s.pkg.failing.any (· ≠ p) then marked.doubleFault
  else s.fence p

/-- A part fails (R355). A failure of the Crown, or one before the fencing of an earlier failure, is a double fault
(R356); during a scrub a part is only marked (R398). -/
def execPartFailure (p : Part) (s : State) : Res :=
  if s.pkg.crown.state = .off ∨ !s.partLive p ∨ s.pkg.failing.contains p then notEnabled
  else
    let marked := { s with pkg := { s.pkg with failing := s.pkg.failing ++ [p] } }
    if s.pkg.crown.state = .scrubbing then marked.did
    else if p = .socket 12 then marked.doubleFault.did
    else if s.pkg.failing.isEmpty then marked.did
    else marked.doubleFault.did

/-- Contexts that a failure has stopped end where their entries and records find room now. -/
def State.endStopped (s : State) : State :=
  ((s.ctxs.filter fun e => e.2.phase == .ending).map (·.1)).foldl (fun s n => s.endCtx n id) s

/-- The device fences a failed part (R355). An MCA write that some observers have and others lack has lost the part's
acknowledgement: the part is fenced with it (R361). The fencing goes on until the contexts that it ends have ended. -/
def execFence (p : Part) (s : State) : Res :=
  if !s.pkg.failing.contains p ∨ s.pkg.crown.state = .scrubbing then notEnabled
  else if s.partLive p then
    if s.inflight.any fun w => w.mca && !w.arrived.isEmpty then notEnabled else (s.fence p).did
  else
    let t := s.endStopped
    if t.ctxs.length = s.ctxs.length ∧ !s.ctxs.isEmpty then notEnabled
    else (State.holdFailing { t with pkg := { t.pkg with failing := t.pkg.failing.filter fun q => q ≠ p } }
      t.pkg.failing).did

/-! ### Lost acknowledgements (R361 to R363) -/

/-- Whether a write is live at its home: the home's channel is not fenced. -/
def InWrite.homeLive (w : InWrite) (s : State) : Bool := !(w.cells.any fun c => s.fencedAt c.1)

/-- The unacknowledged writes of one instruction or of one command; those held back have not come so far (R360). -/
def State.companions (s : State) (w : InWrite) : List InWrite :=
  s.inflight.filter fun x => x.mca && s.clear x &&
    decide (x.site.gid = w.site.gid ∧ x.cmd = w.cmd ∧ x.pc = w.pc ∧ x.region = w.region)

/-- Of writes, the one of the lowest lane. -/
def lowestLane : List InWrite → Option InWrite
  | [] => none
  | w :: ws => match lowestLane ws with
    | none => some w
    | some v => if w.lane ≤ v.lane then some w else some v

/-- The bytes of a write whose acknowledgement was lost count as delivered, and its command does not complete by them
(R363). -/
def State.countLost (s : State) (c : Cmd) : State :=
  if c.moving = 0 ∨ s.mcaPending c then s
  else
    let c := { c with delivered := c.delivered + c.moving }
    (s.onCmd c.id fun _ => c).deliver c c.moving

/-- The entry of a group that has exited (R174, R361): no region of it is open, so it cannot be replayed (R316). -/
def InWrite.posting (w : InWrite) (l : Launch) (why : CauseRec) : Posting :=
  { src := 0, why := why, lseq := l.seq, teampos := w.pos, groupId := w.groupId, die := w.site.die, core := w.core }

/-- The issuing group faults ACKLOST (R361, R362); where it has exited, its launch ends. -/
def State.ackFault (s : State) (gid : Nat) (x : InWrite) : State :=
  let why : CauseRec := { code := 0x18, space := 0, lane := x.lane, addr := x.va, pc := x.pc, region := x.region }
  match s.group? gid with
  | some _ => s.asyncCause gid fun ih => { why with ih := ih }
  | none => match s.launch? x.lid with
    | none => s
    | some l => (s.post l.ctx (x.posting l why)).endLaunch l.id 1

/-- Whether a part has been fenced. -/
def State.partFenced (s : State) (p : Part) : Bool :=
  match p with
  | .socket k => decide (k ≤ 12) && s.pkg.fencedSock.getLsbD k
  | .link k => decide (k < 16) && s.pkg.fencedLink.getLsbD k
  | .channel c => decide (c < 64) && s.pkg.fencedChan.getLsbD c

/-- Whether the acknowledgement of a part for a write can be lost: the part is live, or it has been fenced after the write had
reached others. -/
def State.mayLose (s : State) (w : InWrite) (p : Part) : Bool := s.partLive p || (s.partFenced p && !w.arrived.isEmpty)

/-- The acknowledgement of a part is lost (R361): the part is fenced, where it is not yet, the write is performed where its home
is live, and its group or its command ends ACKLOST. -/
def execAcklost (wid : Nat) (p : Part) (s : State) : Res :=
  match s.inflight.find? fun w => w.id = wid with
  | none => notEnabled
  | some w =>
    if !w.mca || !s.clear w || !s.mayLose w p then notEnabled
    else if s.partLive p ∧ (p = .socket 12 ∨ s.pkg.failing.any (· ≠ p)) then
      (State.doubleFault { s with pkg := { s.pkg with failing := joinNew s.pkg.failing [p] } }).did
    else
      let mine := s.companions w
      let t := s
      let s := if s.partLive p then s.fence p else s
      let left := s.inflight.filter fun x => mine.any fun y => y.id = x.id
      let settle (s : State) (x : InWrite) : State :=
        if x.homeLive s then s.landWrite x.id else { s with inflight := s.inflight.filter fun y => y.id ≠ x.id }
      let s := left.foldl settle s
      match w.cmd, w.site.gid, lowestLane mine with
      | some cid, _, _ =>
        let s := match s.cmd? cid with
          | none => s
          | some c => if w.homeLive s then s.countLost c else s
        t.didPosting w.site.ctx
          (s.onCmd cid fun c => { c with fate := some { code := 0x18, space := 0, addr := w.va }, moving := 0 })
      | none, some gid, some x =>
        let s := { s with pend := s.pend.filter fun q => !(q.after.any fun a => mine.any fun y => y.id = a) }
        s.didPosting w.site.ctx (s.ackFault gid x)
      | _, _, _ => s.did

/-! ### Flits -/

/-- The sender retransmits from its oldest flit; after 16 retransmissions without progress the link goes down and is
fenced (R393). -/
def State.resend (s : State) (port : Nat) : Res :=
  let l := s.link port
  if l.retries = 16 then (s.failNow (.link port)).did
  else (s.setLink port { l with retries := l.retries + 1, out := l.unacked.map fun q => .data q.1 true }).did

/-- A flit reaches a port (R393): data in order are taken and acknowledged, a failed check is answered with a negative
acknowledgement, and acknowledgements are cumulative. -/
def execWilkaiFlit (port : Nat) (f : Flit) (s : State) : Res :=
  let l := s.link port
  if 16 ≤ port ∨ !s.pkg.linkUp.getLsbD port then notEnabled
  else match f with
    | .data seq good =>
      let l := if good ∧ seq = l.expect then { l with expect := l.expect + 1 } else l
      (s.setLink port { l with out := [if good then .ack (l.expect - 1) else .nak l.expect] }).did
    | .ack seq =>
      if l.unacked.any fun q => q.1 = seq then
        let rest := (l.unacked.dropWhile fun q => decide (q.1 ≠ seq)).drop 1
        (s.setLink port (Link.send { l with unacked := rest, waiting := [], retries := 0 } l.waiting)).did
      else (s.setLink port { l with out := [] }).did
    | .nak _ => if l.unacked.isEmpty then (s.setLink port { l with out := [] }).did else s.resend port

/-- No acknowledgement has arrived in time (R393). -/
def execRetransmitTimeout (port : Nat) (s : State) : Res :=
  if 16 ≤ port ∨ !s.pkg.linkUp.getLsbD port ∨ (s.link port).unacked.isEmpty then notEnabled else s.resend port

end Sys2Proof.Machine
end

