-- ==== Sys2Proof/Machine/Shake.lean ====
section
/-! DEFINITION. SHAKE256 (spec/23 R395 names it; FIPS 202 defines it): the permutation on 25 lanes of 64 bits, and the sponge
of rate 136 bytes. Log 21. -/

namespace Sys2Proof.Machine

/-- Rotation of a 64-bit lane to the left. -/
def rotl64 (x n : Nat) : Nat := (x * 2 ^ n) % 2 ^ 64 + x / 2 ^ (64 - n)

/-- A lane of a state. -/
def laneOf (st : List Nat) (x y : Nat) : Nat := st.getD (x % 5 + 5 * (y % 5)) 0

/-- A state from its lanes, x fastest. -/
def lanesBy (f : Nat → Nat → Nat) : List Nat := (List.range 25).map fun k => f (k % 5) (k / 5)

/-- Step t of the walk that ρ and π share takes the lane at (x, y), turned by the triangular number of t + 1, to
(y, 2x + 3y): places 5y + x, and the turn. -/
structure LaneMove where
  src : Nat
  dst : Nat
  turn : Nat
  deriving DecidableEq, Repr

/-- The walk from (x, y) on, with the turn that comes next and its growth. -/
def laneWalk : Nat → Nat → Nat → Nat → Nat → List LaneMove
  | 0, _, _, _, _ => []
  | fuel + 1, x, y, turn, grow =>
    let z := (2 * x + 3 * y) % 5
    ⟨5 * y + x, 5 * z + y, turn % 64⟩ :: laneWalk fuel y z (turn + grow) (grow + 1)

/-- The register that makes the constants of ι, shifted once: x^8 + x^6 + x^5 + x^4 + 1. -/
def iotaShift (r : Nat) : Nat := if r < 128 then 2 * r else (2 * r - 256) ^^^ 0x71

/-- A round's constant from the register before it, and the register after it: bit 2^j − 1 is the output of shift j of seven. -/
def iotaConstant : Nat → Nat → Nat → Nat × Nat
  | 0, _, r => (0, r)
  | fuel + 1, bit, r =>
    let rest := iotaConstant fuel (2 * bit * bit) (iotaShift r)
    (rest.1 + if r % 2 = 1 then bit else 0, rest.2)

/-- The constants of `n` rounds. -/
def iotaConstants : Nat → Nat → List Nat
  | 0, _ => []
  | n + 1, r =>
    let k := iotaConstant 7 1 r
    k.1 :: iotaConstants n k.2

/-- The step θ. -/
def thetaStep (st : List Nat) : List Nat :=
  let c := (List.range 5).map fun x => (List.range 5).foldl (fun a y => a ^^^ laneOf st x y) 0
  let d := (List.range 5).map fun x => c.getD ((x + 4) % 5) 0 ^^^ rotl64 (c.getD ((x + 1) % 5) 0) 1
  lanesBy fun x y => laneOf st x y ^^^ d.getD x 0

/-- The steps ρ and π; the lane at (0, 0) stays. -/
def rhoPiStep (st : List Nat) : List Nat :=
  (laneWalk 24 1 0 1 2).foldl (fun out m => out.set m.dst (rotl64 (st.getD m.src 0) m.turn)) st

/-- The step χ. -/
def chiStep (st : List Nat) : List Nat :=
  lanesBy fun x y => laneOf st x y ^^^ ((laneOf st (x + 1) y ^^^ (2 ^ 64 - 1)) &&& laneOf st (x + 2) y)

/-- A round with its constant. -/
def keccakRound (st : List Nat) (rc : Nat) : List Nat :=
  match chiStep (rhoPiStep (thetaStep st)) with
  | [] => []
  | a :: as => (a ^^^ rc) :: as

/-- The permutation. -/
def keccakF (st : List Nat) : List Nat := (iotaConstants 24 1).foldl keccakRound st

/-- Bytes of a block that the sponge takes or gives. -/
abbrev shakeRate : Nat := 136

/-- A message with its padding: whole blocks. -/
def shakePad (bs : List Byte) : List Byte :=
  let n := shakeRate - bs.length % shakeRate
  bs ++ if n = 1 then [0x9F] else 0x1F :: List.replicate (n - 2) 0 ++ [0x80]

/-- A block enters the state. -/
def absorbBlock (st : List Nat) (block : List Byte) : List Nat :=
  keccakF ((List.range 25).map fun k => st.getD k 0 ^^^ ofLe ((block.drop (8 * k)).take 8))

/-- The state after a message. -/
def shakeAbsorb (bs : List Byte) : List Nat :=
  let p := shakePad bs
  (List.range (p.length / shakeRate)).foldl (fun st k => absorbBlock st ((p.drop (shakeRate * k)).take shakeRate))
    (List.replicate 25 0)

/-- Output blocks, one after the other. -/
def shakeSqueeze : Nat → List Nat → List Byte
  | 0, _ => []
  | k + 1, st => (List.range 17).flatMap (fun i => leBytes 8 (st.getD i 0)) ++ shakeSqueeze k (keccakF st)

/-- SHAKE256 with `n` bytes of output. -/
def shake256 (n : Nat) (bs : List Byte) : List Byte :=
  (shakeSqueeze ((n + shakeRate - 1) / shakeRate) (shakeAbsorb bs)).take n

end Sys2Proof.Machine
end

