-- ==== Sys2Proof/Machine/Xmss.lean ====
section
/-! DEFINITION. Signatures of the parameter set XMSS-SHAKE256_20_256 (spec/23 R395, R399 name it; NIST SP 800-208 and
RFC 8391 define it): n = 32, w = 16, height 20. Log 21. -/

namespace Sys2Proof.Machine

/-- Bytes of a number, highest first. -/
def beBytes (n x : Nat) : List Byte := (leBytes n x).reverse

/-- The number that bytes denote, highest first. -/
def ofBe (bs : List Byte) : Nat := ofLe bs.reverse

/-- A function of the family: F is 0, H is 1, H_msg is 2, PRF is 3, PRF_keygen is 4. -/
def xmssHash (which : Nat) (key msg : List Byte) : List Byte := shake256 32 (beBytes 32 which ++ key ++ msg)

/-- An address of the single tree: type, and its four words. -/
def xmssAddr (type a b c d : Nat) : List Byte :=
  List.replicate 12 0 ++ beBytes 4 type ++ beBytes 4 a ++ beBytes 4 b ++ beBytes 4 c ++ beBytes 4 d

/-- The hash of two nodes; `addr` takes the word keyAndMask. -/
def randHash (seed : List Byte) (addr : Nat → List Byte) (l r : List Byte) : List Byte :=
  let mask (k : Nat) : List Byte := xmssHash 3 seed (addr k)
  xmssHash 1 (mask 0) (xorBytes l (mask 1) ++ xorBytes r (mask 2))

/-- `steps` steps of chain `i` of key pair `ots`, from step `start` on. -/
def wotsChain (seed : List Byte) (ots i start steps : Nat) (x : List Byte) : List Byte :=
  (List.range steps).foldl (fun x j =>
    let addr (k : Nat) : List Byte := xmssAddr 0 ots i (start + j) k
    xmssHash 0 (xmssHash 3 seed (addr 0)) (xorBytes x (xmssHash 3 seed (addr 1)))) x

/-- The 67 digits of a 32-byte message: its nibbles and those of their checksum. -/
def wotsDigits (m : List Byte) : List Nat :=
  let ds := (List.range 64).map fun i => bitsOf (m.getD (i / 2) 0).toNat (if i % 2 = 0 then 4 else 0) 4
  let sum := ds.foldl (fun a d => a + (15 - d)) 0
  ds ++ [bitsOf sum 8 4, bitsOf sum 4 4, bitsOf sum 0 4]

/-- One level of an L-tree. -/
def ltreeLevel (seed : List Byte) (leaf height : Nat) : Nat → List (List Byte) → List (List Byte)
  | _, [] => []
  | _, [x] => [x]
  | k, x :: y :: rest =>
    randHash seed (xmssAddr 1 leaf height k) x y :: ltreeLevel seed leaf height (k + 1) rest

/-- The leaf of a one-time public key: the root of its L-tree, of seven levels over 67 nodes. -/
def ltree (seed : List Byte) (leaf : Nat) (pk : List (List Byte)) : List Byte :=
  ((List.range 7).foldl (fun xs h => ltreeLevel seed leaf h 0 xs) pk).headD []

/-- The one-time public key that a one-time signature of a message leads to. -/
def wotsPkFromSig (seed : List Byte) (ots : Nat) (sig : List (List Byte)) (m : List Byte) : List (List Byte) :=
  let ds := wotsDigits m
  (List.range 67).map fun i => wotsChain seed ots i (ds.getD i 0) (15 - ds.getD i 0) (sig.getD i [])

/-- The root that a leaf and its authentication path lead to. -/
def rootFrom (seed : List Byte) (idx : Nat) (leaf : List Byte) (auth : List (List Byte)) : List Byte :=
  (List.range 20).foldl (fun node k =>
    let addr := xmssAddr 2 0 k (idx / 2 ^ (k + 1))
    if idx / 2 ^ k % 2 = 0 then randHash seed addr node (auth.getD k []) else randHash seed addr (auth.getD k []) node) leaf

/-- `k` pieces of 32 bytes. -/
def piecesOf32 (k : Nat) (bs : List Byte) : List (List Byte) := (List.range k).map fun i => (bs.drop (32 * i)).take 32

/-- The digest that is signed. -/
def xmssDigest (r root : List Byte) (idx : Nat) (msg : List Byte) : List Byte := xmssHash 2 (r ++ root ++ beBytes 32 idx) msg

/-- A public key: root and seed. -/
structure XmssKey where
  root : List Byte
  seed : List Byte
  deriving DecidableEq, Repr

/-- Whether a signature of 2,820 bytes verifies. -/
def xmssVerify (key : XmssKey) (msg sig : List Byte) : Bool :=
  let idx := ofBe (sig.take 4)
  let m := xmssDigest ((sig.drop 4).take 32) key.root idx msg
  let pk := wotsPkFromSig key.seed idx (piecesOf32 67 (sig.drop 36)) m
  decide (sig.length = 2820) && rootFrom key.seed idx (ltree key.seed idx pk) (piecesOf32 20 (sig.drop 2180)) == key.root

/-- A private key: the seed of the one-time keys, the key of the randomizer, the public seed. -/
structure XmssSecret where
  skSeed : List Byte
  skPrf : List Byte
  seed : List Byte

/-- The start of chain `i` of key pair `ots`. -/
def XmssSecret.chainKey (k : XmssSecret) (ots i : Nat) : List Byte := xmssHash 4 k.skSeed (k.seed ++ xmssAddr 0 ots i 0 0)

/-- The node of the tree at a height: the leaves are at height 0. -/
def XmssSecret.node (k : XmssSecret) : Nat → Nat → List Byte
  | 0, i => ltree k.seed i ((List.range 67).map fun c => wotsChain k.seed i c 0 15 (k.chainKey i c))
  | h + 1, i => randHash k.seed (xmssAddr 2 0 h i) (k.node h (2 * i)) (k.node h (2 * i + 1))

/-- The sibling of a node. -/
def sibling (i : Nat) : Nat := if i % 2 = 0 then i + 1 else i - 1

/-- The public key of a private key. -/
def XmssSecret.key (k : XmssSecret) : XmssKey := ⟨k.node 20 0, k.seed⟩

/-- The signature of a message with leaf `idx`: 2,820 bytes. -/
def XmssSecret.sign (k : XmssSecret) (idx : Nat) (msg : List Byte) : List Byte :=
  let r := xmssHash 3 k.skPrf (beBytes 32 idx)
  let ds := wotsDigits (xmssDigest r k.key.root idx msg)
  beBytes 4 idx ++ r
  ++ ((List.range 67).flatMap fun i => wotsChain k.seed idx i 0 (ds.getD i 0) (k.chainKey idx i))
  ++ (List.range 20).flatMap fun h => k.node h (sibling (idx / 2 ^ h))

end Sys2Proof.Machine
end

