-- ==== Sys2Proof/Machine/Crown.lean ====
section
/-! DEFINITION. The Crown: boot (spec/23 R395), readiness (R397), the lease-end scrub (R398), attestation (R399), power
(R398, R400). -/

namespace Sys2Proof.Machine

def State.onCrown (s : State) (f : Crown → Crown) : State := { s with pkg := { s.pkg with crown := f s.pkg.crown } }

/-! ### Measurements (R395) -/

/-- The digest of a measurement: SHAKE256 with 64 bytes. -/
def digest (image : List Byte) : List Byte := shake256 64 image

/-- A public key as an image or the ROM carries it: the number of XMSS-SHAKE256_20_256, root and seed; a key of another
parameter set is not accepted (R395, log 21). -/
def parseKey (bs : List Byte) : Option XmssKey :=
  if bs.length = 68 ∧ ofBe (bs.take 4) = 0x12 then some ⟨(bs.drop 4).take 32, bs.drop 36⟩ else none

/-- Whether the signature of an image verifies with a key (R395). -/
def signedBy (key image : List Byte) : Bool :=
  (parseKey key).any fun k => xmssVerify k (Config.signedPart image) (Config.signaturePart image)

/-- The key of an image that is signed by the key that its header carries. -/
def customerKey (image : List Byte) : Option (List Byte) := (Config.headerKey image).filter fun k => signedBy k image

/-- The entry of a measured image, with the stage of R395. -/
def measure (stage : Nat) (image : List Byte) : AttEntry :=
  if signedBy Config.plecorKey image then ⟨stage, 0, digest image, List.replicate 64 0⟩
  else match customerKey image with
    | some key => ⟨stage, 1, digest image, digest key⟩
    | none => ⟨stage, 2, digest image, List.replicate 64 0⟩

/-- Step 4 of R395: whether a device firmware image is accepted. -/
def firmwareOk (image : List Byte) : Bool := signedBy Config.plecorKey image || Config.openFuse

/-- Step 2 of R395: whether the Crown firmware runs. -/
def crownRuns : Bool := signedBy Config.plecorKey Config.crownImage

/-- Step 2 of R395: the measurement of the Crown firmware. -/
def State.measureCrown (s : State) : State := s.onCrown fun c => { c with log := c.log ++ [measure 2 Config.crownImage] }

/-- Step 4 of R395 for an image. -/
def State.loadFirmware (s : State) (image : List Byte) : State :=
  s.onCrown fun c => { c with
    log := c.log ++ [measure 4 image], state := if firmwareOk image then .running else .recovery }

/-- READY[12]: the Crown is usable. -/
def State.crownReady (s : State) : State := { s with pkg := { s.pkg with ready := s.pkg.ready ||| 0x1000 } }

/-- Steps 2 to 4 of R395, but for the readiness of the other dies. Once a scrub has completed, the firmware in the flash
never runs again: the package waits in RECOVERY for an image in STAGE (R398). -/
def State.boot (s : State) : State :=
  let s := s.measureCrown
  let recovery (s : State) : State := s.onCrown fun c => { c with state := .recovery }
  if !crownRuns then recovery s
  else if s.pkg.crown.scrubDone = 0 then s.crownReady.loadFirmware Config.flashImage
  else recovery s.crownReady

/-! ### Signatures (R399) -/

/-- The leaf index that the next signature carries. -/
def Crown.leafIndex (c : Crown) : Nat := if c.leaf < 1048576 then c.leaf else 0xFFFFFFFF

/-- The identity key (R399). -/
def identityKey : XmssSecret := ⟨Config.identitySeed, Config.identityPrf, Config.identityPublicSeed⟩

/-- The signature of the next leaf over bytes, of 2,820 bytes; none once every leaf has been used. -/
def Crown.sign (c : Crown) (bs : List Byte) : List Byte :=
  if c.leaf < 1048576 then identityKey.sign c.leaf bs else []

/-- The leaf counter moves on before a signature. -/
def Crown.useLeaf (c : Crown) : Crown := if c.leaf < 1048576 then { c with leaf := c.leaf + 1 } else c

/-- The bytes of an attestation-log entry (log 21). -/
def AttEntry.bytes (e : AttEntry) : List Byte := leBytes 4 e.stage ++ leBytes 4 e.signer ++ e.digest ++ e.keyDigest

/-- An attestation report (R399). -/
def Crown.reportOn (c : Crown) (nonce : List Byte) : List Byte :=
  let body := nonce ++ (c.log.flatMap AttEntry.bytes) ++ leBytes 8 c.scrubStart ++ leBytes 8 c.scrubDone
    ++ leBytes 8 c.leafIndex
  body ++ c.sign body

/-- A report is made (R399, R391). -/
def State.attest (s : State) (nonce : List Byte) : State :=
  (s.onCrown fun c => { c.useLeaf with report := c.reportOn nonce }).interrupt 129

/-! ### The scrub (R398) -/

/-- Parts that failed the scrub, as the record's bitmap. -/
def Pkg.failedWord (p : Pkg) : Nat :=
  let any := p.fencedSock ≠ 0 ∨ p.fencedLink ≠ 0 ∨ p.fencedChan ≠ 0
  (if any then 1 else 0) + p.fencedSock.toNat * 2 ^ 32

/-- The scrub completion record (Table 23.5). -/
def Pkg.scrubRecord (p : Pkg) : List Byte :=
  let c := p.crown
  let body := leBytes 8 p.failedWord ++ leBytes 8 c.scrubStart ++ leBytes 8 c.scrubDone ++ leBytes 8 c.leafIndex
    ++ digest Config.romImage ++ digest Config.crownImage ++ c.nonce
  body ++ c.sign body

/-- The end of a scrub: failed parts are fenced, the counter moves, the record is signed, and RECOVERY is entered. -/
def State.scrubEnd (s : State) : State :=
  let s := s.pkg.failing.foldl State.fencePart s
  let s := s.onCrown fun c => { c with scrubDone := c.scrubDone + 1 }
  let record := s.pkg.scrubRecord
  (s.onCrown fun c => { c.useLeaf with record := record, state := .recovery }).interrupt 129

/-- Whether every function is ready or fenced, which ends the bring-up within a scrub. -/
def Pkg.settled (p : Pkg) : Bool :=
  ((List.range 12).all fun k => p.ready.getLsbD k || p.fencedSock.getLsbD k)
  && ((List.range 64).all fun k => p.chReady.getLsbD k || p.fencedChan.getLsbD k)
  && (List.range 16).all fun k => p.linkUp.getLsbD k || p.fencedLink.getLsbD k || p.fencedSock.getLsbD (10 + k / 8)

/-- A scrub ends once its bring-up has settled. -/
def State.scrubCheck (s : State) : State :=
  if s.pkg.crown.state = .scrubbing ∧ s.pkg.settled then s.scrubEnd else s

/-- The package with every die but the Crown held in reset: no context, no register of a die. The model's own counters
and the traces of what left the package stay. -/
def State.held (s : State) (mem : List Host.Cell) (pkg : Pkg) : State :=
  { mem := mem, irqs := s.irqs, reply := s.reply, agenda := s.agenda, free := s.free, tick := s.tick
    nextId := s.nextId, pkg := pkg }

/-- Host memory (Table 12.2), which no reset of the package touches. -/
def hostCells (mem : List Host.Cell) : List Host.Cell := mem.filter fun c => hostBase ≤ c.1

/-- A scrub runs: every element is zero, the logs and the fences are clear, and the bring-up starts. -/
def State.scrub (s : State) : State :=
  let crown := { s.pkg.crown with state := .scrubbing, log := [] }
  let s := ((s.held (hostCells s.mem) { crown := crown }).measureCrown)
  if crownRuns then s.crownReady.changed else s.changed.scrubEnd

/-- A trigger of the scrub; one that arrives during a scrub is ignored. -/
def State.recover (s : State) (nonce : List Byte) : Res :=
  match s.pkg.crown.state with
  | .off => notEnabled
  | .scrubbing => .next s
  | _ => (State.scrub (s.onCrown fun c => { c with scrubStart := c.scrubStart + 1, nonce := nonce })).did

/-- The response to a sideband command: 1 accepted, 0 ignored (Table 23.4, log 21). -/
def State.respondI3c (s : State) (accepted : Bool) : State := { s with reply := [if accepted then 1 else 0] }

/-- I3C RECOVER (Table 23.4). -/
def execRecover (nonce : List Byte) (s : State) : Res :=
  if nonce.length = 32 then (s.respondI3c (decide (s.pkg.crown.state ≠ .scrubbing))).recover nonce else notEnabled

/-- The RECOVER_N pin (R398). -/
def execRecoverN (s : State) : Res := s.recover (List.replicate 32 0)

/-! ### Power -/

/-- The ROM runs: it finishes an interrupted scrub before any firmware, or boots. -/
def State.rom (s : State) : State := if s.pkg.crown.scrubDone < s.pkg.crown.scrubStart then s.scrub else s.boot.changed

/-- Power-good (R395). -/
def execPowerGood (s : State) : Res :=
  if s.pkg.crown.state ≠ .off then notEnabled
  else (State.rom (s.onCrown fun c => { c with log := [] })).did

/-- The supply is lost (R398): the fuse counters stay, and so do what only the scrub clears and what the Crown has
signed. -/
def execPowerLoss (s : State) : Res :=
  let p := s.pkg
  if p.crown.state = .off then notEnabled
  else
    let crown := { p.crown with state := .off, log := [] }
    .next (s.held (hostCells s.mem)
      { crown := crown, event := p.event, orphans := p.orphans, orphanProd := p.orphanProd, orphanCons := p.orphanCons })

/-- The package as its reset leaves it (R400): nothing is ready, nothing is fenced, and PREADY[63] is set. -/
def Pkg.afterReset (p : Pkg) : Pkg :=
  { p with
    mode := none, ready := 0, chReady := 0, linkUp := 0, fencedSock := 0, fencedLink := 0, fencedChan := 0
    event := true, failing := [], doubled := false, links := [] }

/-- A power or cooling limit is exceeded (R400): every context ends as in a double fault, and once each has ended the
package is reset; meanwhile a context whose records and entries find no room waits for it (R365). -/
def execLimitExceeded (s : State) : Res :=
  if s.pkg.crown.state = .off then notEnabled
  else
    let t := State.endAll { s with pkg := { s.pkg with doubled := true, event := true } }
    if t.ctxs.isEmpty then (t.held t.mem t.pkg.afterReset).rom.did
    else if s.pkg.doubled ∧ t.ctxs.length = s.ctxs.length then notEnabled
    else (if s.pkg.event then t else t.changed).did

/-! ### Readiness (R397) -/

/-- The part that a function belongs to. -/
def funcPart : Func → Part
  | .die k => .socket k
  | .channel c => .channel c
  | .link k => .link k

/-- Whether a function is usable. -/
def Pkg.usable (p : Pkg) : Func → Bool
  | .die k => p.ready.getLsbD k
  | .channel c => p.chReady.getLsbD c
  | .link k => p.linkUp.getLsbD k

/-- Whether the die that a function stands on is ready, where it stands on another one. -/
def Pkg.hostReady (p : Pkg) : Func → Bool
  | .die _ => true
  | .channel c => p.ready.getLsbD (8 + c / 32)
  | .link k => p.ready.getLsbD (10 + k / 8)

/-- Whether a function has been released from reset by the running Crown, is not usable yet and is not fenced. -/
def State.coming (s : State) (f : Func) : Bool :=
  let known := match f with
    | .die k => decide (k < 12)
    | _ => true
  known && s.pkg.crown.state != .off && s.pkg.ready.getLsbD 12 && s.partLive (funcPart f) && !s.pkg.usable f

/-- A function becomes usable (R397); one on another die depends on that die (R396). -/
def execFunctionReady (f : Func) (s : State) : Res :=
  if !s.coming f || !s.pkg.hostReady f then notEnabled
  else
    let p := s.pkg
    let p : Pkg := match f with
      | .die k => { p with ready := p.ready ||| BitVec.ofNat 13 (2 ^ k) }
      | .channel c => { p with chReady := p.chReady ||| BitVec.ofNat 64 (2 ^ c) }
      | .link k => { p with linkUp := p.linkUp ||| BitVec.ofNat 16 (2 ^ k) }
    (State.changed { s with pkg := p }).scrubCheck.did

/-- A function that is not usable within its bound is fenced (R397), in a scrub as part of its bring-up; before the fencing of
an earlier failure is over that is a double fault (R356). -/
def execReadinessTimeout (f : Func) (s : State) : Res :=
  if !s.coming f then notEnabled
  else if s.pkg.crown.state = .scrubbing then (s.fencePart (funcPart f)).scrubCheck.did
  else (s.failNow (funcPart f)).did

/-! ### The sideband (Table 23.4) -/

/-- PREADY and FENCED (Table 23.2). -/
def Pkg.preadyWord (p : Pkg) : Nat := p.ready.toNat + if p.event then 2 ^ 63 else 0
def Pkg.fencedWord (p : Pkg) : Nat := p.fencedSock.toNat + p.fencedLink.toNat * 2 ^ 32

/-- The state code of STATUS. -/
def PkgState.code : PkgState → Nat
  | .scrubbing => 1
  | .recovery => 2
  | _ => 0

/-- STATUS (Table 23.4). -/
def execStatus (s : State) : Res :=
  if s.pkg.crown.state = .off then notEnabled
  else .next { s with reply := leBytes 8 s.pkg.preadyWord ++ leBytes 8 s.pkg.fencedWord ++ leBytes 8 s.pkg.crown.state.code }

/-- GETRECORD (Table 23.4). -/
def execGetrecord (s : State) : Res :=
  if s.pkg.crown.state = .off then notEnabled else .next { s with reply := s.pkg.crown.record }

/-- I3C ATTEST (R399). -/
def execI3cAttest (nonce : List Byte) (s : State) : Res :=
  if s.pkg.crown.state = .off ∨ nonce.length ≠ 32 then notEnabled
  else
    let s := s.attest nonce
    State.did { s with reply := s.pkg.crown.report }

/-- LOADFW (R398): in RECOVERY only; step 4 of R395 measures the image in STAGE. -/
def execLoadfw (len : Nat) (s : State) : Res :=
  if s.pkg.crown.state = .off then notEnabled
  else if s.pkg.crown.state ≠ .recovery ∨ !s.pkg.ready.getLsbD 12 ∨ 0x1000000 < len then .next (s.respondI3c false)
  else (State.respondI3c (s.loadFirmware (s.homeBytes 0 len)) true).did

end Sys2Proof.Machine
end

