-- ==== Sys2Proof/Machine/HostPort.lean ====
section
/-! DEFINITION. What the host and peer devices do (spec/23 R388 to R390, R399; spec/18 R344): registers, memory windows,
SUPMASK, ATTEST. -/

namespace Sys2Proof.Machine

/-- Whether some PCI Express port is up. -/
def State.anyPort (s : State) : Bool := s.portUp 0 || s.portUp 1

/-- SUPMASK (R390): the bit of a live context stays. -/
def execSupmask (value : W64) (s : State) : Res :=
  if !s.anyPort then notEnabled
  else
    let live : W64 := s.ctxs.foldl (fun m e => m ||| BitVec.ofNat 64 (2 ^ e.1)) 0
    State.did { s with pkg := { s.pkg with supmask := (s.pkg.supmask &&& live) ||| (value &&& ~~~live) } }

/-- ATTEST (R399); a write of another size is discarded (R388). -/
def execAttest (nonce : List Byte) (s : State) : Res :=
  if !s.anyPort then notEnabled
  else if nonce.length ≠ 32 then .next s
  else (s.attest nonce).did

/-! ### Registers (Tables 23.1, 23.2) -/

/-- Ports that have steps of their own: offset and size. -/
def ctxPorts : List (Nat × Nat) := [(0, 64), (0x200, 32), (0x300, 32)]
def mgmtPorts : List (Nat × Nat) := [(0, 256), (0x100, 4), (0x108, 8), (0x400, 32)]

/-- Whether a write of the fault response port is REPLAY, END or CONTINUE (R320); its other bits are ignored (R5). -/
def isResponse (bs : List Byte) : Bool := decide (recBits bs 4 0 2 < 3)

/-- A write to the context aperture through a port: MWBASE, whose bits [31:0] are zero (R5); everything else without a step of
its own is discarded. One that meets the launch port is refused, so that the next read of the port gives 0 (R183). -/
def State.writePage (s : State) (port offset : Nat) (bs : List Byte) : Res :=
  let n := offset / 65536
  let o := offset % 65536
  if ctxPorts.contains (o, bs.length) ∨ (o = 0x100 ∧ bs.length = 16 ∧ isResponse bs) then notEnabled
  else if o = 0x400 ∧ bs.length = 8 ∧ n < 64 then
    let base : W64 := BitVec.ofNat 64 (recNat bs 4 4 * 2 ^ 32)
    State.did { s with pkg := { s.pkg with mwBase := keep 0 s.pkg.mwBase n base } }
  else if o < 64 ∧ bs ≠ [] ∧ (s.ctx? n).isSome then (s.setPortReply port n 0).did
  else .next s

/-- A write to the management aperture: ROUTE, SELF, ORPHANCONS, and STAGE in RECOVERY. -/
def State.writeMgmt (s : State) (o : Nat) (bs : List Byte) : Res :=
  let x := recNat bs 0 8
  if mgmtPorts.contains (o, bs.length) then notEnabled
  else if 0x200 ≤ o ∧ o < 0x240 ∧ o % 4 = 0 ∧ bs.length = 4 then
    let r : W32 := BitVec.ofNat 32 x &&& 0x8000FFFF
    (State.failPeers { s with pkg := { s.pkg with route := keep 0 s.pkg.route ((o - 0x200) / 4) r } }).did
  else if o = 0x240 ∧ bs.length = 4 then State.did { s with pkg := { s.pkg with self := BitVec.ofNat 32 (x % 16) } }
  else if o = 0x8008 ∧ bs.length = 8 then (State.drain { s with pkg := { s.pkg with orphanCons := x } }).did
  else if 0x1000000 ≤ o ∧ o + bs.length ≤ 0x2000000 ∧ s.pkg.crown.state = .recovery then
    (s.writeRaw (o - 0x1000000) bs).did
  else .next s

/-- A host write to a register without a step of its own (R388). -/
def execHostRegisterWrite (port offset : Nat) (ctxPage : Bool) (bytes : List Byte) (s : State) : Res :=
  if !s.portUp port then notEnabled else if ctxPage then s.writePage port offset bytes else s.writeMgmt offset bytes

/-! ### Reads of registers (Tables 23.1, 23.2) -/

/-- Bytes of a field of `n` bytes, zeros after what it holds. -/
def fieldBytes (n : Nat) (bs : List Byte) : List Byte := (bs ++ List.replicate n 0).take n

/-- What a read of the context aperture through a port returns (R388): the number that the latest write to the launch port
got, the debugger's reply, and the registers; zero of every size and offset that Table 23.1 does not list. -/
def State.readPage (s : State) (port offset len : Nat) : List Byte :=
  let n := offset / 65536
  let reg (f : Ctx → Nat) : Nat := ((s.ctx? n).map f).getD 0
  match offset % 65536, len with
  | 0, 64 => fieldBytes 64 (leBytes 8 (look 0 s.pkg.portReply (port * 64 + n)))
  | 0x300, 16 => fieldBytes 16 (look [] s.pkg.debugReply n)
  | 0x400, 8 => leBytes 8 (look 0 s.pkg.mwBase n).toNat
  | 0x1000, 8 => leBytes 8 (reg (·.acc))
  | 0x1008, 8 => leBytes 8 (reg (·.fin))
  | 0x1010, 8 => leBytes 8 (reg (·.produced))
  | 0x1018, 8 => leBytes 8 (look 0 s.pkg.werr n).toNat
  | _, _ => List.replicate len 0

/-- The latest scrub completion record, 3,012 bytes, and the latest report, 8,192 bytes (Table 23.2). -/
def Pkg.recordField (p : Pkg) : List Byte := fieldBytes 3012 p.crown.record
def Pkg.reportField (p : Pkg) : List Byte := fieldBytes 8192 p.crown.report

/-- What a read of the management aperture returns (R388, R390): of the fields of many bytes any part. -/
def State.readMgmt (s : State) (o len : Nat) : List Byte :=
  let p := s.pkg
  let inField (base n : Nat) : Bool := decide (base ≤ o ∧ o + len ≤ base + n)
  if inField 0x2000 3012 then (p.recordField.drop (o - 0x2000)).take len
  else if inField 0x4000 8192 then (p.reportField.drop (o - 0x4000)).take len
  else if inField 0x100000 524288 then (List.range len).map fun k => p.orphanByte (o - 0x100000 + k)
  else if inField 0x1000000 0x1000000 then s.homeBytes (o - 0x1000000) len
  else if inField 0x200 64 ∧ o % 4 = 0 ∧ len = 4 then leBytes 4 (look 0 p.route ((o - 0x200) / 4)).toNat
  else match o, len with
    | 0, 4 => leBytes 4 p.createReply
    | 0x100, 4 => leBytes 4 p.destroyReply
    | 0x108, 8 => leBytes 8 p.supmask.toNat
    | 0x240, 4 => leBytes 4 p.self.toNat
    | 0x300, 8 => leBytes 8 p.preadyWord
    | 0x308, 8 => leBytes 8 p.chReady.toNat
    | 0x310, 8 => leBytes 8 p.linkUp.toNat
    | 0x318, 8 => leBytes 8 p.fencedWord
    | 0x8000, 8 => leBytes 8 p.orphanProd
    | 0x8008, 8 => leBytes 8 p.orphanCons
    | _, _ => List.replicate len 0

/-! ### Memory windows (R389) -/

/-- Where the bytes of an access of the host or of a peer lie, piece by piece, or a cause. -/
def State.windowPieces (s : State) (n : Nat) (k : Kind) (va len : Nat) : Except (BitVec 8) (List (Nat × Nat × Nat)) :=
  match s.ctx? n with
  | none => .error (BitVec.ofNat 8 (Config.freeNat s.free))
  | some c =>
    (splitPages [(va, len)]).mapM fun r =>
      match s.translate .host c.desc ⟨true, false, none⟩ k r.1 r.2 with
      | .error e => .error e
      | .ok pa => if s.fencedAt pa then .error 0x31 else .ok (r.1, pa, r.2)

/-- Writes of the host or of a peer, performed at system scope: D bits and dirty pages are set (R326, R344). -/
def State.windowPut (s : State) (n : Nat) : List (Nat × Nat × Nat) → List Byte → State
  | [], _ => s
  | (va, pa, k) :: ps, bs =>
    match s.ctx? n with
    | none => s
    | some c => ((s.setDirtyAt .host c.desc va).writeNow n va pa (bs.take k)).windowPut n ps (bs.drop k)

/-- WERR of a window access that failed (Table 23.1). -/
def State.werr (s : State) (n ofs : Nat) (e : BitVec 8) : State :=
  let x : W64 := BitVec.ofNat 64 (2 ^ 63 + e.toNat * 2 ^ 48 + ofs % 2 ^ 32)
  { s with free := s.free + 1, pkg := { s.pkg with werr := put s.pkg.werr n x } }

/-- The virtual address of a window offset. -/
def State.windowVa (s : State) (n ofs : Nat) : Nat := ((look 0 s.pkg.mwBase n).toNat + ofs) % 2 ^ 64

/-- A host write through a memory window (R389); one that leaves its window is discarded (R388). -/
def execMemoryWindowWrite (ctx offset : Nat) (bytes : List Byte) (s : State) : Res :=
  if !s.anyPort ∨ 64 ≤ ctx then notEnabled
  else if 2 ^ 32 < offset + bytes.length then .next s
  else match s.windowPieces ctx .write (s.windowVa ctx offset) bytes.length with
    | .error e => (s.werr ctx offset e).did
    | .ok ps => (s.windowPut ctx ps bytes).did

/-- A host read through a memory window (R389): all ones where its translation fails. -/
def execMemoryWindowRead (ctx offset len : Nat) (s : State) : Res :=
  if !s.anyPort ∨ 64 ≤ ctx then notEnabled
  else if 2 ^ 32 < offset + len then .next { s with reply := List.replicate len 0 }
  else match s.windowPieces ctx .read (s.windowVa ctx offset) len with
    | .error e => State.did { s.werr ctx offset e with reply := List.replicate len 0xFF }
    | .ok ps => .next { s with reply := ps.flatMap fun p => s.viewBytes none .host p.2.1 p.2.2 }

/-- An access of a peer device, which arrives whole and is performed at system scope (R344). -/
def execPeerDeviceAccess (ctx : Nat) (va : W64) (op : PeerOp) (s : State) : Res :=
  if s.pkg.linkUp = 0 then notEnabled
  else match op with
    | .write data =>
      match s.windowPieces ctx .write va.toNat data.length with
      | .error _ => .next s
      | .ok ps => (s.windowPut ctx ps data).did
    | .read len =>
      match s.windowPieces ctx .read va.toNat len with
      | .error _ => .next { s with reply := List.replicate len 0xFF }
      | .ok ps => .next { s with reply := ps.flatMap fun p => s.viewBytes none .host p.2.1 p.2.2 }

end Sys2Proof.Machine
end

