-- ==== Sys2Proof/Machine/Start.lean ====
section
/-! DEFINITION. Commands start and complete (spec/14 R254, R261, R262, R265 to R267, R276; spec/18 R337; spec/21 R373). -/

namespace Sys2Proof.Machine

/-! ### Exchange commands (R373) -/

/-- A read that an engine makes when a command starts, while writes arrive between `old` and `s` (R279). -/
def State.find (old s : State) (c : Cmd) (x : Ctx) (va n : Nat) : Found :=
  match old.xRead s c.xdie x va n with
  | .ok bs => .bytes bs
  | .error e => .cause e

/-- The bytes of a read that found some. -/
def Found.bytes? : Found → Option (List Byte)
  | .bytes bs => some bs
  | .cause _ => none

/-- The descriptors of an EXCH. -/
def State.descriptors (old s : State) (c : Cmd) (x : Ctx) : List Found :=
  (List.range c.count).map fun i => old.find s c x (c.list + 16 * i) 16

/-- The experts that an EXCH sends blocks to. -/
def sentTo (ds : List Found) : List Nat :=
  ((ds.filterMap Found.bytes?).filter fun d => recBits d 8 63 1 = 0).map fun d => recNat d 8 1

/-- The drop map entries that a COMBINE finds of the pairs of its list. -/
def State.pairWords (old s : State) (c : Cmd) (x : Ctx) : List Nat :=
  (List.range (c.count * c.kk)).filterMap fun i =>
    (old.find s c x (c.list + 8 * i) 8).bytes?.bind fun p =>
      (old.find s c x (c.dmap + 4 * recBits p 0 0 20) 4).bytes?.map ofLe

/-- The experts that a command names (R368): those of the blocks that it sends, or of the pairs that stand ADMITTED. -/
def State.namedExperts (old s : State) (c : Cmd) (x : Ctx) (ds : List Found) : List Nat :=
  if c.opc = 0x20 then sentTo ds
  else ((old.pairWords s c x).filter fun w => bitsOf w 30 2 = 1).map fun w => bitsOf w 16 8

/-- The table entries of the experts that a command names. -/
def State.namedEntries (old s : State) (c : Cmd) (x : Ctx) (ds : List Found) : SMap Found :=
  (old.namedExperts s c x ds).foldl (fun m e =>
    if (look? m e).isSome then m else put m e (old.find s c x (c.xtab + 64 * e) 64)) []

/-- Whether a peer device is in the route table, or is this device. -/
def State.routed (s : State) (peer : Nat) : Bool := (look 0 s.pkg.route peer).getLsbD 31 || decide (peer = s.selfPeer)

/-- Whether an entry keeps the limits of Table 21.3, with a home in the device or in the route table (R373). -/
def State.entryOk (s : State) (c : Cmd) (x : Ctx) (e : List Byte) : Bool :=
  XEntry.legal x.desc c.dom e && (c.dom == 0 || XEntry.slots e == 0 || s.routed (XEntry.home e))

/-- Whether the entries that a command found keep the limits. -/
def State.entriesOk (s : State) (c : Cmd) (x : Ctx) (es : SMap Found) : Bool :=
  es.all fun e => e.2.bytes?.all (s.entryOk c x)

/-- The limits of an EXCH (Tables 21.1 to 21.3). -/
def State.exchOk (old s : State) (c : Cmd) (x : Ctx) (ds : List Found) (es : SMap Found) : Bool :=
  recBits c.bytes 8 18 14 == 0 && decide (1 ≤ c.count ∧ c.count ≤ 4096) && recNat c.bytes 0x30 16 == 0
  && decide (c.list % 16 = 0 ∧ c.xtab % 64 = 0 ∧ c.dmap % 4 = 0 ∧ c.stat % 8 = 0)
  && ((ds.filterMap Found.bytes?).all fun d => recBits d 8 59 4 == 0 && recNat d 0 8 % 16 == 0)
  && (es.all fun e => e.2.bytes?.all fun b => XEntry.slots b != 0) && s.entriesOk c x es
  && (!c.loads || match old.xRead s c.xdie x c.xtab 16384 with
        | .error _ => true
        | .ok t => (List.range 256).all fun e => s.entryOk c x ((t.drop (64 * e)).take 64))

/-- The limits of a COMBINE (Tables 21.3, 21.6). -/
def State.combineOk (old s : State) (c : Cmd) (x : Ctx) (es : SMap Found) : Bool :=
  recBits c.bytes 8 17 3 == 0 && recBits c.bytes 8 24 8 == 0 && recNat c.bytes 0x38 8 == 0
  && decide (1 ≤ c.kk ∧ c.kk ≤ 8 ∧ 1 ≤ c.count ∧ c.count ≤ 65536)
  && decide (c.list % 8 = 0 ∧ c.xtab % 64 = 0 ∧ c.dmap % 4 = 0 ∧ c.stat % 8 = 0 ∧ c.rows % 16 = 0)
  && ((List.range (c.count * c.kk)).all fun i =>
        (old.find s c x (c.list + 8 * i) 8).bytes?.all fun p => recBits p 0 20 12 == 0)
  && s.entriesOk c x es

/-- The ranges that an exchange command writes on its own die, as far as they are known when it starts: its status word,
the drop map entries of the sequence numbers to come, or its rows. -/
def State.xWrites (s : State) (c : Cmd) (x : Ctx) (ds : List Found) : List (Nat × Nat) :=
  let first := look 0 (x.round c.dom c.round).seqs (s.senderOf c.dom c.xdie)
  (c.stat, 8) ::
    if c.opc = 0x20 then [(c.dmap + 4 * first, 4 * (sentTo ds).length)] else [(c.rows, 512 * c.count)]

/-- The ranges that it reads: its list, and its table where it loads all of it. -/
def Cmd.xReads (c : Cmd) : List (Nat × Nat) :=
  if c.opc = 0x20 then (c.list, 16 * c.count) :: (if c.loads then [(c.xtab, 16384)] else [])
  else [(c.list, 8 * c.count * c.kk)]

/-- The checks of an exchange command when it becomes RUNNING (R373, Table 14.8): PROT, then WSWRITE (R227). -/
def State.xCheck (old s : State) (c : Cmd) (x : Ctx) (ds : List Found) (es : SMap Found) : Option (BitVec 8) :=
  let ok := s.headerOk c && c.accepted && (c.dom == 0 || x.desc.xv)
    && (if c.opc = 0x20 then old.exchOk s c x ds es else old.combineOk s c x es)
  if !ok ∨ s.carved c x .write (s.xWrites c x ds) ∨ s.carved c x .read c.xReads then some 0x12
  else if (splitPages (s.xWrites c x ds)).any fun r => x.desc.windowed (.socket c.xdie) r.1 then some 0x13
  else none

/-- The homes that an EXCH names are given its expert table, where an earlier EXCH of the round has not given one (R368). -/
def Round.giveTables (rd : Round) (c : Cmd) (es : SMap Found) : Round :=
  es.foldl (fun (rd : Round) e => match e.2 with
    | .cause _ => rd
    | .bytes b =>
      let home := (XEntry.place c.dom b).2
      if (look? rd.tables home).isSome then rd else { rd with tables := put rd.tables home c.xtab }) rd

/-- An exchange command begins: it keeps what its engine has read, and an EXCH takes part in its round. -/
def State.beginExchange (s : State) (c : Cmd) (ds : List Found) (es : SMap Found) : State :=
  let s := s.onCmd c.id fun c => { c with state := .running, descs := ds, entries := es }
  if c.opc = 0x21 then s
  else s.onCtx c.ctx fun x => x.setRound ((x.round c.dom c.round).giveTables c es)

/-- An exchange command starts, or fails its checks; writes arrive while its engine reads. -/
def State.startExchange (s : State) (c : Cmd) (x : Ctx) : State :=
  let old := s
  let s := old.stirMem c.xdie
  let x := x.level c.priv
  let ds := if c.opc = 0x20 then old.descriptors s c x else []
  let es := old.namedEntries s c x ds
  match old.xCheck s c x ds es with
  | some e => s.faultCmd c { code := e }
  | none => s.beginExchange c ds es

/-! ### Starting -/

/-- PREEMPT or RESUME that breaks a limit, or whose target is no other live context (R337). -/
def State.switchCheck (s : State) (c : Cmd) : Bool :=
  s.headerOk c && c.switchOk && decide (c.targetCtx ≠ c.ctx) && (s.ctx? c.targetCtx).isSome

/-- A TASK that fails its checks arrives on its barrier as one that completes (R266). -/
def State.faultTask (s : State) (c : Cmd) : State :=
  let ok := s.cbarOk c && c.cbar != 0xFFFF
  let s := s.faultCmd c { code := 0x12 }
  if ok then s.deviceArrive c.team c.cbar else s

/-- A command becomes RUNNING, or fails its checks before any access (R276); one of a scheduler queue whose opcode that queue
does not accept completes in its turn (R261). -/
def State.begin (s : State) (c : Cmd) (x : Ctx) : Res :=
  let run (s : State) : State := s.onCmd c.id fun c => { c with state := .running }
  let go (s' : State) : Res := s.didPosting c.ctx s'
  if c.qid < 256 then
    match s.copyCheck c x with
    | some e => go (s.faultCmd c { code := e })
    | none => (s.onCmd c.id fun d => { d with state := .running, overlap := s.copyOverlaps c x }).did
  else if c.onXe then go (s.startExchange c x)
  else if c.qid = 0x3000 then (if s.headerOk c && c.accepted && c.taskOk then (run s).did else go (s.faultTask c))
  else if c.isSwitch then
    if s.switchCheck c then (run s).did else s.failSwitch c c.ctx (s.cmdPosting c { code := 0x12 })
  else if s.recordTurn c then go (s.faultCmd c { code := 0x12 })
  else notEnabled

/-- Whether the engine of a command serves it now (R261). -/
def State.served (s : State) (c : Cmd) : Bool :=
  if c.onCopy then s.serves c else if c.onXe then s.xServes c else true

/-- What the forks of a command carry is performed before its first access (R263, R277), and comes before its writes; `none`
where it cannot be performed yet. -/
def State.joinCmd (s : State) (c : Cmd) : Option (State × Cmd) :=
  (s.fulfilAll c.forks).map fun s =>
    let c := { c with forks := [], carry := s.onWay (c.carry ++ c.forks.flatMap s.idsOf) }
    (s.onCmd c.id fun _ => c, c)

/-- The command at the head of its stream is HELD, or becomes RUNNING (R261, R262, Table 14.5). -/
def execCommandStart (cid : Nat) (s : State) : Res :=
  match s.cmd? cid with
  | none => notEnabled
  | some c =>
    match s.ctx? c.ctx with
    | none => notEnabled
    | some x =>
      if x.phase ≠ .live ∨ !(c.state == .queued || c.state == .held) ∨ !s.cmdHead c ∨ c.verdict = some false then notEnabled
      else if s.engineFenced c then s.didPosting c.ctx (s.faultCmd c { code := 0x31 })
      else if c.gslot ≠ 0 ∧ c.verdict = none then
        if c.state = .held then notEnabled else (s.onCmd cid fun c => { c with state := .held }).did
      else if !s.mayStart c x ∨ (c.onXe ∧ s.roundHolds c x) ∨ !s.served c then notEnabled
      else match s.joinCmd c with
        | none => notEnabled
        | some (s, c) => s.begin c x

/-! ### Completing (R267) -/

/-- A command with verdict 0 completes DISCARDED (R262, R373). -/
def State.discard (s : State) (c : Cmd) : Res :=
  if c.isSwitch then s.endSwitch c 5
  else if c.qid = 0x2000 ∧ !s.recordTurn c then notEnabled
  else s.didPosting c.ctx <|
    if c.onXe then (s.writeStat c 5).1.leaveQueue c 5
    else if c.qid = 0x3000 ∧ s.cbarOk c ∧ c.cbar ≠ 0xFFFF then (s.leaveQueue c 5).deviceArrive c.team c.cbar
    else s.leaveQueue c 5

/-- A command completes: DISCARDED at the head of its stream, FAULT with the cause that it met or with its engine
fenced, once its writes on their way have been counted, or OK or PARTFAIL with nothing left to do; its entries are written first (R318). A PREEMPT or RESUME that has done
its work writes its record in its turn (R182). -/
def execCommandComplete (cid : Nat) (s : State) : Res :=
  match s.cmd? cid with
  | none => notEnabled
  | some c =>
    match s.ctx? c.ctx with
    | none => notEnabled
    | some x =>
      let fault (s' : State) : Res := s.didPosting c.ctx s'
      if x.phase ≠ .live then notEnabled
      else if (c.state = .queued ∨ c.state = .held) ∧ c.verdict = some false ∧ s.cmdHead c then s.discard c
      else if c.state ≠ .running then notEnabled
      else if s.engineFenced c then
        if c.moving ≠ 0 then notEnabled else fault (s.faultCmd c { code := 0x31 })
      else match c.outcome, c.fate with
        | some st, _ => if s.recordTurn c then s.didPosting c.ctx (s.finishSwitch c st) else notEnabled
        | none, some why =>
          if c.moving ≠ 0 ∨ s.blocksOut cid then notEnabled
          else if c.onXe then fault ((s.writeStat c 1).1.faultCmd c why)
          else fault (s.faultCmd c why)
        | none, none =>
          if c.onXe then
            if c.taken < c.count ∨ s.blocksOut cid then notEnabled else fault (s.finishExchange c)
          else if c.onCopy ∧ c.len ≤ c.delivered then s.didPosting c.ctx (s.leaveQueue c 0)
          else notEnabled

end Sys2Proof.Machine
end

