-- ==== Sys2Proof/Machine/Fetch.lean ====
section
/-! DEFINITION. Fetching an instruction (spec/01 R23; spec/09 R190, R192; spec/17 R325). -/

namespace Sys2Proof.Machine

/-- What a fetch finds. -/
inductive Fetch where
  /-- a line that the cluster's instruction cache does not hold -/
  | miss (line : Nat)
  /-- a cause, with the fetch address -/
  | bad (code : BitVec 8) (va : Nat)
  | got (units : List W32)
  deriving DecidableEq, Repr

/-- One code unit. Code in the weight store window is no mapped page. -/
def State.fetchUnit (s : State) (g : Group) (t : Team) (c : Ctx) (va : Nat) : Fetch :=
  if c.desc.windowed (.socket t.die) va then .bad 0x10 va
  else match s.translate (.socket t.die) c.desc ⟨c.priv, false, none⟩ .fetch va 4 with
    | .error e => .bad e va
    | .ok pa =>
      if s.fencedAt pa then .bad 0x31 va
      else if s.icache.contains (t.cluster, va / 128) then
        .got [BitVec.ofNat 32 (ofLe (s.viewBytes (some g.id) (.socket t.die) pa 4))]
      else .miss (va / 128)

/-- Consecutive code units. -/
def State.fetchUnits (s : State) (g : Group) (t : Team) (c : Ctx) : Nat → Nat → Fetch
  | 0, _ => .got []
  | n + 1, va =>
    match s.fetchUnit g t c va with
    | .got us => match s.fetchUnits g t c n ((va + 4) % 2 ^ 64) with
      | .got vs => .got (us ++ vs)
      | r => r
    | r => r

/-- The virtual address of a group's next instruction: code offsets count from the kernel entry. -/
def Group.fetchVa (g : Group) (l : Launch) : Nat := (l.entry + g.ctl.pc.toNat) % 2 ^ 64

/-- The units of a group's next instruction: three with a prefix, else two (R23). DESIGN CHOICE (log 36): every unit is
fetched before any is decoded, so a failing fetch of a later unit comes before the ILLOP of the first. -/
def State.fetch (s : State) (g : Group) (t : Team) (l : Launch) (c : Ctx) : Fetch :=
  match s.fetchUnits g t c 1 (g.fetchVa l) with
  | .got us => s.fetchUnits g t c (if us.any isPrefixUnit then 3 else 2) (g.fetchVa l)
  | r => r

/-- The lanes of a handler for a word whose encoding is illegal, a prefix before it or not: those of its guard bits, or of the
whole path where it has none that hold or was read only in part (R313). DEDUCED (log 16). -/
def Group.illegalMask (g : Group) (us : List W32) : W32 :=
  let of (u : W32) : W32 :=
    let on := (maskLanes g.ctl.mask).filter (g.pred (u.getLsbD 11) (u.extractLsb' 8 3))
    if on.isEmpty then g.ctl.mask else laneMask on
  match us with
  | [u, _] => of u
  | [_, u, _] => of u
  | _ => g.ctl.mask

/-- Whether a group can issue (R190). -/
def State.ready (s : State) (g : Group) : Bool :=
  g.status == .running && (match g.wait with
    | .none => true
    | .barGo .. => true
    | _ => false) &&
  match s.team? g.team with
  | none => false
  | some t => ((s.ctx? t.ctx).map fun c => decide (c.phase = .live)).getD false

/-- Priority of a group's launch. -/
def State.prioOf (s : State) (g : Group) : Nat :=
  ((s.team? g.team).bind fun t => (s.launch? t.lid).map (·.prio)).getD 0

/-- Whether a group has stayed ready without an issue for so long that it issues whatever the priorities are (R191): 900 steps,
at most one instruction of the pipe in each (DESIGN CHOICE, log 3). -/
def State.overdue (s : State) (g : Group) : Bool := decide (max g.lastIssue g.unready + 900 ≤ s.tick)

/-- What a step leaves of the groups that are not ready (R191). -/
def State.noteReady (s : State) : State :=
  { s with groups := s.groups.map fun g => if s.ready g then g else { g with unready := s.tick } }

/-- Whether the Escapement takes a group before another one of its pipe (R190): one that is overdue, then a higher priority,
then the longer wait. -/
def State.issuesBefore (s : State) (h g : Group) : Bool :=
  let a := s.overdue h
  let b := s.overdue g
  if a || b then a && (!b || decide (h.lastIssue < g.lastIssue))
  else decide (s.prioOf g < s.prioOf h ∨ (s.prioOf h = s.prioOf g ∧ h.lastIssue < g.lastIssue))

/-- The core and the pipe of a group. -/
def State.pipeOf (s : State) (g : Group) : Nat × Nat × Bool :=
  match s.team? g.team with
  | none => (0, 0, g.pipe)
  | some t => (t.die, t.core, g.pipe)

/-- Whether a ready group may issue now: no ready group of its pipe goes before it (R190). -/
def State.mayIssue (s : State) (g : Group) : Bool :=
  s.ready g && s.groups.all fun h => !(s.ready h && s.pipeOf h == s.pipeOf g && s.issuesBefore h g)

/-- Of groups, the one that issued last of all the longest time ago. -/
def longestWait : List Group → Option Group
  | [] => none
  | g :: gs => match longestWait gs with
    | none => some g
    | some h => if g.lastIssue ≤ h.lastIssue then some g else some h

/-- The group that issues next where the agenda names none. -/
def State.pick (s : State) : Option Group := longestWait (s.groups.filter s.mayIssue)

end Sys2Proof.Machine
end

