-- ==== Sys2Proof/Machine/Agenda.lean ====
section
/-! DEFINITION. The default order of the device's own steps, where the agenda names none (log 3). What comes from
outside (the host, peers, failures, responses) is never among them. -/

namespace Sys2Proof.Machine

/-- The landing of a producer. -/
def Pending.event (p : Pending) : Instr :=
  match p.kind with
  | .load => .loadLands p.id false
  | .ldq => .ldqEntryLands p.id false
  | .crnd => .crndLands p.id
  | .mfs _ => .remoteMfsLands p.id
  | .claim .. => .claimLands p.id false
  | .atom _ => .atomResultLands p.id false

/-- What a group waits for. -/
def Group.events (g : Group) : List Instr :=
  (if g.async.isEmpty then [] else [.asyncFault g.id]) ++
  match g.wait with
  | .miss _ => [.instructionMissFill g.id]
  | .barDone .. => [.barrierRelease g.id]
  | _ => []

/-- Parts whose acknowledgement may be missing: those that have failed, and those that have been fenced. -/
def Pkg.silent (p : Pkg) : List Part := p.failing ++ ((List.range 12).filter p.fencedSock.getLsbD).map .socket

/-- The next arrival of a write. An MCA write that some observers have has lost an acknowledgement (R361). -/
def InWrite.events (failing : List Part) (w : InWrite) : List Instr :=
  let own := Observer.socket w.site.die
  if w.mca then (if w.arrived.isEmpty then [.mcaSingleMoment w.id] else failing.map (.acklost w.id ·))
  else if w.single then (if w.arrived.isEmpty then [.writeArrival w.id (if w.flat then .host else own)] else [])
  else if w.arrived.contains own then
    (allObservers.filter fun o => !w.arrived.contains o).map (.writeArrival w.id ·)
  else [.writeArrival w.id own]

/-- Every placement of a launch. -/
def Launch.placements (l : Launch) : List Instr :=
  (List.range 8).flatMap fun die => (List.range 12).flatMap fun row => (List.range 16).map fun col =>
    .teamPlacement l.id die row col

def Launch.events (l : Launch) : List Instr :=
  [.dependenceResolve l.ctx l.queue, .launchComplete l.id] ++ (if l.allPlaced || l.closed then [] else l.placements)

/-- The work of a running command. -/
def Cmd.work (c : Cmd) : List Instr :=
  if c.onCopy then
    match c.opc with
    | 1 => [.copy c.id 64]
    | 2 => [.copy2d c.id 64]
    | 3 => [.reblock c.id 64]
    | 4 => [.gather c.id 1]
    | 5 => [.fill c.id 64]
    | 6 => [.wsload c.id 64]
    | _ => [.dsnap c.id]
  else match c.opc with
    | 0x20 => [.exch c.id]
    | 0x21 => [.combine c.id]
    | 0x41 => [.preempt c.id]
    | 0x42 => [.resume c.id]
    | 0x50 => [.task c.id]
    | _ => []

def Cmd.events (c : Cmd) : List Instr :=
  match c.state with
  | .running => (if c.onCopy then [.delivery c.id 64] else []) ++ c.work ++ [.commandComplete c.id]
  | .residual => []
  | _ => [.commandStart c.id, .commandComplete c.id]

/-- The matrix unit of a core. -/
def coreEvents (k : Nat) : List Instr :=
  [.matrixOperationComplete k true, .matrixOperationComplete k false, .matrixOperationStart k true,
   .matrixOperationStart k false, .kStep k false]

/-- Functions that come up after their release (R397). -/
def bringUp : List Instr :=
  ((List.range 12).map fun k => .functionReady (.die k)) ++ ((List.range 64).map fun k => .functionReady (.channel k))
  ++ (List.range 16).map fun k => .functionReady (.link k)

/-- The steps of the device, first to last; those that are not enabled are passed over. -/
def State.events (s : State) : List Instr :=
  (if s.pkg.crown.state = .off then [.powerGood] else [])
  ++ (s.pkg.failing.map .fence)
  ++ (s.returns.map fun r => .returnWordLands r.1)
  ++ s.pend.map Pending.event
  ++ s.groups.flatMap Group.events
  ++ (s.walks.map fun w => .translationWalk w.die)
  ++ s.cmds.flatMap Cmd.events
  ++ (s.cores.flatMap fun e => coreEvents e.1)
  ++ (s.blocks.map fun b => match b.mate with
      | none => .blockArrival (.own b.id)
      | some m => if s.mayFall b then .decodeFallback (.own b.id) else .codedPacket (.own b.id) m.1)
  ++ s.inflight.flatMap (InWrite.events s.pkg.silent)
  ++ (s.ctxs.flatMap fun e => e.2.fbars.map fun b => .fabricBarrierComplete e.1 b.id)
  ++ (s.invs.map fun v => .invalidationComplete v.id)
  ++ (s.dies.flatMap fun e => e.2.refresh.toList.map fun b => .refreshWindowEnd e.1 b)
  ++ s.launches.flatMap Launch.events
  ++ (if s.pkg.crown.state = .off then [] else bringUp)

end Sys2Proof.Machine
end

