-- ==== Sys2Proof/Machine/Dispatch.lean ====
section
/-! DEFINITION. The meaning of every instruction and step: one arm for each constructor of `Instr`. -/

namespace Sys2Proof.Machine

def exec (i : Instr) (s : State) : Host.Outcome State Fault Refusal :=
  match i with
  | .nop w => Sys2Proof.Machine.execNop w s
  | .iadd w => Sys2Proof.Machine.execIadd w s
  | .isub w => Sys2Proof.Machine.execIsub w s
  | .iaddi w => Sys2Proof.Machine.execIaddi w s
  | .imul w => Sys2Proof.Machine.execImul w s
  | .imad w => Sys2Proof.Machine.execImad w s
  | .imin w => Sys2Proof.Machine.execImin w s
  | .imax w => Sys2Proof.Machine.execImax w s
  | .iabs w => Sys2Proof.Machine.execIabs w s
  | .andL w => Sys2Proof.Machine.execAnd w s
  | .orL w => Sys2Proof.Machine.execOr w s
  | .xorL w => Sys2Proof.Machine.execXor w s
  | .andn w => Sys2Proof.Machine.execAndn w s
  | .andi w => Sys2Proof.Machine.execAndi w s
  | .ori w => Sys2Proof.Machine.execOri w s
  | .xori w => Sys2Proof.Machine.execXori w s
  | .shl w => Sys2Proof.Machine.execShl w s
  | .shr w => Sys2Proof.Machine.execShr w s
  | .sar w => Sys2Proof.Machine.execSar w s
  | .rotl w => Sys2Proof.Machine.execRotl w s
  | .shli w => Sys2Proof.Machine.execShli w s
  | .shri w => Sys2Proof.Machine.execShri w s
  | .sari w => Sys2Proof.Machine.execSari w s
  | .bfe w => Sys2Proof.Machine.execBfe w s
  | .bfi w => Sys2Proof.Machine.execBfi w s
  | .popc w => Sys2Proof.Machine.execPopc w s
  | .clz w => Sys2Proof.Machine.execClz w s
  | .brev w => Sys2Proof.Machine.execBrev w s
  | .icmp w => Sys2Proof.Machine.execIcmp w s
  | .icmpi w => Sys2Proof.Machine.execIcmpi w s
  | .sel p w => Sys2Proof.Machine.execSel p w s
  | .mov p w => Sys2Proof.Machine.execMov p w s
  | .movi w => Sys2Proof.Machine.execMovi w s
  | .iadd64 w => Sys2Proof.Machine.execIadd64 w s
  | .lea w => Sys2Proof.Machine.execLea w s
  | .plop w => Sys2Proof.Machine.execPlop w s
  | .prd w => Sys2Proof.Machine.execPrd w s
  | .pwr w => Sys2Proof.Machine.execPwr w s
  | .fadd p w => Sys2Proof.Machine.execFadd p w s
  | .fsub p w => Sys2Proof.Machine.execFsub p w s
  | .fmul p w => Sys2Proof.Machine.execFmul p w s
  | .ffma p w => Sys2Proof.Machine.execFfma p w s
  | .fmin p w => Sys2Proof.Machine.execFmin p w s
  | .fmax p w => Sys2Proof.Machine.execFmax p w s
  | .fcmp w => Sys2Proof.Machine.execFcmp w s
  | .fsgn p w => Sys2Proof.Machine.execFsgn p w s
  | .frcp p w => Sys2Proof.Machine.execFrcp p w s
  | .frsq p w => Sys2Proof.Machine.execFrsq p w s
  | .fsqrt p w => Sys2Proof.Machine.execFsqrt p w s
  | .fex2 p w => Sys2Proof.Machine.execFex2 p w s
  | .flg2 p w => Sys2Proof.Machine.execFlg2 p w s
  | .fsin p w => Sys2Proof.Machine.execFsin p w s
  | .fcos p w => Sys2Proof.Machine.execFcos p w s
  | .ftanh p w => Sys2Proof.Machine.execFtanh p w s
  | .fdiv p w => Sys2Proof.Machine.execFdiv p w s
  | .fmuli p w => Sys2Proof.Machine.execFmuli p w s
  | .faddi p w => Sys2Proof.Machine.execFaddi p w s
  | .hadd2 p w => Sys2Proof.Machine.execHadd2 p w s
  | .hmul2 p w => Sys2Proof.Machine.execHmul2 p w s
  | .hfma2 p w => Sys2Proof.Machine.execHfma2 p w s
  | .hext2 p w => Sys2Proof.Machine.execHext2 p w s
  | .dp4 w => Sys2Proof.Machine.execDp4 w s
  | .dp8 w => Sys2Proof.Machine.execDp8 w s
  | .dpf8 p w => Sys2Proof.Machine.execDpf8 p w s
  | .dpf4 p w => Sys2Proof.Machine.execDpf4 p w s
  | .bscale p w => Sys2Proof.Machine.execBscale p w s
  | .fcvt p w => Sys2Proof.Machine.execFcvt p w s
  | .i2f w => Sys2Proof.Machine.execI2f w s
  | .f2i w => Sys2Proof.Machine.execF2i w s
  | .pack2 p w => Sys2Proof.Machine.execPack2 p w s
  | .crnd w => Sys2Proof.Machine.execCrnd w s
  | .tget w => Sys2Proof.Machine.execTget w s
  | .tset w => Sys2Proof.Machine.execTset w s
  | .ld p w => Sys2Proof.Machine.execLd p w s
  | .st p w => Sys2Proof.Machine.execSt p w s
  | .atom p w => Sys2Proof.Machine.execAtom p w s
  | .cas w => Sys2Proof.Machine.execCas w s
  | .ldq p w => Sys2Proof.Machine.execLdq p w s
  | .pfd w => Sys2Proof.Machine.execPfd w s
  | .pfi w => Sys2Proof.Machine.execPfi w s
  | .qcfg w => Sys2Proof.Machine.execQcfg w s
  | .ldt p w => Sys2Proof.Machine.execLdt p w s
  | .stt p w => Sys2Proof.Machine.execStt p w s
  | .ldl p w => Sys2Proof.Machine.execLdl p w s
  | .stl p w => Sys2Proof.Machine.execStl p w s
  | .ldw p w => Sys2Proof.Machine.execLdw p w s
  | .lxch p w => Sys2Proof.Machine.execLxch p w s
  | .ppoll w => Sys2Proof.Machine.execPpoll w s
  | .lred w => Sys2Proof.Machine.execLred w s
  | .leqv w => Sys2Proof.Machine.execLeqv w s
  | .lpick p w => Sys2Proof.Machine.execLpick p w s
  | .bra w => Sys2Proof.Machine.execBra w s
  | .brx w => Sys2Proof.Machine.execBrx w s
  | .call w => Sys2Proof.Machine.execCall w s
  | .ret w => Sys2Proof.Machine.execRet w s
  | .loop w => Sys2Proof.Machine.execLoop w s
  | .lbrk w => Sys2Proof.Machine.execLbrk w s
  | .exit w => Sys2Proof.Machine.execExit w s
  | .exitE w => Sys2Proof.Machine.execExitE w s
  | .claim w => Sys2Proof.Machine.execClaim w s
  | .trap w => Sys2Proof.Machine.execTrap w s
  | .bkpt w => Sys2Proof.Machine.execBkpt w s
  | .tret w => Sys2Proof.Machine.execTret w s
  | .region w => Sys2Proof.Machine.execRegion w s
  | .yield w => Sys2Proof.Machine.execYield w s
  | .waitf w => Sys2Proof.Machine.execWaitf w s
  | .mfs w => Sys2Proof.Machine.execMfs w s
  | .mts w => Sys2Proof.Machine.execMts w s
  | .bari w => Sys2Proof.Machine.execBari w s
  | .bara w => Sys2Proof.Machine.execBara w s
  | .barw w => Sys2Proof.Machine.execBarw w s
  | .bart w => Sys2Proof.Machine.execBart w s
  | .barx w => Sys2Proof.Machine.execBarx w s
  | .fbar w => Sys2Proof.Machine.execFbar w s
  | .push w => Sys2Proof.Machine.execPush w s
  | .wpw w => Sys2Proof.Machine.execWpw w s
  | .guard w => Sys2Proof.Machine.execGuard w s
  | .tgrab w => Sys2Proof.Machine.execTgrab w s
  | .tdone w => Sys2Proof.Machine.execTdone w s
  | .tcfg w => Sys2Proof.Machine.execTcfg w s
  | .trel w => Sys2Proof.Machine.execTrel w s
  | .mzero p w => Sys2Proof.Machine.execMzero p w s
  | .mloop p w => Sys2Proof.Machine.execMloop p w s
  | .mst p w => Sys2Proof.Machine.execMst p w s
  | .mld p w => Sys2Proof.Machine.execMld p w s
  | .mflg w => Sys2Proof.Machine.execMflg w s
  | .loadLands id err => Sys2Proof.Machine.execLoadLands id err s
  | .ldqEntryLands id err => Sys2Proof.Machine.execLdqEntryLands id err s
  | .crndLands id => Sys2Proof.Machine.execCrndLands id s
  | .remoteMfsLands id => Sys2Proof.Machine.execRemoteMfsLands id s
  | .claimLands id err => Sys2Proof.Machine.execClaimLands id err s
  | .atomResultLands id err => Sys2Proof.Machine.execAtomResultLands id err s
  | .asyncFault gid => Sys2Proof.Machine.execAsyncFault gid s
  | .instructionMissFill gid => Sys2Proof.Machine.execInstructionMissFill gid s
  | .translationWalk die => Sys2Proof.Machine.execTranslationWalk die s
  | .barrierRelease gid => Sys2Proof.Machine.execBarrierRelease gid s
  | .launchPort port ctx bytes => Sys2Proof.Machine.execLaunchPort port ctx bytes s
  | .launch ctx team lane gid bytes => Sys2Proof.Machine.execLaunch ctx team lane gid bytes s
  | .dependenceResolve ctx queue => Sys2Proof.Machine.execDependenceResolve ctx queue s
  | .teamPlacement lid die row col => Sys2Proof.Machine.execTeamPlacement lid die row col s
  | .launchComplete lid => Sys2Proof.Machine.execLaunchComplete lid s
  | .task cid => Sys2Proof.Machine.execTask cid s
  | .copy cid n => Sys2Proof.Machine.execCopy cid n s
  | .copy2d cid n => Sys2Proof.Machine.execCopy2d cid n s
  | .reblock cid n => Sys2Proof.Machine.execReblock cid n s
  | .gather cid n => Sys2Proof.Machine.execGather cid n s
  | .fill cid n => Sys2Proof.Machine.execFill cid n s
  | .wsload cid n => Sys2Proof.Machine.execWsload cid n s
  | .dsnap cid => Sys2Proof.Machine.execDsnap cid s
  | .exch cid => Sys2Proof.Machine.execExch cid s
  | .combine cid => Sys2Proof.Machine.execCombine cid s
  | .preempt cid => Sys2Proof.Machine.execPreempt cid s
  | .resume cid => Sys2Proof.Machine.execResume cid s
  | .commandStart cid => Sys2Proof.Machine.execCommandStart cid s
  | .delivery cid n => Sys2Proof.Machine.execDelivery cid n s
  | .commandComplete cid => Sys2Proof.Machine.execCommandComplete cid s
  | .returnWordLands id => Sys2Proof.Machine.execReturnWordLands id s
  | .matrixOperationStart core queue => Sys2Proof.Machine.execMatrixOperationStart core queue s
  | .kStep core err => Sys2Proof.Machine.execKStep core err s
  | .matrixOperationComplete core queue => Sys2Proof.Machine.execMatrixOperationComplete core queue s
  | .blockArrival b => Sys2Proof.Machine.execBlockArrival b s
  | .codedPacket b c => Sys2Proof.Machine.execCodedPacket b c s
  | .decodeFallback b => Sys2Proof.Machine.execDecodeFallback b s
  | .fabricBarrierComplete ctx fid => Sys2Proof.Machine.execFabricBarrierComplete ctx fid s
  | .wsRefresh die bank => Sys2Proof.Machine.execWsRefresh die bank s
  | .replay ctx seq => Sys2Proof.Machine.execReplay ctx seq s
  | .endLaunch ctx seq => Sys2Proof.Machine.execEndLaunch ctx seq s
  | .continue_ ctx seq => Sys2Proof.Machine.execContinue ctx seq s
  | .tlbinv ctx bytes => Sys2Proof.Machine.execTlbinv ctx bytes s
  | .invalidationComplete id => Sys2Proof.Machine.execInvalidationComplete id s
  | .debugRead ctx bytes => Sys2Proof.Machine.execDebugRead ctx bytes s
  | .debugWrite ctx bytes => Sys2Proof.Machine.execDebugWrite ctx bytes s
  | .debugstop ctx bytes => Sys2Proof.Machine.execDebugstop ctx bytes s
  | .contextCreate bytes => Sys2Proof.Machine.execContextCreate bytes s
  | .contextDestroy ctx => Sys2Proof.Machine.execContextDestroy ctx s
  | .contextDestroyDetach ctx => Sys2Proof.Machine.execContextDestroyDetach ctx s
  | .supmask value => Sys2Proof.Machine.execSupmask value s
  | .attest nonce => Sys2Proof.Machine.execAttest nonce s
  | .hostRegisterWrite port offset ctxPage bytes => Sys2Proof.Machine.execHostRegisterWrite port offset ctxPage bytes s
  | .memoryWindowWrite ctx offset bytes => Sys2Proof.Machine.execMemoryWindowWrite ctx offset bytes s
  | .memoryWindowRead ctx offset len => Sys2Proof.Machine.execMemoryWindowRead ctx offset len s
  | .status => Sys2Proof.Machine.execStatus s
  | .recover nonce => Sys2Proof.Machine.execRecover nonce s
  | .recoverN => Sys2Proof.Machine.execRecoverN s
  | .getrecord => Sys2Proof.Machine.execGetrecord s
  | .i3cAttest nonce => Sys2Proof.Machine.execI3cAttest nonce s
  | .loadfw len => Sys2Proof.Machine.execLoadfw len s
  | .powerGood => Sys2Proof.Machine.execPowerGood s
  | .functionReady f => Sys2Proof.Machine.execFunctionReady f s
  | .readinessTimeout f => Sys2Proof.Machine.execReadinessTimeout f s
  | .partFailure p => Sys2Proof.Machine.execPartFailure p s
  | .fence p => Sys2Proof.Machine.execFence p s
  | .acklost wid p => Sys2Proof.Machine.execAcklost wid p s
  | .wilkaiFlit port f => Sys2Proof.Machine.execWilkaiFlit port f s
  | .retransmitTimeout port => Sys2Proof.Machine.execRetransmitTimeout port s
  | .limitExceeded => Sys2Proof.Machine.execLimitExceeded s
  | .refreshWindowEnd die bank => Sys2Proof.Machine.execRefreshWindowEnd die bank s
  | .mcaSingleMoment wid => Sys2Proof.Machine.execMcaSingleMoment wid s
  | .writeArrival wid o => Sys2Proof.Machine.execWriteArrival wid o s
  | .peerDeviceAccess ctx va op => Sys2Proof.Machine.execPeerDeviceAccess ctx va op s
  | .powerLoss => Sys2Proof.Machine.execPowerLoss s

end Sys2Proof.Machine
end

