-- ==== Sys2Proof/Machine/Step.lean ====
section
/-! DEFINITION. One step of the package: the next turn of the agenda, or the default order (log 3). -/

namespace Sys2Proof.Machine

/-- What closes a step: entries that waited for room in a ring are written, those of groups among them, the turn's error is over,
and it shows which groups are not ready. -/
def settle : Res → Res
  | .next s => .next { s.drain.settleFaults.noteReady with ecc := false }
  | r => r

/-- The lowest-numbered lane of a mask (R319). -/
def firstLane (m : W32) : Nat := (maskLanes m).headD 0

/-- The issue of a group (R190): its asynchronous causes come first (R312), then the fetch, then the instruction. -/
def issueGroup (s : State) (gid : Nat) (err : Bool) : Res :=
  match s.group? gid with
  | none => notEnabled
  | some g =>
    if !s.mayIssue g then notEnabled
    else if !g.async.isEmpty then execAsyncFault gid s
    else match State.issuer { s with cur := gid } with
      | none => .fault .noGroup
      | some (g, t, l, c) =>
        let s := { s with cur := gid, ecc := err }
        match s.fetch g t l c with
        | .miss line => .next (s.setGroup { g with wait := .miss line, slipCnt := g.slipCnt + 1 })
        | .bad code va =>
          .next (s.raise g c.debugStop { code := code, space := 4, addr := BitVec.ofNat 64 va, lane := firstLane g.ctl.mask }
            g.ctl.mask)
        | .got us =>
          match decode us with
          | .error _ =>
            .next (s.raise g c.debugStop { code := 0x01, lane := firstLane (g.illegalMask us) } (g.illegalMask us))
          | .ok i => exec i s

/-- The first of the device's steps that is enabled. -/
def firstEvent (s : State) : List Instr → Option Res
  | [] => none
  | i :: is => match exec i s with
    | .next t => some (.next t)
    | _ => firstEvent s is

/-- One turn where the agenda names none: on even steps a ready group goes first, on odd ones a step of the device; with
neither, time passes. -/
def defaultTurn (s : State) : Res :=
  let group : Option Res := s.pick.map fun g => issueGroup s g.id false
  let device : Option Res := firstEvent s s.events
  let turn := if s.tick % 2 = 0 then group.orElse fun _ => device else device.orElse fun _ => group
  turn.getD (.next s)

/-- A turn of the agenda. A machine instruction is no step of the part: a group fetches it. -/
def runTurn (s : State) (t : Turn) : Res :=
  match t with
  | .run i => if (encodeWord i).isSome then notEnabled else exec i s
  | .runErr i => if (encodeWord i).isSome then notEnabled else exec i { s with ecc := true }
  | .issue gid err => issueGroup s gid err
  | .look id k => s.lookAt id k
  | .fetch cid space va => s.fetchEarly cid space va

/-- One step. -/
def step (s : State) : Host.Outcome State Fault Refusal :=
  let s := { s with tick := s.tick + 1 }
  match s.agenda with
  | t :: ts => settle (runTurn { s with agenda := ts } t)
  | [] => settle (defaultTurn s)

/-! ### Placing an instruction where the next step fetches -/

/-- A context of device mode 1 whose table maps virtual 0 to 512 MiB to physical 0. -/
def fetchDesc : CtxDesc :=
  { ctx := 0, mode := 0, dev := 0, qfirst := 0, qcount := 8, root := 0x20000, frBase := 0x20000000, frCount := 16
    logSize := 0, logBase := 0, areaSize := 0, areaBase := 0, imgBase := 0x30000000, imgSize := 0, dirtyVa := 0
    dirtyPages := 0, ws := List.replicate 8 (0, 0), xtag := 0, xv := false }

/-- Its three tables: root at 0x20000, then 0x30000 and 0x40000 with one leaf of 512 MiB, all permissions. -/
def fetchTables : List Host.Cell :=
  cellsAt 0x20000 (leBytes 8 0x30001) ++ cellsAt 0x30000 (leBytes 8 0x40001) ++ cellsAt 0x40000 (leBytes 8 0x3F)

/-- A launch of one team of one group, with every resource of a core declared; its entry is 0x10000. -/
def fetchRecord : List Byte :=
  [0x40, 0, 0, 0, 0xFF, 0xFF, 0, 0] ++ leBytes 8 0x10000 ++ leBytes 8 0 ++ leBytes 8 0x50000 ++ leBytes 8 0
  ++ [1, 0, 1, 0, 1, 32, 0x11, 0] ++ [128, 64, 32, 0x04, 0, 3, 0, 4, 0, 4, 1, 0, 1, 0, 0, 0]

/-- A program comes to run by a launch that the host submits (log 27); this stands for the context, the launch and the
placement, with the code at the entry and its line in the instruction cache. -/
def State.installProgram (s : State) : State :=
  let n := s.nextId
  let team : Team := { id := n + 1, lid := n, ctx := 0, x := 0, y := 0, die := 0, core := 0, corner := 0, cw := 1, ch := 1
                       cluster := n + 2, pipes := [false] }
  { s with
    ctxs := put s.ctxs 0 { desc := fetchDesc, priv := false, acc := 1 }
    launches := s.launches ++ [{ id := n, ctx := 0, record := fetchRecord, seq := 1, queue := 0, placed := 1 }]
    teams := s.teams ++ [team]
    groups := s.groups ++ [newGroup (n + 3) (n + 1) 0 32 false []]
    mem := Memory.writeCells s.mem fetchTables
    nextId := n + 4 }

/-- The group that issues next, where the next step is an issue. -/
def State.nextIssue (s : State) : Option Group :=
  match s.agenda with
  | .issue gid _ :: _ => (s.group? gid).filter s.mayIssue
  | [] => s.pick
  | _ => none

/-- The bytes of an instruction stand at a group's fetch address, with their lines resident, and the group issues. -/
def State.placeCode (s : State) (g : Group) (bs : List Byte) : Option State :=
  match State.issuer { s with cur := g.id } with
  | none => none
  | some (g, t, l, c) =>
    let va := g.fetchVa l
    match s.translate (.socket t.die) c.desc ⟨c.priv, false, none⟩ .fetch va bs.length with
    | .error _ => none
    | .ok pa =>
      if va % 65536 + bs.length ≤ 65536 then
        let lines := [(t.cluster, va / 128), (t.cluster, (va + bs.length - 1) / 128)]
        let s := s.writeRaw pa bs
        some { s with
          icache := s.icache ++ lines.filter fun x => !s.icache.contains x
          agenda := .issue g.id false :: s.agenda.drop 1 }
      else none

/-- `s` with the instruction of `nbits` bits `w` where `step` fetches next. -/
def State.withFetchWord (s : State) (nbits w : Nat) : State :=
  let bs := leBytes 12 (w % 2 ^ nbits)
  match s.nextIssue.bind fun g => s.placeCode g bs with
  | some s => s
  | none =>
    let s := s.installProgram
    match s.groups.getLast?.bind fun g => s.placeCode g bs with
    | some s => s
    | none => s

end Sys2Proof.Machine
end

