-- ==== Sys2Proof/Safety.lean ====
section
/-! DEFINITION. What claims are stated in: runs, the canonical form of memory, what an issuing instruction finds, and
what an instruction leaves in its group. -/

namespace Sys2Proof.Machine

/-- The canonical form of memory (log 5): addresses strictly rising, no byte equal to what an unlisted address reads as. -/
abbrev State.memOk (s : State) : Prop := Memory.wf s.mem = true

/-- The writes on their way have names of their own, below the next unused one. -/
abbrev State.named (s : State) : Prop := (s.inflight.map (·.id)).Nodup ∧ ∀ w ∈ s.inflight, w.id < s.nextId

/-- A write that some observer has stands in coherence order, and those in coherence order stand before those that have no
place in it yet (R241, R358). -/
abbrev State.ordered (s : State) : Prop :=
  (∀ w ∈ s.inflight, w.arrived ≠ [] → w.placed = true) ∧
    s.inflight.Pairwise fun w x => x.placed = true → w.placed = true

/-- What every step keeps: memory has its canonical form, names are given once, and coherence order is whole. -/
structure State.Inv (s : State) : Prop where
  mem : s.memOk
  names : s.named
  order : s.ordered

/-- A state that some number of steps reaches. -/
def Reaches (s t : State) : Prop := ∃ n, Sys2Proof.core.run n s = .next t

/-! ### Issuing -/

/-- What the issuing group finds for an instruction of `size` bytes with this guard and U bit (R26, R27). -/
def State.issueOf (s : State) (size : Nat) (gd : Guard) (u : Bool) : Option Iss :=
  s.issuer.map fun x =>
    { s := s, g := x.1, t := x.2.1, l := x.2.2.1, c := x.2.2.2, size := size, ex := x.1.executing gd u, uni := u }

/-- The instruction issues, at least one lane executes, and the group goes on at `ctl` after it (R26, R95, R161). -/
structure Issues (s : State) (size : Nat) (gd : Guard) (u : Bool) (nx : Next) (i : Iss) (ctl : Ctl) : Prop where
  found : s.issueOf size gd u = some i
  lanes : i.ex ≠ []
  flow : i.g.ctl.advance i.after nx = some ctl

/-! ### What a group holds afterwards -/

/-- A group without its registers, predicates, queues and flags. -/
def Group.rest (g : Group) : Group := { g with v := [], s := [], q := [], p := [], fpst := [] }

/-- A group that has issued at `tick` and goes on at `ctl`: nothing else of it changes. -/
def Group.goesOn (g : Group) (ctl : Ctl) (tick : Nat) : Group :=
  { g with ctl := ctl, wait := .none, walked := [], lastIssue := tick }

/-- The values that a list of results delivers to one operand, in field order. -/
def delivered : List Opnd → List Datum → Opnd → List Datum
  | [], _, _ => []
  | d :: dsts, ds, o => if d = o then ds.headD {} :: delivered dsts ds.tail o else delivered dsts ds.tail o

/-- A queue with its head popped, the popped entry retained (R17, R322). -/
def Queue.pop1 (q : Queue) : Queue :=
  match q.entries with
  | .landed d :: es => { q with entries := es, retained := q.retained ++ [d] }
  | _ => q

/-- A queue popped `k` times. -/
def Queue.pops : Nat → Queue → Queue
  | 0, q => q
  | k + 1, q => Queue.pops k q.pop1

/-- A queue with values pushed at its tail (R17). -/
def Queue.push (q : Queue) (ds : List Datum) : Queue := { q with entries := q.entries ++ ds.map .landed }

/-- The data that a lane reads from source operands in field order: a queue named twice gives its two oldest (R17). -/
def Group.reads (g : Group) (os : List Opnd) (lane : Nat) : List Datum := (g.takeAll lane os).1

/-- The executing lane whose predicates and flags reach a lane: itself, or the lane of a uniform instruction (R80, R109). -/
def Iss.source (i : Iss) (lane : Nat) : Option Nat := i.ex.find? fun l => (i.reach l).contains lane

/-- The last value written to a predicate, if any. -/
def lastPred (ps : List (BitVec 3 × Bool)) (n : BitVec 3) : Option Bool :=
  (ps.reverse.find? fun p => p.1 = n).map (·.2)

/-- What an instruction with these sources, destinations and results leaves of its group: destinations hold the results,
source queues are popped, predicates and flags are written, and everything else is as before (R14, R17, R27, R79, R80,
R109, R165). -/
structure Iss.Leaves (i : Iss) (ctl : Ctl) (srcs dsts : List Opnd) (out : Nat → LaneOut) (g : Group) : Prop where
  rest : g.rest = (i.g.goesOn ctl i.s.tick).rest
  vreg : ∀ (n : BitVec 7) (lane : Nat), lane < 32 → g.vCell n.toNat lane =
    if lane ∈ i.ex then
      match (delivered dsts (out lane).out (.v n)).getLast? with
      | some d => { d := d, full := true }
      | none => i.g.vCell n.toNat lane
    else i.g.vCell n.toNat lane
  sreg : ∀ n : BitVec 6, g.sCell n.toNat =
    match i.ex.head?.bind fun lane => (delivered dsts (out lane).out (.s n)).getLast? with
    | some d => { d := d, full := true }
    | none => i.g.sCell n.toNat
  queue : ∀ (n : BitVec 4) (lane : Nat), g.queue lane n.toNat =
    if lane ∈ i.ex then
      ((i.g.queue lane n.toNat).pops (srcs.count (.q n))).push (delivered dsts (out lane).out (.q n))
    else i.g.queue lane n.toNat
  pred : ∀ (n : BitVec 3) (lane : Nat), lane < 32 → g.pred false n lane =
    if n = 7 then true
    else ((i.source lane).bind fun l => lastPred (out l).preds n).getD (i.g.pred false n lane)
  flags : ∀ lane : Nat, look 0 g.fpst lane =
    match i.source lane with
    | some l => look 0 i.g.fpst lane ||| ((out l).flags ||| (out l).tflags)
    | none => look 0 i.g.fpst lane

/-- What a long-latency producer leaves of its group at issue: sources are read, the `n` registers from its destination
are empty in each executing lane, a destination queue holds an entry reserved under the producer's name, which only that
of an LDQ gives back at a fault (R154), and everything else is as before (R14, R17, R150). -/
structure Iss.Awaits (i : Iss) (ctl : Ctl) (srcs : List Opnd) (id n : Nat) (dst : Opnd) (stays : Bool) (g : Group) :
    Prop where
  rest : { g.rest with p := g.p, fpst := g.fpst } =
    { (i.g.goesOn ctl i.s.tick).rest with p := i.g.p, fpst := i.g.fpst }
  vreg : ∀ (m : BitVec 7) (lane : Nat), lane < 32 → g.vCell m.toNat lane =
    if lane ∈ i.ex ∧ .v m ∈ dst.range n then { full := false } else i.g.vCell m.toNat lane
  sreg : ∀ m : BitVec 6, g.sCell m.toNat = if .s m ∈ dst.range n then { full := false } else i.g.sCell m.toNat
  queue : ∀ (m : BitVec 4) (lane : Nat), g.queue lane m.toNat =
    if lane ∈ i.ex then
      let q := (i.g.queue lane m.toNat).pops (srcs.count (.q m))
      if dst = .q m then { q with entries := q.entries ++ [.reserved id stays] } else q
    else i.g.queue lane m.toNat

/-- The instruction completes: no part of the state changes but its group, which it leaves as said, and that groups whose
own instruction could not issue may try again. -/
def Completes (ins : Instr) (s : State) (i : Iss) (ctl : Ctl) (srcs dsts : List Opnd) (out : Nat → LaneOut) : Prop :=
  ∃ g, exec ins s = .next (s.setGroup g).wake ∧ i.Leaves ctl srcs dsts out g

/-- The instruction issues a long-latency producer: the state `s0`, which its checks leave, gains the producer `p`, and the
group awaits it. -/
def Starts (ins : Instr) (s s0 : State) (i : Iss) (ctl : Ctl) (srcs : List Opnd) (p : Pending) : Prop :=
  ∃ g, exec ins s = .next ({ s0 with nextId := s0.nextId + 1, pend := s0.pend ++ [p] }.setGroup g).wake ∧
    i.Awaits ctl srcs p.id ((p.bytes + 3) / 4) p.dst (p.kind != .ldq) g

/-- The instruction changes its group's control state alone. -/
def Goes (ins : Instr) (s : State) (i : Iss) (ctl : Ctl) : Prop :=
  exec ins s = .next (s.setGroup (i.g.goesOn ctl s.tick)).wake

/-- A state in which the group has entered its handler for a cause of the instruction at its program counter (R313):
CAUSE, CAUSEPC and the control state are saved, the handler starts at TVEC with the lanes of `hmask`, without
reconvergence and with an empty loop stack; claims of the group on tiles end; nothing else changes, but that groups
whose instruction could not issue may try again. -/
structure TrapTaken (s t : State) (g : Group) (code : BitVec 8) (hmask : W32) : Prop where
  groups : t.groups = (s.groups.map fun h => if h.id = g.id then
    { g with
      cause := code.setWidth 32, causePc := g.ctl.pc.setWidth 32, saved := some g.ctl
      ctl := ⟨[{ pc := g.tvec.setWidth 64, mask := hmask, rcv := none }], []⟩
      inHandler := true, wait := .none, walked := [] }
    else if h.wait = .blocked then { h with wait := .none } else h)
  rest : { t with groups := [], cores := [] } = { s with groups := [], cores := [] }
  cores : ∀ k, { t.coreSt k with claims := [] } = { s.coreSt k with claims := [] }

end Sys2Proof.Machine
end

