-- ==== Sys2Proof/Certificates/Slice0/Obligations.lean ====
section
/-! DEFINITION. What is claimed of the model: statements for the provers, each with the rules of the manual it comes from. -/

namespace Sys2Proof.Claims

open Sys2Proof.Machine

/-- No executing lane raises a floating-point flag that it enables (R110). -/
def Quiet (i : Iss) (out : Nat → LaneOut) : Prop := ∀ lane ∈ i.ex, (out lane).flags &&& look 0 i.g.fpte lane = 0

/-- The instruction completes, from every state in which it issues, some lane executes, its operands pass the checks of
R36, the group can go on after it, and it traps no flag: sources are read and popped, destinations, predicates and flags
are written as `out` says for each executing lane, and nothing else of the state changes. -/
def Does (ins : Instr) (size : Nat) (gd : Guard) (u : Bool) (srcs : List Field) (dsts : List Opnd)
    (out : Iss → Nat → List Datum → LaneOut) : Prop :=
  ∀ (s : State) (i : Iss) (ctl : Ctl), Issues s size gd u .fall i ctl → i.ready srcs dsts = .ok () →
    Quiet i (fun l => out i l (i.g.reads (srcs.map (·.o)) l)) →
    Completes ins s i ctl (srcs.map (·.o)) dsts fun l => out i l (i.g.reads (srcs.map (·.o)) l)

/-- The `k`th source word that a lane has read, after its modifier (R32). -/
def val (a : Src) (ds : List Datum) (k : Nat) : W32 := modify a.sel (ds.getD k {}).val

/-- A source word as a number: zero-extended when UNS is set, else sign-extended (R81). -/
def num (uns : Bool) (x : W32) : Int := if uns then x.toNat else x.toInt

/-- One result word with zero tangents (R75, R80). -/
def one (x : W32) : LaneOut := { out := [plain x] }

/-- The word of an exact result: its low 32 bits, saturated first when SAT is set (R65, R81). -/
def fit (sat uns : Bool) (x : Int) : W32 :=
  if sat then
    if uns then BitVec.ofInt 32 (if x < 0 then 0 else if 2 ^ 32 - 1 < x then 2 ^ 32 - 1 else x)
    else BitVec.ofInt 32 (if x < -2 ^ 31 then -2 ^ 31 else if 2 ^ 31 - 1 < x then 2 ^ 31 - 1 else x)
  else BitVec.ofInt 32 x

/-- Format A with one, two and three sources and a result word. -/
def Word1 (ins : Instr) (w : FmtA) (f : W32 → W32) : Prop :=
  Does ins 8 w.g w.u [w.a.field] [w.d] fun _ _ ds => one (f (val w.a ds 0))
def Word2 (ins : Instr) (w : FmtA) (f : W32 → W32 → W32) : Prop :=
  Does ins 8 w.g w.u [w.a.field, w.b.field] [w.d] fun _ _ ds => one (f (val w.a ds 0) (val w.b ds 1))
def Word3 (ins : Instr) (w : FmtA) (f : W32 → W32 → W32 → W32) : Prop :=
  Does ins 8 w.g w.u [w.a.field, w.b.field, w.c.field] [w.d] fun _ _ ds =>
    one (f (val w.a ds 0) (val w.b ds 1) (val w.c ds 2))
/-- Format B with a result word. -/
def WordI (ins : Instr) (w : FmtB) (f : W32 → W32 → W32) : Prop :=
  Does ins 8 w.g w.u [⟨w.a, w.fa⟩] [w.d] fun _ _ ds => one (f (ds.getD 0 {}).val w.imm)

/-- The step is taken, and what it leaves has this property. -/
def Leads (ins : Instr) (s : State) (P : State → Prop) : Prop := ∃ t, exec ins s = .next t ∧ P t

/-- The step is taken where every entry that it posts for a context finds room, as it surely does where `sure` holds, and its
work waits elsewhere; what it leaves has this property (R318, R365). -/
def LeadsSurely (n : Nat) (sure : Prop) (ins : Instr) (s : State) (P : State → Prop) : Prop :=
  ∃ t, exec ins s = (if s.postedBy n t then .next t.wake else .fault .notEnabled) ∧ (sure → s.postedBy n t = true) ∧ P t.wake

/-- The same where entries may have to wait. -/
def LeadsPosting (n : Nat) (ins : Instr) (s : State) (P : State → Prop) : Prop := LeadsSurely n False ins s P

/-- A word whose bits are given. -/
def ofBits (f : Nat → Bool) : W32 := BitVec.ofNat 32 (Nat.ofBits fun k : Fin 32 => f k)

end Sys2Proof.Claims

open Sys2Proof Sys2Proof.Machine Sys2Proof.Claims

/-! ### Integer, predicate and move instructions (spec/04) -/

/-- R81, R82, R75, R80: the exact result of Table 4.3 from the extended sources, saturated or cut to 32 bits, with zero
tangents; saturation of a high word is no instruction. -/
def Sys2Proof.Claims.IntegerArithmetic : Prop :=
  ∀ w : FmtA,
    let u := w.fl.getLsbD 0
    let sat := w.fl.getLsbD 1
    Word2 (.iadd w) w (fun a b => fit sat u (num u a + num u b)) ∧
    Word2 (.isub w) w (fun a b => fit sat u (num u a - num u b)) ∧
    (∀ w : FmtB, WordI (.iaddi w) w fun a imm => a + imm) ∧
    (w.fn = 0 → Word2 (.imul w) w fun a b => fit sat u (num u a * num u b)) ∧
    (w.fn = 1 → Word2 (.imul w) w fun a b => BitVec.ofInt 32 ((num u a * num u b) / 2 ^ 32)) ∧
    (w.fn = 0 → Word3 (.imad w) w fun a b c => fit sat u (num u a * num u b + num u c)) ∧
    (w.fn = 1 → Word3 (.imad w) w fun a b c => BitVec.ofInt 32 ((num u a * num u b) / 2 ^ 32 + num u c)) ∧
    (sat = true → w.fn = 1 → (Instr.imul w).wf = false ∧ (Instr.imad w).wf = false) ∧
    Word2 (.imin w) w (fun a b => if num u a ≤ num u b then a else b) ∧
    Word2 (.imax w) w (fun a b => if num u a ≤ num u b then b else a) ∧
    Word1 (.iabs w) w fun a => if sat = true ∧ a = 0x80000000 then 0x7FFFFFFF else if a.msb then -a else a

/-- R83, R84: logic, and shifts by the whole word; a literal amount above 31 is no instruction. -/
def Sys2Proof.Claims.LogicAndShifts : Prop :=
  (∀ w : FmtA,
    Word2 (.andL w) w (fun a b => a &&& b) ∧ Word2 (.orL w) w (fun a b => a ||| b) ∧
    Word2 (.xorL w) w (fun a b => a ^^^ b) ∧ Word2 (.andn w) w (fun a b => a &&& ~~~b) ∧
    Word2 (.shl w) w (fun a n => if 32 ≤ n.toNat then 0 else a <<< n.toNat) ∧
    Word2 (.shr w) w (fun a n => if 32 ≤ n.toNat then 0 else a >>> n.toNat) ∧
    Word2 (.sar w) w (fun a n => ofBits fun k => if k + n.toNat < 32 then a.getLsbD (k + n.toNat) else a.msb) ∧
    Word2 (.rotl w) w fun a n => ofBits fun k => a.getLsbD ((k + 32 - n.toNat % 32) % 32)) ∧
  (∀ w : FmtB,
    WordI (.andi w) w (fun a imm => a &&& imm) ∧ WordI (.ori w) w (fun a imm => a ||| imm) ∧
    WordI (.xori w) w (fun a imm => a ^^^ imm) ∧
    WordI (.shli w) w (fun a n => if 32 ≤ n.toNat then 0 else a <<< n.toNat) ∧
    WordI (.shri w) w (fun a n => if 32 ≤ n.toNat then 0 else a >>> n.toNat) ∧
    WordI (.sari w) w (fun a n => ofBits fun k => if k + n.toNat < 32 then a.getLsbD (k + n.toNat) else a.msb) ∧
    (31 < w.imm.toNat → (Instr.shli w).wf = false ∧ (Instr.shri w).wf = false ∧ (Instr.sari w).wf = false))

/-- R85: bit `k` of each result from the bits of the sources, for the field at `pos` = b[4:0] of `len` = b[13:8] bits, a
length above 32 taken as 32 and the field stopping at bit 31. -/
def Sys2Proof.Claims.BitFieldsAndCounts : Prop :=
  ∀ w : FmtA,
    let pos (b : W32) : Nat := (b.extractLsb' 0 5).toNat
    let wid (b : W32) : Nat := min (min (b.extractLsb' 8 6).toNat 32) (32 - pos b)
    Word2 (.bfe w) w (fun a b => ofBits fun k =>
      if k < wid b then a.getLsbD (pos b + k)
      else !w.fl.getLsbD 0 && decide (0 < wid b) && a.getLsbD (pos b + wid b - 1)) ∧
    Word3 (.bfi w) w (fun a b c => ofBits fun k =>
      if pos b ≤ k ∧ k < pos b + wid b then a.getLsbD (k - pos b) else c.getLsbD k) ∧
    Word1 (.popc w) w (fun a => BitVec.ofNat 32 ((List.range 32).filter a.getLsbD).length) ∧
    Word1 (.clz w) w (fun a => BitVec.ofNat 32 (((List.range 32).reverse.takeWhile fun k => !a.getLsbD k).length)) ∧
    Word1 (.brev w) w fun a => ofBits fun k => a.getLsbD (31 - k)

/-- R86, R87, R80, R75: compares write the predicate that D selects; SEL, MOV and MOVI deliver their operand, SEL and MOV
with the first tangents of it that the effective count names. SEL of a word that is an FP32 NaN delivers the canonical NaN as
each of these tangents: that is the model's choice (log 35, DESIGN CHOICE), since SEL has no element format by which R77 would
know a NaN. -/
def Sys2Proof.Claims.ComparesAndMoves : Prop :=
  (∀ w : FmtAP, w.fn.toNat < 6 →
    let u := w.fl.getLsbD 0
    Does (.icmp w) 8 w.g w.u [w.a.field, w.b.field] [] fun _ _ ds =>
      let a := num u (val w.a ds 0)
      let b := num u (val w.b ds 1)
      { preds := [(w.pd.pn, [decide (a = b), decide (a ≠ b), decide (a < b), decide (a ≤ b), decide (a > b),
          decide (a ≥ b)].getD w.fn.toNat false)] }) ∧
  (∀ w : FmtBP, Does (.icmpi w) 8 w.g w.u [⟨w.a, w.fa⟩] [] fun _ _ ds =>
    let a := (ds.getD 0 {}).val.toInt
    { preds := [(w.pd.pn, [decide (a = w.imm.toInt), decide (a ≠ w.imm.toInt), decide (a < w.imm.toInt),
        decide (a ≥ w.imm.toInt)].getD w.fn.toNat false)] }) ∧
  (∀ (p : Option Dual) (w : FmtSel), Does (.sel p w) (dualSize p) w.g w.u [w.a.field, w.b.field] [w.d]
    fun i lane ds =>
      let d := if i.g.pred w.pc.neg w.pc.pn lane then { ds.getD 0 {} with val := val w.a ds 0 }
        else { ds.getD 1 {} with val := val w.b ds 1 }
      let nan := d.val.extractLsb' 23 8 = 0xFF#8 ∧ d.val.extractLsb' 0 23 ≠ 0
      { out := [(if nan then { d with t0 := 0x7FC00000, t1 := 0x7FC00000, t2 := 0x7FC00000, t3 := 0x7FC00000 }
          else d).cut (i.tans p)] }) ∧
  (∀ (p : Option Dual) (w : FmtA), Does (.mov p w) (dualSize p) w.g w.u [w.a.field] [w.d] fun i _ ds =>
    { out := [{ ds.getD 0 {} with val := val w.a ds 0 }.cut (i.tans p)] }) ∧
  (∀ w : FmtB, Does (.movi w) 8 w.g w.u [] [w.d] fun _ _ _ => one w.imm)

/-- R88: the 64-bit sums of IADD64 and LEA over register pairs, low word first; ZR as a pair reads 0. -/
def Sys2Proof.Claims.PairAddresses : Prop :=
  ∀ w : FmtA,
    let two (a : Src) (ds : List Datum) (k : Nat) : Nat :=
      if a.o = .zr then 0 else (ds.getD k {}).val.toNat + 2 ^ 32 * (ds.getD (k + 1) {}).val.toNat
    let na := (w.a.o.range 2).length
    let pair (a : Src) : List Field := (a.o.range 2).map fun o => ⟨o, a.trap⟩
    let both (x : Int) : LaneOut := { out := [plain (BitVec.ofInt 32 x), plain (BitVec.ofInt 32 (x / 2 ^ 32))] }
    (w.a.o.isQueue = false → w.b.o.isQueue = false →
      Does (.iadd64 w) 8 w.g w.u (pair w.a ++ pair w.b) (w.d.range 2) fun _ _ ds =>
        both (two w.a ds 0 + two w.b ds na : Nat)) ∧
    (w.a.o.isQueue = false →
      Does (.lea w) 8 w.g w.u (pair w.a ++ [w.b.field]) (w.d.range 2) fun _ _ ds =>
        both (two w.a ds 0 + num (w.fl.getLsbD 0) (val w.b ds na) * 2 ^ w.fn.toNat))

/-- R89: PLOP combines two predicates, PRD gathers them in a byte whose bit 7 is 1, PWR writes those that b selects. -/
def Sys2Proof.Claims.PredicateLogic : Prop :=
  (∀ w : FmtPlop, w.fn.toNat < 4 → Does (.plop w) 8 w.g w.u [] [] fun i lane _ =>
    let a := i.g.pred w.pa.neg w.pa.pn lane
    let b := i.g.pred w.pb.neg w.pb.pn lane
    { preds := [(w.pd.pn, [a && b, a || b, xor a b, a && !b].getD w.fn.toNat false)] }) ∧
  (∀ w : FmtA, Does (.prd w) 8 w.g w.u [] [w.d] fun i lane _ =>
    one (ofBits fun n => decide (n = 7) || (decide (n < 7) && i.g.pred false (BitVec.ofNat 3 n) lane))) ∧
  (∀ w : FmtA, Does (.pwr w) 8 w.g w.u [w.a.field, w.b.field] [] fun _ _ ds =>
    { preds := ((List.range 7).filter fun n => (val w.b ds 1).getLsbD n).map
        fun n => (BitVec.ofNat 3 n, (val w.a ds 0).getLsbD n) })

/-! ### Floating-point instructions (spec/03, spec/05) -/

namespace Sys2Proof.Claims

/-- An arithmetic instruction of format A: each element is the exact result of its class, rounded once, with the tangents
of Table 3.8 (R111, R119, R75). -/
def Arithmetic (ins : Option Dual → FmtA → Instr) (k : Arith) (l : FmtA → Layout) (srcs : FmtA → List Src) : Prop :=
  ∀ (p : Option Dual) (w : FmtA), Does (ins p w) (dualSize p) w.g w.u ((srcs w).map Src.field) [w.d] fun i _ ds =>
    arithOut k (l w) (flMode w.fl) (flFtz w.fl) (i.tans p) (words (srcs w) ds) (tansOf ds)

/-- A unary function of Table 5.4 with the derivative of Table 3.9. -/
def Unary (ins : Option Dual → FmtA → Instr) (f : UFn) : Prop :=
  ∀ (p : Option Dual) (w : FmtA), Does (ins p w) (dualSize p) w.g w.u [w.a.field] [w.d] fun i _ ds =>
    unaryOut f (flMode w.fl) (flFtz w.fl) (i.tans p) (val w.a ds 0) (ds.getD 0 {}).tan

/-- The rows of Table 5.5 for the zeros and infinities, in the order +0, −0, +∞, −∞: result and flags. -/
def table55 (f : UFn) : List (W32 × W32 × Flags) :=
  let nan : W32 × Flags := (0x7FC00000, flagInvalid)
  [0x00000000, 0x80000000, 0x7F800000, 0xFF800000].zip (match f with
    | .rcp => [(0x7F800000, flagDivZero), (0xFF800000, flagDivZero), (0x00000000, 0), (0x80000000, 0)]
    | .rsq => [(0x7F800000, flagDivZero), (0xFF800000, flagDivZero), (0x00000000, 0), nan]
    | .sqrt => [(0x00000000, 0), (0x80000000, 0), (0x7F800000, 0), nan]
    | .ex2 => [(0x3F800000, 0), (0x3F800000, 0), (0x7F800000, 0), (0x00000000, 0)]
    | .lg2 => [(0xFF800000, flagDivZero), (0xFF800000, flagDivZero), (0x7F800000, 0), nan]
    | .sin => [(0x00000000, 0), (0x80000000, 0), nan, nan]
    | .cos => [(0x3F800000, 0), (0x3F800000, 0), nan, nan]
    | .tanh => [(0x00000000, 0), (0x80000000, 0), (0x3F800000, 0), (0xBF800000, 0)])

/-- `v` / 2^d rounded to an integer in a mode of Table 3.5: nearest with ties to even, toward zero, toward −∞, toward +∞. -/
def rounded (mode : Nat) (v : Int) (d : Nat) : Int :=
  let f := v / 2 ^ d
  let r := v % 2 ^ d
  if r = 0 then f
  else match mode with
    | 0 => if 2 * r < 2 ^ d ∨ (2 * r = 2 ^ d ∧ f % 2 = 0) then f else f + 1
    | 1 => if v < 0 then f + 1 else f
    | 2 => f
    | _ => f + 1

/-- R126: an integer as an FP32 word. The fraction is the integer scaled to 24 bits and rounded; a carry out of it goes on into
the exponent. -/
def intToFloat (mode : Nat) (v : Int) : LaneOut :=
  let top := v.natAbs.log2
  let frac := if top ≤ 23 then v.natAbs * 2 ^ (23 - top) else (rounded mode v (top - 23)).natAbs
  if v = 0 then one 0
  else { one (BitVec.ofNat 32 ((if v < 0 then 2 ^ 31 else 0) + (top + 126) * 2 ^ 23 + frac)) with
    flags := if top ≤ 23 ∨ v % 2 ^ (top - 23) = 0 then 0 else flagInexact }

/-- R127: an FP32 word as an integer between two limits: 0 of a NaN and the nearest limit of what lies outside, both invalid and
never inexact; else the rounded integer, inexact where it differs. -/
def floatToInt (mode : Nat) (ftz : Bool) (lo hi : Int) (a : W32) : LaneOut :=
  let e := (a.extractLsb' 23 8).toNat
  let f : Int := (a.extractLsb' 0 23).toNat
  let m := if e = 0 then (if ftz then 0 else f) else 2 ^ 23 + f
  let v := if a.msb then -m else m
  let d := 150 - max e 1
  let n := if 150 ≤ e then v * 2 ^ (e - 150) else rounded mode v d
  let inv (x : Int) : LaneOut := { one (BitVec.ofInt 32 x) with flags := flagInvalid }
  if e = 255 then inv (if f ≠ 0 then 0 else if a.msb then lo else hi)
  else if n < lo then inv lo
  else if hi < n then inv hi
  else { one (BitVec.ofInt 32 n) with flags := if 150 ≤ e ∨ v % 2 ^ d = 0 then 0 else flagInexact }

/-- A dense block sum of one register of each source, one scale (R122). -/
def Dot (ins : Option Dual → FmtA → Instr) (f : FmtA → FFmt) (width : Nat) : Prop :=
  ∀ (p : Option Dual) (w : FmtA), Does (ins p w) (dualSize p) w.g w.u [w.a.field, w.b.field, w.c.field] [w.d]
    fun i _ ds => dotOut (f w) width (flMode w.fl) (flFtz w.fl) (i.tans p) one32 [val w.a ds 0] [val w.b ds 1]
      (val w.c ds 2) (fun k => [(ds.getD 0 {}).tan k]) (fun k => [(ds.getD 1 {}).tan k]) fun k => (ds.getD 2 {}).tan k

/-- The elements of a word as numbers, zero- or sign-extended. -/
def elems (width : Nat) (uns : Bool) (x : W32) : List Int :=
  (List.range (32 / width)).map fun j =>
    let e := x.toNat / 2 ^ (width * j) % 2 ^ width
    if uns ∨ e < 2 ^ (width - 1) then (e : Int) else e - 2 ^ width

end Sys2Proof.Claims

/-- R111, R119: FADD, FSUB, FMUL, FFMA, FDIV on FP32 words, HADD2, HMUL2, HFMA2 on two 16-bit elements, FADDI and FMULI
with a literal under RNE. -/
def Sys2Proof.Claims.FloatingArithmetic : Prop :=
  let two (w : FmtA) : List Src := [w.a, w.b]
  let three (w : FmtA) : List Src := [w.a, w.b, w.c]
  let fp (_ : FmtA) : Layout := lay32
  let half (w : FmtA) : Layout := lay16 (w.fn == 1)
  Arithmetic .fadd .add fp two ∧ Arithmetic .fsub .sub fp two ∧ Arithmetic .fmul .mul fp two ∧
  Arithmetic .ffma .fma fp three ∧ Arithmetic .fdiv .div fp two ∧
  Arithmetic .hadd2 .add half two ∧ Arithmetic .hmul2 .mul half two ∧ Arithmetic .hfma2 .fma half three ∧
  (∀ (p : Option Dual) (w : FmtB), Does (.faddi p w) (dualSize p) w.g w.u [⟨w.a, w.fa⟩] [w.d] fun i _ ds =>
    arithOut .add lay32 0 false (i.tans p) [(ds.getD 0 {}).val, w.imm] fun k => [(ds.getD 0 {}).tan k, 0]) ∧
  (∀ (p : Option Dual) (w : FmtB), Does (.fmuli p w) (dualSize p) w.g w.u [⟨w.a, w.fa⟩] [w.d] fun i _ ds =>
    arithOut .mul lay32 0 false (i.tans p) [(ds.getD 0 {}).val, w.imm] fun k => [(ds.getD 0 {}).tan k, 0])

/-- R113, R114, R115, R120: selection, comparison and sign. FSGN changes bit 31 of the primal and of each tangent, and
raises no flag. -/
def Sys2Proof.Claims.FloatingSelection : Prop :=
  (∀ (p : Option Dual) (w : FmtA),
    Does (.fmin p w) (dualSize p) w.g w.u [w.a.field, w.b.field] [w.d] (fun i _ ds =>
      extremeOut false lay32 (flFtz w.fl) (i.tans p) (val w.a ds 0) (val w.b ds 1) (ds.getD 0 {}).tan (ds.getD 1 {}).tan) ∧
    Does (.fmax p w) (dualSize p) w.g w.u [w.a.field, w.b.field] [w.d] (fun i _ ds =>
      extremeOut true lay32 (flFtz w.fl) (i.tans p) (val w.a ds 0) (val w.b ds 1) (ds.getD 0 {}).tan (ds.getD 1 {}).tan) ∧
    Does (.hext2 p w) (dualSize p) w.g w.u [w.a.field, w.b.field] [w.d] (fun i _ ds =>
      extremeOut (w.fn.getLsbD 0) (lay16 (w.fn.getLsbD 1)) (flFtz w.fl) (i.tans p) (val w.a ds 0) (val w.b ds 1)
        (ds.getD 0 {}).tan (ds.getD 1 {}).tan) ∧
    Does (.fsgn p w) (dualSize p) w.g w.u ((if w.fn = 2 then [w.a, w.b] else [w.a]).map Src.field) [w.d] fun i _ ds =>
      let a := val w.a ds 0
      let sign := if w.fn = 0 then false else if w.fn = 1 then !a.msb else (val w.b ds 1).msb
      let turn (x : W32) : W32 := ofBits fun k => if k = 31 then xor x.msb (xor a.msb sign) else x.getLsbD k
      { out := [withTans (turn a) (i.tans p) fun k => turn ((ds.getD 0 {}).tan k)] }) ∧
  (∀ w : FmtAP, Does (.fcmp w) 8 w.g w.u [w.a.field, w.b.field] [] fun _ _ ds =>
    let a := fp32.source (flFtz w.fl) (val w.a ds 0).toNat
    let b := fp32.source (flFtz w.fl) (val w.b ds 1).toNat
    { preds := [(w.pd.pn, fcmpBit w.fn.toNat a b)]
      flags := fp32.sigFlag (val w.a ds 0).toNat ||| fp32.sigFlag (val w.b ds 1).toNat |||
        flagIf (decide (2 ≤ w.fn.toNat ∧ w.fn.toNat ≤ 5) && (a.isNan || b.isNan)) flagInvalid })

/-- R116, R117, R76: the unary functions, with the derivatives of Table 3.9 (log 35: the corners of a derivative that the manual
leaves open), and what each writes and raises for the special sources of Table 5.5, for a NaN and for a negative value. -/
def Sys2Proof.Claims.UnaryFunctions : Prop :=
  (Unary .frcp .rcp ∧ Unary .frsq .rsq ∧ Unary .fsqrt .sqrt ∧ Unary .fex2 .ex2 ∧ Unary .flg2 .lg2 ∧ Unary .fsin .sin ∧
    Unary .fcos .cos ∧ Unary .ftanh .tanh) ∧
  ∀ (f : UFn) (mode : Nat) (ftz : Bool) (n : Nat) (tan : Nat → W32),
    let gives (a y : W32) (flags : Flags) : Prop :=
      (unaryOut f mode ftz n a tan).out.map (·.val) = [y] ∧ (unaryOut f mode ftz n a tan).flags = flags
    (∀ a r, (a, r) ∈ table55 f → gives a r.1 r.2) ∧
    (∀ a : W32, a.extractLsb' 23 8 = 0xFF#8 → a.extractLsb' 0 23 ≠ 0 →
      gives a 0x7FC00000 (if a.getLsbD 22 then 0 else flagInvalid)) ∧
    ∀ a : W32, f = .rsq ∨ f = .sqrt ∨ f = .lg2 → a.msb = true → a.extractLsb' 23 8 ≠ 0xFF#8 →
      a.extractLsb' 23 8 ≠ 0 ∨ (ftz = false ∧ a.extractLsb' 0 23 ≠ 0) → gives a 0x7FC00000 flagInvalid

/-- R121, R122, R123: integer dot products are exact sums, cut or saturated once; DPF8, DPF4 and BSCALE are block sums. -/
def Sys2Proof.Claims.DotProducts : Prop :=
  (∀ w : FmtA,
    let u := w.fl.getLsbD 0
    let sat := w.fl.getLsbD 1
    let dot (width : Nat) (a b c : W32) : W32 :=
      fit sat u (num u c + ((elems width u a).zip (elems width u b)).foldl (fun x e => x + e.1 * e.2) 0)
    Word3 (.dp4 w) w (dot 8) ∧ Word3 (.dp8 w) w (dot 4)) ∧
  Dot .dpf8 (fun w => if w.fn = 0 then e4m3 else e5m2) 8 ∧ Dot .dpf4 (fun _ => e2m1) 4 ∧
  (∀ (p : Option Dual) (w : FmtA),
    Does (.bscale p w) (dualSize p) w.g w.u
      (blockFields w.a ++ blockFields w.b ++ [w.c.field, ⟨w.d, false⟩]) [w.d] fun i _ ds =>
        let a := takeBlock w.a.o ds
        let b := takeBlock w.b.o a.2
        let c := modify w.c.sel (b.2.getD 0 {}).val
        let d := b.2.getD 1 {}
        let g := ((scale16 (c.extractLsb' 0 16).toNat).mul (scale16 (c.extractLsb' 16 16).toNat)).1
        dotOut (if w.fn = 0 then e4m3 else e2m1) (if w.fn = 0 then 8 else 4) (flMode w.fl) (flFtz w.fl) (i.tans p) g
          (a.1.map (·.val)) (b.1.map (·.val)) d.val (tansOf a.1) (tansOf b.1) d.tan)

/-- R124 to R128: conversions. FCVT and PACK2 convert each element with one rounding; I2F gives the rounded FP32 word, and F2I the
rounded integer, 0 for a NaN and the nearest limit out of range. -/
def Obligations.Conversions : Prop :=
  (∀ (p : Option Dual) (w : FmtA),
    let srcs := if 9 < w.fn.toNat then [w.a, w.c] else [w.a]
    let f := fcvtFormats w.fn.toNat
    let conv (mode : Nat) (rand : Option Nat) (x : W32) : W32 × Flags :=
      let r := convert f.1 f.2.2 mode (w.b.sel.getLsbD 0) (flFtz w.fl) rand (x.toNat % 2 ^ f.2.1)
      (BitVec.ofNat 32 r.1, r.2)
    Does (.fcvt p w) (dualSize p) w.g w.u (srcs.map Src.field) [w.d] fun i _ ds =>
      dualOut (i.tans p)
        (conv (flMode w.fl) (if 9 < w.fn.toNat then some ((val w.c ds 1).extractLsb' 0 16).toNat else none) (val w.a ds 0))
        fun k => conv 0 none ((ds.getD 0 {}).tan k)) ∧
  (∀ w : FmtA, Does (.i2f w) 8 w.g w.u [w.a.field] [w.d] fun _ _ ds =>
    intToFloat (flMode w.fl) (num (w.fn == 1) (val w.a ds 0))) ∧
  (∀ w : FmtA, Does (.f2i w) 8 w.g w.u [w.a.field] [w.d] fun _ _ ds =>
    floatToInt (flMode w.fl) (flFtz w.fl) (if w.fn = 1 then 0 else -2 ^ 31) (if w.fn = 1 then 2 ^ 32 - 1 else 2 ^ 31 - 1)
      (val w.a ds 0)) ∧
  (∀ (p : Option Dual) (w : FmtA), w.fn = 0 ∨ w.fn = 1 →
    let pair (mode : Nat) (a b : W32) : W32 × Flags :=
      let c (x : W32) : Nat × Flags :=
        convert fp32 (if w.fn = 0 then fp16 else bf16) mode false (flFtz w.fl) none x.toNat
      joinElems 16 [c a, c b]
    Does (.pack2 p w) (dualSize p) w.g w.u [w.a.field, w.b.field] [w.d] fun i _ ds =>
      dualOut (i.tans p) (pair (flMode w.fl) (val w.a ds 0) (val w.b ds 1)) fun k =>
        pair 0 ((ds.getD 0 {}).tan k) ((ds.getD 1 {}).tan k)) ∧
  (∀ (p : Option Dual) (w : FmtA), w.fn = 2 →
    let lim (x : Int) : Int := if w.fl.getLsbD 0 then max 0 (min 65535 x) else max (-32768) (min 32767 x)
    Does (.pack2 p w) (dualSize p) w.g w.u [w.a.field, w.b.field] [w.d] fun _ _ ds =>
      one (BitVec.ofInt 32 (lim (num (w.fl.getLsbD 0) (val w.a ds 0)) % 2 ^ 16 +
        lim (num (w.fl.getLsbD 0) (val w.b ds 1)) % 2 ^ 16 * 2 ^ 16)))

/-- R134: TGET reads tangent FN, after the modifier; TSET replaces tangent FN and keeps the primal and the others. -/
def Sys2Proof.Claims.TangentAccess : Prop :=
  ∀ w : FmtA, w.fn.toNat < 4 →
    Does (.tget w) 8 w.g w.u [w.a.field] [w.d] (fun _ _ ds => one (modify w.a.sel ((ds.getD 0 {}).tan w.fn.toNat))) ∧
    Does (.tset w) 8 w.g w.u [w.a.field, ⟨w.d, false⟩] [w.d] fun _ _ ds =>
      let d := ds.getD 1 {}
      let x := val w.a ds 0
      { out := [{ val := d.val, t0 := if w.fn = 0 then x else d.t0, t1 := if w.fn = 1 then x else d.t1
                  t2 := if w.fn = 2 then x else d.t2, t3 := if w.fn = 3 then x else d.t3 }] }

namespace Sys2Proof.Claims

/-- The flags in the order in which R110 takes them, with the causes of Table 17.1. -/
def flagOrder : List (Flags × BitVec 8) :=
  [(flagInvalid, 0x20), (flagDivZero, 0x21), (flagOverflow, 0x22), (flagUnderflow, 0x23), (flagInexact, 0x24)]

/-- Where a lane raises a flag that it enables, the instruction writes nothing and traps: the cause is that of the first flag, in the
order above, that some lane raises and enables, the lane the lowest such lane; no lane's register, predicate, queue or flag has
changed when the trap is taken (R110). -/
def TrapsOnFlags (ins : Instr) (size : Nat) (gd : Guard) (u : Bool) (srcs : List Field) (dsts : List Opnd)
    (out : Iss → Nat → List Datum → LaneOut) : Prop :=
  ∀ (s : State) (i : Iss) (ctl : Ctl), Issues s size gd u .fall i ctl → i.ready srcs dsts = .ok () →
    let flags (lane : Nat) : Flags := (out i lane (i.g.reads (srcs.map (·.o)) lane)).flags &&& look 0 i.g.fpte lane
    ∀ (n : Nat) (bit : Flags) (code : BitVec 8) (lane : Nat), flagOrder[n]? = some (bit, code) → lane ∈ i.ex →
      flags lane &&& bit ≠ 0 →
      (∀ l ∈ i.ex, ∀ f ∈ flagOrder.take n, flags l &&& f.1 = 0) → (∀ l ∈ i.ex, l < lane → flags l &&& bit = 0) →
      exec ins s = .next (s.raise i.g i.c.debugStop { code := code, lane := lane } i.hmask)

/-- An instruction computes, from the operands of a lane and the effective count of tangents alone, results and flags; without an
enabled flag it completes with them, and else it traps on them (R109, R110). -/
def Precise (ins : Instr) (p : Option Dual) (gd : Guard) (u : Bool) (srcs : List Field) (dsts : List Opnd) : Prop :=
  ∃ out : Nat → List Datum → LaneOut,
    Does ins (dualSize p) gd u srcs dsts (fun i _ ds => out (i.tans p) ds) ∧
    TrapsOnFlags ins (dualSize p) gd u srcs dsts fun i _ ds => out (i.tans p) ds

end Sys2Proof.Claims

/-- R110: where a lane raises a flag that it enables, an instruction that can raise flags writes nothing and traps: the cause is that
of the first flag, in the order invalid, division by zero, overflow, underflow, inexact, that some lane raises and enables, the
lane the lowest such lane. So it is with FADD, FFMA and FDIV for the flags of their exact results, rounded, and with every other of
them for the flags with which it completes where none is enabled. -/
def Obligations.PreciseFloatingTraps : Prop :=
  ∀ (p : Option Dual) (w : FmtA) (v : FmtB) (x : FmtAP),
    let a := w.a.field
    let ab := [w.a.field, w.b.field]
    let abc := [w.a.field, w.b.field, w.c.field]
    let arith (k : Arith) (srcs : List Src) : Iss → Nat → List Datum → LaneOut := fun i _ ds =>
      arithOut k lay32 (flMode w.fl) (flFtz w.fl) (i.tans p) (words srcs ds) (tansOf ds)
    let traps (ins : Instr) (srcs : List Field) : Prop := Precise ins p w.g w.u srcs [w.d]
    let imm (ins : Instr) : Prop := Precise ins p v.g v.u [⟨v.a, v.fa⟩] [v.d]
    TrapsOnFlags (.fadd p w) (dualSize p) w.g w.u ab [w.d] (arith .add [w.a, w.b]) ∧
    TrapsOnFlags (.ffma p w) (dualSize p) w.g w.u abc [w.d] (arith .fma [w.a, w.b, w.c]) ∧
    TrapsOnFlags (.fdiv p w) (dualSize p) w.g w.u ab [w.d] (arith .div [w.a, w.b]) ∧
    (traps (.fadd p w) ab ∧ traps (.fsub p w) ab ∧ traps (.fmul p w) ab ∧ traps (.ffma p w) abc ∧ traps (.fdiv p w) ab ∧
      imm (.faddi p v) ∧ imm (.fmuli p v)) ∧
    (traps (.hadd2 p w) ab ∧ traps (.hmul2 p w) ab ∧ traps (.hfma2 p w) abc ∧ traps (.fmin p w) ab ∧ traps (.fmax p w) ab ∧
      traps (.hext2 p w) ab ∧ Precise (.fcmp x) none x.g x.u [x.a.field, x.b.field] []) ∧
    (traps (.frcp p w) [a] ∧ traps (.frsq p w) [a] ∧ traps (.fsqrt p w) [a] ∧ traps (.fex2 p w) [a] ∧ traps (.flg2 p w) [a] ∧
      traps (.fsin p w) [a] ∧ traps (.fcos p w) [a] ∧ traps (.ftanh p w) [a]) ∧
    (traps (.dpf8 p w) abc ∧ traps (.dpf4 p w) abc ∧
      traps (.bscale p w) (blockFields w.a ++ blockFields w.b ++ [w.c.field, ⟨w.d, false⟩])) ∧
    (traps (.fcvt p w) ((if 9 < w.fn.toNat then [w.a, w.c] else [w.a]).map Src.field) ∧ traps (.pack2 p w) ab ∧
      Precise (.i2f w) none w.g w.u [a] [w.d] ∧ Precise (.f2i w) none w.g w.u [a] [w.d])

/-! ### Lane instructions (spec/08) -/

/-- R167 to R172: every executing lane's source is read before any lane writes. LXCH gives a lane the source of another
lane of its segment, or its own where that lane does not execute; LPICK that of one lane for all; LRED folds the lanes in
ascending order; LEQV gives the lanes that hold an equal word; PPOLL polls a predicate. -/
def Obligations.LaneInstructions : Prop :=
  (∀ (p : Option Dual) (w : FmtA),
    let read (i : Iss) (lane : Nat) : List Datum := i.g.reads [w.a.o, w.b.o] lane
    let moved (i : Iss) (ds : List Datum) : LaneOut :=
      { out := [{ ds.getD 0 {} with val := val w.a ds 0 }.cut (i.tans p)] }
    Does (.lxch p w) (dualSize p) w.g w.u [w.a.field, w.b.field] [w.d] (fun i lane ds =>
      let src := lxchLane w.fn.toNat (32 >>> w.fl.toNat) lane (val w.b ds 1)
      moved i (if src ∈ i.ex then read i src else ds)) ∧
    Does (.lpick p w) (dualSize p) w.g w.u [w.a.field, w.b.field] [w.d] (fun i _ ds =>
      let src := (val w.b ds 1).toNat % 32
      moved i (if src ∈ i.ex then read i src else read i (i.ex.headD 0)))) ∧
  (∀ w : FmtA,
    let word (i : Iss) (lane : Nat) : W32 := val w.a (i.g.reads [w.a.o] lane) 0
    let mask (ls : List Nat) : W32 := ofBits fun k => decide (k ∈ ls)
    Does (.lred w) 8 w.g w.u [w.a.field] [w.d] (fun i _ _ =>
      one ((i.ex.tail.map (word i)).foldl (lredWord w.fn.toNat) (word i (i.ex.headD 0)))) ∧
    Does (.leqv w) 8 w.g w.u [w.a.field] [w.d] (fun i lane _ =>
      let same := i.ex.filter fun l => word i l = word i lane
      one (mask (if w.fn = 0 then same else if same = i.ex then same else [])))) ∧
  (∀ w : FmtPoll,
    let yes (i : Iss) (lane : Nat) : Bool := i.g.pred w.pa.neg w.pa.pn lane
    match w.d with
    | .pred pd => Does (.ppoll w) 8 w.g w.u [] [] fun i _ _ =>
        { preds := [(pd.pn, if w.fn = 0 then i.ex.all (yes i) else i.ex.any (yes i))] }
    | .reg o => Does (.ppoll w) 8 w.g w.u [] [o] fun i _ _ =>
        one (ofBits fun k => decide (k ∈ i.ex) && yes i k))

/-! ### Flow, traps, regions and special registers (spec/04, spec/08, spec/17) -/

namespace Sys2Proof.Claims

/-- Some active lanes execute and some do not. -/
def Mixed (i : Iss) : Prop := i.ex ≠ maskLanes i.g.ctl.mask

/-- The executing lanes hold one word in an operand that they may read: in bounds and full. -/
structure Agree (i : Iss) (o : Opnd) (x : W32) : Prop where
  bounds : i.inBounds o = true
  full : ∀ lane ∈ i.ex, i.g.isFull lane 0 o = true
  same : ∀ lane ∈ i.ex, (i.g.datum lane o).val = x

/-- The instruction traps with a cause of its lowest executing lane, before any effect of its own (R19, R313, R319). -/
def Traps (ins : Instr) (s : State) (i : Iss) (code : BitVec 8) : Prop :=
  exec ins s = .next (s.raise i.g i.c.debugStop { code := code, lane := i.ex.headD 0 } i.hmask)

/-- The same, from a state that its checks have left. -/
def TrapsFrom (ins : Instr) (s : State) (i : Iss) (code : BitVec 8) : Prop :=
  exec ins s = .next (i.s.raise i.g i.c.debugStop { code := code, lane := i.ex.headD 0 } i.hmask)

/-- A target `x` 4-byte units from `a`. -/
def ahead (a : CodeAt) (x : CodeAt) : CodeAt := a + x * 4

/-- Whether an address lies in a loop's body; addresses count from the kernel entry, and code may lie before it (R91, R94). -/
def inBody (l : LoopEnt) (t : CodeAt) : Prop := l.start.toInt ≤ t.toInt ∧ t.toInt < l.fin.toInt

end Sys2Proof.Claims

/-- R91, R92, Table 4.8: a branch that every active lane takes goes to its target; one that some lanes take is ILLOP
without a reconvergence address, and else splits the group: the fall-through lanes run first, from `a` + 8, the taken lanes
wait with the target, both rejoin at `a` + 4 RC. BRX reads its target in the taken lanes, which must agree. -/
def Sys2Proof.Claims.Branches : Prop :=
  ∀ (w : FmtX) (s : State) (i : Iss),
    s.issueOf 8 w.g false = some i → i.ex ≠ [] →
    let a := i.g.ctl.pc
    let join := ahead a (w.rc.setWidth 64)
    let splits (ins : Instr) (t : CodeAt) : Prop :=
      ∀ (top : DivEnt) (es : List DivEnt) (ctl : Ctl), i.g.ctl.div = top :: es → Mixed i → w.rc ≠ 0 →
        (∀ r, top.rcv = some r → join.toInt ≤ r.toInt) → i.g.ctl.div.length < 255 →
        (∀ l ls, i.g.ctl.loops = l :: ls → inBody l t ∧ a.toInt < join.toInt ∧ join.toInt ≤ l.fin.toInt) →
        Ctl.settle
          ({ pc := a + 8, mask := i.g.ctl.mask &&& ~~~(laneMask i.ex), rcv := some join, loops := i.g.ctl.loops } ::
           { pc := t, mask := laneMask i.ex, rcv := some join, loops := i.g.ctl.loops } ::
           { top with pc := join, join := true } :: es) i.g.ctl.loops (a + 8) = some ctl →
        Goes ins s i ctl
    (∀ ctl, ¬ Mixed i → i.g.ctl.advance (a + 8) (.branch (ahead a (w.tgt.signExtend 64))) = some ctl →
      Goes (.bra w) s i ctl) ∧
    (Mixed i → w.rc = 0 → Traps (.bra w) s i 0x01 ∧ Traps (.brx w) s i 0x01) ∧
    splits (.bra w) (ahead a (w.tgt.signExtend 64)) ∧
    (∀ t, Agree i w.d t → t.extractLsb' 0 2 = 0 →
      (∀ ctl, ¬ Mixed i → i.g.ctl.advance (a + 8) (.branch (t.setWidth 64)) = some ctl → Goes (.brx w) s i ctl) ∧
      splits (.brx w) (t.setWidth 64))

/-- R93: CALL writes the code offset of the next word to D and goes to its target, RET goes to the offset in D; neither
touches the loop stack, and a guard that divides the active lanes is ILLOP. -/
def Sys2Proof.Claims.CallsAndReturns : Prop :=
  ∀ (w : FmtX) (s : State) (i : Iss) (ctl : Ctl),
    (Issues s 8 w.g false (.jump (ahead i.g.ctl.pc (w.tgt.signExtend 64))) i ctl → ¬ Mixed i →
      i.ready [] [w.d] = .ok () →
      Completes (.call w) s i ctl [] [w.d] fun lane =>
        { out := [{ i.g.datum lane w.d with val := (i.g.ctl.pc + 8).setWidth 32 }] }) ∧
    (∀ t : W32, Issues s 8 w.g false (.jump (t.setWidth 64)) i ctl → ¬ Mixed i → Agree i w.d t → t.extractLsb' 0 2 = 0 →
      Goes (.ret w) s i ctl) ∧
    (s.issueOf 8 w.g false = some i → i.ex ≠ [] → Mixed i → Traps (.call w) s i 0x01 ∧ Traps (.ret w) s i 0x01)

/-- R94, R98: the outcomes of LOOP in their order, and of LBRK. -/
def Obligations.LoopInstructions : Prop :=
  ∀ (w : FmtX) (s : State) (i : Iss), s.issueOf 8 w.g false = some i → i.ex ≠ [] →
    let a := i.g.ctl.pc
    let t := ahead a (w.tgt.signExtend 64)
    let loops := i.g.ctl.loops
    (i.inBounds w.d = true → Mixed i → Traps (.loop w) s i 0x04) ∧
    (Mixed i → Traps (.lbrk w) s i 0x04) ∧
    (∀ x y, i.inBounds w.d = true → ¬ Mixed i → (∀ lane ∈ i.ex, i.g.isFull lane 0 w.d = true) → x ∈ i.ex → y ∈ i.ex →
      (i.g.datum x w.d).val ≠ (i.g.datum y w.d).val → Traps (.loop w) s i 0x04) ∧
    (∀ ctl, ¬ Mixed i → Agree i w.d 0 → i.g.ctl.advance (a + 8) (.branch t) = some ctl → Goes (.loop w) s i ctl) ∧
    (∀ n, ¬ Mixed i → Agree i w.d n → n ≠ 0 →
      (4 ≤ loops.length → Traps (.loop w) s i 0x04) ∧
      (loops.length < 4 → (∃ e es, loops = e :: es ∧ e.fin.toInt < t.toInt) → Traps (.loop w) s i 0x04) ∧
      (∀ ctl, loops.length < 4 → (∀ e es, loops = e :: es → t.toInt ≤ e.fin.toInt) →
        Ctl.advance { i.g.ctl with loops := ⟨a + 8, t, n⟩ :: loops } (a + 8) .fall = some ctl →
        Goes (.loop w) s i ctl)) ∧
    (¬ Mixed i → loops = [] → Traps (.lbrk w) s i 0x04) ∧
    (∀ e es ctl, ¬ Mixed i → loops = e :: es →
      Ctl.advance { i.g.ctl with loops := es } (a + 8) .fall = some ctl → Goes (.lbrk w) s i ctl)

/-- R95 over the loops of a group without a reconvergence address at the next word: while the next word is the top body's
end, its count falls by one; a count left starts the body again, none left pops the entry, and the new top is checked at
the same address. -/
def Sys2Proof.Claims.EndCheck : Prop :=
  ∀ (c : Ctl) (top : DivEnt), c.div = [top] → top.rcv = none → ∀ pc : CodeAt,
    (c.loops = [] → c.advance pc .fall = some (Ctl.setPc c pc)) ∧
    (∀ e es, c.loops = e :: es →
      (pc ≠ e.fin → c.advance pc .fall = some (Ctl.setPc c pc)) ∧
      (pc = e.fin → e.count ≠ 1 →
        c.advance pc .fall = some (Ctl.setPc { c with loops := { e with count := e.count - 1 } :: es } e.start)) ∧
      (pc = e.fin → e.count = 1 → c.advance pc .fall = Ctl.advance { c with loops := es } pc .fall))

/-- R96: a uniform taken branch leaves the loops from the innermost one whose body holds the target on, none where no body
does; the loops left are a suffix of those there were, and every loop that is gone lies above and does not hold it. -/
def Sys2Proof.Claims.Unwinding : Prop :=
  ∀ (c : Ctl) (top : DivEnt), c.div = [top] → ∀ a8 t : CodeAt,
    ∃ gone kept, c.loops = gone ++ kept ∧
      c.advance a8 (.branch t) = some (Ctl.setPc { c with loops := kept } t) ∧
      (∀ e ∈ gone, ¬ inBody e t) ∧
      (∀ e es, kept = e :: es → inBody e t)

/-- R161, R97: a path that arrives at its reconvergence address ends and the entry below runs; one that arrives with a
deeper loop stack than the group had at the branch is LOOPDIV. -/
def Sys2Proof.Claims.Reconvergence : Prop :=
  ∀ (c : Ctl) (e e' : DivEnt) (es : List DivEnt) (t : CodeAt), c.div = e :: e' :: es → e.mask ≠ 0 → e.rcv = some t →
    (e.loops.length < c.loops.length → c.advance t (.jump t) = none) ∧
    (c.loops.length ≤ e.loops.length → e'.mask ≠ 0 → e'.rcv ≠ some e'.pc →
      c.advance t (.jump t) =
        if e'.join then
          let r := endCheck 0 c.loops e'.pc
          some (Ctl.setPc ⟨e' :: es, r.1⟩ r.2)
        else some ⟨e' :: es, e'.loops⟩)

/-- R313: SWTRAP and BKPT, and every other trap that an instruction raises outside a handler with TVEC set: the handler
starts at TVEC, with CAUSE, CAUSEPC and the control state saved. TRAP and BKPT end so from every state in which a lane's
guard is true (BKPT unless a debugger stops the context). -/
def Sys2Proof.Claims.TrapEntry : Prop :=
  ∀ (w : FmtB) (s : State) (i : Iss), s.issueOf 8 w.g w.u = some i → i.ex ≠ [] → i.g.tvec ≠ 0 → i.g.inHandler = false →
    (∃ t, exec (.trap w) s = .next t ∧ TrapTaken s t i.g 0x40 i.hmask) ∧
    (i.c.debugStop = false → ∃ t, exec (.bkpt w) s = .next t ∧ TrapTaken s t i.g 0x41 i.hmask) ∧
    (∀ c : CauseRec, isTrapCause c.code = true → c.code ≠ 0x41 → ∀ debug m,
      TrapTaken s (s.raise i.g debug c m) i.g c.code m)

/-- R22, R316: with TVEC = 0, or in a handler, a trap of a group without pending producers, whose context has a fault ring that
the device can use, is a fault: the group awaits a
response with its control state unchanged, CAUSE shows the cause with bit 8 set, and CAUSEPC the instruction. -/
def Sys2Proof.Claims.TrapsWithoutHandlerFault : Prop :=
  ∀ (w : FmtB) (s : State) (i : Iss), s.issueOf 8 w.g w.u = some i → i.ex ≠ [] →
    i.g.tvec = 0 ∨ i.g.inHandler = true → i.g.async = [] → (∀ p ∈ s.pend, p.gid ≠ i.g.id) → s.ringOf i.t.ctx = true →
    ∃ t, exec (.trap w) s = .next t ∧ t.pend = s.pend ∧
      ∃ h, t.group? i.g.id = some h ∧ h.status = .awaiting ∧ h.ctl = i.g.ctl ∧ h.cause = 0x140 ∧
        h.causePc = i.g.ctl.pc.setWidth 32 ∧ h.inHandler = i.g.inHandler

/-- R101, R314: TRET restores the saved control state and goes on after the trapping instruction where CAUSE is SWTRAP or
BKPT, at CAUSEPC otherwise; outside a handler it is ILLOP. -/
def Sys2Proof.Claims.TrapReturn : Prop :=
  ∀ (w : FmtX) (s : State) (i : Iss), s.issueOf 8 w.g false = some i → i.ex ≠ [] →
    (i.g.inHandler = false → Traps (.tret w) s i 0x01) ∧
    (∀ c ctl, i.g.inHandler = true → i.g.saved = some c →
      let at_ := c.near i.g.causePc
      c.advance (i.g.ctl.pc + 8) (.jump (if i.g.cause.extractLsb' 0 8 = 0x40#8 ∨ i.g.cause.extractLsb' 0 8 = 0x41#8
        then at_ + 8 else at_)) = some ctl →
      exec (.tret w) s =
        .next (s.setGroup ({ i.g with saved := none, inHandler := false }.goesOn ctl s.tick)).wake)

/-- R102, R103, R33: REGION opens a region at the next instruction, recording the control state and dropping retained queue
entries, but nothing inside a handler; YIELD and NOP only advance. -/
def Sys2Proof.Claims.RegionsAndHints : Prop :=
  (∀ (w : FmtX) (s : State) (i : Iss) (ctl : Ctl), Issues s 8 w.g false .fall i ctl →
    Goes (.yield w) s i ctl ∧
    (i.g.inHandler = true → Goes (.region w) s i ctl) ∧
    (i.g.inHandler = false → exec (.region w) s = .next (s.setGroup { i.g.goesOn ctl s.tick with
      regionPc := ctl.pc.setWidth 32, regionCnt := i.g.regionCnt + 1, recorded := ctl
      q := i.g.q.map fun e => (e.1, { e.2 with retained := [] }) }).wake)) ∧
  (∀ (w : FmtNop) (s : State) (i : Iss) (ctl : Ctl), Issues s 8 w.g false .fall i ctl → Goes (.nop w) s i ctl)

/-- R104: the waiting form completes without effect once every named operand is full in every executing lane, and waits
until then; the other form writes whether they are. -/
def Sys2Proof.Claims.WaitOnFull : Prop :=
  ∀ (w : FmtWait) (s : State) (i : Iss) (ctl : Ctl), Issues s 8 w.g w.u .fall i ctl →
    let os := [w.a.o, w.b.o, w.c.o]
    let full (lane : Nat) : Bool := os.all (i.g.isFull lane 0)
    os.all i.inBounds = true →
    (w.pd = none → (∀ lane ∈ i.ex, full lane = true) → Goes (.waitf w) s i ctl) ∧
    (w.pd = none → (∃ lane ∈ i.ex, full lane = false) →
      exec (.waitf w) s = .next (s.setGroup { i.g with wait := .blocked })) ∧
    (∀ p, w.pd = some p → Completes (.waitf w) s i ctl [] [] fun lane => { preds := [(p.pn, full lane)] })

namespace Sys2Proof.Claims

/-- The group after a write of a special register that it holds (Table 1.3, R106); lanes is the list that executes. -/
def written (g : Group) (lanes : List Nat) (x : Nat → W32) : Nat → Group
  | 0x040 => { g with cause := x (lanes.headD 0) &&& 0x1FF }
  | 0x041 => { g with causePc := x (lanes.headD 0) &&& 0xFFFFFFFC }
  | 0x044 => { g with tvec := x (lanes.headD 0) &&& 0xFFFFFFFC }
  | 0x080 => { g with fpst := lanes.foldl (fun m l => keep 0 m l ((x l).extractLsb' 0 5)) g.fpst }
  | 0x081 => { g with fpte := lanes.foldl (fun m l => keep 0 m l ((x l).extractLsb' 0 5)) g.fpte }
  | 0x0D0 => { g with tanStride := x (lanes.headD 0) &&& 0xFFFFFFF0 }
  | 0x141 => { g with fbgrp := x (lanes.headD 0) &&& 0x8000FFFF }
  | _ => g

end Sys2Proof.Claims

/-- R105, R20, Table 1.3: MFS of a register that is not remote writes its value in each executing lane, with zero tangents;
of a remote one it starts a producer. -/
def Sys2Proof.Claims.SpecialReads : Prop :=
  ∀ w : FmtB,
    (srRemote w.imm.toNat = false → Does (.mfs w) 8 w.g w.u [] [w.d] fun i lane _ =>
      one (match w.imm.toNat with
        | 0x000 => BitVec.ofNat 32 lane
        | 0x001 => BitVec.ofNat 32 i.g.groupId
        | 0x007 => BitVec.ofNat 32 i.g.nthreads
        | 0x008 => BitVec.ofNat 32 i.c.desc.ctx
        | 0x009 => if i.c.priv then 1 else 0
        | 0x040 => i.g.cause
        | 0x041 => i.g.causePc
        | 0x042 => i.g.regionPc
        | 0x043 => i.g.regionCnt
        | 0x044 => i.g.tvec
        | 0x080 => (look 0 i.g.fpst lane).setWidth 32
        | 0x081 => (look 0 i.g.fpte lane).setWidth 32
        | 0x0D0 => i.g.tanStride
        | 0x100 => i.g.slipCnt
        | 0x141 => i.g.fbgrp
        | n => i.special n lane)) ∧
    (srRemote w.imm.toNat = true → w.d ≠ .zr → ∀ (s : State) (i : Iss) (ctl : Ctl), Issues s 8 w.g w.u .fall i ctl →
      i.ready [] [w.d] = .ok () → Starts (.mfs w) s s i ctl []
        { id := s.nextId, gid := i.g.id, pc := i.g.ctl.pc.setWidth 32, region := i.g.regionCnt, kind := .mfs w.imm.toNat, dst := w.d
          uni := w.u, bytes := 4, lanes := i.ex })

/-- R106, R107, R20, R21: MTS writes the bits that the register defines, from the executing lane (FPST and FPTE from each),
and nothing else; MQRATIO and BRWIN are written in the core and the die; BRWIN is PRIV at user level, and a value out of
range is ILLOP. -/
def Sys2Proof.Claims.SpecialWrites : Prop :=
  ∀ (w : FmtB) (s : State) (i : Iss) (ctl : Ctl), Issues s 8 w.g w.u .fall i ctl → i.ready [⟨w.a, w.fa⟩] [] = .ok () →
    w.a.isQueue = false →
    let sr := w.imm.toNat
    let x (lane : Nat) : W32 := (i.g.datum lane w.a).val
    let v := x (i.ex.headD 0)
    let key := coreKey i.t.die i.t.core
    (sr ∈ [0x040, 0x041, 0x044, 0x080, 0x081, 0x0D0, 0x141] →
      exec (.mts w) s = .next (s.setGroup ((written i.g i.ex x sr).goesOn ctl s.tick)).wake) ∧
    (sr = 0x101 → (1 ≤ v.toNat % 32 ∧ v.toNat % 32 ≤ 16) →
      exec (.mts w) s =
        .next (((s.setCore key { s.coreSt key with mqratio := v.toNat % 32 }).setGroup (i.g.goesOn ctl s.tick)).wake)) ∧
    (sr = 0x101 → ¬ (1 ≤ v.toNat % 32 ∧ v.toNat % 32 ≤ 16) → Traps (.mts w) s i 0x01) ∧
    (sr = 0x102 → v.toNat % 512 ≤ 256 → i.c.priv = true →
      exec (.mts w) s = .next (((s.onDie i.t.die fun d => { d with brwin := v.toNat % 512 }).setGroup
        (i.g.goesOn ctl s.tick)).wake)) ∧
    (sr = 0x102 → v.toNat % 512 ≤ 256 → i.c.priv = false → Traps (.mts w) s i 0x02) ∧
    (sr = 0x102 → 256 < v.toNat % 512 → Traps (.mts w) s i 0x01)

/-! ### Memory instructions (spec/06, spec/12) -/

namespace Sys2Proof.Claims

/-- The address of access `k` of a lane, the primal or tangent `k` − 1: base pair plus offset, spread by TANSTRIDE, modulo
2^64 (R137, R149). -/
def flatAddr (i : Iss) (a : Opnd) (ofs : Int) (lane k : Nat) : Nat := (i.va a ofs lane + k * i.g.tanStride.toNat) % 2 ^ 64

/-- The offset of an access of tile or lane-local memory (R232, R235). -/
def chipOfs (i : Iss) (a : Opnd) (ofs : Int) (lane k : Nat) : Nat :=
  (i.chipAddr a ofs lane + k * i.g.tanStride.toNat) % 2 ^ 64

/-- A flat access may be made at a virtual address, outside the weight-store window: aligned, canonical, translated by the
die's TLB or by a walk that has served the group, permitted, and at a physical address open to the group
(R137, R139, R325). -/
structure Allowed (i : Iss) (kind : Kind) (n va : Nat) (l : Leaf) (pa : Nat) : Prop where
  aligned : va % n = 0
  canonical : canonical va = true
  noWindow : (i.c.desc.ws.getD i.t.die (0, 0)).2 = 0 ∨ ¬ (windowBase ≤ va ∧ va < windowBase + windowSpan)
  leaf : i.leafOf kind va = some (.ok l)
  permitted : i.s.leafCheck i.c.desc ⟨i.c.priv, false, none⟩ kind va n l = .ok pa

/-- The accesses of an instruction, one for each executing lane and each `k` up to `tans`, at these places. -/
def spreadAt (i : Iss) (tans : Nat) (loc : Nat → Nat → Loc) (va : Nat → Nat → Nat) : List Access :=
  i.ex.flatMap fun lane => (List.range (tans + 1)).map fun k =>
    { lane := lane, k := k, loc := loc lane k, va := BitVec.ofNat 64 (va lane k) }

/-- No access of the group that has yet to be performed overlaps these (R142). -/
def Apart (s : State) (gid n : Nat) (accs : List Access) : Prop :=
  ∀ q ∈ s.pend, q.gid = gid → ∀ a ∈ q.accs, ∀ b ∈ accs, a.loc.overlaps q.bytes b.loc n = false

/-- The state after the checks of accesses at these virtual addresses: the core's TLB has taken what it lacked from the
die's (R327). -/
def filled (i : Iss) (tans : Nat) (va : Nat → Nat → Nat) : State :=
  ((i.ex.flatMap fun lane => (List.range (tans + 1)).map (va lane)).filterMap i.fillOf).foldl State.tlbFill i.s

/-- A load of `n` bytes issues, from the state `s0` that its checks leave: its accesses are to be performed later, its
destination is awaited. -/
def LoadIssues (ins : Instr) (s s0 : State) (i : Iss) (ctl : Ctl) (kind : PendKind) (dst : Opnd) (n : Nat)
    (acq : Bool) (sc : Nat) (accs : List Access) : Prop :=
  Starts ins s s0 i ctl []
    { id := s.nextId, gid := i.g.id, pc := i.g.ctl.pc.setWidth 32, region := i.g.regionCnt, kind := kind, dst := dst
      uni := i.uni, bytes := n, lanes := i.ex, accs := accs, acq := acq, sc := sc }

/-- The bytes that a lane's access of a store writes (R138, R141, R149). -/
def storeBytes (i : Iss) (d : Opnd) (n lane k : Nat) : List Byte :=
  dataBytes n k (if d = .zr then List.replicate 4 {} else i.g.reads (d.range (regsFor n)) lane)

/-- The instruction's checks pass, and no acquire of the group is outstanding (R36, R146). -/
def Clear (i : Iss) (srcs dsts : List Opnd) : Prop := i.ready (srcs.map fun o => ⟨o, false⟩) dsts = .ok () ∧ i.held = false

/-- Whether page tables translate an address: it is canonical and outside a weight store window of the die (R226, R325). -/
def mapped (i : Iss) (va : Nat) : Bool :=
  canonical va && !(decide ((i.c.desc.ws.getD i.t.die (0, 0)).2 ≠ 0 ∧ windowBase ≤ va ∧ va < windowBase + windowSpan))

/-- The cause that a flat access of `n` bytes finds, if it finds one (R139, R226, R311, R325): ALIGN before all others, PGRD or
PGWR, WSWRITE for a store in the window, PROT for a load beyond it, and what the leaf forbids. -/
def flatCause (i : Iss) (kind : Kind) (n va : Nat) : Option (BitVec 8) :=
  if va % n ≠ 0 then some 0x03
  else if canonical va = false then some kind.pgCause
  else if mapped i va = false then
    if kind = .write then some 0x13
    else if (i.c.desc.ws.getD i.t.die (0, 0)).2 * 65536 < va - windowBase + n then some 0x12 else none
  else match i.leafOf kind va with
    | none => none
    | some (.error c) => some c
    | some (.ok l) => match i.s.leafCheck i.c.desc ⟨i.c.priv, false, none⟩ kind va n l with
      | .error c => some c
      | .ok _ => none

/-- The cause that an access of a space with a limit finds (R139, R232). -/
def limitCause (n limit ofs : Nat) : Option (BitVec 8) :=
  if ofs % n ≠ 0 then some 0x03 else if limit < ofs + n then some 0x12 else none

/-- Where some access of an executing lane fails its check, the instruction raises the highest-priority cause over all lanes, for the
lowest lane that raised it, with the address that failed in its space, and no lane performs (R139, R319): the group and the
rest of the state are as `s0` has them, the state after the checks. -/
def ChecksFail (ins : Instr) (s0 : State) (i : Iss) (space tans : Nat) (addr : Nat → Nat → Nat)
    (cause : Nat → Nat → Option (BitVec 8)) : Prop :=
  ∀ lane ∈ i.ex, ∀ k ≤ tans, ∀ c, cause lane k = some c →
    (∀ x ∈ i.ex, ∀ j ≤ tans, ∀ d, cause x j = some d → causeRank c ≤ causeRank d ∧
      (causeRank c = causeRank d → lane < x ∨ (lane = x ∧ k ≤ j))) →
    exec ins i.s = .next (s0.raise i.g i.c.debugStop
      { code := c, lane := lane, space := space, addr := BitVec.ofNat 64 (addr lane k) } i.hmask)

/-- The state after the checks of flat accesses: the core's TLB has taken what it lacked, and D is set for each access that
would write and translates (R139, R326, R327). -/
def flatChecked (i : Iss) (kind : Kind) (n tans : Nat) (addr : Nat → Nat → Nat) : State :=
  let vas := (i.ex.flatMap fun lane => (List.range (tans + 1)).map (addr lane)).filter (mapped i)
  let pte (va : Nat) : Option Nat := match i.leafOf kind va with
    | some (.ok l) => if (i.s.leafCheck i.c.desc ⟨i.c.priv, false, none⟩ kind va n l).isOk ∧ kind = .write then some l.pte else none
    | _ => none
  (vas.filterMap pte).foldl State.setDirty ((vas.filterMap i.fillOf).foldl State.tlbFill i.s)

/-- The same of flat accesses: every page that they need is known (a group with a miss waits for the walk first, R327). -/
def FlatChecksFail (ins : Instr) (i : Iss) (kind : Kind) (n tans : Nat) (addr : Nat → Nat → Nat) : Prop :=
  (∀ lane ∈ i.ex, ∀ k ≤ tans, mapped i (addr lane k) = true → i.leafOf kind (addr lane k) ≠ none) →
  ChecksFail ins (flatChecked i kind n tans addr) i 0 tans addr fun lane k => flatCause i kind n (addr lane k)

/-- The registers of a base pair (R137). -/
def basePair (a : Opnd) : List Opnd := if a = .zr then [] else a.range 2

/-- The registers of a tile or lane-local access (R232, R233). -/
def chipBase (a b : Opnd) : List Opnd := (if a = .zr then [] else [a]) ++ if b = .zr then [] else [b]

end Sys2Proof.Claims

/-- R137, R140, R149, R150, R327: LD and LDQ of 1 to 16 bytes whose accesses are allowed issue: each executing lane has an access
at its address and, with TM, one for each tangent at the addresses spread by TANSTRIDE; registers from D are empty, a
queue holds a reserved entry, until the value lands. -/
def Sys2Proof.Claims.LoadsIssue : Prop :=
  ∀ (p : Option Dual) (w : FmtM) (s : State) (i : Iss) (ctl : Ctl),
    Issues s (dualSize p) w.g w.u .fall i ctl →
    let n := 2 ^ w.sz.toNat
    let tans := if i.tm p then i.tans p else 0
    Clear i (basePair w.a) (w.d.range ((n + 3) / 4)) → w.a.isQueue = false →
    ∀ (leaf : Nat → Nat → Leaf) (pa : Nat → Nat → Nat),
      (∀ lane ∈ i.ex, ∀ k ≤ tans, Allowed i .read n (flatAddr i w.a w.ofs.toInt lane k) (leaf lane k) (pa lane k)) →
      let accs := spreadAt i tans (fun lane k => .mem (pa lane k)) (flatAddr i w.a w.ofs.toInt)
      let s0 := filled i tans (flatAddr i w.a w.ofs.toInt)
      Apart s i.g.id n accs →
      LoadIssues (.ld p w) s s0 i ctl .load w.d n (w.ord.getLsbD 0) w.sc.toNat accs ∧
      LoadIssues (.ldq p w) s s0 i ctl .ldq w.d n (w.ord.getLsbD 0) w.sc.toNat accs

/-- R226, R232 to R235: LDT, LDL and LDW issue where the offset is aligned and the access lies below the limit of its space:
the tile bytes of the team at the core offset, the lane's stretch, the context's part of the die's weight store. -/
def Sys2Proof.Claims.ChipLoadsIssue : Prop :=
  ∀ (p : Option Dual) (w : FmtM) (s : State) (i : Iss) (ctl : Ctl),
    Issues s (dualSize p) w.g w.u .fall i ctl →
    let n := 2 ^ w.sz.toNat
    let tans := if i.tm p then i.tans p else 0
    let ofs := chipOfs i w.a w.ofs.toInt
    let wofs (lane k : Nat) : Nat :=
      ((i.va w.a w.ofs.toInt lane + 2 ^ 64 - windowBase) % 2 ^ 64 + k * i.g.tanStride.toNat) % 2 ^ 64
    let fits (o limit : Nat) : Prop := o % n = 0 ∧ o + n ≤ limit
    w.a.isQueue = false → w.b.isQueue = false →
    (∀ t, Clear i (chipBase w.a w.b) (w.d.range ((n + 3) / 4)) → i.coreTeam w.b = some t →
      (∀ lane ∈ i.ex, ∀ k ≤ tans, fits (ofs lane k) (i.l.tileUnits * 256)) →
      let accs := spreadAt i tans (fun lane k => .tile t.id (ofs lane k)) ofs
      Apart s i.g.id n accs → LoadIssues (.ldt p w) s s i ctl .load w.d n (w.ord.getLsbD 0) w.sc.toNat accs) ∧
    (Clear i (chipBase w.a .zr) (w.d.range ((n + 3) / 4)) →
      (∀ lane ∈ i.ex, ∀ k ≤ tans, fits (ofs lane k) i.l.laneBytes) →
      let accs := spreadAt i tans (fun lane k => .lane i.g.id lane (ofs lane k)) ofs
      Apart s i.g.id n accs → LoadIssues (.ldl p w) s s i ctl .load w.d n false 0 accs) ∧
    (Clear i (basePair w.a) (w.d.range ((n + 3) / 4)) →
      let ws := i.c.desc.ws.getD i.t.die (0, 0)
      (∀ lane ∈ i.ex, ∀ k ≤ tans, fits (wofs lane k) (ws.2 * 65536)) →
      let accs := spreadAt i tans (fun lane k => .ws i.t.die (ws.1 * 65536 + wofs lane k)) wofs
      Apart s i.g.id n accs → LoadIssues (.ldw p w) s s i ctl .load w.d n false 0 accs)

/-- R141, R142, R149, R326, R358: a plain ST of allowed accesses completes. The D bits of the leaves are set first, which
gives the state `s0`. Then the group finds, at every byte of memory, the byte of a lane whose access covers it, where a
lane's does, and otherwise what it found in `s0`; every other reader, on its die or elsewhere, finds what it found in `s0`
until the write arrives (log 6); source queues are popped, and the rest of the group, the weight stores and every context
are as in `s0`. -/
def Sys2Proof.Claims.StoreCompletes : Prop :=
  ∀ (p : Option Dual) (w : FmtM) (s : State) (i : Iss) (ctl : Ctl),
    Issues s (dualSize p) w.g w.u .fall i ctl →
    let n := 2 ^ w.sz.toNat
    let tans := if i.tm p then i.tans p else 0
    Clear i (basePair w.a ++ w.d.range ((n + 3) / 4)) [] → w.a.isQueue = false → w.sz.toNat ≤ 4 →
    (w.d.isQueue = true → n ≤ 4) → w.ord.getLsbD 1 = false → s.ecc = false → s.named →
    ∀ (leaf : Nat → Nat → Leaf) (pa : Nat → Nat → Nat),
      (∀ lane ∈ i.ex, ∀ k ≤ tans, Allowed i .write n (flatAddr i w.a w.ofs.toInt lane k) (leaf lane k) (pa lane k)) →
      (∀ lane ∈ i.ex, ∀ k ≤ tans, s.fencedAt (pa lane k) = false) →
      let accs := spreadAt i tans (fun lane k => .mem (pa lane k)) (flatAddr i w.a w.ofs.toInt)
      let s0 := (i.ex.flatMap fun lane => (List.range (tans + 1)).map fun k => (leaf lane k).pte).foldl State.setDirty s
      Apart s i.g.id n accs →
      ∃ t, exec (.st p w) s = .next t ∧
        (∃ g, t.group? i.g.id = some g ∧ i.Leaves ctl (w.d.range ((n + 3) / 4)) [] (fun _ => {}) g) ∧
        (∀ (o : Observer) (a : Nat),
          (∃ lane ∈ i.ex, ∃ k ≤ tans, pa lane k ≤ a ∧ a < pa lane k + n) →
          ∃ lane ∈ i.ex, ∃ k ≤ tans, pa lane k ≤ a ∧ a < pa lane k + n ∧
            t.viewByte (some i.g.id) o a = (storeBytes i w.d n lane k).getD (a - pa lane k) 0) ∧
        (∀ (o : Observer) (a : Nat),
          (∀ lane ∈ i.ex, ∀ k ≤ tans, ¬ (pa lane k ≤ a ∧ a < pa lane k + n)) →
          t.viewByte (some i.g.id) o a = s0.viewByte (some i.g.id) o a) ∧
        (∀ (gid : Option Nat) (o : Observer) (a : Nat), gid ≠ some i.g.id → t.viewByte gid o a = s0.viewByte gid o a) ∧
        t.mem = s0.mem ∧ t.ws = s0.ws ∧ t.pend = s0.pend ∧ t.ctxs = s0.ctxs ∧ t.pkg = s0.pkg

/-- R142, R230, R232 to R236: after STT without release its group finds each lane's bytes in the tile region of the team at
the core offset, and STL writes them into the lane's own stretch; every other byte of either, all of memory, and every other
part of the state is as before, and other readers find the STT's bytes once the store has been performed (log 6).
The lanes' places are told apart here; R141 leaves open which lane's bytes remain where they meet. -/
def Sys2Proof.Claims.ChipStoresComplete : Prop :=
  ∀ (p : Option Dual) (w : FmtM) (s : State) (i : Iss) (ctl : Ctl),
    Issues s (dualSize p) w.g w.u .fall i ctl →
    let n := 2 ^ w.sz.toNat
    let tans := if i.tm p then i.tans p else 0
    let srcs := w.d.range ((n + 3) / 4)
    let ofs := chipOfs i w.a w.ofs.toInt
    let covers (lane k a : Nat) : Prop := ofs lane k ≤ a ∧ a < ofs lane k + n
    let fits (limit : Nat) : Prop := ∀ lane ∈ i.ex, ∀ k ≤ tans, ofs lane k % n = 0 ∧ ofs lane k + n ≤ limit
    let same (t : State) : Prop := t.mem = s.mem ∧ t.teams = s.teams ∧ t.ws = s.ws ∧ t.pend = s.pend ∧
      t.ctxs = s.ctxs ∧ t.pkg = s.pkg ∧ t.cores = s.cores ∧ t.launches = s.launches ∧ t.cmds = s.cmds
    w.a.isQueue = false → w.b.isQueue = false → w.sz.toNat ≤ 4 → (w.d.isQueue = true → n ≤ 4) → s.ecc = false →
    (∀ u, Clear i (chipBase w.a w.b ++ srcs) [] → w.ord.getLsbD 1 = false →
      i.coreTeam w.b = some u → s.team? u.id = some u → fits (i.l.tileUnits * 256) →
      (∀ x ∈ i.ex, ∀ y ∈ i.ex, ∀ j ≤ tans, ∀ k ≤ tans, ofs x j = ofs y k → x = y ∧ j = k) →
      Apart s i.g.id n (spreadAt i tans (fun lane k => .tile u.id (ofs lane k)) ofs) →
      ∃ t, exec (.stt p w) s = .next t ∧ same t ∧
        (∀ (gid : Option Nat) (o : Observer) (a : Nat), t.viewByte gid o a = s.viewByte gid o a) ∧
        (∃ g, t.group? i.g.id = some g ∧ i.Leaves ctl srcs [] (fun _ => {}) g) ∧
        (∀ (r : Site) (x a : Nat), x ≠ u.id ∨ r.gid ≠ some i.g.id → t.tileByte r x a = s.tileByte r x a) ∧
        ∀ a, (∀ lane ∈ i.ex, ∀ k ≤ tans, covers lane k a →
            t.tileByte (s.siteOf i.g.id) u.id a = (storeBytes i w.d n lane k).getD (a - ofs lane k) 0) ∧
          ((∀ lane ∈ i.ex, ∀ k ≤ tans, ¬ covers lane k a) →
            t.tileByte (s.siteOf i.g.id) u.id a = s.tileByte (s.siteOf i.g.id) u.id a)) ∧
    (Clear i (chipBase w.a .zr ++ srcs) [] → fits i.l.laneBytes → i.l.laneBytes ≤ 1024 →
      (∀ x ∈ i.ex, ∀ j ≤ tans, ∀ k ≤ tans, ofs x j = ofs x k → j = k) →
      Apart s i.g.id n (spreadAt i tans (fun lane k => .lane i.g.id lane (ofs lane k)) ofs) →
      ∃ t g, exec (.stl p w) s = .next t ∧ same t ∧ t.inflight = s.inflight ∧ t.group? i.g.id = some g ∧
        Iss.Leaves { i with g := { i.g with lmem := g.lmem } } ctl srcs [] (fun _ => {}) g ∧
        ∀ x a, a < 1024 → (x ∈ i.ex → ∀ k ≤ tans, covers x k a →
            look 0 g.lmem (laneKey x a) = (storeBytes i w.d n x k).getD (a - ofs x k) 0) ∧
          ((x ∉ i.ex ∨ ∀ k ≤ tans, ¬ covers x k a) → look 0 g.lmem (laneKey x a) = look 0 i.g.lmem (laneKey x a)))


/-- R139, R226, R232, R233: a load of which an access fails its check performs none: ALIGN where it is misaligned, PGRD where no
page translates it, PROT above the limit of the weight store window, of tile memory, where also a core without a team of the cluster
has no byte in bounds, or of lane-local memory. -/
def Sys2Proof.Claims.LoadChecksFail : Prop :=
  ∀ (p : Option Dual) (w : FmtM) (s : State) (i : Iss), s.issueOf (dualSize p) w.g w.u = some i → i.ex ≠ [] →
    let n := 2 ^ w.sz.toNat
    let tans := if i.tm p then i.tans p else 0
    let dsts := w.d.range ((n + 3) / 4)
    let ofs := chipOfs i w.a w.ofs.toInt
    let wofs (lane k : Nat) : Nat :=
      ((i.va w.a w.ofs.toInt lane + 2 ^ 64 - windowBase) % 2 ^ 64 + k * i.g.tanStride.toNat) % 2 ^ 64
    let tile := if (i.coreTeam w.b).isSome then i.l.tileUnits * 256 else 0
    (Clear i (basePair w.a) dsts → FlatChecksFail (.ld p w) i .read n tans (flatAddr i w.a w.ofs.toInt) ∧
      FlatChecksFail (.ldq p w) i .read n tans (flatAddr i w.a w.ofs.toInt) ∧
      ChecksFail (.ldw p w) s i 3 tans wofs fun lane k =>
        limitCause n ((i.c.desc.ws.getD i.t.die (0, 0)).2 * 65536) (wofs lane k)) ∧
    (Clear i (chipBase w.a w.b) dsts → ChecksFail (.ldt p w) s i 1 tans ofs fun lane k => limitCause n tile (ofs lane k)) ∧
    (Clear i (chipBase w.a .zr) dsts → ChecksFail (.ldl p w) s i 2 tans ofs fun lane k => limitCause n i.l.laneBytes (ofs lane k))

/-- R139, R226, R232, R233: the same of stores, WSWRITE for one in the weight store window, PGWR where no page lets it write. -/
def Sys2Proof.Claims.StoreChecksFail : Prop :=
  ∀ (p : Option Dual) (w : FmtM) (s : State) (i : Iss), s.issueOf (dualSize p) w.g w.u = some i → i.ex ≠ [] →
    let n := 2 ^ w.sz.toNat
    let tans := if i.tm p then i.tans p else 0
    let srcs := w.d.range ((n + 3) / 4)
    let ofs := chipOfs i w.a w.ofs.toInt
    let tile := if (i.coreTeam w.b).isSome then i.l.tileUnits * 256 else 0
    (Clear i (basePair w.a ++ srcs) [] → FlatChecksFail (.st p w) i .write n tans (flatAddr i w.a w.ofs.toInt)) ∧
    (Clear i (chipBase w.a w.b ++ srcs) [] → ChecksFail (.stt p w) s i 1 tans ofs fun lane k => limitCause n tile (ofs lane k)) ∧
    (Clear i (chipBase w.a .zr ++ srcs) [] →
      ChecksFail (.stl p w) s i 2 tans ofs fun lane k => limitCause n i.l.laneBytes (ofs lane k))
namespace Sys2Proof.Claims

/-- No write of memory on its way touches these bytes. -/
def Settled (s : State) (pa n : Nat) : Prop :=
  ∀ w ∈ s.inflight, w.flat = true → meets w.base w.len pa n = false ∧ ∀ c ∈ w.cells, ¬ (pa ≤ c.1 ∧ c.1 < pa + n)

/-- The operand of an atomic in a lane, as a number (R138, R143). -/
def operand (i : Iss) (b : Opnd) (n lane : Nat) : Nat :=
  if b = .zr then 0 else ofLe (dataBytes n 0 (i.g.reads (b.range (regsFor n)) lane))

end Sys2Proof.Claims

/-- R143, R144, R12: an ATOM with a destination, or a CAS, without release or MCA, whose accesses are allowed, issues: D bits
are set, operands (and for CAS the comparands in D) are read, D is empty until the old value lands, and a region opens
after it. -/
def Sys2Proof.Claims.AtomicsIssue : Prop :=
  ∀ (p : Option Dual) (w : FmtMA) (s : State) (i : Iss) (ctl : Ctl) (ins : Instr) (fn size : Nat),
    ((ins, fn, size) = (Instr.atom p w, w.fn.toNat, dualSize p) ∧ w.fn.toNat < 12) ∨
      (ins, fn, size) = (Instr.cas w, 12, 8) →
    Issues s size w.g w.u .fall i ctl →
    let n := 2 ^ w.sz.toNat
    let r := (n + 3) / 4
    let cmp := if fn = 12 then w.d.range r else []
    i.ready (((basePair w.a) ++ (w.b.range r ++ cmp)).map fun o => ⟨o, false⟩) (w.d.range r) = .ok () → i.held = false →
    w.a.isQueue = false → w.b.isQueue = false → w.d.isQueue = false → w.d ≠ .zr →
    w.ord.getLsbD 1 = false → mcaWrite w.mca w.sc = false → fn ≠ 9 ∨ i.tans p = 0 →
    ∀ (leaf : Nat → Leaf) (pa : Nat → Nat),
      (∀ lane ∈ i.ex, Allowed i .write n (flatAddr i w.a w.ofs.toInt lane 0) (leaf lane) (pa lane)) →
      let accs := spreadAt i 0 (fun lane _ => .mem (pa lane)) (flatAddr i w.a w.ofs.toInt)
      let s0 := (i.ex.map fun lane => (leaf lane).pte).foldl State.setDirty
        (filled i 0 (flatAddr i w.a w.ofs.toInt))
      Apart s i.g.id n accs →
      ∃ (data : List (Nat × List Datum)) (g : Group),
        i.Awaits ctl [] s.nextId r w.d true g ∧
        (∀ lane ∈ i.ex, ∃ ds, look? data lane = some ds ∧
          ofLe (dataBytes n 0 (ds.take r)) = operand i w.b n lane ∧
          (fn = 12 → ds.drop r = i.g.reads (w.d.range r) lane)) ∧
        exec ins s = .next (State.setGroup { s0 with
          nextId := s.nextId + 1
          pend := s.pend ++ [{
            id := s.nextId, gid := i.g.id, pc := i.g.ctl.pc.setWidth 32, region := i.g.regionCnt
            kind := .atom ⟨fn, n, false⟩, dst := w.d
            uni := i.uni, bytes := n, lanes := i.ex, accs := accs, data := data, acq := w.ord.getLsbD 0, sc := w.sc.toNat
            fences := i.g.fences }]
          } g.openRegion).wake

/-- R139, R143, R144, R226: an ATOM that makes an access, or a CAS, of which an access fails its check performs none; in the weight
store window it is WSWRITE. -/
def Sys2Proof.Claims.AtomicChecksFail : Prop :=
  ∀ (p : Option Dual) (w : FmtMA) (s : State) (i : Iss) (ins : Instr) (fn size tans : Nat),
    ((ins, fn, size) = (Instr.atom p w, w.fn.toNat, dualSize p) ∧ w.fn.toNat < 12 ∧
        (w.d = .zr → w.b = .zr → w.fn ≠ 0 ∧ w.fn ≠ 6 ∧ w.fn ≠ 7) ∧
        tans = if w.fn = 9 ∧ i.tm p = true then i.tans p else 0) ∨
      ((ins, fn, size) = (Instr.cas w, 12, 8) ∧ tans = 0) →
    s.issueOf size w.g w.u = some i → i.ex ≠ [] →
    let n := 2 ^ w.sz.toNat
    let r := (n + 3) / 4
    let cmp := if fn = 12 then w.d.range r else []
    i.ready (((basePair w.a) ++ (w.b.range r ++ cmp)).map fun o => ⟨o, false⟩) (w.d.range r) = .ok () → i.held = false →
    FlatChecksFail ins i .write n tans (flatAddr i w.a w.ofs.toInt)

/-- R143: an ATOM without a destination, of one lane, of a group without release fences, at bytes that no write on its way
touches, is performed at once: the coherence-latest value there becomes the function of the old value and the operand, and every other byte's latest value
is as before. -/
def Sys2Proof.Claims.AtomicAtOnce : Prop :=
  ∀ (p : Option Dual) (w : FmtMA) (s : State) (i : Iss) (ctl : Ctl) (lane : Nat),
    Issues s (dualSize p) w.g w.u .fall i ctl → i.ex = [lane] → w.fn.toNat < 12 → w.fn ≠ 9 ∨ i.tans p = 0 →
    let n := 2 ^ w.sz.toNat
    let r := (n + 3) / 4
    i.ready (((basePair w.a) ++ w.b.range r).map fun o => ⟨o, false⟩) [.zr] = .ok () → i.held = false →
    w.a.isQueue = false → w.b.isQueue = false → w.d = .zr → (w.b = .zr → w.fn ≠ 0 ∧ w.fn ≠ 6 ∧ w.fn ≠ 7) →
    w.ord = 0 → w.mca = false → i.g.fences = [] → s.ecc = false → s.Inv →
    ∀ (leaf : Leaf) (pa : Nat),
      Allowed i .write n (flatAddr i w.a w.ofs.toInt lane 0) leaf pa → s.fencedAt pa = false →
      let s0 := s.setDirty leaf.pte
      Settled s0 pa n → Apart s i.g.id n [{ lane := lane, k := 0, loc := .mem pa, va := 0 }] →
      ∀ v, atomNew w.fn.toNat n (ofLe (s0.latestBytes pa n)) (operand i w.b n lane) 0 = some v →
      ∃ t, exec (.atom p w) s = .next t ∧ t.latestBytes pa n = leBytes n v ∧
        ∀ a, ¬ (pa ≤ a ∧ a < pa + n) → t.latestBytes a 1 = s0.latestBytes a 1

/-- R145, R152, R12: a null atomic without order opens a region and accesses nothing; PFD only waits for its base, and
PFI puts none, some or all of the lines of code that its lanes name in the cluster's instruction cache (log 13: which ones is free). -/
def Sys2Proof.Claims.NullAtomicsAndPrefetches : Prop :=
  (∀ (p : Option Dual) (w : FmtMA) (s : State) (i : Iss) (ctl : Ctl),
    Issues s (dualSize p) w.g w.u .fall i ctl → w.d = .zr → w.b = .zr → w.fn = 0 ∨ w.fn = 6 ∨ w.fn = 7 →
    Clear i (basePair w.a) [] → w.ord = 0 →
    exec (.atom p w) s = .next (s.setGroup (i.g.goesOn ctl s.tick).openRegion).wake) ∧
  (∀ (w : FmtM) (s : State) (i : Iss) (ctl : Ctl), Issues s 8 w.g w.u .fall i ctl →
    i.ready ((basePair w.a).map fun o => ⟨o, false⟩) [] = .ok () → Goes (.pfd w) s i ctl ∧
      ∃ lines k, exec (.pfi w) s =
          .next (State.wake (State.setGroup { s with icache := s.icache ++ lines, free := s.free + k } (i.g.goesOn ctl s.tick))) ∧
        ∀ x ∈ lines, x ∉ s.icache ∧ ∃ lane ∈ i.ex, x = (i.t.cluster, flatAddr i w.a w.ofs.toInt lane 0 / 128))

/-- R146, R247, R248: a null atomic with OR 2 completes as a release fence: it performs nothing, and later writes of the group
stand for the release side that carries the group's writes on their way, those that it has acquired, and the reads that it has
yet to perform; memory and every write are as before, and it opens a region. With OR 3 and no read of the group outstanding
it also performs them: every such write has reached every observer of a scope from die on (of tile memory, its place), and
at team or cluster scope is owed to the agents of that extent. -/
def Obligations.ReleaseReachesScope : Prop :=
  ∀ (p : Option Dual) (w : FmtMA) (s : State) (i : Iss) (ctl : Ctl),
    Issues s (dualSize p) w.g w.u .fall i ctl → w.d = .zr → w.b = .zr → w.fn = 0 ∨ w.fn = 6 ∨ w.fn = 7 →
    Clear i (basePair w.a) [] →
    let sc := w.sc.toNat
    let side : Rel :=
      { site := s.siteOf i.g.id, sc := sc
        ids := (s.inflight.filter fun v => v.site.gid = some i.g.id ∨ v.id ∈ i.g.seen).map (·.id)
        reads := (s.pend.filter fun q => q.gid = i.g.id ∧ q.performed = false).map (·.id) }
    (w.ord = 2 →
      ∃ fences : List Rel, exec (.atom p w) s =
          .next (s.setGroup ({ i.g with fences := fences }.goesOn ctl s.tick).openRegion).wake ∧
        ∀ r, r ∈ fences ↔ (r ∈ i.g.fences ∨ r = side) ∧
          ((∃ v ∈ s.inflight, v.id ∈ r.ids ∨ v.maker ∈ r.reads) ∨ ∃ q ∈ s.pend, q.id ∈ r.reads ∧ q.performed = false)) ∧
    (w.ord = 3 → s.Inv → (∀ q ∈ s.pend, q.gid ≠ i.g.id) →
      (∀ v ∈ s.inflight, v.mca = false ∧ ∀ r ∈ v.rels, s.readsDone r = true) →
      ∃ t, exec (.atom p w) s = .next t ∧
        ∀ v ∈ t.inflight, v.site.gid = some i.g.id ∨ v.id ∈ i.g.seen →
          (sc = 1 ∨ sc = 2 → sc ≤ v.owed) ∧
          (3 ≤ sc → v.flat = true → ∀ o ∈ scopeObservers i.c.desc i.t.die sc, v.arrived.contains o = true) ∧
          (3 ≤ sc → v.flat = false → v.arrived ≠ []))

/-- R151: QCFG empties a queue of each executing lane and sets its depth, once its entries have landed; depths beyond the
queue entries that the launch declares are PROT. -/
def Sys2Proof.Claims.QueueConfiguration : Prop :=
  ∀ (w : FmtB) (s : State) (i : Iss) (ctl : Ctl) (n : BitVec 4), Issues s 8 w.g w.u .fall i ctl → w.d = .q n →
    let total (lane : Nat) : Nat :=
      w.imm.toNat + ((List.range 16).map fun k => if k = n.toNat then 0 else (i.g.queue lane k).depth).sum
    (∀ lane ∈ i.ex, ∀ e ∈ (i.g.queue lane n.toNat).entries, ∃ d, e = .landed d) →
    (∀ lane ∈ i.ex, i.l.queueTotal < total lane → (∀ l ∈ i.ex, i.l.queueTotal < total l → lane ≤ l) →
      exec (.qcfg w) s = .next (s.raise i.g i.c.debugStop { code := 0x12, lane := lane } i.hmask)) ∧
    ((∀ lane ∈ i.ex, total lane ≤ i.l.queueTotal) →
      ∃ g : Group, exec (.qcfg w) s = .next (s.setGroup (g.goesOn ctl s.tick)).wake ∧ g = { i.g with q := g.q } ∧
        ∀ (m : BitVec 4) (lane : Nat), g.queue lane m.toNat =
          if m = n ∧ lane ∈ i.ex then { i.g.queue lane m.toNat with depth := w.imm.toNat, entries := [] }
          else i.g.queue lane m.toNat)

/-! ### Leaving, estates and barriers (spec/08, spec/09, spec/10, spec/21) -/

namespace Sys2Proof.Claims

/-- No producer of the group lands in registers or queues of the executing lanes, nor, where they are its last lanes,
anywhere; and no matrix operation of a team that would end has yet to complete (R174, R281). -/
def MayLeave (i : Iss) : Prop :=
  (∀ q ∈ i.s.pend, q.gid = i.g.id → i.lastLanes = false ∧ (q.lanewise = false ∨ ∀ l ∈ q.lanes, l ∉ i.ex)) ∧
  i.matrixBusy = false

/-- The reductions of a launch after the exits of lanes with these statuses (R175). -/
def exited (r : Reduce) (sts : List (BitVec 8)) : Reduce :=
  { r with
    maxSt := sts.foldl (fun m x => max m x.toNat) r.maxSt, orSt := sts.foldl (fun m x => m ||| x) r.orSt
    nonzero := r.nonzero + (sts.filter (· ≠ 0)).length, exited := r.exited + sts.length }

/-- A control state without lanes. -/
def without (c : Ctl) (ls : List Nat) : Ctl :=
  { c with div := c.div.map fun e => { e with mask := e.mask &&& ~~~(laneMask ls) } }

/-- A barrier instruction names barrier `n` of team `t`, and its operands may be read (R193, R194). -/
structure Names (i : Iss) (a : Opnd) (fa : Bool) (imm : W32) (more : List Opnd) (t : Team) (n : Nat) : Prop where
  ready : i.ready (⟨a, fa⟩ :: more.map fun o => ⟨o, false⟩) [] = .ok ()
  number : n = imm.toNat % 1024
  declared : n < i.l.barriers
  team : i.coreTeam a = some t

/-- The phase of a barrier completes when as many have arrived as it counts and no bytes are outstanding (R195). -/
def phased (b : Barrier) : Barrier :=
  if b.count ≤ b.arr ∧ b.pend = 0 then { b with arr := b.arr - b.count, ph := !b.ph } else b

/-- A signed 64-bit number in a register pair; ZR is 0. -/
def pairInt (i : Iss) (d : Opnd) : Int :=
  let x : Nat := i.base d 0 % 2 ^ 64
  if x < 2 ^ 63 then (x : Int) else x - 2 ^ 64

/-- The instruction stores a barrier and opens a region (R195, R12). -/
def SetsBarrier (ins : Instr) (s : State) (g : Group) (ctl : Ctl) (team n : Nat) (b : Barrier) : Prop :=
  exec ins s = .next ((s.setBar team n b).setGroup (g.goesOn ctl s.tick).openRegion).wake

end Sys2Proof.Claims

/-- R173, R174, R175: lanes that exit enter their statuses in the launch's reductions and leave every mask of the group, which
goes on with the lanes left; the last lanes end it. -/
def Sys2Proof.Claims.ExitRemovesLanes : Prop :=
  ∀ (w : FmtA) (s : State) (i : Iss),
    s.issueOf 8 w.g w.u = some i → i.ex ≠ [] → i.ready [w.a.field] [] = .ok () → MayLeave i →
    w.a.o.isQueue = false → i.g.inHandler = false →
    let sts := i.ex.map fun lane => ((modify w.a.sel (i.g.datum lane w.a.o).val).setWidth 8 : BitVec 8)
    let c := without i.g.ctl i.ex
    ∀ ctl, c.advance (i.g.ctl.pc + 8) (if c.mask = 0 then .jump (i.g.ctl.pc + 8) else .fall) = some ctl →
    (i.lastLanes = false →
      exec (.exit w) s = .next ((s.onLaunch i.l.id fun l => { l with red := exited l.red sts }).setGroup
        ({ i.g with
            ctl := ctl, recorded := without i.g.recorded i.ex
            saved := i.g.saved.map fun c => without c i.ex }.goesOn ctl s.tick)).wake) ∧
    (i.lastLanes = true → ∃ t, exec (.exit w) s = .next t ∧ t.group? i.g.id = none ∧ t.mem = s.mem ∧
      (t.launch? i.l.id).map (·.red) = some (exited i.l.red sts))

/-- R202, R203, R206, R207: EXIT.E of one lane whose core store has room leaves an estate at its core under the launch's
chain and the identity of the pair in C, with the registers from B and the release side of the group at device scope, which
carries the group's earlier accesses (R208), and retires the lane as EXIT does; without a chain it is PROT. -/
def Sys2Proof.Claims.ExitLeavesEstate : Prop :=
  ∀ (w : FmtA) (s : State) (i : Iss) (ctl : Ctl) (lane : Nat),
    s.issueOf 8 w.g w.u = some i →
    (i.ex ≠ [] → i.l.chain = 0 → Traps (.exitE w) s i 0x12) ∧
    (i.ex = [lane] → i.l.chain ≠ 0 →
      let n := w.fn.toNat + 1
      i.ready (w.a.field :: (baseFields w.c.o ++ (w.b.o.range n).map fun o => ⟨o, false⟩)) [] = .ok () → MayLeave i →
      i.held = false → w.a.o.isQueue = false → i.g.inHandler = false → i.lastLanes = false →
      let ds := (w.b.o.range n).map (i.g.datum lane)
      let r : EstateRec :=
        { chain := i.l.chain, ident := if w.c.o = .zr then i.defaultIdentity lane else i.base w.c.o lane % 2 ^ 40
          makerSeq := i.l.seq, die := i.t.die, core := i.t.core, ttl := i.l.ttl, prim := ds.map (·.val)
          tans := (List.range i.l.dualN).map fun k => ds.map (·.tan k) }
      bytesOf (s.estates.filter fun e => e.level == .core i.t.die i.t.core) + r.size ≤ coreStoreBytes →
      let c := without i.g.ctl i.ex
      c.advance (i.g.ctl.pc + 8) (if c.mask = 0 then .jump (i.g.ctl.pc + 8) else .fall) = some ctl →
      ∃ t e, exec (.exitE w) s = .next t ∧ e ∈ t.estates ∧ e.body = r ∧ e.ctx = i.t.ctx ∧
        e.level = .core i.t.die i.t.core ∧ e.rels = [i.side 4] ∧
        (∀ f ∈ t.estates, f ≠ e → f.hasKey i.t.ctx r.chain r.ident = false) ∧
        t.mem = s.mem ∧ t.inflight = s.inflight ∧ ∃ g, t.group? i.g.id = some g ∧ lane ∉ maskLanes g.ctl.alive)

/-- R211, R212, R213, R14: CLAIM consumes the live estates of its lanes' keys at issue, empties its status destination and
the registers from B, and its results land later; without a chain it is PROT. -/
def Sys2Proof.Claims.ClaimIssues : Prop :=
  ∀ (w : FmtA) (s : State) (i : Iss) (ctl : Ctl) (b : BitVec 7),
    Issues s 8 w.g w.u .fall i ctl →
    (i.l.chain = 0 → Traps (.claim w) s i 0x12) ∧
    (i.l.chain ≠ 0 → w.b.o = .v b → w.d.isQueue = false →
      let n := w.fn.toNat + 1
      i.ready (baseFields w.a.o) (w.d :: w.b.o.range n) = .ok () →
      let c := s.claimAll i.t.ctx i.l.chain n (i.ex.map fun lane => (lane, i.identity w.a.o lane))
      ∃ g : Group, g = { i.g with v := g.v, s := g.s } ∧
        (∀ (m : BitVec 7) (lane : Nat), lane < 32 → g.vCell m.toNat lane =
          if lane ∈ i.ex ∧ (w.d = .v m ∨ .v m ∈ w.b.o.range n) then { full := false } else i.g.vCell m.toNat lane) ∧
        (∀ m : BitVec 6, g.sCell m.toNat = if w.d = .s m then { full := false } else i.g.sCell m.toNat) ∧
        exec (.claim w) s = .next (State.setGroup { s with
          estates := c.1.estates, nextId := s.nextId + 1
          pend := s.pend ++ [{
            id := s.nextId, gid := i.g.id, pc := i.g.ctl.pc.setWidth 32
            region := if i.g.inHandler then i.g.regionCnt else i.g.regionCnt + 1
            kind := .claim b.toNat n c.2, dst := w.d, uni := false, bytes := 4, lanes := i.ex
            acq := c.2.any (·.est.isSome), sc := 4 }] } (g.goesOn ctl s.tick).openRegion).wake)

/-- R202, R212, R213: what the claims of the lanes consume. Each lane takes, in order, a live estate of its key where one is
left; its status is 0, 2 or 3 as the estate has as many registers as asked for, fewer or more, and 1 without an estate. What
is taken and what is left are together what there was: no estate is taken twice, and no other estate changes. -/
def Sys2Proof.Claims.ClaimsConsumeOnce : Prop :=
  ∀ (s : State) (ctx chain n : Nat) (ls : List (Nat × Nat)),
    let r := s.claimAll ctx chain n ls
    r.2.map (·.lane) = ls.map (·.1) ∧ r.1 = { s with estates := r.1.estates } ∧
    (r.2.filterMap (·.est) ++ r.1.estates).Perm s.estates ∧
    (∀ x ∈ ls.zip r.2, x.2.est = none → x.2.st = 1 ∧
      ∀ e ∈ r.1.estates, ¬ (e.live = true ∧ e.ctx = ctx ∧ e.body.chain = chain ∧ e.body.ident = x.1.2)) ∧
    ∀ x ∈ ls.zip r.2, ∀ e, x.2.est = some e →
      e.live = true ∧ e.ctx = ctx ∧ e.body.chain = chain ∧ e.body.ident = x.1.2 ∧
      x.2.st = if e.body.prim.length = n then 0 else if e.body.prim.length < n then 2 else 3

/-- R195, R12: BARI gives a barrier its count and pending bytes with nothing arrived, BARX changes its pending bytes; a
pending count outside 56 bits is BAROVF. Phases complete as R195 says, and regions open. -/
def Sys2Proof.Claims.BarrierInitAndExpect : Prop :=
  ∀ (w : FmtB) (s : State) (i : Iss) (ctl : Ctl) (t : Team) (n : Nat),
    Issues s 8 w.g w.u .fall i ctl → Names i w.a w.fa w.imm (pairOf w.d) t n →
    let old := look {} t.bars n
    let ok (x : Int) : Prop := -2 ^ 55 ≤ x ∧ x < 2 ^ 55
    (ok (pairInt i w.d) → SetsBarrier (.bari w) s i.g ctl t.id n
      { old with count := w.imm.toNat / 2 ^ 16, arr := 0, pend := pairInt i w.d, brk := false }) ∧
    (¬ ok (pairInt i w.d) → Traps (.bari w) s i 0x2A) ∧
    (ok (old.pend + pairInt i w.d) →
      SetsBarrier (.barx w) s i.g ctl t.id n (phased { old with pend := old.pend + pairInt i w.d })) ∧
    (¬ ok (old.pend + pairInt i w.d) → Traps (.barx w) s i 0x2A)

/-- R195, R196: BARA adds one arrival for each executing lane, under the release side of its group at team scope, or at cluster
scope for another core's barrier; more than 65,535 arrivals are BAROVF. -/
def Sys2Proof.Claims.BarrierArrival : Prop :=
  ∀ (w : FmtB) (s : State) (i : Iss) (ctl : Ctl) (t : Team) (n : Nat),
    Issues s 8 w.g w.u .fall i ctl → Names i w.a w.fa w.imm [] t n →
    let old := look {} t.bars n
    (65535 < old.arr + i.ex.length → Traps (.bara w) s i 0x2A) ∧
    (old.arr + i.ex.length ≤ 65535 → i.held = false →
      SetsBarrier (.bara w) s i.g ctl t.id n
        (phased { s.carriedBy old [i.side (if t.id = i.t.id then 1 else 2)] with arr := old.arr + i.ex.length }))

/-- R195, R196, R197: BARW passes, with an acquire of what the arrivals carry, where the phase it names has been reached, waits
for it otherwise, and passes once the Regulator has released it; while what the arrivals carry cannot be performed yet it stays
released, which is never so where all of that has been performed. BART writes whether the phase has been reached. A broken barrier is BAROVF. -/
def Obligations.BarrierWaits : Prop :=
  (∀ (w : FmtB) (s : State) (i : Iss) (ctl : Ctl) (t : Team) (n : Nat),
    Issues s 8 w.g w.u .fall i ctl → Names i w.a w.fa w.imm [w.d] t n →
    let b := look {} t.bars n
    let q := xor (w.imm.getLsbD 16) ((i.g.datum 0 w.d).val.getLsbD 0)
    let passes : Prop :=
      (∀ u, s.observe i.g.id b.rels = some u → exec (.barw w) s = .next (u.setGroup ((i.kept u).goesOn ctl s.tick)).wake) ∧
      (s.observe i.g.id b.rels = none → exec (.barw w) s = .next (s.setGroup { i.g with wait := .barGo t.id n q }))
    ((∀ r ∈ b.rels, s.bears? r = false) → (s.observe i.g.id b.rels).isSome = true) ∧
    (i.g.wait = .barGo t.id n q → passes) ∧
    (i.g.wait ≠ .barGo t.id n q → b.brk = true → Traps (.barw w) s i 0x2A) ∧
    (b.brk = false → b.ph = q → passes) ∧
    (i.g.wait ≠ .barGo t.id n q → b.brk = false → b.ph ≠ q →
      exec (.barw w) s = .next (s.setGroup { i.g with wait := .bar t.id n q }))) ∧
  (∀ (w : FmtBP) (s : State) (i : Iss) (ctl : Ctl) (t : Team) (n : Nat),
    Issues s 8 w.g w.u .fall i ctl → Names i w.a w.fa w.imm [] t n →
    let b := look {} t.bars n
    (b.brk = true → Traps (.bart w) s i 0x2A) ∧
    (b.brk = false → b.ph ≠ w.imm.getLsbD 16 →
      Completes (.bart w) s i ctl [] [] fun _ => { preds := [(w.pd.pn, false)] }) ∧
    (∀ u, b.brk = false → b.ph = w.imm.getLsbD 16 → s.observe i.g.id b.rels = some u →
      ∃ g, exec (.bart w) s = .next (u.setGroup g).wake ∧
        Iss.Leaves { i with g := i.kept u } ctl [] [] (fun _ => { preds := [(w.pd.pn, true)] }) g))

/-- R376, R377, R378: an FBAR of a member, at a barrier its launch declares, arrives for the member in the open instance of
its group and round, or opens one while fewer than sixteen are open, under the release side of its group, records the EXCH
commands of the round that the member's engine has accepted, and registers its notify barrier; a later one of an arrived member
adds its notify barrier and nothing else; a group that is no member, or an undeclared barrier, is PROT. -/
def Obligations.FabricBarrierArrival : Prop :=
  ∀ (w : FmtB) (s : State) (i : Iss) (ctl : Ctl),
    Issues s 8 w.g false .fall i ctl →
    let n := w.imm.toNat % 1024
    let r := w.imm.toNat / 2 ^ 16
    let fb := i.g.fbgrp
    let me := if fb.msb then s.pkg.self.toNat % 16 else i.t.die
    (i.l.barriers ≤ n → Traps (.fbar w) s i 0x12) ∧
    (n < i.l.barriers → (16 ≤ me ∨ fb.getLsbD me = false) → Traps (.fbar w) s i 0x12) ∧
    (n < i.l.barriers → me < 16 → fb.getLsbD me = true →
      (fb.msb = true ∨ ∀ m < 16, fb.getLsbD m = true → m ∈ i.c.desc.sockets) →
      i.held = false → look? s.ctxs i.t.ctx = some i.c →
      i.c.fbars.length < 16 ∨ (∃ b ∈ i.c.fbars, b.fbgrp = fb ∧ b.r = r) →
      ∃ t c b, exec (.fbar w) s = .next t ∧ t.mem = s.mem ∧ t.inflight = s.inflight ∧ look? t.ctxs i.t.ctx = some c ∧ b ∈ c.fbars ∧
        b.fbgrp = fb ∧ b.r = r ∧ me ∈ b.arrived ∧ (i.t.id, n) ∈ b.notify ∧
        ((∀ x ∈ i.c.fbars, x.fbgrp = fb → x.r = r → me ∉ x.arrived) →
          i.side (if fb.msb then 5 else 4) ∈ b.rels ∧ ∀ o ∈ i.c.offers,
          o.dom = (if fb.msb then 1 else 0) → o.r = r → fb.msb = true ∨ o.die = me → o.cid ∈ b.recorded) ∧
        ∀ x, i.c.fbars.find? (fun y => decide (y.fbgrp = fb ∧ y.r = r)) = some x → me ∈ x.arrived →
          b = { x with notify := x.notify ++ [(i.t.id, n)] })

/-! ### Engines and tasks (spec/09, spec/14) -/

namespace Sys2Proof.Claims

/-- The 64 bytes of a command in sixteen S registers, with the guard slot that the device writes (R255, R257). -/
def commandOf (i : Iss) (sb gslot : Nat) : List Byte :=
  let bs := (List.range 16).flatMap fun k => leBytes 4 (i.g.sCell (sb + k)).d.val.toNat
  bs.take 2 ++ [BitVec.ofNat 8 gslot] ++ bs.drop 3

/-- A group with a predicate written in every active lane; P7 discards it (R258, R9). -/
def flagged (g : Group) (pf : BitVec 3) (b : Bool) : Group := if pf = 7 then g else g.setPreds pf (maskLanes g.ctl.mask) b

end Sys2Proof.Claims

/-- R254, R255, R258, R259, R261, R277: PUSH of a permitted command into a queue with room accepts it, with the release side
of its group where its REL bit asks for a fork, and writes 0 to its flag: a command enters its queue with its fork and what a
RESUME has put before the work of its context (R342), and its context notes an EXCH; a LAUNCH goes to the scheduler, in this model as the very next step (log 3, the model's choice: the
manual gives no time). With QR = 1 it reserves the next entry of its lane's return queue, which must have room too. A region
opens. Without room it writes 1 or, without a flag, makes the group wait. PREEMPT and RESUME are PRIV at user level, and a
return queue of no depth is PROT. -/
def Obligations.PushAccepts : Prop :=
  ∀ (w : FmtP) (s : State) (i : Iss) (ctl : Ctl),
    Issues s 8 w.g false .fall i ctl → i.ready (sFields w.sb.toNat 16) [] = .ok () →
    let bytes := commandOf i w.sb.toNat w.gslot.toNat
    let opc := recNat bytes 0 1
    let qid := w.qid.toNat
    let lane := i.ex.headD 0
    let qr := recBits bytes 0 52 1 = 1
    let qn := recBits bytes 0 48 4
    let q := i.g.queue lane qn
    let room : Prop := s.queueRoom i.c i.t.id qid bytes = true ∧ (qr → q.entries.length < q.depth)
    (i.c.priv = false → opc = 0x41 ∨ opc = 0x42 → Traps (.push w) s i 0x02) ∧
    (i.c.priv = true ∨ (opc ≠ 0x41 ∧ opc ≠ 0x42) →
      (∀ k, engineSocket qid = some k → 8 ≤ k ∨ k ∈ i.c.desc.sockets) →
      (qr → q.depth = 0 → Traps (.push w) s i 0x12) ∧
      ((qr → q.depth ≠ 0) →
        (room → (recBits bytes 0 8 1 = 1 → i.held = false) →
          let s0 := if qr then { s with nextId := s.nextId + 1 } else s
          let g0 := if qr then i.g.setQueue lane qn { q with entries := q.entries ++ [.reserved s.nextId true] } else i.g
          let g := ((flagged g0 w.pf false).goesOn ctl s.tick).openRegion
          (qid = 0x2000 → opc = 0x40 → exec (.push w) s = .next (State.setGroup { s0 with
            agenda := .run (.launch i.t.ctx i.t.id lane i.g.id bytes) :: s0.agenda } g).wake) ∧
          (qid ≠ 0x2000 ∨ opc ≠ 0x40 → ∃ c : Cmd,
            c = { id := s0.nextId, ctx := i.t.ctx, qid := qid, squeue := i.c.desc.queueOf (recNat bytes 3 1), team := i.t.id
                  lid := i.l.id, die := i.t.die, core := i.t.core, cluster := i.t.cluster, corner := i.t.corner
                  teampos := i.t.pos, priv := i.c.priv, bytes := bytes, gslot := w.gslot.toNat
                  ret := if qr then some ⟨i.g.id, lane, qn, s.nextId⟩ else none
                  forks := if recBits bytes 0 8 1 = 1 then [i.side (cmdScope bytes)] else []
                  carry := s.onWay i.c.before } ∧
            exec (.push w) s = .next (((State.onCtx { s0 with nextId := s0.nextId + 1, cmds := s0.cmds ++ [c] } i.t.ctx
              fun x => x.noteExch c).setGroup g).wake))) ∧
        (¬ room →
          (w.pf ≠ 7 → exec (.push w) s =
            .next (s.setGroup ((flagged i.g w.pf true).goesOn ctl s.tick).openRegion).wake) ∧
          (w.pf = 7 → exec (.push w) s = .next (s.setGroup { i.g with wait := .blocked })))))

/-- R260, R278: WPW passes, with an acquire of what the deliveries carry, once the team's write pointer of the queue has reached
the target in its register pair; with a flag it writes whether it has, and does not wait for the pointer. -/
def Sys2Proof.Claims.WritePointerWait : Prop :=
  ∀ (w : FmtP) (s : State) (i : Iss) (ctl : Ctl),
    Issues s 8 w.g false .fall i ctl → i.ready (sFields w.sb.toNat 2) [] = .ok () →
    let target := (i.g.sCell w.sb.toNat).d.val.toNat + 2 ^ 32 * (i.g.sCell (w.sb.toNat + 1)).d.val.toNat
    let done := target ≤ (look 0 i.t.wptr w.qid.toNat).toNat
    let rels := look [] i.t.wrels w.qid.toNat
    ((∀ r ∈ rels, s.bears? r = false) → (s.observe i.g.id rels).isSome = true) ∧
    (∀ u, done → s.observe i.g.id rels = some u →
      exec (.wpw w) s = .next (u.setGroup ((flagged (i.kept u) w.pf true).goesOn ctl s.tick)).wake) ∧
    (done → s.observe i.g.id rels = none → exec (.wpw w) s = .next (s.setGroup { i.g with wait := .blocked })) ∧
    (¬ done → w.pf ≠ 7 → exec (.wpw w) s = .next (s.setGroup ((flagged i.g w.pf false).goesOn ctl s.tick)).wake) ∧
    (¬ done → w.pf = 7 → exec (.wpw w) s = .next (s.setGroup { i.g with wait := .blocked }))

/-- R262, R263: GUARD gives its verdict, bit 0 of its register, to the team's commands of the queue with the slot and no
verdict yet, and with the scheduler's queue to launches, and to no others; with a verdict of 1 each of them gets the release
side of the group at its own scope as a fork. -/
def Sys2Proof.Claims.GuardVerdicts : Prop :=
  ∀ (w : FmtP) (s : State) (i : Iss) (ctl : Ctl),
    Issues s 8 w.g false .fall i ctl → i.ready (sFields w.sb.toNat 1) [] = .ok () →
    let v := (i.g.sCell w.sb.toNat).d.val.getLsbD 0
    let hit (c : Cmd) : Prop := c.team = i.t.id ∧ c.qid = w.qid.toNat ∧ c.gslot = w.gslot.toNat ∧ c.verdict = none
    let hitL (l : Launch) : Prop :=
      w.qid.toNat = 0x2000 ∧ l.team = some i.t.id ∧ l.gslot = w.gslot.toNat ∧ l.verdict = none
    let fork (bytes : List Byte) : List Rel := if v = true then [i.side (cmdScope bytes)] else []
    (v = true → ((∃ c ∈ s.cmds, hit c) ∨ ∃ l ∈ s.launches, hitL l) → i.held = false) →
    exec (.guard w) s = .next (State.setGroup { s with
      cmds := s.cmds.map fun (c : Cmd) =>
        if hit c then { c with verdict := some v, forks := c.forks ++ fork c.bytes } else c
      launches := s.launches.map fun (l : Launch) =>
        if hitL l then { l with verdict := some v, forks := l.forks ++ fork l.record } else l
      } (i.g.goesOn ctl s.tick).openRegion).wake

namespace Sys2Proof.Claims

/-- The words written to consecutive registers, with zero tangents. -/
def Gives (g h : Group) (os : List Opnd) (ws : List W32) : Prop :=
  h = { g with s := h.s } ∧ (∀ x ∈ os.zip ws, ∀ n, x.1 = .s n → h.sCell n.toNat = { d := plain x.2, full := true }) ∧
  ∀ n : BitVec 6, .s n ∉ os.take ws.length → h.sCell n.toNat = g.sCell n.toNat

end Sys2Proof.Claims

namespace Sys2Proof.Claims

/-- A piece with its next chunk handed out, of `step` iterations at most (hand_out, R200). -/
def handed (p : Piece) (step : Nat) : Piece :=
  { p with chunkLo := p.next, chunkHi := min (p.next + step) p.hi, next := min (p.next + step) p.hi }

/-- TGRAB completes with a piece: the four registers from D hold the chunk's bounds, the node and the handle, the context
holds the piece `p` with that chunk handed out, of the nodes `nodes` and among `pieces`; a region opens. -/
def Grabs (w : FmtB) (s : State) (i : Iss) (ctl : Ctl) (step : Nat) (p : Piece) (nodes : List Node)
    (pieces : List Piece) : Prop :=
  let q := handed p step
  ∃ h, exec (.tgrab w) s = .next (((State.onCtx { s with nextId := s.nextId + 1 } i.t.ctx fun _ =>
      { i.c with nodes := nodes, pieces := pieces.map fun x => if x.handle = p.handle then q else x }).setGroup
      (h.goesOn ctl s.tick).openRegion).wake) ∧
    Gives i.g h (w.d.range 4) [BitVec.ofNat 32 q.chunkLo, BitVec.ofNat 32 q.chunkHi, BitVec.ofNat 32 p.node, handleWord p.handle]

end Sys2Proof.Claims

/-- R200: TGRAB completes. A READY node of its graph, the lowest, becomes RUNNING and gives a piece of its whole interval; else,
as log 24 reads R200, the returned piece with most iterations left is taken; else the largest piece of at least two grains, of the group's own die
if one is there, gives up its upper half. The chunk goes into the four registers from D. Where the graph has none of these, the
last two of them become 0xFFFFFFFF and 0. -/
def Sys2Proof.Claims.TaskGrab : Prop :=
  ∀ (w : FmtB) (s : State) (i : Iss) (ctl : Ctl) (d : BitVec 6),
    Issues s 8 w.g w.u .fall i ctl → w.d = .s d → i.ready [] (w.d.range 4) = .ok () →
    (∀ p ∈ i.c.pieces, p.handle ≠ s.nextId) →
    (∀ x ∈ i.c.nodes, ∀ y ∈ i.c.nodes, x.graph = y.graph → x.node = y.node → x = y) →
    let graph := w.imm.toNat
    let ready := i.c.nodes.filter fun x => decide (x.graph = graph ∧ x.state = .ready)
    let back := i.c.pieces.filter fun p => decide (p.graph = graph ∧ p.holder = none)
    let can := i.c.pieces.filter fun p => decide (p.graph = graph ∧ 2 * i.c.grainOf p ≤ p.hi - p.next)
    let near := can.filter fun p => decide (p.die = i.t.die)
    (∀ x ∈ ready, (∀ y ∈ ready, x.node ≤ y.node) →
      let p : Piece :=
        { handle := s.nextId, graph := graph, node := x.node, next := x.lo, hi := x.hi, chunkLo := x.lo, chunkHi := x.lo
          holder := some i.g.id, die := i.t.die }
      Grabs w s i ctl (max x.grain 1) p
        (i.c.nodes.map fun y => if y.graph = graph ∧ y.node = x.node then { y with state := .running } else y)
        (i.c.pieces ++ [p])) ∧
    (ready = [] → ∀ p, largest back = some p →
      Grabs w s i ctl (i.c.grainOf p) { p with holder := some i.g.id, die := i.t.die } i.c.nodes i.c.pieces) ∧
    (ready = [] → back = [] → ∀ p, largest (if near = [] then can else near) = some p →
      let mid := p.next + (p.hi - p.next) / 2
      let r : Piece := { p with handle := s.nextId, next := mid, chunkLo := mid, chunkHi := mid
                                holder := some i.g.id, die := i.t.die }
      Grabs w s i ctl (i.c.grainOf p) r i.c.nodes
        ((i.c.pieces.map fun x => if x.handle = p.handle then { x with hi := mid } else x) ++ [r])) ∧
    (ready = [] → back = [] → can = [] →
      ∃ h, exec (.tgrab w) s = .next (s.setGroup (h.goesOn ctl s.tick).openRegion).wake ∧
        Gives i.g h ((w.d.range 4).drop 2) [0xFFFFFFFF, 0])

/-- R199, R200: TDONE completes, where the group holds a piece under the handle and no acquire of it is outstanding. Its context
keeps the release side of the group, which log 24 reads to be at system scope, for the record of the graph. It retires the iterations [Sd, Sd+1) of the piece's node: these and no others leave those not yet retired, and a RUNNING
node with none left is DONE. The piece gives its next chunk, or without one is freed. Where the node becomes DONE the graph
moves on, and the group waits while what its TDONEs carry cannot be performed yet, or if it must post entries without room. A handle that the group does not hold is PROT. -/
def Sys2Proof.Claims.TaskDone : Prop :=
  ∀ (w : FmtB) (s : State) (i : Iss) (ctl : Ctl) (d : BitVec 6),
    Issues s 8 w.g w.u .fall i ctl → w.d = .s d →
    i.ready ((w.d.range 4).map fun o => ⟨o, false⟩) (w.d.range 4) = .ok () →
    let v (k : Nat) : W32 := (i.g.sCell (d + BitVec.ofNat 6 k).toNat).d.val
    let lo := (v 0).toNat
    let hi := (v 1).toNat
    let mine (p : Piece) : Prop := p.holder = some i.g.id ∧ handleWord p.handle = v 3
    ((∀ p ∈ i.c.pieces, ¬ mine p) → Traps (.tdone w) s i 0x12) ∧
    (∀ p, i.c.pieces.find? (fun p => decide (mine p)) = some p → i.held = false →
      let q := handed p (i.c.grainOf p)
      let of (x : Node) : Prop := x.graph = p.graph ∧ x.node = p.node
      ∃ (nodes : List Node) (h : Group),
        nodes.length = i.c.nodes.length ∧
        (∀ x ∈ i.c.nodes.zip nodes,
          (¬ of x.1 → x.2 = x.1) ∧
          (of x.1 → x.2 = { x.1 with left := x.2.left, state := x.2.state } ∧
            (∀ n, (∃ y ∈ x.2.left, y.1 ≤ n ∧ n < y.2) ↔
              (∃ y ∈ x.1.left, y.1 ≤ n ∧ n < y.2) ∧ ¬ (lo ≤ n ∧ n < hi)) ∧
            x.2.state = if x.1.state = .running ∧ x.2.left = [] then .done else x.1.state)) ∧
        (if p.next < p.hi then
          Gives i.g h (w.d.range 4)
            [BitVec.ofNat 32 q.chunkLo, BitVec.ofNat 32 q.chunkHi, BitVec.ofNat 32 p.node, handleWord p.handle]
         else Gives i.g h ((w.d.range 4).drop 2) [0xFFFFFFFF, 0]) ∧
        let s1 := s.onCtx i.t.ctx fun x => { x with
          nodes := nodes
          taskRels := (i.c.taskRels ++ [(p.graph, i.side 5)]).filter fun x => s.bears? x.2
          pieces := if p.next < p.hi then i.c.pieces.map fun y => if y.handle = p.handle then q else y
            else i.c.pieces.filter fun y => y.handle ≠ p.handle }
        let ends : Prop := (∃ x ∈ i.c.nodes, of x ∧ x.state = .running) ∧ ∃ x ∈ nodes, of x ∧ x.state = .done
        let waits : Prop := exec (.tdone w) s = .next (s.setGroup { i.g with wait := .blocked })
        (¬ ends → exec (.tdone w) s = .next (s1.setGroup (h.goesOn ctl s.tick).openRegion).wake) ∧
        (ends → s1.nodeDone i.t.ctx p.graph p.node = none → waits) ∧
        (∀ s2, ends → s1.nodeDone i.t.ctx p.graph p.node = some s2 →
          (s1.postedBy i.t.ctx s2 = true → exec (.tdone w) s =
            .next (s2.setGroup ((Iss.kept { i with g := h } s2).goesOn ctl s.tick).openRegion).wake) ∧
          (s1.postedBy i.t.ctx s2 = false → waits)))

/-! ### The matrix unit (spec/15) -/

namespace Sys2Proof.Claims

/-- The only changes are in the groups, as given, and in one core. -/
structure OnlyCore (s t : State) (groups : List Group) (key : Nat) (c : CoreSt) : Prop where
  groups : t.groups = groups
  core : t.coreSt key = c
  others : ∀ j, j ≠ key → t.coreSt j = s.coreSt j
  rest : { t with groups := [], cores := [] } = { s with groups := [], cores := [] }

/-- The core of the issuing team, and the number of an S register's word. -/
def coreOf (i : Iss) : CoreSt := i.s.coreSt (coreKey i.t.die i.t.core)
def sNat (i : Iss) (n : Nat) : Nat := (i.g.sCell n).d.val.toNat

/-- The tiles of the core are this team's, or no team's (R281). -/
def Owns (i : Iss) : Prop := (coreOf i).owner = none ∨ (coreOf i).owner = some i.t.id

/-- Whether a claim is that which a waiting instruction of the group has made at its issue. -/
def OwnClaim (i : Iss) (k : Claim) : Prop := k.isOp = false ∧ k.key = i.g.id

/-- No other agent has a claim on these tiles, or on those that the group's waiting instruction has claimed (R282). -/
def Unclaimed (i : Iss) (tiles : List Nat) : Prop :=
  ∀ k ∈ (coreOf i).claims, OwnClaim i k ∨
    ∀ x ∈ k.tiles, x ∉ tiles ∧ ∀ o ∈ (coreOf i).claims, OwnClaim i o → x ∉ o.tiles

/-- The claims of the core without that of the group. -/
def claimsLeft (i : Iss) : List Claim := (coreOf i).claims.filter fun k => k.isOp || decide (k.key ≠ i.g.id)

/-- The instruction completes: the owner and the tiles of its core are as given, its own claim has ended, and nothing else
of the state in which it does its work changes but that its group goes on. -/
def Retiles (ins : Instr) (s : State) (i : Iss) (ctl : Ctl) (owner : Option Nat) (tile : Nat → Tile → Prop) : Prop :=
  ∃ t c, exec ins s = .next t ∧
    OnlyCore i.s t ((i.s.setGroup (i.g.goesOn ctl s.tick)).wake).groups (coreKey i.t.die i.t.core) c ∧
    c = { coreOf i with owner := owner, tiles := c.tiles, claims := claimsLeft i } ∧ ∀ n, tile n (c.tile n)

/-- The instruction waits. -/
def Waits (ins : Instr) (s : State) (i : Iss) : Prop := exec ins s = .next (s.setGroup { i.g with wait := .blocked })

/-- The shape that TCFG's registers give a tile: rows, then columns (R284). -/
def shapeIn (i : Iss) (sa n : Nat) : Nat × Nat :=
  let x := sNat i (sa + n / 2) / 2 ^ (16 * (n % 2))
  (x % 256, x / 256 % 256)

/-- The shapes of TCFG: multiples of 8 up to 64, both zero or neither, 64 KiB in all (R280, R284). -/
def Shapes (i : Iss) (sa : Nat) : Prop :=
  (∀ n < 8, (shapeIn i sa n).1 % 8 = 0 ∧ (shapeIn i sa n).1 ≤ 64 ∧ (shapeIn i sa n).2 % 8 = 0 ∧ (shapeIn i sa n).2 ≤ 64 ∧
    ((shapeIn i sa n).1 = 0 ↔ (shapeIn i sa n).2 = 0)) ∧
  ((List.range 8).map fun n => 4 * (shapeIn i sa n).1 * (shapeIn i sa n).2).sum ≤ 65536

/-- Tiles `d` to `d` + `n` exist and have one shape (R295). -/
def Alike (c : CoreSt) (d n : Nat) : Prop :=
  d + n ≤ 7 ∧ ∀ k, d ≤ k → k ≤ d + n → (c.tile k).h = (c.tile d).h ∧ (c.tile k).w = (c.tile d).w

end Sys2Proof.Claims

/-- R281, R282, R284, R285: TCFG takes the core's tiles for the team and gives each the shape of its registers, a tile of another
shape before becoming zero; TREL makes a tile absent; MZERO zeroes a tile and those of its tangents. Each waits while another
team owns the tiles; a shape outside the limits, an absent tile or unlike tangent tiles are TSHAPE. -/
def Sys2Proof.Claims.TileInstructions : Prop :=
  ∀ (p : Option Dual) (w : FmtT) (s : State) (i : Iss) (ctl : Ctl) (ins : Instr) (size : Nat),
    (ins, size) = (.tcfg w, 8) ∨ (ins, size) = (.trel w, 8) ∨ (ins, size) = (.mzero p w, dualSize p) →
    Issues s size w.g false .fall i ctl → (ins = .tcfg w → i.ready (sFields w.sa.toNat 4) [] = .ok ()) →
    let c := coreOf i
    let d := w.td.toNat
    let n := i.tans p
    let sa := w.sa.toNat
    (¬ Owns i → Waits ins s i) ∧
    (Owns i → ins = .tcfg w →
      (¬ Shapes i sa → Traps ins s i 0x29) ∧
      (Shapes i sa →
        Unclaimed i ((List.range 8).filter fun n => decide (((c.tile n).h, (c.tile n).w) ≠ shapeIn i sa n)) →
        Retiles ins s i ctl (some i.t.id) fun n u =>
          u = if n < 8 ∧ ((c.tile n).h, (c.tile n).w) ≠ shapeIn i sa n then
            { h := (shapeIn i sa n).1, w := (shapeIn i sa n).2 } else c.tile n)) ∧
    (Owns i → ins = .trel w → Unclaimed i [d] →
      Retiles ins s i ctl c.owner fun k u => u = if k = d then {} else c.tile k) ∧
    (Owns i → ins = .mzero p w →
      ((c.tile d).h = 0 ∨ ¬ Alike c d n → Traps ins s i 0x29) ∧
      ((c.tile d).h ≠ 0 → Alike c d n → Unclaimed i ((List.range (n + 1)).map (d + ·)) →
        Retiles ins s i ctl c.owner fun k u =>
          u = if d ≤ k ∧ k ≤ d + n then { c.tile k with words := [] } else c.tile k))

/-- R306: MFLG reads the team's matrix flags and clears them, once no operation of the group is accepted and uncompleted; where
no team owns the tiles it reads 0. -/
def Sys2Proof.Claims.MatrixFlags : Prop :=
  ∀ (w : FmtA) (s : State) (i : Iss) (ctl : Ctl), Issues s 8 w.g false .fall i ctl → i.ready [] [w.d] = .ok () →
    let c := coreOf i
    let mine : Prop := ∃ m ∈ c.mq0 ++ c.mq1, m.gid = i.g.id
    (c.owner = none → Completes (.mflg w) s i ctl [] [w.d] fun _ => one 0) ∧
    (c.owner = some i.t.id → ¬ mine →
      ∃ g, exec (.mflg w) s = .next ((s.onTeam i.t.id fun u => { u with mflags := 0 }).setGroup g).wake ∧
        i.Leaves ctl [] [w.d] (fun _ => one (i.t.mflags.setWidth 32)) g) ∧
    (∀ o, c.owner = some o → o ≠ i.t.id ∨ mine → Waits (.mflg w) s i)

namespace Sys2Proof.Claims

/-- The rows of an MLOOP: those of its register, or of the tile (Table 15.3). -/
def rowsIn (i : Iss) (w : FmtT) : Nat :=
  if sNat i (w.sa.toNat + 3) % 256 = 0 then ((coreOf i).tile w.td.toNat).h else sNat i (w.sa.toNat + 3) % 256

/-- An operation is as the registers and fields of an MLOOP describe it (Tables 15.3, 15.4; R287), and its gather list as the
group finds it in the state `at_` (R292). -/
structure Describes (i : Iss) (at_ : State) (p : Option Dual) (w : FmtT) (m : MOp) : Prop where
  team : m.team = i.t.id ∧ m.gid = i.g.id
  tiles : m.td = w.td.toNat ∧ m.ta = (if w.asrc then some w.ta.toNat else none) ∧ m.tans = i.tans p
  bits : m.acc = w.acc ∧ m.z = w.z ∧ m.skip = w.sp.getLsbD 0
  a : m.a0 = sNat i w.sa.toNat ∧ m.ainc = (i.g.sCell (w.sa.toNat + 1)).d.val.toInt
  b : m.bsp = (sNat i w.sb.toNat).testBit 31 ∧
    m.b0 = (if m.bsp then 16 * (sNat i w.sb.toNat % 2 ^ 31) else sNat i w.sb.toNat) ∧
    m.binc = (i.g.sCell (w.sb.toNat + 1)).d.val.toInt
  fmt : m.afmt = sNat i w.sf.toNat % 16 ∧ m.bfmt = sNat i w.sf.toNat / 16 % 16
  fmtBits : m.bl16 = ((sNat i w.sf.toNat).testBit 8 && mxScaled m.afmt) ∧ m.at_ = (sNat i w.sf.toNat).testBit 9 ∧
    m.bt = (sNat i w.sf.toNat).testBit 10 ∧ m.stride = i.g.tanStride
  scale : m.aso = sNat i (w.sf.toNat + 1) % 2 ^ 16 ∧ m.bso = sNat i (w.sf.toNat + 1) / 2 ^ 16
  shape : m.rows = rowsIn i w ∧
    m.cols = if sNat i (w.sa.toNat + 3) / 256 % 256 = 0 then ((coreOf i).tile m.td).w else sNat i (w.sa.toNat + 3) / 256 % 256
  bar : m.bar = if sNat i (w.sa.toNat + 3) / 65536 = 0xFFFF then none else some (sNat i (w.sa.toNat + 3) / 65536)
  count : m.count = (i.g.datum 0 w.kc).val.toNat
  fresh : m.step = 0 ∧ m.started = false ∧ m.done = false
  rowOf : ∀ r < m.rows, m.rowOf.getD r none =
    let list := sNat i (w.sa.toNat + 2)
    let byte (a : Nat) : Nat := (at_.tileByte (at_.siteOf i.g.id) i.t.id a).toNat
    let x := byte (list + 2 * r) + 256 * byte (list + 2 * r + 1)
    if list = 0 then some r else if x = 0xFFFF then none else some x

end Sys2Proof.Claims

/-- R282, R283, R287 to R289, R297, R302: an MLOOP whose operands keep the limits is accepted by its queue, with the release
side of its group at team scope, as the operation that its registers describe, which has the claim of its tiles; a region
opens. Misaligned operands are ALIGN, reads outside tile memory or the window PROT; a full queue makes the group wait, and, as
log 18 reads R282 (DEDUCED), so does an MLOOP that waits for the same queue with an earlier claim. That a gather list is read
and checked where no K-step will read it (a count of 0) is the model's choice (log 35). -/
def Obligations.MatrixOperationAccepted : Prop :=
  ∀ (p : Option Dual) (w : FmtT) (s : State) (i : Iss) (ctl : Ctl),
    Issues s (dualSize p) w.g false .fall i ctl → Owns i →
    i.ready (sFields w.sa.toNat 4 ++ sFields w.sb.toNat 2 ++ sFields w.sf.toNat 2 ++ [⟨w.kc, false⟩]) [] = .ok () →
    let a (k : Nat) : Nat := sNat i (w.sa.toNat + k)
    let b (k : Nat) : Nat := sNat i (w.sb.toNat + k)
    let aligned : Prop := (w.asrc = true ∨ a 0 % 16 = 0 ∧ a 1 % 16 = 0) ∧ b 1 % 16 = 0 ∧
      ((b 0).testBit 31 = true ∨ b 0 % 16 = 0) ∧ a 2 % 2 = 0
    (¬ aligned → Traps (.mloop p w) s i 0x03) ∧
    (aligned → i.held = false → a 2 = 0 ∨ (w.asrc = false ∧ ∀ q ∈ s.pend, q.gid ≠ i.g.id) →
      let region := i.l.tileUnits * 256
      let ws := i.c.desc.ws.getD i.t.die (0, 0)
      (a 2 = 0 ∨ a 2 + 2 * rowsIn i w ≤ region) →
      ∀ i1, (if a 2 = 0 then i1 = i else i.meet (2 * rowsIn i w) [.tile i.t.id (a 2)] = .ok i1) →
      ∃ m, Describes i i1.s p w m ∧
        ((∀ n, m.bar = some n → n < i.l.barriers) → (m.bsp = true → ws.2 ≠ 0) →
        (mxClass m.afmt).isSome = true → (mxClass m.bfmt).isSome = true →
        (m.readsOk region (ws.2 * 65536) = false → TrapsFrom (.mloop p w) s i1 0x12) ∧
        (m.readsOk region (ws.2 * 65536) = true → m.aliases = true → TrapsFrom (.mloop p w) s i1 0x28) ∧
        (m.readsOk region (ws.2 * 65536) = true → m.aliases = false → m.shapeOk (coreOf i) = true →
          sNat i w.sf.toNat < 2 ^ 11 →
          let q := (coreOf i).queue (decide (w.mq ≠ 0))
          let claims := ((coreOf i).claim i.g.id m.names (some w.mq.toNat)).claims
          let earlier := claims.takeWhile fun k => k.isOp || decide (k.key ≠ i.g.id)
          let room : Prop := q.length < 4 ∧ ∀ k ∈ earlier, k.isOp = true ∨ k.mq ≠ some w.mq.toNat
          (¬ room → ∃ t g, exec (.mloop p w) s = .next t ∧ t.group? i.g.id = some g ∧
            g = { i1.g with wait := .blocked }) ∧
          (room → ∃ t c, exec (.mloop p w) s = .next t ∧
            OnlyCore { i1.s with nextId := i1.s.nextId + 1 } t
              ((i1.s.setGroup (i1.g.goesOn ctl s.tick).openRegion).wake).groups (coreKey i.t.die i.t.core) c ∧
            c.queue (decide (w.mq ≠ 0)) = q ++ [{ m with id := i1.s.nextId, forks := [i1.side 1] }] ∧
            c.queue (!decide (w.mq ≠ 0)) = (coreOf i).queue (!decide (w.mq ≠ 0)) ∧
            c.tiles = (coreOf i).tiles ∧ c.owner = (coreOf i).owner ∧ c.mqratio = (coreOf i).mqratio ∧
            ((∀ k ∈ (coreOf i).claims, OwnClaim i k → k.tiles = m.names) →
              ∀ x ∈ m.names, ∃ k ∈ c.claims, k.isOp = true ∧ k.key = i1.s.nextId ∧ x ∈ k.tiles) ∧
            ∀ k ∈ c.claims, k.isOp = false → k.key ≠ i.g.id))))

namespace Sys2Proof.Claims

/-- What MST and MLD move, from their four registers (Table 15.7). -/
structure Moves (i : Iss) (w : FmtT) where
  addr : Nat := sNat i w.sa.toNat
  stride : Nat := sNat i (w.sa.toNat + 1)
  ctl : Nat := sNat i (w.sa.toNat + 2)
  last : Nat := sNat i (w.sa.toNat + 3)

def Moves.size {i : Iss} {w : FmtT} (m : Moves i w) : Nat := if m.ctl % 8 = 0 then 4 else if m.ctl % 8 ≤ 2 then 2 else 1
def Moves.tile {i : Iss} {w : FmtT} (_ : Moves i w) : Tile := (coreOf i).tile w.td.toNat
def Moves.rows {i : Iss} {w : FmtT} (m : Moves i w) : Nat := if m.last % 256 = 0 then m.tile.h else m.last % 256
def Moves.cols {i : Iss} {w : FmtT} (m : Moves i w) : Nat := if m.last / 256 % 256 = 0 then m.tile.w else m.last / 256 % 256
/-- Where an element begins in the team's tile region. -/
def Moves.elem {i : Iss} {w : FmtT} (m : Moves i w) (r j : Nat) : Nat := m.addr + r * m.stride + j * m.size

/-- The move keeps the limits of R304 and R305, no tangents move, and nothing of the group is outstanding. -/
structure Moves.Fits {i : Iss} {w : FmtT} (m : Moves i w) (loads : Bool) (n : Nat) : Prop where
  owns : Owns i
  ready : i.ready (sFields w.sa.toNat 4) [] = .ok ()
  aligned : m.addr % m.size = 0 ∧ m.stride % m.size = 0
  region : ∀ r < m.rows, m.elem r m.cols ≤ i.l.tileUnits * 256
  shape : m.tile.h ≠ 0 ∧ m.rows ≤ m.tile.h ∧ m.cols ≤ m.tile.w ∧ m.cols * m.size ≤ m.stride
  fields : m.ctl < 64 ∧ m.last / 65536 = 0xFFFF ∧ if loads then m.ctl ≤ 2 else m.ctl % 8 ≤ 5
  alike : loads = false ∨ n = 0 ∨ Alike (coreOf i) w.td.toNat n
  quiet : i.held = false ∧ ∀ q ∈ i.s.pend, q.gid ≠ i.g.id
  unclaimed : Unclaimed i (tileRun w.td.toNat n)

/-- A tile element as MST writes it: FP32 as it is, INT8 saturated, the other formats rounded with the mode in the control
word (R305). -/
def Moves.code {i : Iss} {w : FmtT} (m : Moves i w) (x : W32) : Nat :=
  if m.ctl % 8 = 0 then x.toNat
  else if m.ctl % 8 = 5 then (BitVec.ofInt 8 (max (-128) (min 127 x.toInt))).toNat
  else
    let f := if m.ctl % 8 = 1 then bf16 else if m.ctl % 8 = 2 then fp16 else if m.ctl % 8 = 3 then e4m3 else e5m2
    (convert fp32 f (m.ctl / 8 % 4) (m.ctl.testBit 5) false none x.toNat).1

end Sys2Proof.Claims

/-- R303 to R305: MST writes the elements of its rows and columns into the team's tile region, in stores that are performed at
team scope. How is the model's choice (log 6): they stay on their way and are owed to the team, so that its group finds them at
once, every other agent of the team before it reads there next, others once they arrive, and no other byte changes (a load on its way that a row meets, which is left out here, finds bytes before and after it, R237). MLD writes
elements as the group finds them there, its stores and those performed toward it having arrived, into the tile, zeroes into its tangent tiles, and
changes no other element; a NaN of a narrower format becomes the canonical FP32 NaN (as log 18 reads R62; that no flag is raised is the
model's choice, log 35). No other part of the state changes but matrix flags, the claim, and what the group has read from
stores on their way. Misaligned operands are ALIGN; elements outside the region are PROT. -/
def Obligations.TileStoresAndLoads : Prop :=
  ∀ (p : Option Dual) (w : FmtT) (s : State) (i : Iss) (ctl : Ctl),
    Issues s (dualSize p) w.g false .fall i ctl →
    let m : Moves i w := {}
    let n := i.tans p
    let d := w.td.toNat
    let me := s.siteOf i.g.id
    (Owns i → i.ready (sFields w.sa.toNat 4) [] = .ok () → ¬ (m.addr % m.size = 0 ∧ m.stride % m.size = 0) →
      Traps (.mst p w) s i 0x03 ∧ Traps (.mld p w) s i 0x03) ∧
    (Owns i → i.ready (sFields w.sa.toNat 4) [] = .ok () → m.addr % m.size = 0 ∧ m.stride % m.size = 0 → m.cols ≠ 0 →
      (∃ r < m.rows, i.l.tileUnits * 256 < m.elem r m.cols) → Traps (.mst p w) s i 0x12 ∧ Traps (.mld p w) s i 0x12) ∧
    (m.Fits false n →
      (∀ q ∈ s.pend, ∀ a ∈ q.accs, ∀ r < m.rows, a.loc.overlaps q.bytes (.tile i.t.id (m.elem r 0)) (m.cols * m.size) = false) →
      ∃ t u, exec (.mst p w) s = .next t ∧ t.team? i.t.id = some u ∧
      u = { i.t with mflags := u.mflags } ∧ u.mflags &&& i.t.mflags = i.t.mflags ∧
      (∀ r < m.rows, ∀ j < m.cols, ∀ b < m.size,
        t.tileByte me i.t.id (m.elem r j + b) = BitVec.ofNat 8 (m.code (m.tile.at r j) / 256 ^ b)) ∧
      (∀ a, (∀ r < m.rows, ¬ (m.elem r 0 ≤ a ∧ a < m.elem r m.cols)) →
        t.tileByte me i.t.id a = s.tileByte me i.t.id a) ∧
      (∀ (x : Site) k a, k ≠ i.t.id ∨ x.gid ≠ some i.g.id → t.tileByte x k a = s.tileByte x k a) ∧
      (∀ v ∈ t.inflight, v ∈ s.inflight ∨
        (v.tile = some i.t.id ∧ v.site = me ∧ v.owed = 1 ∧ v.arrived = [] ∧ v.mca = false)) ∧
      (∀ (g : Option Nat) (o : Observer) a, t.viewByte g o a = s.viewByte g o a) ∧
      (∀ x, x ≠ i.t.id → t.team? x = s.team? x) ∧
      t.coreSt (coreKey i.t.die i.t.core) = { coreOf i with claims := claimsLeft i } ∧
      t.groups = ((s.setGroup (i.g.goesOn ctl s.tick)).wake).groups ∧
      { t with groups := [], cores := [], teams := [], inflight := [], nextId := 0 } =
        { s with groups := [], cores := [], teams := [], inflight := [], nextId := 0 }) ∧
    (∀ i1, i.meet (m.cols * m.size) ((List.range m.rows).map fun r => .tile i.t.id (m.elem r 0)) = .ok i1 →
      m.Fits true n → Retiles (.mld p w) s i1 ctl (coreOf i).owner fun k u =>
      let old := (coreOf i).tile k
      u.h = old.h ∧ u.w = old.w ∧ (k < d ∨ d + n < k → u = old) ∧
      (d ≤ k → k ≤ d + n → ∀ r < u.h, ∀ j < min u.w 64, u.at r j =
        if r < m.rows ∧ j < m.cols then
          let x := ofLe ((List.range m.size).map fun b => i1.s.tileByte me i.t.id (m.elem r j + b))
          if k ≠ d then 0 else if m.ctl = 0 then BitVec.ofNat 32 x
          else BitVec.ofNat 32 (convert (if m.ctl = 1 then bf16 else fp16) fp32 0 false false none x).1
        else old.at r j)) ∧
    ((∀ v ∈ s.inflight, v.mca = false ∧ ∀ r ∈ v.rels, s.readsDone r = true) →
      ∀ k ls, ∃ i1, i.meet k ls = .ok i1)

/-- R282, R290, R302, R308: the operation at the head of its queue begins once no earlier claim lies on its tiles and what its
MLOOP carries is performed; one of no K-steps is done at once: its active elements are zero without ACC, and the others with Z. -/
def Sys2Proof.Claims.MatrixOperationBegins : Prop :=
  (∀ (s : State) (rels : List Rel), (∀ r ∈ rels, s.bears? r = false) → (s.fulfilAll rels).isSome = true) ∧
  ∀ (core : Nat) (q : Bool) (s s1 : State) (m : MOp) (ms : List MOp),
    let c := s.coreSt core
    s.fulfilAll m.forks = some s1 →
    let b := { m with forks := [], carry := s1.onWay (m.forks.flatMap s1.idsOf), started := true }
    c.queue q = m :: ms → m.started = false → m.done = false → m.step = 0 → s.teamLive m.team = true →
    c.claimFree true m.id m.names = true →
    (m.count ≠ 0 → exec (.matrixOperationStart core q) s =
      .next (s1.setCore core (c.setQueue q (b :: ms))).wake) ∧
    (m.count = 0 → ∃ c', exec (.matrixOperationStart core q) s = .next (s1.setCore core c').wake ∧
      c' = { c with tiles := c'.tiles, mq0 := c'.mq0, mq1 := c'.mq1 } ∧
      c'.queue q = { b with done := true } :: ms ∧ c'.queue (!q) = c.queue (!q) ∧
      (∀ k, k < m.td ∨ m.td + m.tans < k → c'.tile k = c.tile k) ∧
      ∀ r < (c.tile m.td).h, ∀ n < min (c.tile m.td).w 64, (c'.tile m.td).at r n =
        if r < m.rows ∧ n < m.cols then (if m.acc then (c.tile m.td).at r n else 0)
        else if m.z then 0 else (c.tile m.td).at r n)

/-- R290, R293, R295, R298, R300: a K-step goes to queue 1 where only it can run, or where queue 0 has had its ratio; it moves
its operation one step on, leaves every other tile, the matrix flags of the team (R306) and memory alone, and starts inactive elements from zero with Z. An active
element, of the tile or of a tangent tile, of any format, with A from tile memory or tiles and B from tile memory or the
window, gains what its lines of A and B give (`MOp.add`, R290; log 35: how zero-skipping takes the products of a tangent); of INT8
and INT4 from tile memory that is the sum of 32 products. Stores performed at team scope toward it have arrived; a byte that
another store on its way writes is found before or after the store, which may arrive with it (R237, log 6). A K-step that meets an error zeroes the active
elements, ends its operation and fails the launch, once its entry finds room in the fault record, as it surely does where that
has a free entry and none waits. -/
def Obligations.KSteps : Prop :=
  ∀ (core : Nat) (s : State) (q : Bool) (m : MOp) (ms : List MOp) (u : Team) (x : Ctx),
    let c := s.coreSt core
    let old (k : Option Nat) : Tile := match k with
      | none => c.tile m.td
      | some k => c.tile (m.td + 1 + k)
    c.queue q = m :: ms → c.runnable q = some m → m.started = true → s.team? m.team = some u → s.teamLive m.team = true →
    s.ctx? u.ctx = some x →
    (q = true ↔ (c.runnable true).isSome = true ∧ ((c.runnable false).isNone = true ∨ c.mqratio - 1 ≤ c.q0run)) →
    m.bsp = false ∨ (s.dieSt u.die).refresh = none →
    (∀ s1, s.summonAll (s.opSite m) (fun v => v.tile == some m.team) = some s1 →
      let s2 := s1.stirTile m.team
      let rd := s1.reader s2 m u ((x.desc.ws.getD u.die (0, 0)).1 * 65536)
      ∃ t flags, exec (.kStep core false) s = .next t ∧ t.mem = s2.mem ∧ t.ws = s.ws ∧
      (t.team? m.team).map (·.mflags) = some u.mflags ∧
      (t.coreSt core).queue q =
        { m with step := m.step + 1, done := decide (m.count ≤ m.step + 1), flags := m.flags ||| flags } :: ms ∧
      (t.coreSt core).queue (!q) = c.queue (!q) ∧ (t.coreSt core).claims = c.claims ∧
      (∀ k, k < m.td ∨ m.td + m.tans < k → (t.coreSt core).tile k = c.tile k) ∧
      ∀ k, (∀ j, k = some j → j < m.tans) → ∀ r < (old k).h, ∀ n < min (old k).w 64,
        let y := ((match k with
          | none => (t.coreSt core).tile m.td
          | some j => (t.coreSt core).tile (m.td + 1 + j)).at r n)
        let start := if m.step = 0 ∧ m.acc = false then 0 else (old k).at r n
        (¬ (r < m.rows ∧ n < m.cols) → y = if m.step = 0 ∧ m.z = true then 0 else (old k).at r n) ∧
        (r < m.rows → n < m.cols → y = (m.add (m.aLine rd c r).1 (m.bLine rd n) k start).1) ∧
        (r < m.rows → n < m.cols → k = none → m.afmt = m.bfmt → m.ta = none → m.bsp = false → ∀ line,
          m.rowOf.getD r none = some line →
          let byte (a : Int) (j : Nat) : BitVec 8 := s1.unitByte s2 m.team (a.toNat + j)
          let half (b : BitVec 8) (j : Nat) : Int := (b.extractLsb' (4 * (j % 2)) 4).toInt
          (m.afmt = 5 → y = start + BitVec.ofInt 32 ((List.range 32).map fun j =>
            (byte (m.a0 + m.step * m.ainc + line * 32) j).toInt *
              (byte (m.b0 + m.step * m.binc + n * 32) j).toInt).sum) ∧
          (m.afmt = 6 → y = start + BitVec.ofInt 32 ((List.range 32).map fun j =>
            half (byte (m.a0 + m.step * m.ainc + line * 16) (j / 2)) j *
              half (byte (m.b0 + m.step * m.binc + n * 16) (j / 2)) j).sum))) ∧
    ((∀ v ∈ s.inflight, v.owed = 0 ∨ v.tile ≠ some m.team) →
      s.summonAll (s.opSite m) (fun v => v.tile == some m.team) = some s) ∧
    (∀ l, s.launch? u.lid = some l → l.fate = none →
      LeadsSurely u.ctx (x.desc.ctx = u.ctx ∧ x.faultQ = [] ∧ s.pkg.orphanQ = [] ∧ x.desc.ringOk = true ∧ s.ringFenced x = false ∧
          s.entryRoom x = true) (.kStep core true) s fun t =>
        (t.coreSt core).queue q = { m with done := true } :: ms ∧
        (t.launch? u.lid).map (·.fate) = some (some 1) ∧
        ∀ r < (old none).h, ∀ n < min (old none).w 64, r < m.rows → n < m.cols →
          ((t.coreSt core).tile m.td).at r n = 0)

/-- R282, R296, R299, R302, R306: an operation whose last K-step is done leaves its queue, its claims end, its flags join the
matrix flags of the team, and it arrives on its barrier, under a release at team scope; one arrival too many breaks the barrier, once its entry finds room (R195). -/
def Sys2Proof.Claims.MatrixOperationCompletes : Prop :=
  ∀ (core : Nat) (q : Bool) (s : State) (m : MOp) (ms : List MOp) (u : Team),
    let c := s.coreSt core
    c.queue q = m :: ms → m.done = true → s.team? m.team = some u → s.teamLive m.team = true →
    (∃ g ∈ s.groups, g.team = m.team) →
    (∀ n, m.bar = some n → (look {} u.bars n).brk = false → 65535 ≤ (look {} u.bars n).arr →
      LeadsPosting u.ctx (.matrixOperationComplete core q) s fun t => (t.coreSt core).queue q = ms ∧
        (t.team? m.team).map (fun v => (look {} v.bars n).brk) = some true) ∧
    ((∀ n, m.bar = some n → (look {} u.bars n).brk = true ∨ (look {} u.bars n).arr < 65535) →
    ∃ t, exec (.matrixOperationComplete core q) s = .next t ∧ t.mem = s.mem ∧
      t.coreSt core = { c.setQueue q ms with
        claims := c.claims.filter fun k => !k.isOp || decide (k.key ≠ m.id), q0run := if q then 0 else c.q0run } ∧
      (t.team? m.team).map (·.mflags) = some (u.mflags ||| m.flags) ∧
      (m.bar = none → t = ((s.setCore core (t.coreSt core)).onTeam m.team fun v =>
        { v with mflags := v.mflags ||| m.flags }).wake) ∧
      (∀ n, m.bar = some n → (look {} u.bars n).brk = false → (look {} u.bars n).arr < 65535 →
        (t.team? m.team).map (fun v => look {} v.bars n) =
          some (phased { s.carriedBy (look {} u.bars n) [s.opSide m] with arr := (look {} u.bars n).arr + 1 })))
/-! ### Landings and the steps of groups (spec/01, spec/06, spec/08, spec/09, spec/10, spec/17) -/

namespace Sys2Proof.Claims

/-- A producer is pending, its group runs, and no debugger has forced its registers. -/
structure Flying (s : State) (p : Pending) (g : Group) : Prop where
  here : s.pend? p.id = some p
  group : s.group? p.gid = some g
  runs : g.status = .running
  free : p.forced = []

/-- What a landing leaves of its group: the registers from the destination hold each lane's data and are full, a queue's
reserved entry holds it, and all else is as before (its reads may have met releases, R246). -/
structure Landed (p : Pending) (g h : Group) (r : Nat) (data : Nat → List Datum) : Prop where
  rest : { h.rest with p := h.p, fpst := h.fpst, seen := [], notes := [], wait := .none } =
    { g.rest with p := g.p, fpst := g.fpst, seen := [], notes := [], wait := .none }
  vreg : ∀ (m : BitVec 7) (lane : Nat), lane < 32 → h.vCell m.toNat lane =
    if lane ∈ p.lanes then
      match (delivered (p.dst.range r) (data lane) (.v m)).getLast? with
      | some d => { d := d, full := true }
      | none => g.vCell m.toNat lane
    else g.vCell m.toNat lane
  sreg : ∀ m : BitVec 6, h.sCell m.toNat =
    match (p.lanes.filter fun l => decide (l < 32)).getLast?.bind fun lane =>
        (delivered (p.dst.range r) (data lane) (.s m)).getLast? with
    | some d => { d := d, full := true }
    | none => g.sCell m.toNat
  queue : ∀ (m : BitVec 4) (lane : Nat), lane < 32 → h.queue lane m.toNat =
    if lane ∈ p.lanes ∧ p.dst = .q m then (g.queue lane m.toNat).fill p.id ((data lane).headD {})
    else g.queue lane m.toNat

/-- The producer lands this data and is gone; memory stays as it is in the state `s1`. -/
def Lands (ins : Instr) (s s1 : State) (p : Pending) (g : Group) (r : Nat) (data : Nat → List Datum) : Prop :=
  Leads ins s fun t => t.pend.all (fun q => decide (q.id ≠ p.id)) = true ∧ t.mem = s1.mem ∧
    ∃ h, t.group? p.gid = some h ∧ Landed p g h r data

/-- The producer fails: nothing lands, a queue loses the entry that it reserved, and its group holds a MEMERR of the
instruction, to be taken at a boundary (R153, R154, R312). -/
def FailsToLand (ins : Instr) (s : State) (p : Pending) (g : Group) (a : Access) : Prop :=
  Leads ins s fun t => t.pend.all (fun q => decide (q.id ≠ p.id)) = true ∧
    ∃ h c, t.group? p.gid = some h ∧ h.v = g.v ∧ h.s = g.s ∧ h.async = g.async ++ [c] ∧
      (∀ (m : BitVec 4) (lane : Nat), h.queue lane m.toNat =
        if p.dst = .q m ∧ lane ∈ p.lanes then
          let q := g.queue lane m.toNat
          let kept := q.entries.filter fun e => decide (e ≠ .reserved p.id false ∧ e ≠ .reserved p.id true)
          { q with entries := kept }
        else g.queue lane m.toNat) ∧
      c.code = 0x31 ∧ c.lane = a.lane ∧ c.addr = a.va ∧ c.pc = p.pc

/-- The bytes that an access of a producer has read, or reads now. -/
def bytesNow (s : State) (p : Pending) (lane k : Nat) : List Byte :=
  match p.accs.find? fun a => decide (a.lane = lane ∧ a.k = k) with
  | some a => a.val.getD (s.readLoc (s.siteOf p.gid) p.bytes a.loc)
  | none => []

/-- The state in which a producer's accesses are performed: the writes that its group must find there, its own and those that a
release has performed toward it, have arrived (R142, R244, R252). -/
def summoned (s : State) (p : Pending) : State :=
  (p.accs.filter fun a => a.val.isNone).foldl (fun s a => s.summon (s.siteOf p.gid) p.bytes a.loc) s

/-- The data of a lane from its accesses: words low first, zero-extended, tangent k from access k + 1 (R138, R140, R149). -/
def fromBytes (r : Nat) (bs : Nat → List Byte) : List Datum :=
  let w (k j : Nat) : W32 := BitVec.ofNat 32 (ofLe (((bs k).drop (4 * j)).take 4))
  (List.range r).map fun j => { val := w 0 j, t0 := w 1 j, t1 := w 2 j, t2 := w 3 j, t3 := w 4 j }

end Sys2Proof.Claims

/-- R14, R129: CRND issues a producer whose data is fixed at issue: the hash of its two words. -/
def Sys2Proof.Claims.RandomBitsIssue : Prop :=
  ∀ (w : FmtA) (s : State) (i : Iss) (ctl : Ctl), Issues s 8 w.g w.u .fall i ctl →
    i.ready [w.a.field, w.b.field] [w.d] = .ok () → w.d ≠ .zr → w.a.o.isQueue = false → w.b.o.isQueue = false →
    let hash (x y : W32) : W32 :=
      let h0 := (x ^^^ y) * 0x9E3779B9
      let h1 := h0 ^^^ (h0 >>> 16)
      let h2 := h1 * 0x85EBCA6B
      h2 ^^^ (h2 >>> 13)
    Starts (.crnd w) s s i ctl []
      { id := s.nextId, gid := i.g.id, pc := i.g.ctl.pc.setWidth 32, region := i.g.regionCnt, kind := .crnd, dst := w.d, uni := w.u
        bytes := 4, lanes := i.ex
        data := i.ex.map fun lane => (lane, [plain (hash (modify w.a.sel (i.g.datum lane w.a.o).val)
          (modify w.b.sel (i.g.datum lane w.b.o).val))]) }

/-- R14, R105, R129, R140, R150, R153: a load or LDQ lands the bytes of its accesses, CRND its bits, MFS of a remote register the
value that the register has now. A load is performed at its landing at the latest (log 7), once its group can read its places,
as it can where no MCA write and no read that a release waits for is outstanding; the writes that its group must find there
then arrive first (R142, R252), and where there are none, all is read as it stands. A load whose data has an uncorrectable error lands
nothing and faults its group, with one of its accesses (which one is free, log 23). -/
def Sys2Proof.Claims.ProducersLand : Prop :=
  ∀ (s : State) (p : Pending) (g : Group), Flying s p g →
    (∀ ins : Bool → Instr, (ins = .loadLands p.id ∧ p.kind = .load) ∨ (ins = .ldqEntryLands p.id ∧ p.kind = .ldq) →
      (∀ a ∈ p.accs, ∀ d o, a.loc = .ws d o → (s.dieSt d).refresh ≠ some (o / 2 ^ 16 % 8)) →
      0 < p.bytes → (∀ a ∈ p.accs, a.val ≠ some []) →
      (∀ a ∈ p.accs, ∀ pa, a.loc = .mem pa → s.fencedAt pa = false) →
      (∀ a ∈ p.accs, a.val = none → s.canRead (s.siteOf p.gid) p.bytes a.loc = true) →
      Lands (ins false) s (summoned s p) p g ((p.bytes + 3) / 4)
        (fun lane => fromBytes ((p.bytes + 3) / 4) (bytesNow (summoned s p) p lane)) ∧
      (p.accs ≠ [] → ∃ a ∈ p.accs, FailsToLand (ins true) s p g a)) ∧
    ((∀ v ∈ s.inflight, v.mca = false ∧ ∀ r ∈ v.rels, s.readsDone r = true) →
      ∀ a ∈ p.accs, s.canRead (s.siteOf p.gid) p.bytes a.loc = true) ∧
    ((∀ a ∈ p.accs, a.val = none → s.due (s.siteOf p.gid) p.bytes a.loc = []) → summoned s p = s) ∧
    (∀ f : Nat → W32, p.kind = .crnd → p.data = (p.lanes.map fun lane => (lane, [plain (f lane)])) →
      Lands (.crndLands p.id) s s p g 1 fun lane => [plain (f lane)]) ∧
    (∀ sr, p.kind = .mfs sr →
      ∃ x : W32, Lands (.remoteMfsLands p.id) s s p g 1 (fun _ => [plain x]) ∧
        let d := s.dieSt (s.siteOf p.gid).die
        (sr = 0x102 → x = BitVec.ofNat 32 d.brwin) ∧
        (sr = 0x140 → x.toNat % 8 = d.nextBank % 8 ∧ x.toNat / 8 % 2 ^ 17 ≤ 12800 ∧ x.getLsbD 20 = d.refresh.isSome) ∧
        (sr ≠ 0x102 → sr ≠ 0x140 → x = s.pkg.ready.setWidth 32))

/-- R143, R144, R153: the result of a pending ATOM or CAS (function 12) of one lane, without release or fence, lands the old value at
its address, where no write on its way meets it. An ATOM writes its function of the old value and the operand; a CAS writes the
operand where the old value equals the comparand, and nothing otherwise; no other byte's latest value changes. An
uncorrectable error, or a place on a fenced channel, lands nothing, writes nothing and faults the group. -/
def Sys2Proof.Claims.AtomicsLand : Prop :=
  ∀ (s : State) (p : Pending) (g : Group) (fn n lane pa : Nat) (a : Access) (ds : List Datum),
    Flying s p g → p.kind = .atom ⟨fn, n, false⟩ → p.side = none → p.fences = [] → p.bytes = n → fn < 13 → 0 < n →
    p.lanes = [lane] → p.accs = [a] → a.lane = lane → a.k = 0 → a.val = none → a.loc = .mem pa → p.after = [] →
    p.data = [(lane, ds)] → s.Inv →
    (s.fencedAt pa = false → Settled s pa n →
      let old := s.latestBytes pa n
      let operand := ofLe (dataBytes n 0 (ds.take ((n + 3) / 4)))
      let comparand := ofLe (dataBytes n 0 (ds.drop ((n + 3) / 4)))
      let new : Option Nat :=
        if fn = 12 then (if ofLe old = comparand then some operand else none) else atomNew fn n (ofLe old) operand 0
      Leads (.atomResultLands p.id false) s fun t =>
        t.latestBytes pa n = (match new with
          | some v => leBytes n v
          | none => old) ∧
        (∀ b, ¬ (pa ≤ b ∧ b < pa + n) → t.latestBytes b 1 = s.latestBytes b 1) ∧
        ∃ h, t.group? p.gid = some h ∧
          Landed p g h ((n + 3) / 4) fun _ => fromBytes ((n + 3) / 4) fun k => if k = 0 then old else []) ∧
    (∀ err, (s.fencedAt pa = true ∨ (err = true ∧ Settled s pa n)) → FailsToLand (.atomResultLands p.id err) s p g a ∧
      Leads (.atomResultLands p.id err) s fun t => t.mem = s.mem ∧ t.inflight = s.inflight)

/-- R208, R212, R213: a CLAIM lands once what the makes of its estates carry can be performed, as it can where all of it has been;
it lands in each of its lanes: the estate's registers, zeros beyond them, the tangents that both sides have,
and the status; an S register gets the statuses that occurred. Where data has an error, the estates of some lanes that received
one (which ones is free, log 23) are discarded and not counted as claimed, and the group faults. -/
def Sys2Proof.Claims.ClaimsLand : Prop :=
  ∀ (s : State) (p : Pending) (g : Group) (t : Team) (l : Launch) (base n : Nat) (got : List ClaimLane), Flying s p g →
    p.kind = .claim base n got → s.team? g.team = some t → s.launch? t.lid = some l → base + n ≤ 128 →
    (got.map (·.lane)).Nodup →
    let rels := (got.filterMap (·.est)).flatMap (·.rels)
    ((∀ r ∈ rels, s.bears? r = false) → ∃ s1, s.observe p.gid rels = some s1) ∧
    (∀ s1, s.observe p.gid rels = some s1 → Leads (.claimLands p.id false) s (fun u =>
      ∃ h, u.group? p.gid = some h ∧ h.p = g.p ∧ h.ctl = g.ctl ∧ u.mem = s1.mem ∧
      (u.launch? l.id).map (·.red.claimed) = some (l.red.claimed + (got.filter fun c => c.est.isSome).length) ∧
      (∀ c ∈ got, c.lane < 32 →
        (∀ j < n, p.dst ≠ .v (BitVec.ofNat 7 (base + j)) →
          ∃ d, h.vCell (base + j) c.lane = { d := d, full := true } ∧
            (c.est = none → d = {}) ∧
            ∀ e, c.est = some e → d.val = e.body.prim.getD j 0 ∧
              ∀ k < 4, d.tan k = if j < e.body.prim.length ∧ k < min e.body.tans.length l.dualN then
                (e.body.tans.getD k []).getD j 0 else 0) ∧
        (∀ m, p.dst = .v m → h.vCell m.toNat c.lane = { d := plain (BitVec.ofNat 32 c.st), full := true })) ∧
      (∀ m, p.dst = .s m → ∀ k < 4, (h.sCell m.toNat).full = true ∧
        (h.sCell m.toNat).d.val.getLsbD k = got.any fun c => decide (c.lane < 32 ∧ c.st = k)))) ∧
    ((∃ c ∈ got, c.est.isSome = true) → (∀ r ∈ rels, s.bears? r = false) → Leads (.claimLands p.id true) s fun u => ∃ lost : List Nat,
      lost ≠ [] ∧ (∀ lane ∈ lost, ∃ c ∈ got, c.lane = lane ∧ c.est.isSome = true) ∧
      (∀ c ∈ got, c.lane ∈ lost → ∀ e, c.est = some e → { e with level := .discarded 3, lid := t.lid } ∈ u.estates) ∧
      (u.launch? l.id).map (·.red.claimed) =
        some (l.red.claimed + (got.filter fun c => c.est.isSome && !lost.contains c.lane).length) ∧
      ∃ h x, u.group? p.gid = some h ∧ h.async = g.async ++ [x] ∧ x.code = 0x31 ∧ x.lane ∈ lost ∧ x.pc = p.pc)

/-- R192, R197, R312, R316, R327, R364: steps of groups. Causes held by a running group deschedule it: it drains while producers
are pending and while its entry finds no room in the fault record (R318), else it awaits a response with CAUSE and CAUSEPC of
its cause; a fill makes its line resident and frees the groups of its
cluster that wait for it; of the sixteen oldest walks of a die one ends (which one is free, log 36), and its translation enters
the die's TLB and frees its waiters, or its waiters meet the failure; the
Regulator releases a group whose phase has completed. -/
def Obligations.GroupSteps : Prop :=
  ∀ (s : State) (g : Group), s.group? g.id = some g →
    (g.status = .running → g.async ≠ [] →
      ((∃ p ∈ s.pend, p.gid = g.id) → Leads (.asyncFault g.id) s fun t =>
        t.group? g.id = some { (if g.debugStop then g else g.releaseLdq) with
          status := .draining, wait := .none, walked := [] }) ∧
      (∀ c u l, g.async = [c] → (∀ p ∈ s.pend, p.gid ≠ g.id) → s.team? g.team = some u → s.launch? u.lid = some l →
        c.region = g.regionCnt → ∀ x, s.ctx? u.ctx = some x → x.desc.ringOk = true → x.faultQ = [] → s.pkg.orphanQ = [] →
        s.ringFenced x = false → Leads (.asyncFault g.id) s fun t => t.group? g.id = some
          (if s.entryRoom x then { (if g.debugStop then g else g.releaseLdq) with
            status := .awaiting, async := [], wait := .none, walked := [], cause := 0x100 ||| c.code.setWidth 32
            causePc := c.pc }
           else { (if g.debugStop then g else g.releaseLdq) with status := .draining, wait := .none, walked := [] }))) ∧
    (∀ line, g.wait = .miss line → ∀ u, s.team? g.team = some u → Leads (.instructionMissFill g.id) s fun t =>
      t.icache = s.icache ++ [(u.cluster, line)] ∧ t.group? g.id = some { g with wait := .none } ∧ t.mem = s.mem) ∧
    (∀ die, (∃ w ∈ s.walks, w.die = die) → ∃ w ∈ (s.walks.filter fun v => decide (v.die = die)).take 16,
      ∀ c, s.ctx? w.ctx = some c →
      (∀ l, s.walk (.socket die) c.desc .read (w.page * 65536) = .ok l → Leads (.translationWalk die) s fun t =>
        { die := die, ctx := w.ctx, page := w.page, pa := l.pa, pte := l.pte, w := l.w, x := l.x, usr := l.usr } ∈ t.tlb ∧
        w ∉ t.walks ∧ (g.wait = .walk → g.id ∈ w.waiters → t.group? g.id = some { g with wait := .none })) ∧
      (∀ e, s.walk (.socket die) c.desc .read (w.page * 65536) = .error e → Leads (.translationWalk die) s fun t =>
        t.tlb = s.tlb ∧ w ∉ t.walks ∧
        (g.wait = .walk → g.id ∈ w.waiters →
          t.group? g.id = some { g with wait := .none, walked := g.walked ++ [w.page] }))) ∧
    (∀ u n ph, g.wait = .barDone u n ph →
      exec (.barrierRelease g.id) s = .next (s.setGroup { g with wait := .barGo u n ph }).wake)
/-! ### The scheduler (spec/09) -/

namespace Sys2Proof.Claims

/-- A launch is accepted: it joins its queue with the context's next sequence number (R182, R185). -/
def Accepted (s t : State) (c : Ctx) (bytes : List Byte) (team : Option Nat) (l : Launch) : Prop :=
  t.launches = s.launches ++ [l] ∧ l.ctx = c.desc.ctx ∧ l.record = bytes ∧ l.seq = c.acc + 1 ∧ l.team = team ∧
  l.queue = min (recNat bytes 3 1 * c.desc.qcount / 8) (c.desc.qcount - 1) ∧ l.placed = 0 ∧ l.fate = none ∧
  l.finished = false ∧ l.fork = s.onWay c.before ∧ t.ctx? c.desc.ctx = some { c with acc := c.acc + 1 } ∧ t.mem = s.mem

/-- R182 to R185: a launch port of an up port takes a LAUNCH of 64 bytes into a queue with fewer than 256 launches (log 14: which
ones count), after what a RESUME has put before all work of its context (R342), and its reply is the sequence number; anything else is answered 0. The queue of a priority above 7 is the last one
at most (log 36: R185 gives those of 0 to 7). A LAUNCH that a PUSH accepted is taken with its team, and with a fork where its REL bit asks for one (R277). -/
def LaunchesAreAccepted : Prop :=
  ∀ (s : State) (c : Ctx), s.ctx? c.desc.ctx = some c →
    (∀ (port : Nat) (bytes : List Byte), s.portUp port = true →
      let n := c.desc.ctx
      let q := min (recNat bytes 3 1 * c.desc.qcount / 8) (c.desc.qcount - 1)
      let room : Prop := (s.launches.filter fun l => decide (l.ctx = n ∧ l.queue = q)).length < 256
      (bytes.length = 64 → recNat bytes 0 1 = 0x40 → room → Leads (.launchPort port n bytes) s fun t =>
        (∃ l, Accepted s t c bytes none l) ∧ look 0 t.pkg.portReply (port * 64 + n) = c.acc + 1) ∧
      (bytes.length ≠ 64 ∨ recNat bytes 0 1 ≠ 0x40 ∨ ¬ room → Leads (.launchPort port n bytes) s fun t =>
        t.launches = s.launches ∧ t.ctxs = s.ctxs ∧ look 0 t.pkg.portReply (port * 64 + n) = 0)) ∧
    ∀ (team lane gid : Nat) (bytes : List Byte), Leads (.launch c.desc.ctx team lane gid bytes) s fun t =>
      ∃ l, Accepted s t c bytes (some team) l ∧ l.gslot = recNat bytes 2 1 ∧
        ∀ g, s.group? gid = some g → l.forks = if recBits bytes 0 8 1 = 1 then [s.sideOf gid g.seen 4] else []

/-- The launch at the head of its queue, which may still place teams. -/
structure Heads (s : State) (l : Launch) (c : Ctx) : Prop where
  here : s.launch? l.id = some l
  ctx : s.ctx? l.ctx = some c
  live : c.phase = .live
  first : s.atHead l.ctx l.queue l.id = true
  going : l.closed = false ∧ l.allPlaced = false ∧ l.finished = false

/-- R186: once what the forks of its launch carry has been performed, a dependence is resolved by the status of its producer, once that has completed, or by the byte at its address where
none is left to wait for: 0 lets the launch begin, anything else, as a failed read or one on a fenced channel (log 14), ends it with status 3. -/
def DependencesResolve : Prop :=
  ∀ (s : State) (l : Launch) (c : Ctx), Heads s l c →
    s.launches.find? (fun x => decide (x.ctx = l.ctx ∧ x.queue = l.queue ∧ !x.allPlaced ∧ !x.finished)) = some l →
    l.cleared = true → l.depAddr ≠ 0 → l.depDone = false → l.broken c.desc l.pusherBars = none →
    ((∀ r ∈ l.forks, s.bears? r = false) → (s.joinLaunch l).isSome = true) ∧
    ∀ s1 m, s.joinLaunch l = some (s1, m) →
    let left (st : Nat) (t : State) : Prop :=
      t.launch? l.id = some (if st = 0 then { m with depDone := true }
        else { m with depDone := true, fate := some 3, closed := true })
    let settles (st : Nat) : Prop := Leads (.dependenceResolve l.ctx l.queue) s (left st)
    let fails : Prop := LeadsPosting l.ctx (.dependenceResolve l.ctx l.queue) s (left 3)
    (∀ st, l.depStatus = some st → settles st) ∧
    (l.depStatus = none → s.producer l = none →
      (∀ pa, s1.translate .host c.desc ⟨true, false, none⟩ .read l.depAddr 1 = .ok pa →
        (s1.fencedAt pa = false → settles (s1.viewByte none (s1.homeOf pa) pa).toNat) ∧ (s1.fencedAt pa = true → fails)) ∧
      (∀ e, s1.translate .host c.desc ⟨true, false, none⟩ .read l.depAddr 1 = .error e → fails))

/-- R177, R179, R188, R189, R262: the launch at the head of its queue ends DISCARDED with a verdict 0 and FAULT with a broken
record (log 14: that it ends at its placement); else it places its next cluster, all its teams at once, after what its forks carry (R277), where the cores have room and no launch before it could take
them: each team with its groups, which start at the entry with zeroed registers, all lanes of a group active but for the last
group's. -/
def ClustersArePlaced : Prop :=
  ∀ (s : State) (l : Launch) (c : Ctx) (die row col : Nat), Heads s l c →
    (l.gslot ≠ 0 → l.verdict = some false → Leads (.teamPlacement l.id die row col) s fun t =>
      t.launch? l.id = some { l with fate := some 5, closed := true } ∧ t.teams = s.teams) ∧
    (l.cleared = true → l.verdict ≠ some false → (l.broken c.desc l.pusherBars).isSome = true →
      LeadsPosting l.ctx (.teamPlacement l.id die row col) s fun t =>
        t.launch? l.id = some { l with fate := some 1, closed := true } ∧ t.teams = s.teams) ∧
    (l.cleared = true → l.verdict ≠ some false → l.broken c.desc l.pusherBars = none → l.depAddr = 0 ∨ l.depDone = true →
      die ∈ l.maskDies c.desc → s.usable c.desc die = true → s.loading c.desc die = false → s.rectFits l die row col = true →
      (∀ m ∈ s.launches, m.before l = true → s.couldTake m die row col l.cw l.ch = false) →
      ∀ s1 m, s.joinLaunch l = some (s1, m) → Leads (.teamPlacement l.id die row col) s fun t => ∃ ts gs,
        t.teams = s1.teams ++ ts ∧ t.groups = s1.wake.groups ++ gs ∧ t.mem = s1.mem ∧
        (t.launch? l.id).map (·.placed) = some (l.placed + 1) ∧
        ts.length = l.ch * l.cw ∧ gs.length = l.ch * l.cw * l.groupsPerTeam ∧
        (∀ u ∈ ts, u.lid = l.id ∧ u.ctx = l.ctx ∧ u.die = die ∧ u.tile = [] ∧ u.bars = [] ∧ u.wptr = [] ∧
          ∃ x < l.cw, ∃ y < l.ch, u.core = (row + y) * 16 + col + x ∧
            u.x = l.placed % (l.gridX / l.cw) * l.cw + x ∧ u.y = l.placed / (l.gridX / l.cw) * l.ch + y) ∧
        ∀ g ∈ gs, (∃ u ∈ ts, g.team = u.id) ∧ (s1.inflight = [] → g.seen = []) ∧ g.groupId < l.groupsPerTeam ∧
          g.nthreads = (if g.groupId + 1 = l.groupsPerTeam then l.lastThreads else 32) ∧
          g.ctl = ⟨[{ pc := 0, mask := BitVec.ofNat 32 (2 ^ g.nthreads - 1), rcv := none }], []⟩ ∧
          g.v = [] ∧ g.s = [] ∧ g.p = [] ∧ g.q = [] ∧ g.tvec = 0 ∧ g.inHandler = false ∧ g.status = .running)

/-- R180 to R182: a launch of which nothing runs any more, the only one of its queue and of no chain, completes: its record of
32 bytes stands at its address, with the status, the reductions and the context's next completion number, and it is
gone. -/
def LaunchesComplete : Prop :=
  ∀ (s : State) (l : Launch) (c : Ctx) (pa : Nat), s.launch? l.id = some l → s.ctx? l.ctx = some c → c.phase = .live →
    l.finished = false → s.launchIdle l = true → (∀ p ∈ c.faultQ, p.lseq ≠ l.seq) → s.pkg.orphanQ = [] →
    s.inflight = [] → (∀ r ∈ l.forks, s.bears? r = false) → l.chain = 0 → (s.launches.filter fun x => decide (x.ctx = l.ctx ∧ x.queue = l.queue)) = [l] →
    (l.cbar ≠ 0xFFFF → ∀ u t, l.team = some u → s.team? u = some t → (look {} t.bars l.cbar).arr < 65535) →
    s.translate .host c.desc ⟨true, false, none⟩ .write l.recordAddr 32 = .ok pa → s.fencedAt pa = false →
    Leads (.launchComplete l.id) s fun t => t.launch? l.id = none ∧
      (t.ctx? l.ctx).map (·.fin) = some (c.fin + 1) ∧
      ∀ k < 32, Memory.read t.mem (pa + k) =
        (leBytes 4 (l.fate.getD 0 + l.red.maxSt * 2 ^ 8 + l.red.orSt.toNat * 2 ^ 16) ++ leBytes 4 l.red.nonzero
          ++ leBytes 4 l.red.exited ++ leBytes 4 l.red.made ++ leBytes 4 l.red.claimed ++ leBytes 4 l.red.unclaimed
          ++ leBytes 8 (c.fin + 1)).getD k 0

/-- R198: a TASK defines its node with the interval, the grain and the successors of the command, READY once no predecessor is
left, and is gone; one that names a node defined and not DONE leaves its queue with status FAULT and has no effect on the node
or on its launch (log 24), but that it arrives on its barrier. -/
def TasksDefineNodes : Prop :=
  ∀ (s : State) (c : Cmd) (x : Ctx), s.cmd? c.id = some c → s.ctx? c.ctx = some x → c.opc = 0x50 → c.state = .running →
    let graph := recNat c.bytes 8 1
    let node := recBits c.bytes 8 16 12
    let taken : Prop := ∃ y ∈ x.nodes, y.graph = graph ∧ y.node = node ∧ y.state ≠ .done
    let preds := recBits c.bytes 8 32 8 - (x.heldDecs.filter fun k => decide (k = graph * 4096 + node)).length
    let lo := recNat c.bytes 0x10 4
    let hi := recNat c.bytes 0x14 4
    (taken → LeadsSurely c.ctx (recNat c.bytes 4 2 = 0xFFFF) (.task c.id) s fun t =>
      t.cmd? c.id = none ∧ (recNat c.bytes 4 2 = 0xFFFF → t.launches = s.launches) ∧ (t.ctx? c.ctx).map (·.nodes) = some x.nodes ∧
      (∀ r, c.ret = some r → ∃ e ∈ t.returns, e.2.1 = r ∧ e.2.2.toNat % 256 = 1)) ∧
    let sure : Prop := recNat c.bytes 4 2 = 0xFFFF ∨ recBits c.bytes 8 40 3 = 0
    (¬ taken → lo ≠ hi ∨ preds ≠ 0 → LeadsSurely c.ctx sure (.task c.id) s fun t => t.cmd? c.id = none ∧ ∃ z y, t.ctx? c.ctx = some z ∧ y ∈ z.nodes ∧
      y.graph = graph ∧ y.node = node ∧ y.preds = preds ∧ y.lo = lo ∧ y.hi = hi ∧ y.grain = recNat c.bytes 0x18 4 ∧
      y.succs = ((List.range (min (recBits c.bytes 8 40 3) 4)).map fun k => recNat c.bytes (0x20 + 2 * k) 2 % 4096) ∧
      y.state = (if preds = 0 then .ready else .waiting) ∧ y.left = (if lo < hi then [(lo, hi)] else []) ∧
      ∀ w ∈ x.nodes, ¬ (w.graph = graph ∧ w.node = node) → w ∈ z.nodes) ∧
    (¬ taken → lo = hi → preds = 0 → (∀ e ∈ x.taskRels, s.bears? e.2 = false) → LeadsPosting c.ctx (.task c.id) s fun t => t.cmd? c.id = none)

end Sys2Proof.Claims

/-- R177, R179, R182 to R189, R262: submission, dependences and placement of launches. Log 36 gives the queue of a priority above
7, and log 14 which launches count toward 256 and when a broken record ends. -/
def Obligations.LaunchesBegin : Prop := LaunchesAreAccepted ∧ DependencesResolve ∧ ClustersArePlaced

/-- R180 to R182, R198: completion of launches, and the nodes of range tasks. -/
def Obligations.LaunchesEndAndTasksAreDefined : Prop := LaunchesComplete ∧ TasksDefineNodes
/-! ### Commands and copy engines (spec/14, spec/20) -/

namespace Sys2Proof.Claims

/-- A byte that a copy command finds at an address of its source, in tile memory (`space` 1) or else in its context's part of the
weight store or in global memory (R226, R270): one that its engine has read ahead of its turn, or the byte there now, of tile memory one before or after the stores that arrive
between `old` and `s` (R237, R279). -/
def ByteAt (old s : State) (c : Cmd) (x : Ctx) (space va : Nat) (b : Byte) : Prop :=
  match c.early.find? fun e => decide (e.1 = space ∧ e.2.1 = va) with
  | some e => b = e.2.2
  | none =>
    if space = 1 then ∃ t, s.memberTeam c = some t ∧ b = old.unitByte s t.id va
    else if c.inWindow x.desc va then
      let ws := x.desc.ws.getD c.die (0, 0)
      let o := ws.1 * 65536 + (va - windowBase)
      va - windowBase < ws.2 * 65536 ∧ (s.dieSt c.die).refresh ≠ some (o / 2 ^ 16 % 8) ∧ b = look 0 s.ws (c.die * windowSpan + o)
    else ∃ pa, s.translate (.socket c.socket) x.desc ⟨c.priv, true, some c.die⟩ .read va 1 = .ok pa ∧ s.fencedAt pa = false ∧
      b = s.viewByte none (.socket c.socket) pa

/-- The engine of a copy command serves it (R261), and it reads next, between the state `old`, in which the writes performed toward
it at team or cluster scope have arrived (R244, R277), and `s1`, in which some stores to the tile memory of its source have
(R237). -/
structure Engaged (s old s1 : State) (c : Cmd) (x : Ctx) : Prop where
  here : s.cmd? c.id = some c
  ctx : s.ctx? c.ctx = some x
  copy : c.qid < 256
  runs : c.state = .running ∧ c.fate = none ∧ c.fetched < c.len
  up : s.engineFenced c = false
  noError : s.ecc = false
  served : s.serves c = true
  brought : s.summonFor c = some old
  stirred : s1 = old.stirSource c

/-- The engine has read these bytes, and nothing else changes. -/
def Fetches (ins : Instr) (s s1 : State) (c : Cmd) (bs : List Byte) : Prop :=
  exec ins s = .next (State.wake { s1.onCmd c.id fun c => { c with
    staged := c.staged ++ bs, fetched := c.fetched + bs.length, fate := none } with free := s1.free + 1 })

/-- R271, R274: COPY, COPY2D and WSLOAD read their next bytes, each from where Table 14.7 says; FILL makes them from its
pattern. Nothing has to arrive first where no write is performed at team or cluster scope alone, and nothing arrives meanwhile
where no store to the tile memory of the source is on its way. -/
def CopiesRead : Prop :=
  ∀ (s old s1 : State) (c : Cmd) (x : Ctx) (n : Nat) (b : Nat → Byte), Engaged s old s1 c x → 0 < n →
    let k := min n (c.len - c.fetched)
    let bs := (List.range k).map fun j => b (c.fetched + j)
    let from_ (addr : Nat → Nat) : Prop := ∀ j, c.fetched ≤ j → j < c.fetched + k →
      ByteAt old s1 c x (recBits c.bytes 8 4 2) (addr j) (b j)
    let src := recNat c.bytes 0x10 8
    let len := recNat c.bytes 0x0C 4
    let line (j : Nat) : Nat := (((src : Int) + signed 64 (recNat c.bytes 0x28 8) * (j / len : Nat) + (j % len : Nat)) % 2 ^ 64).toNat
    (c.opc = 1 → from_ (fun j => (src + j) % 2 ^ 64) → Fetches (.copy c.id n) s s1 c bs) ∧
    (c.opc = 2 → from_ line → Fetches (.copy2d c.id n) s s1 c bs) ∧
    (c.opc = 6 → from_ (fun j => (src + j) % 2 ^ 64) → Fetches (.wsload c.id n) s s1 c bs) ∧
    (2 < c.sc ∨ (∀ v ∈ s.inflight, v.owed = 0) → s.summonFor c = some s) ∧
    (∀ t, old.memberTeam c = some t → (∀ v ∈ old.inflight, v.tile ≠ some t.id) → s1 = { old with free := old.free + 1 }) ∧
    (old.memberTeam c = none → s1 = old) ∧
    (c.opc = 5 → (∀ j, b j = BitVec.ofNat 8 (recNat c.bytes 0x20 4 / 2 ^ (8 * (j % 4)))) → Fetches (.fill c.id n) s s1 c bs)

/-- R272: REBLOCK of 8-bit elements. Toward CB32, byte j is element (i, k) of its 32-element block, zero beyond the counts; from
CB32, bytes are those of the row-major matrix. -/
def ReblockReads : Prop :=
  ∀ (s old s1 : State) (c : Cmd) (x : Ctx) (n : Nat) (b : Nat → Byte), Engaged s old s1 c x → 0 < n → c.opc = 3 → c.elemBits = 8 →
    let m := min n (c.len - c.fetched)
    let src := recNat c.bytes 0x10 8
    let outer := recNat c.bytes 0x0C 4
    let depth := recNat c.bytes 0x20 4
    let pitch := recNat c.bytes 0x28 8
    let p8 := 8 * ((outer + 7) / 8)
    let finds (a : Nat) (y : Byte) : Prop := ByteAt old s1 c x (recBits c.bytes 8 4 2) ((src + a) % 2 ^ 64) y
    let xctl := recNat c.bytes 9 1
    let rows := xor (!xctl.testBit 3) (xctl.testBit 4)
    (xctl.testBit 2 = false → (∀ j, c.fetched ≤ j → j < c.fetched + m →
        let i := j % (p8 * 32) / 32
        let k := j / (p8 * 32) * 32 + j % 32
        if i < outer ∧ k < depth then finds (if rows then i * pitch + k else k * pitch + i) (b j) else b j = 0) →
      Fetches (.reblock c.id n) s s1 c ((List.range m).map fun j => b (c.fetched + j))) ∧
    (xctl.testBit 2 = true → (∀ j, c.fetched ≤ j → j < c.fetched + m →
        let width := if rows then depth else outer
        let i := if rows then j / width else j % width
        let k := if rows then j % width else j / width
        finds (k / 32 * p8 * 32 + i * 32 + k % 32) (b j)) →
      Fetches (.reblock c.id n) s s1 c ((List.range m).map fun j => b (c.fetched + j)))

/-- R273, R341: GATHER reads the index of its next row and then the row; the index of all ones gives a row of zeros. Where a
suspension has cut a row, its bytes go on from the first undelivered one. -/
def GatherReads : Prop :=
  ∀ (s old s1 : State) (c : Cmd) (x : Ctx) (ix : Nat → Byte), Engaged s old s1 c x → c.opc = 4 →
    let len := recNat c.bytes 0x0C 4
    let row := c.fetched / len
    let space := recBits c.bytes 8 4 2
    let idx : Nat := (ix 0).toNat + 2 ^ 8 * (ix 1).toNat + 2 ^ 16 * (ix 2).toNat + 2 ^ 24 * (ix 3).toNat
    let base := (((recNat c.bytes 0x10 8 : Int) + idx * signed 64 (recNat c.bytes 0x30 8)) % 2 ^ 64).toNat
    0 < len → row < recNat c.bytes 0x20 4 →
    (∀ k < 4, ByteAt old s1 c x (if recNat c.bytes 9 1 = 1 then 1 else 0) ((recNat c.bytes 0x28 8 + 4 * row + k) % 2 ^ 64) (ix k)) →
    let rest (bs : List Byte) : List Byte := bs.drop (c.fetched % len)
    (idx = 2 ^ 32 - 1 → Fetches (.gather c.id 1) s s1 c (rest (List.replicate len 0))) ∧
    ∀ b : Nat → Byte, idx ≠ 2 ^ 32 - 1 → (space = 1 → base + len ≤ s.tileBytes c) →
      (∀ k < len, ByteAt old s1 c x space ((base + k) % 2 ^ 64) (b k)) →
      Fetches (.gather c.id 1) s s1 c (rest ((List.range len).map b))

/-- R275, R345: DSNAP copies a context's dirty bits, page 8 k + i at bit i of byte k, and clears them. -/
def DirtyBitsAreCopied : Prop :=
  ∀ (s old s1 : State) (c : Cmd) (x y : Ctx), Engaged s old s1 c x → c.opc = 7 → s1.ctx? c.other = some y → 0 < y.desc.dirtyPages →
    Leads (.dsnap c.id) s fun t => (t.ctx? c.other).map (·.dirty) = some [] ∧ t.mem = s1.mem ∧
      ∃ d, t.cmd? c.id = some d ∧ ∃ bs, d.staged = c.staged ++ bs ∧
        bs.length = min c.len (8 * ((y.desc.dirtyPages + 63) / 64)) ∧
        ∀ k < bs.length, ∀ i < 8, (bs.getD k 0).getLsbD i = y.dirty.contains (8 * k + i)

/-- R261, R266, R268, R270, R358: a delivery of `n` staged bytes, within a page of its destination and short of the command's end,
where no MCA write, no write that comes before it and no load on its way meets the place, writes them there and nowhere else,
where every observer of a scope below device finds them, and its stream's write pointer moves by `n`. At device or system scope
the write of the bytes is on its way from then on, seen by no reader (log 6). -/
def BytesAreDelivered : Prop :=
  ∀ (s : State) (c : Cmd) (x : Ctx) (u : Team) (n : Nat), s.cmd? c.id = some c → s.ctx? c.ctx = some x →
    s.team? c.team = some u → c.qid < 256 → c.state = .running → s.engineFenced c = false → s.Inv → s.serves c = true →
    c.moving = 0 → (∀ w ∈ s.inflight, w.cmd ≠ some c.id) → c.overlap = false ∨ c.len ≤ c.fetched →
    0 < n → n ≤ c.staged.length → n ≤ c.runFrom c.delivered → c.delivered + n < c.len → recNat c.bytes 4 2 = 0xFFFF →
    let a := c.dstOf c.delivered
    let dsp := recBits c.bytes 8 6 2
    let moves (t : State) : Prop := (∃ d, t.cmd? c.id = some d ∧ d.delivered = c.delivered + n ∧ d.staged = c.staged.drop n) ∧
      (t.team? c.team).map (fun v => look 0 v.wptr c.qid) = some (look 0 u.wptr c.qid + BitVec.ofNat 64 n)
    let free (l : Loc) : Prop := (∀ w ∈ s.inflight, w.on n l = true → w.mca = false) ∧ s.before c n l = [] ∧
      ∀ q ∈ s.pend, ∀ y ∈ q.accs, y.loc.overlaps q.bytes l n = false
    (dsp = 0 → c.sc ≤ 3 → a % 65536 + n ≤ 65536 → ∀ pa,
      s.translate (.socket c.socket) x.desc ⟨c.priv, true, some c.die⟩ .write a n = .ok pa → s.fencedAt pa = false →
      free (.mem pa) →
      let s0 := s.setDirtyAt (.socket c.socket) x.desc a
      Leads (.delivery c.id n) s fun t => moves t ∧ t.latestBytes pa n = c.staged.take n ∧
        (∀ o ∈ .socket c.socket :: scopeObservers x.desc c.socket c.sc,
          t.viewBytes none o pa n = c.staged.take n) ∧
        ∀ b, ¬ (pa ≤ b ∧ b < pa + n) → t.latestBytes b 1 = s0.latestBytes b 1) ∧
    (dsp = 0 → 4 ≤ c.sc → a % 65536 + n ≤ 65536 → ∀ pa,
      s.translate (.socket c.socket) x.desc ⟨c.priv, true, some c.die⟩ .write a n = .ok pa → s.fencedAt pa = false →
      free (.mem pa) →
      let s0 := s.setDirtyAt (.socket c.socket) x.desc a
      Leads (.delivery c.id n) s fun t => t.cmd? c.id = some { c with staged := c.staged.drop n, moving := n } ∧
        t.teams = s0.teams ∧ t.mem = s0.mem ∧ (∀ gid o b, t.viewByte gid o b = s0.viewByte gid o b) ∧
        ∃ w, t.inflight = s0.inflight ++ [w] ∧ w.base = pa ∧ w.len = n ∧ w.cells = cellsAt pa (c.staged.take n) ∧
          w.mca = c.mca ∧ w.arrived = [] ∧ w.cmd = some c.id ∧ w.off = c.delivered ∧ w.site = c.site) ∧
    (dsp = 1 → ∀ v, s.memberTeam c = some v → s.team? v.id = some v → free (.tile v.id a) →
      Leads (.delivery c.id n) s fun t => moves t ∧
        t.mem = s.mem ∧ ∃ y, t.team? v.id = some y ∧ ∀ b, look 0 y.tile b =
          if a ≤ b ∧ b < a + n then c.staged.getD (b - a) 0 else look 0 v.tile b) ∧
    (dsp = 2 → Leads (.delivery c.id n) s fun t => moves t ∧ t.mem = s.mem ∧
      let o := c.target * windowSpan + (x.desc.ws.getD c.target (0, 0)).1 * 65536 + (a - windowBase)
      ∀ b, look 0 t.ws b = if o ≤ b ∧ b < o + n then c.staged.getD (b - o) 0 else look 0 s.ws b)

/-- R266, R359, R363: the bytes of writes that have been performed at the scope of their command, before the first one that has
not, count as delivered at its next delivery: the write pointer of its stream moves by them. -/
def PerformedWritesCount : Prop :=
  ∀ (s : State) (c : Cmd) (x : Ctx) (u : Team) (n : Nat), s.cmd? c.id = some c → s.ctx? c.ctx = some x →
    s.team? c.team = some u → c.qid < 256 → c.state = .running → s.serves c = true → recNat c.bytes 4 2 = 0xFFFF →
    let k := s.moved c
    k ≠ 0 → c.delivered + k < c.len →
    Leads (.delivery c.id n) s fun t => t.cmd? c.id = some { c with delivered := c.delivered + k, moving := c.moving - k } ∧
      (t.team? c.team).map (fun v => look 0 v.wptr c.qid) = some (look 0 u.wptr c.qid + BitVec.ofNat 64 k) ∧
      t.inflight = s.inflight ∧ t.mem = s.mem

/-- R261, R262, R265, R276: the command at the head of its stream is HELD while its slot has no verdict; else a copy command
becomes RUNNING, after what its forks carry has been performed (R277), where it passes its checks, and ends FAULT, with its
launch, where it does not. -/
def CommandsStart : Prop :=
  ∀ (s : State) (c : Cmd) (x : Ctx) (l : Launch), s.cmd? c.id = some c → s.ctx? c.ctx = some x → x.phase = .live →
    c.state = .queued → s.cmdHead c = true → c.verdict ≠ some false → s.engineFenced c = false →
    s.launch? c.lid = some l → l.fate = none →
    (c.gslot ≠ 0 → c.verdict = none →
      exec (.commandStart c.id) s = .next (s.onCmd c.id fun c => { c with state := .held }).wake) ∧
    (c.gslot = 0 ∨ c.verdict = some true → c.qid < 256 → ¬ (c.opc = 6 ∧ s.teamOn c.ctx c.target = true) →
      s.serves c = true → ((∀ r ∈ c.forks, s.bears? r = false) → (s.joinCmd c).isSome = true) ∧
      ∀ s1 d, s.joinCmd c = some (s1, d) →
      (s1.copyCheck d x = none → Leads (.commandStart c.id) s fun t =>
        t.cmd? c.id = some { d with state := .running, overlap := s1.copyOverlaps d x } ∧ t.mem = s1.mem) ∧
      ((s1.copyCheck d x).isSome = true → LeadsPosting c.ctx (.commandStart c.id) s fun t =>
        t.cmd? c.id = none ∧ (t.launch? c.lid).map (·.fate) = some (some 1)))

/-- R259, R262, R267, R276: a copy command that has delivered every byte leaves its queue, as one with verdict 0 at the head of its
stream, and one that met a cause, with its launch FAULT; a return word then starts on its way, and lands in the entry reserved
for it. -/
def CommandsComplete : Prop :=
  ∀ (s : State) (c : Cmd) (x : Ctx) (l : Launch), s.cmd? c.id = some c → s.ctx? c.ctx = some x → x.phase = .live →
    c.qid < 256 → s.launch? c.lid = some l → l.fate = none → c.outcome = none →
    (∀ r, c.ret = some r → c.state = .running → s.engineFenced c = false → c.fate = none → c.len = c.delivered →
      Leads (.commandComplete c.id) s fun t => t.cmd? c.id = none ∧
        t.returns = s.returns ++ [(s.nextId, r, BitVec.ofNat 32 (c.delivered % 2 ^ 24 * 256))]) ∧
    (c.state = .running → s.engineFenced c = false → c.fate = none → c.len ≤ c.delivered →
      Leads (.commandComplete c.id) s fun t => t.cmd? c.id = none ∧ t.launches = s.launches ∧
        (c.notifies = false → t.mem = s.mem ∧ t.irqs = s.irqs) ∧ (c.notifies = true → t.irqs = 2 * c.ctx :: s.irqs)) ∧
    (∀ why, c.state = .running → s.engineFenced c = false → c.fate = some why → c.moving = 0 →
      (∀ b ∈ s.blocks, b.cid ≠ c.id) →
      LeadsPosting c.ctx (.commandComplete c.id) s fun t =>
        t.cmd? c.id = none ∧ (t.launch? c.lid).map (·.fate) = some (some 1)) ∧
    (c.state = .queued → c.verdict = some false → s.cmdHead c = true →
      LeadsSurely c.ctx (recNat c.bytes 4 2 = 0xFFFF) (.commandComplete c.id) s fun t => t.cmd? c.id = none)

/-- A queue entry after the return word for the entry reserved under a name. -/
def returned (res : Nat) (x : W32) (e : QEnt) : QEnt :=
  if e = .reserved res true ∨ e = .reserved res false then .landed (plain x) else e

/-- R259: a return word lands in the queue entry that its PUSH reserved. -/
def ReturnWordsLand : Prop :=
  ∀ (s : State) (id : Nat) (r : RetTo) (x : W32) (g : Group),
    s.returns.find? (fun e => decide (e.1 = id)) = some (id, r, x) → s.group? r.gid = some g →
    Leads (.returnWordLands id) s fun t => t.returns = s.returns.filter (fun e => decide (e.1 ≠ id)) ∧ t.mem = s.mem ∧
      ∃ h, t.group? r.gid = some h ∧ h.v = g.v ∧ h.s = g.s ∧ h.ctl = g.ctl ∧
        ∀ (m : BitVec 4) (lane : Nat), h.queue lane m.toNat = if lane * 16 + m.toNat = r.lane * 16 + r.q then
          { g.queue lane m.toNat with entries := (g.queue lane m.toNat).entries.map (returned r.res x) }
          else g.queue lane m.toNat

/-- R224, R228, R252, R358 to R360: a write arrives at one more observer, its own die first, and one of host memory or of tile memory
at all at once, when everything that comes before it has happened (R247, R251); it takes its place in coherence order with the first
arrival, after every write that has one. A write that has reached all, and does not stand for a release that still carries
another (log 6), is in memory; an MCA write becomes visible at every observer at once. No other write arrives. The refresh windows
of a die's banks open in turn and close. -/
def WritesArriveAndBanksRefresh : Prop :=
  (∀ (s : State) (w : InWrite) (o : Observer), s.inflight.find? (fun v => decide (v.id = w.id)) = some w →
    s.clear w = true → s.Inv → o ∈ allObservers →
    w.torn = false ∨ (∀ q ∈ s.pend, ∀ a ∈ q.accs, a.loc.overlaps q.bytes w.loc w.len = false) →
    (∀ c, w.cmd.bind s.cmd? = some c → c.notifies = false ∧ recNat c.bytes 4 2 = 0xFFFF) →
    let own := Observer.socket w.site.die
    -- a byte of the write that no write after it in coherence order covers, and none that has no place yet
    let last (c : Host.Cell) : Prop := c ∈ w.cells ∧ (w.cells.map (·.1)).Nodup ∧
      ∀ v ∈ s.inflight, v.id ≠ w.id → v.tile = w.tile → (∃ d ∈ v.cells, d.1 = c.1) →
        v.placed = true ∧ (w.placed = true → v ∈ s.inflight.takeWhile fun x => decide (x.id ≠ w.id))
    let settled (t : State) : Prop := s.bears w = false → (∀ v ∈ t.inflight, v.id ≠ w.id) ∧
      ∀ c, last c → w.flat = true → Memory.read t.mem c.1 = c.2
    let others (t : State) : Prop := ∀ v ∈ s.inflight, v.id ≠ w.id →
      v.whole = true ∨ ∃ x ∈ t.inflight, x.id = v.id ∧ x.arrived = v.arrived ∧ x.placed = v.placed
    (w.mca = false → w.single = false → o ∉ w.arrived → o = own ∨ own ∈ w.arrived →
      Leads (.writeArrival w.id o) s fun t => others t ∧
        (∀ gid c, last c → t.viewByte gid o c.1 = c.2) ∧
        ((∀ p ∈ allObservers, p = o ∨ p ∈ w.arrived) → settled t)) ∧
    (w.mca = false → w.single = true → o ∉ w.arrived → o = (if w.flat = true then .host else own) →
      Leads (.writeArrival w.id o) s fun t => others t ∧ settled t ∧
        (w.flat = true → ∀ gid, ∀ p ∈ allObservers, ∀ c, last c → t.viewByte gid p c.1 = c.2) ∧
        (∀ team r c, w.tile = some team → last c → (s.team? team).isSome = true → t.tileByte r team c.1 = c.2)) ∧
    (w.mca = true → w.arrived = [] → w.flat = true →
      Leads (.mcaSingleMoment w.id) s fun t => others t ∧ settled t ∧
        ∀ gid p c, p ∈ allObservers → last c → t.viewByte gid p c.1 = c.2)) ∧
  ∀ (s : State) (die : Nat),
    (∀ b, die < 8 → (s.dieSt die).refresh = none → b = (s.dieSt die).nextBank → s.pkg.ready.getLsbD die = true →
      exec (.wsRefresh die b) s =
        .next (s.onDie die fun d => { d with refresh := some b, nextBank := (b + 1) % 8 }).wake) ∧
    (∀ b, (s.dieSt die).refresh = some b →
      exec (.refreshWindowEnd die b) s = .next (s.onDie die fun d => { d with refresh := none }).wake)

end Sys2Proof.Claims

/-- R226, R266 to R275, R345: what copy engines read, and what they deliver. -/
def Obligations.CopyEnginesReadAndDeliver : Prop :=
  CopiesRead ∧ ReblockReads ∧ GatherReads ∧ DirtyBitsAreCopied ∧ BytesAreDelivered ∧ PerformedWritesCount

/-- R259, R261, R262, R265, R267, R276: how commands start and complete. -/
def Obligations.CommandsStartAndComplete : Prop := CommandsStart ∧ CommandsComplete ∧ ReturnWordsLand

/-- R224, R228, R252, R358 to R360: arrivals of writes, and refresh windows. -/
def Obligations.WritesAndRefreshWindows : Prop := WritesArriveAndBanksRefresh
/-! ### Exchange (spec/21) -/

namespace Sys2Proof.Claims

/-- An exchange engine takes the next piece of a command: it serves this command, and no other is in the midst of the
round's sequence numbers (R261, R370). -/
structure Exchanging (s : State) (c : Cmd) (x : Ctx) (opc : Nat) : Prop where
  here : s.cmd? c.id = some c
  ctx : s.ctx? c.ctx = some x
  queue : 0x1000 ≤ c.qid ∧ c.qid < 0x1008
  runs : c.opc = opc ∧ c.state = .running ∧ c.fate = none ∧ c.taken < c.count
  up : s.engineFenced c = false
  turn : ∀ y ∈ s.cmds, y.sending c = false
  served : s.xServes c = true

/-- A context after LOAD of an expert table: its entries in use are registered, and no other (R379). -/
def Loaded (table : List Byte) (y : Ctx) : Prop :=
  ∀ e < 256, let b := (table.drop (64 * e)).take 64
    look? y.experts e = if recNat b 4 2 = 0 then none else
      some { home := recBits b 0 0 4, slots := recNat b 4 2, h := recNat b 6 1, k := recBits b 4 24 3
             cnt := BitVec.ofNat 64 (recNat b 0x20 8), cap := recNat b 0x10 4, avg := recNat b 0x14 4 }

/-- R367, R370, R374, R375, R379: EXCH with LOAD registers its expert table before its first block. It takes a descriptor: a sent
block flies to its expert's home under the sender's next sequence number of the round, and a table entry of its engine's die
holds it; a registered one enters the table alone, and counts as 4 bytes. A cause that the engine met at the descriptor or
meets at the block ends the command. Writes may arrive while the engine reads: it finds each byte before or after them (R279;
log 6: which is free). -/
def BlocksAreSent : Prop :=
  ∀ (s : State) (c : Cmd) (x : Ctx) (table : List Byte), Exchanging s c x 0x20 →
    let first := c.loads = true ∧ c.taken = 0
    let at_ := x.level c.priv
    let s1 := s.stirMem c.xdie
    let finds (va n : Nat) : Except (BitVec 8) (List Byte) := s.xRead s1 c.xdie at_ va n
    (first → finds c.xtab 16384 = .ok table) →
    let known (t : State) : Prop := ∃ y, t.ctx? c.ctx = some y ∧ (first → Loaded table y) ∧ (¬ first → y.experts = x.experts)
    let room (sender seq : Nat) : Prop := (s.sideInfo.filter fun e => decide (e.die = c.xdie)).length < 4096 ∧
      ∀ e ∈ s.sideInfo, ¬ (e.die = c.xdie ∧ e.ctx = c.ctx ∧ e.dom = c.dom ∧ e.round = c.round ∧ e.sender = sender ∧ e.seq = seq)
    let ends (e : BitVec 8) : Prop := Leads (.exch c.id) s fun t => known t ∧ t.mem = s1.mem ∧ t.blocks = s.blocks ∧
      (t.cmd? c.id).map (·.fate) = some (some { code := e })
    (∀ e, c.descs.getD c.taken (.cause 0x12) = .cause e → ends e) ∧
    ∀ d : List Byte, c.descs[c.taken]? = some (.bytes d) →
      (∀ e, finds (recNat d 0 8) 512 = .error e → ends e) ∧
      ∀ data : List Byte, finds (recNat d 0 8) 512 = .ok data →
        let expert := recNat d 8 1
        let sender := s.senderOf c.dom c.xdie
        let seq := look 0 (x.round c.dom c.round).seqs sender
        (recBits d 8 63 1 = 0 → ∀ e, look? c.entries expert = some (.bytes e) → room sender seq →
          (c.dom = 1 → ∀ k, s.pkg.portTo (XEntry.home e) = some k →
            (s.link k).waiting = [] ∧ (s.link k).unacked.length + 3 ≤ 2048) →
          Leads (.exch c.id) s fun t => known t ∧ t.mem = s1.mem ∧
            t.sideInfo = s.sideInfo ++ [⟨c.xdie, c.ctx, c.dom, c.round, sender, seq, data, true⟩] ∧
            (t.cmd? c.id).map (·.taken) = some (c.taken + 1) ∧
            (∃ b, t.blocks = s.blocks ++ [b] ∧ b.cid = c.id ∧ b.ctx = c.ctx ∧ b.round = c.round ∧ b.dom = c.dom ∧
              b.sender = sender ∧ b.seq = seq ∧ b.expert = expert ∧ b.data = data ∧ b.coded = c.coded ∧ b.sup = c.priv ∧ b.state = .flying ∧
              b.home = (if c.dom = 0 then XEntry.home e else XEntry.rdie e) ∧ b.peer = XEntry.home e) ∧
            ∃ y rd, t.ctx? c.ctx = some y ∧ y.round? c.dom c.round = some rd ∧ look 0 rd.seqs sender = seq + 1) ∧
        (recBits d 8 63 1 = 1 → c.cbar = 0xFFFF → room (recBits d 8 52 7) (recBits d 8 32 20) →
          Leads (.exch c.id) s fun t => known t ∧ t.mem = s1.mem ∧ t.blocks = s.blocks ∧
            t.sideInfo = s.sideInfo ++ [⟨c.xdie, c.ctx, c.dom, c.round, recBits d 8 52 7, recBits d 8 32 20, data, false⟩] ∧
            t.cmd? c.id = some { c with taken := c.taken + 1, delivered := c.delivered + 4 })

/-- The round of a context after a decision for an expert: one more is offered, and `k` more are admitted. -/
def Counted (t : State) (ctx dom r : Nat) (old : Round) (expert k : Nat) : Prop :=
  ∃ y rd, t.ctx? ctx = some y ∧ y.round? dom r = some rd ∧
    look 0 rd.offered expert = look 0 old.offered expert + 1 ∧ look 0 rd.admitted expert = look 0 old.admitted expert + k

/-- R370, R371, R372: the home of a block counts it as offered, and admits it while fewer than the capacity and the slots of its
expert have been admitted in the round; else it is dropped, and its drop map entry says so. A block that can be delivered at once may break its barrier, whose entry must find room. -/
def BlocksAreDecided : Prop :=
  ∀ (s : State) (b : Block) (c : Cmd) (x : Ctx) (e : List Byte),
    s.flying b.id = some b → b.mate = none → b.dom = 0 →
    s.ctx? b.ctx = some x → s.cmd? b.cid = some c → c.ctx = b.ctx → s.pkg.fencedSock.getLsbD b.home = false →
    let rd := x.round 0 b.round
    let s1 := s.stirMem b.home
    b.sender * 2 ^ 32 + b.seq ∉ rd.keys →
    s.xRead s1 b.home (x.level b.sup) ((look? rd.tables b.home).getD c.xtab + 64 * b.expert) 64 = .ok e → XEntry.tile e = false →
    let n := look 0 rd.admitted b.expert
    let cap := look 0 (rd.fixCaps b.home x.experts).caps (b.home * 512 + b.expert)
    let still : Prop := ∀ y ∈ s.blocks, y.state = .flying
    let comes (sure : Prop) (P : State → Prop) : Prop :=
      LeadsSurely b.ctx (sure ∧ c.cbar = 0xFFFF) (.blockArrival (.own b.id)) s P
    (n < cap → n < XEntry.slots e → comes (still ∧ XEntry.bv e = false) fun t => Counted t b.ctx 0 b.round rd b.expert 1 ∧
      (t.cmd? c.id).map (·.done) = some (c.done + 1) ∧ ∀ y ∈ t.blocks, y.id = b.id → y.state = .admitted n) ∧
    (cap ≤ n ∨ XEntry.slots e ≤ n → comes still fun t => Counted t b.ctx 0 b.round rd b.expert 0 ∧
      (t.cmd? c.id).map (·.dropped) = some (c.dropped + 1) ∧ (∀ y ∈ t.blocks, y.id ≠ b.id) ∧
      ∀ pa, still → (b.dmap.toNat + 4 * b.seq) % 65536 + 4 ≤ 65536 →
        s1.translate (.socket c.xdie) x.desc ⟨c.priv, false, none⟩ .write (b.dmap.toNat + 4 * b.seq) 4 = .ok pa →
        s1.fencedAt pa = false →
        ∀ k < 4, Memory.read t.mem (pa + k) = (leBytes 4 (2 * 2 ^ 30 + b.expert * 2 ^ 16)).getD k 0)

/-- R369: a block from another device fails where no live context has its tag; one for a context of this device is decided by
that context's own table, counted there, and its sender's engine learns the drop map entry. -/
def FarBlocksAreDecided : Prop :=
  ∀ (s : State) (f : FarBlock), s.farComes f = true →
    (s.tagged f.tag = none → Leads (.blockArrival (.far f)) s fun t =>
      t.reply = leBytes 4 (3 * 2 ^ 30 + f.expert * 2 ^ 16) ∧ t.ctxs = s.ctxs ∧ t.mem = s.mem ∧ t.blocks = s.blocks) ∧
    ∀ (x : Ctx) (tab : W64) (e : List Byte), s.tagged f.tag = some x → s.ctx? x.desc.ctx = some x → s.cmd? 0 = none →
      (∀ y ∈ s.blocks, y.cid ≠ 0) → s.pkg.fencedSock.getLsbD f.die = false →
      let rd := x.round 1 f.round
      f.sender * 2 ^ 32 + f.seq ∉ rd.got → x.xtab = some tab →
      s.xRead (s.stirMem f.die) f.die (x.level f.sup) (tab.toNat + 64 * f.expert) 64 = .ok e → XEntry.slots e ≠ 0 → XEntry.tile e = false →
      let n := look 0 rd.admitted f.expert
      let cap := look 0 (rd.fixCaps f.die x.experts).caps (f.die * 512 + f.expert)
      let still : Prop := ∀ y ∈ s.blocks, y.state = .flying
      let comes (sure : Prop) (P : State → Prop) : Prop := LeadsSurely x.desc.ctx sure (.blockArrival (.far f)) s P
      (n < cap → n < XEntry.slots e → comes (still ∧ XEntry.bv e = false) fun t =>
        Counted t x.desc.ctx 1 f.round rd f.expert 1 ∧ t.reply = leBytes 4 (2 ^ 30 + f.expert * 2 ^ 16 + n % 2 ^ 16)) ∧
      (cap ≤ n ∨ XEntry.slots e ≤ n → comes still fun t =>
        Counted t x.desc.ctx 1 f.round rd f.expert 0 ∧ t.reply = leBytes 4 (2 * 2 ^ 30 + f.expert * 2 ^ 16))

/-- R374, R375: a block alone arrives as it is. Where each receiver of a coded packet holds the other's block, the packet is as the
two blocks' uncoded arrivals, the second of them when the packet comes to its receiver; a block whose receiver has lost what it
must cancel is sent again uncoded, and its command will say so. -/
def CodedPacketsAreTransparent : Prop :=
  ∀ (s : State) (b : Block), s.flying b.id = some b →
    let arrives (ins : Instr) (b : Block) (more : State → State) : Prop :=
      exec ins s = s.didPosting b.ctx (more (s.arriveBlock b)) ∧
      ((∀ y ∈ s.blocks, y.state = .flying) →
        (∀ x, s.ctx? b.ctx = some x → let v := s.decideBlock (s.stirMem b.home) b x; v.why = none ∧ XEntry.bv v.entry = false) →
        (∀ d, s.cmd? b.cid = some d → d.cbar = 0xFFFF) →
        exec ins s = .next (more (s.arriveBlock b)).wake)
    (b.mate = none → arrives (.blockArrival (.own b.id)) b id) ∧
    (∀ (c : Block) (held : SideInfo), b.mate = none → s.flying c.id = some c → s.codable b c = true →
      s.listed b.home c = some held → held.data = c.data → b.data.length = c.data.length →
      arrives (.codedPacket (.own b.id) c.id) b fun t => { t with blocks := t.blocks.map fun (y : Block) =>
        if y.id = c.id then { y with mate := some (b.id, b.sender, b.seq, b.data) } else y }) ∧
    (∀ (c sender seq : Nat) (data : List Byte) (held : SideInfo), b.mate = some (c, sender, seq, data) →
      s.listed b.home { b with sender := sender, seq := seq } = some held → held.data = data → b.data.length = data.length →
      arrives (.codedPacket (.own b.id) c) { b with mate := none } id) ∧
    ((b.mate = none ∧ b.coded = true ∧ b.lost = true) ∨
      (∃ m, b.mate = some m ∧ s.listed b.home { b with sender := m.2.1, seq := m.2.2.1 } = none) →
      exec (.decodeFallback (.own b.id)) s = .next (State.onCmd { s with
        blocks := s.blocks.map fun (y : Block) =>
          if y.id = b.id then { y with coded := false, lost := false, mate := none } else y }
        b.cid fun c => { c with decevict := true }).wake)

/-- R380: COMBINE gives a token the sum, rounded after each product, of its admitted pairs' rows by their weights in pair
order; the row of a token whose pairs were all dropped is zero. The engine finds each byte before or after the writes that
arrive while it reads (R279), and a row is written at one moment (log 6). -/
def TokensAreCombined : Prop :=
  ∀ (s : State) (c : Cmd) (x : Ctx) (pa : Nat), Exchanging s c x 0x21 → c.dom = 0 → c.renorm = false → c.cbar = 0xFFFF →
    let out := c.rows + 512 * c.taken
    let at_ := x.level c.priv
    let s1 := s.stirMem c.xdie
    let finds (va n : Nat) : Except (BitVec 8) (List Byte) := s.xRead s1 c.xdie at_ va n
    out % 65536 + 512 ≤ 65536 → s1.translate (.socket c.xdie) x.desc ⟨c.priv, false, none⟩ .write out 512 = .ok pa →
    s1.fencedAt pa = false →
    ∀ (p : Nat → List Byte) (entry : Nat → Nat), (∀ i < c.kk,
      finds (c.list + 8 * (c.taken * c.kk + i)) 8 = .ok (p i) ∧
      finds (c.dmap + 4 * recBits (p i) 0 0 20) 4 = .ok (leBytes 4 (entry i)) ∧ entry i < 2 ^ 32) →
    let done (t : State) (live dead : Nat) : Prop := ∃ d, t.cmd? c.id = some d ∧ d.taken = c.taken + 1 ∧
      d.done = c.done + live ∧ d.dropped = c.dropped + dead ∧ d.failed = c.failed ∧ d.delivered = c.delivered + 512
    ((∀ i < c.kk, entry i / 2 ^ 30 = 2) → Leads (.combine c.id) s fun t => done t 0 c.kk ∧
      ∀ k < 512, Memory.read t.mem (pa + k) = 0) ∧
    ∀ (e row : Nat → List Byte), (∀ i < c.kk, entry i / 2 ^ 30 = 1 ∧
      look? c.entries (entry i / 2 ^ 16 % 256) = some (.bytes (e i)) ∧ XEntry.legal x.desc 0 (e i) = true ∧
      s.pkg.fencedSock.getLsbD (XEntry.home (e i)) = false ∧
      finds (XEntry.obase (e i) + 512 * (entry i % 2 ^ 16)) 512 = .ok (row i)) →
      Leads (.combine c.id) s fun t => done t c.kk 0 ∧
        ∀ j < 128, ∀ k < 4, Memory.read t.mem (pa + 4 * j + k) =
          (leBytes 4 ((List.range c.kk).foldl (fun (y : W32) i =>
            let w := fp32.decode (recNat (p i) 4 4)
            let v := fp32.decode (recNat (row i) (4 * j) 4)
            roundFp32 ((fp32.decode y.toNat).add 0 (w.mul v).1).1) 0).toNat).getD k 0

/-- R377, R379: a fabric barrier whose members have arrived and whose recorded commands have completed closes; its notify barriers
take an arrival; with exchange in its round, each expert homed at a member gets its new average and capacity. In domain 1 an
exchange of another member shows in blocks that came from it, and is open where none did (log 26). -/
def FabricBarriersComplete : Prop :=
  ∀ (s : State) (c : Ctx) (b : FabBar), s.ctx? c.desc.ctx = some c → c.phase = .live → c.fbars.find? (fun y => decide (y.id = b.id)) = some b →
    s.allArrived b = true → (∀ id ∈ b.recorded, s.cmd? id = none) →
    (s.recordedExch c b = false → (∀ u n v, (u, n) ∈ b.notify → s.team? u = some v → (look {} v.bars n).arr < 65535) →
      b.notify.Nodup →
      Leads (.fabricBarrierComplete c.desc.ctx b.id) s fun t =>
      (t.ctx? c.desc.ctx).map (·.fbars) = some (c.fbars.filter fun y => decide (y.id ≠ b.id)) ∧
      ∀ u n, (u, n) ∈ b.notify → ∀ v, s.team? u = some v → (look {} v.bars n).brk = false →
        (t.team? u).map (fun v => look {} v.bars n) =
          some (phased { s.carriedBy (look {} v.bars n) b.rels with arr := (look {} v.bars n).arr + 1 })) ∧
    (s.recordedExch c b = true → ∀ e y, look? c.experts e = some y → b.fbgrp.getLsbD y.home = true → y.home < 16 →
      (b.fbgrp.msb = true → y.home = s.selfPeer) →
      LeadsPosting c.desc.ctx (.fabricBarrierComplete c.desc.ctx b.id) s fun t => ∃ z w, t.ctx? c.desc.ctx = some z ∧
        look? z.experts e = some w ∧
        let load := look 0 (c.round (if b.fbgrp.msb then 1 else 0) b.r).offered e
        let avg : Int := y.avg + ((256 * load : Int) - y.avg).fdiv (2 ^ y.k)
        w.avg = min avg.toNat (2 ^ 32 - 1) ∧ w.cap = max 1 (min ((y.h * w.avg + 4095) / 4096) y.slots))

end Sys2Proof.Claims

/-- R367, R369, R370, R371, R374, R375, R379: blocks are sent, decided, coded and sent again. What another device's home decides,
and side information kept by die, are the model's choice (logs 26, 30); an engine's writes are performed at once (log 6). -/
def Obligations.ExchangeOfBlocks : Prop :=
  BlocksAreSent ∧ BlocksAreDecided ∧ FarBlocksAreDecided ∧ CodedPacketsAreTransparent

/-- R377, R379, R380: combined tokens, and the completion of fabric barriers; an engine's writes are performed at once (log 6). -/
def Obligations.CombineAndFabricBarriers : Prop := TokensAreCombined ∧ FabricBarriersComplete
/-! ### Contexts (spec/18, spec/19) -/

namespace Sys2Proof.Claims

/-- R333, R353, R388: a descriptor within its limits that clashes with no live context creates its context, at the level that
SUPMASK gives its number, with every counter zero; another is answered 1, and nothing is created; a write of another size is
discarded. -/
def ContextsAreCreated : Prop :=
  ∀ (s : State) (bytes : List Byte), s.pkg.up = true →
    let d := parseDesc bytes
    let good : Prop := descZeros bytes = true ∧ d.legal = true ∧ ∀ c ∈ s.ctxs, d.clashes c.2.desc = false
    (bytes.length ≠ 256 → exec (.contextCreate bytes) s = .next s) ∧
    (bytes.length = 256 → good → Leads (.contextCreate bytes) s fun t =>
      t.ctx? d.ctx = some { desc := d, priv := s.pkg.supmask.getLsbD d.ctx } ∧ t.pkg.createReply = 0 ∧
      t.pkg.mode = some d.mode ∧ (∀ n, n ≠ d.ctx → t.ctx? n = s.ctx? n) ∧ t.mem = s.mem) ∧
    (bytes.length = 256 → ¬ good →
      exec (.contextCreate bytes) s = .next { s with pkg := { s.pkg with createReply := 1 } }.wake)

/-- Nothing of a context is left, and its number is free. -/
def Gone (t : State) (n : Nat) : Prop :=
  t.ctx? n = none ∧ (∀ u ∈ t.teams, u.ctx ≠ n) ∧ (∀ l ∈ t.launches, l.ctx ≠ n) ∧ (∀ c ∈ t.cmds, c.ctx ≠ n) ∧
  (∀ e ∈ t.estates, e.ctx ≠ n) ∧ ∀ e ∈ t.tlb, e.ctx ≠ n

/-- The destruction of a context ends it and answers 0, once what it posts has found room (R318, R365): at once where the
context has no work left to complete, no entry of it waits, and no write of it or ordered before it is on its way. -/
def Ends (ins : Instr) (s : State) (c : Ctx) : Prop :=
  let n := c.desc.ctx
  ∃ t, Gone t n ∧ t.pkg.destroyReply = 0 ∧ (exec ins s = .next t ∨ exec ins s = .fault .notEnabled) ∧
    ((∀ u ∈ s.teams, u.ctx ≠ n) → (∀ l ∈ s.launches, l.ctx ≠ n) → (∀ d ∈ s.cmds, d.ctx ≠ n) → c.faultQ = [] →
      s.ownWrites n = [] → exec ins s = .next t)

/-- R334: destruction ends a context, with DETACH only one whose image has state 2; the reply is 0, and 1 where there
is none to end. -/
def ContextsAreDestroyed : Prop :=
  ∀ (s : State) (n : Nat),
    let refused (ins : Instr) : Prop := exec ins s = .next { s with pkg := { s.pkg with destroyReply := 1 } }.wake
    (s.ctx? n = none → refused (.contextDestroy n) ∧ refused (.contextDestroyDetach n)) ∧
    ∀ c, c.desc.ctx = n → s.ctx? n = some c → s.busySwitch c = false →
      Ends (.contextDestroy n) s c ∧ (s.imageState c ≠ 2 → refused (.contextDestroyDetach n)) ∧
      (s.imageState c = 2 → Ends (.contextDestroyDetach n) s c)

/-- A running PREEMPT or RESUME with its target, whose work is to be done. -/
structure Switching (s : State) (c : Cmd) (x : Ctx) (opc : Nat) : Prop where
  here : s.cmd? c.id = some c
  runs : c.state = .running ∧ c.qid = 0x2000 ∧ c.opc = opc ∧ c.outcome = none
  kind : opc = 0x41 ∨ opc = 0x42
  target : s.ctx? c.targetCtx = some x
  other : c.targetCtx ≠ c.ctx

/-- The phase of a context. -/
def phaseOf (t : State) (n : Nat) : Option Phase := (t.ctx? n).map (·.phase)

/-- A switch has led to `u`. It completes with its status where the records before its own are written and its own finds its
place; else the status is kept for the time when its record may be written (R182, R365). -/
def Completing (ins : Instr) (s : State) (c : Cmd) (st : Nat) (P : State → Prop) : Prop :=
  ∃ u t, P u ∧ exec ins s = .next t ∧ (∀ n, phaseOf t n = phaseOf u n) ∧
    let v := u.finishSwitch c st
    if u.recordTurn c = true ∧ u.postedBy c.ctx v = true then t = v.wake ∧ t.cmd? c.id = none
    else (t.cmd? c.id).map (fun d => (d.state, d.outcome)) = (u.cmd? c.id).map fun _ => (.running, some st)

/-- A switch fails for its target's sake, in the state `u`: its entry in the target's record finds room, or it waits for it
(R318, R337, R339). -/
def Failing (ins : Instr) (s u : State) (c : Cmd) (code : BitVec 8) : Prop :=
  let v := u.post c.targetCtx { u.cmdPosting c { code := code } with lseq := 0 }
  if u.postedBy c.targetCtx v = true then Completing ins s c 1 (· = v) else exec ins s = .fault .notEnabled

/-- R337 to R339, R342: PREEMPT stops a live context once what must finish has, its producers have landed and its writes and
those ordered before it are visible, with its copies RESIDUAL; one already stopped stays so; with FLUSH it is flushed, or stays
pre-empted where its image or its estates do not fit. -/
def ContextsArePreempted : Prop :=
  ∀ (s : State) (c : Cmd) (x : Ctx), Switching s c x 0x41 →
    let n := c.targetCtx
    x.phase ≠ .ending → (if x.phase = .live then s.preemptStop n else s).landed n = true →
    (x.phase = .live → s.mustFinish n = false → c.flag8 = false → Completing (.preempt c.id) s c 0 fun u =>
      phaseOf u n = some .preempted ∧ ∀ d ∈ u.cmds, d.ctx = n → d.qid < 256 → d.state ≠ .running) ∧
    (x.phase ≠ .live → c.flag8 = false → Completing (.preempt c.id) s c 0 (· = s)) ∧
    (x.phase = .live → s.mustFinish n = false → c.flag8 = true →
      Completing (.preempt c.id) s c 0 (fun u => phaseOf u n = some .flushed) ∨
      ∃ e u, phaseOf u n = some .preempted ∧ Failing (.preempt c.id) s u c e) ∧
    (x.phase ≠ .live → c.flag8 = true →
      (∀ u, s.flush n x = .ok u → phaseOf u n = some .flushed ∧ Completing (.preempt c.id) s c 0 (· = u)) ∧
      ∀ e, s.flush n x = .error e → ∃ u, phaseOf u n = some .preempted ∧ Failing (.preempt c.id) s u c e)

/-- What a RESUME carries comes before every later access of context `n`, as far as it is on its way (R247, R342): its groups have
acquired it, its commands and launches come after it, and those that it accepts later will. -/
def Carries (u : State) (n : Nat) (carry : List Nat) : Prop :=
  ∀ id ∈ carry, (∃ w ∈ u.inflight, w.id = id) →
    (∀ g ∈ u.groups, (∃ t ∈ u.teams, t.id = g.team ∧ t.ctx = n) → id ∈ g.seen) ∧
    (∀ c ∈ u.cmds, c.ctx = n → id ∈ c.carry) ∧ (∀ l ∈ u.launches, l.ctx = n → id ∈ l.fork) ∧
    ∀ y, u.ctx? n = some y → id ∈ y.before

/-- R337, R338, R341, R342, R347: RESUME waits while a PREEMPT of its target runs. That of a live context only completes; a
stopped one goes on in place once its cores have room, after what the command carries; a LOAD takes the image in the area, and
without one that fits the context it leaves the target as it is. -/
def ContextsAreResumed : Prop :=
  ∀ (s : State) (c : Cmd) (x : Ctx), Switching s c x 0x42 →
    let n := c.targetCtx
    let goes (u : State) : Prop := phaseOf u n = some .live ∧ Completing (.resume c.id) s c 0 fun v =>
      v = u.orderAfter n c.carry ∧ Carries v n c.carry
    x.phase ≠ .ending → (∀ d ∈ s.cmds, ¬ (d.state = .running ∧ d.isSwitch = true ∧ d.opc = 0x41 ∧ d.targetCtx = n)) →
    (x.phase = .live → Completing (.resume c.id) s c 0 (· = s)) ∧
    (x.phase ≠ .live → c.flag8 = false → ∀ u, s.restart n 0 = some u → goes u) ∧
    (x.phase ≠ .live → c.flag8 = true →
      ((∀ m, s.imageIn x = some m → m.fits x.desc = false) → Failing (.resume c.id) s s c 0x12) ∧
      ∀ m u, s.imageIn x = some m → m.fits x.desc = true → (s.adopt n (m.shift s.nextId n)).restart n 3 = some u → goes u)

end Sys2Proof.Claims

/-- R333, R334, R353: contexts are created and destroyed. Fields of a new context that the spec gives no value start at zero
(log 22); a destruction of a context that does not exist is answered 1 (log 25). -/
def Obligations.ContextsComeAndGo : Prop := ContextsAreCreated ∧ ContextsAreDestroyed

/-- R337 to R339, R341, R342, R347: contexts are pre-empted and resumed (log 20: what the image holds beside Table 18.4). -/
def Obligations.ContextsSwitch : Prop := ContextsArePreempted ∧ ContextsAreResumed
/-! ### Responses, invalidation and the debugger (spec/17) -/

namespace Sys2Proof.Claims

/-- The queue entries that a replay keeps: all but those that LDQs have reserved (R322). -/
def staysAtReplay : QEnt → Bool
  | .reserved _ false => false
  | _ => true

/-- R320 to R322, R332: REPLAY sends a group back to its region entry, with the popped queue entries at the heads again and the
reservations of its LDQs gone; END ends its launch FAULT, whose groups retire once what they have issued has landed; CONTINUE lets a debug-stopped group go on. A response that no entry
awaits has no effect; one for a stopped context waits. -/
def ResponsesAct : Prop :=
  ∀ (s : State) (n : Nat) (seq : W32) (c : Ctx), s.ctx? n = some c →
    (c.awaits.find? (fun a => decide (a.seq = seq)) = none →
      exec (.replay n seq) s = .next s ∧ exec (.endLaunch n seq) s = .next s ∧ exec (.continue_ n seq) s = .next s) ∧
    ∀ (a : Await) (g : Group), c.awaits.find? (fun a => decide (a.seq = seq)) = some a → s.group? a.gid = some g →
      let answered (t : State) : Prop :=
        (t.ctx? n).map (·.awaits) = some (c.awaits.filter fun b => decide (b.gid ≠ a.gid))
      (c.phase = .live → g.refill = [] → Leads (.replay n seq) s fun t => answered t ∧ t.mem = s.mem ∧
        ∃ h, t.group? a.gid = some h ∧ h.status = .running ∧ h.wait = .none ∧ h.saved = none ∧ h.inHandler = false ∧
          h.v = g.v ∧ h.s = g.s ∧ h.p = g.p ∧ h.ctl = (g.recorded.setPc (g.recorded.near g.regionPc)).prune ∧
          ∀ (m : BitVec 4) (lane : Nat), h.queue lane m.toNat = { g.queue lane m.toNat with
            retained := []
            entries := (g.queue lane m.toNat).retained.map .landed ++
              (g.queue lane m.toNat).entries.filter staysAtReplay }) ∧
      (c.phase = .live → ∀ u l, s.team? g.team = some u → s.launch? u.lid = some l → l.fate = none →
        Leads (.endLaunch n seq) s fun t =>
          (t.launch? l.id).map (fun l => (l.fate, l.closed)) = some (some 1, true) ∧
          ∀ h ∈ t.groups, ∀ v ∈ s.teams, v.id = h.team → v.lid = l.id → h.status = .ending) ∧
      (c.phase = .live → a.debug = true → Leads (.continue_ n seq) s fun t => answered t ∧
        t.group? a.gid = some { g with status := .running, debugStop := false, wait := .none }) ∧
      (c.phase ≠ .live → ∀ k ins, (k, ins) ∈ [(0, Instr.replay n seq), (1, .endLaunch n seq), (2, .continue_ n seq)] →
        Leads ins s fun t => (t.ctx? n).map (·.responses) = some (c.responses ++ [(seq, k)]))

/-- R328: a write to the invalidate port with aligned addresses starts an invalidation; another is discarded (log 19). An
invalidation completes with no covered page in any TLB and 1 at its completion address: the accesses to covered pages are
performed first, and it waits while one of them cannot be. -/
def InvalidationsComplete : Prop :=
  (∀ (s : State) (n : Nat) (bytes : List Byte),
    let va := recNat bytes 0 8
    let done := recNat bytes 16 8
    let good : Prop := bytes.length = 32 ∧ (s.ctx? n).isSome = true ∧ va % 65536 = 0 ∧ done % 8 = 0 ∧ done < 2 ^ 52
    (good → exec (.tlbinv n bytes) s = .next (State.wake { s with
      nextId := s.nextId + 1, invs := s.invs ++ [⟨s.nextId, n, va, recNat bytes 8 4, done⟩] })) ∧
    (¬ good → exec (.tlbinv n bytes) s = .next s)) ∧
  ∀ (s : State) (v : Inval), s.invs.find? (fun x => decide (x.id = v.id)) = some v →
    let covers (ctx page : Nat) : Prop := ctx = v.ctx ∧ (v.pages = 0 ∨ (v.va / 65536 ≤ page ∧ page < v.va / 65536 + v.pages))
    let s1 := (s.onCovered v).foldl State.perform s
    (s1.onCovered v ≠ [] → exec (.invalidationComplete v.id) s = .fault .notEnabled) ∧
    (s1.onCovered v = [] →
      (∀ w ∈ s1.inflight, w.flat = true → covers w.site.ctx (w.va.toNat / 65536) → s1.canBring w.id = true) →
      Leads (.invalidationComplete v.id) s fun t => (∀ x ∈ t.invs, x.id ≠ v.id) ∧
        (∀ e ∈ t.tlb, e ∈ s.tlb ∧ ¬ covers e.ctx e.page) ∧ (∀ e ∈ s.tlb, ¬ covers e.ctx e.page → e ∈ t.tlb) ∧
        (v.done < gddrTop ∨ hostBase ≤ v.done → s.fencedAt v.done = false →
          ∀ k < 8, Memory.read t.mem (v.done + k) = if k = 0 then 1 else 0))

/-- The reply of a debugger port: STATUS, FULL, VALUE (R329). -/
def Replies (t : State) (n status : Nat) (full : Bool) (x : W32) : Prop :=
  look [] t.pkg.debugReply n = leBytes 4 (status + if full then 256 else 0) ++ leBytes 4 x.toNat ++ leBytes 8 0

/-- R329, R330, R332: on a stopped group, READ answers a V register with its full bit, or the program counter, and changes nothing of
the group; WRITE sets the one register, fills it, or sets the program counter; on a running group both answer NOTSTOPPED;
DEBUGSTOP sets the context's mode. -/
def DebuggersReadAndWrite : Prop :=
  ∀ (s : State) (n : Nat) (bytes : List Byte) (c : Ctx), s.ctx? n = some c → bytes.length = 32 →
    let d := debugOp bytes
    d.bad = false →
    (d.op = 2 → exec (.debugstop n bytes) s =
      .next ((s.onCtx n fun c => { c with debugStop := d.value.getLsbD 0 }).debugSay n 0 true d.value).wake) ∧
    ∀ (g : Group) (t : Team) (l : Launch), s.debugTarget c d = some (g, t, l) →
      (d.op = 0 → c.phase = .live → g.status = .running → Leads (.debugRead n bytes) s fun u => Replies u n 2 false 0 ∧
        u.groups = s.wake.groups) ∧
      (d.op = 1 → c.phase = .live → g.status = .running → Leads (.debugWrite n bytes) s fun u => Replies u n 2 false 0 ∧
        u.groups = s.wake.groups) ∧
      (c.phase ≠ .live ∨ (g.status = .awaiting ∧ ∃ a ∈ c.awaits, a.gid = g.id) →
        (d.op = 0 → d.cls = 0 → d.index < l.vregs → Leads (.debugRead n bytes) s fun u =>
          u.groups = s.wake.groups ∧ u.mem = s.mem ∧
          let x := g.vCell (BitVec.ofNat 7 d.index).toNat d.lane
          Replies u n 0 x.full (if x.full then x.d.val else 0)) ∧
        (d.op = 0 → d.cls = 6 → Leads (.debugRead n bytes) s fun u =>
          u.groups = s.wake.groups ∧ u.mem = s.mem ∧ Replies u n 0 true (g.ctl.pc.setWidth 32)) ∧
        (d.op = 1 → d.cls = 6 → g.wait ≠ .blocked → s.group? g.id = some g → Leads (.debugWrite n bytes) s fun u =>
          u.group? g.id = some { g with ctl := g.ctl.setPc ((d.value &&& 0xFFFFFFFC).setWidth 64) } ∧ Replies u n 0 true d.value) ∧
        (d.op = 1 → d.cls = 0 → d.index < l.vregs → g.wait ≠ .blocked → s.group? g.id = some g →
          let r := (BitVec.ofNat 7 d.index).toNat
          let x := g.vCell r d.lane
          x.full = true → Leads (.debugWrite n bytes) s fun u => Replies u n 0 true d.value ∧
            ∃ h, u.group? g.id = some h ∧ h = { g with v := h.v } ∧
              ∀ (m : BitVec 7) (lane : Nat), lane < 32 → h.vCell m.toNat lane =
                if m.toNat = r ∧ lane = d.lane then { d := { x.d with val := d.value }, full := true }
                else g.vCell m.toNat lane))

end Sys2Proof.Claims

/-- R320 to R322, R328, R332: responses to faults, and invalidations; a malformed write to the invalidate port is discarded
(log 19). -/
def Obligations.ResponsesAndInvalidations : Prop := ResponsesAct ∧ InvalidationsComplete

/-- R329, R330, R332: the debugger port. A program counter that a debugger writes loses bits 1 and 0 (log 19). -/
def Obligations.DebuggerPort : Prop := DebuggersReadAndWrite
/-! ### The host, peers and the Crown (spec/18 R344; spec/20 R356; spec/23) -/

namespace Sys2Proof.Claims

/-- A step that changes the package registers alone (blocked groups may try again). -/
def Registers (ins : Instr) (s : State) (P : Pkg → Prop) : Prop :=
  ∃ p, exec ins s = .next (State.wake { s with pkg := p }) ∧ P p

/-- R390: a write to SUPMASK leaves the bits of live contexts and sets the others; nothing else changes. -/
def SupmaskKeepsLiveContexts : Prop :=
  ∀ (s : State) (x : W64), s.anyPort = true → Registers (.supmask x) s fun p =>
    { p with supmask := 0 } = { s.pkg with supmask := 0 } ∧
    ∀ n < 64, p.supmask.getLsbD n = if (s.ctx? n).isSome then s.pkg.supmask.getLsbD n else x.getLsbD n

/-- R183, R388, R390, R394: MWBASE, ROUTE, SELF and ORPHANCONS take what the host writes, but for reserved bits (R5); STAGE takes it
in RECOVERY alone; a write that meets the launch port in another size or place is refused, so that the port answers 0; a write
where a context page has no field is discarded. -/
def RegistersTakeHostWrites : Prop :=
  ∀ (s : State) (port n : Nat) (bytes : List Byte), s.portUp port = true →
    let x := recNat bytes 0 8
    (n < 64 → bytes.length = 8 →
      Registers (.hostRegisterWrite port (n * 65536 + 0x400) true bytes) s fun p =>
        { p with mwBase := [] } = { s.pkg with mwBase := [] } ∧
        ∀ k, look 0 p.mwBase k = if k = n then BitVec.ofNat 64 (recNat bytes 4 4 * 2 ^ 32) else look 0 s.pkg.mwBase k) ∧
    (n < 16 → bytes.length = 4 → Leads (.hostRegisterWrite port (0x200 + 4 * n) false bytes) s fun t =>
      { t.pkg with route := [] } = { s.pkg with route := [] } ∧
      ∀ k, look 0 t.pkg.route k = if k = n then BitVec.ofNat 32 x &&& 0x8000FFFF else look 0 s.pkg.route k) ∧
    (bytes.length = 4 → Registers (.hostRegisterWrite port 0x240 false bytes) s fun p =>
      p = { s.pkg with self := BitVec.ofNat 32 (x % 16) }) ∧
    (bytes.length = 8 → Leads (.hostRegisterWrite port 0x8008 false bytes) s fun t => t.pkg.orphanCons = x) ∧
    (n + bytes.length ≤ 0x1000000 → s.pkg.crown.state = .recovery →
      Leads (.hostRegisterWrite port (0x1000000 + n) false bytes) s fun t =>
        ∀ k < bytes.length, Memory.read t.mem (n + k) = bytes.getD k 0) ∧
    (s.pkg.crown.state ≠ .recovery →
      exec (.hostRegisterWrite port (0x1000000 + n) false bytes) s = .next s) ∧
    (∀ o < 64, (s.ctx? n).isSome = true → bytes ≠ [] → ¬ (o = 0 ∧ bytes.length = 64) →
      Registers (.hostRegisterWrite port (n * 65536 + o) true bytes) s fun p =>
        { p with portReply := [] } = { s.pkg with portReply := [] } ∧
        ∀ k, look 0 p.portReply k = if k = port * 64 + n then 0 else look 0 s.pkg.portReply k) ∧
    (64 ≤ n % 65536 → n % 65536 ∉ [0x100, 0x200, 0x300, 0x400] → exec (.hostRegisterWrite port n true bytes) s = .next s)

/-- R388, R390: what reads of the apertures return: the reply of the latest launch, creation, destruction and debugger write, the
registers of a context, and the fields of Table 23.2; zero where no register is listed. -/
def RegistersAreRead : Prop :=
  ∀ (s : State) (port n : Nat), port < 2 → n < 64 →
    let ctx (o len : Nat) : List Byte := s.readPage port (n * 65536 + o) len
    let reg (f : Ctx → Nat) : List Byte := leBytes 8 (match s.ctx? n with
      | none => 0
      | some c => f c)
    (ctx 0 64).take 8 = leBytes 8 (look 0 s.pkg.portReply (port * 64 + n)) ∧
    ctx 0x1000 8 = reg (·.acc) ∧ ctx 0x1008 8 = reg (·.fin) ∧ ctx 0x1010 8 = reg (·.produced) ∧
    ctx 0x1018 8 = leBytes 8 (look 0 s.pkg.werr n).toNat ∧ ctx 0x400 8 = leBytes 8 (look 0 s.pkg.mwBase n).toNat ∧
    (∀ o len, o < 65536 → o ∉ [0, 0x300, 0x400, 0x1000, 0x1008, 0x1010, 0x1018] → ctx o len = List.replicate len 0) ∧
    s.readMgmt 0 4 = leBytes 4 s.pkg.createReply ∧ s.readMgmt 0x100 4 = leBytes 4 s.pkg.destroyReply ∧
    s.readMgmt 0x108 8 = leBytes 8 s.pkg.supmask.toNat ∧ s.readMgmt 0x240 4 = leBytes 4 s.pkg.self.toNat ∧
    s.readMgmt 0x300 8 = leBytes 8 (s.pkg.ready.toNat + if s.pkg.event then 2 ^ 63 else 0) ∧
    s.readMgmt 0x310 8 = leBytes 8 s.pkg.linkUp.toNat ∧ s.readMgmt 0x8000 8 = leBytes 8 s.pkg.orphanProd ∧
    (s.readMgmt 0x2000 3012).length = 3012 ∧ (s.readMgmt 0x4000 8192).length = 8192

/-- What the host or a peer reaches at a virtual address of a context: a supervisor access, translated by the host agent
(R344, R389), or a cause; MEMERR on a fenced channel (R355). -/
def reached (s : State) (c : Ctx) (k : Kind) (va n : Nat) : Except (BitVec 8) Nat :=
  match s.translate .host c.desc ⟨true, false, none⟩ k va n with
  | .error e => .error e
  | .ok pa => if s.fencedAt pa then .error 0x31 else .ok pa

/-- Bytes stand in memory from an address on, and the dirty page of a virtual address is recorded (R344). -/
def Written (t : State) (n va pa : Nat) (bytes : List Byte) : Prop :=
  (∀ k < bytes.length, Memory.read t.mem (pa + k) = bytes.getD k 0) ∧
  ∀ c, t.ctx? n = some c → c.desc.dirtyVa ≤ va → (va - c.desc.dirtyVa) / 65536 < c.desc.dirtyPages →
    (va - c.desc.dirtyVa) / 65536 ∈ c.dirty

/-- R389: an access through the memory window of a context, within one page: it reads or writes where MWBASE plus its offset leads;
where it leads nowhere, or the context is not live, nothing is written, a read returns all ones, and WERR holds the failure. -/
def WindowsReachMemory : Prop :=
  ∀ (s : State) (n ofs : Nat) (bytes : List Byte), s.anyPort = true → n < 64 →
    ofs + bytes.length ≤ 2 ^ 32 → bytes ≠ [] →
    let va := ((look 0 s.pkg.mwBase n).toNat + ofs) % 2 ^ 64
    let len := bytes.length
    let ones := List.replicate len (0xFF : Byte)
    let fails (t : State) (e : Nat) : Prop := t.mem = s.mem ∧
      look 0 t.pkg.werr n = BitVec.ofNat 64 (2 ^ 63 + e * 2 ^ 48 + ofs % 2 ^ 32)
    va % 65536 + len ≤ 65536 →
    (s.ctx? n = none →
      (Leads (.memoryWindowWrite n ofs bytes) s fun t => t.mem = s.mem ∧ (look 0 t.pkg.werr n).getLsbD 63 = true) ∧
      Leads (.memoryWindowRead n ofs len) s fun t => t.mem = s.mem ∧ t.reply = ones ∧
        (look 0 t.pkg.werr n).getLsbD 63 = true) ∧
    ∀ c, s.ctx? n = some c →
      (∀ pa, reached s c .write va len = .ok pa →
        Leads (.memoryWindowWrite n ofs bytes) s fun t => Written t n va pa bytes ∧ t.pkg = s.pkg) ∧
      (∀ e, reached s c .write va len = .error e → Leads (.memoryWindowWrite n ofs bytes) s fun t => fails t e.toNat) ∧
      (∀ pa, reached s c .read va len = .ok pa →
        exec (.memoryWindowRead n ofs len) s = .next { s with reply := s.viewBytes none .host pa len }) ∧
      ∀ e, reached s c .read va len = .error e →
        Leads (.memoryWindowRead n ofs len) s fun t => fails t e.toNat ∧ t.reply = ones

/-- R344: an access of a peer device, within one page, reads or writes where its address leads; else it writes nothing and
reads all ones. -/
def PeersReachMemory : Prop :=
  ∀ (s : State) (n : Nat) (va : W64) (bytes : List Byte) (c : Ctx), s.pkg.linkUp ≠ 0 → bytes ≠ [] →
    s.ctx? n = some c → va.toNat % 65536 + bytes.length ≤ 65536 →
    let len := bytes.length
    (∀ pa, reached s c .write va.toNat len = .ok pa →
      Leads (.peerDeviceAccess n va (.write bytes)) s fun t => Written t n va.toNat pa bytes ∧ t.pkg = s.pkg) ∧
    (∀ e, reached s c .write va.toNat len = .error e → exec (.peerDeviceAccess n va (.write bytes)) s = .next s) ∧
    (∀ pa, reached s c .read va.toNat len = .ok pa →
      exec (.peerDeviceAccess n va (.read len)) s = .next { s with reply := s.viewBytes none .host pa len }) ∧
    ∀ e, reached s c .read va.toNat len = .error e →
      exec (.peerDeviceAccess n va (.read len)) s = .next { s with reply := List.replicate len 0xFF }

/-- R399: the bytes under a report's signature, the leaf counter as read; no signature follows once every leaf is used. -/
def reportBody (c : Crown) (nonce : List Byte) : List Byte :=
  nonce ++ (c.log.flatMap AttEntry.bytes) ++ leBytes 8 c.scrubStart ++ leBytes 8 c.scrubDone ++
    leBytes 8 (if c.leaf < 1048576 then c.leaf else 0xFFFFFFFF)

/-- R399: a report holds nonce, log, counters and leaf index, and a signature of 2,820 bytes with the next leaf, which is then used up; vector 129
is raised. A nonce of another size is discarded at the port. -/
def ReportsAreSigned : Prop :=
  ∀ (s : State) (nonce : List Byte),
    let c := s.pkg.crown
    let body := reportBody c nonce
    let made (t : State) : Prop := t.irqs = 129 :: s.irqs ∧ t.mem = s.mem ∧ t.ctxs = s.ctxs ∧
      if c.leaf < 1048576 then ∃ sig : List Byte, sig.length = 2820 ∧ sig = identityKey.sign c.leaf body ∧
        t.pkg.crown = { c with leaf := c.leaf + 1, report := body ++ sig }
      else t.pkg.crown = { c with report := body }
    (s.anyPort = true → nonce.length = 32 → Leads (.attest nonce) s made) ∧
    (s.anyPort = true → nonce.length ≠ 32 → exec (.attest nonce) s = .next s) ∧
    (c.state ≠ .off → nonce.length = 32 → Leads (.i3cAttest nonce) s fun t => made t ∧ t.reply = t.pkg.crown.report)

/-- Table 23.4: STATUS answers PREADY, FENCED and the state; GETRECORD answers the scrub record. -/
def SidebandAnswers : Prop :=
  ∀ s : State, s.pkg.crown.state ≠ .off →
    let code := match s.pkg.crown.state with
      | .scrubbing => 1
      | .recovery => 2
      | _ => 0
    let word := leBytes 8 (s.pkg.ready.toNat + if s.pkg.event then 2 ^ 63 else 0) ++
      leBytes 8 (s.pkg.fencedSock.toNat + s.pkg.fencedLink.toNat * 2 ^ 32) ++ leBytes 8 code
    exec .status s = .next { s with reply := word } ∧
    exec .getrecord s = .next { s with reply := s.pkg.crown.record }

/-- No work of any context is left. -/
def Empty (t : State) : Prop :=
  t.groups = [] ∧ t.teams = [] ∧ t.launches = [] ∧ t.cmds = [] ∧ t.ctxs = [] ∧ t.estates = [] ∧ t.pend = [] ∧
  t.inflight = [] ∧ t.ws = [] ∧ t.tlb = []

/-- GDDR 7 is zero, and host memory is as it was. -/
def Wiped (s t : State) : Prop :=
  (∀ a < hostBase, Memory.read t.mem a = 0) ∧ ∀ a, hostBase ≤ a → Memory.read t.mem a = Memory.read s.mem a

/-- R398: RECOVER and the RECOVER_N pin start a scrub: the counter moves, every context ends, every element is zero, masks,
routes, fences and the orphan log are clear, vector 128 is raised (R391), and the package scrubs, or is in RECOVERY where no Crown
firmware runs; during a scrub they are ignored. -/
def ScrubsStart : Prop :=
  ∀ (s : State) (ins : Instr) (nonce : List Byte),
    (ins, nonce) = (.recoverN, List.replicate 32 0) ∨ (ins = .recover nonce ∧ nonce.length = 32) →
    (s.pkg.crown.state = .scrubbing → exec ins s = .next (if ins = .recoverN then s else { s with reply := [0] })) ∧
    (s.pkg.crown.state = .running ∨ s.pkg.crown.state = .recovery → Leads ins s fun t => Empty t ∧ Wiped s t ∧
      t.pkg.crown.scrubStart = s.pkg.crown.scrubStart + 1 ∧ t.pkg.crown.nonce = nonce ∧
      t.pkg.supmask = 0 ∧ t.pkg.route = [] ∧ t.pkg.self = 0 ∧ t.pkg.mode = none ∧ t.pkg.orphans = [] ∧
      t.pkg.fencedSock = 0 ∧ t.pkg.fencedLink = 0 ∧ t.pkg.fencedChan = 0 ∧ t.pkg.event = false ∧
      128 ∈ t.irqs ∧ t.pkg.crown.state = if crownRuns then .scrubbing else .recovery)

/-- R395, R398, R400: at power-good the Crown boots, or finishes an interrupted scrub; once one has completed, the firmware in
the flash runs no more; loss of power leaves the fuse counters, host
memory and the signed record; an exceeded limit ends every context, sets PREADY[63], raises vector 128 (R391) and resets the package,
at once where no record or entry of a context has to wait for room (R365). -/
def PowerComesAndGoes : Prop :=
  ∀ s : State,
    let c := s.pkg.crown
    let booted (t : State) : Prop :=
      t.pkg.crown.state =
        (if crownRuns ∧ c.scrubDone = 0 ∧ firmwareOk Config.flashImage then .running else .recovery) ∧
      t.pkg.ready.getLsbD 12 = crownRuns
    (c.state = .off → s.pkg.ready = 0 → c.scrubDone = c.scrubStart → Leads .powerGood s fun t => booted t ∧ t.mem = s.mem ∧
      t.pkg.crown.log = [measure 2 Config.crownImage] ++
        if crownRuns ∧ c.scrubDone = 0 then [measure 4 Config.flashImage] else []) ∧
    (c.state = .off → c.scrubDone < c.scrubStart → Leads .powerGood s fun t => Empty t ∧ Wiped s t ∧
      t.pkg.crown.state = if crownRuns then .scrubbing else .recovery) ∧
    (c.state ≠ .off → Leads .powerLoss s fun t => Empty t ∧ Wiped s t ∧ t.pkg.crown = { c with state := .off, log := [] } ∧
      t.pkg.ready = 0) ∧
    (c.state ≠ .off → c.scrubDone = c.scrubStart →
      let ended (t : State) : Prop := Empty t ∧ booted t ∧ t.pkg.event = true ∧ 128 ∈ t.irqs
      (s.launches = [] → s.cmds = [] → (∀ e ∈ s.ctxs, e.2.faultQ = []) → Leads .limitExceeded s ended) ∧
      (s.pkg.doubled = false → Leads .limitExceeded s fun t =>
        ended t ∨ (t.ctxs ≠ [] ∧ (∀ e ∈ t.ctxs, e.2.phase = .ending) ∧ t.pkg.doubled = true ∧ t.pkg.event = true ∧
          (s.pkg.event = false → 128 ∈ t.irqs))))

/-- The part of a function is fenced, and the function is not usable. -/
def FencedOff (p : Part) (q : Pkg) : Prop :=
  match p with
  | .socket k => q.fencedSock.getLsbD k = true ∧ q.ready.getLsbD k = false
  | .link k => q.fencedLink.getLsbD k = true ∧ q.linkUp.getLsbD k = false
  | .channel c => q.fencedChan.getLsbD c = true ∧ q.chReady.getLsbD c = false

/-- R396 to R398: a function that comes up sets its bit and raises vector 128; one that does not come up in time is fenced; LOADFW
measures the image in STAGE, in RECOVERY alone. -/
def FunctionsComeUp : Prop :=
  (∀ (s : State) (f : Func), s.coming f = true →
    (s.pkg.hostReady f = true → s.pkg.crown.state ≠ .scrubbing → Leads (.functionReady f) s fun t =>
      t.pkg.usable f = true ∧ (∀ g, s.pkg.usable g = true → t.pkg.usable g = true) ∧ t.irqs = 128 :: s.irqs ∧
      t.ctxs = s.ctxs ∧ t.mem = s.mem) ∧
    (s.pkg.hostReady f = true → s.pkg.crown.state = .scrubbing → (∀ g, s.coming g = true → g = f) →
      s.pkg.ready.getLsbD 12 = true → Leads (.functionReady f) s fun t =>
        t.pkg.crown.scrubDone = s.pkg.crown.scrubDone + 1 ∧ t.pkg.crown.state = .recovery) ∧
    Leads (.readinessTimeout f) s fun t => FencedOff (funcPart f) t.pkg) ∧
  ∀ (s : State) (len : Nat), s.pkg.crown.state ≠ .off →
    let image := s.homeBytes 0 len
    (s.pkg.crown.state = .recovery → s.pkg.ready.getLsbD 12 = true → len ≤ 0x1000000 →
      exec (.loadfw len) s = .next (State.wake { s with reply := [1], pkg := { s.pkg with crown := { s.pkg.crown with
        log := s.pkg.crown.log ++ [measure 4 image], state := if firmwareOk image then .running else .recovery } } })) ∧
    (s.pkg.crown.state ≠ .recovery → exec (.loadfw len) s = .next { s with reply := [0] })

end Sys2Proof.Claims

/-- R388 to R390, R394: what the host writes to registers, and reads from them. -/
def Obligations.HostRegisters : Prop := SupmaskKeepsLiveContexts ∧ RegistersTakeHostWrites ∧ RegistersAreRead

/-- R344, R389: memory windows and peer devices; the level of a peer's access, and the all ones of one that fails, are log 31. -/
def Obligations.WindowsAndPeers : Prop := WindowsReachMemory ∧ PeersReachMemory

/-- R395 to R400 and Table 23.4: the Crown. Image formats, report layout and reply codes are the model's choice (log 21); so are
the zeros of GDDR 7 after a loss of power (log 5), and that the last FUNCTION_READY ends the scrub (log 32). -/
def Obligations.CrownActs : Prop :=
  ReportsAreSigned ∧ SidebandAnswers ∧ ScrubsStart ∧ PowerComesAndGoes ∧ FunctionsComeUp
/-! ### Failures and links (spec/20 R355, R356, R361 to R363; spec/23 R393, R394) -/

namespace Sys2Proof.Claims

/-- Every context has ended, but one whose records or entries must wait for room, which stands stopped until then (R365); and
every compute die is fenced (R356). -/
def DoublyFaulted (s t : State) : Prop :=
  (∀ e ∈ t.ctxs, e.2.phase = .ending) ∧ (∀ k < 8, t.pkg.fencedSock.getLsbD k = true) ∧
  (s.launches = [] → s.cmds = [] → (∀ e ∈ s.ctxs, e.2.faultQ = []) → t.ctxs = [])

/-- R355, R356, R398: a failed part waits for its fencing; the failure of the Crown, or a second one before the fencing of the first,
is a double fault, and so is then a function that is not ready in time (R397); during a scrub a part is only marked. -/
def FailuresAreMarked : Prop :=
  ∀ (s : State) (p : Part), s.pkg.crown.state ≠ .off → s.partLive p = true → p ∉ s.pkg.failing →
    let scrubs : Prop := s.pkg.crown.state = .scrubbing
    (scrubs ∨ (p ≠ .socket 12 ∧ s.pkg.failing = []) →
      Registers (.partFailure p) s fun q => q = { s.pkg with failing := s.pkg.failing ++ [p] }) ∧
    (¬ scrubs → p = .socket 12 ∨ s.pkg.failing ≠ [] → Leads (.partFailure p) s (DoublyFaulted s)) ∧
    ∀ f, funcPart f = p → s.coming f = true → ¬ scrubs → s.pkg.failing ≠ [] → Leads (.readinessTimeout f) s (DoublyFaulted s)

/-- R355, Table 20.3: fencing takes the part out of use; the launches with a team on a fenced compute die end FAULT, its translations
and side information are gone, and the contexts that rest on a fenced channel are destroyed. The fencing is over once no context
waits any more for room to end in (R365). -/
def FencingTakesPartsOut : Prop :=
  ∀ (s : State) (p : Part), p ∈ s.pkg.failing → s.pkg.crown.state ≠ .scrubbing →
    (s.partLive p = false → s.ctxs = [] → Leads (.fence p) s fun t =>
      t.pkg.failing = s.pkg.failing.filter fun q => decide (q ≠ p)) ∧
    (s.partLive p = true → (∀ w ∈ s.inflight, w.mca = true → w.arrived = []) →
    Leads (.fence p) s fun t => FencedOff p t.pkg ∧ 128 ∈ t.irqs ∧
      ((∀ e ∈ t.ctxs, e.2.phase ≠ .ending) → p ∉ t.pkg.failing) ∧
      (∀ k < 8, p = .socket k → (∀ e ∈ t.tlb, e.die ≠ k) ∧ (∀ e ∈ t.sideInfo, e.die ≠ k) ∧
        ∀ l ∈ s.launches, s.launch? l.id = some l → l.fate = none → (∃ u ∈ s.teams, u.lid = l.id ∧ u.die = k) →
          (t.launch? l.id).map (·.fate) = some (some 1)) ∧
      ∀ c, p = .channel c → ∀ (n : Nat) (x : Ctx), s.ctx? n = some x → s.restsOn x.desc c = true →
        (∀ y, t.ctx? n = some y → y.phase = .ending) ∧
        (s.launches = [] → s.cmds = [] → (∀ e ∈ s.ctxs, e.2.faultQ = [] ∧ e.2.phase ≠ .ending) → t.ctx? n = none))

/-- The ACKLOST of a write of a group (R361). -/
def ackLost (w : InWrite) (ih : Bool) : CauseRec :=
  { code := 0x18, ih := ih, lane := w.lane, space := 0, addr := w.va, pc := w.pc, region := w.region }

/-- R361, R363: where the acknowledgement of a part is lost, the part is fenced, if it is not yet, and the write is over; where the
part is a link and the home is live, the write is performed, and its group holds an ACKLOST for it, or its command will end with one.
Where the part is the Crown, or another one has failed before, that is a double fault (R356). Work of which an entry finds no room
waits for it (R318). -/
def LostAcknowledgementsEnd : Prop :=
  ∀ (s : State) (w : InWrite) (p : Part), s.named → w ∈ s.inflight → w.mca = true → w.flat = true → s.clear w = true →
    s.partLive p = true ∨ (s.partFenced p = true ∧ w.arrived ≠ []) →
    let double : Prop := p = .socket 12 ∨ ∃ q ∈ s.pkg.failing, q ≠ p
    (s.partLive p = true → double → Leads (.acklost w.id p) s (DoublyFaulted s)) ∧
    ((s.partLive p = true → ¬ double) → ∀ t, exec (.acklost w.id p) s = .next t →
      (s.partLive p = true → FencedOff p t.pkg) ∧ ∀ x ∈ t.inflight, x.id ≠ w.id ∨ x.mca = false) ∧
    ∀ k, p = .link k → (s.partLive p = true → ¬ double) → s.companions w = [w] → w.homeLive s = true → s.bears w = false → (w.cells.map (·.1)).Nodup →
      (∀ e ∈ s.ctxs, ∀ r ∈ e.2.rounds, r.admits = []) →
      let performed (t : State) : Prop := ∀ c ∈ w.cells,
        (∀ v ∈ s.inflight, v.id ≠ w.id → v.tile = w.tile → ∀ d ∈ v.cells, d.1 ≠ c.1) → Memory.read t.mem c.1 = c.2
      (∀ gid g, w.cmd = none → w.site.gid = some gid → s.group? gid = some g → g.status = .running →
        Leads (.acklost w.id p) s fun t => (s.partLive p = true → FencedOff p t.pkg) ∧ performed t ∧
          (t.group? gid).map (·.async) = some (g.async ++ [ackLost w g.inHandler])) ∧
      ∀ cid c, w.cmd = some cid → s.cmd? cid = some c →
        LeadsSurely w.site.ctx (c.moving = 0 ∨ c.cbar = 0xFFFF) (.acklost w.id p) s fun t =>
          (s.partLive p = true → FencedOff p t.pkg) ∧ (t.cmd? cid).map (·.fate) = some (some { code := 0x18, space := 0, addr := w.va }) ∧ (c.moving = 0 → performed t)

/-- R393: a port takes each data flit once and in order and acknowledges it, answers a failed check with a negative
acknowledgement, drops what is acknowledged and sends in order what waited for room, and retransmits from the oldest flit; 16 retransmissions without progress fence the
link, or mark it during a scrub (R398). -/
def LinksDeliverInOrder : Prop :=
  ∀ (s : State) (port : Nat) (seq : BitVec 12), port < 16 → s.pkg.linkUp.getLsbD port = true →
    let l := s.link port
    let turns (ins : Instr) (m : Link) : Prop := exec ins s = .next (s.setLink port m).wake
    let again : Link := { l with retries := l.retries + 1, out := l.unacked.map fun q => .data q.1 true }
    let retries (ins : Instr) : Prop := (l.retries < 16 → turns ins again) ∧
      (l.retries = 16 → s.pkg.crown.state = .scrubbing → Leads ins s fun t => .link port ∈ t.pkg.failing) ∧
      (l.retries = 16 → s.pkg.crown.state ≠ .scrubbing → s.partLive (.link port) = true →
        Leads ins s fun t => FencedOff (.link port) t.pkg)
    (seq = l.expect → turns (.wilkaiFlit port (.data seq true)) { l with expect := l.expect + 1, out := [.ack seq] }) ∧
    (seq ≠ l.expect → turns (.wilkaiFlit port (.data seq true)) { l with out := [.ack (l.expect - 1)] }) ∧
    turns (.wilkaiFlit port (.data seq false)) { l with out := [.nak l.expect] } ∧
    (∀ older newer peer, l.unacked = older ++ (seq, peer) :: newer → seq ∉ older.map (·.1) →
      ∃ m : Link, turns (.wilkaiFlit port (.ack seq)) m ∧ m.retries = 0 ∧ m.expect = l.expect ∧ newer <+: m.unacked ∧
        m.unacked.map (·.2) ++ m.waiting = newer.map (·.2) ++ l.waiting ∧
        (l.waiting = [] → m = { l with unacked := newer, retries := 0, out := [] })) ∧
    (seq ∉ l.unacked.map (·.1) → turns (.wilkaiFlit port (.ack seq)) { l with out := [] }) ∧
    (l.unacked = [] → turns (.wilkaiFlit port (.nak seq)) { l with out := [] }) ∧
    (l.unacked ≠ [] → retries (.wilkaiFlit port (.nak seq)) ∧ retries (.retransmitTimeout port))

end Sys2Proof.Claims

/-- R355, R356, R361 to R363: failures of parts, fencing and lost acknowledgements. -/
def Obligations.FailuresAndFencing : Prop := FailuresAreMarked ∧ FencingTakesPartsOut ∧ LostAcknowledgementsEnd

/-- R393: the Wilkai links. -/
def Obligations.LinksDeliver : Prop := LinksDeliverInOrder
/-! ### Words, steps, and what every step keeps (spec/01, spec/09, spec/12, spec/17) -/

namespace Sys2Proof.Claims

/-- R26: a machine instruction that no active lane passes the guard of has no effect but the advance: its guard is G[11:8] of its
word, and it takes 8 bytes, or 12 with a prefix (R23). -/
def IdleInstructionsAdvance : Prop :=
  ∀ (ins : Instr) (p : Option Dual) (w : W64) (s : State) (g : Group) (t : Team) (l : Launch) (c : Ctx) (ctl : Ctl),
    encodeWord ins = some (p, w) → s.issuer = some (g, t, l, c) →
    (∀ lane ∈ maskLanes g.ctl.mask, g.pred (w.getLsbD 11) (w.extractLsb' 8 3) lane = false) →
    g.ctl.advance (g.ctl.pc + if p.isSome then 12 else 8) .fall = some ctl →
    exec ins s = .next (s.setGroup (g.goesOn ctl s.tick)).wake

/-- The state in which a turn of the agenda is taken. -/
def turnState (s : State) (rest : List Turn) : State := { s with agenda := rest, tick := s.tick + 1 }

/-- The group can issue and no other of its pipe goes before it, and its next three code units are mapped executable, reachable and resident in its cluster's instruction
cache: `word` gives them, from its program counter on (R23, R190, R192, R325). -/
structure FetchesWords (s : State) (g : Group) (t : Team) (l : Launch) (c : Ctx) (word : Nat → W32) : Prop where
  found : s.issuer = some (g, t, l, c)
  first : s.mayIssue g = true
  quiet : g.async = []
  mapped : ∀ k < 3, ∃ pa,
    let va := ((l.entry + g.ctl.pc.toNat) % 2 ^ 64 + 4 * k) % 2 ^ 64
    c.desc.windowed (.socket t.die) va = false ∧ s.translate (.socket t.die) c.desc ⟨c.priv, false, none⟩ .fetch va 4 = .ok pa ∧
    s.fencedAt pa = false ∧ s.icache.contains (t.cluster, va / 128) = true ∧
    word k = BitVec.ofNat 32 (ofLe (s.viewBytes (some g.id) (.socket t.die) pa 4))

/-- A step runs the instruction that the units at the issuing group's program counter decode to; where they decode to none, it takes
ILLOP (R21, R35). A turn of the part runs its step. Entries that wait for room in a ring are then written where there is room. -/
def StepsRunDecodedInstructions : Prop :=
  (∀ (s : State) (rest : List Turn) (gid : Nat) (err : Bool) (g : Group) (t : Team) (l : Launch) (c : Ctx) (word : Nat → W32),
    s.agenda = .issue gid err :: rest →
    let u : State := { turnState s rest with cur := gid, ecc := err }
    FetchesWords u g t l c word → g.id = gid →
    let units := [word 0, word 1, word 2]
    (∀ i, decode units = .ok i → step s = settle (exec i u)) ∧
    (∀ e, decode units = .error e → g.tvec ≠ 0 → g.inHandler = false → ∃ v, step s = settle (.next v) ∧
      TrapTaken u v g 0x01 (g.illegalMask (if isPrefixUnit (word 0) then units else units.take 2)))) ∧
  (∀ (s : State) (rest : List Turn) (i : Instr), s.agenda = .run i :: rest → encodeWord i = none →
    step s = settle (exec i (turnState s rest))) ∧
  ∀ (s : State) (rest : List Turn) (i : Instr), s.agenda = .runErr i :: rest → encodeWord i = none →
    step s = settle (exec i { turnState s rest with ecc := true })

/-- R190, R191: a group that is picked is ready, and of the ready groups of its pipe none has higher priority, and none of its
priority has waited longer, but where one has waited too long (log 3 says how long that is): then the longest wait goes
first. Where none is picked, none is ready. -/
def ReadyGroupsArePicked : Prop :=
  ∀ s : State, (s.pick = none → ∀ h ∈ s.groups, s.ready h = false) ∧
    ∀ g, s.pick = some g → g ∈ s.groups ∧ s.ready g = true ∧
      ∀ h ∈ s.groups, s.ready h = true → s.pipeOf h = s.pipeOf g →
        (s.overdue h = true → s.overdue g = true ∧ g.lastIssue ≤ h.lastIssue) ∧
        (s.overdue g = false → s.prioOf h ≤ s.prioOf g ∧ (s.prioOf h = s.prioOf g → g.lastIssue ≤ h.lastIssue))

/-- Decoding what the encoder lays out for a well-formed machine instruction gives it back. -/
def DecodeOfEncode : Prop := ∀ i : Instr, i.isMachine = true → i.wf = true → decode (encode i) = .ok i

/-- Units that decode are, as far as the instruction reaches, what the encoder lays out for it, and it is well-formed. -/
def EncodeOfDecode : Prop :=
  ∀ (us : List W32) (i : Instr), decode us = .ok i → i.isMachine = true ∧ i.wf = true ∧ encode i <+: us

end Sys2Proof.Claims

/-- R26: an instruction whose guard no active lane passes only advances. -/
def Obligations.IdleInstructionsOnlyAdvance : Prop := IdleInstructionsAdvance

/-- A step fetches, decodes and runs (R21, R23, R35, R190 to R192). The agenda is the model's choice (log 3), and so are the lanes
of the handler of an illegal word (log 16) and that each fetch walks the tables anew (log 33). -/
def Obligations.StepRunsDecodedInstruction : Prop := StepsRunDecodedInstructions ∧ ReadyGroupsArePicked

/-- The decoder and the encoder agree, in both directions (R23 to R35). -/
def Obligations.DecodeAndEncodeAgree : Prop := DecodeOfEncode ∧ EncodeOfDecode

/-- Words written out from the encoding tables (Tables 1.4 to 1.14) decode to the instructions they stand for. -/
def Obligations.SanityWords : Prop :=
  -- IADDI.U S12, S12, 8
  decode [0x28C8C703, 0x00000008] = .ok (.iaddi ⟨⟨false, 7⟩, true, .s 12, .s 12, false, 0, 8⟩) ∧
  -- LD.128.U S48, [S4]
  decode [0xF84B0760, 0x1040000F] = .ok (.ld none ⟨⟨false, 7⟩, 0, false, true, 0, 0, 4, 0, .zr, .s 4, .s 48⟩) ∧
  -- PLOP.ANDN P1, P2, !P4
  decode [0xC0201724, 0x03000FF0] =
    .ok (.plop ⟨⟨false, 7⟩, false, ⟨false, 1⟩, ⟨false, 2⟩, 0, ⟨true, 4⟩, 0, ⟨.zr, 0, false⟩, 3, 0⟩) ∧
  -- a word with opcode 0x00, and one with a reserved operand code
  (∃ e, decode [0, 0] = .error e) ∧ ∃ e, decode [0x28CD0703, 0x00000008] = .error e

/-- Every step keeps the canonical form of memory (log 5): addresses strictly rising, no byte equal to what an unlisted address
reads as. -/
def Obligations.EveryStepKeepsMemoryCanonical : Prop := ∀ s t : State, s.memOk → step s = .next t → t.memOk

/-- Every step keeps the writes on their way whole: each has a name of its own below the next unused one, one that some observer
has stands in coherence order, and those in coherence order stand before those without a place in it yet (R241, R358; log 6). -/
def Obligations.EveryStepKeepsWritesInOrder : Prop :=
  ∀ s t : State, s.named → s.ordered → step s = .next t → t.named ∧ t.ordered

/-- The package at power-on: no context or work is live, no function is ready and no part fenced, and every register of the package
without a reset value is zero (log 4: the model's choice); MQRATIO is 4 and BRWIN 64 (R298, R364); memory reads zero (log 5: the
model's choice); the invariants hold. -/
def Obligations.ResetState : Prop :=
  let s := State.reset
  let p := s.pkg
  s.Inv ∧ Empty s ∧ s.returns = [] ∧ s.walks = [] ∧ s.invs = [] ∧ s.blocks = [] ∧ s.sideInfo = [] ∧ s.irqs = [] ∧
  (∀ a, Memory.read s.mem a = 0) ∧ (∀ k, (s.coreSt k).mqratio = 4) ∧ (∀ d, (s.dieSt d).brwin = 64) ∧
  (p.ready = 0 ∧ p.chReady = 0 ∧ p.linkUp = 0 ∧ p.event = false) ∧
  (p.fencedSock = 0 ∧ p.fencedChan = 0 ∧ p.fencedLink = 0 ∧ p.failing = []) ∧
  (p.supmask = 0 ∧ p.route = [] ∧ p.self = 0 ∧ p.mode = none ∧ p.mwBase = [] ∧ p.werr = []) ∧
  (p.orphans = [] ∧ p.orphanProd = 0 ∧ p.orphanCons = 0 ∧ p.createReply = 0 ∧ p.destroyReply = 0 ∧ p.portReply = [] ∧
    p.debugReply = [] ∧ p.links = []) ∧
  (p.crown.state = .off ∧ p.crown.scrubStart = 0 ∧ p.crown.scrubDone = 0 ∧ p.crown.leaf = 0 ∧ p.crown.log = [] ∧
    p.crown.nonce = [] ∧ p.crown.record = [] ∧ p.crown.report = [])

/-! ### Rules stated whole -/

/-- R82: IABS, opcode 0x09 with FN 0 and one source, writes the magnitude of its source as a signed word; of FL only SAT may be
set; 0x8000_0000 gives itself, and 0x7FFF_FFFF with SAT. -/
def Obligations.AbsoluteValue : Prop :=
  (∀ w : FmtA,
    (w.fl.getLsbD 1 = false → Word1 (.iabs w) w fun a => BitVec.ofNat 32 a.toInt.natAbs) ∧
    (w.fl.getLsbD 1 = true →
      Word1 (.iabs w) w fun a => if a = 0x80000000 then 0x7FFFFFFF else BitVec.ofNat 32 a.toInt.natAbs) ∧
    ((Instr.iabs w).wf = true → w.fn = 0 ∧ w.fl.getLsbD 0 = false ∧ w.fl.getLsbD 2 = false ∧ w.b.unused = true ∧
      w.c.unused = true)) ∧
  (∀ lo hi : W32, lo.extractLsb' 0 8 = 0x09#8 → ∀ i, decode [lo, hi] = .ok i → ∃ w, i = .iabs w) ∧
  BitVec.ofNat 32 (0x80000000 : W32).toInt.natAbs = (0x80000000 : W32)

/-- R98: LBRK pops the top loop entry and goes on at the next word without a transfer (with the end check of R95 there, against
the loops that remain); with no loop it is LOOPDIV; by the guard rules of R94, it only advances when no active lane executes it,
and is LOOPDIV when some do and some do not. -/
def Obligations.LoopBreak : Prop :=
  ∀ (w : FmtX) (s : State) (i : Iss), s.issueOf 8 w.g false = some i →
    let a8 := i.g.ctl.pc + 8
    let loops := i.g.ctl.loops
    (i.ex = [] → ∀ ctl, i.g.ctl.advance a8 .fall = some ctl → Goes (.lbrk w) s i ctl) ∧
    (i.ex ≠ [] → Mixed i → Traps (.lbrk w) s i 0x04) ∧
    (i.ex ≠ [] → ¬ Mixed i → loops = [] → Traps (.lbrk w) s i 0x04) ∧
    (i.ex ≠ [] → ¬ Mixed i → ∀ e es, loops = e :: es →
      (∀ top, i.g.ctl.div = [top] → top.rcv = none → (∀ f fs, es = f :: fs → f.fin ≠ a8) →
        Goes (.lbrk w) s i ⟨[{ top with pc := a8 }], es⟩) ∧
      ∀ ctl, Ctl.advance { i.g.ctl with loops := es } a8 .fall = some ctl → Goes (.lbrk w) s i ctl)

/-! ### Statements of several claims -/

/-- (1) R81, R82, R75, R80: the exact result of Table 4.3 from the extended sources, saturated or cut to 32 bits, with zero
tangents; saturation of a high word is no instruction. (2) R83, R84: logic, and shifts by the whole word; a literal amount
above 31 is no instruction. -/
def Obligations.IntegerInstructions : Prop :=
  Claims.IntegerArithmetic ∧ Claims.LogicAndShifts

/-- (1) R85: bit `k` of each result from the bits of the sources, for the field at `pos` = b[4:0] of `len` = b[13:8] bits, a
length above 32 taken as 32 and the field stopping at bit 31. (2) R86, R87, R80, R75: compares write the predicate that D
selects; SEL, MOV and MOVI deliver their operand, SEL and MOV with the first tangents of it that the effective count names.
SEL of a word that is an FP32 NaN delivers the canonical NaN as each of these tangents: that is the model's choice (log 35,
DESIGN CHOICE), since SEL has no element format by which R77 would know a NaN. -/
def Obligations.BitFieldsComparesAndMoves : Prop :=
  Claims.BitFieldsAndCounts ∧ Claims.ComparesAndMoves

/-- (1) R88: the 64-bit sums of IADD64 and LEA over register pairs, low word first; ZR as a pair reads 0. (2) R89: PLOP combines
two predicates, PRD gathers them in a byte whose bit 7 is 1, PWR writes those that b selects. -/
def Obligations.AddressesAndPredicates : Prop :=
  Claims.PairAddresses ∧ Claims.PredicateLogic

/-- (1) R111, R119: FADD, FSUB, FMUL, FFMA, FDIV on FP32 words, HADD2, HMUL2, HFMA2 on two 16-bit elements, FADDI and FMULI with
a literal under RNE. (2) R113, R114, R115, R120: selection, comparison and sign. FSGN changes bit 31 of the primal and of
each tangent, and raises no flag. -/
def Obligations.FloatingPoint : Prop :=
  Claims.FloatingArithmetic ∧ Claims.FloatingSelection

/-- (1) R116, R117, R76: the unary functions, with the derivatives of Table 3.9 (log 35: the corners of a derivative that the
manual leaves open), and what each writes and raises for the special sources of Table 5.5, for a NaN and for a negative
value. (2) R121, R122, R123: integer dot products are exact sums, cut or saturated once; DPF8, DPF4 and BSCALE are block
sums. -/
def Obligations.FunctionsAndDotProducts : Prop :=
  Claims.UnaryFunctions ∧ Claims.DotProducts

/-- (1) R134: TGET reads tangent FN, after the modifier; TSET replaces tangent FN and keeps the primal and the others. (2) R14,
R129: CRND issues a producer whose data is fixed at issue: the hash of its two words. -/
def Obligations.TangentsAndRandomBits : Prop :=
  Claims.TangentAccess ∧ Claims.RandomBitsIssue

/-- (1) R95 over the loops of a group without a reconvergence address at the next word: while the next word is the top body's
end, its count falls by one; a count left starts the body again, none left pops the entry, and the new top is checked at the
same address. (2) R96: a uniform taken branch leaves the loops from the innermost one whose body holds the target on, none
where no body does; the loops left are a suffix of those there were, and every loop that is gone lies above and does not hold
it. (3) R161, R97: a path that arrives at its reconvergence address ends and the entry below runs; one that arrives with a
deeper loop stack than the group had at the branch is LOOPDIV. -/
def Obligations.EndChecks : Prop :=
  Claims.EndCheck ∧ Claims.Unwinding ∧ Claims.Reconvergence

/-- (1) R313: SWTRAP and BKPT, and every other trap that an instruction raises outside a handler with TVEC set: the handler
starts at TVEC, with CAUSE, CAUSEPC and the control state saved. TRAP and BKPT end so from every state in which a lane's
guard is true (BKPT unless a debugger stops the context). (2) R22, R316: with TVEC = 0, or in a handler, a trap of a group
without pending producers, whose context has a fault ring that the device can use, is a fault: the group awaits a response
with its control state unchanged, CAUSE shows the cause with bit 8 set, and CAUSEPC the instruction. (3) R101, R314: TRET
restores the saved control state and goes on after the trapping instruction where CAUSE is SWTRAP or BKPT, at CAUSEPC
otherwise; outside a handler it is ILLOP. -/
def Obligations.TrapsFaultsAndReturns : Prop :=
  Claims.TrapEntry ∧ Claims.TrapsWithoutHandlerFault ∧ Claims.TrapReturn

/-- (1) R91, R92, Table 4.8: a branch that every active lane takes goes to its target; one that some lanes take is ILLOP without
a reconvergence address, and else splits the group: the fall-through lanes run first, from `a` + 8, the taken lanes wait with
the target, both rejoin at `a` + 4 RC. BRX reads its target in the taken lanes, which must agree. (2) R93: CALL writes the
code offset of the next word to D and goes to its target, RET goes to the offset in D; neither touches the loop stack, and a
guard that divides the active lanes is ILLOP. -/
def Obligations.ControlTransfers : Prop :=
  Claims.Branches ∧ Claims.CallsAndReturns

/-- (1) R141, R142, R149, R326, R358: a plain ST of allowed accesses completes. The D bits of the leaves are set first, which
gives the state `s0`. Then the group finds, at every byte of memory, the byte of a lane whose access covers it, where a
lane's does, and otherwise what it found in `s0`; every other reader, on its die or elsewhere, finds what it found in `s0`
until the write arrives (log 6); source queues are popped, and the rest of the group, the weight stores and every context are
as in `s0`. (2) R142, R230, R232 to R236: after STT without release its group finds each lane's bytes in the tile region of
the team at the core offset, and STL writes them into the lane's own stretch; every other byte of either, all of memory, and
every other part of the state is as before, and other readers find the STT's bytes once the store has been performed (log 6).
The lanes' places are told apart here; R141 leaves open which lane's bytes remain where they meet. (3) R139, R226, R232,
R233: the same of stores, WSWRITE for one in the weight store window, PGWR where no page lets it write. -/
def Obligations.StoresOfEverySpace : Prop :=
  Claims.StoreCompletes ∧ Claims.ChipStoresComplete ∧ Claims.StoreChecksFail

/-- (1) R143, R144, R12: an ATOM with a destination, or a CAS, without release or MCA, whose accesses are allowed, issues: D bits
are set, operands (and for CAS the comparands in D) are read, D is empty until the old value lands, and a region opens after
it. (2) R143: an ATOM without a destination, of one lane, of a group without release fences, at bytes that no write on its
way touches, is performed at once: the coherence-latest value there becomes the function of the old value and the operand,
and every other byte's latest value is as before. (3) R139, R143, R144, R226: an ATOM that makes an access, or a CAS, of
which an access fails its check performs none; in the weight store window it is WSWRITE. -/
def Obligations.AtomicOperations : Prop :=
  Claims.AtomicsIssue ∧ Claims.AtomicAtOnce ∧ Claims.AtomicChecksFail

/-- (1) R173, R174, R175: lanes that exit enter their statuses in the launch's reductions and leave every mask of the group,
which goes on with the lanes left; the last lanes end it. (2) R202, R203, R206, R207: EXIT.E of one lane whose core store has
room leaves an estate at its core under the launch's chain and the identity of the pair in C, with the registers from B and
the release side of the group at device scope, which carries the group's earlier accesses (R208), and retires the lane as
EXIT does; without a chain it is PROT. -/
def Obligations.LanesExit : Prop :=
  Claims.ExitRemovesLanes ∧ Claims.ExitLeavesEstate

/-- (1) R102, R103, R33: REGION opens a region at the next instruction, recording the control state and dropping retained queue
entries, but nothing inside a handler; YIELD and NOP only advance. (2) R104: the waiting form completes without effect once
every named operand is full in every executing lane, and waits until then; the other form writes whether they are. -/
def Obligations.RegionsHintsAndWaits : Prop :=
  Claims.RegionsAndHints ∧ Claims.WaitOnFull

/-- (1) R105, R20, Table 1.3: MFS of a register that is not remote writes its value in each executing lane, with zero tangents;
of a remote one it starts a producer. (2) R106, R107, R20, R21: MTS writes the bits that the register defines, from the
executing lane (FPST and FPTE from each), and nothing else; MQRATIO and BRWIN are written in the core and the die; BRWIN is
PRIV at user level, and a value out of range is ILLOP. -/
def Obligations.SpecialRegisters : Prop :=
  Claims.SpecialReads ∧ Claims.SpecialWrites

/-- (1) R137, R140, R149, R150, R327: LD and LDQ of 1 to 16 bytes whose accesses are allowed issue: each executing lane has an
access at its address and, with TM, one for each tangent at the addresses spread by TANSTRIDE; registers from D are empty, a
queue holds a reserved entry, until the value lands. (2) R226, R232 to R235: LDT, LDL and LDW issue where the offset is
aligned and the access lies below the limit of its space: the tile bytes of the team at the core offset, the lane's stretch,
the context's part of the die's weight store. (3) R139, R226, R232, R233: a load of which an access fails its check performs
none: ALIGN where it is misaligned, PGRD where no page translates it, PROT above the limit of the weight store window, of
tile memory, where also a core without a team of the cluster has no byte in bounds, or of lane-local memory. -/
def Obligations.LoadsOfEverySpace : Prop :=
  Claims.LoadsIssue ∧ Claims.ChipLoadsIssue ∧ Claims.LoadChecksFail

/-- (1) R145, R152, R12: a null atomic without order opens a region and accesses nothing; PFD only waits for its base, and PFI
puts none, some or all of the lines of code that its lanes name in the cluster's instruction cache (log 13: which ones is
free). (2) R151: QCFG empties a queue of each executing lane and sets its depth, once its entries have landed; depths beyond
the queue entries that the launch declares are PROT. -/
def Obligations.NullAtomicsPrefetchesAndQueues : Prop :=
  Claims.NullAtomicsAndPrefetches ∧ Claims.QueueConfiguration

/-- (1) R211, R212, R213, R14: CLAIM consumes the live estates of its lanes' keys at issue, empties its status destination and
the registers from B, and its results land later; without a chain it is PROT. (2) R202, R212, R213: what the claims of the
lanes consume. Each lane takes, in order, a live estate of its key where one is left; its status is 0, 2 or 3 as the estate
has as many registers as asked for, fewer or more, and 1 without an estate. What is taken and what is left are together what
there was: no estate is taken twice, and no other estate changes. (3) R208, R212, R213: a CLAIM lands once what the makes of
its estates carry can be performed, as it can where all of it has been; it lands in each of its lanes: the estate's
registers, zeros beyond them, the tangents that both sides have, and the status; an S register gets the statuses that
occurred. Where data has an error, the estates of some lanes that received one (which ones is free, log 23) are discarded and
not counted as claimed, and the group faults. -/
def Obligations.EstatesAreClaimed : Prop :=
  Claims.ClaimIssues ∧ Claims.ClaimsConsumeOnce ∧ Claims.ClaimsLand

/-- (1) R195, R12: BARI gives a barrier its count and pending bytes with nothing arrived, BARX changes its pending bytes; a
pending count outside 56 bits is BAROVF. Phases complete as R195 says, and regions open. (2) R195, R196: BARA adds one
arrival for each executing lane, under the release side of its group at team scope, or at cluster scope for another core's
barrier; more than 65,535 arrivals are BAROVF. -/
def Obligations.BarriersCount : Prop :=
  Claims.BarrierInitAndExpect ∧ Claims.BarrierArrival

/-- (1) R260, R278: WPW passes, with an acquire of what the deliveries carry, once the team's write pointer of the queue has
reached the target in its register pair; with a flag it writes whether it has, and does not wait for the pointer. (2) R262,
R263: GUARD gives its verdict, bit 0 of its register, to the team's commands of the queue with the slot and no verdict yet,
and with the scheduler's queue to launches, and to no others; with a verdict of 1 each of them gets the release side of the
group at its own scope as a fork. -/
def Obligations.PointersAndGuards : Prop :=
  Claims.WritePointerWait ∧ Claims.GuardVerdicts

/-- (1) R200: TGRAB completes. A READY node of its graph, the lowest, becomes RUNNING and gives a piece of its whole interval;
else, as log 24 reads R200, the returned piece with most iterations left is taken; else the largest piece of at least two
grains, of the group's own die if one is there, gives up its upper half. The chunk goes into the four registers from D. Where
the graph has none of these, the last two of them become 0xFFFFFFFF and 0. (2) R199, R200: TDONE completes, where the group
holds a piece under the handle and no acquire of it is outstanding. Its context keeps the release side of the group, which
log 24 reads to be at system scope, for the record of the graph. It retires the iterations [Sd, Sd+1) of the piece's node:
these and no others leave those not yet retired, and a RUNNING node with none left is DONE. The piece gives its next chunk,
or without one is freed. Where the node becomes DONE the graph moves on, and the group waits while what its TDONEs carry
cannot be performed yet, or if it must post entries without room. A handle that the group does not hold is PROT. -/
def Obligations.PiecesAreGrabbedAndReturned : Prop :=
  Claims.TaskGrab ∧ Claims.TaskDone

/-- (1) R281, R282, R284, R285: TCFG takes the core's tiles for the team and gives each the shape of its registers, a tile of
another shape before becoming zero; TREL makes a tile absent; MZERO zeroes a tile and those of its tangents. Each waits while
another team owns the tiles; a shape outside the limits, an absent tile or unlike tangent tiles are TSHAPE. (2) R306: MFLG
reads the team's matrix flags and clears them, once no operation of the group is accepted and uncompleted; where no team owns
the tiles it reads 0. -/
def Obligations.TilesAndMatrixFlags : Prop :=
  Claims.TileInstructions ∧ Claims.MatrixFlags

/-- (1) R282, R290, R302, R308: the operation at the head of its queue begins once no earlier claim lies on its tiles and what
its MLOOP carries is performed; one of no K-steps is done at once: its active elements are zero without ACC, and the others
with Z. (2) R282, R296, R299, R302, R306: an operation whose last K-step is done leaves its queue, its claims end, its flags
join the matrix flags of the team, and it arrives on its barrier, under a release at team scope; one arrival too many breaks
the barrier, once its entry finds room (R195). -/
def Obligations.MatrixOperationsRun : Prop :=
  Claims.MatrixOperationBegins ∧ Claims.MatrixOperationCompletes

/-- (1) R14, R105, R129, R140, R150, R153: a load or LDQ lands the bytes of its accesses, CRND its bits, MFS of a remote register
the value that the register has now. A load is performed at its landing at the latest (log 7), once its group can read its
places, as it can where no MCA write and no read that a release waits for is outstanding; the writes that its group must find
there then arrive first (R142, R252), and where there are none, all is read as it stands. A load whose data has an
uncorrectable error lands nothing and faults its group, with one of its accesses (which one is free, log 23). (2) R143, R144,
R153: the result of a pending ATOM or CAS (function 12) of one lane, without release or fence, lands the old value at its
address, where no write on its way meets it. An ATOM writes its function of the old value and the operand; a CAS writes the
operand where the old value equals the comparand, and nothing otherwise; no other byte's latest value changes. An
uncorrectable error, or a place on a fenced channel, lands nothing, writes nothing and faults the group. -/
def Obligations.LandingsOfProducersAndAtomics : Prop :=
  Claims.ProducersLand ∧ Claims.AtomicsLand
end

