-- ==== Sys2Proof/Laws/Dispatch.lean ====
section
/-! SUPPORT. One law for each constructor: the meaning that the dispatch calls. -/

namespace Sys2Proof.Machine

variable (s : State)

@[simp] theorem exec_nop (w : FmtNop) : exec (.nop w) s = execNop w s := rfl
@[simp] theorem exec_iadd (w : FmtA) : exec (.iadd w) s = execIadd w s := rfl
@[simp] theorem exec_isub (w : FmtA) : exec (.isub w) s = execIsub w s := rfl
@[simp] theorem exec_iaddi (w : FmtB) : exec (.iaddi w) s = execIaddi w s := rfl
@[simp] theorem exec_imul (w : FmtA) : exec (.imul w) s = execImul w s := rfl
@[simp] theorem exec_imad (w : FmtA) : exec (.imad w) s = execImad w s := rfl
@[simp] theorem exec_imin (w : FmtA) : exec (.imin w) s = execImin w s := rfl
@[simp] theorem exec_imax (w : FmtA) : exec (.imax w) s = execImax w s := rfl
@[simp] theorem exec_iabs (w : FmtA) : exec (.iabs w) s = execIabs w s := rfl
@[simp] theorem exec_andL (w : FmtA) : exec (.andL w) s = execAnd w s := rfl
@[simp] theorem exec_orL (w : FmtA) : exec (.orL w) s = execOr w s := rfl
@[simp] theorem exec_xorL (w : FmtA) : exec (.xorL w) s = execXor w s := rfl
@[simp] theorem exec_andn (w : FmtA) : exec (.andn w) s = execAndn w s := rfl
@[simp] theorem exec_andi (w : FmtB) : exec (.andi w) s = execAndi w s := rfl
@[simp] theorem exec_ori (w : FmtB) : exec (.ori w) s = execOri w s := rfl
@[simp] theorem exec_xori (w : FmtB) : exec (.xori w) s = execXori w s := rfl
@[simp] theorem exec_shl (w : FmtA) : exec (.shl w) s = execShl w s := rfl
@[simp] theorem exec_shr (w : FmtA) : exec (.shr w) s = execShr w s := rfl
@[simp] theorem exec_sar (w : FmtA) : exec (.sar w) s = execSar w s := rfl
@[simp] theorem exec_rotl (w : FmtA) : exec (.rotl w) s = execRotl w s := rfl
@[simp] theorem exec_shli (w : FmtB) : exec (.shli w) s = execShli w s := rfl
@[simp] theorem exec_shri (w : FmtB) : exec (.shri w) s = execShri w s := rfl
@[simp] theorem exec_sari (w : FmtB) : exec (.sari w) s = execSari w s := rfl
@[simp] theorem exec_bfe (w : FmtA) : exec (.bfe w) s = execBfe w s := rfl
@[simp] theorem exec_bfi (w : FmtA) : exec (.bfi w) s = execBfi w s := rfl
@[simp] theorem exec_popc (w : FmtA) : exec (.popc w) s = execPopc w s := rfl
@[simp] theorem exec_clz (w : FmtA) : exec (.clz w) s = execClz w s := rfl
@[simp] theorem exec_brev (w : FmtA) : exec (.brev w) s = execBrev w s := rfl
@[simp] theorem exec_icmp (w : FmtAP) : exec (.icmp w) s = execIcmp w s := rfl
@[simp] theorem exec_icmpi (w : FmtBP) : exec (.icmpi w) s = execIcmpi w s := rfl
@[simp] theorem exec_sel (p : Option Dual) (w : FmtSel) : exec (.sel p w) s = execSel p w s := rfl
@[simp] theorem exec_mov (p : Option Dual) (w : FmtA) : exec (.mov p w) s = execMov p w s := rfl
@[simp] theorem exec_movi (w : FmtB) : exec (.movi w) s = execMovi w s := rfl
@[simp] theorem exec_iadd64 (w : FmtA) : exec (.iadd64 w) s = execIadd64 w s := rfl
@[simp] theorem exec_lea (w : FmtA) : exec (.lea w) s = execLea w s := rfl
@[simp] theorem exec_plop (w : FmtPlop) : exec (.plop w) s = execPlop w s := rfl
@[simp] theorem exec_prd (w : FmtA) : exec (.prd w) s = execPrd w s := rfl
@[simp] theorem exec_pwr (w : FmtA) : exec (.pwr w) s = execPwr w s := rfl
@[simp] theorem exec_fadd (p : Option Dual) (w : FmtA) : exec (.fadd p w) s = execFadd p w s := rfl
@[simp] theorem exec_fsub (p : Option Dual) (w : FmtA) : exec (.fsub p w) s = execFsub p w s := rfl
@[simp] theorem exec_fmul (p : Option Dual) (w : FmtA) : exec (.fmul p w) s = execFmul p w s := rfl
@[simp] theorem exec_ffma (p : Option Dual) (w : FmtA) : exec (.ffma p w) s = execFfma p w s := rfl
@[simp] theorem exec_fmin (p : Option Dual) (w : FmtA) : exec (.fmin p w) s = execFmin p w s := rfl
@[simp] theorem exec_fmax (p : Option Dual) (w : FmtA) : exec (.fmax p w) s = execFmax p w s := rfl
@[simp] theorem exec_fcmp (w : FmtAP) : exec (.fcmp w) s = execFcmp w s := rfl
@[simp] theorem exec_fsgn (p : Option Dual) (w : FmtA) : exec (.fsgn p w) s = execFsgn p w s := rfl
@[simp] theorem exec_frcp (p : Option Dual) (w : FmtA) : exec (.frcp p w) s = execFrcp p w s := rfl
@[simp] theorem exec_frsq (p : Option Dual) (w : FmtA) : exec (.frsq p w) s = execFrsq p w s := rfl
@[simp] theorem exec_fsqrt (p : Option Dual) (w : FmtA) : exec (.fsqrt p w) s = execFsqrt p w s := rfl
@[simp] theorem exec_fex2 (p : Option Dual) (w : FmtA) : exec (.fex2 p w) s = execFex2 p w s := rfl
@[simp] theorem exec_flg2 (p : Option Dual) (w : FmtA) : exec (.flg2 p w) s = execFlg2 p w s := rfl
@[simp] theorem exec_fsin (p : Option Dual) (w : FmtA) : exec (.fsin p w) s = execFsin p w s := rfl
@[simp] theorem exec_fcos (p : Option Dual) (w : FmtA) : exec (.fcos p w) s = execFcos p w s := rfl
@[simp] theorem exec_ftanh (p : Option Dual) (w : FmtA) : exec (.ftanh p w) s = execFtanh p w s := rfl
@[simp] theorem exec_fdiv (p : Option Dual) (w : FmtA) : exec (.fdiv p w) s = execFdiv p w s := rfl
@[simp] theorem exec_fmuli (p : Option Dual) (w : FmtB) : exec (.fmuli p w) s = execFmuli p w s := rfl
@[simp] theorem exec_faddi (p : Option Dual) (w : FmtB) : exec (.faddi p w) s = execFaddi p w s := rfl
@[simp] theorem exec_hadd2 (p : Option Dual) (w : FmtA) : exec (.hadd2 p w) s = execHadd2 p w s := rfl
@[simp] theorem exec_hmul2 (p : Option Dual) (w : FmtA) : exec (.hmul2 p w) s = execHmul2 p w s := rfl
@[simp] theorem exec_hfma2 (p : Option Dual) (w : FmtA) : exec (.hfma2 p w) s = execHfma2 p w s := rfl
@[simp] theorem exec_hext2 (p : Option Dual) (w : FmtA) : exec (.hext2 p w) s = execHext2 p w s := rfl
@[simp] theorem exec_dp4 (w : FmtA) : exec (.dp4 w) s = execDp4 w s := rfl
@[simp] theorem exec_dp8 (w : FmtA) : exec (.dp8 w) s = execDp8 w s := rfl
@[simp] theorem exec_dpf8 (p : Option Dual) (w : FmtA) : exec (.dpf8 p w) s = execDpf8 p w s := rfl
@[simp] theorem exec_dpf4 (p : Option Dual) (w : FmtA) : exec (.dpf4 p w) s = execDpf4 p w s := rfl
@[simp] theorem exec_bscale (p : Option Dual) (w : FmtA) : exec (.bscale p w) s = execBscale p w s := rfl
@[simp] theorem exec_fcvt (p : Option Dual) (w : FmtA) : exec (.fcvt p w) s = execFcvt p w s := rfl
@[simp] theorem exec_i2f (w : FmtA) : exec (.i2f w) s = execI2f w s := rfl
@[simp] theorem exec_f2i (w : FmtA) : exec (.f2i w) s = execF2i w s := rfl
@[simp] theorem exec_pack2 (p : Option Dual) (w : FmtA) : exec (.pack2 p w) s = execPack2 p w s := rfl
@[simp] theorem exec_crnd (w : FmtA) : exec (.crnd w) s = execCrnd w s := rfl
@[simp] theorem exec_tget (w : FmtA) : exec (.tget w) s = execTget w s := rfl
@[simp] theorem exec_tset (w : FmtA) : exec (.tset w) s = execTset w s := rfl
@[simp] theorem exec_ld (p : Option Dual) (w : FmtM) : exec (.ld p w) s = execLd p w s := rfl
@[simp] theorem exec_st (p : Option Dual) (w : FmtM) : exec (.st p w) s = execSt p w s := rfl
@[simp] theorem exec_atom (p : Option Dual) (w : FmtMA) : exec (.atom p w) s = execAtom p w s := rfl
@[simp] theorem exec_cas (w : FmtMA) : exec (.cas w) s = execCas w s := rfl
@[simp] theorem exec_ldq (p : Option Dual) (w : FmtM) : exec (.ldq p w) s = execLdq p w s := rfl
@[simp] theorem exec_pfd (w : FmtM) : exec (.pfd w) s = execPfd w s := rfl
@[simp] theorem exec_pfi (w : FmtM) : exec (.pfi w) s = execPfi w s := rfl
@[simp] theorem exec_qcfg (w : FmtB) : exec (.qcfg w) s = execQcfg w s := rfl
@[simp] theorem exec_ldt (p : Option Dual) (w : FmtM) : exec (.ldt p w) s = execLdt p w s := rfl
@[simp] theorem exec_stt (p : Option Dual) (w : FmtM) : exec (.stt p w) s = execStt p w s := rfl
@[simp] theorem exec_ldl (p : Option Dual) (w : FmtM) : exec (.ldl p w) s = execLdl p w s := rfl
@[simp] theorem exec_stl (p : Option Dual) (w : FmtM) : exec (.stl p w) s = execStl p w s := rfl
@[simp] theorem exec_ldw (p : Option Dual) (w : FmtM) : exec (.ldw p w) s = execLdw p w s := rfl
@[simp] theorem exec_lxch (p : Option Dual) (w : FmtA) : exec (.lxch p w) s = execLxch p w s := rfl
@[simp] theorem exec_ppoll (w : FmtPoll) : exec (.ppoll w) s = execPpoll w s := rfl
@[simp] theorem exec_lred (w : FmtA) : exec (.lred w) s = execLred w s := rfl
@[simp] theorem exec_leqv (w : FmtA) : exec (.leqv w) s = execLeqv w s := rfl
@[simp] theorem exec_lpick (p : Option Dual) (w : FmtA) : exec (.lpick p w) s = execLpick p w s := rfl
@[simp] theorem exec_bra (w : FmtX) : exec (.bra w) s = execBra w s := rfl
@[simp] theorem exec_brx (w : FmtX) : exec (.brx w) s = execBrx w s := rfl
@[simp] theorem exec_call (w : FmtX) : exec (.call w) s = execCall w s := rfl
@[simp] theorem exec_ret (w : FmtX) : exec (.ret w) s = execRet w s := rfl
@[simp] theorem exec_loop (w : FmtX) : exec (.loop w) s = execLoop w s := rfl
@[simp] theorem exec_lbrk (w : FmtX) : exec (.lbrk w) s = execLbrk w s := rfl
@[simp] theorem exec_exit (w : FmtA) : exec (.exit w) s = execExit w s := rfl
@[simp] theorem exec_exitE (w : FmtA) : exec (.exitE w) s = execExitE w s := rfl
@[simp] theorem exec_claim (w : FmtA) : exec (.claim w) s = execClaim w s := rfl
@[simp] theorem exec_trap (w : FmtB) : exec (.trap w) s = execTrap w s := rfl
@[simp] theorem exec_bkpt (w : FmtB) : exec (.bkpt w) s = execBkpt w s := rfl
@[simp] theorem exec_tret (w : FmtX) : exec (.tret w) s = execTret w s := rfl
@[simp] theorem exec_region (w : FmtX) : exec (.region w) s = execRegion w s := rfl
@[simp] theorem exec_yield (w : FmtX) : exec (.yield w) s = execYield w s := rfl
@[simp] theorem exec_waitf (w : FmtWait) : exec (.waitf w) s = execWaitf w s := rfl
@[simp] theorem exec_mfs (w : FmtB) : exec (.mfs w) s = execMfs w s := rfl
@[simp] theorem exec_mts (w : FmtB) : exec (.mts w) s = execMts w s := rfl
@[simp] theorem exec_bari (w : FmtB) : exec (.bari w) s = execBari w s := rfl
@[simp] theorem exec_bara (w : FmtB) : exec (.bara w) s = execBara w s := rfl
@[simp] theorem exec_barw (w : FmtB) : exec (.barw w) s = execBarw w s := rfl
@[simp] theorem exec_bart (w : FmtBP) : exec (.bart w) s = execBart w s := rfl
@[simp] theorem exec_barx (w : FmtB) : exec (.barx w) s = execBarx w s := rfl
@[simp] theorem exec_fbar (w : FmtB) : exec (.fbar w) s = execFbar w s := rfl
@[simp] theorem exec_push (w : FmtP) : exec (.push w) s = execPush w s := rfl
@[simp] theorem exec_wpw (w : FmtP) : exec (.wpw w) s = execWpw w s := rfl
@[simp] theorem exec_guard (w : FmtP) : exec (.guard w) s = execGuard w s := rfl
@[simp] theorem exec_tgrab (w : FmtB) : exec (.tgrab w) s = execTgrab w s := rfl
@[simp] theorem exec_tdone (w : FmtB) : exec (.tdone w) s = execTdone w s := rfl
@[simp] theorem exec_tcfg (w : FmtT) : exec (.tcfg w) s = execTcfg w s := rfl
@[simp] theorem exec_trel (w : FmtT) : exec (.trel w) s = execTrel w s := rfl
@[simp] theorem exec_mzero (p : Option Dual) (w : FmtT) : exec (.mzero p w) s = execMzero p w s := rfl
@[simp] theorem exec_mloop (p : Option Dual) (w : FmtT) : exec (.mloop p w) s = execMloop p w s := rfl
@[simp] theorem exec_mst (p : Option Dual) (w : FmtT) : exec (.mst p w) s = execMst p w s := rfl
@[simp] theorem exec_mld (p : Option Dual) (w : FmtT) : exec (.mld p w) s = execMld p w s := rfl
@[simp] theorem exec_mflg (w : FmtA) : exec (.mflg w) s = execMflg w s := rfl
@[simp] theorem exec_loadLands (id : Nat) (err : Bool) : exec (.loadLands id err) s = execLoadLands id err s := rfl
@[simp] theorem exec_ldqEntryLands (id : Nat) (err : Bool) : exec (.ldqEntryLands id err) s = execLdqEntryLands id err s := rfl
@[simp] theorem exec_crndLands (id : Nat) : exec (.crndLands id) s = execCrndLands id s := rfl
@[simp] theorem exec_remoteMfsLands (id : Nat) : exec (.remoteMfsLands id) s = execRemoteMfsLands id s := rfl
@[simp] theorem exec_claimLands (id : Nat) (err : Bool) : exec (.claimLands id err) s = execClaimLands id err s := rfl
@[simp] theorem exec_atomResultLands (id : Nat) (err : Bool) : exec (.atomResultLands id err) s = execAtomResultLands id err s := rfl
@[simp] theorem exec_asyncFault (gid : Nat) : exec (.asyncFault gid) s = execAsyncFault gid s := rfl
@[simp] theorem exec_instructionMissFill (gid : Nat) : exec (.instructionMissFill gid) s = execInstructionMissFill gid s := rfl
@[simp] theorem exec_translationWalk (die : Nat) : exec (.translationWalk die) s = execTranslationWalk die s := rfl
@[simp] theorem exec_barrierRelease (gid : Nat) : exec (.barrierRelease gid) s = execBarrierRelease gid s := rfl
@[simp] theorem exec_launchPort (port ctx : Nat) (bytes : List Byte) : exec (.launchPort port ctx bytes) s = execLaunchPort port ctx bytes s := rfl
@[simp] theorem exec_launch (ctx : Nat) (team : Nat) (lane : Nat) (gid : Nat) (bytes : List Byte) : exec (.launch ctx team lane gid bytes) s = execLaunch ctx team lane gid bytes s := rfl
@[simp] theorem exec_dependenceResolve (ctx queue : Nat) : exec (.dependenceResolve ctx queue) s = execDependenceResolve ctx queue s := rfl
@[simp] theorem exec_teamPlacement (lid die row col : Nat) : exec (.teamPlacement lid die row col) s = execTeamPlacement lid die row col s := rfl
@[simp] theorem exec_launchComplete (lid : Nat) : exec (.launchComplete lid) s = execLaunchComplete lid s := rfl
@[simp] theorem exec_task (cid : Nat) : exec (.task cid) s = execTask cid s := rfl
@[simp] theorem exec_copy (cid n : Nat) : exec (.copy cid n) s = execCopy cid n s := rfl
@[simp] theorem exec_copy2d (cid n : Nat) : exec (.copy2d cid n) s = execCopy2d cid n s := rfl
@[simp] theorem exec_reblock (cid n : Nat) : exec (.reblock cid n) s = execReblock cid n s := rfl
@[simp] theorem exec_gather (cid n : Nat) : exec (.gather cid n) s = execGather cid n s := rfl
@[simp] theorem exec_fill (cid n : Nat) : exec (.fill cid n) s = execFill cid n s := rfl
@[simp] theorem exec_wsload (cid n : Nat) : exec (.wsload cid n) s = execWsload cid n s := rfl
@[simp] theorem exec_dsnap (cid : Nat) : exec (.dsnap cid) s = execDsnap cid s := rfl
@[simp] theorem exec_exch (cid : Nat) : exec (.exch cid) s = execExch cid s := rfl
@[simp] theorem exec_combine (cid : Nat) : exec (.combine cid) s = execCombine cid s := rfl
@[simp] theorem exec_preempt (cid : Nat) : exec (.preempt cid) s = execPreempt cid s := rfl
@[simp] theorem exec_resume (cid : Nat) : exec (.resume cid) s = execResume cid s := rfl
@[simp] theorem exec_commandStart (cid : Nat) : exec (.commandStart cid) s = execCommandStart cid s := rfl
@[simp] theorem exec_delivery (cid n : Nat) : exec (.delivery cid n) s = execDelivery cid n s := rfl
@[simp] theorem exec_commandComplete (cid : Nat) : exec (.commandComplete cid) s = execCommandComplete cid s := rfl
@[simp] theorem exec_returnWordLands (id : Nat) : exec (.returnWordLands id) s = execReturnWordLands id s := rfl
@[simp] theorem exec_matrixOperationStart (core : Nat) (queue : Bool) : exec (.matrixOperationStart core queue) s = execMatrixOperationStart core queue s := rfl
@[simp] theorem exec_kStep (core : Nat) (err : Bool) : exec (.kStep core err) s = execKStep core err s := rfl
@[simp] theorem exec_matrixOperationComplete (core : Nat) (queue : Bool) : exec (.matrixOperationComplete core queue) s = execMatrixOperationComplete core queue s := rfl
@[simp] theorem exec_blockArrival (bid : BlockName) : exec (.blockArrival bid) s = execBlockArrival bid s := rfl
@[simp] theorem exec_codedPacket (b : BlockName) (c : Nat) : exec (.codedPacket b c) s = execCodedPacket b c s := rfl
@[simp] theorem exec_decodeFallback (bid : BlockName) : exec (.decodeFallback bid) s = execDecodeFallback bid s := rfl
@[simp] theorem exec_fabricBarrierComplete (ctx fid : Nat) : exec (.fabricBarrierComplete ctx fid) s = execFabricBarrierComplete ctx fid s := rfl
@[simp] theorem exec_wsRefresh (die bank : Nat) : exec (.wsRefresh die bank) s = execWsRefresh die bank s := rfl
@[simp] theorem exec_replay (ctx : Nat) (seq : W32) : exec (.replay ctx seq) s = execReplay ctx seq s := rfl
@[simp] theorem exec_endLaunch (ctx : Nat) (seq : W32) : exec (.endLaunch ctx seq) s = execEndLaunch ctx seq s := rfl
@[simp] theorem exec_continue (ctx : Nat) (seq : W32) : exec (.continue_ ctx seq) s = execContinue ctx seq s := rfl
@[simp] theorem exec_tlbinv (ctx : Nat) (bytes : List Byte) : exec (.tlbinv ctx bytes) s = execTlbinv ctx bytes s := rfl
@[simp] theorem exec_invalidationComplete (id : Nat) : exec (.invalidationComplete id) s = execInvalidationComplete id s := rfl
@[simp] theorem exec_debugRead (ctx : Nat) (bytes : List Byte) : exec (.debugRead ctx bytes) s = execDebugRead ctx bytes s := rfl
@[simp] theorem exec_debugWrite (ctx : Nat) (bytes : List Byte) : exec (.debugWrite ctx bytes) s = execDebugWrite ctx bytes s := rfl
@[simp] theorem exec_debugstop (ctx : Nat) (bytes : List Byte) : exec (.debugstop ctx bytes) s = execDebugstop ctx bytes s := rfl
@[simp] theorem exec_contextCreate (bytes : List Byte) : exec (.contextCreate bytes) s = execContextCreate bytes s := rfl
@[simp] theorem exec_contextDestroy (ctx : Nat) : exec (.contextDestroy ctx) s = execContextDestroy ctx s := rfl
@[simp] theorem exec_contextDestroyDetach (ctx : Nat) : exec (.contextDestroyDetach ctx) s = execContextDestroyDetach ctx s := rfl
@[simp] theorem exec_supmask (value : W64) : exec (.supmask value) s = execSupmask value s := rfl
@[simp] theorem exec_attest (nonce : List Byte) : exec (.attest nonce) s = execAttest nonce s := rfl
@[simp] theorem exec_hostRegisterWrite (port offset : Nat) (ctxPage : Bool) (bytes : List Byte) : exec (.hostRegisterWrite port offset ctxPage bytes) s = execHostRegisterWrite port offset ctxPage bytes s := rfl
@[simp] theorem exec_memoryWindowWrite (ctx offset : Nat) (bytes : List Byte) : exec (.memoryWindowWrite ctx offset bytes) s = execMemoryWindowWrite ctx offset bytes s := rfl
@[simp] theorem exec_memoryWindowRead (ctx offset len : Nat) : exec (.memoryWindowRead ctx offset len) s = execMemoryWindowRead ctx offset len s := rfl
@[simp] theorem exec_status : exec (.status) s = execStatus s := rfl
@[simp] theorem exec_recover (nonce : List Byte) : exec (.recover nonce) s = execRecover nonce s := rfl
@[simp] theorem exec_recoverN : exec (.recoverN) s = execRecoverN s := rfl
@[simp] theorem exec_getrecord : exec (.getrecord) s = execGetrecord s := rfl
@[simp] theorem exec_i3cAttest (nonce : List Byte) : exec (.i3cAttest nonce) s = execI3cAttest nonce s := rfl
@[simp] theorem exec_loadfw (len : Nat) : exec (.loadfw len) s = execLoadfw len s := rfl
@[simp] theorem exec_powerGood : exec (.powerGood) s = execPowerGood s := rfl
@[simp] theorem exec_functionReady (f : Func) : exec (.functionReady f) s = execFunctionReady f s := rfl
@[simp] theorem exec_readinessTimeout (f : Func) : exec (.readinessTimeout f) s = execReadinessTimeout f s := rfl
@[simp] theorem exec_partFailure (p : Part) : exec (.partFailure p) s = execPartFailure p s := rfl
@[simp] theorem exec_fence (p : Part) : exec (.fence p) s = execFence p s := rfl
@[simp] theorem exec_acklost (wid : Nat) (p : Part) : exec (.acklost wid p) s = execAcklost wid p s := rfl
@[simp] theorem exec_wilkaiFlit (port : Nat) (f : Flit) : exec (.wilkaiFlit port f) s = execWilkaiFlit port f s := rfl
@[simp] theorem exec_retransmitTimeout (port : Nat) : exec (.retransmitTimeout port) s = execRetransmitTimeout port s := rfl
@[simp] theorem exec_limitExceeded : exec (.limitExceeded) s = execLimitExceeded s := rfl
@[simp] theorem exec_refreshWindowEnd (die bank : Nat) : exec (.refreshWindowEnd die bank) s = execRefreshWindowEnd die bank s := rfl
@[simp] theorem exec_mcaSingleMoment (wid : Nat) : exec (.mcaSingleMoment wid) s = execMcaSingleMoment wid s := rfl
@[simp] theorem exec_writeArrival (wid : Nat) (o : Observer) : exec (.writeArrival wid o) s = execWriteArrival wid o s := rfl
@[simp] theorem exec_peerDeviceAccess (ctx : Nat) (va : W64) (op : PeerOp) : exec (.peerDeviceAccess ctx va op) s = execPeerDeviceAccess ctx va op s := rfl
@[simp] theorem exec_powerLoss : exec (.powerLoss) s = execPowerLoss s := rfl

end Sys2Proof.Machine
end

