-- ==== Sys2Proof/Laws/Tables.lean ====
section
/-! SUPPORT. Laws of sparse tables and of memory: read after write, and the canonical form. -/

namespace Sys2Proof.Machine

/-! ### Read after write -/

theorem look_drop {α : Type} (d : α) (m : List (Nat × α)) (k j : Nat) :
    look d (drop? m k) j = if j = k then d else look d m j := by
  induction m with
  | nil => simp [drop?, look]
  | cons e m ih =>
    obtain ⟨k', v⟩ := e
    by_cases h : k' = k
    · subst h
      simp only [drop?, ne_eq, decide_not, List.filter_cons, decide_true, Bool.not_true, Bool.false_eq_true, if_false]
      by_cases hj : j = k'
      · simpa [drop?, hj] using ih
      · have : k' ≠ j := fun h => hj h.symm
        simpa [drop?, look, hj, this] using ih
    · simp only [drop?, ne_eq, decide_not, List.filter_cons, h, decide_false, Bool.not_false, if_true, look]
      by_cases hj : k' = j
      · subst hj; simp [h]
      · simpa [drop?, hj] using ih

theorem look_keep {α : Type} [DecidableEq α] (d : α) (m : List (Nat × α)) (k : Nat) (v : α) (j : Nat) :
    look d (keep d m k v) j = if j = k then v else look d m j := by
  induction m with
  | nil =>
    by_cases hv : v = d <;> by_cases hj : j = k <;> simp_all [keep, look]
    exact fun h => absurd h.symm hj
  | cons e m ih =>
    obtain ⟨k', x⟩ := e
    simp only [keep]
    split_ifs with h1 h2 h3 h4 h5
    all_goals (simp only [look, look_drop, ih]; split_ifs <;> first | rfl | omega | simp_all)

@[simp] theorem look_keep_self {α : Type} [DecidableEq α] (d : α) (m : List (Nat × α)) (k : Nat) (v : α) :
    look d (keep d m k v) k = v := by simp [look_keep]

theorem look_keep_other {α : Type} [DecidableEq α] (d : α) (m : List (Nat × α)) {k j : Nat} (v : α) (h : j ≠ k) :
    look d (keep d m k v) j = look d m j := by simp [look_keep, h]

/-! ### The canonical form -/

theorem tableWfFrom_mono {α : Type} [DecidableEq α] {d : α} {m : List (Nat × α)} {lo lo' : Nat} (h : lo' ≤ lo)
    (hm : tableWfFrom d lo m = true) : tableWfFrom d lo' m = true := by
  cases m with
  | nil => rfl
  | cons e m => simp_all [tableWfFrom]; omega

theorem tableWfFrom_filter {α : Type} [DecidableEq α] {d : α} (f : Nat × α → Bool) : ∀ {m : List (Nat × α)} {lo : Nat},
    tableWfFrom d lo m = true → tableWfFrom d lo (m.filter f) = true
  | [], _, h => h
  | (k, v) :: m, lo, h => by
    simp only [tableWfFrom, Bool.and_eq_true, decide_eq_true_eq] at h
    have ih := tableWfFrom_filter f h.2
    by_cases hk : f (k, v) = true
    · simp [hk, tableWfFrom, h.1, ih]
    · simpa [hk] using tableWfFrom_mono (by omega) ih

theorem tableWfFrom_drop {α : Type} [DecidableEq α] {d : α} {k : Nat} {m : List (Nat × α)} {lo : Nat}
    (h : tableWfFrom d lo m = true) : tableWfFrom d lo (drop? m k) = true := tableWfFrom_filter _ h

theorem tableWfFrom_keep {α : Type} [DecidableEq α] {d : α} {k : Nat} {v : α} : ∀ {m : List (Nat × α)} {lo : Nat},
    lo ≤ k → tableWfFrom d lo m = true → tableWfFrom d lo (keep d m k v) = true
  | [], lo, hk, _ => by
    by_cases hv : v = d <;> simp [keep, tableWfFrom, hv, hk]
  | (k', x) :: m, lo, hk, h => by
    have h' := h
    simp only [tableWfFrom, Bool.and_eq_true, decide_eq_true_eq] at h
    simp only [keep]
    split_ifs with h1 hv h2 hv
    · have hd := tableWfFrom_drop (k := k) h.2
      simp [tableWfFrom, h.1, hd]
    · simp only [tableWfFrom, Bool.and_eq_true, decide_eq_true_eq]
      exact ⟨⟨hk, hv⟩, ⟨by omega, h.1.2⟩, h.2⟩
    · exact tableWfFrom_mono (by omega) (tableWfFrom_drop h.2)
    · subst h2
      simp only [tableWfFrom, Bool.and_eq_true, decide_eq_true_eq]
      exact ⟨⟨hk, hv⟩, h.2⟩
    · simp only [tableWfFrom, Bool.and_eq_true, decide_eq_true_eq]
      exact ⟨h.1, tableWfFrom_keep (by omega) h.2⟩

/-- Setting an entry keeps the canonical form. -/
theorem tableWf_keep {α : Type} [DecidableEq α] {d : α} {m : List (Nat × α)} (k : Nat) (v : α)
    (h : tableWf d m = true) : tableWf d (keep d m k v) = true := tableWfFrom_keep (Nat.zero_le k) h

/-- A table in canonical form is determined by what it reads as. -/
theorem look_lt {α : Type} [DecidableEq α] {d : α} : ∀ {m : List (Nat × α)} {lo j : Nat},
    tableWfFrom d lo m = true → j < lo → look d m j = d
  | [], _, _, _, _ => rfl
  | (k, v) :: m, lo, j, h, hj => by
    simp only [tableWfFrom, Bool.and_eq_true, decide_eq_true_eq] at h
    have : k ≠ j := by omega
    simp [look, this, look_lt h.2 (show j < k + 1 by omega)]

theorem tableWf_ext {α : Type} [DecidableEq α] {d : α} : ∀ {m m' : List (Nat × α)} {lo : Nat},
    tableWfFrom d lo m = true → tableWfFrom d lo m' = true → (∀ j, look d m j = look d m' j) → m = m'
  | [], [], _, _, _, _ => rfl
  | [], (k, v) :: m', _, _, h', he => by
    simp only [tableWfFrom, Bool.and_eq_true, decide_eq_true_eq] at h'
    exact absurd (by simpa [look] using (he k).symm) h'.1.2
  | (k, v) :: m, [], _, h, _, he => by
    simp only [tableWfFrom, Bool.and_eq_true, decide_eq_true_eq] at h
    exact absurd (by simpa [look] using he k) h.1.2
  | (k, v) :: m, (k', v') :: m', lo, h, h', he => by
    simp only [tableWfFrom, Bool.and_eq_true, decide_eq_true_eq] at h h'
    have hk : k = k' := by
      by_contra hne
      rcases Nat.lt_or_gt_of_ne hne with hl | hl
      · have hne' : k' ≠ k := by omega
        have := he k
        rw [show look d ((k', v') :: m') k = look d m' k by simp [look, hne'],
          look_lt h'.2 (by omega)] at this
        exact h.1.2 (by simpa [look] using this)
      · have := he k'
        rw [show look d ((k, v) :: m) k' = look d m k' by simp [look, hne],
          look_lt h.2 (by omega)] at this
        exact h'.1.2 (by simpa [look] using this.symm)
    subst hk
    have hv : v = v' := by simpa [look] using he k
    subst hv
    have : m = m' := tableWf_ext h.2 h'.2 fun j => by
      by_cases hj : k = j
      · subst hj; rw [look_lt h.2 (by omega), look_lt h'.2 (by omega)]
      · simpa [look, hj] using he j
    rw [this]

/-! ### Memory -/

/-- A byte read after a write. -/
theorem Memory.read_write (m : List Host.Cell) (a : Nat) (b : Byte) (x : Nat) :
    Memory.read (Memory.write m a b) x = if x = a then b else Memory.read m x := look_keep ..

/-- Writing a byte keeps the canonical form. -/
theorem Memory.wf_write {m : List Host.Cell} (a : Nat) (b : Byte) (h : Memory.wf m = true) :
    Memory.wf (Memory.write m a b) = true := tableWf_keep a b h

/-- Writing cells keeps the canonical form. -/
theorem Memory.wf_writeCells (cs : List Host.Cell) : ∀ {m : List Host.Cell}, Memory.wf m = true →
    Memory.wf (Memory.writeCells m cs) = true := by
  induction cs with
  | nil => exact fun h => h
  | cons c cs ih => exact fun h => ih (Memory.wf_write _ _ h)

/-- Leaving cells out keeps the canonical form. -/
theorem Memory.wf_filter {m : List Host.Cell} (f : Host.Cell → Bool) (h : Memory.wf m = true) :
    Memory.wf (m.filter f) = true := tableWfFrom_filter f h

/-- Writing cells leaves every other byte alone. -/
theorem Memory.read_writeCells_other (cs : List Host.Cell) : ∀ {m : List Host.Cell} {x : Nat},
    (∀ c ∈ cs, c.1 ≠ x) → Memory.read (Memory.writeCells m cs) x = Memory.read m x := by
  induction cs with
  | nil => exact fun _ => rfl
  | cons c cs ih =>
    intro m x h
    have hc : x ≠ c.1 := fun e => h c (by simp) e.symm
    have := ih (m := Memory.write m c.1 c.2) (x := x) fun c' hc' => h c' (by simp [hc'])
    simpa [Memory.writeCells, Memory.read_write, hc] using this

theorem cellsAt_fst_lt {bs : List Byte} : ∀ {a x : Nat}, (∀ c ∈ cellsAt a bs, c.1 ≠ x) ↔ (x < a ∨ a + bs.length ≤ x) := by
  induction bs with
  | nil => intro a x; simp [cellsAt]; omega
  | cons b bs ih =>
    intro a x
    simp only [cellsAt, List.mem_cons, forall_eq_or_imp, ih, List.length_cons]
    omega

/-- Writing laid-out bytes: each is read back, and every other byte is left alone. -/
theorem Memory.read_writeCells_cellsAt (bs : List Byte) : ∀ (m : List Host.Cell) (a x : Nat),
    Memory.read (Memory.writeCells m (cellsAt a bs)) x =
      if a ≤ x ∧ x < a + bs.length then bs.getD (x - a) 0 else Memory.read m x := by
  induction bs with
  | nil => intro m a x; simp [cellsAt, Memory.writeCells]
  | cons b bs ih =>
    intro m a x
    have := ih (Memory.write m a b) (a + 1) x
    simp only [cellsAt, Memory.writeCells, List.foldl_cons] at this ⊢
    rw [this, Memory.read_write, List.length_cons]
    by_cases h : x = a
    · subst h
      have h1 : ¬(x + 1 ≤ x ∧ x < x + 1 + bs.length) := by omega
      have h2 : x ≤ x ∧ x < x + (bs.length + 1) := by omega
      simp [h2]
    · by_cases h1 : a + 1 ≤ x ∧ x < a + 1 + bs.length
      · have h2 : a ≤ x ∧ x < a + (bs.length + 1) := by omega
        rw [if_pos h1, if_pos h2, show x - a = (x - (a + 1)) + 1 by omega]
        simp
      · have h2 : ¬(a ≤ x ∧ x < a + (bs.length + 1)) := by omega
        rw [if_neg h1, if_neg h2, if_neg h]

theorem State.reset_mem_wf : Memory.wf State.reset.mem = true := rfl

end Sys2Proof.Machine
end

