-- ==== Sys2Proof/Laws/Groups.lean ====
section
/-! SUPPORT. Laws of a group's registers, queues, predicates and flags: what each operation of Operands and Flags writes,
and that it writes nothing else. -/

namespace Sys2Proof.Machine

/-! ### Lanes -/

theorem mem_lanes {l : Nat} : l ∈ lanes ↔ l < 32 := by simp [lanes, laneCount]

theorem nodup_lanes : lanes.Nodup := List.nodup_range

theorem maskLanes_lt {m : W32} {l : Nat} (h : l ∈ maskLanes m) : l < 32 := mem_lanes.1 (List.mem_filter.1 h).1

theorem nodup_maskLanes (m : W32) : (maskLanes m).Nodup := nodup_lanes.filter _

theorem executing_sub {g : Group} {gd : Guard} {u : Bool} : (g.executing gd u).Sublist (maskLanes g.ctl.mask) := by
  unfold Group.executing
  split
  · exact List.filter_sublist.trans (List.take_sublist _ _)
  · exact List.filter_sublist

theorem executing_lt {g : Group} {gd : Guard} {u : Bool} {l : Nat} (h : l ∈ g.executing gd u) : l < 32 :=
  maskLanes_lt (executing_sub.subset h)

theorem nodup_executing (g : Group) (gd : Guard) (u : Bool) : (g.executing gd u).Nodup :=
  (nodup_maskLanes _).sublist executing_sub

theorem executing_uniform_length (g : Group) (gd : Guard) : (g.executing gd true).length ≤ 1 := by
  simp only [Group.executing, if_true]
  exact (List.length_filter_le _ _).trans (List.length_take_le _ _)

/-! ### Writing one operand -/

section give
variable (g : Group) (lane : Nat) (o : Opnd) (d : Datum)

theorem Group.give_vCell {n : BitVec 7} {l : Nat} (hl : l < 32) (hlane : lane < 32) :
    (g.give lane o d).vCell n.toNat l = if o = .v n ∧ lane = l then { d := d, full := true } else g.vCell n.toNat l := by
  cases o with
  | v m =>
    simp only [Group.give, Group.setV, Group.vCell, look_keep, Opnd.v.injEq]
    by_cases h : m = n ∧ lane = l
    · obtain ⟨rfl, rfl⟩ := h; simp
    · have : ¬ n.toNat * 32 + l = m.toNat * 32 + lane := fun e => h ⟨BitVec.eq_of_toNat_eq (by omega), by omega⟩
      simp [this, h]
  | s m => simp [Group.give, Group.setS, Group.vCell]
  | q m => simp [Group.give, Group.setQueue, Group.vCell]
  | zr => simp [Group.give]

theorem Group.give_sCell {n : BitVec 6} :
    (g.give lane o d).sCell n.toNat = if o = .s n then { d := d, full := true } else g.sCell n.toNat := by
  cases o with
  | s m =>
    simp only [Group.give, Group.setS, Group.sCell, look_keep, Opnd.s.injEq]
    by_cases h : m = n
    · subst h; simp
    · have : ¬ n.toNat = m.toNat := fun e => h (BitVec.eq_of_toNat_eq e.symm)
      simp [this, h]
  | v m => simp [Group.give, Group.setV, Group.sCell]
  | q m => simp [Group.give, Group.setQueue, Group.sCell]
  | zr => simp [Group.give]

theorem Group.setQueue_queue (q : Queue) (m n : BitVec 4) (l : Nat) :
    (g.setQueue lane m.toNat q).queue l n.toNat = if m = n ∧ lane = l then q else g.queue l n.toNat := by
  simp only [Group.setQueue, Group.queue, look_keep]
  by_cases h : m = n ∧ lane = l
  · obtain ⟨rfl, rfl⟩ := h; simp
  · have : ¬ l * 16 + n.toNat = lane * 16 + m.toNat := fun e => h ⟨BitVec.eq_of_toNat_eq (by omega), by omega⟩
    simp [this, h]

theorem Group.give_queue {n : BitVec 4} {l : Nat} :
    (g.give lane o d).queue l n.toNat = if o = .q n ∧ lane = l then (g.queue l n.toNat).push [d]
      else g.queue l n.toNat := by
  cases o with
  | q m =>
    simp only [Group.give, Group.setQueue_queue, Opnd.q.injEq]
    by_cases h : m = n ∧ lane = l
    · obtain ⟨rfl, rfl⟩ := h; simp [Queue.push]
    · simp [h]
  | v m => simp [Group.give, Group.setV, Group.queue]
  | s m => simp [Group.give, Group.setS, Group.queue]
  | zr => simp [Group.give]

@[simp] theorem Group.give_p : (g.give lane o d).p = g.p := by cases o <;> rfl
@[simp] theorem Group.give_fpst : (g.give lane o d).fpst = g.fpst := by cases o <;> rfl
@[simp] theorem Group.give_rest : (g.give lane o d).rest = g.rest := by cases o <;> rfl

end give

/-! ### Writing one operand in several lanes -/

theorem Group.foldl_give_vCell (o : Opnd) (f : Nat → Datum) {n : BitVec 7} {l : Nat} (hl : l < 32) :
    ∀ (ls : List Nat) (g : Group), (∀ x ∈ ls, x < 32) →
    ((ls.map fun x => (x, f x)).foldl (fun (g : Group) r => g.give r.1 o r.2) g).vCell n.toNat l =
      if o = .v n ∧ l ∈ ls then { d := f l, full := true } else g.vCell n.toNat l
  | [], g, _ => by simp
  | x :: ls, g, h => by
    simp only [List.map_cons, List.foldl_cons]
    rw [Group.foldl_give_vCell o f hl ls _ fun y hy => h y (by simp [hy]), Group.give_vCell _ _ _ _ hl (h x (by simp))]
    by_cases ho : o = .v n <;> by_cases hx : x = l <;> by_cases hm : l ∈ ls <;> simp_all
    all_goals (intro e; exact absurd e.symm hx)

theorem Group.foldl_give_sCell (o : Opnd) (ho : ∀ n, o ≠ .s n) {n : BitVec 6} : ∀ (rs : List (Nat × Datum)) (g : Group),
    (rs.foldl (fun (g : Group) r => g.give r.1 o r.2) g).sCell n.toNat = g.sCell n.toNat
  | [], _ => rfl
  | r :: rs, g => by
    rw [List.foldl_cons, Group.foldl_give_sCell o ho rs, Group.give_sCell, if_neg (ho n)]

theorem Group.foldl_give_queue (o : Opnd) (f : Nat → Datum) {n : BitVec 4} {l : Nat} :
    ∀ (ls : List Nat) (g : Group), ls.Nodup →
    ((ls.map fun x => (x, f x)).foldl (fun (g : Group) r => g.give r.1 o r.2) g).queue l n.toNat =
      if o = .q n ∧ l ∈ ls then (g.queue l n.toNat).push [f l] else g.queue l n.toNat
  | [], g, _ => by simp
  | x :: ls, g, h => by
    simp only [List.map_cons, List.foldl_cons]
    rw [Group.foldl_give_queue o f ls _ (List.nodup_cons.1 h).2, Group.give_queue]
    by_cases hx : x = l
    · subst hx
      have := (List.nodup_cons.1 h).1
      by_cases ho : o = .q n <;> simp [ho, this]
    · have : l ≠ x := fun e => hx e.symm
      simp [hx, this]

theorem Group.foldl_give_same {β : Type} (π : Group → β) (o : Opnd) (h : ∀ (g : Group) l d, π (g.give l o d) = π g) :
    ∀ (rs : List (Nat × Datum)) (g : Group), π (rs.foldl (fun (g : Group) r => g.give r.1 o r.2) g) = π g
  | [], _ => rfl
  | r :: rs, g => by rw [List.foldl_cons, Group.foldl_give_same π o h rs, h]

theorem Group.giveAll_same {β : Type} (π : Group → β) (o : Opnd) (h : ∀ (g : Group) l d, π (g.give l o d) = π g)
    (g : Group) (rs : List (Nat × Datum)) : π (g.giveAll o rs) = π g := by
  cases o with
  | s n => cases rs with
    | nil => rfl
    | cons r rs => exact h g r.1 r.2
  | _ => exact Group.foldl_give_same π _ h rs g

section giveAll
variable (g : Group) (o : Opnd) (f : Nat → Datum) (ls : List Nat)

theorem Group.giveAll_vCell {n : BitVec 7} {l : Nat} (hl : l < 32) (h : ∀ x ∈ ls, x < 32) :
    (g.giveAll o (ls.map fun x => (x, f x))).vCell n.toNat l =
      if o = .v n ∧ l ∈ ls then { d := f l, full := true } else g.vCell n.toNat l := by
  cases o with
  | s m => cases ls with
    | nil => simp [Group.giveAll]
    | cons x ls => simp [Group.giveAll, Group.give_vCell _ _ _ _ hl (h x (by simp))]
  | _ => exact Group.foldl_give_vCell _ f hl ls g h

theorem Group.giveAll_sCell {n : BitVec 6} :
    (g.giveAll o (ls.map fun x => (x, f x))).sCell n.toNat =
      match (if o = .s n then ls.head? else none) with
      | some l => { d := f l, full := true }
      | none => g.sCell n.toNat := by
  cases o with
  | s m => cases ls with
    | nil => simp [Group.giveAll]
    | cons x ls => by_cases h : m = n <;> simp [Group.giveAll, Group.give_sCell, h]
  | v m => simpa [Group.giveAll] using Group.foldl_give_sCell (.v m) (by simp) (n := n) (ls.map fun x => (x, f x)) g
  | q m => simpa [Group.giveAll] using Group.foldl_give_sCell (.q m) (by simp) (n := n) (ls.map fun x => (x, f x)) g
  | zr => simpa [Group.giveAll] using Group.foldl_give_sCell .zr (by simp) (n := n) (ls.map fun x => (x, f x)) g

theorem Group.giveAll_queue {n : BitVec 4} {l : Nat} (h : ls.Nodup) :
    (g.giveAll o (ls.map fun x => (x, f x))).queue l n.toNat =
      if o = .q n ∧ l ∈ ls then (g.queue l n.toNat).push [f l] else g.queue l n.toNat := by
  cases o with
  | s m => cases ls with
    | nil => simp [Group.giveAll]
    | cons x ls => simp [Group.giveAll, Group.give_queue]
  | _ => exact Group.foldl_give_queue _ f ls g h

end giveAll

/-! ### Writing the results of an instruction -/

theorem Group.giveOuts_same {β : Type} (π : Group → β) (h : ∀ (g : Group) l o d, π (g.give l o d) = π g) :
    ∀ (dsts : List Opnd) (rs : List (Nat × List Datum)) (g : Group), π (g.giveOuts dsts rs) = π g
  | [], _, _ => rfl
  | o :: dsts, rs, g => by
    rw [Group.giveOuts, Group.giveOuts_same π h dsts, Group.giveAll_same π o fun g l d => h g l o d]

theorem Group.giveOuts_cons (g : Group) (o : Opnd) (dsts : List Opnd) (ls : List Nat) (f : Nat → List Datum) :
    g.giveOuts (o :: dsts) (ls.map fun x => (x, f x)) =
      (g.giveAll o (ls.map fun x => (x, (f x).headD {}))).giveOuts dsts (ls.map fun x => (x, (f x).tail)) := by
  simp [Group.giveOuts, Function.comp_def]

theorem Group.giveOuts_vCell {n : BitVec 7} {l : Nat} (hl : l < 32) (ls : List Nat) (h : ∀ x ∈ ls, x < 32) :
    ∀ (dsts : List Opnd) (f : Nat → List Datum) (g : Group),
    (g.giveOuts dsts (ls.map fun x => (x, f x))).vCell n.toNat l =
      if l ∈ ls then
        match (delivered dsts (f l) (.v n)).getLast? with
        | some d => { d := d, full := true }
        | none => g.vCell n.toNat l
      else g.vCell n.toNat l
  | [], f, g => by simp [Group.giveOuts, delivered]
  | o :: dsts, f, g => by
    rw [Group.giveOuts_cons, Group.giveOuts_vCell hl ls h dsts, Group.giveAll_vCell _ _ _ _ hl h]
    by_cases hm : l ∈ ls <;> by_cases ho : o = .v n <;> simp [hm, ho, delivered]
    cases hd : delivered dsts (f l).tail (.v n) <;> simp [List.getLast?_cons]

theorem Group.giveOuts_sCell {n : BitVec 6} (ls : List Nat) :
    ∀ (dsts : List Opnd) (f : Nat → List Datum) (g : Group),
    (g.giveOuts dsts (ls.map fun x => (x, f x))).sCell n.toNat =
      match ls.head?.bind fun l => (delivered dsts (f l) (.s n)).getLast? with
      | some d => { d := d, full := true }
      | none => g.sCell n.toNat
  | [], f, g => by cases ls <;> simp [Group.giveOuts, delivered]
  | o :: dsts, f, g => by
    rw [Group.giveOuts_cons, Group.giveOuts_sCell ls dsts, Group.giveAll_sCell]
    cases ls with
    | nil => simp
    | cons l ls =>
      by_cases ho : o = .s n <;> simp [ho, delivered]
      cases hd : delivered dsts (f l).tail (.s n) <;> simp [List.getLast?_cons]

theorem Queue.push_push (q : Queue) (a b : List Datum) : (q.push a).push b = q.push (a ++ b) := by
  simp [Queue.push, List.append_assoc]

@[simp] theorem Queue.push_nil (q : Queue) : q.push [] = q := by simp [Queue.push]

theorem Group.giveOuts_queue {n : BitVec 4} {l : Nat} (ls : List Nat) (h : ls.Nodup) :
    ∀ (dsts : List Opnd) (f : Nat → List Datum) (g : Group),
    (g.giveOuts dsts (ls.map fun x => (x, f x))).queue l n.toNat =
      if l ∈ ls then (g.queue l n.toNat).push (delivered dsts (f l) (.q n)) else g.queue l n.toNat
  | [], f, g => by simp [Group.giveOuts, delivered]
  | o :: dsts, f, g => by
    rw [Group.giveOuts_cons, Group.giveOuts_queue ls h dsts, Group.giveAll_queue _ _ _ _ h]
    by_cases hm : l ∈ ls <;> by_cases ho : o = .q n <;> simp [hm, ho, delivered, Queue.push_push]

/-! ### Popping -/

section pop
variable (g : Group) (lane : Nat) (o : Opnd)

@[simp] theorem Group.pop_v : (g.pop lane o).v = g.v := by
  cases o <;> simp only [Group.pop]; split <;> rfl
@[simp] theorem Group.pop_s : (g.pop lane o).s = g.s := by
  cases o <;> simp only [Group.pop]; split <;> rfl
@[simp] theorem Group.pop_p : (g.pop lane o).p = g.p := by
  cases o <;> simp only [Group.pop]; split <;> rfl
@[simp] theorem Group.pop_fpst : (g.pop lane o).fpst = g.fpst := by
  cases o <;> simp only [Group.pop]; split <;> rfl
@[simp] theorem Group.pop_rest : (g.pop lane o).rest = g.rest := by
  cases o <;> simp only [Group.pop]; split <;> rfl

theorem Group.pop_queue (n : BitVec 4) (l : Nat) :
    (g.pop lane o).queue l n.toNat = if o = .q n ∧ lane = l then (g.queue l n.toNat).pop1 else g.queue l n.toNat := by
  cases o with
  | q m =>
    simp only [Group.pop, Opnd.q.injEq]
    by_cases h : m = n ∧ lane = l
    · obtain ⟨rfl, rfl⟩ := h
      simp only [and_self, if_true, Queue.pop1]
      rcases (g.queue lane m.toNat).entries with _ | ⟨_ | _, _⟩ <;> simp [Group.setQueue_queue]
    · rw [if_neg h]
      split
      · rw [Group.setQueue_queue, if_neg h]
      · rfl
  | _ => simp [Group.pop]

end pop

theorem Group.takeAll_same {β : Type} (π : Group → β) (h : ∀ (g : Group) l o, π (g.pop l o) = π g) (lane : Nat) :
    ∀ (os : List Opnd) (g : Group), π (g.takeAll lane os).2 = π g
  | [], _ => rfl
  | o :: os, g => by rw [Group.takeAll, Group.takeAll_same π h lane os, h]

theorem Group.takeAll_queue (lane : Nat) (n : BitVec 4) (l : Nat) : ∀ (os : List Opnd) (g : Group),
    (g.takeAll lane os).2.queue l n.toNat =
      if lane = l then (g.queue l n.toNat).pops (os.count (.q n)) else g.queue l n.toNat
  | [], g => by simp [Group.takeAll, Queue.pops]
  | o :: os, g => by
    rw [Group.takeAll, Group.takeAll_queue lane n l os, Group.pop_queue]
    by_cases ho : o = .q n <;> by_cases hl : lane = l <;> simp [ho, hl, Queue.pops]

/-- What a lane reads depends on its registers and on its own queues alone. -/
theorem Group.reads_congr (lane : Nat) : ∀ (os : List Opnd) {g g' : Group}, g.v = g'.v → g.s = g'.s →
    (∀ n : BitVec 4, g.queue lane n.toNat = g'.queue lane n.toNat) → g.reads os lane = g'.reads os lane
  | [], _, _, _, _, _ => rfl
  | o :: os, g, g', hv, hs, hq => by
    have hd : g.datum lane o = g'.datum lane o := by
      cases o <;> simp [Group.datum, Group.vCell, Group.sCell, hv, hs, hq]
    have := Group.reads_congr lane os (g := g.pop lane o) (g' := g'.pop lane o) (by simp [hv]) (by simp [hs])
      fun n => by rw [Group.pop_queue, Group.pop_queue, hq]
    simp only [Group.reads] at this
    simp [Group.reads, Group.takeAll, hd, this]

theorem Group.gather_fst (os : List Opnd) : ∀ (ls : List Nat) (g : Group), ls.Nodup →
    (g.gather os ls).1 = ls.map fun l => (l, g.reads os l)
  | [], _, _ => rfl
  | l :: ls, g, h => by
    simp only [Group.gather, List.map_cons]
    rw [Group.gather_fst os ls _ (List.nodup_cons.1 h).2]
    refine congrArg _ (List.map_congr_left fun x hx => ?_)
    have hne : l ≠ x := fun e => (List.nodup_cons.1 h).1 (e ▸ hx)
    rw [Group.reads_congr x os (Group.takeAll_same (·.v) (by simp) l os g) (Group.takeAll_same (·.s) (by simp) l os g)
      fun n => by rw [Group.takeAll_queue, if_neg hne]]

theorem Group.gather_same {β : Type} (π : Group → β) (h : ∀ (g : Group) l o, π (g.pop l o) = π g) (os : List Opnd) :
    ∀ (ls : List Nat) (g : Group), π (g.gather os ls).2 = π g
  | [], _ => rfl
  | l :: ls, g => by
    rw [Group.gather]; exact (Group.gather_same π h os ls _).trans (Group.takeAll_same π h l os g)

theorem Group.gather_queue (os : List Opnd) (n : BitVec 4) (l : Nat) : ∀ (ls : List Nat) (g : Group), ls.Nodup →
    (g.gather os ls).2.queue l n.toNat =
      if l ∈ ls then (g.queue l n.toNat).pops (os.count (.q n)) else g.queue l n.toNat
  | [], _, _ => by simp [Group.gather]
  | x :: ls, g, h => by
    rw [Group.gather]
    refine (Group.gather_queue os n l ls _ (List.nodup_cons.1 h).2).trans ?_
    rw [Group.takeAll_queue]
    by_cases hx : x = l
    · subst hx; simp [(List.nodup_cons.1 h).1]
    · have : l ≠ x := fun e => hx e.symm
      simp [hx, this]

/-! ### Predicates and flags -/

theorem laneBit_getLsbD (lane l : Nat) :
    (BitVec.ofNat 32 (2 ^ lane)).getLsbD l = (decide (l < 32) && decide (lane = l)) := by
  rw [BitVec.getLsbD_ofNat, Nat.testBit_two_pow]

theorem Group.setPred_pred (g : Group) (m : BitVec 3) (lane : Nat) (b : Bool) {n : BitVec 3} {l : Nat}
    (hl : l < 32) : (g.setPred m lane b).pred false n l =
      if n = 7 then true else if m = n ∧ lane = l then b else g.pred false n l := by
  by_cases hn : n = 7
  · simp [Group.pred, hn]
  rw [if_neg hn]
  by_cases hm : m = 7
  · rw [show g.setPred m lane b = g by simp [Group.setPred, hm], if_neg fun h => hn (h.1.symm.trans hm)]
  simp only [Group.setPred, hm, if_false, Group.pred, hn, look_keep, Bool.xor_false]
  by_cases hmn : m = n
  · subst hmn
    simp only [if_true, true_and]
    cases b
    · rw [if_neg (by simp), BitVec.getLsbD_and, BitVec.getLsbD_not, laneBit_getLsbD]
      by_cases h : lane = l <;> simp [h, hl]
    · rw [if_pos rfl, BitVec.getLsbD_or, laneBit_getLsbD]
      by_cases h : lane = l <;> simp [h, hl]
  · have : ¬ n.toNat = m.toNat := fun e => hmn (BitVec.eq_of_toNat_eq e.symm)
    simp [this, hmn]

theorem Group.setPred_same {β : Type} (π : Group → β) (h : ∀ (g : Group) p, π { g with p := p } = π g) (g : Group)
    (m : BitVec 3) (lane : Nat) (b : Bool) : π (g.setPred m lane b) = π g := by
  unfold Group.setPred
  split
  · rfl
  · exact h ..

theorem Group.setPreds_pred (m : BitVec 3) (b : Bool) {n : BitVec 3} {l : Nat} (hl : l < 32) :
    ∀ (ls : List Nat) (g : Group), (g.setPreds m ls b).pred false n l =
      if n = 7 then true else if m = n ∧ l ∈ ls then b else g.pred false n l
  | [], g => by by_cases hn : n = 7 <;> simp [Group.setPreds, hn, Group.pred]
  | x :: ls, g => by
    have := Group.setPreds_pred m b hl ls (g.setPred m x b) (n := n)
    simp only [Group.setPreds, List.foldl_cons] at this ⊢
    rw [this, Group.setPred_pred _ _ _ _ hl]
    by_cases hn : n = 7 <;> by_cases hm : m = n <;> by_cases hx : x = l <;> by_cases hi : l ∈ ls <;> simp_all
    all_goals (intro e; exact absurd e.symm hx)

theorem Group.setPreds_same {β : Type} (π : Group → β) (h : ∀ (g : Group) p, π { g with p := p } = π g) (m : BitVec 3)
    (b : Bool) : ∀ (ls : List Nat) (g : Group), π (g.setPreds m ls b) = π g
  | [], _ => rfl
  | x :: ls, g => by
    have := Group.setPreds_same π h m b ls (g.setPred m x b)
    simp only [Group.setPreds, List.foldl_cons] at this ⊢
    rw [this, Group.setPred_same π h]

theorem lastPred_cons (p : BitVec 3 × Bool) (ps : List (BitVec 3 × Bool)) (n : BitVec 3) :
    lastPred (p :: ps) n = (lastPred ps n).orElse fun _ => if p.1 = n then some p.2 else none := by
  simp only [lastPred, List.reverse_cons, List.find?_append]
  cases h : ps.reverse.find? fun p => p.1 = n with
  | some x => simp
  | none => by_cases hp : p.1 = n <;> simp [hp]

/-- The predicates that one lane's result writes, in the lanes that it reaches. -/
theorem Group.foldl_preds_pred {n : BitVec 3} {l : Nat} (hl : l < 32) (ls : List Nat) :
    ∀ (ps : List (BitVec 3 × Bool)) (g : Group),
    (ps.foldl (fun (g : Group) p => g.setPreds p.1 ls p.2) g).pred false n l =
      if n = 7 then true else if l ∈ ls then (lastPred ps n).getD (g.pred false n l) else g.pred false n l
  | [], g => by by_cases hn : n = 7 <;> simp [hn, Group.pred, lastPred]
  | p :: ps, g => by
    rw [List.foldl_cons, Group.foldl_preds_pred hl ls ps, Group.setPreds_pred _ _ hl ls, lastPred_cons]
    by_cases hn : n = 7 <;> by_cases hi : l ∈ ls <;> simp [hn, hi]
    cases lastPred ps n <;> by_cases hp : p.1 = n <;> simp [hp]

theorem Group.orFlags_fpst (g : Group) (f : Flags) (lane l : Nat) :
    look 0 (g.orFlags f lane).fpst l = if l = lane then look 0 g.fpst l ||| f else look 0 g.fpst l := by
  simp only [Group.orFlags, look_keep]
  by_cases h : l = lane <;> simp [h]

theorem Group.foldl_orFlags_fpst (f : Flags) (l : Nat) : ∀ (ls : List Nat) (g : Group),
    look 0 (ls.foldl (fun (g : Group) x => g.orFlags f x) g).fpst l =
      if l ∈ ls then look 0 g.fpst l ||| f else look 0 g.fpst l
  | [], g => by simp
  | x :: ls, g => by
    rw [List.foldl_cons, Group.foldl_orFlags_fpst f l ls, Group.orFlags_fpst]
    by_cases hx : l = x <;> by_cases hi : l ∈ ls <;> simp [hx, hi, BitVec.or_assoc]

theorem Group.foldl_orFlags_same {β : Type} (π : Group → β) (h : ∀ (g : Group) x, π { g with fpst := x } = π g)
    (f : Flags) : ∀ (ls : List Nat) (g : Group), π (ls.foldl (fun (g : Group) x => g.orFlags f x) g) = π g
  | [], _ => rfl
  | x :: ls, g => by rw [List.foldl_cons, Group.foldl_orFlags_same π h f ls]; exact h ..

end Sys2Proof.Machine
end

