-- ==== Sys2Proof/Laws/State.lean ====
section
/-! SUPPORT. One law for each field of `State` and each named update of it: what the update makes of the field. -/

namespace Sys2Proof.Machine

/-! ### `State.setGroup` -/

@[simp] theorem State.setGroup_groups (s : State) (g : Group) :
    (s.setGroup g).groups = s.groups.map fun h => if h.id = g.id then g else h := rfl
@[simp] theorem State.setGroup_teams (s : State) (g : Group) : (s.setGroup g).teams = s.teams := rfl
@[simp] theorem State.setGroup_cores (s : State) (g : Group) : (s.setGroup g).cores = s.cores := rfl
@[simp] theorem State.setGroup_dies (s : State) (g : Group) : (s.setGroup g).dies = s.dies := rfl
@[simp] theorem State.setGroup_mem (s : State) (g : Group) : (s.setGroup g).mem = s.mem := rfl
@[simp] theorem State.setGroup_inflight (s : State) (g : Group) : (s.setGroup g).inflight = s.inflight := rfl
@[simp] theorem State.setGroup_ws (s : State) (g : Group) : (s.setGroup g).ws = s.ws := rfl
@[simp] theorem State.setGroup_pend (s : State) (g : Group) : (s.setGroup g).pend = s.pend := rfl
@[simp] theorem State.setGroup_launches (s : State) (g : Group) : (s.setGroup g).launches = s.launches := rfl
@[simp] theorem State.setGroup_cmds (s : State) (g : Group) : (s.setGroup g).cmds = s.cmds := rfl
@[simp] theorem State.setGroup_returns (s : State) (g : Group) : (s.setGroup g).returns = s.returns := rfl
@[simp] theorem State.setGroup_ctxs (s : State) (g : Group) : (s.setGroup g).ctxs = s.ctxs := rfl
@[simp] theorem State.setGroup_estates (s : State) (g : Group) : (s.setGroup g).estates = s.estates := rfl
@[simp] theorem State.setGroup_tlb (s : State) (g : Group) : (s.setGroup g).tlb = s.tlb := rfl
@[simp] theorem State.setGroup_walks (s : State) (g : Group) : (s.setGroup g).walks = s.walks := rfl
@[simp] theorem State.setGroup_invs (s : State) (g : Group) : (s.setGroup g).invs = s.invs := rfl
@[simp] theorem State.setGroup_icache (s : State) (g : Group) : (s.setGroup g).icache = s.icache := rfl
@[simp] theorem State.setGroup_blocks (s : State) (g : Group) : (s.setGroup g).blocks = s.blocks := rfl
@[simp] theorem State.setGroup_sideInfo (s : State) (g : Group) : (s.setGroup g).sideInfo = s.sideInfo := rfl
@[simp] theorem State.setGroup_pkg (s : State) (g : Group) : (s.setGroup g).pkg = s.pkg := rfl
@[simp] theorem State.setGroup_irqs (s : State) (g : Group) : (s.setGroup g).irqs = s.irqs := rfl
@[simp] theorem State.setGroup_reply (s : State) (g : Group) : (s.setGroup g).reply = s.reply := rfl
@[simp] theorem State.setGroup_agenda (s : State) (g : Group) : (s.setGroup g).agenda = s.agenda := rfl
@[simp] theorem State.setGroup_cur (s : State) (g : Group) : (s.setGroup g).cur = s.cur := rfl
@[simp] theorem State.setGroup_ecc (s : State) (g : Group) : (s.setGroup g).ecc = s.ecc := rfl
@[simp] theorem State.setGroup_free (s : State) (g : Group) : (s.setGroup g).free = s.free := rfl
@[simp] theorem State.setGroup_tick (s : State) (g : Group) : (s.setGroup g).tick = s.tick := rfl
@[simp] theorem State.setGroup_nextId (s : State) (g : Group) : (s.setGroup g).nextId = s.nextId := rfl

/-! ### `State.onGroup` -/

@[simp] theorem State.onGroup_groups (s : State) (id : Nat) (f : Group → Group) :
    (s.onGroup id f).groups = s.groups.map fun h => if h.id = id then f h else h := rfl
@[simp] theorem State.onGroup_teams (s : State) (id : Nat) (f : Group → Group) :
    (s.onGroup id f).teams = s.teams := rfl
@[simp] theorem State.onGroup_cores (s : State) (id : Nat) (f : Group → Group) :
    (s.onGroup id f).cores = s.cores := rfl
@[simp] theorem State.onGroup_dies (s : State) (id : Nat) (f : Group → Group) : (s.onGroup id f).dies = s.dies := rfl
@[simp] theorem State.onGroup_mem (s : State) (id : Nat) (f : Group → Group) : (s.onGroup id f).mem = s.mem := rfl
@[simp] theorem State.onGroup_inflight (s : State) (id : Nat) (f : Group → Group) :
    (s.onGroup id f).inflight = s.inflight := rfl
@[simp] theorem State.onGroup_ws (s : State) (id : Nat) (f : Group → Group) : (s.onGroup id f).ws = s.ws := rfl
@[simp] theorem State.onGroup_pend (s : State) (id : Nat) (f : Group → Group) : (s.onGroup id f).pend = s.pend := rfl
@[simp] theorem State.onGroup_launches (s : State) (id : Nat) (f : Group → Group) :
    (s.onGroup id f).launches = s.launches := rfl
@[simp] theorem State.onGroup_cmds (s : State) (id : Nat) (f : Group → Group) : (s.onGroup id f).cmds = s.cmds := rfl
@[simp] theorem State.onGroup_returns (s : State) (id : Nat) (f : Group → Group) :
    (s.onGroup id f).returns = s.returns := rfl
@[simp] theorem State.onGroup_ctxs (s : State) (id : Nat) (f : Group → Group) : (s.onGroup id f).ctxs = s.ctxs := rfl
@[simp] theorem State.onGroup_estates (s : State) (id : Nat) (f : Group → Group) :
    (s.onGroup id f).estates = s.estates := rfl
@[simp] theorem State.onGroup_tlb (s : State) (id : Nat) (f : Group → Group) : (s.onGroup id f).tlb = s.tlb := rfl
@[simp] theorem State.onGroup_walks (s : State) (id : Nat) (f : Group → Group) :
    (s.onGroup id f).walks = s.walks := rfl
@[simp] theorem State.onGroup_invs (s : State) (id : Nat) (f : Group → Group) : (s.onGroup id f).invs = s.invs := rfl
@[simp] theorem State.onGroup_icache (s : State) (id : Nat) (f : Group → Group) :
    (s.onGroup id f).icache = s.icache := rfl
@[simp] theorem State.onGroup_blocks (s : State) (id : Nat) (f : Group → Group) :
    (s.onGroup id f).blocks = s.blocks := rfl
@[simp] theorem State.onGroup_sideInfo (s : State) (id : Nat) (f : Group → Group) :
    (s.onGroup id f).sideInfo = s.sideInfo := rfl
@[simp] theorem State.onGroup_pkg (s : State) (id : Nat) (f : Group → Group) : (s.onGroup id f).pkg = s.pkg := rfl
@[simp] theorem State.onGroup_irqs (s : State) (id : Nat) (f : Group → Group) : (s.onGroup id f).irqs = s.irqs := rfl
@[simp] theorem State.onGroup_reply (s : State) (id : Nat) (f : Group → Group) :
    (s.onGroup id f).reply = s.reply := rfl
@[simp] theorem State.onGroup_agenda (s : State) (id : Nat) (f : Group → Group) :
    (s.onGroup id f).agenda = s.agenda := rfl
@[simp] theorem State.onGroup_cur (s : State) (id : Nat) (f : Group → Group) : (s.onGroup id f).cur = s.cur := rfl
@[simp] theorem State.onGroup_ecc (s : State) (id : Nat) (f : Group → Group) : (s.onGroup id f).ecc = s.ecc := rfl
@[simp] theorem State.onGroup_free (s : State) (id : Nat) (f : Group → Group) : (s.onGroup id f).free = s.free := rfl
@[simp] theorem State.onGroup_tick (s : State) (id : Nat) (f : Group → Group) : (s.onGroup id f).tick = s.tick := rfl
@[simp] theorem State.onGroup_nextId (s : State) (id : Nat) (f : Group → Group) :
    (s.onGroup id f).nextId = s.nextId := rfl

/-! ### `State.onTeam` -/

@[simp] theorem State.onTeam_groups (s : State) (id : Nat) (f : Team → Team) :
    (s.onTeam id f).groups = s.groups := rfl
@[simp] theorem State.onTeam_teams (s : State) (id : Nat) (f : Team → Team) :
    (s.onTeam id f).teams = s.teams.map fun t => if t.id = id then f t else t := rfl
@[simp] theorem State.onTeam_cores (s : State) (id : Nat) (f : Team → Team) : (s.onTeam id f).cores = s.cores := rfl
@[simp] theorem State.onTeam_dies (s : State) (id : Nat) (f : Team → Team) : (s.onTeam id f).dies = s.dies := rfl
@[simp] theorem State.onTeam_mem (s : State) (id : Nat) (f : Team → Team) : (s.onTeam id f).mem = s.mem := rfl
@[simp] theorem State.onTeam_inflight (s : State) (id : Nat) (f : Team → Team) :
    (s.onTeam id f).inflight = s.inflight := rfl
@[simp] theorem State.onTeam_ws (s : State) (id : Nat) (f : Team → Team) : (s.onTeam id f).ws = s.ws := rfl
@[simp] theorem State.onTeam_pend (s : State) (id : Nat) (f : Team → Team) : (s.onTeam id f).pend = s.pend := rfl
@[simp] theorem State.onTeam_launches (s : State) (id : Nat) (f : Team → Team) :
    (s.onTeam id f).launches = s.launches := rfl
@[simp] theorem State.onTeam_cmds (s : State) (id : Nat) (f : Team → Team) : (s.onTeam id f).cmds = s.cmds := rfl
@[simp] theorem State.onTeam_returns (s : State) (id : Nat) (f : Team → Team) :
    (s.onTeam id f).returns = s.returns := rfl
@[simp] theorem State.onTeam_ctxs (s : State) (id : Nat) (f : Team → Team) : (s.onTeam id f).ctxs = s.ctxs := rfl
@[simp] theorem State.onTeam_estates (s : State) (id : Nat) (f : Team → Team) :
    (s.onTeam id f).estates = s.estates := rfl
@[simp] theorem State.onTeam_tlb (s : State) (id : Nat) (f : Team → Team) : (s.onTeam id f).tlb = s.tlb := rfl
@[simp] theorem State.onTeam_walks (s : State) (id : Nat) (f : Team → Team) : (s.onTeam id f).walks = s.walks := rfl
@[simp] theorem State.onTeam_invs (s : State) (id : Nat) (f : Team → Team) : (s.onTeam id f).invs = s.invs := rfl
@[simp] theorem State.onTeam_icache (s : State) (id : Nat) (f : Team → Team) :
    (s.onTeam id f).icache = s.icache := rfl
@[simp] theorem State.onTeam_blocks (s : State) (id : Nat) (f : Team → Team) :
    (s.onTeam id f).blocks = s.blocks := rfl
@[simp] theorem State.onTeam_sideInfo (s : State) (id : Nat) (f : Team → Team) :
    (s.onTeam id f).sideInfo = s.sideInfo := rfl
@[simp] theorem State.onTeam_pkg (s : State) (id : Nat) (f : Team → Team) : (s.onTeam id f).pkg = s.pkg := rfl
@[simp] theorem State.onTeam_irqs (s : State) (id : Nat) (f : Team → Team) : (s.onTeam id f).irqs = s.irqs := rfl
@[simp] theorem State.onTeam_reply (s : State) (id : Nat) (f : Team → Team) : (s.onTeam id f).reply = s.reply := rfl
@[simp] theorem State.onTeam_agenda (s : State) (id : Nat) (f : Team → Team) :
    (s.onTeam id f).agenda = s.agenda := rfl
@[simp] theorem State.onTeam_cur (s : State) (id : Nat) (f : Team → Team) : (s.onTeam id f).cur = s.cur := rfl
@[simp] theorem State.onTeam_ecc (s : State) (id : Nat) (f : Team → Team) : (s.onTeam id f).ecc = s.ecc := rfl
@[simp] theorem State.onTeam_free (s : State) (id : Nat) (f : Team → Team) : (s.onTeam id f).free = s.free := rfl
@[simp] theorem State.onTeam_tick (s : State) (id : Nat) (f : Team → Team) : (s.onTeam id f).tick = s.tick := rfl
@[simp] theorem State.onTeam_nextId (s : State) (id : Nat) (f : Team → Team) :
    (s.onTeam id f).nextId = s.nextId := rfl

/-! ### `State.onLaunch` -/

@[simp] theorem State.onLaunch_groups (s : State) (id : Nat) (f : Launch → Launch) :
    (s.onLaunch id f).groups = s.groups := rfl
@[simp] theorem State.onLaunch_teams (s : State) (id : Nat) (f : Launch → Launch) :
    (s.onLaunch id f).teams = s.teams := rfl
@[simp] theorem State.onLaunch_cores (s : State) (id : Nat) (f : Launch → Launch) :
    (s.onLaunch id f).cores = s.cores := rfl
@[simp] theorem State.onLaunch_dies (s : State) (id : Nat) (f : Launch → Launch) :
    (s.onLaunch id f).dies = s.dies := rfl
@[simp] theorem State.onLaunch_mem (s : State) (id : Nat) (f : Launch → Launch) : (s.onLaunch id f).mem = s.mem := rfl
@[simp] theorem State.onLaunch_inflight (s : State) (id : Nat) (f : Launch → Launch) :
    (s.onLaunch id f).inflight = s.inflight := rfl
@[simp] theorem State.onLaunch_ws (s : State) (id : Nat) (f : Launch → Launch) : (s.onLaunch id f).ws = s.ws := rfl
@[simp] theorem State.onLaunch_pend (s : State) (id : Nat) (f : Launch → Launch) :
    (s.onLaunch id f).pend = s.pend := rfl
@[simp] theorem State.onLaunch_launches (s : State) (id : Nat) (f : Launch → Launch) :
    (s.onLaunch id f).launches = s.launches.map fun l => if l.id = id then f l else l := rfl
@[simp] theorem State.onLaunch_cmds (s : State) (id : Nat) (f : Launch → Launch) :
    (s.onLaunch id f).cmds = s.cmds := rfl
@[simp] theorem State.onLaunch_returns (s : State) (id : Nat) (f : Launch → Launch) :
    (s.onLaunch id f).returns = s.returns := rfl
@[simp] theorem State.onLaunch_ctxs (s : State) (id : Nat) (f : Launch → Launch) :
    (s.onLaunch id f).ctxs = s.ctxs := rfl
@[simp] theorem State.onLaunch_estates (s : State) (id : Nat) (f : Launch → Launch) :
    (s.onLaunch id f).estates = s.estates := rfl
@[simp] theorem State.onLaunch_tlb (s : State) (id : Nat) (f : Launch → Launch) : (s.onLaunch id f).tlb = s.tlb := rfl
@[simp] theorem State.onLaunch_walks (s : State) (id : Nat) (f : Launch → Launch) :
    (s.onLaunch id f).walks = s.walks := rfl
@[simp] theorem State.onLaunch_invs (s : State) (id : Nat) (f : Launch → Launch) :
    (s.onLaunch id f).invs = s.invs := rfl
@[simp] theorem State.onLaunch_icache (s : State) (id : Nat) (f : Launch → Launch) :
    (s.onLaunch id f).icache = s.icache := rfl
@[simp] theorem State.onLaunch_blocks (s : State) (id : Nat) (f : Launch → Launch) :
    (s.onLaunch id f).blocks = s.blocks := rfl
@[simp] theorem State.onLaunch_sideInfo (s : State) (id : Nat) (f : Launch → Launch) :
    (s.onLaunch id f).sideInfo = s.sideInfo := rfl
@[simp] theorem State.onLaunch_pkg (s : State) (id : Nat) (f : Launch → Launch) : (s.onLaunch id f).pkg = s.pkg := rfl
@[simp] theorem State.onLaunch_irqs (s : State) (id : Nat) (f : Launch → Launch) :
    (s.onLaunch id f).irqs = s.irqs := rfl
@[simp] theorem State.onLaunch_reply (s : State) (id : Nat) (f : Launch → Launch) :
    (s.onLaunch id f).reply = s.reply := rfl
@[simp] theorem State.onLaunch_agenda (s : State) (id : Nat) (f : Launch → Launch) :
    (s.onLaunch id f).agenda = s.agenda := rfl
@[simp] theorem State.onLaunch_cur (s : State) (id : Nat) (f : Launch → Launch) : (s.onLaunch id f).cur = s.cur := rfl
@[simp] theorem State.onLaunch_ecc (s : State) (id : Nat) (f : Launch → Launch) : (s.onLaunch id f).ecc = s.ecc := rfl
@[simp] theorem State.onLaunch_free (s : State) (id : Nat) (f : Launch → Launch) :
    (s.onLaunch id f).free = s.free := rfl
@[simp] theorem State.onLaunch_tick (s : State) (id : Nat) (f : Launch → Launch) :
    (s.onLaunch id f).tick = s.tick := rfl
@[simp] theorem State.onLaunch_nextId (s : State) (id : Nat) (f : Launch → Launch) :
    (s.onLaunch id f).nextId = s.nextId := rfl

/-! ### `State.onCmd` -/

@[simp] theorem State.onCmd_groups (s : State) (id : Nat) (f : Cmd → Cmd) : (s.onCmd id f).groups = s.groups := rfl
@[simp] theorem State.onCmd_teams (s : State) (id : Nat) (f : Cmd → Cmd) : (s.onCmd id f).teams = s.teams := rfl
@[simp] theorem State.onCmd_cores (s : State) (id : Nat) (f : Cmd → Cmd) : (s.onCmd id f).cores = s.cores := rfl
@[simp] theorem State.onCmd_dies (s : State) (id : Nat) (f : Cmd → Cmd) : (s.onCmd id f).dies = s.dies := rfl
@[simp] theorem State.onCmd_mem (s : State) (id : Nat) (f : Cmd → Cmd) : (s.onCmd id f).mem = s.mem := rfl
@[simp] theorem State.onCmd_inflight (s : State) (id : Nat) (f : Cmd → Cmd) :
    (s.onCmd id f).inflight = s.inflight := rfl
@[simp] theorem State.onCmd_ws (s : State) (id : Nat) (f : Cmd → Cmd) : (s.onCmd id f).ws = s.ws := rfl
@[simp] theorem State.onCmd_pend (s : State) (id : Nat) (f : Cmd → Cmd) : (s.onCmd id f).pend = s.pend := rfl
@[simp] theorem State.onCmd_launches (s : State) (id : Nat) (f : Cmd → Cmd) :
    (s.onCmd id f).launches = s.launches := rfl
@[simp] theorem State.onCmd_cmds (s : State) (id : Nat) (f : Cmd → Cmd) :
    (s.onCmd id f).cmds = s.cmds.map fun c => if c.id = id then f c else c := rfl
@[simp] theorem State.onCmd_returns (s : State) (id : Nat) (f : Cmd → Cmd) : (s.onCmd id f).returns = s.returns := rfl
@[simp] theorem State.onCmd_ctxs (s : State) (id : Nat) (f : Cmd → Cmd) : (s.onCmd id f).ctxs = s.ctxs := rfl
@[simp] theorem State.onCmd_estates (s : State) (id : Nat) (f : Cmd → Cmd) : (s.onCmd id f).estates = s.estates := rfl
@[simp] theorem State.onCmd_tlb (s : State) (id : Nat) (f : Cmd → Cmd) : (s.onCmd id f).tlb = s.tlb := rfl
@[simp] theorem State.onCmd_walks (s : State) (id : Nat) (f : Cmd → Cmd) : (s.onCmd id f).walks = s.walks := rfl
@[simp] theorem State.onCmd_invs (s : State) (id : Nat) (f : Cmd → Cmd) : (s.onCmd id f).invs = s.invs := rfl
@[simp] theorem State.onCmd_icache (s : State) (id : Nat) (f : Cmd → Cmd) : (s.onCmd id f).icache = s.icache := rfl
@[simp] theorem State.onCmd_blocks (s : State) (id : Nat) (f : Cmd → Cmd) : (s.onCmd id f).blocks = s.blocks := rfl
@[simp] theorem State.onCmd_sideInfo (s : State) (id : Nat) (f : Cmd → Cmd) :
    (s.onCmd id f).sideInfo = s.sideInfo := rfl
@[simp] theorem State.onCmd_pkg (s : State) (id : Nat) (f : Cmd → Cmd) : (s.onCmd id f).pkg = s.pkg := rfl
@[simp] theorem State.onCmd_irqs (s : State) (id : Nat) (f : Cmd → Cmd) : (s.onCmd id f).irqs = s.irqs := rfl
@[simp] theorem State.onCmd_reply (s : State) (id : Nat) (f : Cmd → Cmd) : (s.onCmd id f).reply = s.reply := rfl
@[simp] theorem State.onCmd_agenda (s : State) (id : Nat) (f : Cmd → Cmd) : (s.onCmd id f).agenda = s.agenda := rfl
@[simp] theorem State.onCmd_cur (s : State) (id : Nat) (f : Cmd → Cmd) : (s.onCmd id f).cur = s.cur := rfl
@[simp] theorem State.onCmd_ecc (s : State) (id : Nat) (f : Cmd → Cmd) : (s.onCmd id f).ecc = s.ecc := rfl
@[simp] theorem State.onCmd_free (s : State) (id : Nat) (f : Cmd → Cmd) : (s.onCmd id f).free = s.free := rfl
@[simp] theorem State.onCmd_tick (s : State) (id : Nat) (f : Cmd → Cmd) : (s.onCmd id f).tick = s.tick := rfl
@[simp] theorem State.onCmd_nextId (s : State) (id : Nat) (f : Cmd → Cmd) : (s.onCmd id f).nextId = s.nextId := rfl

/-! ### `State.dropPend` -/

@[simp] theorem State.dropPend_groups (s : State) (id : Nat) : (s.dropPend id).groups = s.groups := rfl
@[simp] theorem State.dropPend_teams (s : State) (id : Nat) : (s.dropPend id).teams = s.teams := rfl
@[simp] theorem State.dropPend_cores (s : State) (id : Nat) : (s.dropPend id).cores = s.cores := rfl
@[simp] theorem State.dropPend_dies (s : State) (id : Nat) : (s.dropPend id).dies = s.dies := rfl
@[simp] theorem State.dropPend_mem (s : State) (id : Nat) : (s.dropPend id).mem = s.mem := rfl
@[simp] theorem State.dropPend_inflight (s : State) (id : Nat) : (s.dropPend id).inflight = s.inflight := rfl
@[simp] theorem State.dropPend_ws (s : State) (id : Nat) : (s.dropPend id).ws = s.ws := rfl
@[simp] theorem State.dropPend_pend (s : State) (id : Nat) :
    (s.dropPend id).pend = s.pend.filter fun p => p.id ≠ id := rfl
@[simp] theorem State.dropPend_launches (s : State) (id : Nat) : (s.dropPend id).launches = s.launches := rfl
@[simp] theorem State.dropPend_cmds (s : State) (id : Nat) : (s.dropPend id).cmds = s.cmds := rfl
@[simp] theorem State.dropPend_returns (s : State) (id : Nat) : (s.dropPend id).returns = s.returns := rfl
@[simp] theorem State.dropPend_ctxs (s : State) (id : Nat) : (s.dropPend id).ctxs = s.ctxs := rfl
@[simp] theorem State.dropPend_estates (s : State) (id : Nat) : (s.dropPend id).estates = s.estates := rfl
@[simp] theorem State.dropPend_tlb (s : State) (id : Nat) : (s.dropPend id).tlb = s.tlb := rfl
@[simp] theorem State.dropPend_walks (s : State) (id : Nat) : (s.dropPend id).walks = s.walks := rfl
@[simp] theorem State.dropPend_invs (s : State) (id : Nat) : (s.dropPend id).invs = s.invs := rfl
@[simp] theorem State.dropPend_icache (s : State) (id : Nat) : (s.dropPend id).icache = s.icache := rfl
@[simp] theorem State.dropPend_blocks (s : State) (id : Nat) : (s.dropPend id).blocks = s.blocks := rfl
@[simp] theorem State.dropPend_sideInfo (s : State) (id : Nat) : (s.dropPend id).sideInfo = s.sideInfo := rfl
@[simp] theorem State.dropPend_pkg (s : State) (id : Nat) : (s.dropPend id).pkg = s.pkg := rfl
@[simp] theorem State.dropPend_irqs (s : State) (id : Nat) : (s.dropPend id).irqs = s.irqs := rfl
@[simp] theorem State.dropPend_reply (s : State) (id : Nat) : (s.dropPend id).reply = s.reply := rfl
@[simp] theorem State.dropPend_agenda (s : State) (id : Nat) : (s.dropPend id).agenda = s.agenda := rfl
@[simp] theorem State.dropPend_cur (s : State) (id : Nat) : (s.dropPend id).cur = s.cur := rfl
@[simp] theorem State.dropPend_ecc (s : State) (id : Nat) : (s.dropPend id).ecc = s.ecc := rfl
@[simp] theorem State.dropPend_free (s : State) (id : Nat) : (s.dropPend id).free = s.free := rfl
@[simp] theorem State.dropPend_tick (s : State) (id : Nat) : (s.dropPend id).tick = s.tick := rfl
@[simp] theorem State.dropPend_nextId (s : State) (id : Nat) : (s.dropPend id).nextId = s.nextId := rfl

/-! ### `State.onCtx` -/

@[simp] theorem State.onCtx_groups (s : State) (n : Nat) (f : Ctx → Ctx) : (s.onCtx n f).groups = s.groups := rfl
@[simp] theorem State.onCtx_teams (s : State) (n : Nat) (f : Ctx → Ctx) : (s.onCtx n f).teams = s.teams := rfl
@[simp] theorem State.onCtx_cores (s : State) (n : Nat) (f : Ctx → Ctx) : (s.onCtx n f).cores = s.cores := rfl
@[simp] theorem State.onCtx_dies (s : State) (n : Nat) (f : Ctx → Ctx) : (s.onCtx n f).dies = s.dies := rfl
@[simp] theorem State.onCtx_mem (s : State) (n : Nat) (f : Ctx → Ctx) : (s.onCtx n f).mem = s.mem := rfl
@[simp] theorem State.onCtx_inflight (s : State) (n : Nat) (f : Ctx → Ctx) :
    (s.onCtx n f).inflight = s.inflight := rfl
@[simp] theorem State.onCtx_ws (s : State) (n : Nat) (f : Ctx → Ctx) : (s.onCtx n f).ws = s.ws := rfl
@[simp] theorem State.onCtx_pend (s : State) (n : Nat) (f : Ctx → Ctx) : (s.onCtx n f).pend = s.pend := rfl
@[simp] theorem State.onCtx_launches (s : State) (n : Nat) (f : Ctx → Ctx) :
    (s.onCtx n f).launches = s.launches := rfl
@[simp] theorem State.onCtx_cmds (s : State) (n : Nat) (f : Ctx → Ctx) : (s.onCtx n f).cmds = s.cmds := rfl
@[simp] theorem State.onCtx_returns (s : State) (n : Nat) (f : Ctx → Ctx) : (s.onCtx n f).returns = s.returns := rfl
@[simp] theorem State.onCtx_ctxs (s : State) (n : Nat) (f : Ctx → Ctx) :
    (s.onCtx n f).ctxs = s.ctxs.map fun e => if e.1 = n then (e.1, f e.2) else e := rfl
@[simp] theorem State.onCtx_estates (s : State) (n : Nat) (f : Ctx → Ctx) : (s.onCtx n f).estates = s.estates := rfl
@[simp] theorem State.onCtx_tlb (s : State) (n : Nat) (f : Ctx → Ctx) : (s.onCtx n f).tlb = s.tlb := rfl
@[simp] theorem State.onCtx_walks (s : State) (n : Nat) (f : Ctx → Ctx) : (s.onCtx n f).walks = s.walks := rfl
@[simp] theorem State.onCtx_invs (s : State) (n : Nat) (f : Ctx → Ctx) : (s.onCtx n f).invs = s.invs := rfl
@[simp] theorem State.onCtx_icache (s : State) (n : Nat) (f : Ctx → Ctx) : (s.onCtx n f).icache = s.icache := rfl
@[simp] theorem State.onCtx_blocks (s : State) (n : Nat) (f : Ctx → Ctx) : (s.onCtx n f).blocks = s.blocks := rfl
@[simp] theorem State.onCtx_sideInfo (s : State) (n : Nat) (f : Ctx → Ctx) :
    (s.onCtx n f).sideInfo = s.sideInfo := rfl
@[simp] theorem State.onCtx_pkg (s : State) (n : Nat) (f : Ctx → Ctx) : (s.onCtx n f).pkg = s.pkg := rfl
@[simp] theorem State.onCtx_irqs (s : State) (n : Nat) (f : Ctx → Ctx) : (s.onCtx n f).irqs = s.irqs := rfl
@[simp] theorem State.onCtx_reply (s : State) (n : Nat) (f : Ctx → Ctx) : (s.onCtx n f).reply = s.reply := rfl
@[simp] theorem State.onCtx_agenda (s : State) (n : Nat) (f : Ctx → Ctx) : (s.onCtx n f).agenda = s.agenda := rfl
@[simp] theorem State.onCtx_cur (s : State) (n : Nat) (f : Ctx → Ctx) : (s.onCtx n f).cur = s.cur := rfl
@[simp] theorem State.onCtx_ecc (s : State) (n : Nat) (f : Ctx → Ctx) : (s.onCtx n f).ecc = s.ecc := rfl
@[simp] theorem State.onCtx_free (s : State) (n : Nat) (f : Ctx → Ctx) : (s.onCtx n f).free = s.free := rfl
@[simp] theorem State.onCtx_tick (s : State) (n : Nat) (f : Ctx → Ctx) : (s.onCtx n f).tick = s.tick := rfl
@[simp] theorem State.onCtx_nextId (s : State) (n : Nat) (f : Ctx → Ctx) : (s.onCtx n f).nextId = s.nextId := rfl

/-! ### `State.setCore` -/

@[simp] theorem State.setCore_groups (s : State) (k : Nat) (c : CoreSt) : (s.setCore k c).groups = s.groups := rfl
@[simp] theorem State.setCore_teams (s : State) (k : Nat) (c : CoreSt) : (s.setCore k c).teams = s.teams := rfl
@[simp] theorem State.setCore_cores (s : State) (k : Nat) (c : CoreSt) :
    (s.setCore k c).cores = keep {} s.cores k c := rfl
@[simp] theorem State.setCore_dies (s : State) (k : Nat) (c : CoreSt) : (s.setCore k c).dies = s.dies := rfl
@[simp] theorem State.setCore_mem (s : State) (k : Nat) (c : CoreSt) : (s.setCore k c).mem = s.mem := rfl
@[simp] theorem State.setCore_inflight (s : State) (k : Nat) (c : CoreSt) :
    (s.setCore k c).inflight = s.inflight := rfl
@[simp] theorem State.setCore_ws (s : State) (k : Nat) (c : CoreSt) : (s.setCore k c).ws = s.ws := rfl
@[simp] theorem State.setCore_pend (s : State) (k : Nat) (c : CoreSt) : (s.setCore k c).pend = s.pend := rfl
@[simp] theorem State.setCore_launches (s : State) (k : Nat) (c : CoreSt) :
    (s.setCore k c).launches = s.launches := rfl
@[simp] theorem State.setCore_cmds (s : State) (k : Nat) (c : CoreSt) : (s.setCore k c).cmds = s.cmds := rfl
@[simp] theorem State.setCore_returns (s : State) (k : Nat) (c : CoreSt) : (s.setCore k c).returns = s.returns := rfl
@[simp] theorem State.setCore_ctxs (s : State) (k : Nat) (c : CoreSt) : (s.setCore k c).ctxs = s.ctxs := rfl
@[simp] theorem State.setCore_estates (s : State) (k : Nat) (c : CoreSt) : (s.setCore k c).estates = s.estates := rfl
@[simp] theorem State.setCore_tlb (s : State) (k : Nat) (c : CoreSt) : (s.setCore k c).tlb = s.tlb := rfl
@[simp] theorem State.setCore_walks (s : State) (k : Nat) (c : CoreSt) : (s.setCore k c).walks = s.walks := rfl
@[simp] theorem State.setCore_invs (s : State) (k : Nat) (c : CoreSt) : (s.setCore k c).invs = s.invs := rfl
@[simp] theorem State.setCore_icache (s : State) (k : Nat) (c : CoreSt) : (s.setCore k c).icache = s.icache := rfl
@[simp] theorem State.setCore_blocks (s : State) (k : Nat) (c : CoreSt) : (s.setCore k c).blocks = s.blocks := rfl
@[simp] theorem State.setCore_sideInfo (s : State) (k : Nat) (c : CoreSt) :
    (s.setCore k c).sideInfo = s.sideInfo := rfl
@[simp] theorem State.setCore_pkg (s : State) (k : Nat) (c : CoreSt) : (s.setCore k c).pkg = s.pkg := rfl
@[simp] theorem State.setCore_irqs (s : State) (k : Nat) (c : CoreSt) : (s.setCore k c).irqs = s.irqs := rfl
@[simp] theorem State.setCore_reply (s : State) (k : Nat) (c : CoreSt) : (s.setCore k c).reply = s.reply := rfl
@[simp] theorem State.setCore_agenda (s : State) (k : Nat) (c : CoreSt) : (s.setCore k c).agenda = s.agenda := rfl
@[simp] theorem State.setCore_cur (s : State) (k : Nat) (c : CoreSt) : (s.setCore k c).cur = s.cur := rfl
@[simp] theorem State.setCore_ecc (s : State) (k : Nat) (c : CoreSt) : (s.setCore k c).ecc = s.ecc := rfl
@[simp] theorem State.setCore_free (s : State) (k : Nat) (c : CoreSt) : (s.setCore k c).free = s.free := rfl
@[simp] theorem State.setCore_tick (s : State) (k : Nat) (c : CoreSt) : (s.setCore k c).tick = s.tick := rfl
@[simp] theorem State.setCore_nextId (s : State) (k : Nat) (c : CoreSt) : (s.setCore k c).nextId = s.nextId := rfl

/-! ### `State.onCore` -/

@[simp] theorem State.onCore_groups (s : State) (k : Nat) (f : CoreSt → CoreSt) :
    (s.onCore k f).groups = s.groups := rfl
@[simp] theorem State.onCore_teams (s : State) (k : Nat) (f : CoreSt → CoreSt) : (s.onCore k f).teams = s.teams := rfl
@[simp] theorem State.onCore_cores (s : State) (k : Nat) (f : CoreSt → CoreSt) :
    (s.onCore k f).cores = keep {} s.cores k (f (s.coreSt k)) := rfl
@[simp] theorem State.onCore_dies (s : State) (k : Nat) (f : CoreSt → CoreSt) : (s.onCore k f).dies = s.dies := rfl
@[simp] theorem State.onCore_mem (s : State) (k : Nat) (f : CoreSt → CoreSt) : (s.onCore k f).mem = s.mem := rfl
@[simp] theorem State.onCore_inflight (s : State) (k : Nat) (f : CoreSt → CoreSt) :
    (s.onCore k f).inflight = s.inflight := rfl
@[simp] theorem State.onCore_ws (s : State) (k : Nat) (f : CoreSt → CoreSt) : (s.onCore k f).ws = s.ws := rfl
@[simp] theorem State.onCore_pend (s : State) (k : Nat) (f : CoreSt → CoreSt) : (s.onCore k f).pend = s.pend := rfl
@[simp] theorem State.onCore_launches (s : State) (k : Nat) (f : CoreSt → CoreSt) :
    (s.onCore k f).launches = s.launches := rfl
@[simp] theorem State.onCore_cmds (s : State) (k : Nat) (f : CoreSt → CoreSt) : (s.onCore k f).cmds = s.cmds := rfl
@[simp] theorem State.onCore_returns (s : State) (k : Nat) (f : CoreSt → CoreSt) :
    (s.onCore k f).returns = s.returns := rfl
@[simp] theorem State.onCore_ctxs (s : State) (k : Nat) (f : CoreSt → CoreSt) : (s.onCore k f).ctxs = s.ctxs := rfl
@[simp] theorem State.onCore_estates (s : State) (k : Nat) (f : CoreSt → CoreSt) :
    (s.onCore k f).estates = s.estates := rfl
@[simp] theorem State.onCore_tlb (s : State) (k : Nat) (f : CoreSt → CoreSt) : (s.onCore k f).tlb = s.tlb := rfl
@[simp] theorem State.onCore_walks (s : State) (k : Nat) (f : CoreSt → CoreSt) : (s.onCore k f).walks = s.walks := rfl
@[simp] theorem State.onCore_invs (s : State) (k : Nat) (f : CoreSt → CoreSt) : (s.onCore k f).invs = s.invs := rfl
@[simp] theorem State.onCore_icache (s : State) (k : Nat) (f : CoreSt → CoreSt) :
    (s.onCore k f).icache = s.icache := rfl
@[simp] theorem State.onCore_blocks (s : State) (k : Nat) (f : CoreSt → CoreSt) :
    (s.onCore k f).blocks = s.blocks := rfl
@[simp] theorem State.onCore_sideInfo (s : State) (k : Nat) (f : CoreSt → CoreSt) :
    (s.onCore k f).sideInfo = s.sideInfo := rfl
@[simp] theorem State.onCore_pkg (s : State) (k : Nat) (f : CoreSt → CoreSt) : (s.onCore k f).pkg = s.pkg := rfl
@[simp] theorem State.onCore_irqs (s : State) (k : Nat) (f : CoreSt → CoreSt) : (s.onCore k f).irqs = s.irqs := rfl
@[simp] theorem State.onCore_reply (s : State) (k : Nat) (f : CoreSt → CoreSt) : (s.onCore k f).reply = s.reply := rfl
@[simp] theorem State.onCore_agenda (s : State) (k : Nat) (f : CoreSt → CoreSt) :
    (s.onCore k f).agenda = s.agenda := rfl
@[simp] theorem State.onCore_cur (s : State) (k : Nat) (f : CoreSt → CoreSt) : (s.onCore k f).cur = s.cur := rfl
@[simp] theorem State.onCore_ecc (s : State) (k : Nat) (f : CoreSt → CoreSt) : (s.onCore k f).ecc = s.ecc := rfl
@[simp] theorem State.onCore_free (s : State) (k : Nat) (f : CoreSt → CoreSt) : (s.onCore k f).free = s.free := rfl
@[simp] theorem State.onCore_tick (s : State) (k : Nat) (f : CoreSt → CoreSt) : (s.onCore k f).tick = s.tick := rfl
@[simp] theorem State.onCore_nextId (s : State) (k : Nat) (f : CoreSt → CoreSt) :
    (s.onCore k f).nextId = s.nextId := rfl

/-! ### `State.onDie` -/

@[simp] theorem State.onDie_groups (s : State) (d : Nat) (f : DieSt → DieSt) : (s.onDie d f).groups = s.groups := rfl
@[simp] theorem State.onDie_teams (s : State) (d : Nat) (f : DieSt → DieSt) : (s.onDie d f).teams = s.teams := rfl
@[simp] theorem State.onDie_cores (s : State) (d : Nat) (f : DieSt → DieSt) : (s.onDie d f).cores = s.cores := rfl
@[simp] theorem State.onDie_dies (s : State) (d : Nat) (f : DieSt → DieSt) :
    (s.onDie d f).dies = keep {} s.dies d (f (s.dieSt d)) := rfl
@[simp] theorem State.onDie_mem (s : State) (d : Nat) (f : DieSt → DieSt) : (s.onDie d f).mem = s.mem := rfl
@[simp] theorem State.onDie_inflight (s : State) (d : Nat) (f : DieSt → DieSt) :
    (s.onDie d f).inflight = s.inflight := rfl
@[simp] theorem State.onDie_ws (s : State) (d : Nat) (f : DieSt → DieSt) : (s.onDie d f).ws = s.ws := rfl
@[simp] theorem State.onDie_pend (s : State) (d : Nat) (f : DieSt → DieSt) : (s.onDie d f).pend = s.pend := rfl
@[simp] theorem State.onDie_launches (s : State) (d : Nat) (f : DieSt → DieSt) :
    (s.onDie d f).launches = s.launches := rfl
@[simp] theorem State.onDie_cmds (s : State) (d : Nat) (f : DieSt → DieSt) : (s.onDie d f).cmds = s.cmds := rfl
@[simp] theorem State.onDie_returns (s : State) (d : Nat) (f : DieSt → DieSt) :
    (s.onDie d f).returns = s.returns := rfl
@[simp] theorem State.onDie_ctxs (s : State) (d : Nat) (f : DieSt → DieSt) : (s.onDie d f).ctxs = s.ctxs := rfl
@[simp] theorem State.onDie_estates (s : State) (d : Nat) (f : DieSt → DieSt) :
    (s.onDie d f).estates = s.estates := rfl
@[simp] theorem State.onDie_tlb (s : State) (d : Nat) (f : DieSt → DieSt) : (s.onDie d f).tlb = s.tlb := rfl
@[simp] theorem State.onDie_walks (s : State) (d : Nat) (f : DieSt → DieSt) : (s.onDie d f).walks = s.walks := rfl
@[simp] theorem State.onDie_invs (s : State) (d : Nat) (f : DieSt → DieSt) : (s.onDie d f).invs = s.invs := rfl
@[simp] theorem State.onDie_icache (s : State) (d : Nat) (f : DieSt → DieSt) : (s.onDie d f).icache = s.icache := rfl
@[simp] theorem State.onDie_blocks (s : State) (d : Nat) (f : DieSt → DieSt) : (s.onDie d f).blocks = s.blocks := rfl
@[simp] theorem State.onDie_sideInfo (s : State) (d : Nat) (f : DieSt → DieSt) :
    (s.onDie d f).sideInfo = s.sideInfo := rfl
@[simp] theorem State.onDie_pkg (s : State) (d : Nat) (f : DieSt → DieSt) : (s.onDie d f).pkg = s.pkg := rfl
@[simp] theorem State.onDie_irqs (s : State) (d : Nat) (f : DieSt → DieSt) : (s.onDie d f).irqs = s.irqs := rfl
@[simp] theorem State.onDie_reply (s : State) (d : Nat) (f : DieSt → DieSt) : (s.onDie d f).reply = s.reply := rfl
@[simp] theorem State.onDie_agenda (s : State) (d : Nat) (f : DieSt → DieSt) : (s.onDie d f).agenda = s.agenda := rfl
@[simp] theorem State.onDie_cur (s : State) (d : Nat) (f : DieSt → DieSt) : (s.onDie d f).cur = s.cur := rfl
@[simp] theorem State.onDie_ecc (s : State) (d : Nat) (f : DieSt → DieSt) : (s.onDie d f).ecc = s.ecc := rfl
@[simp] theorem State.onDie_free (s : State) (d : Nat) (f : DieSt → DieSt) : (s.onDie d f).free = s.free := rfl
@[simp] theorem State.onDie_tick (s : State) (d : Nat) (f : DieSt → DieSt) : (s.onDie d f).tick = s.tick := rfl
@[simp] theorem State.onDie_nextId (s : State) (d : Nat) (f : DieSt → DieSt) : (s.onDie d f).nextId = s.nextId := rfl

/-! ### `State.wake` -/

@[simp] theorem State.wake_groups (s : State) :
    s.wake.groups = s.groups.map fun g => if g.wait = .blocked then { g with wait := .none } else g := rfl
@[simp] theorem State.wake_teams (s : State) : s.wake.teams = s.teams := rfl
@[simp] theorem State.wake_cores (s : State) : s.wake.cores = s.cores := rfl
@[simp] theorem State.wake_dies (s : State) : s.wake.dies = s.dies := rfl
@[simp] theorem State.wake_mem (s : State) : s.wake.mem = s.mem := rfl
@[simp] theorem State.wake_inflight (s : State) : s.wake.inflight = s.inflight := rfl
@[simp] theorem State.wake_ws (s : State) : s.wake.ws = s.ws := rfl
@[simp] theorem State.wake_pend (s : State) : s.wake.pend = s.pend := rfl
@[simp] theorem State.wake_launches (s : State) : s.wake.launches = s.launches := rfl
@[simp] theorem State.wake_cmds (s : State) : s.wake.cmds = s.cmds := rfl
@[simp] theorem State.wake_returns (s : State) : s.wake.returns = s.returns := rfl
@[simp] theorem State.wake_ctxs (s : State) : s.wake.ctxs = s.ctxs := rfl
@[simp] theorem State.wake_estates (s : State) : s.wake.estates = s.estates := rfl
@[simp] theorem State.wake_tlb (s : State) : s.wake.tlb = s.tlb := rfl
@[simp] theorem State.wake_walks (s : State) : s.wake.walks = s.walks := rfl
@[simp] theorem State.wake_invs (s : State) : s.wake.invs = s.invs := rfl
@[simp] theorem State.wake_icache (s : State) : s.wake.icache = s.icache := rfl
@[simp] theorem State.wake_blocks (s : State) : s.wake.blocks = s.blocks := rfl
@[simp] theorem State.wake_sideInfo (s : State) : s.wake.sideInfo = s.sideInfo := rfl
@[simp] theorem State.wake_pkg (s : State) : s.wake.pkg = s.pkg := rfl
@[simp] theorem State.wake_irqs (s : State) : s.wake.irqs = s.irqs := rfl
@[simp] theorem State.wake_reply (s : State) : s.wake.reply = s.reply := rfl
@[simp] theorem State.wake_agenda (s : State) : s.wake.agenda = s.agenda := rfl
@[simp] theorem State.wake_cur (s : State) : s.wake.cur = s.cur := rfl
@[simp] theorem State.wake_ecc (s : State) : s.wake.ecc = s.ecc := rfl
@[simp] theorem State.wake_free (s : State) : s.wake.free = s.free := rfl
@[simp] theorem State.wake_tick (s : State) : s.wake.tick = s.tick := rfl
@[simp] theorem State.wake_nextId (s : State) : s.wake.nextId = s.nextId := rfl

/-! ### `State.fresh` -/

@[simp] theorem State.fresh_fst (s : State) : s.fresh.1 = s.nextId := rfl
@[simp] theorem State.fresh_groups (s : State) : s.fresh.2.groups = s.groups := rfl
@[simp] theorem State.fresh_teams (s : State) : s.fresh.2.teams = s.teams := rfl
@[simp] theorem State.fresh_cores (s : State) : s.fresh.2.cores = s.cores := rfl
@[simp] theorem State.fresh_dies (s : State) : s.fresh.2.dies = s.dies := rfl
@[simp] theorem State.fresh_mem (s : State) : s.fresh.2.mem = s.mem := rfl
@[simp] theorem State.fresh_inflight (s : State) : s.fresh.2.inflight = s.inflight := rfl
@[simp] theorem State.fresh_ws (s : State) : s.fresh.2.ws = s.ws := rfl
@[simp] theorem State.fresh_pend (s : State) : s.fresh.2.pend = s.pend := rfl
@[simp] theorem State.fresh_launches (s : State) : s.fresh.2.launches = s.launches := rfl
@[simp] theorem State.fresh_cmds (s : State) : s.fresh.2.cmds = s.cmds := rfl
@[simp] theorem State.fresh_returns (s : State) : s.fresh.2.returns = s.returns := rfl
@[simp] theorem State.fresh_ctxs (s : State) : s.fresh.2.ctxs = s.ctxs := rfl
@[simp] theorem State.fresh_estates (s : State) : s.fresh.2.estates = s.estates := rfl
@[simp] theorem State.fresh_tlb (s : State) : s.fresh.2.tlb = s.tlb := rfl
@[simp] theorem State.fresh_walks (s : State) : s.fresh.2.walks = s.walks := rfl
@[simp] theorem State.fresh_invs (s : State) : s.fresh.2.invs = s.invs := rfl
@[simp] theorem State.fresh_icache (s : State) : s.fresh.2.icache = s.icache := rfl
@[simp] theorem State.fresh_blocks (s : State) : s.fresh.2.blocks = s.blocks := rfl
@[simp] theorem State.fresh_sideInfo (s : State) : s.fresh.2.sideInfo = s.sideInfo := rfl
@[simp] theorem State.fresh_pkg (s : State) : s.fresh.2.pkg = s.pkg := rfl
@[simp] theorem State.fresh_irqs (s : State) : s.fresh.2.irqs = s.irqs := rfl
@[simp] theorem State.fresh_reply (s : State) : s.fresh.2.reply = s.reply := rfl
@[simp] theorem State.fresh_agenda (s : State) : s.fresh.2.agenda = s.agenda := rfl
@[simp] theorem State.fresh_cur (s : State) : s.fresh.2.cur = s.cur := rfl
@[simp] theorem State.fresh_ecc (s : State) : s.fresh.2.ecc = s.ecc := rfl
@[simp] theorem State.fresh_free (s : State) : s.fresh.2.free = s.free := rfl
@[simp] theorem State.fresh_tick (s : State) : s.fresh.2.tick = s.tick := rfl
@[simp] theorem State.fresh_nextId (s : State) : s.fresh.2.nextId = s.nextId + 1 := rfl

end Sys2Proof.Machine
end

