-- ==== Sys2Proof/Laws/Issue.lean ====
section
/-! SUPPORT. Laws of issuing: what an instruction whose effect is known does to the state, and the general form of an
instruction that computes results in its lanes. -/

namespace Sys2Proof.Machine

/-! ### Finding the issuing group -/

theorem issueOf_some {s : State} {size : Nat} {gd : Guard} {u : Bool} {i : Iss} (h : s.issueOf size gd u = some i) :
    s.issuer = some (i.g, i.t, i.l, i.c) ∧ i.s = s ∧ i.size = size ∧ i.ex = i.g.executing gd u ∧ i.uni = u := by
  simp only [State.issueOf, Option.map_eq_some_iff] at h
  obtain ⟨⟨g, t, l, c⟩, h1, rfl⟩ := h
  exact ⟨h1, rfl, rfl, rfl, rfl⟩

theorem Issues.state {s size gd u nx i ctl} (h : Issues s size gd u nx i ctl) : i.s = s := (issueOf_some h.found).2.1

theorem Issues.ex {s size gd u nx i ctl} (h : Issues s size gd u nx i ctl) : i.ex = i.g.executing gd u :=
  (issueOf_some h.found).2.2.2.1

theorem Issues.uni {s size gd u nx i ctl} (h : Issues s size gd u nx i ctl) : i.uni = u :=
  (issueOf_some h.found).2.2.2.2

/-- An instruction with an executing lane does what its body says. -/
theorem issue_eq {s : State} {size : Nat} {gd : Guard} {u : Bool} {i : Iss} (h : s.issueOf size gd u = some i)
    (hl : i.ex ≠ []) (body : Iss → Except Stop Done) : issue s size gd u body = i.finish (body i) := by
  simp only [State.issueOf, Option.map_eq_some_iff] at h
  obtain ⟨⟨g, t, l, c⟩, h1, rfl⟩ := h
  simp only [issue, h1]
  rw [if_neg (by simpa using hl)]

/-- An instruction without an executing lane only advances (R26). -/
theorem issue_idle {s : State} {size : Nat} {gd : Guard} {u : Bool} {i : Iss} (h : s.issueOf size gd u = some i)
    (hl : i.ex = []) (body : Iss → Except Stop Done) :
    issue s size gd u body = i.finish (.ok { s := i.s, g := i.g }) := by
  simp only [State.issueOf, Option.map_eq_some_iff] at h
  obtain ⟨⟨g, t, l, c⟩, h1, rfl⟩ := h
  simp only [issue, h1]
  rw [if_pos (by simpa using hl)]

theorem Iss.finish_ok {i : Iss} {d : Done} {ctl : Ctl} (h : d.g.ctl.advance i.after d.next = some ctl) :
    i.finish (.ok d) = .next (d.s.commit d.g ctl d.region) := by simp [Iss.finish, h]

theorem Iss.finish_stall (i : Iss) (s : State) (w : Wait) :
    i.finish (.error (.stall s w)) = .next (s.setGroup { i.kept s with wait := w }) := rfl

theorem Iss.finish_cause {i : Iss} {s : State} {c : CauseRec} {moves : Bool}
    (h : outranked c.code = false ∨ moves = true ∨ (i.g.ctl.advance i.after .fall).isSome) :
    i.finish (.error (.cause s c moves)) = .next (s.raise (i.kept s) i.c.debugStop c i.hmask) := by
  simp only [Iss.finish]
  rw [if_neg]
  rcases h with h | h | h
  · simp [h]
  · simp [h]
  · simp [Option.isNone_iff_eq_none, Option.isSome_iff_ne_none.1 h]

/-- A completed instruction without a region entry changes its group alone. -/
theorem State.commit_plain (s : State) (g : Group) (ctl : Ctl) :
    s.commit g ctl false = (s.setGroup (g.goesOn ctl s.tick)).wake := rfl

theorem State.commit_region (s : State) (g : Group) (ctl : Ctl) :
    s.commit g ctl true = (s.setGroup (g.goesOn ctl s.tick).openRegion).wake := rfl

/-! ### Lanes that a result reaches -/

theorem Iss.reach_lt {i : Iss} {lane l : Nat} (hlane : lane < 32) (h : l ∈ i.reach lane) : l < 32 := by
  unfold Iss.reach at h
  split at h
  · exact maskLanes_lt h
  · simp_all

/-- At most one executing lane reaches a lane. -/
theorem Iss.reach_unique {i : Iss} {gd : Guard} {u : Bool} (hex : i.ex = i.g.executing gd u) (hu : i.uni = u)
    {a b l : Nat} (ha : a ∈ i.ex) (hb : b ∈ i.ex) (hal : l ∈ i.reach a) (hbl : l ∈ i.reach b) : a = b := by
  cases u with
  | false => simp [Iss.reach, hu] at hal hbl; exact hal.symm.trans hbl
  | true =>
    have hlen := executing_uniform_length i.g gd
    rw [← hex] at hlen
    match hE : i.ex with
    | [] => simp [hE] at ha
    | [x] => simp [hE] at ha hb; rw [ha, hb]
    | x :: y :: r => simp [hE] at hlen

/-! ### Writing back -/

section writeBack
variable {i : Iss} {l : Nat}

theorem Iss.foldl_preds (out : Nat → LaneOut) {n : BitVec 3} (hl : l < 32) : ∀ (ls : List Nat) (g : Group), ls.Nodup →
    (∀ a ∈ ls, ∀ b ∈ ls, l ∈ i.reach a → l ∈ i.reach b → a = b) →
    ((ls.map fun x => (x, out x)).foldl
      (fun (g : Group) o => o.2.preds.foldl (fun g p => g.setPreds p.1 (i.reach o.1) p.2) g) g).pred false n l =
      if n = 7 then true
      else ((ls.find? fun a => (i.reach a).contains l).bind fun a => lastPred (out a).preds n).getD (g.pred false n l)
  | [], g, _, _ => by by_cases hn : n = 7 <;> simp [hn, Group.pred]
  | x :: ls, g, hd, hu => by
    simp only [List.map_cons, List.foldl_cons]
    rw [Iss.foldl_preds out hl ls _ (List.nodup_cons.1 hd).2
      fun a ha b hb => hu a (by simp [ha]) b (by simp [hb]), Group.foldl_preds_pred hl]
    by_cases hn : n = 7
    · simp [hn]
    simp only [if_neg hn]
    by_cases hx : l ∈ i.reach x
    · have : ls.find? (fun a => (i.reach a).contains l) = none := by
        refine List.find?_eq_none.2 fun a ha hal => ?_
        have := hu x (by simp) a (by simp [ha]) hx (by simpa using hal)
        exact (List.nodup_cons.1 hd).1 (this ▸ ha)
      rw [this]; simp [hx]
    · simp [hx]

theorem Iss.foldl_flags (out : Nat → LaneOut) : ∀ (ls : List Nat) (g : Group), ls.Nodup →
    (∀ a ∈ ls, ∀ b ∈ ls, l ∈ i.reach a → l ∈ i.reach b → a = b) →
    look 0 ((ls.map fun x => (x, out x)).foldl
      (fun (g : Group) o => (i.reach o.1).foldl (fun g x => g.orFlags (o.2.flags ||| o.2.tflags) x) g) g).fpst l =
      match ls.find? fun a => (i.reach a).contains l with
      | some a => look 0 g.fpst l ||| ((out a).flags ||| (out a).tflags)
      | none => look 0 g.fpst l
  | [], g, _, _ => by simp
  | x :: ls, g, hd, hu => by
    simp only [List.map_cons, List.foldl_cons]
    rw [Iss.foldl_flags out ls _ (List.nodup_cons.1 hd).2
      fun a ha b hb => hu a (by simp [ha]) b (by simp [hb]), Group.foldl_orFlags_fpst]
    by_cases hx : l ∈ i.reach x
    · have : ls.find? (fun a => (i.reach a).contains l) = none := by
        refine List.find?_eq_none.2 fun a ha hal => ?_
        have := hu x (by simp) a (by simp [ha]) hx (by simpa using hal)
        exact (List.nodup_cons.1 hd).1 (this ▸ ha)
      rw [this]; simp [hx]
    · simp [hx]

theorem Iss.foldl_preds_same {β : Type} (π : Group → β) (h : ∀ (g : Group) p, π { g with p := p } = π g) :
    ∀ (os : List (Nat × LaneOut)) (g : Group), π (os.foldl
      (fun (g : Group) o => o.2.preds.foldl (fun g p => g.setPreds p.1 (i.reach o.1) p.2) g) g) = π g
  | [], _ => rfl
  | o :: os, g => by
    rw [List.foldl_cons, Iss.foldl_preds_same π h os]
    generalize o.2.preds = ps
    induction ps generalizing g with
    | nil => rfl
    | cons p ps ih => rw [List.foldl_cons, ih, Group.setPreds_same π h]

theorem Iss.foldl_flags_same {β : Type} (π : Group → β) (h : ∀ (g : Group) x, π { g with fpst := x } = π g) :
    ∀ (os : List (Nat × LaneOut)) (g : Group), π (os.foldl
      (fun (g : Group) o => (i.reach o.1).foldl (fun g x => g.orFlags (o.2.flags ||| o.2.tflags) x) g) g) = π g
  | [], _ => rfl
  | o :: os, g => by rw [List.foldl_cons, Iss.foldl_flags_same π h os, Group.foldl_orFlags_same π h]

end writeBack

/-- What the reads and the write-back of an instruction leave of its group. -/
theorem Iss.leaves_writeBack {i : Iss} {gd : Guard} {u : Bool} (hex : i.ex = i.g.executing gd u) (hu : i.uni = u)
    (ctl : Ctl) (srcs dsts : List Opnd) (out : Nat → LaneOut) :
    i.Leaves ctl srcs dsts out
      ((i.writeBack (i.g.gather srcs i.ex).2 dsts (i.ex.map fun l => (l, out l))).goesOn ctl i.s.tick) := by
  have hnd : i.ex.Nodup := hex ▸ nodup_executing ..
  have hlt : ∀ x ∈ i.ex, x < 32 := fun x hx => executing_lt (hex ▸ hx)
  have huq : ∀ l, ∀ a ∈ i.ex, ∀ b ∈ i.ex, l ∈ i.reach a → l ∈ i.reach b → a = b :=
    fun l a ha b hb => Iss.reach_unique hex hu ha hb
  have hmap : (i.ex.map fun l => (l, out l)).map (fun o => (o.1, o.2.out)) = i.ex.map fun l => (l, (out l).out) := by
    simp
  refine ⟨?_, fun n l hl => ?_, fun n => ?_, fun n l => ?_, fun n l hl => ?_, fun l => ?_⟩
  · have := (Iss.foldl_preds_same (i := i) Group.rest (fun _ _ => rfl) (i.ex.map fun l => (l, out l)) _).trans
      ((Group.giveOuts_same Group.rest (by simp) dsts ((i.ex.map fun l => (l, out l)).map fun o => (o.1, o.2.out)) _).trans
      ((Iss.foldl_flags_same (i := i) Group.rest (fun _ _ => rfl) (i.ex.map fun l => (l, out l))
        (i.g.gather srcs i.ex).2).trans (Group.gather_same Group.rest (by simp) srcs i.ex i.g)))
    have h2 : ∀ g g' : Group, g.rest = g'.rest → (g.goesOn ctl i.s.tick).rest = (g'.goesOn ctl i.s.tick).rest := by
      intro g g' h
      have : ∀ g : Group, (g.goesOn ctl i.s.tick).rest = g.rest.goesOn ctl i.s.tick := fun _ => rfl
      rw [this, this, h]
    exact h2 _ _ this
  · show (i.writeBack _ dsts _).vCell n.toNat l = _
    unfold Iss.writeBack
    rw [Iss.foldl_preds_same (fun g : Group => g.vCell n.toNat l) (fun _ _ => rfl), hmap,
      Group.giveOuts_vCell hl _ hlt, Iss.foldl_flags_same (fun g : Group => g.vCell n.toNat l) (fun _ _ => rfl),
      Group.gather_same (fun g : Group => g.vCell n.toNat l) (by simp [Group.vCell])]
    all_goals rfl
  · show (i.writeBack _ dsts _).sCell n.toNat = _
    unfold Iss.writeBack
    rw [Iss.foldl_preds_same (fun g : Group => g.sCell n.toNat) (fun _ _ => rfl), hmap,
      Group.giveOuts_sCell, Iss.foldl_flags_same (fun g : Group => g.sCell n.toNat) (fun _ _ => rfl),
      Group.gather_same (fun g : Group => g.sCell n.toNat) (by simp [Group.sCell])]
    all_goals rfl
  · show (i.writeBack _ dsts _).queue l n.toNat = _
    unfold Iss.writeBack
    rw [Iss.foldl_preds_same (fun g : Group => g.queue l n.toNat) (fun _ _ => rfl), hmap,
      Group.giveOuts_queue _ hnd, Iss.foldl_flags_same (fun g : Group => g.queue l n.toNat) (fun _ _ => rfl),
      Group.gather_queue _ _ _ _ _ hnd]
    by_cases h : l ∈ i.ex <;> simp [h]
  · show (i.writeBack _ dsts _).pred false n l = _
    unfold Iss.writeBack
    rw [Iss.foldl_preds out hl _ _ hnd (huq l),
      Group.giveOuts_same (fun g : Group => g.pred false n l) (by simp [Group.pred]),
      Iss.foldl_flags_same (fun g : Group => g.pred false n l) (fun _ _ => rfl),
      Group.gather_same (fun g : Group => g.pred false n l) (by simp [Group.pred])]
    rfl
  · show look 0 (i.writeBack _ dsts _).fpst l = _
    unfold Iss.writeBack
    rw [Iss.foldl_preds_same (fun g : Group => look 0 g.fpst l) (fun _ _ => rfl),
      Group.giveOuts_same (fun g : Group => look 0 g.fpst l) (by simp),
      Iss.foldl_flags out _ _ hnd (huq l), Group.gather_same (fun g : Group => look 0 g.fpst l) (by simp)]
    rfl

/-! ### The general form -/

/-- An instruction of the general form, whose checks pass and which traps no flag, completes (R36). -/
theorem issue_applyAll {s : State} {size : Nat} {gd : Guard} {u : Bool} {i : Iss} {ctl : Ctl}
    (h : Issues s size gd u .fall i ctl) {body : Iss → Except Stop Done} {srcs : List Field} {dsts : List Opnd}
    {f : List (Nat × List Datum) → List (Nat × LaneOut)} (hb : body i = i.applyAll srcs dsts f)
    {out : Nat → LaneOut}
    (ho : f (i.ex.map fun l => (l, i.g.reads (srcs.map (·.o)) l)) = i.ex.map fun l => (l, out l))
    (hr : i.ready srcs dsts = .ok ()) (ht : i.g.fpTrap (i.ex.map fun l => (l, out l)) = none) :
    ∃ g, issue s size gd u body = .next (s.setGroup g).wake ∧ i.Leaves ctl (srcs.map (·.o)) dsts out g := by
  have hnd : i.ex.Nodup := h.ex ▸ nodup_executing ..
  have hctl : ∀ os : List (Nat × LaneOut), (i.writeBack (i.g.gather (srcs.map (·.o)) i.ex).2 dsts os).ctl = i.g.ctl :=
    fun os => (Iss.foldl_preds_same (i := i) (·.ctl) (fun _ _ => rfl) _ _).trans
      ((Group.giveOuts_same (·.ctl) (fun g l o d => by cases o <;> rfl) _ _ _).trans
      ((Iss.foldl_flags_same (i := i) (·.ctl) (fun _ _ => rfl) _ _).trans
        (Group.gather_same (·.ctl) (fun g l o => congrArg (·.ctl) (Group.pop_rest g l o)) _ _ _)))
  refine ⟨_, ?_, Iss.leaves_writeBack h.ex h.uni ctl _ dsts out⟩
  rw [issue_eq h.found h.lanes, hb]
  have hf := Group.gather_fst (srcs.map (·.o)) i.ex i.g hnd
  simp only [Iss.applyAll, hr, bind, Except.bind, hf, ho, ht]
  rw [Iss.finish_ok (ctl := ctl) (by simpa only [hctl] using h.flow), State.commit_plain, h.state]

/-- The same of an instruction whose lanes compute apart. -/
theorem issue_apply {s : State} {size : Nat} {gd : Guard} {u : Bool} {i : Iss} {ctl : Ctl}
    (h : Issues s size gd u .fall i ctl) {body : Iss → Except Stop Done} {srcs : List Field} {dsts : List Opnd}
    {f : Nat → List Datum → LaneOut} (hb : body i = i.apply srcs dsts f) (hr : i.ready srcs dsts = .ok ())
    (ht : i.g.fpTrap (i.ex.map fun l => (l, f l (i.g.reads (srcs.map (·.o)) l))) = none) :
    ∃ g, issue s size gd u body = .next (s.setGroup g).wake ∧
      i.Leaves ctl (srcs.map (·.o)) dsts (fun l => f l (i.g.reads (srcs.map (·.o)) l)) g :=
  issue_applyAll h hb (by simp) hr ht

/-- Results without flags trap nothing. -/
theorem Group.fpTrap_none (g : Group) {outs : List (Nat × LaneOut)} (h : ∀ o ∈ outs, o.2.flags = 0) :
    g.fpTrap outs = none := by
  simp only [Group.fpTrap, List.findSome?_eq_none_iff, Option.map_eq_none_iff, List.find?_eq_none]
  intro c _ o ho
  simp [h o ho]

/-- In its own state an issuing group has made no further note. -/
theorem issueOf_kept {s : State} {size : Nat} {gd : Guard} {u : Bool} {i : Iss} (h : s.issueOf size gd u = some i) :
    i.kept s = i.g := by
  simp only [State.issueOf, Option.map_eq_some_iff] at h
  obtain ⟨⟨g, t, l, c⟩, h1, rfl⟩ := h
  simp only [State.issuer, bind, Option.bind_eq_some_iff] at h1
  obtain ⟨g', hg, t', -, l', -, c', -, h2⟩ := h1
  cases h2
  have hg : s.group? g.id = some g := (show g.id = s.cur by simpa using List.find?_some hg) ▸ hg
  simp only [Iss.kept, hg]

/-- The trap of R110 comes before any write. -/
theorem issue_applyAll_trap {s : State} {size : Nat} {gd : Guard} {u : Bool} {i : Iss}
    (hf : s.issueOf size gd u = some i) (hl : i.ex ≠ []) {body : Iss → Except Stop Done} {srcs : List Field}
    {dsts : List Opnd} {f : List (Nat × List Datum) → List (Nat × LaneOut)} (hb : body i = i.applyAll srcs dsts f)
    (hr : i.ready srcs dsts = .ok ()) {code : BitVec 8} {lane : Nat}
    (ht : i.g.fpTrap (f (i.ex.map fun l => (l, i.g.reads (srcs.map (·.o)) l))) = some (code, lane))
    (hn : (i.g.ctl.advance i.after .fall).isSome) :
    issue s size gd u body = .next (s.raise i.g i.c.debugStop { code := code, lane := lane } i.hmask) := by
  have hnd : i.ex.Nodup := (issueOf_some hf).2.2.2.1 ▸ nodup_executing ..
  have hs := (issueOf_some hf).2.1
  rw [issue_eq hf hl, hb]
  have hg := Group.gather_fst (srcs.map (·.o)) i.ex i.g hnd
  simp only [Iss.applyAll, hr, bind, Except.bind, hg, ht, Iss.cause]
  rw [Iss.finish_cause (.inr (.inr hn)), hs, issueOf_kept hf]

end Sys2Proof.Machine
end

