-- ==== Sys2Proof/Laws/Claims.lean ====
section
/-! SUPPORT. Laws of the vocabulary of claims: when an instruction of the general form does what a claim says. -/

namespace Sys2Proof.Claims

open Sys2Proof.Machine

/-- Quiet results trap nothing. -/
theorem fpTrap_of_quiet {i : Iss} {out : Nat → LaneOut} (h : Quiet i out) :
    i.g.fpTrap (i.ex.map fun l => (l, out l)) = none := by
  simp only [Group.fpTrap, List.findSome?_eq_none_iff, Option.map_eq_none_iff, List.find?_eq_none]
  intro c _ o ho
  obtain ⟨l, hl, rfl⟩ := List.mem_map.1 ho
  have := h l hl
  simp_all

/-- An instruction whose body is the general form, lane by lane, does what its results say. -/
theorem does_apply {ins : Instr} {size : Nat} {gd : Guard} {u : Bool} {srcs : List Field} {dsts : List Opnd}
    {out : Iss → Nat → List Datum → LaneOut} {body : Iss → Except Stop Done}
    (he : ∀ s, exec ins s = issue s size gd u body) {f : Iss → Nat → List Datum → LaneOut}
    (hb : ∀ i, body i = i.apply srcs dsts (f i))
    (hf : ∀ i l, f i l (i.g.reads (srcs.map (·.o)) l) = out i l (i.g.reads (srcs.map (·.o)) l)) :
    Does ins size gd u srcs dsts out := by
  intro s i ctl h hr hq
  have ht := fpTrap_of_quiet (i := i) (out := fun l => f i l (i.g.reads (srcs.map (·.o)) l))
    (by simpa only [hf] using hq)
  obtain ⟨g, h1, h2⟩ := issue_apply h (hb i) hr ht
  exact ⟨g, (he s).trans h1, by simpa only [hf] using h2⟩

/-- The same of an instruction whose lanes see one another. -/
theorem does_applyAll {ins : Instr} {size : Nat} {gd : Guard} {u : Bool} {srcs : List Field} {dsts : List Opnd}
    {out : Iss → Nat → List Datum → LaneOut} {body : Iss → Except Stop Done}
    (he : ∀ s, exec ins s = issue s size gd u body)
    {f : Iss → List (Nat × List Datum) → List (Nat × LaneOut)}
    (hb : ∀ i, body i = i.applyAll srcs dsts (f i))
    (hf : ∀ i, f i (i.ex.map fun l => (l, i.g.reads (srcs.map (·.o)) l)) =
      i.ex.map fun l => (l, out i l (i.g.reads (srcs.map (·.o)) l))) :
    Does ins size gd u srcs dsts out := by
  intro s i ctl h hr hq
  obtain ⟨g, h1, h2⟩ := issue_applyAll h (hb i) (hf i) hr (fpTrap_of_quiet hq)
  exact ⟨g, (he s).trans h1, h2⟩

/-- A lane reads one datum for each source. -/
theorem reads_length (g : Group) (lane : Nat) : ∀ os : List Opnd, (g.reads os lane).length = os.length := by
  intro os
  induction os generalizing g with
  | nil => rfl
  | cons o os ih => simpa [Group.reads, Group.takeAll] using ih (g.pop lane o)

end Sys2Proof.Claims
end

