-- ==== Sys2Proof/Laws/Writes.lean ====
section
/-! SUPPORT. What the operations on writes that are on their way keep: names given once, and coherence order (log 6). -/

namespace Sys2Proof.Machine

/-- The names of the writes on their way, and their order. -/
def Ranked (n : Nat) (ws : List InWrite) : Prop :=
  ((ws.map (·.id)).Nodup ∧ ∀ w ∈ ws, w.id < n) ∧
    (∀ w ∈ ws, w.arrived ≠ [] → w.placed = true) ∧ ws.Pairwise fun w x => x.placed = true → w.placed = true

theorem State.ranked_iff (s : State) : Ranked s.nextId s.inflight ↔ s.named ∧ s.ordered := Iff.rfl

/-- Writes that leave take nothing from the rest. -/
theorem Ranked.sublist {n : Nat} {ws vs : List InWrite} (h : vs.Sublist ws) (hr : Ranked n ws) : Ranked n vs :=
  ⟨⟨hr.1.1.sublist (h.map _), fun w hw => hr.1.2 w (h.subset hw)⟩, fun w hw => hr.2.1 w (h.subset hw), hr.2.2.sublist h⟩

/-- A change of other fields, and arrivals of writes that have their places. -/
theorem Ranked.map {n : Nat} {ws : List InWrite} (f : InWrite → InWrite) (hid : ∀ w, (f w).id = w.id)
    (hp : ∀ w, (f w).placed = w.placed) (ha : ∀ w ∈ ws, (f w).arrived ≠ [] → w.placed = true) (hr : Ranked n ws) :
    Ranked n (ws.map f) := by
  refine ⟨⟨?_, ?_⟩, ?_, ?_⟩
  · simpa [Function.comp_def, hid] using hr.1.1
  · simpa [hid] using hr.1.2
  · simpa [hp] using ha
  · simpa [List.pairwise_map, hp] using hr.2.2

/-- A new write, without a place, under the next name. -/
theorem Ranked.snoc {n : Nat} {ws : List InWrite} {w : InWrite} (hid : w.id = n) (hp : w.placed = false) (ha : w.arrived = [])
    (hr : Ranked n ws) : Ranked (n + 1) (ws ++ [w]) := by
  refine ⟨⟨?_, ?_⟩, ?_, ?_⟩
  · have : ∀ v ∈ ws, v.id ≠ n := fun v hv => (hr.1.2 v hv).ne
    simpa [List.nodup_append, hid, hr.1.1] using this
  · simpa [hid, or_imp, forall_and] using fun v hv => Nat.lt_succ_of_lt (hr.1.2 v hv)
  · simpa [or_imp, forall_and, ha] using hr.2.1
  · simpa [List.pairwise_append, hp] using hr.2.2

/-- `addWrite` keeps names and order. -/
theorem State.addWrite_ranked {s : State} {w : InWrite} (hp : w.placed = false) (ha : w.arrived = [])
    (h : Ranked s.nextId s.inflight) : Ranked (s.addWrite w).nextId (s.addWrite w).inflight := by
  simpa [State.addWrite, State.fresh] using Ranked.snoc (w := { w with id := s.nextId }) rfl hp ha h

/-- Owing writes to an extent changes nothing of their names and order. -/
theorem State.owe_ranked {s : State} (sc : Nat) (ids : List Nat) (h : Ranked s.nextId s.inflight) :
    Ranked (s.owe sc ids).nextId (s.owe sc ids).inflight :=
  Ranked.map (fun w => if ids.contains w.id then { w with owed := max w.owed sc } else w) (by intro w; split <;> rfl)
    (by intro w; split <;> rfl) (fun w hw => by split <;> exact h.2.1 w hw) h

/-- Writes with a place stand before those without. -/
theorem pairwise_placed {xs ys : List InWrite} (hx : ∀ x ∈ xs, x.placed = true) (hy : ∀ y ∈ ys, y.placed = false) :
    (xs ++ ys).Pairwise fun w x => x.placed = true → w.placed = true :=
  List.pairwise_append.2 ⟨List.pairwise_of_forall_mem_list fun w hw _ _ _ => hx w hw,
    List.pairwise_of_forall_mem_list fun _ _ x hx' h => by simp [hy x hx'] at h, fun w hw _ _ _ => hx w hw⟩

/-- A write of the list takes the last place. -/
theorem Ranked.place {n : Nat} {ws : List InWrite} {w : InWrite} (hw : w ∈ ws) (hr : Ranked n ws) :
    Ranked n ((ws.filter fun x => x.id ≠ w.id).filter (fun x : InWrite => x.placed) ++ [{ w with placed := true }] ++
      (ws.filter fun x => x.id ≠ w.id).filter fun x : InWrite => !x.placed) := by
  obtain ⟨⟨hn, hlt⟩, ha, -⟩ := hr
  set rest := ws.filter fun x => decide (x.id ≠ w.id) with hrest
  have hsub : rest.Sublist ws := List.filter_sublist
  have hne : ∀ x ∈ rest, x.id ≠ w.id := fun x hx => by simpa using (List.mem_filter.1 hx).2
  have hperm : (rest.filter (fun x : InWrite => x.placed) ++ [{ w with placed := true }] ++
      rest.filter fun x : InWrite => !x.placed).Perm
      ({ w with placed := true } :: rest) := by
    simpa using List.perm_middle.trans ((List.filter_append_perm (fun x : InWrite => x.placed) rest).cons _)
  have hmem : ∀ x ∈ rest.filter (fun x : InWrite => x.placed) ++ [{ w with placed := true }] ++
      rest.filter fun x : InWrite => !x.placed,
      x = { w with placed := true } ∨ x ∈ rest := fun x hx => by simpa using hperm.subset hx
  refine ⟨⟨?_, fun x hx => ?_⟩, fun x hx h => ?_, pairwise_placed ?_ ?_⟩
  · refine (hperm.map (·.id)).nodup_iff.2 (List.nodup_cons.2 ⟨?_, hn.sublist (hsub.map _)⟩)
    simpa using hne
  · obtain rfl | hx := hmem x hx
    exacts [hlt w hw, hlt x (hsub.subset hx)]
  · obtain rfl | hx := hmem x hx
    exacts [rfl, ha x (hsub.subset hx) h]
  · simp only [List.mem_append, List.mem_filter, List.mem_singleton]
    rintro x (⟨-, h⟩ | rfl)
    exacts [h, rfl]
  · simp

/-- A write takes its place without disturbing names and order. -/
theorem State.place_ranked {s : State} {id : Nat} (h : Ranked s.nextId s.inflight) :
    Ranked (s.place id).nextId (s.place id).inflight := by
  unfold State.place
  split
  · exact h
  next w hf =>
    split
    · exact h
    · obtain rfl : w.id = id := by simpa using List.find?_some hf
      generalize w.rels.filter _ = rs
      have h0 := Ranked.place (List.mem_of_find?_eq_some hf) h
      suffices H : ∀ (rs : List Rel) (t : State), Ranked t.nextId t.inflight →
          Ranked (rs.foldl (fun s r => s.owe r.sc (s.idsOf r)) t).nextId (rs.foldl (fun s r => s.owe r.sc (s.idsOf r)) t).inflight from
        H rs _ h0
      intro rs
      induction rs with
      | nil => exact fun t ht => ht
      | cons r rs ih => exact fun t ht => ih _ (t.owe_ranked _ _ ht)

/-- Performing a producer whose accesses have their values changes nothing. -/
theorem State.perform_performed {s : State} {id : Nat} (h : ∀ p, s.pend? id = some p → p.performed = true) :
    s.perform id = s := by
  unfold State.perform State.performPart
  split
  · rfl
  · rename_i p hp
    simp [h p hp]

/-- Owing no writes changes nothing. -/
theorem State.owe_nil (s : State) (sc : Nat) : s.owe sc [] = s := by
  cases s
  simp [State.owe]

/-- No name is that of a write on its way. -/
theorem State.onWay_nil (s : State) : s.onWay [] = [] := List.filter_eq_nil_iff.2 (by simp)

/-- A release side with nothing left to wait for is performed as it stands. -/
theorem State.fulfil_bears {s : State} {r : Rel} (h : s.bears? r = false) : s.fulfil r = some s := by
  simp only [State.bears?, Bool.or_eq_false_iff, Bool.not_eq_false', List.isEmpty_iff] at h
  obtain ⟨hi, hr⟩ := h
  have hp : ∀ ids : List Nat, (∀ id ∈ ids, id ∈ r.reads) → ids.foldl State.perform s = s := by
    intro ids
    induction ids with
    | nil => intro _; rfl
    | cons id ids ih =>
      intro hm
      rw [List.foldl_cons, State.perform_performed, ih fun x hx => hm x (List.mem_cons_of_mem _ hx)]
      intro p hp
      have hid : p.id = id := by simpa [State.pend?] using List.find?_some hp
      have := List.all_eq_true.1 hr p (List.mem_of_find?_eq_some hp)
      simpa [hid, hm id (List.mem_cons_self ..)] using this
  have hreads := hp ((s.pend.filter fun p => r.reads.contains p.id).map (·.id)) (by
    simp only [List.mem_map, List.mem_filter]
    rintro id ⟨p, ⟨-, hc⟩, rfl⟩
    simpa using hc)
  simp only [State.fulfil, hreads, hr, hi, State.performFor]
  split <;> simp_all [State.owe_nil, State.onWay_nil]

/-- So are release sides that have nothing left to wait for. -/
theorem State.fulfilAll_bears {s : State} {rs : List Rel} (h : ∀ r ∈ rs, s.bears? r = false) : s.fulfilAll rs = some s := by
  unfold State.fulfilAll
  induction rs with
  | nil => rfl
  | cons r rs ih =>
    rw [List.foldl_cons, Option.bind_some, State.fulfil_bears (h r (List.mem_cons_self ..))]
    exact ih fun x hx => h x (List.mem_cons_of_mem _ hx)

end Sys2Proof.Machine
end

