-- ==== Sys2Proof/Tests/Slice0.lean ====
section
/-! SUPPORT. Tests: refused ill-formed instructions, words of the manual's encodings, single steps, and for each statement
states that meet its hypotheses. -/

namespace Sys2Proof.Tests

open Sys2Proof.Machine Sys2Proof.Claims

set_option Elab.async false

/-! ### Fields -/

def g7 : Guard := ⟨false, 7⟩
def gP1 : Guard := ⟨false, 1⟩
def vv (n : BitVec 7) : Src := ⟨.v n, 0, false⟩
def ss (n : BitVec 6) : Src := ⟨.s n, 0, false⟩
def zz : Src := ⟨.zr, 0, false⟩
def fA (d : Opnd) (a b c : Src) (fn : BitVec 4 := 0) (fl : BitVec 3 := 0) (u : Bool := false) : FmtA :=
  ⟨g7, u, d, a, b, c, fn, fl⟩
def fB (d a : Opnd) (imm : W32) (u : Bool := false) : FmtB := ⟨g7, u, d, a, false, 0, imm⟩
def fX (g : Guard) (tgt : BitVec 24) (rc : BitVec 20) (d : Opnd) : FmtX := ⟨g, tgt, rc, d⟩
def fM (sz : BitVec 3) (ofs : BitVec 16) (a d : Opnd) (b : Opnd := .zr) : FmtM := ⟨g7, 0, false, false, 0, 0, sz, ofs, b, a, d⟩
def fMA (fn : BitVec 4) (a b d : Opnd) (ord : BitVec 2 := 0) : FmtMA := ⟨g7, 0, false, false, ord, 0, 2, fn, 0, b, a, d⟩
def fP (qid : BitVec 16) (sb : BitVec 6) (pf : BitVec 3) (slot : BitVec 8 := 0) : FmtP := ⟨g7, slot, qid, sb, pf⟩
def fT (td : BitVec 3) (sa sb sf : BitVec 6) (kc : Opnd) : FmtT := ⟨g7, 0, false, false, 0, false, 0, kc, sf, sb, sa, td⟩

/-! ### States -/

/-- A group of two active lanes at user level, resident on core 0 of die 0, in the launch that `withFetchWord` installs;
its data page is in the TLB. -/
def base : State :=
  let s := State.reset.installProgram
  { s with
    cur := 4, tlb := [⟨0, 0, 0, 0, 0x40000, true, true, true, none⟩, ⟨0, 0, 5, 0x50000, 0x40000, true, true, true, none⟩]
    groups := s.groups.map fun g => { g with ctl := Ctl.single 0 3, recorded := Ctl.single 0 3 } }
def withG (s : State) (f : Group → Group) : State := { s with groups := s.groups.map f }
def withT (s : State) (f : Team → Team) : State := { s with teams := s.teams.map f }
def withL (s : State) (f : Launch → Launch) : State := { s with launches := s.launches.map f }
def withC (s : State) (f : Ctx → Ctx) : State := { s with ctxs := s.ctxs.map fun c => (c.1, f c.2) }
def setS (s : State) (ws : List (Nat × W32)) : State :=
  withG s fun g => ws.foldl (fun g w => g.give 0 (.s (BitVec.ofNat 6 w.1)) (plain w.2)) g
def setV (s : State) (n : BitVec 7) (x : Nat → W32) : State :=
  withG s fun g => [0, 1].foldl (fun g l => g.give l (.v n) (plain (x l))) g
def onlyP1 (s : State) : State := withG s fun g => g.setPreds 1 [0] true
/-- The launch's record with other bytes. -/
def withRec (s : State) (at_ : Nat) (bs : List Byte) : State := withL s fun l => { l with record := splice l.record at_ bs }

/-! ### Checks -/

def isNext (r : Res) (p : State → Bool) : Bool := match r with
  | .next t => p t
  | _ => false
def eqNext (r : Res) (t : State) : Bool := isNext r fun s => decide (s = t)
def groupIs (r : Res) (p : Group → Bool) : Bool := isNext r fun t => (t.group? 4).any p
def traps (ins : Instr) (i : Iss) (code : BitVec 8) : Bool :=
  eqNext (exec ins i.s) (i.s.raise i.g i.c.debugStop { code := code } i.hmask)
def goes (ins : Instr) (i : Iss) (ctl : Ctl) : Bool := eqNext (exec ins i.s) (i.s.setGroup (i.g.goesOn ctl i.s.tick)).wake
def waits (ins : Instr) (i : Iss) : Bool := eqNext (exec ins i.s) (i.s.setGroup { i.g with wait := .blocked })
def ok (r : Except Stop Unit) : Bool := r.isOk

/-- An instruction issues, with this property. -/
def Shows (s : State) (size : Nat) (gd : Guard) (u : Bool) (nx : Iss → Next) (P : Iss → Ctl → Bool) : Prop :=
  ∃ i ctl, Issues s size gd u (nx i) i ctl ∧ P i ctl = true
def shows_ (s : State) (size : Nat) (gd : Guard) (u : Bool) (nx : Iss → Next) (P : Iss → Ctl → Bool) : Bool :=
  match s.issueOf size gd u with
  | none => false
  | some i => !i.ex.isEmpty && match i.g.ctl.advance i.after (nx i) with
    | none => false
    | some ctl => P i ctl
theorem shows_of {s size gd u nx P} (h : shows_ s size gd u nx P = true) : Shows s size gd u nx P := by
  unfold shows_ at h
  split at h
  · exact absurd h (by decide)
  · rename_i i hi
    simp only [Bool.and_eq_true, Bool.not_eq_true', List.isEmpty_eq_false_iff] at h
    obtain ⟨hx, h⟩ := h
    split at h
    · exact absurd h (by decide)
    · rename_i ctl hc
      exact ⟨i, ctl, ⟨hi, hx, hc⟩, h⟩

/-- What the issuing group finds has this property, and some lane executes. -/
def Finds (s : State) (size : Nat) (gd : Guard) (u : Bool) (P : Iss → Bool) : Prop :=
  ∃ i, s.issueOf size gd u = some i ∧ i.ex ≠ [] ∧ P i = true
def finds_ (s : State) (size : Nat) (gd : Guard) (u : Bool) (P : Iss → Bool) : Bool :=
  match s.issueOf size gd u with
  | none => false
  | some i => !i.ex.isEmpty && P i
theorem finds_of {s size gd u P} (h : finds_ s size gd u P = true) : Finds s size gd u P := by
  unfold finds_ at h
  split at h
  · exact absurd h (by decide)
  · rename_i i hi
    simp only [Bool.and_eq_true, Bool.not_eq_true', List.isEmpty_eq_false_iff] at h
    exact ⟨i, hi, h.1, h.2⟩

def fall (_ : Iss) : Next := .fall
def quiet (i : Iss) (out : Nat → LaneOut) : Bool := i.ex.all fun lane => (out lane).flags &&& look 0 i.g.fpte lane == 0
def mixed (i : Iss) : Bool := decide (i.ex ≠ maskLanes i.g.ctl.mask)
def agree (i : Iss) (o : Opnd) (x : W32) : Bool :=
  i.inBounds o && i.ex.all fun lane => i.g.isFull lane 0 o && (i.g.datum lane o).val == x

set_option maxRecDepth 100000

/-! ### Ill-formed instructions are refused (spec/01 R35): one for each check -/

/-- ISUB with a third source: an unused field is not ZR (R33). -/
theorem test_wf_unused_source : (Instr.isub (fA (.v 1) (vv 2) (vv 3) (vv 4))).wf = false := by decide
/-- IADD.U with a V source, and IADD with an S destination (R27). -/
theorem test_wf_uniform : (Instr.iadd (fA (.s 1) (vv 2) zz zz (u := true))).wf = false ∧
    (Instr.iadd (fA (.s 1) (vv 2) zz zz)).wf = false := by decide
/-- FN 1 of IADD, and FL[63] of IADD (Table 4.1). -/
theorem test_wf_functions : (Instr.iadd (fA (.v 1) (vv 2) zz zz 1)).wf = false ∧
    (Instr.iadd (fA (.v 1) (vv 2) zz zz 0 4)).wf = false := by decide
/-- A shift of 32 (R84), and a saturated high word (R81). -/
theorem test_wf_shift_and_high : (Instr.shli (fB (.v 1) (.v 2) 32)).wf = false ∧
    (Instr.imul (fA (.v 1) (vv 2) (vv 3) zz 1 2)).wf = false := by decide
/-- An odd pair (R88). -/
theorem test_wf_pairs : (Instr.iadd64 (fA (.v 1) (vv 2) (vv 4) zz)).wf = false ∧
    (Instr.lea (fA (.v 2) (vv 3) (vv 4) zz)).wf = false := by decide
/-- A negated destination predicate (R86). -/
theorem test_wf_selectors : (Instr.icmp ⟨g7, false, ⟨true, 1⟩, vv 1, vv 2, zz, 0, 0⟩).wf = false ∧
    (Instr.plop ⟨g7, false, ⟨true, 1⟩, ⟨false, 2⟩, 0, ⟨false, 3⟩, 0, zz, 0, 0⟩).wf = false := by decide
/-- DUAL with a count of 5, and with TM off the memory rows (R25, R130). -/
theorem test_wf_prefix : (Instr.fadd (some ⟨5, false⟩) (fA (.v 1) (vv 2) (vv 3) zz)).wf = false ∧
    (Instr.fadd (some ⟨1, true⟩) (fA (.v 1) (vv 2) (vv 3) zz)).wf = false := by decide
/-- BSCALE whose block leaves its class (R123), TSET of a queue (R134), FCVT with a third control (R124). -/
theorem test_wf_float : (Instr.bscale none (fA (.v 1) (vv 125) (vv 4) (vv 8))).wf = false ∧
    (Instr.tset (fA (.q 1) (vv 2) zz zz)).wf = false ∧
    (Instr.fcvt none (fA (.v 1) (vv 2) ⟨.zr, 2, false⟩ zz)).wf = false := by decide
/-- LD of SZ 5, of an odd base, with release, into a misaligned range, and lane-by-lane into an S register (R28, R137, R138). -/
theorem test_wf_loads : (Instr.ld none (fM 5 0 (.v 2) (.v 4))).wf = false ∧
    (Instr.ld none (fM 2 0 (.v 3) (.v 4))).wf = false ∧
    (Instr.ld none { fM 2 0 (.v 2) (.v 4) with ord := 2 }).wf = false ∧
    (Instr.ld none (fM 4 0 (.v 2) (.v 6))).wf = false ∧ (Instr.ld none (fM 2 0 (.v 2) (.s 4))).wf = false := by decide
/-- ST of 8 bytes from a queue (R138), ST with acquire (R146), SC 6 (R29). -/
theorem test_wf_stores : (Instr.st none (fM 3 0 (.v 2) (.q 1))).wf = false ∧
    (Instr.st none { fM 2 0 (.v 2) (.v 4) with ord := 1 }).wf = false ∧
    (Instr.st none { fM 2 0 (.v 2) (.v 4) with sc := 6 }).wf = false := by decide
/-- ATOM of one byte, FN 12, and a float add of 8 bytes (R143). -/
theorem test_wf_atomics : (Instr.atom none { fMA 0 (.v 2) (.v 4) (.v 5) with sz := 0 }).wf = false ∧
    (Instr.atom none (fMA 12 (.v 2) (.v 4) (.v 5))).wf = false ∧
    (Instr.atom none { fMA 9 (.v 2) (.v 4) (.v 6) with sz := 3 }).wf = false := by decide
/-- LDQ into a V register (R150), PFD with a destination (R152), QCFG of depth 9 (R151). -/
theorem test_wf_queues : (Instr.ldq none (fM 2 0 (.v 2) (.v 4))).wf = false ∧
    (Instr.pfd (fM 0 0 (.v 2) (.v 4))).wf = false ∧ (Instr.qcfg (fB (.q 1) .zr 9)).wf = false := by decide
/-- LDL with a core offset, LDT at device scope, STT with CH (R232 to R234, Table 12.4). -/
theorem test_wf_chip : (Instr.ldl none (fM 2 0 (.v 2) (.v 4) (.s 1))).wf = false ∧
    (Instr.ldt none { fM 2 0 (.v 2) (.v 4) with sc := 3 }).wf = false ∧
    (Instr.stt none { fM 2 0 (.v 2) (.v 4) with ch := 1 }).wf = false := by decide
/-- LXCH with W 6, PPOLL.MASK with FN 1, LRED of FN 8, LEQV of FN 2, LPICK into a V register (spec/08). -/
theorem test_wf_lanes : (Instr.lxch none (fA (.v 1) (vv 2) (vv 3) zz 0 6)).wf = false ∧
    (Instr.ppoll ⟨g7, false, .reg (.v 1), ⟨false, 1⟩, 0, zz, zz, 1, 0⟩).wf = false ∧
    (Instr.lred (fA (.v 1) (vv 2) zz zz 8)).wf = false ∧ (Instr.leqv (fA (.v 1) (vv 2) zz zz 2)).wf = false ∧
    (Instr.lpick none (fA (.v 1) (vv 2) (ss 3) zz)).wf = false := by decide
/-- BRA with a register, BRX from a queue, CALL with RC, LOOP with a body of 3 units, LBRK with RC (Table 4.7). -/
theorem test_wf_flow : (Instr.bra (fX g7 2 0 (.v 1))).wf = false ∧ (Instr.brx (fX g7 0 0 (.q 1))).wf = false ∧
    (Instr.call (fX g7 2 2 (.v 1))).wf = false ∧ (Instr.loop (fX g7 3 0 (.v 1))).wf = false ∧
    (Instr.lbrk (fX g7 0 1 .zr)).wf = false := by decide
/-- CLAIM whose status lies in its range (R211), EXIT.E past V127 (R206), EXIT with FN 1. -/
theorem test_wf_estates : (Instr.claim (fA (.v 5) zz (vv 4) zz 1)).wf = false ∧
    (Instr.exitE (fA .zr zz (vv 127) zz 1)).wf = false ∧ (Instr.exit (fA .zr zz zz zz 1)).wf = false := by decide
/-- TRAP with a register, WAITF with a modifier (R104), MFS of no register, MTS of a read-only one (R105, R106). -/
theorem test_wf_system : (Instr.trap (fB (.v 1) .zr 0)).wf = false ∧
    (Instr.waitf ⟨g7, false, none, ⟨.v 1, 1, false⟩, zz, zz, 0, 0⟩).wf = false ∧
    (Instr.mfs (fB (.v 1) .zr 0x00D)).wf = false ∧ (Instr.mts (fB .zr (.v 1) 0x042)).wf = false := by decide
/-- BARI lane by lane, BARW with a register number bit above the number (R194), PUSH of S49 and of an unlisted queue, GUARD of slot
0, TGRAB into S1, MLOOP of queue 2 (spec/09, spec/14, spec/15). -/
theorem test_wf_engines : (Instr.bari (fB (.s 2) .zr 0)).wf = false ∧ (Instr.barw (fB .zr .zr 0x400)).wf = false ∧
    (Instr.push (fP 0x2000 49 7)).wf = false ∧ (Instr.push (fP 0x0100 0 7)).wf = false ∧
    (Instr.guard (fP 0x2000 0 7 0)).wf = false ∧ (Instr.tgrab (fB (.s 1) .zr 0 (u := true))).wf = false ∧
    (Instr.mloop none { fT 0 0 0 0 .zr with mq := 2 }).wf = false ∧ (Instr.trel (fT 0 4 0 0 .zr)).wf = false := by decide

/-! ### Words written out from the encodings of the manual (spec/01 Tables 1.4 to 1.14), low unit first -/

/-- The instruction that two units decode to. -/
def decodes (lo hi : W32) (i : Instr) : Bool := match decode [lo, hi] with
  | .ok j => j == i
  | .error _ => false

/-- MOVI.U S2, 3; IADDI.U S12, S12, 8; SHLI V9, V9, 3. -/
theorem test_decode_format_b : decodes 0x2FF82721 3 (.movi (fB (.s 2) .zr 3 (u := true))) = true ∧
    decodes 0x28C8C703 8 (.iaddi (fB (.s 12) (.s 12) 8 (u := true))) = true ∧
    decodes 0x00909714 3 (.shli (fB (.v 9) (.v 9) 3)) = true := by decide +kernel
/-- IMAD.HI.UNS V10, V2, V3, V4; ICMP.LT.UNS P2, V5, S1; SEL V6, V1, V2, !P3. -/
theorem test_decode_format_a : decodes 0x3020A706 0x21000040 (.imad (fA (.v 10) (vv 2) (vv 3) (vv 4) 1 1)) = true ∧
    decodes 0x1050271D 0x22000FF8 (.icmp ⟨g7, false, ⟨false, 2⟩, vv 5, ss 1, zz, 2, 1⟩) = true ∧
    decodes 0x2010671F 0x000000B0 (.sel none ⟨g7, false, .v 6, vv 1, vv 2, ⟨true, 3⟩, 0, 0, 0⟩) = true := by decide +kernel
/-- ICMPI.EQ.U P2, S8, 2; ICMPI.GE P5, V2, -1; PLOP.ANDN P1, P2, !P4. -/
theorem test_decode_predicates : decodes 0x2880271E 2 (.icmpi ⟨g7, true, ⟨false, 2⟩, .s 8, false, 0, 2⟩) = true ∧
    decodes 0xC020571E 0xFFFFFFFF (.icmpi ⟨g7, false, ⟨false, 5⟩, .v 2, false, 3, 0xFFFFFFFF⟩) = true ∧
    decodes 0xC0201724 0x03000FF0 (.plop ⟨g7, false, ⟨false, 1⟩, ⟨false, 2⟩, 0, ⟨true, 4⟩, 0, zz, 3, 0⟩) = true := by
  decide +kernel
/-- FFMA.RZ.FTZ V10, V1, V2, V3; HADD2.BF16 V9, V3.b1, V4.x; BSCALE.B32 V20, V8, V12, V16; TSET.K1 V4, V9. -/
theorem test_decode_float : decodes 0x2010A733 0xA0000030 (.ffma none (fA (.v 10) (vv 1) (vv 2) (vv 3) 0 5)) = true ∧
    decodes 0x40309744 0x01035FF0 (.hadd2 none (fA (.v 9) ⟨.v 3, 5, false⟩ ⟨.v 4, 3, false⟩ zz 1)) = true ∧
    decodes 0xC081474C 0x01000100 (.bscale none (fA (.v 20) (vv 8) (vv 12) (vv 16) 1)) = true ∧
    decodes 0xF0904759 0x01000FFF (.tset (fA (.v 4) (vv 9) zz zz 1)) = true := by decide +kernel
/-- DUAL with N = 2 before FADD.RZ V2, V0, V1; the word alone is the instruction without it (R24). -/
theorem test_decode_prefix :
    (match decode [0x000002F1, 0x10002730, 0x20000FF0] with
      | .ok j => j == .fadd (some ⟨2, false⟩) (fA (.v 2) (vv 0) (vv 1) zz 0 1)
      | .error _ => false) = true ∧
    decodes 0x10002730 0x20000FF0 (.fadd none (fA (.v 2) (vv 0) (vv 1) zz 0 1)) = true := by decide +kernel
/-- LD.128.U S48, [S4]; ST.32.REL.DEV.MCA [V10-8], V12; LDQ.32.STRM Q2, [V4+128]; STT.32.REL.CLU [V4+256], V9, S6. -/
theorem test_decode_format_m :
    decodes 0xF84B0760 0x1040000F (.ld none { fM 4 0 (.s 4) (.s 48) with u := true }) = true ∧
    decodes 0xF0A0C761 0x2A2FFF8F (.st none ⟨g7, 0, true, false, 2, 4, 2, 0xFFF8, .zr, .v 10, .v 12⟩) = true ∧
    decodes 0xF04C2764 0x4020080F (.ldq none { fM 2 128 (.v 4) (.q 2) with ch := 1 }) = true ∧
    decodes 0x60409766 0x09201008 (.stt none ⟨g7, 0, false, false, 2, 2, 2, 256, .s 6, .v 4, .v 9⟩) = true := by
  decide +kernel
/-- CAS.64.AR.SYS V20, [V2-8], V22; ATOM.FADD.32.REL.DEV.MCA V4, [V8], V5. -/
theorem test_decode_format_ma :
    decodes 0x60214763 0x0EB0FF81 (.cas ⟨g7, 0, false, false, 3, 5, 3, 0, 0xFF8, .v 22, .v 2, .v 20⟩) = true ∧
    decodes 0x50804762 0x2A290000 (.atom none ⟨g7, 0, true, false, 2, 4, 2, 9, 0, .v 5, .v 8, .v 4⟩) = true := by
  decide +kernel
/-- (!P2) BRA of 10 units; (P1) BRA of 6 units, joined after 8; LOOP S2 of 52 units; CALL S10 of 0xC0 units; RET S10. -/
theorem test_decode_format_x : decodes 0x000FFA80 0x00000A00 (.bra (fX ⟨true, 2⟩ 10 0 .zr)) = true ∧
    decodes 0x008FF180 0x00000600 (.bra (fX gP1 6 8 .zr)) = true ∧
    decodes 0x00082784 0x00003400 (.loop (fX g7 52 0 (.s 2))) = true ∧
    decodes 0x0008A782 0x0000C000 (.call (fX g7 0xC0 0 (.s 10))) = true ∧
    decodes 0x0008A783 0 (.ret (fX g7 0 0 (.s 10))) = true := by decide +kernel
/-- LBRK, TRET, REGION, YIELD. -/
theorem test_decode_bare_flow : decodes 0x000FF785 0 (.lbrk (fX g7 0 0 .zr)) = true ∧
    decodes 0x000FF789 0 (.tret (fX g7 0 0 .zr)) = true ∧ decodes 0x000FF78A 0 (.region (fX g7 0 0 .zr)) = true ∧
    decodes 0x000FF78B 0 (.yield (fX g7 0 0 .zr)) = true := by decide +kernel
/-- LXCH.XOR.W8 V7, V6, S1; PPOLL.MASK S4, !P3; LPICK S7, V12, S0. -/
theorem test_decode_lanes : decodes 0x10607770 0x43000FF8 (.lxch none (fA (.v 7) (vv 6) (ss 1) zz 3 2)) = true ∧
    decodes 0xF0B84771 0x02000FFF (.ppoll ⟨g7, false, .reg (.s 4), ⟨true, 3⟩, 0, zz, zz, 2, 0⟩) = true ∧
    decodes 0x00C87774 0x00000FF8 (.lpick none (fA (.s 7) (vv 12) (ss 0) zz)) = true := by decide +kernel
/-- EXIT V3; EXIT.E V3, V10, 2, V20; CLAIM V2, V20, V10, 2. -/
theorem test_decode_estates : decodes 0xF03FF786 0x00000FFF (.exit (fA .zr (vv 3) zz zz)) = true ∧
    decodes 0xA03FF786 0x01000140 (.exitE (fA .zr (vv 3) (vv 10) (vv 20) 1)) = true ∧
    decodes 0xA1402787 0x01000FF0 (.claim (fA (.v 2) (vv 20) (vv 10) zz 1)) = true := by decide +kernel
/-- MFS V3, QOCC.3; MTS FPTE, V7; QCFG Q3, 2; BARI.U B5, 64, S10; BART P2, B5, 1; FBAR.U 7, B3; TGRAB.U S8, 3. -/
theorem test_decode_system : decodes 0x0FF037D0 0xC3 (.mfs (fB (.v 3) .zr 0xC3)) = true ∧
    decodes 0x007FF7D1 0x81 (.mts (fB .zr (.v 7) 0x81)) = true ∧
    decodes 0x0FFC376C 2 (.qcfg (fB (.q 3) .zr 2)) = true ∧
    decodes 0x2FF8A790 0x00400005 (.bari (fB (.s 10) .zr 0x00400005 (u := true))) = true ∧
    decodes 0x0FF02793 0x00010005 (.bart ⟨g7, false, ⟨false, 2⟩, .zr, false, 0, 0x00010005⟩) = true ∧
    decodes 0x2FFFF795 0x00070003 (.fbar (fB .zr .zr 0x00070003 (u := true))) = true ∧
    decodes 0x2FF887C0 3 (.tgrab (fB (.s 8) .zr 3 (u := true))) = true := by decide +kernel
/-- PUSH P7, CE.5, S32, 9; PUSH P3, XE.2, S16, 5; WPW P1, CE.5, S48; GUARD P7, CE.5, S3, 9. -/
theorem test_decode_format_p : decodes 0x002077A0 0x00090005 (.push (fP 5 32 7 9)) = true ∧
    decodes 0x001037A0 0x00051002 (.push (fP 0x1002 16 3 5)) = true ∧
    decodes 0x003017A1 0x00000005 (.wpw (fP 5 48 1)) = true ∧
    decodes 0x000377A2 0x00090005 (.guard (fP 5 3 7 9)) = true := by decide +kernel
/-- MLOOP.ACC.Q1 T2, S8, S12, S14, S20; MZERO T1; MST T0, S24. -/
theorem test_decode_format_t :
    decodes 0xE30827B3 0x00020650 (.mloop none { fT 2 8 12 14 (.s 20) with acc := true, mq := 1 }) = true ∧
    decodes 0x000017B2 0x000003FC (.mzero none (fT 1 0 0 0 .zr)) = true ∧
    decodes 0x001807B4 0x000003FC (.mst none (fT 0 24 0 0 .zr)) = true := by decide +kernel
/-- A prefix unit that no table lists, a reserved operand, an undefined opcode, a set bit that must be zero (R25, R31, R29). -/
theorem test_decode_refuses : (decode [0xF0, 0, 0]).isOk = false ∧ (decode [0x28CD0703, 8]).isOk = false ∧
    (decode [0, 0]).isOk = false ∧ (decode [0x002077A0, 0x01090005]).isOk = false := by decide +kernel

/-! ### Single steps; the results are worked out by hand from the rules -/

/-- What V3 holds in lane 0 after an instruction on V1 and V2. -/
def result (ins : Instr) (a b : W32) : W32 :=
  let s := setV (setV base 1 fun _ => a) 2 fun _ => b
  match exec ins s with
  | .next t => ((t.group? 4).map fun (g : Group) => (g.vCell 3 0).d.val).getD 0
  | _ => 0

/-- R81: addition wraps, and saturates with SAT; the high word of -1 times 2, signed and unsigned. -/
theorem test_add_and_mul : result (.iadd (fA (.v 3) (vv 1) (vv 2) zz)) 0xFFFFFFFF 1 = 0 ∧
    result (.iadd (fA (.v 3) (vv 1) (vv 2) zz 0 2)) 0x7FFFFFFF 1 = 0x7FFFFFFF ∧
    result (.imul (fA (.v 3) (vv 1) (vv 2) zz 1)) 0xFFFFFFFF 2 = 0xFFFFFFFF ∧
    result (.imul (fA (.v 3) (vv 1) (vv 2) zz 1 1)) 0xFFFFFFFF 2 = 1 := by decide +kernel
/-- R84: shifts by 32 and more; a rotation by 33 is one by 1. -/
theorem test_shifts : result (.shl (fA (.v 3) (vv 1) (vv 2) zz)) 1 32 = 0 ∧
    result (.sar (fA (.v 3) (vv 1) (vv 2) zz)) 0x80000000 40 = 0xFFFFFFFF ∧
    result (.rotl (fA (.v 3) (vv 1) (vv 2) zz)) 0x80000000 33 = 1 := by decide +kernel
/-- R85: the signed field of 4 bits at 4 of 0x80, the zero-extended one, and counts. -/
theorem test_bit_fields : result (.bfe (fA (.v 3) (vv 1) (vv 2) zz)) 0x80 0x0404 = 0xFFFFFFF8 ∧
    result (.bfe (fA (.v 3) (vv 1) (vv 2) zz 0 1)) 0x80 0x0404 = 8 ∧
    result (.clz (fA (.v 3) (vv 1) zz zz)) 1 0 = 31 ∧ result (.brev (fA (.v 3) (vv 1) zz zz)) 1 0 = 0x80000000 := by
  decide +kernel
/-- R111: 1 + 1, and 1 + 2^-24, which a tie rounds to even. -/
theorem test_float_add : result (.fadd none (fA (.v 3) (vv 1) (vv 2) zz)) 0x3F800000 0x3F800000 = 0x40000000 ∧
    result (.fadd none (fA (.v 3) (vv 1) (vv 2) zz)) 0x3F800000 0x33800000 = 0x3F800000 := by decide +kernel
/-- R111, R126: 6 divided by 3, the product of 3 and 0.5, and 3 as FP32. -/
theorem test_float_ops : result (.fdiv none (fA (.v 3) (vv 1) (vv 2) zz)) 0x40C00000 0x40400000 = 0x40000000 ∧
    result (.fmul none (fA (.v 3) (vv 1) (vv 2) zz)) 0x40400000 0x3F000000 = 0x3FC00000 ∧
    result (.i2f (fA (.v 3) (vv 1) zz zz)) 3 0 = 0x40400000 := by decide +kernel
/-- R127: F2I of 2.5 (a tie, to even), of a NaN, of 2^31, of minus infinity; unsigned of -1 and of 3 * 2^30. -/
theorem test_f2i : result (.f2i (fA (.v 3) (vv 1) zz zz)) 0x40200000 0 = 2 ∧
    result (.f2i (fA (.v 3) (vv 1) zz zz)) 0x7FC00000 0 = 0 ∧
    result (.f2i (fA (.v 3) (vv 1) zz zz)) 0x4F000000 0 = 0x7FFFFFFF ∧
    result (.f2i (fA (.v 3) (vv 1) zz zz)) 0xFF800000 0 = 0x80000000 ∧
    result (.f2i (fA (.v 3) (vv 1) zz zz 1)) 0xBF800000 0 = 0 ∧
    result (.f2i (fA (.v 3) (vv 1) zz zz 1)) 0x4F400000 0 = 0xC0000000 := by decide +kernel
/-- R121: four products of 8-bit elements and the third source: 1*1 + 2*2 + 3*3 + (-1)*1 = 13. -/
theorem test_dot : result (.dp4 (fA (.v 3) (vv 1) (vv 2) zz)) 0xFF030201 0x01030201 = 13 := by decide +kernel
/-- R93: CALL writes the offset of the next word and goes to its target. -/
theorem test_call : groupIs (exec (.call (fX g7 0xC0 0 (.v 3))) base) (fun g =>
    (g.vCell 3 0).d.val == 8 && g.ctl.pc == 0x300) = true := by decide +kernel
/-- R82: of the least number. -/
theorem test_abs : result (.iabs (fA (.v 3) (vv 1) zz zz)) 0x80000000 0 = 0x80000000 ∧
    result (.iabs (fA (.v 3) (vv 1) zz zz 0 2)) 0x80000000 0 = 0x7FFFFFFF := by decide +kernel
/-- The first step after `withFetchWord` runs the word: MOVI.U S2, 3. -/
theorem test_step : groupIs (step (State.reset.withFetchWord 64 0x000000032FF82721)) (fun g =>
    (g.sCell 2).d.val == 3 && g.ctl.pc == 8) = true := by decide +kernel

/-! ### States that meet the hypotheses: instructions that complete at once -/

/-- One, two, three sources and a destination, lane by lane. -/
theorem witness_integerInstructions : Shows base 8 g7 false fall fun i _ =>
    ok (i.ready [(vv 1).field, (vv 2).field, (vv 4).field] [.v 3]) && quiet i fun _ => one 0 := shows_of (by decide +kernel)
/-- The guards of IntegerArithmetic and LogicAndShifts on the fields alone. -/
theorem witness_integerFields : (fA (.v 3) (vv 1) (vv 2) zz 0).fn = 0 ∧ (fA (.v 3) (vv 1) (vv 2) zz 1).fn = 1 ∧
    ((fA (.v 3) (vv 1) (vv 2) zz 1 2).fl.getLsbD 1 = true ∧ (fA (.v 3) (vv 1) (vv 2) zz 1 2).fn = 1) ∧
    31 < (fB (.v 3) (.v 1) 32).imm.toNat := by decide
/-- A uniform form, and one with a prefix. -/
theorem witness_bitFieldsComparesAndMoves :
    (Shows base 8 g7 true fall fun i _ => ok (i.ready [(ss 1).field, (ss 2).field] [.s 3]) && quiet i fun _ => one 0) ∧
    (Shows base (dualSize (some ⟨2, false⟩)) g7 false fall fun i _ =>
      ok (i.ready [(vv 1).field, (vv 2).field] [.v 3]) && quiet i fun _ => one 0) ∧
    (⟨g7, false, ⟨false, 2⟩, vv 1, vv 2, zz, 5, 0⟩ : FmtAP).fn.toNat < 6 :=
  ⟨shows_of (by decide +kernel), shows_of (by decide +kernel), by decide⟩
theorem witness_addressesAndPredicates :
    (Shows base 8 g7 false fall fun i _ =>
      ok (i.ready (((vv 2).o.range 2 ++ (vv 4).o.range 2).map fun o => ⟨o, false⟩) ((Opnd.v 6).range 2)) &&
        quiet i fun _ => one 0) ∧
    (vv 2).o.isQueue = false ∧ zz.o.isQueue = false ∧
    (⟨g7, false, ⟨false, 1⟩, ⟨false, 2⟩, 0, ⟨true, 4⟩, 0, zz, 3, 0⟩ : FmtPlop).fn.toNat < 4 :=
  ⟨shows_of (by decide +kernel), by decide, by decide, by decide⟩
/-- FADD of 1 and 2^-24 is inexact, and quiet while FPTE is 0. -/
theorem witness_floatingPoint :
    Shows (setV (setV base 1 fun _ => 0x3F800000) 2 fun _ => 0x33800000) (dualSize none) g7 false fall fun i _ =>
      let out (lane : Nat) : LaneOut :=
        let ds := i.g.reads [.v 1, .v 2] lane
        arithOut .add lay32 0 false 0 (words [vv 1, vv 2] ds) (tansOf ds)
      ok (i.ready ([vv 1, vv 2].map Src.field) [.v 3]) && quiet i out && (out 0).flags != 0 := shows_of (by decide +kernel)
/-- FSQRT of 4; the blocks of BSCALE. -/
theorem witness_functionsAndDotProducts :
    (Shows (setV base 1 fun _ => 0x40800000) (dualSize none) g7 false fall fun i _ =>
      ok (i.ready [(vv 1).field] [.v 3]) &&
        quiet i fun lane => unaryOut .sqrt 0 false 0 (i.g.datum lane (.v 1)).val fun _ => 0) ∧
    (Shows base (dualSize none) g7 false fall fun i _ =>
      ok (i.ready (blockFields (vv 8) ++ blockFields (vv 12) ++ [(vv 16).field, ⟨.v 3, false⟩]) [.v 3]) &&
        quiet i fun _ => dotOut e4m3 8 0 false 0 one32 [0, 0, 0, 0] [0, 0, 0, 0] 0 (fun _ => []) (fun _ => []) fun _ => 0) :=
  ⟨shows_of (by decide +kernel), shows_of (by decide +kernel)⟩
/-- PACK2 of integers at both limits, and F2I. -/
theorem witness_conversions :
    (Shows base (dualSize none) g7 false fall fun i _ =>
      ok (i.ready [(vv 1).field, (vv 2).field] [.v 3]) && quiet i fun _ => one 0) ∧
    (Shows base 8 g7 false fall fun i _ =>
      ok (i.ready [(vv 1).field] [.v 3]) && quiet i fun _ => floatToInt 0 false (-2 ^ 31) (2 ^ 31 - 1) 0x3F800000) ∧
    (fA (.v 3) (vv 1) (vv 2) zz 0).fn = 0 ∧ (fA (.v 3) (vv 1) (vv 2) zz 2).fn = 2 :=
  ⟨shows_of (by decide +kernel), shows_of (by decide +kernel), by decide, by decide⟩
/-- TSET reads its destination; CRND with a V destination. -/
theorem witness_tangentsAndRandomBits :
    (Shows base 8 g7 false fall fun i _ =>
      ok (i.ready [(vv 1).field, ⟨.v 3, false⟩] [.v 3]) && quiet i fun _ => one 0) ∧
    (fA (.v 3) (vv 1) zz zz 3).fn.toNat < 4 ∧
    (Shows base 8 g7 false fall fun i _ => ok (i.ready [(vv 1).field, (vv 2).field] [.v 3])) ∧
    (Opnd.v 3 ≠ .zr ∧ (vv 1).o.isQueue = false) :=
  ⟨shows_of (by decide +kernel), by decide, shows_of (by decide +kernel), by decide⟩

/-- The first flag that lane 0 raises and enables is the `n`th of the order of R110, and FADD then traps. -/
def firstFlag (s : State) (n : Nat) : Prop := Shows s (dualSize none) g7 false fall fun i _ =>
  let out (lane : Nat) : LaneOut :=
    let ds := i.g.reads [.v 1, .v 2] lane
    arithOut .add lay32 0 false (i.tans none) (words [vv 1, vv 2] ds) (tansOf ds)
  match flagOrder[n]? with
  | none => false
  | some (bit, code) => ok (i.ready ([vv 1, vv 2].map Src.field) [.v 3]) &&
    decide (0 ∈ i.ex ∧ (out 0).flags &&& look 0 i.g.fpte 0 &&& bit ≠ 0 ∧
      (∀ l ∈ i.ex, ∀ f ∈ flagOrder.take n, (out l).flags &&& look 0 i.g.fpte l &&& f.1 = 0) ∧
      ∀ l ∈ i.ex, l < 0 → (out l).flags &&& look 0 i.g.fpte l &&& bit = 0) &&
    eqNext (exec (.fadd none (fA (.v 3) (vv 1) (vv 2) zz)) s)
      (s.raise i.g i.c.debugStop { code := code, lane := 0 } i.hmask)
def enabled (s : State) : State := withG s fun g => { g with fpte := [(0, 0x1F), (1, 0x1F)] }
/-- Infinity minus infinity is invalid, the first of the order; 1 + 2^-24 is inexact, the last. -/
theorem witness_preciseFloatingTraps :
    firstFlag (enabled (setV (setV base 1 fun _ => 0x7F800000) 2 fun _ => 0xFF800000)) 0 ∧
    firstFlag (enabled (setV (setV base 1 fun _ => 0x3F800000) 2 fun _ => 0x33800000)) 4 :=
  ⟨shows_of (by decide +kernel), shows_of (by decide +kernel)⟩
/-- LXCH and LRED of two lanes; PPOLL into a predicate and into a register. -/
theorem witness_laneInstructions : (Shows base (dualSize none) g7 false fall fun i _ =>
      ok (i.ready [(vv 1).field, (ss 2).field] [.v 3]) && quiet i fun _ => one 0) ∧
    (Shows (onlyP1 base) 8 gP1 false fall fun i _ => ok (i.ready [] [.s 3]) && quiet i fun _ => one 0) :=
  ⟨shows_of (by decide +kernel), shows_of (by decide +kernel)⟩

/-! ### Flow -/

/-- The group at an address, in a loop or in none, with P1 true in lane 0. -/
def at_ (pc : CodeAt) (loops : List LoopEnt := []) : State :=
  onlyP1 (withG base fun g => { g with ctl := { Ctl.single pc 3 with loops := loops } })

/-- A branch of all lanes; of one lane, without and with a reconvergence address; BRX to an agreed target. -/
theorem witness_branches :
    (Finds (at_ 0x40) 8 g7 false fun i => !mixed i && agree i (.v 5) 0 &&
      (i.g.ctl.advance 0x48 (.branch (ahead 0x40 6))).any fun ctl => goes (.bra (fX g7 6 0 .zr)) i ctl) ∧
    (Finds (at_ 0x40) 8 gP1 false fun i => mixed i && traps (.bra (fX gP1 6 0 .zr)) i 0x01) ∧
    (Finds (at_ 0x40) 8 gP1 false fun i => mixed i && agree i (.v 5) 0 && match i.g.ctl.div with
      | [] => false
      | top :: es =>
        let w := fX gP1 6 8 .zr
        let join := ahead 0x40 8
        decide (w.rc ≠ 0 ∧ top.rcv = none ∧ i.g.ctl.div.length < 255 ∧ i.g.ctl.loops = []) &&
        (Ctl.settle ({ pc := 0x48, mask := i.g.ctl.mask &&& ~~~(laneMask i.ex), rcv := some join, loops := [] } ::
          { pc := ahead 0x40 6, mask := laneMask i.ex, rcv := some join, loops := [] } ::
          { top with pc := join, join := true } :: es) [] 0x48).any fun ctl => goes (.bra w) i ctl) :=
  ⟨finds_of (by decide +kernel), finds_of (by decide +kernel), finds_of (by decide +kernel)⟩
/-- A split inside a loop, with the target at its start and the join at its end. -/
theorem witness_branches_in_loop :
    Finds (at_ 0x40 [⟨0x40, 0x60, 2⟩]) 8 gP1 false fun i => mixed i && match i.g.ctl.loops, i.g.ctl.div with
      | [l], top :: es =>
        let w := fX gP1 0 8 .zr
        let join := ahead 0x40 8
        decide (l.start ≤ (0x40 : CodeAt) ∧ (0x40 : CodeAt) < l.fin ∧ (0x40 : CodeAt) < join ∧ join ≤ l.fin) &&
        (Ctl.settle ({ pc := 0x48, mask := i.g.ctl.mask &&& ~~~(laneMask i.ex), rcv := some join, loops := [l] } ::
          { pc := 0x40, mask := laneMask i.ex, rcv := some join, loops := [l] } ::
          { top with pc := join, join := true } :: es) [l] 0x48).any fun ctl => goes (.bra w) i ctl
      | _, _ => false := finds_of (by decide +kernel)
/-- CALL, RET to offset 0, and both under a guard that divides the lanes. -/
theorem witness_callsAndReturns :
    (Shows (at_ 0x40) 8 g7 false (fun i => .jump (ahead i.g.ctl.pc 0xC0)) fun i _ => !mixed i && ok (i.ready [] [.v 3])) ∧
    (Shows (at_ 0x40) 8 g7 false (fun _ => .jump 0) fun i ctl =>
      !mixed i && agree i (.v 5) 0 && goes (.ret (fX g7 0 0 (.v 5))) i ctl) ∧
    (Finds (at_ 0x40) 8 gP1 false fun i => mixed i && traps (.call (fX gP1 6 0 (.v 5))) i 0x01 &&
      traps (.ret (fX gP1 0 0 (.v 5))) i 0x01) :=
  ⟨shows_of (by decide +kernel), shows_of (by decide +kernel), finds_of (by decide +kernel)⟩

def loopX (g : Guard := g7) : FmtX := fX g 8 0 (.v 5)
def four : List LoopEnt := [⟨8, 0x100, 2⟩, ⟨8, 0x100, 2⟩, ⟨8, 0x100, 2⟩, ⟨8, 0x100, 2⟩]
/-- LOOP: under a dividing guard, with disagreeing counts, a count of 0 and of 3; with four loops open; past the end of the loop
around it, and up to it. -/
theorem witness_loopInstructions_loop :
    (Finds (at_ 0x40) 8 gP1 false fun i => mixed i && i.inBounds (.v 5) && traps (.loop (loopX gP1)) i 0x04) ∧
    (Finds (setV (at_ 0x40) 5 fun l => BitVec.ofNat 32 l) 8 g7 false fun i => !mixed i &&
      (i.g.datum 0 (.v 5)).val != (i.g.datum 1 (.v 5)).val && (i.ex.all fun l => i.g.isFull l 0 (.v 5)) && i.inBounds (.v 5) && traps (.loop loopX) i 0x04) ∧
    (Finds (at_ 0x40) 8 g7 false fun i => !mixed i && agree i (.v 5) 0 &&
      (i.g.ctl.advance 0x48 (.branch 0x60)).any fun ctl => goes (.loop loopX) i ctl) ∧
    (Finds (setV (at_ 0x40) 5 fun _ => 3) 8 g7 false fun i => !mixed i && agree i (.v 5) 3 &&
      (Ctl.advance { i.g.ctl with loops := [⟨0x48, 0x60, 3⟩] } 0x48 .fall).any fun ctl => goes (.loop loopX) i ctl) :=
  ⟨finds_of (by decide +kernel), finds_of (by decide +kernel), finds_of (by decide +kernel), finds_of (by decide +kernel)⟩
theorem witness_loopInstructions_nested :
    (Finds (setV (at_ 0x40 four) 5 fun _ => 3) 8 g7 false fun i => !mixed i && agree i (.v 5) 3 &&
      decide (4 ≤ i.g.ctl.loops.length) && traps (.loop loopX) i 0x04) ∧
    (Finds (setV (at_ 0x40 [⟨8, 0x58, 2⟩]) 5 fun _ => 3) 8 g7 false fun i => !mixed i && agree i (.v 5) 3 &&
      decide ((0x58 : CodeAt) < 0x60) && traps (.loop loopX) i 0x04) ∧
    (Finds (setV (at_ 0x40 [⟨8, 0x60, 2⟩]) 5 fun _ => 3) 8 g7 false fun i => !mixed i && agree i (.v 5) 3 &&
      (Ctl.advance { i.g.ctl with loops := [⟨0x48, 0x60, 3⟩, ⟨8, 0x60, 2⟩] } 0x48 .fall).any fun ctl =>
        goes (.loop loopX) i ctl) :=
  ⟨finds_of (by decide +kernel), finds_of (by decide +kernel), finds_of (by decide +kernel)⟩
/-- LBRK: with no loop, under a dividing guard, with a loop, and idle. -/
theorem witness_loopBreak :
    (Finds (at_ 0x40) 8 g7 false fun i => !mixed i && i.g.ctl.loops.isEmpty && traps (.lbrk (fX g7 0 0 .zr)) i 0x04) ∧
    (Finds (at_ 0x40 [⟨8, 0x60, 2⟩]) 8 gP1 false fun i => mixed i && traps (.lbrk (fX gP1 0 0 .zr)) i 0x04) ∧
    (Finds (at_ 0x40 [⟨8, 0x60, 2⟩]) 8 g7 false fun i => !mixed i && decide (i.g.ctl.loops = [⟨8, 0x60, 2⟩]) &&
      (Ctl.advance { i.g.ctl with loops := [] } 0x48 .fall).any fun ctl => goes (.lbrk (fX g7 0 0 .zr)) i ctl) ∧
    ((at_ 0x40).issueOf 8 ⟨true, 7⟩ false).any (fun i => i.ex.isEmpty && (i.g.ctl.advance 0x48 .fall).any fun ctl =>
      goes (.lbrk (fX ⟨true, 7⟩ 0 0 .zr)) i ctl) = true :=
  ⟨finds_of (by decide +kernel), finds_of (by decide +kernel), finds_of (by decide +kernel), by decide +kernel⟩
/-- The absolute value needs no more than a source and a destination. -/
theorem witness_absoluteValue : (Shows base 8 g7 false fall fun i _ => ok (i.ready [(vv 1).field] [.v 3])) ∧
    (Instr.iabs (fA (.v 3) (vv 1) zz zz)).wf = true ∧ (Instr.iabs (fA (.v 3) (vv 1) zz zz 0 2)).wf = true ∧
    ((0x00103709 : W32).extractLsb' 0 8 = 0x09#8 ∧ (decode [0xF0103709, 0x00000FFF]).isOk = true) :=
  ⟨shows_of (by decide +kernel), by decide, by decide, by decide +kernel⟩
/-- A loop at its end with counts 2 and 1, and elsewhere. -/
theorem witness_endChecks :
    let c (n : W32) : Ctl := { Ctl.single 0x58 3 with loops := [⟨8, 0x60, n⟩] }
    (∃ top, (c 2).div = [top] ∧ top.rcv = none) ∧ (c 2).advance 0x60 .fall = some ((({ c 1 with }) : Ctl).setPc 8) ∧
    (c 1).advance 0x60 .fall = Ctl.advance { c 1 with loops := [] } 0x60 .fall ∧
    (c 2).advance 0x58 .fall = some ((c 2).setPc 0x58) ∧
    (c 2).advance 0x60 (.branch 0x100) = some (({ c 2 with loops := [] } : Ctl).setPc 0x100) := by
  refine ⟨⟨_, rfl, rfl⟩, ?_, ?_, ?_, ?_⟩ <;> decide +kernel
/-- A path that arrives at its reconvergence address with no deeper loops, before a join entry and before a waiting path; and with
deeper loops. -/
theorem witness_reconvergence :
    let e : DivEnt := { pc := 0x60, mask := 2, rcv := some 0x60 }
    let waiting : DivEnt := { pc := 0x50, mask := 1, rcv := some 0x60 }
    let join : DivEnt := { pc := 0x60, mask := 3, rcv := none, join := true }
    (⟨[e, waiting, join], []⟩ : Ctl).advance 0x60 (.jump 0x60) = some ⟨[waiting, join], []⟩ ∧
    (⟨[e, join], []⟩ : Ctl).advance 0x60 (.jump 0x60) = some (({ div := [join], loops := [] } : Ctl).setPc 0x60) ∧
    (⟨[e, join], [⟨8, 0x80, 2⟩]⟩ : Ctl).advance 0x60 (.jump 0x60) = none := by
  refine ⟨?_, ?_, ?_⟩ <;> decide +kernel

/-! ### Traps, regions, waits and special registers -/

def tv (s : State) : State := withG s fun g => { g with tvec := 0x200 }
def inH (s : State) : State := withG s fun g => { g with inHandler := true, saved := some (Ctl.single 0x40 3), causePc := 0x40 }
/-- TRAP with a handler, without one, and within one; BKPT; TRET after a trap and after SWTRAP. -/
theorem witness_trapsFaultsAndReturns_entry :
    (Finds (tv base) 8 g7 false fun i => decide (i.g.tvec ≠ 0 ∧ i.g.inHandler = false ∧ i.c.debugStop = false) &&
      groupIs (exec (.trap (fB .zr .zr 0)) (tv base)) (fun g => g.cause == 0x40 && g.ctl.pc == 0x200 && g.inHandler) &&
      groupIs (exec (.bkpt (fB .zr .zr 0)) (tv base)) (fun g => g.cause == 0x41)) ∧
    (Finds base 8 g7 false fun i => i.g.async.isEmpty && i.g.tvec == 0 && i.s.ringOf i.t.ctx && decide (∀ p ∈ base.pend, p.gid ≠ i.g.id) &&
      groupIs (exec (.trap (fB .zr .zr 0)) base) (fun g => g.status == .awaiting && g.cause == 0x140)) ∧
    (Finds (inH (tv base)) 8 g7 false fun i => i.g.inHandler && i.g.async.isEmpty &&
      groupIs (exec (.trap (fB .zr .zr 0)) (inH (tv base))) (fun g => g.status == .awaiting && g.cause == 0x140)) :=
  ⟨finds_of (by decide +kernel), finds_of (by decide +kernel), finds_of (by decide +kernel)⟩
theorem witness_trapsFaultsAndReturns_causes : isTrapCause 0x01 = true ∧ isTrapCause 0x29 = true ∧
    (0x01 : BitVec 8) ≠ 0x41 := by decide
theorem witness_trapsFaultsAndReturns_return :
    (Finds base 8 g7 false fun i => !i.g.inHandler && traps (.tret (fX g7 0 0 .zr)) i 0x01) ∧
    (∀ x ∈ [(0x40, 0x48), (0x41, 0x48), (0x01, 0x40)],
      Finds (withG (inH base) fun g => { g with cause := x.1 }) 8 g7 false fun i =>
        i.g.inHandler && i.g.saved.any fun c => (c.advance (i.g.ctl.pc + 8) (.jump x.2)).any fun ctl =>
          eqNext (exec (.tret (fX g7 0 0 .zr)) i.s)
            (i.s.setGroup ({ i.g with saved := none, inHandler := false }.goesOn ctl i.s.tick)).wake) := by
  refine ⟨finds_of (by decide +kernel), fun x hx => ?_⟩
  simp only [List.mem_cons, List.not_mem_nil, or_false] at hx
  rcases hx with rfl | rfl | rfl <;> exact finds_of (by decide +kernel)
/-- REGION outside a handler and in one; WAITF on full and on empty registers, waiting and testing. -/
theorem witness_regionsHintsAndWaits :
    (Shows base 8 g7 false fall fun i ctl => !i.g.inHandler && goes (.yield (fX g7 0 0 .zr)) i ctl &&
      goes (.nop ⟨g7, 0⟩) i ctl) ∧
    (Shows (inH base) 8 g7 false fall fun i ctl => i.g.inHandler && goes (.region (fX g7 0 0 .zr)) i ctl) ∧
    (Shows base 8 g7 false fall fun i ctl => [Opnd.v 1, .v 2, .zr].all i.inBounds &&
      (i.ex.all fun lane => [Opnd.v 1, .v 2, .zr].all (i.g.isFull lane 0)) &&
      goes (.waitf ⟨g7, false, none, vv 1, vv 2, zz, 0, 0⟩) i ctl) ∧
    (Shows (withG base fun g => g.setV 2 1 { full := false }) 8 g7 false fall fun i _ => [Opnd.v 1, .v 2, .zr].all i.inBounds &&
      (i.ex.any fun lane => !([Opnd.v 1, .v 2, .zr].all (i.g.isFull lane 0))) &&
      waits (.waitf ⟨g7, false, none, vv 1, vv 2, zz, 0, 0⟩) i &&
      groupIs (exec (.waitf ⟨g7, false, some ⟨false, 2⟩, vv 1, vv 2, zz, 0, 0⟩) i.s) fun g =>
        g.pred false 2 0 && !g.pred false 2 1) :=
  ⟨shows_of (by decide +kernel), shows_of (by decide +kernel), shows_of (by decide +kernel), shows_of (by decide +kernel)⟩
/-- MFS of the first listed register, of one of the default line, and of a remote one. -/
theorem witness_specialRegisters_read :
    srRemote 0x000 = false ∧ srRemote 0x00C = false ∧ srRemote 0x141 = false ∧
    (Shows base 8 g7 false fall fun i _ => ok (i.ready [] [.v 3]) && quiet i fun _ => one 0) ∧
    (srRemote 0x102 = true ∧ srRemote 0x140 = true ∧ srRemote 0x180 = true ∧ Opnd.v 3 ≠ .zr) :=
  ⟨by decide, by decide, by decide, shows_of (by decide +kernel), by decide⟩
def priv (s : State) : State := withC s fun c => { c with priv := true }
/-- MTS of a group's register; of MQRATIO with 1, 16, 0 and 17; of BRWIN with 256 in both modes, and with 257. -/
theorem witness_specialRegisters_write :
    (Shows base 8 g7 false fall fun i _ => ok (i.ready [⟨.v 1, false⟩] []) && !(Opnd.v 1).isQueue) ∧
    (∀ x ∈ [(1, true), (16, true), (0, false), (17, false)], Shows (setV base 1 fun _ => x.1) 8 g7 false fall fun i _ =>
      let v : W32 := (i.g.datum 0 (.v 1)).val
      ok (i.ready [⟨.v 1, false⟩] []) && (decide (1 ≤ v.toNat % 32 ∧ v.toNat % 32 ≤ 16) == x.2) &&
      (x.2 || traps (.mts (fB .zr (.v 1) 0x101)) i 0x01)) ∧
    (Shows (priv (setV base 1 fun _ => 256)) 8 g7 false fall fun i _ => i.c.priv &&
      decide ((i.g.datum 0 (.v 1)).val.toNat % 512 ≤ 256) &&
      isNext (exec (.mts (fB .zr (.v 1) 0x102)) i.s) fun t => (t.dieSt 0).brwin == 256) ∧
    (Shows (setV base 1 fun _ => 256) 8 g7 false fall fun i _ => !i.c.priv && traps (.mts (fB .zr (.v 1) 0x102)) i 0x02) ∧
    (Shows (setV base 1 fun _ => 257) 8 g7 false fall fun i _ =>
      decide (256 < (i.g.datum 0 (.v 1)).val.toNat % 512) && traps (.mts (fB .zr (.v 1) 0x102)) i 0x01) := by
  refine ⟨shows_of (by decide +kernel), fun x hx => ?_, shows_of (by decide +kernel), shows_of (by decide +kernel),
    shows_of (by decide +kernel)⟩
  simp only [List.mem_cons, List.not_mem_nil, or_false] at hx
  rcases hx with rfl | rfl | rfl | rfl <;> exact shows_of (by decide +kernel)

/-! ### Memory -/

def two (o : Opnd) : List Opnd := o.range 2
/-- A flat access of a lane may be made: each part of `Allowed`. -/
def allowed (i : Iss) (kind : Kind) (n va : Nat) : Bool :=
  decide (va % n = 0) && canonical va && decide ((i.c.desc.ws.getD i.t.die (0, 0)).2 = 0) &&
  match i.leafOf kind va with
  | some (.ok l) => (i.s.leafCheck i.c.desc ⟨i.c.priv, false, none⟩ kind va n l).isOk
  | _ => false
def clear (i : Iss) (srcs dsts : List Opnd) : Bool := ok (i.ready (srcs.map fun o => ⟨o, false⟩) dsts) && !i.held
/-- V8 and V9 hold the address of 64 bytes for each lane, in the page at 0x50000. -/
def flat (s : State := base) : State := setV s 8 fun l => BitVec.ofNat 32 (0x50000 + 64 * l)
/-- LD.128 V12, [V8], and with two tangents 16 bytes apart; one byte, at the edge of the page. -/
theorem witness_loadsOfEverySpace_flat :
    (Shows (flat) (dualSize none) g7 false fall fun i _ =>
      clear i (basePair (.v 8)) ((Opnd.v 12).range 4) && !(Opnd.v 8).isQueue && i.s.pend.isEmpty &&
      i.ex.all fun lane => allowed i .read 16 (flatAddr i (.v 8) 0 lane 0)) ∧
    (Shows (withG flat fun g => { g with tanStride := 16 }) (dualSize (some ⟨2, true⟩)) g7 false fall fun i _ =>
      clear i (basePair (.v 8)) ((Opnd.v 12).range 4) && i.tm (some ⟨2, true⟩) && i.s.pend.isEmpty &&
      decide (i.tans (some ⟨2, true⟩) = 2) &&
      i.ex.all fun lane => [0, 1, 2].all fun k => allowed i .read 16 (flatAddr i (.v 8) 0 lane k)) ∧
    (Shows (setV base 8 fun _ => 0x5FFFF) (dualSize none) g7 false fall fun i _ =>
      i.ex.all fun lane => allowed i .read 1 (flatAddr i (.v 8) 0 lane 0)) :=
  ⟨shows_of (by decide +kernel), shows_of (by decide +kernel), shows_of (by decide +kernel)⟩
def haveWs (s : State) : State := withC s fun c => { c with desc := { c.desc with ws := List.replicate 8 (0, 1) } }
/-- LDT and LDL of the last 16 bytes of their spaces; LDW at the base of the window. -/
theorem witness_loadsOfEverySpace_chip :
    (Shows (setV base 8 fun _ => 0x2FFF0) (dualSize none) g7 false fall fun i _ =>
      clear i (chipBase (.v 8) .zr) ((Opnd.v 12).range 4) && (i.coreTeam .zr).isSome && i.s.pend.isEmpty &&
      i.ex.all fun lane => decide (chipOfs i (.v 8) 0 lane 0 % 16 = 0 ∧ chipOfs i (.v 8) 0 lane 0 + 16 = i.l.tileUnits * 256)) ∧
    (Shows (setV base 8 fun _ => 1008) (dualSize none) g7 false fall fun i _ =>
      clear i (chipBase (.v 8) .zr) ((Opnd.v 12).range 4) &&
      i.ex.all fun lane => decide (chipOfs i (.v 8) 0 lane 0 % 16 = 0 ∧ chipOfs i (.v 8) 0 lane 0 + 16 = i.l.laneBytes)) ∧
    (Shows (setV (setV (haveWs base) 8 fun _ => BitVec.ofNat 32 windowBase) 9 fun _ => BitVec.ofNat 32 (windowBase / 2 ^ 32))
        (dualSize none) g7 false fall fun i _ =>
      clear i (basePair (.v 8)) ((Opnd.v 12).range 4) && i.ex.all fun lane =>
        let o := (i.va (.v 8) 0 lane + 2 ^ 64 - windowBase) % 2 ^ 64
        decide (o % 16 = 0 ∧ o + 16 ≤ (i.c.desc.ws.getD i.t.die (0, 0)).2 * 65536)) :=
  ⟨shows_of (by decide +kernel), shows_of (by decide +kernel), shows_of (by decide +kernel)⟩
/-- ST.32 [V8], V5 of both lanes; the group finds what it wrote, and memory is not yet written. -/
theorem witness_storesOfEverySpace_flat :
    Shows (setV flat 5 fun l => BitVec.ofNat 32 (7 + l)) (dualSize none) g7 false fall fun i _ =>
      clear i (basePair (.v 8) ++ (Opnd.v 5).range 1) [] && !i.s.ecc && i.s.inflight.isEmpty && i.s.pend.isEmpty &&
      (i.ex.all fun lane => allowed i .write 4 (flatAddr i (.v 8) 0 lane 0) && !i.s.fencedAt (0x50000 + 64 * lane)) &&
      isNext (exec (.st none (fM 2 0 (.v 8) (.v 5))) i.s) fun t =>
        t.viewByte (some 4) (.socket 0) 0x50040 == 8 && Memory.read t.mem 0x50040 == 0 := shows_of (by decide +kernel)
/-- STT and STL of two lanes apart, the last with the end of its space. -/
theorem witness_storesOfEverySpace_chip :
    Shows (setV (setV base 8 fun l => BitVec.ofNat 32 (1016 + 4 * l)) 5 fun l => BitVec.ofNat 32 (7 + l)) (dualSize none) g7
      false fall fun i _ =>
        clear i (chipBase (.v 8) .zr ++ (Opnd.v 5).range 1) [] && !i.s.ecc && i.s.pend.isEmpty &&
        (match i.coreTeam .zr with
          | some u => decide (i.s.team? u.id = some u)
          | none => false) && decide (i.l.laneBytes = 1024) &&
        (i.ex.all fun lane => decide (chipOfs i (.v 8) 0 lane 0 % 4 = 0 ∧ chipOfs i (.v 8) 0 lane 0 + 4 ≤ i.l.laneBytes)) &&
        decide (chipOfs i (.v 8) 0 0 0 ≠ chipOfs i (.v 8) 0 1 0) &&
        (isNext (exec (.stt none (fM 2 0 (.v 8) (.v 5))) i.s) fun t =>
          t.tileByte (i.s.siteOf 4) 2 1016 == 7 && t.tileByte (i.s.siteOf 4) 2 1020 == 8) &&
        groupIs (exec (.stl none (fM 2 0 (.v 8) (.v 5))) i.s) fun g =>
          look 0 g.lmem (laneKey 1 1020) == 8 && look 0 g.lmem (laneKey 0 1020) == 0 := shows_of (by decide +kernel)
/-- ATOM.ADD.32 with a destination, CAS, and ATOM.ADD without one in one lane. -/
theorem witness_atomicOperations :
    (Shows flat (dualSize none) g7 false fall fun i _ =>
      ok (i.ready ((basePair (.v 8) ++ (Opnd.v 5).range 1).map fun o => ⟨o, false⟩) ((Opnd.v 6).range 1)) && !i.held &&
      i.s.pend.isEmpty && i.ex.all fun lane => allowed i .write 4 (flatAddr i (.v 8) 0 lane 0)) ∧
    (Shows flat 8 g7 false fall fun i _ =>
      ok (i.ready ((basePair (.v 8) ++ ((Opnd.v 5).range 1 ++ (Opnd.v 6).range 1)).map fun o => ⟨o, false⟩)
        ((Opnd.v 6).range 1)) && !i.held) ∧
    (mcaWrite (fMA 0 (.v 8) (.v 5) (.v 6)).mca 0 = false ∧ (fMA 11 (.v 8) (.v 5) (.v 6)).fn.toNat < 12) ∧
    (Shows (onlyP1 (setV flat 5 fun _ => 3)) (dualSize none) gP1 false fall fun i _ =>
      decide (i.ex = [0]) && ok (i.ready ((basePair (.v 8) ++ (Opnd.v 5).range 1).map fun o => ⟨o, false⟩) [.zr]) &&
      !i.held && !i.s.ecc && i.s.inflight.isEmpty && i.s.pend.isEmpty && i.g.fences.isEmpty && decide i.s.memOk &&
      allowed i .write 4 (flatAddr i (.v 8) 0 0 0) &&
      decide (atomNew 0 4 (ofLe (i.s.latestBytes 0x50000 4)) (operand i (.v 5) 4 0) 0 = some 3) &&
      isNext (exec (.atom none { fMA 0 (.v 8) (.v 5) .zr with g := gP1 }) i.s) fun t =>
        decide (t.latestBytes 0x50000 4 = leBytes 4 3)) :=
  ⟨shows_of (by decide +kernel), shows_of (by decide +kernel), by decide, shows_of (by decide +kernel)⟩
/-- The trap that R139 asks for in a lane, with an address of its space. -/
def fails (ins : Instr) (s0 : State) (i : Iss) (space lane : Nat) (addr : Nat) (c : BitVec 8) : Bool :=
  eqNext (exec ins i.s) (s0.raise i.g i.c.debugStop
    { code := c, lane := lane, space := space, addr := BitVec.ofNat 64 addr } i.hmask)
/-- A flat access of 4 bytes from V8 fails so in a lane, and its page is known or it needs none. -/
def flatFails (ins : Instr) (k : Kind) (i : Iss) (lane : Nat) (c : BitVec 8) : Bool :=
  (i.ex.all fun l => !mapped i (flatAddr i (.v 8) 0 l 0) || (i.leafOf k (flatAddr i (.v 8) 0 l 0)).isSome) &&
  decide (flatCause i k 4 (flatAddr i (.v 8) 0 lane 0) = some c) &&
  fails ins (flatChecked i k 4 0 (flatAddr i (.v 8) 0)) i 0 lane (flatAddr i (.v 8) 0 lane 0) c
/-- Lane 1 is misaligned; an address is not canonical, or stands in the window; 4 bytes from the end of a space on. -/
def skewed (s : State) : State := setV s 8 fun l => BitVec.ofNat 32 (0x50000 + 65 * l)
def windowed (o : Nat) : State :=
  setV (setV (haveWs base) 8 fun _ => BitVec.ofNat 32 (windowBase + o)) 9 fun _ => BitVec.ofNat 32 (windowBase / 2 ^ 32)
theorem witness_loadChecksFail :
    (Shows (skewed base) 8 g7 false fall fun i _ => clear i (basePair (.v 8)) ((Opnd.v 12).range 1) &&
      flatFails (.ld none (fM 2 0 (.v 8) (.v 12))) .read i 1 0x03) ∧
    (Shows (setV flat 9 fun _ => 0x01000000) 8 g7 false fall fun i _ => flatFails (.ldq none (fM 2 0 (.v 8) (.v 12))) .read i 0 0x10) ∧
    (Shows (windowed 65536) 8 g7 false fall fun i _ => flatFails (.ld none (fM 2 0 (.v 8) (.v 12))) .read i 0 0x12 &&
      fails (.ldw none (fM 2 0 (.v 8) (.v 12))) i.s i 3 0 65536 0x12) ∧
    (Shows (setV base 8 fun _ => 0x30000) 8 g7 false fall fun i _ => clear i (chipBase (.v 8) .zr) ((Opnd.v 12).range 1) &&
      decide (limitCause 4 (i.l.tileUnits * 256) 0x30000 = some 0x12) &&
      fails (.ldt none (fM 2 0 (.v 8) (.v 12))) i.s i 1 0 0x30000 0x12) ∧
    (Shows (setV base 8 fun _ => 1024) 8 g7 false fall fun i _ => fails (.ldl none (fM 2 0 (.v 8) (.v 12))) i.s i 2 0 1024 0x12) :=
  ⟨shows_of (by decide +kernel), shows_of (by decide +kernel), shows_of (by decide +kernel), shows_of (by decide +kernel),
    shows_of (by decide +kernel)⟩
theorem witness_storeChecksFail :
    (Shows (setV (skewed base) 5 fun _ => 3) 8 g7 false fall fun i _ => clear i (basePair (.v 8) ++ (Opnd.v 5).range 1) [] &&
      flatFails (.st none (fM 2 0 (.v 8) (.v 5))) .write i 1 0x03) ∧
    (Shows (setV (windowed 4) 5 fun _ => 3) 8 g7 false fall fun i _ => flatFails (.st none (fM 2 0 (.v 8) (.v 5))) .write i 0 0x13) ∧
    (Shows (setV (setV base 8 fun l => BitVec.ofNat 32 (1022 + l)) 5 fun _ => 3) 8 g7 false fall fun i _ =>
      fails (.stt none (fM 2 0 (.v 8) (.v 5))) i.s i 1 0 1022 0x03 && fails (.stl none (fM 2 0 (.v 8) (.v 5))) i.s i 2 0 1022 0x03) :=
  ⟨shows_of (by decide +kernel), shows_of (by decide +kernel), shows_of (by decide +kernel)⟩
theorem witness_atomicChecksFail :
    (Shows (setV (skewed base) 5 fun _ => 3) 8 g7 false fall fun i _ =>
      flatFails (.atom none (fMA 0 (.v 8) (.v 5) .zr)) .write i 1 0x03 && flatFails (.cas (fMA 0 (.v 8) (.v 5) (.v 6))) .write i 1 0x03) ∧
    (Shows (setV (windowed 4) 5 fun _ => 3) 8 g7 false fall fun i _ =>
      flatFails (.atom none (fMA 0 (.v 8) (.v 5) (.v 6))) .write i 0 0x13) :=
  ⟨shows_of (by decide +kernel), shows_of (by decide +kernel)⟩
/-- A null atomic, a prefetch; QCFG up to the declared entries, and beyond them. -/
theorem witness_nullAtomicsPrefetchesAndQueues :
    (Shows flat (dualSize none) g7 false fall fun i ctl => clear i (basePair (.v 8)) [] &&
      eqNext (exec (.atom none (fMA 0 (.v 8) .zr .zr)) i.s) (i.s.setGroup (i.g.goesOn ctl i.s.tick).openRegion).wake) ∧
    (Shows flat 8 g7 false fall fun i ctl => ok (i.ready ((basePair (.v 8)).map fun o => ⟨o, false⟩) []) &&
      goes (.pfd (fM 0 0 (.v 8) .zr)) i ctl) ∧
    (Shows (withRec base 0x32 [8]) 8 g7 false fall fun i _ => decide (i.l.queueTotal = 8) &&
      (i.ex.all fun lane => (i.g.queue lane 3).entries.isEmpty) &&
      groupIs (exec (.qcfg (fB (.q 3) .zr 8)) i.s) fun g => (g.queue 1 3).depth == 8) ∧
    (Shows (withRec base 0x32 [7]) 8 g7 false fall fun i _ => decide (i.l.queueTotal < 8) &&
      traps (.qcfg (fB (.q 3) .zr 8)) i 0x12) :=
  ⟨shows_of (by decide +kernel), shows_of (by decide +kernel), shows_of (by decide +kernel), shows_of (by decide +kernel)⟩
/-- Releases after a store of the group: OR 2 leaves a fence that carries the two writes, OR 3 takes them to the dies of its scope. -/
theorem witness_releaseReachesScope :
    let s := match exec (.st none (fM 2 0 (.v 8) (.v 5))) flat with
      | .next t => t
      | _ => flat
    s.inflight.length = 2 ∧ (Shows s (dualSize none) g7 false fall fun i _ => clear i (basePair (.v 8)) [] &&
      decide ((∀ v ∈ i.s.inflight, v.mca = false ∧ v.rels = []) ∧ (∀ q ∈ i.s.pend, q.gid ≠ i.g.id) ∧ i.s.memOk ∧ i.s.named ∧
        i.s.ordered) &&
      groupIs (exec (.atom none { fMA 0 (.v 8) .zr .zr 2 with sc := 4 }) i.s)
        (fun g => g.fences.map (fun r => (r.sc, r.ids.length, r.reads)) == [(4, 2, [])]) &&
      isNext (exec (.atom none { fMA 0 (.v 8) .zr .zr 3 with sc := 4 }) i.s) fun t =>
        t.inflight.all fun v => (scopeObservers i.c.desc i.t.die 4).all v.arrived.contains) :=
  ⟨by decide +kernel, shows_of (by decide +kernel)⟩

/-! ### Leaving, estates and barriers -/

def mayLeave (i : Iss) : Bool := i.s.pend.isEmpty && !i.matrixBusy
/-- One lane of two exits; both exit, and end the group; EXIT.E of one lane with its default identity, and without a chain. -/
theorem witness_lanesExit :
    (Finds (onlyP1 (setV base 1 fun _ => 0x105)) 8 gP1 false fun i => ok (i.ready [(vv 1).field] []) && mayLeave i &&
      !i.g.inHandler && !i.lastLanes &&
      isNext (exec (.exit { fA .zr (vv 1) zz zz with g := gP1 }) i.s) fun t =>
        decide ((t.launch? 1).map (·.red) = some { maxSt := 5, orSt := 5, nonzero := 1, exited := 1 }) &&
        (t.group? 4).any fun g => g.ctl.mask == 2) ∧
    (Finds base 8 g7 false fun i => ok (i.ready [(vv 1).field] []) && mayLeave i && i.lastLanes && !i.g.inHandler &&
      isNext (exec (.exit (fA .zr (vv 1) zz zz)) i.s) fun t => (t.group? 4).isNone) ∧
    (Finds (onlyP1 base) 8 gP1 false fun i => decide (i.ex = [0] ∧ i.l.chain ≠ 0) &&
      ok (i.ready ((vv 1).field :: (baseFields .zr ++ ((Opnd.v 10).range 2).map fun o => ⟨o, false⟩)) []) && mayLeave i &&
      !i.lastLanes && !i.g.inHandler && (i.release 4).isOk &&
      decide (bytesOf (i.s.estates.filter fun e => e.level == .core i.t.die i.t.core) = 0) &&
      isNext (exec (.exitE { fA .zr (vv 1) (vv 10) zz 1 with g := gP1 }) i.s) fun t =>
        decide (t.estates.map (·.body.prim) = [[0, 0]])) ∧
    (Finds (withRec base 0x3A [0, 0]) 8 g7 false fun i => decide (i.l.chain = 0) &&
      traps (.exitE (fA .zr (vv 1) (vv 10) zz 1)) i 0x12) :=
  ⟨finds_of (by decide +kernel), finds_of (by decide +kernel), finds_of (by decide +kernel), finds_of (by decide +kernel)⟩
def estate (order ident : Nat) (prim : List W32) : Estate :=
  { ctx := 0, order := order, lid := 1, body := ⟨1, ident, 1, 0, 0, 1, prim, []⟩, level := .core 0 0 }
def twoEstates : State := { base with estates := [estate 0 0 [5, 6], estate 1 7 [5]] }
/-- CLAIM of two lanes, of which one finds an estate; without a chain; and the landing of what it found. -/
theorem witness_estatesAreClaimed_issue :
    (Shows twoEstates 8 g7 false fall fun i _ => decide (i.l.chain ≠ 0) &&
      ok (i.ready (baseFields .zr) (.v 2 :: (Opnd.v 10).range 2)) &&
      isNext (exec (.claim (fA (.v 2) zz (vv 10) zz 1)) i.s) fun t =>
        decide (t.estates = [estate 1 7 [5]]) && t.pend.length == 1) ∧
    (Shows (withRec base 0x3A [0, 0]) 8 g7 false fall fun i _ => decide (i.l.chain = 0) &&
      traps (.claim (fA (.v 2) zz (vv 10) zz 1)) i 0x12) :=
  ⟨shows_of (by decide +kernel), shows_of (by decide +kernel)⟩
/-- Two claims of one key: one is given the estate (OK, or SHORT or LONG as its registers are), the other NONE. -/
theorem witness_estatesAreClaimed_once :
    ((twoEstates.claimAll 0 1 2 [(0, 0), (1, 0)]).2.map fun c => (c.st, c.est.isSome)) = [(0, true), (1, false)] ∧
    ((twoEstates.claimAll 0 1 3 [(0, 0)]).2.map (·.st)) = [2] ∧ ((twoEstates.claimAll 0 1 1 [(0, 0)]).2.map (·.st)) = [3] := by
  decide +kernel

/-- BARI and BARX within 56 bits and outside them; BARA, and at its limit. -/
theorem witness_barriersCount :
    (Shows (setS base [(2, 0xFFFFFFFF), (3, 0x007FFFFF), (4, 0), (5, 0x00800000)]) 8 g7 true fall fun i _ =>
      ok (i.ready ((.zr :: pairOf (.s 2)).map fun o => ⟨o, false⟩) []) && decide ((i.coreTeam .zr).isSome = true) &&
      decide (1023 < i.l.barriers) &&
      decide (pairInt i (.s 2) < 2 ^ 55 ∧ ¬ (pairInt i (.s 4) < 2 ^ 55)) &&
      isNext (exec (.bari (fB (.s 2) .zr 0x000103FF (u := true))) i.s) (fun t =>
        (t.team? 2).any fun u => decide (look {} u.bars 1023 = { count := 1, pend := 2 ^ 55 - 1 })) &&
      traps (.bari (fB (.s 4) .zr 0x000103FF (u := true))) i 0x2A && traps (.barx (fB (.s 4) .zr 0x3FF (u := true))) i 0x2A) ∧
    (Shows (withT base fun t => { t with bars := [(5, { count := 2 }), (6, { count := 9, arr := 65534 })] }) 8 g7 false fall
      fun i _ => ok (i.ready [⟨.zr, false⟩] []) && decide (i.ex.length = 2) && (i.release 1).isOk &&
        (isNext (exec (.bara (fB .zr .zr 5)) i.s) fun t =>
          (t.team? 2).any fun u => decide (look {} u.bars 5 = { count := 2, arr := 0, ph := true })) &&
        traps (.bara (fB .zr .zr 6)) i 0x2A) :=
  ⟨shows_of (by decide +kernel), shows_of (by decide +kernel)⟩
/-- BARW for a phase reached, not reached and released by the Regulator; of a broken barrier; BART both ways. -/
theorem witness_barrierWaits :
    (Shows (withT base fun t => { t with bars := [(4, { count := 2, ph := true }), (6, { count := 2, brk := true })] }) 8 g7 false
      fall fun i ctl => ok (i.ready ([.zr, .zr].map fun o => ⟨o, false⟩) []) && (i.coreTeam .zr).isSome &&
        decide ((look {} i.t.bars 4).ph = true ∧ (look {} i.t.bars 4).brk = false ∧ i.g.wait = .none) &&
        goes (.barw (fB .zr .zr 0x10004)) i ctl &&
        groupIs (exec (.barw (fB .zr .zr 4)) i.s) (fun g => decide (g.wait = .bar 2 4 false)) &&
        traps (.barw (fB .zr .zr 6)) i 0x2A && traps (.bart ⟨g7, false, ⟨false, 1⟩, .zr, false, 0, 6⟩) i 0x2A &&
        groupIs (exec (.bart ⟨g7, false, ⟨false, 1⟩, .zr, false, 0, 0x10004⟩) i.s) (fun g => g.pred false 1 0) &&
        groupIs (exec (.bart ⟨g7, false, ⟨false, 1⟩, .zr, false, 0, 4⟩) i.s) (fun g => !g.pred false 1 0)) ∧
    (Shows (withG base fun g => { g with wait := .barGo 2 4 true }) 8 g7 false fall fun i ctl =>
      decide (i.g.wait = .barGo 2 4 true) && goes (.barw (fB .zr .zr 0x10004)) i ctl) :=
  ⟨shows_of (by decide +kernel), shows_of (by decide +kernel)⟩
def inFb (x : W32) (s : State := base) : State := withG s fun g => { g with fbgrp := x }
/-- FBAR of a member; of a group that is none; of an undeclared barrier; with sixteen instances open and one of its own. -/
theorem witness_fabricBarrierArrival :
    (Shows (inFb 1) 8 g7 false fall fun i _ => decide (3 < i.l.barriers ∧ i.t.die = 0 ∧ 0 ∈ i.c.desc.sockets ∧
        i.c.fbars.length < 16) && ((List.range 16).all fun m => !i.g.fbgrp.getLsbD m || i.c.desc.sockets.contains m) &&
      (i.release 4).isOk &&
      isNext (exec (.fbar (fB .zr .zr 0x70003 (u := true))) i.s) fun t => (t.ctx? 0).any fun c =>
        decide (c.fbars.map (fun b => (b.r, b.arrived, b.notify)) = [(7, [0], [(2, 3)])])) ∧
    (Shows (inFb 2) 8 g7 false fall fun i _ => !i.g.fbgrp.getLsbD 0 && traps (.fbar (fB .zr .zr 0x70003 (u := true))) i 0x12) ∧
    (Shows (inFb 1 (withRec base 0x38 [3, 0])) 8 g7 false fall fun i _ => decide (i.l.barriers ≤ 3) &&
      traps (.fbar (fB .zr .zr 0x70003 (u := true))) i 0x12) ∧
    (Shows (inFb 1 (withC base fun c => { c with
        fbars := (List.range 16).map fun k => { id := k, fbgrp := 1, r := k } })) 8 g7 false fall fun i _ =>
      decide (i.c.fbars.length = 16 ∧ ∃ b ∈ i.c.fbars, b.fbgrp = 1 ∧ b.r = 7) &&
      isNext (exec (.fbar (fB .zr .zr 0x70003 (u := true))) i.s) fun t => (t.ctx? 0).any fun c => c.fbars.length == 16) :=
  ⟨shows_of (by decide +kernel), shows_of (by decide +kernel), shows_of (by decide +kernel), shows_of (by decide +kernel)⟩

/-! ### Engines and tasks -/

/-- A COPY of 64 bytes in S32 on (opcode 1, no barrier), a LAUNCH in S0 on, and a PREEMPT in S16 on. -/
def commands : State := setS base [(32, 1), (33, 0xFFFF), (35, 64), (36, 0x50000), (40, 0x60000), (0, 0x40), (1, 0xFFFF), (16, 0x41)]
def crowded (n : Nat) (s : State := commands) : State := { s with
  cmds := (List.range n).map fun k => { id := 100 + k, ctx := 0, qid := 5, team := 2, lid := 1, die := 0, core := 0
                                        cluster := 3, corner := 0, teampos := 0, priv := false, bytes := [], gslot := 0 } }
/-- PUSH of a COPY with room and without (the sixteenth and the seventeenth of a team); of a LAUNCH; of a PREEMPT at user level. -/
theorem witness_pushAccepts :
    (Shows (crowded 15) 8 g7 false fall fun i _ => ok (i.ready (sFields 32 16) []) && !i.c.priv &&
      decide (recNat (commandOf i 32 0) 0 1 = 1 ∧ recBits (commandOf i 32 0) 0 52 1 = 0 ∧ recBits (commandOf i 32 0) 0 8 1 = 0 ∧
        engineSocket 5 = some 0 ∧ 0 ∈ i.c.desc.sockets) && i.s.queueRoom i.c 2 5 (commandOf i 32 0) &&
      isNext (exec (.push (fP 5 32 1)) i.s) fun t => t.cmds.length == 16) ∧
    (Shows (crowded 16) 8 g7 false fall fun i _ => !i.s.queueRoom i.c 2 5 (commandOf i 32 0) &&
      groupIs (exec (.push (fP 5 32 1)) i.s) (fun g => g.pred false 1 0) && waits (.push (fP 5 32 7)) i) ∧
    (Shows commands 8 g7 false fall fun i _ => ok (i.ready (sFields 0 16) []) &&
      decide (recNat (commandOf i 0 0) 0 1 = 0x40) && i.s.queueRoom i.c 2 0x2000 (commandOf i 0 0) &&
      isNext (exec (.push (fP 0x2000 0 7)) i.s) fun t => t.agenda.length == 1) ∧
    (Shows commands 8 g7 false fall fun i _ => ok (i.ready (sFields 16 16) []) && !i.c.priv &&
      decide (recNat (commandOf i 16 0) 0 1 = 0x41) && traps (.push (fP 0x2000 16 7)) i 0x02) :=
  ⟨shows_of (by decide +kernel), shows_of (by decide +kernel), shows_of (by decide +kernel), shows_of (by decide +kernel)⟩
/-- PUSH with a return word to Q3 of the lowest lane: with an entry free, with none, and with a queue of no depth. -/
theorem witness_pushAccepts_return :
    let s (d : Nat) (es : List QEnt) : State :=
      withG (setS commands [(33, 0x13FFFF)]) fun g => g.setQueue 0 3 { depth := d, entries := es }
    (Shows (s 1 []) 8 g7 false fall fun i _ => decide (recBits (commandOf i 32 0) 0 52 1 = 1 ∧ recBits (commandOf i 32 0) 0 48 4 = 3) &&
      i.s.queueRoom i.c 2 5 (commandOf i 32 0) &&
      isNext (exec (.push (fP 5 32 1)) i.s) fun t => t.cmds.length == 1 &&
        (t.group? 4).any fun g => decide ((g.queue 0 3).entries = [.reserved i.s.nextId true])) ∧
    (Shows (s 1 [.landed {}]) 8 g7 false fall fun i _ => waits (.push (fP 5 32 7)) i) ∧
    (Shows (s 0 []) 8 g7 false fall fun i _ => traps (.push (fP 5 32 7)) i 0x12) :=
  ⟨shows_of (by decide +kernel), shows_of (by decide +kernel), shows_of (by decide +kernel)⟩
def guarded : State := { crowded 2 with cmds := (crowded 2).cmds.map fun c => { c with gslot := 9 } }
/-- WPW at and below its target; GUARD of two commands, with both verdicts. -/
theorem witness_pointersAndGuards :
    (Shows (setS (withT base fun t => { t with wptr := [(5, 64)] }) [(44, 64), (46, 65)]) 8 g7 false fall fun i ctl =>
      ok (i.ready (sFields 44 2) []) && decide (64 ≤ (look 0 i.t.wptr 5).toNat ∧ ¬ 65 ≤ (look 0 i.t.wptr 5).toNat) &&
      goes (.wpw (fP 5 44 7)) i ctl && waits (.wpw (fP 5 46 7)) i &&
      groupIs (exec (.wpw (fP 5 44 1)) i.s) (fun g => g.pred false 1 0) &&
      groupIs (exec (.wpw (fP 5 46 1)) i.s) (fun g => !g.pred false 1 0)) ∧
    (Shows (setS guarded [(3, 1)]) 8 g7 false fall fun i _ => ok (i.ready (sFields 3 1) []) && (i.release 4).isOk &&
      (i.s.cmds.all fun c => decide (c.team = i.t.id ∧ c.qid = 5 ∧ c.gslot = 9 ∧ c.verdict = none)) &&
      isNext (exec (.guard (fP 5 3 7 9)) i.s) (fun t => t.cmds.all fun c => c.verdict == some true) &&
      isNext (exec (.guard (fP 5 4 7 9)) i.s) (fun t => t.cmds.all fun c => c.verdict == some false) &&
      isNext (exec (.guard (fP 5 3 7 8)) i.s) (fun t => t.cmds.all fun c => c.verdict == none)) :=
  ⟨shows_of (by decide +kernel), shows_of (by decide +kernel)⟩
def node (lo hi : Nat) : Node :=
  { graph := 3, node := 1, preds := 0, succs := [], lo := lo, hi := hi, grain := 4, record := 0, notify := false
    posting := { src := 0, why := { code := 0 } }, state := .ready, left := [(lo, hi)] }
def ready3 : State := withC base fun c => { c with nodes := [node 0 10] }
def piece (next hi : Nat) (holder : Option Nat) : Piece := ⟨7, 3, 1, next, hi, 0, next, holder, 0⟩
def ran (ps : List Piece) : State :=
  withC base fun c => { c with nodes := [{ node 0 20 with state := .running }], pieces := ps }
/-- The hypotheses of TGRAB's four cases: without work; a READY node; a returned piece; a piece that another group holds. -/
theorem witness_piecesAreGrabbedAndReturned_tgrab :
    (Shows base 8 g7 true fall fun i _ => ok (i.ready [] ((Opnd.s 8).range 4)) && i.c.nodes.isEmpty && i.c.pieces.isEmpty &&
      groupIs (exec (.tgrab (fB (.s 8) .zr 3 (u := true))) i.s) fun g => (g.sCell 10).d.val == 0xFFFFFFFF) ∧
    ([ready3, ran [piece 4 10 none], ran [piece 4 20 (some 99)]].all fun s => shows_ s 8 g7 true fall fun i _ =>
      ok (i.ready [] ((Opnd.s 8).range 4)) && decide (∀ p ∈ i.c.pieces, p.handle ≠ i.s.nextId)) = true ∧
    (Shows ready3 8 g7 true fall fun i _ => (i.c.grab 3 4 0 9).any fun r => decide (r.2.next = 0 ∧ r.2.hi = 10)) ∧
    (Shows (ran [piece 4 10 none]) 8 g7 true fall fun i _ => (i.c.grab 3 4 0 9).any fun r => decide (r.2.next = 4 ∧ r.2.hi = 10)) ∧
    (Shows (ran [piece 4 20 (some 99)]) 8 g7 true fall fun i _ =>
      (i.c.grab 3 4 0 9).any fun r => decide (r.2.next = 12 ∧ r.2.hi = 20)) :=
  ⟨shows_of (by decide +kernel), by decide +kernel, shows_of (by decide +kernel), shows_of (by decide +kernel),
    shows_of (by decide +kernel)⟩
/-- TDONE of a handle that the group does not hold. -/
theorem witness_piecesAreGrabbedAndReturned_none : Shows base 8 g7 true fall fun i _ =>
    ok (i.ready (((Opnd.s 8).range 4).map fun o => ⟨o, false⟩) ((Opnd.s 8).range 4)) && i.c.pieces.isEmpty &&
    traps (.tdone (fB (.s 8) .zr 0 (u := true))) i 0x12 := shows_of (by decide +kernel)
/-- The group holds the piece of handle 7, whose chunk [lo, hi) stands in its registers. -/
def holding (lo hi : Nat) (p : Piece) (left : List (Nat × Nat)) : State :=
  let s := withC base fun c => { c with nodes := [{ node 0 20 with state := .running, left := left }], pieces := [p] }
  withG (setS s [(8, BitVec.ofNat 32 lo), (9, BitVec.ofNat 32 hi)]) fun g => { g with s := g.s ++ [(11, ⟨plain (handleWord 7), true⟩)] }
/-- What TDONE of the chunk [lo, hi) leaves of the node, and of the piece's chunks. -/
def retires (lo hi : Nat) (p : Piece) (left : List (Nat × Nat)) (after : List (Nat × Nat)) (done : Bool) : Prop :=
  (Shows (holding lo hi p left) 8 g7 true fall fun i _ =>
    ok (i.ready (((Opnd.s 8).range 4).map fun o => ⟨o, false⟩) ((Opnd.s 8).range 4)) && !i.held && i.s.inflight.isEmpty &&
    (i.release 5).isOk && decide (i.c.pieces = [p] ∧ p.holder = some i.g.id ∧ p.handle = 7) &&
    decide (((i.c.retireChunk p lo hi).nodes.map (·.left)) = [after]) &&
    ((i.c.retireChunk p lo hi).nodes.all fun x => (x.state == .done) == done) &&
    let s1 := i.s.onCtx 0 fun _ => i.c.retireChunk p lo hi
    (s1.nodeDone 0 3 1).any fun s2 => s1.postedBy 0 s2) ∧
  ((holding lo hi p left).issueOf 8 g7 true).map (fun i => (i.g.sCell 11).d.val) = some (handleWord 7)
/-- TDONE of a chunk with another to come, of the last one, and of iterations that are retired already. -/
theorem witness_piecesAreGrabbedAndReturned_tdone :
    retires 0 4 (piece 4 10 (some 4)) [(0, 20)] [(4, 20)] false ∧ retires 16 20 (piece 20 20 (some 4)) [(16, 20)] [] true ∧
    retires 0 4 (piece 8 20 (some 4)) [(2, 3), (5, 20)] [(5, 20)] false :=
  ⟨⟨shows_of (by decide +kernel), rfl⟩, ⟨shows_of (by decide +kernel), rfl⟩, ⟨shows_of (by decide +kernel), rfl⟩⟩
/-! ### The matrix unit -/

def owned (c : CoreSt) (s : State := base) : State := { s with cores := [(0, { c with owner := some 2 })] }
def tiles2 : SMap Tile := [(0, { h := 8, w := 8, words := [(0, 5)] }), (1, { h := 8, w := 8 })]
def ownsB (i : Iss) : Bool := decide ((coreOf i).owner = none ∨ (coreOf i).owner = some i.t.id)
def shapesB (i : Iss) (sa : Nat) : Bool :=
  ((List.range 8).all fun n => decide ((shapeIn i sa n).1 % 8 = 0 ∧ (shapeIn i sa n).1 ≤ 64 ∧ (shapeIn i sa n).2 % 8 = 0 ∧
    (shapeIn i sa n).2 ≤ 64 ∧ ((shapeIn i sa n).1 = 0 ↔ (shapeIn i sa n).2 = 0))) &&
  decide (((List.range 8).map fun n => 4 * (shapeIn i sa n).1 * (shapeIn i sa n).2).sum ≤ 65536)
/-- TCFG to four tiles of 64 by 64, the limit; to a fifth, and to 72 rows; while another team owns the tiles. -/
theorem witness_tilesAndMatrixFlags_tcfg :
    (Shows (setS base [(4, 0x40404040), (5, 0x40404040)]) 8 g7 false fall fun i _ => ok (i.ready (sFields 4 4) []) && ownsB i &&
      shapesB i 4 && (coreOf i).claims.isEmpty &&
      isNext (exec (.tcfg (fT 0 4 0 0 .zr)) i.s) fun t => decide ((t.coreSt 0).owner = some 2 ∧ ((t.coreSt 0).tile 3).h = 64)) ∧
    (Shows (setS base [(4, 0x40404040), (5, 0x40404040), (6, 0x0808)]) 8 g7 false fall fun i _ => ownsB i && !shapesB i 4 &&
      traps (.tcfg (fT 0 4 0 0 .zr)) i 0x29) ∧
    (Shows (setS base [(4, 0x4048)]) 8 g7 false fall fun i _ => ownsB i && !shapesB i 4 &&
      traps (.tcfg (fT 0 4 0 0 .zr)) i 0x29) ∧
    (Shows { base with cores := [(0, { owner := some 9 })] } 8 g7 false fall fun i _ => !ownsB i &&
      waits (.tcfg (fT 0 4 0 0 .zr)) i && waits (.trel (fT 1 0 0 0 .zr)) i && waits (.mzero none (fT 1 0 0 0 .zr)) i &&
      waits (.mflg (fA (.v 1) zz zz zz)) i) :=
  ⟨shows_of (by decide +kernel), shows_of (by decide +kernel), shows_of (by decide +kernel), shows_of (by decide +kernel)⟩
def alikeB (c : CoreSt) (d n : Nat) : Bool :=
  decide (d + n ≤ 7) && (List.range (n + 1)).all fun k => (c.tile (d + k)).h == (c.tile d).h && (c.tile (d + k)).w == (c.tile d).w
/-- TREL; MZERO of a tile and a tangent tile alike, of an absent tile, and past tile 7. MFLG with and without an owner. -/
theorem witness_tilesAndMatrixFlags_others :
    (Shows (owned { tiles := tiles2 }) (dualSize (some ⟨1, false⟩)) g7 false fall fun i _ => ownsB i &&
      decide (i.tans (some ⟨1, false⟩) = 1 ∧ ((coreOf i).tile 0).h ≠ 0) && alikeB (coreOf i) 0 1 && (coreOf i).claims.isEmpty &&
      !alikeB (coreOf i) 7 1 && decide (((coreOf i).tile 2).h = 0) &&
      (isNext (exec (.mzero (some ⟨1, false⟩) (fT 0 0 0 0 .zr)) i.s) fun t => ((t.coreSt 0).tile 0).at 0 0 == 0) &&
      traps (.mzero (some ⟨1, false⟩) (fT 7 0 0 0 .zr)) i 0x29 && traps (.mzero (some ⟨1, false⟩) (fT 2 0 0 0 .zr)) i 0x29) ∧
    (Shows (owned { tiles := tiles2 }) 8 g7 false fall fun i _ => ownsB i && (coreOf i).claims.isEmpty &&
      isNext (exec (.trel (fT 1 0 0 0 .zr)) i.s) fun t => ((t.coreSt 0).tile 1).h == 0 && ((t.coreSt 0).tile 0).h == 8) ∧
    (Shows (owned {} (withT base fun t => { t with mflags := 5 })) 8 g7 false fall fun i _ => ok (i.ready [] [.v 1]) &&
      decide ((coreOf i).owner = some i.t.id ∧ (coreOf i).mq0 ++ (coreOf i).mq1 = []) &&
      (groupIs (exec (.mflg (fA (.v 1) zz zz zz)) i.s) fun g => (g.vCell 1 1).d.val == 5)) ∧
    (Shows base 8 g7 false fall fun i _ => decide ((coreOf i).owner = none) && ok (i.ready [] [.v 1])) :=
  ⟨shows_of (by decide +kernel), shows_of (by decide +kernel), shows_of (by decide +kernel), shows_of (by decide +kernel)⟩

/-- An operation of tile 0 with INT8 panels at 0 and 0x100 of the team's tile region, of one row and column. -/
def op (n : Nat) (started done : Bool := false) : MOp :=
  { id := 9, team := 2, gid := 4, td := 0, ta := none, tans := 0, acc := false, z := false, skip := false, a0 := 0, ainc := 0
    b0 := 0x100, binc := 0, bsp := false, rowOf := [some 0], rows := 1, cols := 1, afmt := 5, bfmt := 5, bl16 := false
    at_ := false, bt := false, aso := 0, bso := 0, stride := 0, bar := none, count := n, started := started, done := done }
/-- DUAL with a count of 0: the launch's tangents stay out of it (R132). -/
def primal : Option Dual := some ⟨0, false⟩
/-- The operands of an INT8 MLOOP of one K-step: S8 on for A, S12 on for B, S14 on for the formats, S20 for the count. -/
def mloopAt (a0 : W32) (c : CoreSt := { tiles := tiles2 }) : State :=
  owned c (setS base [(8, a0), (11, 0xFFFF0000), (12, 0x100), (14, 0x55), (20, 1)])
def mloopW (td : BitVec 3 := 0) : FmtT := fT td 8 12 14 (.s 20)
/-- MLOOP: aligned and in the region, accepted; misaligned; past the region; into a full queue. -/
theorem witness_matrixOperationAccepted :
    (Shows (mloopAt 0) (dualSize primal) g7 false fall fun i _ => ownsB i && !i.held &&
      ok (i.ready (sFields 8 4 ++ sFields 12 2 ++ sFields 14 2 ++ [⟨.s 20, false⟩]) []) &&
      decide (sNat i 10 = 0 ∧ sNat i 8 % 16 = 0 ∧ sNat i 9 % 16 = 0 ∧ sNat i 13 % 16 = 0 ∧ sNat i 12 % 16 = 0 ∧
        (mxClass (sNat i 14 % 16)).isSome = true ∧ (mxClass (sNat i 14 / 16 % 16)).isSome = true ∧ sNat i 14 < 2 ^ 11) &&
      (i.release 1).isOk && decide ((coreOf i).mq0.length < 4) &&
      isNext (exec (.mloop primal mloopW) i.s) fun t => (t.coreSt 0).mq0.length == 1) ∧
    (Shows (mloopAt 8) (dualSize primal) g7 false fall fun i _ => ownsB i && decide (sNat i 8 % 16 ≠ 0) &&
      traps (.mloop primal mloopW) i 0x03) ∧
    (Shows (mloopAt 0x30000) (dualSize primal) g7 false fall fun i _ => ownsB i &&
      decide (sNat i 8 % 16 = 0 ∧ i.l.tileUnits * 256 = 0x30000) && traps (.mloop primal mloopW) i 0x12) ∧
    (Shows (mloopAt 0 { tiles := tiles2, mq0 := List.replicate 4 (op 1) }) (dualSize primal) g7 false fall fun i _ =>
      decide (4 ≤ (coreOf i).mq0.length) &&
      groupIs (exec (.mloop primal mloopW) i.s) fun g => decide (g.wait = .blocked)) :=
  ⟨shows_of (by decide +kernel), shows_of (by decide +kernel), shows_of (by decide +kernel), shows_of (by decide +kernel)⟩
/-- MLOOP of tile 0 from tile 0 over two K-steps: TALIAS. -/
theorem witness_matrixOperationAccepted_alias :
    Shows (setS (mloopAt 0) [(20, 2)]) (dualSize primal) g7 false fall fun i _ => ownsB i &&
      traps (.mloop primal { mloopW with asrc := true }) i 0x28 := shows_of (by decide +kernel)

/-- MST and MLD of FP32 tiles at an address of the tile region, rows of 32 bytes, with S24 to S27. -/
def moveAt (addr : W32) : State := owned { tiles := tiles2 } (setS base [(24, addr), (25, 32), (27, 0xFFFF0000)])
theorem witness_tileStoresAndLoads :
    (Shows (moveAt 0x100) (dualSize primal) g7 false fall fun i _ =>
      let m : Moves i (fT 0 24 0 0 .zr) := {}
      ownsB i && ok (i.ready (sFields 24 4) []) && (coreOf i).claims.isEmpty && !i.held && i.s.pend.isEmpty &&
      decide (m.addr % m.size = 0 ∧ m.stride % m.size = 0 ∧ m.elem 7 m.cols ≤ i.l.tileUnits * 256 ∧ m.rows = 8 ∧ m.tile.h = 8 ∧
        m.cols ≤ m.tile.w ∧ m.cols * m.size ≤ m.stride ∧ m.ctl = 0 ∧ m.last / 65536 = 0xFFFF) &&
      i.s.inflight.isEmpty &&
      (isNext (exec (.mst primal (fT 0 24 0 0 .zr)) i.s) fun t => t.tileByte (i.s.siteOf 4) 2 0x100 == 5 &&
        t.inflight.length == 8 && t.inflight.all fun v => v.owed == 1) &&
      isNext (exec (.mld primal (fT 0 24 0 0 .zr)) i.s) fun t => ((t.coreSt 0).tile 0).at 0 0 == 0) ∧
    (Shows (moveAt 0x102) (dualSize primal) g7 false fall fun i _ => ownsB i && ok (i.ready (sFields 24 4) []) &&
      traps (.mst primal (fT 0 24 0 0 .zr)) i 0x03 && traps (.mld primal (fT 0 24 0 0 .zr)) i 0x03) ∧
    (Shows (moveAt 0x2FF04) (dualSize primal) g7 false fall fun i _ => ownsB i && ok (i.ready (sFields 24 4) []) &&
      traps (.mst primal (fT 0 24 0 0 .zr)) i 0x12 && traps (.mld primal (fT 0 24 0 0 .zr)) i 0x12) :=
  ⟨shows_of (by decide +kernel), shows_of (by decide +kernel), shows_of (by decide +kernel)⟩

/-- An operation at the head of queue 0, with ones in row 0 of its A panel and in column 0 of its B panel. -/
def queued (m : MOp) : State :=
  owned { tiles := tiles2, mq0 := [m], claims := [⟨true, 9, [0], none⟩] } (withT base fun t => { t with
    tile := ((List.range 32).map fun k => (k, (1 : Byte))) ++ (List.range 32).map fun k => (0x100 + k, 1) })
/-- An operation begins, with K-steps and with none; and completes, without and with a barrier. -/
theorem witness_matrixOperationsRun :
    (∀ n ∈ [0, 1], (queued (op n)).teamLive 2 = true ∧ ((queued (op n)).coreSt 0).claimFree true 9 (op n).names = true ∧
      isNext (exec (.matrixOperationStart 0 false) (queued (op n))) (fun t =>
        (t.coreSt 0).mq0.all fun m => m.started && m.done == decide (n = 0)) = true) ∧
    isNext (exec (.matrixOperationComplete 0 false) (queued (op 1 true true))) (fun t =>
      (t.coreSt 0).mq0.isEmpty && (t.coreSt 0).claims.isEmpty) = true ∧
    isNext (exec (.matrixOperationComplete 0 false) (queued { op 1 true true with bar := some 3 })) (fun t =>
      (t.team? 2).any fun u => (look {} u.bars 3).ph) = true ∧
    isNext (exec (.matrixOperationComplete 0 false) (withT (queued { op 1 true true with bar := some 3 }) fun t =>
      { t with bars := [(3, { count := 9, arr := 65535 })] })) (fun t =>
      (t.team? 2).any fun u => (look {} u.bars 3).brk) = true := by decide +kernel
/-- A K-step adds 32 products of ones; one that meets an error fails the launch. -/
theorem witness_kSteps :
    let s := queued (op 1 true)
    (s.coreSt 0).runnable false = some (op 1 true) ∧ ((s.coreSt 0).runnable true).isSome = false ∧ s.teamLive 2 = true ∧
    (s.launch? 1).map (·.fate) = some none ∧
    isNext (exec (.kStep 0 false) s) (fun t => ((t.coreSt 0).tile 0).at 0 0 == 32 && ((t.coreSt 0).tile 0).at 0 1 == 0) = true ∧
    isNext (exec (.kStep 0 false) (queued { op 1 true with afmt := 6, bfmt := 6 })) (fun t =>
      ((t.coreSt 0).tile 0).at 0 0 == 16) = true ∧
    (s.ctx? 0).any (fun x => decide (x.faultQ = [] ∧ s.pkg.orphanQ = [] ∧ x.desc.ringOk = true ∧ s.ringFenced x = false ∧
      s.entryRoom x = true)) = true ∧
    isNext (exec (.kStep 0 true) s) (fun t => (t.launch? 1).any fun l => l.fate == some 1) = true := by decide +kernel

/-! ### Landings and the steps of groups -/

def prod (kind : PendKind) (dst : Opnd) : Pending :=
  { id := 50, gid := 4, pc := 0, region := 0, kind := kind, dst := dst, uni := false, bytes := 4, lanes := [0] }
def flying (p : Pending) (s : State := base) : State :=
  { withG s (fun g => g.setV 3 0 { full := false }) with pend := [p], nextId := 60 }
def fliesB (s : State) (p : Pending) : Bool :=
  decide (s.pend? p.id = some p) && p.forced.isEmpty && (s.group? p.gid).any fun g => g.status == .running
def v3is (x : W32) (t : State) : Bool :=
  t.pend.isEmpty && (t.group? 4).any fun g => g.vCell 3 0 == { d := plain x, full := true }
def loadOf (kind : PendKind) (dst : Opnd) : Pending :=
  { prod kind dst with accs := [{ lane := 0, k := 0, loc := .mem 0x20000, va := 0 }] }
/-- A load of 4 bytes of the page table's root, well and with an error; an LDQ; CRND's and MFS's data. -/
theorem witness_landings_producers :
    (let p := loadOf .load (.v 3)
     fliesB (flying p) p = true ∧ (∀ a ∈ p.accs, a.val ≠ some []) ∧ (flying p).fencedAt 0x20000 = false ∧
     (∀ a ∈ p.accs, (flying p).canRead ((flying p).siteOf 4) p.bytes a.loc = true) ∧
     isNext (exec (.loadLands 50 false) (flying p)) (v3is 0x30001) = true ∧
     groupIs (exec (.loadLands 50 true) (flying p)) (fun g => g.async.map (·.code) == [0x31]) = true) ∧
    (let p := loadOf .ldq (.q 1)
     let s := withG (flying p) fun g => g.setQueue 0 1 { depth := 1, entries := [.reserved 50 false] }
     fliesB s p = true ∧ groupIs (exec (.ldqEntryLands 50 false) s) (fun g =>
       (g.queue 0 1).entries == [.landed (plain 0x30001)]) = true) ∧
    (let p := { prod .crnd (.v 3) with data := [(0, [plain 77])] }
     fliesB (flying p) p = true ∧ isNext (exec (.crndLands 50) (flying p)) (v3is 77) = true) ∧
    (∀ x ∈ [(0x102, (64 : W32)), (0x140, 0), (0x180, 0)],
      let p := prod (.mfs x.1) (.v 3)
      fliesB (flying p) p = true ∧ isNext (exec (.remoteMfsLands 50) (flying p)) (fun t => t.pend.isEmpty &&
        (x.1 == 0x140 || v3is x.2 t)) = true) := by decide +kernel
/-- A producer of a function at the root's address in one lane: ATOM.ADD of 3, and CAS to 9 with a comparand that is met or not. -/
def atomics (fn : Nat) (ds : List Datum) : Pending := { loadOf (.atom ⟨fn, 4, false⟩) (.v 3) with data := [(0, ds)] }
/-- The old value lands; a CAS whose comparand is met writes 9, and one whose comparand is not writes nothing; an error. -/
theorem witness_landings_cas :
    (∀ c ∈ [(0x30001, 9), (0x30002, 0x30001)],
      let p := atomics 12 [plain 9, plain (BitVec.ofNat 32 c.1)]
      fliesB (flying p) p = true ∧ isNext (exec (.atomResultLands 50 false) (flying p)) (fun t => v3is 0x30001 t &&
        t.latestBytes 0x20000 4 == leBytes 4 c.2) = true) ∧
    (let p := atomics 12 [plain 9, plain 0x30001]
     isNext (exec (.atomResultLands 50 true) (flying p)) (fun t => t.inflight.isEmpty && t.pend.isEmpty &&
       (t.group? 4).any fun g => g.async.map (·.code) == [0x31]) = true) := by decide +kernel
/-- An ATOM.ADD of 3 in one lane: the old value lands, the new one is in place. -/
theorem witness_landings_atomics :
    let p := atomics 0 [plain 3]
    fliesB (flying p) p = true ∧ (flying p).inflight = [] ∧ (flying p).memOk ∧ (flying p).named ∧ (flying p).ordered ∧
    atomNew 0 4 (ofLe ((flying p).latestBytes 0x20000 4)) (ofLe (dataBytes 4 0 [plain 3])) 0 = some 0x30004 ∧
    isNext (exec (.atomResultLands 50 false) (flying p)) (fun t => v3is 0x30001 t &&
      t.latestBytes 0x20000 4 == leBytes 4 0x30004) = true := by decide +kernel
/-- A CLAIM of two lanes, one with an estate, lands in V10 and V11 with its status in V3; and with an error. -/
theorem witness_estatesAreClaimed_land :
    let p := { prod (.claim 10 2 [⟨0, 0, some (estate 0 0 [5, 6])⟩, ⟨1, 1, none⟩]) (.v 3) with lanes := [0, 1] }
    fliesB (flying p) p = true ∧ groupIs (exec (.claimLands 50 false) (flying p)) (fun g =>
      (g.vCell 11 0).d.val == 6 && (g.vCell 10 1).d.val == 0 && (g.vCell 3 1).d.val == 1) = true ∧
    isNext (exec (.claimLands 50 true) (flying p)) (fun t => t.estates.map (·.level) == [.discarded 3] &&
      (t.group? 4).any fun g => g.async.map (·.code) == [0x31]) = true := by decide +kernel
/-- Causes of a group with and without producers; a fill; walks that succeed and fail; a release by the Regulator. -/
theorem witness_groupSteps :
    (let s := withG base fun g => { g with async := [{ code := 0x31, pc := 8 }] }
     s.ringOf 0 = true ∧ groupIs (exec (.asyncFault 4) s) (fun g => g.status == .awaiting && g.cause == 0x131) = true ∧
     groupIs (exec (.asyncFault 4) { s with pend := [prod .crnd (.v 3)] }) (fun g => g.status == .draining) = true) ∧
    groupIs (exec (.instructionMissFill 4) (withG base fun g => { g with wait := .miss 7 })) (fun g => g.wait == .none) = true ∧
    (∀ x ∈ [(5, true), (0x4000, false)],
      let s := { withG base (fun g => { g with wait := .walk }) with tlb := [], walks := [⟨0, 0, x.1, [4]⟩] }
      isNext (exec (.translationWalk 0) s) (fun t => t.walks.isEmpty && t.tlb.isEmpty == !x.2 &&
        (t.group? 4).any fun g => g.wait == .none) = true) ∧
    groupIs (exec (.barrierRelease 4) (withG base fun g => { g with wait := .barDone 2 4 true })) (fun g =>
      g.wait == .barGo 2 4 true) = true := by decide +kernel

/-! ### The scheduler -/

/-- The installed context with one port and no work. -/
def idle : State := { base with groups := [], teams := [], launches := [], pkg := { base.pkg with ready := 0x400 } }
def aLaunch : Launch := { id := 1, ctx := 0, record := fetchRecord, seq := 1, queue := 0 }
/-- A launch port takes a LAUNCH; turns away a short record, and one when its queue holds 256; a LAUNCH of a PUSH. -/
theorem witness_launchesBegin_accepted :
    idle.portUp 0 = true ∧ fetchRecord.length = 64 ∧ recNat fetchRecord 0 1 = 0x40 ∧
    isNext (exec (.launchPort 0 0 fetchRecord) idle) (fun t => t.launches.length == 1 && look 0 t.pkg.portReply 0 == 2) = true ∧
    isNext (exec (.launchPort 0 0 (fetchRecord.take 63)) idle) (fun t => t.launches.isEmpty) = true ∧
    isNext (exec (.launchPort 0 0 fetchRecord) { idle with launches := List.replicate 256 aLaunch }) (fun t =>
      t.launches.length == 256) = true ∧
    isNext (exec (.launch 0 2 0 4 fetchRecord) base) (fun t => t.launches.length == 2) = true := by decide +kernel
def headed (f : Launch → Launch) : State :=
  { idle with launches := [f aLaunch], nextId := 9, pkg := { idle.pkg with ready := 0x4FF } }
def headsB (s : State) (l : Launch) : Bool :=
  decide (s.launch? 1 = some l) && s.atHead 0 0 1 && !l.closed && !l.allPlaced && !l.finished
def dep (l : Launch) : Launch := { l with record := splice l.record 0x20 (leBytes 8 0x50000) }
def depOk : State := headed dep
/-- A dependence on a byte that is 0, on one that is 1, on an unmapped one, and on a known status. -/
theorem witness_launchesBegin_dependences :
    ((depOk.launch? 1).any fun l => headsB depOk l && l.cleared && decide (l.depAddr = 0x50000 ∧ l.depDone = false ∧
      l.broken fetchDesc l.pusherBars = none ∧ l.depStatus = none ∧ depOk.producer l = none)) = true ∧
    isNext (exec (.dependenceResolve 0 0) depOk) (fun t => (t.launch? 1).any fun l => l.depDone && l.fate == none) = true ∧
    isNext (exec (.dependenceResolve 0 0) (headed fun l => { l with record := splice l.record 0x20 (leBytes 8 0x20000) }))
      (fun t => (t.launch? 1).any fun l => l.depDone && l.fate == some 3) = true ∧
    isNext (exec (.dependenceResolve 0 0) (headed fun l => { l with record := splice l.record 0x20 (leBytes 8 0x60000000) }))
      (fun t => (t.launch? 1).any fun l => l.depDone && l.fate == some 3) = true ∧
    isNext (exec (.dependenceResolve 0 0) (headed fun l => { dep l with depStatus := some 2 }))
      (fun t => (t.launch? 1).any fun l => l.depDone && l.fate == some 3) = true := by decide +kernel
/-- Placement on an empty die; a verdict 0; a broken record. -/
theorem witness_launchesBegin_placement :
    (((headed id).launch? 1).any fun l => headsB (headed id) l && l.cleared && decide (l.depAddr = 0 ∧
      l.broken fetchDesc l.pusherBars = none ∧ 0 ∈ l.maskDies fetchDesc) && (headed id).usable fetchDesc 0 &&
      (headed id).rectFits l 0 0 0 && ((headed id).launches.all fun m => !m.before l)) = true ∧
    isNext (exec (.teamPlacement 1 0 0 0) (headed id)) (fun t => t.teams.length == 1 && t.groups.length == 1) = true ∧
    isNext (exec (.teamPlacement 1 0 0 0) (headed fun l => { l with gslot := 9, verdict := some false })) (fun t =>
      (t.launch? 1).any fun l => l.fate == some 5) = true ∧
    isNext (exec (.teamPlacement 1 0 0 0) (headed fun l => { l with record := splice l.record 0x28 [0, 0] })) (fun t =>
      (t.launch? 1).any fun l => l.fate == some 1) = true := by decide +kernel
def finishedOne : State := headed fun l =>
  { l with placed := 1, record := splice (splice l.record 0x3A [0, 0]) 0x18 (leBytes 8 0x50000), red := { exited := 32 } }
def cmdOf (qid : Nat) (b : List Byte) : Cmd :=
  { id := 70, ctx := 0, qid := qid, team := 2, lid := 1, die := 0, core := 0, cluster := 3, corner := 0, teampos := 0
    priv := false, bytes := b, gslot := 0, state := .running }
def withCmd (c : Cmd) (s : State := base) : State := { s with cmds := [c], nextId := 90 }
def taskCmd (b : List Byte) : State := withCmd (cmdOf 0x3000 b)
/-- TASK of graph 3, node 1, with the interval 0 to `hi`. -/
def taskBytes (hi : Nat) : List Byte :=
  [0x50, 0, 0, 0, 0xFF, 0xFF, 0, 0, 3, 0, 1, 0, 0, 0, 0, 0] ++ leBytes 4 0 ++ leBytes 4 hi ++ leBytes 4 4 ++ List.replicate 36 0
/-- A launch completes; a TASK with iterations, with none, and of a node that is defined. -/
theorem witness_launchesEndAndTasksAreDefined :
    ((finishedOne.launch? 1).any fun l => finishedOne.launchIdle l && l.chain == 0 && l.cbar == 0xFFFF) = true ∧
    finishedOne.pkg.orphanQ = [] ∧ (finishedOne.translate .host fetchDesc ⟨true, false, none⟩ .write 0x50000 32).isOk = true ∧
    isNext (exec (.launchComplete 1) finishedOne) (fun t => t.launches.isEmpty && Memory.read t.mem 0x50008 == 32) = true ∧
    isNext (exec (.task 70) (taskCmd (taskBytes 10))) (fun t => t.cmds.isEmpty && (t.ctx? 0).any fun c =>
      c.nodes.map (fun y => (y.graph, y.node, y.hi, y.state)) == [(3, 1, 10, .ready)]) = true ∧
    isNext (exec (.task 70) (taskCmd (taskBytes 0))) (fun t => t.cmds.isEmpty) = true ∧
    isNext (exec (.task 70) { taskCmd (taskBytes 10) with ctxs := ready3.ctxs }) (fun t =>
      t.cmds.isEmpty && (t.launch? 1).any fun l => l.fate == none) = true := by decide +kernel

/-! ### Commands and copy engines -/

/-- A command at device scope: opcode, the bytes 9 and 8 with SC 4, LEN, SRC, DST, and the three words at 0x20, 0x28 and 0x30. -/
def cbn (opc x9 x8 len src dst x20 x28 x30 : Nat) : List Byte :=
  [BitVec.ofNat 8 opc, 0, 0, 0, 0xFF, 0xFF, 0, 0, BitVec.ofNat 8 x8, BitVec.ofNat 8 x9, 0, 0] ++ leBytes 4 len
  ++ leBytes 8 src ++ leBytes 8 dst ++ leBytes 8 x20 ++ leBytes 8 x28 ++ leBytes 8 x30 ++ leBytes 8 0
def cb (opc x9 x8 len src dst x20 x28 x30 : Nat) : List Byte := cbn opc x9 (4 + x8) len src dst x20 x28 x30
def ce (b : List Byte) : Cmd := cmdOf 5 b
def engagedB (s : State) : Bool := s.cmds.all fun c =>
  decide (c.qid < 256 ∧ c.state = .running ∧ c.fate = none ∧ c.fetched < c.len ∧ s.summonFor c = some s) && !s.engineFenced c && !s.ecc && s.serves c
def staged (r : Res) : List Byte := match r with
  | .next t => t.cmds.flatMap (·.staged)
  | _ => []
/-- COPY and COPY2D of the root's entry, from memory and from tile memory, FILL, and WSLOAD of die 0. -/
theorem witness_copyEnginesReadAndDeliver_reads :
    (let s := withCmd (ce (cb 1 0 0 8 0x20000 0x50000 0 0 0))
     engagedB s = true ∧ staged (exec (.copy 70 3) s) = [1, 0, 3]) ∧
    (let s := withCmd (ce (cb 2 0 0 2 0x20000 0x50000 2 2 2))
     engagedB s = true ∧ staged (exec (.copy2d 70 9) s) = [1, 0, 3, 0]) ∧
    (let s := withCmd (ce (cb 1 0 16 4 0x40 0x50000 0 0 0)) (withT base fun t => { t with tile := [(0x40, 9)] })
     engagedB s = true ∧ staged (exec (.copy 70 4) s) = [9, 0, 0, 0]) ∧
    (let s := withCmd (ce (cb 5 0 0 6 0 0x50000 0x04030201 0 0))
     engagedB s = true ∧ staged (exec (.fill 70 6) s) = [1, 2, 3, 4, 1, 2]) ∧
    (let s := withCmd (ce (cb 6 0 0x80 4 0x20000 windowBase 0 0 0)) (haveWs base)
     engagedB s = true ∧ staged (exec (.wsload 70 4) s) = [1, 0, 3, 0]) := by decide +kernel
/-- REBLOCK of one row of eight 8-bit elements, toward CB32 (zero past the eighth) and from it; GATHER of row 0 and of no row. -/
theorem witness_copyEnginesReadAndDeliver_blocks :
    (let s := withCmd (ce (cb 3 1 0 1 0x20000 0x50000 8 32 0))
     engagedB s = true ∧ (s.cmds.all fun c => c.elemBits == 8) = true ∧ staged (exec (.reblock 70 10) s) =
       [1, 0, 3, 0, 0, 0, 0, 0, 0, 0]) ∧
    (let s := withCmd (ce (cb 3 5 0 8 0x20000 0x50000 32 32 0))
     engagedB s = true ∧ staged (exec (.reblock 70 3) s) = [1, 0, 3]) ∧
    (let s := withCmd (ce (cb 4 0 0 4 0x20000 0x50000 2 0x60000 4)) { base with
       mem := Memory.writeCells base.mem (cellsAt 0x60004 [0xFF, 0xFF, 0xFF, 0xFF]) }
     engagedB s = true ∧ staged (exec (.gather 70 1) s) = [1, 0, 3, 0] ∧
       isNext (exec (.gather 70 1) s) (fun t => staged (exec (.gather 70 1) t) == [1, 0, 3, 0, 0, 0, 0, 0]) = true) ∧
    -- a row that a suspension has cut after one byte (R341)
    (let s := withCmd { ce (cb 4 0 0 4 0x20000 0x50000 2 0x60000 4) with delivered := 1, fetched := 1 }
     engagedB s = true ∧ staged (exec (.gather 70 1) s) = [0, 3, 0]) := by
  decide +kernel
/-- DSNAP of a context with one dirty page; a delivery to memory, to tile memory and to the weight store. -/
theorem witness_copyEnginesReadAndDeliver_delivers :
    (let s := withCmd (ce (cb 7 0 0 8 0 0x50000 0 0 0)) (withC base fun c =>
       { c with dirty := [3], desc := { c.desc with dirtyPages := 64 } })
     engagedB s = true ∧ staged (exec (.dsnap 70) s) = [8, 0, 0, 0, 0, 0, 0, 0]) ∧
    (∀ x ∈ [(0, 0x50000), (0x40, 0x40), (0x80, windowBase)],
      let c := { ce (cbn (if x.1 = 0x80 then 6 else 1) 0 (3 + x.1) 8 0x20000 x.2 0 0 0) with staged := [7, 6], fetched := 2 }
      let s := withCmd c (haveWs base)
      c.moving = 0 ∧ c.sc = 3 ∧ c.overlap = false ∧ 2 ≤ c.runFrom 0 ∧ 2 < c.len ∧ s.engineFenced c = false ∧ s.serves c = true ∧
      s.memOk ∧ s.named ∧ s.ordered ∧ s.inflight = [] ∧ s.pend = [] ∧ s.summonFor c = some s ∧
      isNext (exec (.delivery 70 2) s) (fun t =>
        (t.cmds.all fun d => d.delivered == 2 && d.staged.isEmpty) && ((t.team? 2).any fun u => look 0 u.wptr 5 == 2) &&
        if x.1 = 0 then t.latestBytes 0x50000 2 == [7, 6]
        else if x.1 = 0x40 then (t.team? 2).any fun u => look 0 u.tile 0x41 == 6
        else look 0 t.ws 1 == 6) = true) := by decide +kernel
/-- A delivery at device scope, whose write is on its way then, and the next one, once that write has been performed. -/
theorem witness_copyEnginesReadAndDeliver_spreads :
    let c := { ce (cb 1 0 0 8 0x20000 0x50000 0 0 0) with staged := [7, 6], fetched := 2 }
    let s := withCmd c
    4 ≤ c.sc ∧ c.dsp = 0 ∧ c.moving = 0 ∧ 2 ≤ c.runFrom 0 ∧ s.inflight = [] ∧ s.memOk ∧ s.named ∧ s.ordered ∧
    isNext (exec (.delivery 70 2) s) (fun t => (t.cmds.all fun d => d.delivered == 0 && d.moving == 2 && d.staged.isEmpty) &&
      (t.inflight.all fun w => w.cmd == some 70 && w.arrived.isEmpty && w.off == 0) &&
      decide (t.viewBytes none .host 0x50000 2 = s.viewBytes none .host 0x50000 2)) = true ∧
    (let m := { c with staged := [], moving := 2 }
     (withCmd m).moved m = 2 ∧ isNext (exec (.delivery 70 1) (withCmd m)) (fun t =>
       (t.cmds.all fun d => d.delivered == 2 && d.moving == 0) && ((t.team? 2).any fun u => look 0 u.wptr 5 == 2)) = true) := by
  decide +kernel
/-- A command that is held, one that starts, one that breaks its checks; one that has delivered all, with a return word, one that met
a cause, and one with verdict 0. -/
theorem witness_commandsStartAndComplete :
    let c := { ce (cb 1 0 0 8 0x20000 0x50000 0 0 0) with state := .queued }
    let x := (base.ctx? 0)
    isNext (exec (.commandStart 70) (withCmd { c with gslot := 9 })) (fun t => t.cmds.all fun d => d.state == .held) = true ∧
    (x.all fun x => ((withCmd c).copyCheck c x).isNone && (withCmd c).cmdHead c) = true ∧
    isNext (exec (.commandStart 70) (withCmd c)) (fun t => t.cmds.all fun d => d.state == .running) = true ∧
    (let bad := { c with bytes := cb 1 0 0xC0 8 0x20000 0x50000 0 0 0 }
     (x.any fun x => ((withCmd bad).copyCheck bad x).isSome) = true ∧
       isNext (exec (.commandStart 70) (withCmd bad)) (fun t => t.cmds.isEmpty && (t.launch? 1).any fun l => l.fate == some 1) = true) ∧
    isNext (exec (.commandComplete 70) (withCmd { c with state := .running, delivered := 8, ret := some ⟨4, 0, 1, 5⟩ })) (fun t =>
      t.cmds.isEmpty && t.returns == [(90, ⟨4, 0, 1, 5⟩, 0x800)]) = true ∧
    isNext (exec (.commandComplete 70) (withCmd { c with state := .running, fate := some { code := 0x31 } })) (fun t =>
      t.cmds.isEmpty && (t.launch? 1).any fun l => l.fate == some 1) = true ∧
    isNext (exec (.commandComplete 70) (withCmd { c with gslot := 9, verdict := some false })) (fun t => t.cmds.isEmpty) = true ∧
    groupIs (exec (.returnWordLands 91) { withG base (fun g => g.setQueue 0 1 { depth := 1, entries := [.reserved 5 true] }) with
      returns := [(91, ⟨4, 0, 1, 5⟩, 0x800)] }) (fun g => (g.queue 0 1).entries == [.landed (plain 0x800)]) = true := by
  decide +kernel
def write_ (mca : Bool) : State := { base with
  nextId := 31
  inflight := [{ id := 30, site := { gid := some 4, team := 2 }, cells := [(0x50000, 7)], base := 0x50000, len := 1, mca := mca
                 placed := true, arrived := if mca then [] else [.socket 0] }] }
/-- A write arrives at its own die already and then at another; the moment of an MCA write; a refresh window. -/
theorem witness_writesAndRefreshWindows :
    (write_ false).memOk ∧ (write_ false).named ∧ (write_ false).ordered ∧ (write_ true).ordered ∧
    ((write_ false).inflight.all (write_ false).clear && (write_ true).inflight.all (write_ true).clear) = true ∧
    isNext (exec (.writeArrival 30 (.socket 3)) (write_ false)) (fun t => t.viewByte none (.socket 3) 0x50000 == 7) = true ∧
    isNext (exec (.mcaSingleMoment 30) (write_ true)) (fun t => t.inflight.isEmpty && Memory.read t.mem 0x50000 == 7) = true ∧
    (let s := { write_ false with inflight := (write_ false).inflight.map fun (w : InWrite) =>
       { w with cells := [(hostBase + 8, 7)], base := hostBase + 8, arrived := [] } }
     s.named ∧ (s.inflight.all fun w => w.single && w.flat && s.clear w && !s.bears w) = true ∧
     isNext (exec (.writeArrival 30 .host) s) (fun t => t.inflight.isEmpty && t.viewByte none (.socket 3) (hostBase + 8) == 7) = true) ∧
    (let s := { write_ false with inflight := (write_ false).inflight.map fun (w : InWrite) =>
       { w with tile := some 2, cells := [(8, 7)], base := 8, arrived := [] } }
     s.named ∧ (s.inflight.all fun w => w.single && !w.flat && s.clear w && !s.bears w) = true ∧
     isNext (exec (.writeArrival 30 (.socket 0)) s) (fun t => t.inflight.isEmpty && t.tileByte {} 2 8 == 7) = true) ∧
    (let s := { base with pkg := { base.pkg with ready := 0xFF } }
     isNext (exec (.wsRefresh 0 0) s) (fun t => (t.dieSt 0).refresh == some 0 && (t.dieSt 0).nextBank == 1 &&
       isNext (exec (.refreshWindowEnd 0 0) t) fun u => (u.dieSt 0).refresh == none) = true) := by decide +kernel

/-! ### Exchange -/

/-- An exchange command: opcode, the word at 8, count, list, table, drop map, status, rows. -/
def xb (opc x8 n list xtab dmap stat rows : Nat) : List Byte :=
  [BitVec.ofNat 8 opc, 0, 0, 0, 0xFF, 0xFF, 0, 0] ++ leBytes 4 x8 ++ leBytes 4 n ++ leBytes 8 list ++ leBytes 8 xtab
  ++ leBytes 8 dmap ++ leBytes 8 stat ++ leBytes 8 rows ++ leBytes 8 0
/-- The table entry of an expert at home 0 with eight slots. -/
def xEntry : List Byte := leBytes 4 0 ++ leBytes 2 8 ++ [16, 1] ++ leBytes 8 0x50000 ++ leBytes 4 4 ++ leBytes 4 256 ++ leBytes 8 0x80000
  ++ List.replicate 32 0
/-- An expert table at 0xA0000 whose entry 3 is in use. -/
def xTable : List Host.Cell := cellsAt (0xA0000 + 192) xEntry
/-- EXCH on XE.0 of a block at 0x70000 for expert 3: sent, or registered. -/
def exch (reg : Bool) : State :=
  withCmd { cmdOf 0x1000 (xb 0x20 7 1 0x60000 0xA0000 0x90000 0 0) with
    descs := [.bytes (leBytes 8 0x70000 ++ leBytes 8 (3 + if reg then 2 ^ 63 else 0))], entries := [(3, .bytes xEntry)] } { base with
    mem := Memory.writeCells base.mem xTable }
def exchangesB (s : State) : Bool := s.cmds.all fun c =>
  decide (0x1000 ≤ c.qid ∧ c.qid < 0x1008 ∧ c.state = .running ∧ c.fate = none ∧ c.taken < c.count) && !s.engineFenced c &&
  s.xServes c && s.cmds.all fun y => !y.sending c
def aBlock (id home seq : Nat) (coded : Bool) : Block :=
  { id := id, cid := 70, ctx := 0, round := 7, dom := 0, sender := 0, seq := seq, expert := 3, home := home, peer := 0, coded := coded
    data := List.replicate 512 0, entry := xEntry, dmap := 0x90000 }
/-- Context 0 in round 7 of a domain, with `n` of expert 3's blocks admitted and a capacity of 4. -/
def inRound (dom n : Nat) (c : Ctx) : Ctx := { c with
  experts := [(3, ⟨0, 8, 16, 1, 0, 4, 256⟩)], rounds := [{ r := 7, dom := dom, admitted := keep 0 [] 3 n }]
  xtab := some 0xA0000, desc := { c.desc with xtag := 9, xv := true } }
/-- A block on its way to home 0. -/
def arriving (n : Nat) : State := { exch false with blocks := [aBlock 80 0 0 false], ctxs := (withC base (inRound 0 n)).ctxs }
/-- EXCH of a sent and of a registered block; with LOAD; of a descriptor and of a block that cannot be read. -/
theorem witness_exchangeOfBlocks_sent :
    exchangesB (exch false) = true ∧ isNext (exec (.exch 70) (exch false)) (fun t =>
      (t.cmds.all fun d => d.taken == 1) && t.blocks.map (fun b => (b.expert, b.home, b.seq)) == [(3, 0, 0)] &&
      t.sideInfo.length == 1) = true ∧
    exchangesB (exch true) = true ∧ isNext (exec (.exch 70) (exch true)) (fun t =>
      (t.cmds.all fun d => d.taken == 1 && d.delivered == 4) && t.blocks.isEmpty && t.sideInfo.length == 1) = true ∧
    (let s := { exch false with cmds := (exch false).cmds.map fun c => { c with descs := [.cause 0x10] } }
     exchangesB s = true ∧
     isNext (exec (.exch 70) s) (fun t => t.cmds.all fun d => d.fate.map (·.code) == some 0x10) = true) := by
  decide +kernel
/-- EXCH with LOAD of a table whose one expert in use is 3. -/
def loading : State := { exch false with
  cmds := (exch false).cmds.map fun c => { c with bytes := xb 0x20 (7 + 2 ^ 17) 1 0x60000 0xA0000 0x90000 0 0 } }
theorem witness_exchangeOfBlocks_load :
    exchangesB loading = true ∧ (loading.cmds.all fun c => c.loads) = true ∧
    (loading.ctx? 0).any (fun x => (loading.xRead loading 0 x 0xA0000 16384).isOk) = true := by decide +kernel
theorem witness_exchangeOfBlocks_decided :
    (∀ n ∈ [3, 4], ((arriving n).ctx? 0).any (fun x => (arriving n).xRead (arriving n) 0 x (0xA0000 + 192) 64 == .ok xEntry) = true) ∧
    isNext (exec (.blockArrival (.own 80)) (arriving 3)) (fun t => (t.cmds.all fun d => d.done == 1) &&
      (t.ctx? 0).any fun c => (c.round? 0 7).any fun r => look 0 r.admitted 3 == 4 && look 0 r.offered 3 == 1) = true ∧
    isNext (exec (.blockArrival (.own 80)) (arriving 4)) (fun t => (t.cmds.all fun d => d.dropped == 1) && t.blocks.isEmpty &&
      Memory.read t.mem 0x90003 == 0x80 && Memory.read t.mem 0x90002 == 3) = true := by decide +kernel
/-- A block of sender 12 of another device for the context of tag 9, which is context 0. -/
def farOne (tag : Nat) : FarBlock := ⟨tag, 7, 12, 5, 3, 0, List.replicate 512 0, false, []⟩
def farState (n : Nat) : State :=
  let s := withC { base with mem := Memory.writeCells base.mem xTable } (inRound 1 n)
  { s with pkg := { s.pkg with linkUp := 1 } }
/-- It is admitted below the capacity, dropped at it, and fails where no context has its tag. -/
theorem witness_exchangeOfBlocks_far :
    (∀ n ∈ [3, 4], (farState n).farComes (farOne 9) = true ∧ ((farState n).tagged 9).isSome = true) ∧
    isNext (exec (.blockArrival (.far (farOne 9))) (farState 3)) (fun t => t.reply == leBytes 4 (2 ^ 30 + 3 * 2 ^ 16 + 3)) = true ∧
    isNext (exec (.blockArrival (.far (farOne 9))) (farState 4)) (fun t => t.reply == leBytes 4 (2 * 2 ^ 30 + 3 * 2 ^ 16)) = true ∧
    (farState 3).tagged 8 = none ∧ (farState 3).farComes (farOne 8) = true ∧
    isNext (exec (.blockArrival (.far (farOne 8))) (farState 3)) (fun t => t.reply == leBytes 4 (3 * 2 ^ 30 + 3 * 2 ^ 16)) = true := by
  decide +kernel
/-- Two coded blocks, each listed where the other goes; the second reaches its receiver; a lost one. -/
def codedPair : State := { arriving 0 with
  blocks := [aBlock 80 0 0 true, aBlock 81 1 1 true]
  sideInfo := [⟨0, 0, 0, 7, 0, 1, List.replicate 512 0, false⟩, ⟨1, 0, 0, 7, 0, 0, List.replicate 512 0, false⟩] }
def riding : State := { codedPair with blocks := [{ aBlock 81 1 1 true with mate := some (80, 0, 0, List.replicate 512 0) }] }
theorem witness_exchangeOfBlocks_coded :
    let b := aBlock 80 0 0 true
    let c := aBlock 81 1 1 true
    codedPair.flying 80 = some b ∧ codedPair.flying 81 = some c ∧ codedPair.codable b c = true ∧
    (codedPair.listed 0 c).map (·.data) = some c.data ∧ (codedPair.listed 1 b).map (·.data) = some b.data ∧
    isNext (exec (.codedPacket (.own 80) 81) codedPair) (fun t => (t.cmds.all fun d => d.done == 1) &&
      t.blocks.any fun y => y.id == 81 && y.mate.isSome) = true ∧
    isNext (exec (.codedPacket (.own 81) 80) riding) (fun t => t.cmds.all fun d => d.done + d.dropped + d.failed == 1) = true ∧
    isNext (exec (.decodeFallback (.own 81)) { riding with sideInfo := [] }) (fun t =>
      (t.blocks.all fun y => !y.coded && y.mate.isNone) && t.cmds.all fun d => d.decevict) = true ∧
    isNext (exec (.decodeFallback (.own 80)) { codedPair with blocks := [{ b with lost := true }] }) (fun t =>
      (t.blocks.all fun y => !y.coded) && t.cmds.all fun d => d.decevict) = true := by decide +kernel
/-- COMBINE of one token of one pair, whose weight is 1: dropped, and admitted in slot 0 with a row that begins with 2. -/
def combines (entry : Nat) : State :=
  withCmd { cmdOf 0x1000 (xb 0x21 (7 + 2 ^ 20) 1 0x60000 0xA0000 0x90000 0 0x50000) with entries := [(3, .bytes xEntry)] } { base with
    mem := Memory.writeCells base.mem (cellsAt 0x60000 (leBytes 4 0 ++ leBytes 4 0x3F800000) ++ cellsAt 0x80000 (leBytes 4 0x40000000)
      ++ cellsAt 0x90000 (leBytes 4 entry) ++ cellsAt (0xA0000 + 192) xEntry) }
def fabric (hadExch : Bool) : State := withC base fun c => { c with
  experts := [(3, ⟨0, 8, 16, 1, 0, 4, 256⟩)]
  fbars := [{ id := 5, fbgrp := 1, r := 7, arrived := [0], hadExch := hadExch, notify := [(2, 3)] }] }
theorem witness_combineAndFabricBarriers_tokens :
    (∀ e ∈ [2 * 2 ^ 30 + 3 * 2 ^ 16, 2 ^ 30 + 3 * 2 ^ 16], exchangesB (combines e) = true ∧
      ((combines e).cmds.all fun c => c.kk == 1 && !c.renorm && c.cbar == 0xFFFF) = true ∧
      isNext (exec (.combine 70) (combines e)) (fun t => (t.cmds.all fun d => d.taken == 1 && d.delivered == 512) &&
        Memory.read t.mem 0x50003 == if e / 2 ^ 30 = 1 then 0x40 else 0) = true) := by decide +kernel
/-- A fabric barrier that all have reached, with exchange in its round and without. -/
theorem witness_combineAndFabricBarriers_barriers :
    (((fabric false).ctx? 0).any fun c => c.fbars.all fun b => (fabric false).allArrived b && !(fabric false).recordedExch c b &&
      (fabric true).recordedExch c { b with hadExch := true }) = true ∧
    isNext (exec (.fabricBarrierComplete 0 5) (fabric false)) (fun t => ((t.ctx? 0).any fun c => c.fbars.isEmpty) &&
      (t.team? 2).any fun u => (look {} u.bars 3).ph) = true ∧
    isNext (exec (.fabricBarrierComplete 0 5) (fabric true)) (fun t => (t.ctx? 0).any fun c =>
      (look? c.experts 3).any fun e => e.avg == 128 && e.cap == 1) = true := by decide +kernel

/-! ### Contexts -/

def powered (s : State := base) : State :=
  { s with pkg := { s.pkg with ready := 0x1FFF, linkUp := 0xFFFF, crown := { s.pkg.crown with state := .running } } }
/-- A descriptor of context 1 with eight queues from number 8. -/
def descBytes (ctx : Nat) : List Byte :=
  leBytes 8 (ctx + 8 * 2 ^ 16 + 8 * 2 ^ 24) ++ leBytes 8 0x20000 ++ leBytes 8 0x21000000 ++ leBytes 8 16 ++ List.replicate 32 0
  ++ leBytes 8 0x31000000 ++ List.replicate 184 0
/-- Context 0 is flushed, without work; the header of its image says so. -/
def imaged : State :=
  let s := withC powered fun c => { c with phase := .flushed, desc := { c.desc with imgSize := 1 } }
  { s with
    mem := Memory.writeCells s.mem (cellsAt 0x30000000 [128, 0, 0, 0, 0, 0, 0, 0, 2])
    groups := [], teams := [], launches := [], cmds := [] }
/-- A descriptor that creates its context, and one whose number is taken; destruction of a context, and of none. -/
theorem witness_contextsComeAndGo :
    (powered).pkg.up = true ∧ (descBytes 1).length = 256 ∧ descZeros (descBytes 1) = true ∧
    (parseDesc (descBytes 1)).legal = true ∧ ((powered).ctxs.all fun c => !(parseDesc (descBytes 1)).clashes c.2.desc) = true ∧
    isNext (exec (.contextCreate (descBytes 1)) powered) (fun t => (t.ctx? 1).isSome && t.pkg.createReply == 0) = true ∧
    isNext (exec (.contextCreate (descBytes 0)) powered) (fun t => t.ctxs.length == 1 && t.pkg.createReply == 1) = true ∧
    ((powered.ctx? 0).any fun c => !powered.busySwitch c) = true ∧ powered.ownWrites 0 = [] ∧ imaged.ownWrites 0 = [] ∧
    isNext (exec (.contextDestroy 0) powered) (fun t => t.ctxs.isEmpty && t.groups.isEmpty && t.pkg.destroyReply == 0) = true ∧
    isNext (exec (.contextDestroyDetach 0) powered) (fun t => t.ctxs.length == 1 && t.pkg.destroyReply == 1) = true ∧
    (imaged.ctx? 0).any (fun c => (imaged.imageIn c).isSome && !imaged.busySwitch c) = true ∧
    isNext (exec (.contextDestroyDetach 0) imaged) (fun t => t.ctxs.isEmpty) = true ∧
    isNext (exec (.contextDestroy 9) powered) (fun t => t.pkg.destroyReply == 1) = true := by decide +kernel
/-- A launch that declares one V register and nothing else, so that its image is small. -/
def small : State := powered (withRec base 0x30 [1, 0, 0, 0, 0, 0, 0, 0, 0, 0, 0, 0, 0])
/-- Table 19.6: two launches, a command, a team with a write pointer, and a group of 24 V registers. -/
theorem test_image_sections :
    let s := powered (withRec base 0x30 [24, 0, 0, 0, 0, 0, 0, 0, 0, 0, 0, 0, 0])
    (∃ m : Image, m = { mode := 0, dev := 0, qcount := 4, acc := 2, fin := 0, nodes := [], pieces := [], heldDecs := []
                        launches := s.launches ++ s.launches.map fun l => { l with id := 77 }, cmds := [cmdOf 3 []]
                        teams := (s.teams.filter fun t => t.id = 2).map fun t => { t with wptr := [(3, 0x28000)] }
                        groups := s.groups.filter fun g => g.id = 4, cores := [(0x31, {})] } ∧
      m.launches.length = 2 ∧ m.teams.length = 1 ∧ m.groups.length = 1 ∧
      m.offsets = ([0x1000, 0x2000, 0x3000, 0x4000, 0x5000], 0x17000)) := ⟨_, rfl, by decide +kernel⟩
/-- A PREEMPT or RESUME of context 0 that context 1 has pushed. -/
def switch (opc : Nat) (flag : Bool) (s : State := small) : State :=
  let c : Cmd := { cmdOf 0x2000 (xb opc (if flag then 0x100 else 0) 0 0 0 0 0 0) with ctx := 1, team := 60, lid := 61, priv := true }
  let one : Ctx := { desc := { fetchDesc with ctx := 1, qfirst := 8, frBase := 0x21000000, imgBase := 0x31000000 }, priv := true }
  { withC s (fun x => { x with desc := { x.desc with imgSize := 16, areaSize := 1 } }) with
    cmds := [c], nextId := 90, ctxs := (withC s (fun x => { x with desc := { x.desc with imgSize := 16, areaSize := 1 } })).ctxs ++ [(1, one)] }
def phase0 (r : Res) : Option Phase := match r with
  | .next t => (t.ctx? 0).map (·.phase)
  | _ => none
def stopped : State := match exec (.preempt 70) (switch 0x41 false) with
  | .next t => { t with ctxs := t.ctxs.filter fun c => c.1 = 0 }
  | _ => small
def emptied : State := { stopped with groups := [], estates := [], teams := [], launches := [] }
def flushed : State := match exec (.preempt 70) (switch 0x41 true emptied) with
  | .next t => { t with ctxs := t.ctxs.filter fun c => c.1 = 0 }
  | _ => small
/-- The hypotheses of a switch of opcode `opc`; a RESUME finds no running PREEMPT. -/
def switchingB (opc : Nat) (s : State) : Bool := s.cmds.all fun c =>
  decide (s.cmd? c.id = some c ∧ c.state = .running ∧ c.qid = 0x2000 ∧ c.opc = opc ∧ c.outcome = none ∧ c.targetCtx ≠ c.ctx) &&
  (s.ctx? c.targetCtx).isSome
/-- PREEMPT of a live context with and without FLUSH, and of a stopped one; with FLUSH where the image does not fit. What each
stops has landed. -/
theorem witness_contextsSwitch_preempt :
    (∀ s ∈ [switch 0x41 false, switch 0x41 true, switch 0x41 false stopped, switch 0x41 true emptied], switchingB 0x41 s = true) ∧
    (∀ s ∈ [(switch 0x41 false).preemptStop 0, (switch 0x41 true).preemptStop 0, switch 0x41 false stopped, switch 0x41 true emptied],
      s.landed 0 = true) ∧
    (switch 0x41 false).mustFinish 0 = false ∧ phase0 (exec (.preempt 70) (switch 0x41 false)) = some .preempted ∧
    phase0 (exec (.preempt 70) (switch 0x41 true { small with groups := [], estates := [], teams := [], launches := [] })) = some .flushed ∧
    (stopped.ctx? 0).map (·.phase) = some .preempted ∧
    phase0 (exec (.preempt 70) (switch 0x41 false stopped)) = some .preempted ∧
    (((switch 0x41 true emptied).ctx? 0).any fun x => ((switch 0x41 true emptied).flush 0 x).isOk) = true ∧
    phase0 (exec (.preempt 70) (switch 0x41 true emptied)) = some .flushed ∧
    (let s := withC (switch 0x41 true emptied) fun x => { x with desc := { x.desc with imgSize := 0 } }
     ((s.ctx? 0).any fun x => (s.flush 0 x).isOk) = false ∧ phase0 (exec (.preempt 70) s) = some .preempted) := by decide +kernel
/-- RESUME of a live context, of a stopped one in place, with LOAD where no image is, and with LOAD of an image. -/
theorem witness_contextsSwitch_resume :
    (∀ s ∈ [switch 0x42 false, switch 0x42 false stopped, switch 0x42 true stopped], switchingB 0x42 s = true) ∧
    phase0 (exec (.resume 70) (switch 0x42 false)) = some .live ∧
    ((switch 0x42 false stopped).restart 0 0).isSome = true ∧ phase0 (exec (.resume 70) (switch 0x42 false stopped)) = some .live ∧
    (((switch 0x42 true stopped).ctx? 0).any fun x => ((switch 0x42 true stopped).imageIn x).isNone) = true ∧
    phase0 (exec (.resume 70) (switch 0x42 true stopped)) = some .preempted ∧
    (let s := { switch 0x42 false stopped with inflight := (write_ false).inflight }
     let s := { s with cmds := s.cmds.map fun (c : Cmd) => { c with carry := [30] } }
     switchingB 0x42 s = true ∧ (s.restart 0 0).isSome = true ∧
       groupIs (exec (.resume 70) s) (fun g => g.seen == [30]) = true) := by decide +kernel
theorem witness_contextsSwitch_load :
    let s := switch 0x42 true flushed
    switchingB 0x42 s = true ∧ (s.ctx? 0).any (fun x => (s.imageIn x).any fun m =>
      m.fits x.desc && ((s.adopt 0 (m.shift s.nextId 0)).restart 0 3).isSome) = true ∧
    phase0 (exec (.resume 70) s) = some .live := by decide +kernel

/-! ### Responses, invalidations and the debugger -/

def awaiting (debug : Bool := false) : State :=
  withG (withC base fun c => { c with awaits := [⟨5, 4, debug⟩] }) fun g => { g with status := .awaiting }
/-- REPLAY, END and CONTINUE of an awaited entry, of another, and during a pre-emption. -/
theorem witness_responsesAndInvalidations_responses :
    groupIs (exec (.replay 0 5) awaiting) (fun g => g.status == .running) = true ∧
    isNext (exec (.endLaunch 0 5) awaiting) (fun t => t.groups.isEmpty && (t.launch? 1).any fun l => l.fate == some 1) = true ∧
    groupIs (exec (.continue_ 0 5) (awaiting true)) (fun g => g.status == .running) = true ∧
    eqNext (exec (.replay 0 6) awaiting) awaiting = true ∧
    isNext (exec (.replay 0 5) (withC awaiting fun c => { c with phase := .preempted })) (fun t =>
      (t.ctx? 0).any fun c => c.responses == [(5, 0)]) = true := by decide +kernel
def invBytes (va : Nat) : List Byte := leBytes 8 va ++ leBytes 4 1 ++ leBytes 4 0 ++ leBytes 8 0x60000 ++ leBytes 8 0
/-- An invalidation of the page at 0x50000, a misaligned one, and its completion. -/
theorem witness_responsesAndInvalidations_pages :
    isNext (exec (.tlbinv 0 (invBytes 0x50000)) base) (fun t => t.invs.length == 1) = true ∧
    eqNext (exec (.tlbinv 0 (invBytes 0x50008)) base) base = true ∧
    (let s := { base with invs := [⟨40, 0, 0x50000, 1, 0x60000⟩], nextId := 41 }
     s.fencedAt 0x60000 = false ∧ s.inflight = [] ∧
     isNext (exec (.invalidationComplete 40) s) (fun t => t.invs.isEmpty && t.tlb.map (·.page) == [0] &&
       Memory.read t.mem 0x60000 == 1) = true) ∧
    (let p := { loadOf .load (.v 3) with accs := [{ lane := 0, k := 0, loc := .mem 0x50000, va := 0x50000 }] }
     let s := { flying p with invs := [⟨55, 0, 0x50000, 1, 0x60000⟩] }
     let v : Inval := ⟨55, 0, 0x50000, 1, 0x60000⟩
     let held (s : State) : Bool := !(((s.onCovered v).foldl State.perform s).onCovered v).isEmpty
     let late := { s with inflight := (write_ true).inflight.map fun (w : InWrite) =>
       { w with rels := [{ site := w.site, sc := 3, ids := [], reads := [50] }] } }
     (s.onCovered v).isEmpty = false ∧ held s = false ∧ held late = true ∧
     isNext (exec (.invalidationComplete 55) s) (fun t => t.tlb.all fun e => e.page != 5) = true) := by decide +kernel
/-- An operation of the debugger's port on the installed group: operation, class, register, lane 1, value. -/
def dbg (op cls index value : Nat) : List Byte :=
  leBytes 8 (op + cls * 2 ^ 12 + index * 2 ^ 16 + 2 ^ 32) ++ leBytes 8 1 ++ leBytes 8 0 ++ leBytes 8 value
def told (r : Res) (status : Nat) (x : Nat) : Bool :=
  isNext r fun t => look [] t.pkg.debugReply 0 == leBytes 4 status ++ leBytes 4 x ++ leBytes 8 0
/-- READ and WRITE of a stopped group and of a running one; DEBUGSTOP. -/
theorem witness_debuggerPort :
    let s := setV awaiting 7 fun l => BitVec.ofNat 32 (40 + l)
    (debugOp (dbg 0 0 7 0)).bad = false ∧ ((s.ctx? 0).any fun c => (s.debugTarget c (debugOp (dbg 0 0 7 0))).isSome) = true ∧
    told (exec (.debugRead 0 (dbg 0 0 7 0)) s) 256 41 = true ∧ told (exec (.debugRead 0 (dbg 0 6 0 0)) s) 256 0 = true ∧
    told (exec (.debugRead 0 (dbg 0 0 7 0)) base) 2 0 = true ∧ told (exec (.debugWrite 0 (dbg 1 0 7 9)) base) 2 0 = true ∧
    groupIs (exec (.debugWrite 0 (dbg 1 6 0 0x41)) s) (fun g => g.ctl.pc == 0x40) = true ∧
    groupIs (exec (.debugWrite 0 (dbg 1 0 7 9)) s) (fun g => (g.vCell 7 1).d.val == 9 && (g.vCell 7 0).d.val == 40) = true ∧
    isNext (exec (.debugstop 0 (dbg 2 0 0 1)) s) (fun t => (t.ctx? 0).any fun c => c.debugStop) = true := by decide +kernel

/-! ### The host, peers and the Crown -/

/-- SUPMASK; MWBASE, ROUTE, SELF, ORPHANCONS, STAGE in RECOVERY and out of it; an offset without a field; bad launch writes. -/
theorem witness_hostRegisters :
    (powered).anyPort = true ∧ (powered).portUp 0 = true ∧
    isNext (exec (.supmask 3) powered) (fun t => t.pkg.supmask == 2) = true ∧
    isNext (exec (.hostRegisterWrite 0 0x400 true (leBytes 8 0x50000)) powered) (fun t => look 0 t.pkg.mwBase 0 == 0) = true ∧
    isNext (exec (.hostRegisterWrite 0 0x400 true (leBytes 8 0x500000000)) powered) (fun t =>
      look 0 t.pkg.mwBase 0 == 0x500000000) = true ∧
    isNext (exec (.hostRegisterWrite 0 0x23C false (leBytes 4 0xC0010003)) powered) (fun t =>
      look 0 t.pkg.route 15 == 0x80000003) = true ∧
    isNext (exec (.hostRegisterWrite 0 0x240 false (leBytes 4 0x1F)) powered) (fun t => t.pkg.self == 15) = true ∧
    isNext (exec (.hostRegisterWrite 0 0x8008 false (leBytes 8 7)) powered) (fun t => t.pkg.orphanCons == 7) = true ∧
    (let r := { powered with pkg := { (powered).pkg with crown := { state := .recovery } } }
     isNext (exec (.hostRegisterWrite 0 0x1000010 false [5]) r) (fun t => Memory.read t.mem 0x10 == 5) = true) ∧
    eqNext (exec (.hostRegisterWrite 0 0x1000010 false [5]) powered) powered = true ∧
    eqNext (exec (.hostRegisterWrite 0 0x500 true [5]) powered) powered = true ∧
    (∀ o ∈ [0, 8, 63], isNext (exec (.hostRegisterWrite 0 o true [5]) { powered with pkg := { (powered).pkg with
      portReply := [(0, 9)] } }) (fun t => look 0 t.pkg.portReply 0 == 0) = true) := by decide +kernel
/-- The window of context 0 at 0x50000, mapped and not; of a context that is not live; a peer's accesses. -/
theorem witness_windowsAndPeers :
    let s := { powered with pkg := { (powered).pkg with mwBase := [(0, 0x50000)] } }
    let far := { powered with pkg := { (powered).pkg with mwBase := [(0, 0x60000000)] } }
    isNext (exec (.memoryWindowWrite 0 4 [7]) s) (fun t => Memory.read t.mem 0x50004 == 7) = true ∧
    isNext (exec (.memoryWindowRead 0 0 2) s) (fun t => t.reply == [0, 0]) = true ∧
    isNext (exec (.memoryWindowWrite 0 4 [7]) far) (fun t => (look 0 t.pkg.werr 0).getLsbD 63) = true ∧
    isNext (exec (.memoryWindowRead 0 4 1) far) (fun t => t.reply == [0xFF] && (look 0 t.pkg.werr 0).getLsbD 63) = true ∧
    isNext (exec (.memoryWindowRead 9 4 1) s) (fun t => t.reply == [0xFF]) = true ∧
    isNext (exec (.peerDeviceAccess 0 0x50004 (.write [7])) s) (fun t => Memory.read t.mem 0x50004 == 7) = true ∧
    isNext (exec (.peerDeviceAccess 0 0x20002 (.read 1)) s) (fun t => t.reply == [3]) = true ∧
    eqNext (exec (.peerDeviceAccess 0 0x60000000 (.write [7])) s) s = true ∧
    isNext (exec (.peerDeviceAccess 0 0x60000000 (.read 1)) s) (fun t => t.reply == [0xFF]) = true := by decide +kernel
def crownIs (st : PkgState) (s : State := powered) : State :=
  { s with pkg := { s.pkg with crown := { s.pkg.crown with state := st } } }
/-- Reports; STATUS; RECOVER while running and while scrubbing; a limit; the states in which power comes and goes. -/
theorem witness_crownActs :
    isNext (exec (.attest (List.replicate 31 0)) powered) (fun t => decide (t = powered)) = true ∧
    isNext (exec .status powered) (fun t => t.reply.take 2 == [0xFF, 0x1F]) = true ∧
    isNext (exec .getrecord powered) (fun t => t.reply == powered.pkg.crown.record) = true ∧
    ((powered).pkg.crown.state = .running ∧ (List.replicate 32 (0 : Byte)).length = 32 ∧ (powered).pkg.doubled = false ∧
      (powered).pkg.crown.scrubDone = (powered).pkg.crown.scrubStart ∧ ((powered).ctxs.all fun e => e.2.faultQ.isEmpty) = true) ∧
    eqNext (exec .recoverN (crownIs .scrubbing)) (crownIs .scrubbing) = true ∧
    isNext (exec .powerLoss powered) (fun t => t.pkg.ready == 0 && t.pkg.crown.state == .off && t.groups.isEmpty) = true ∧
    (State.reset.pkg.crown.state = .off ∧ State.reset.pkg.ready = 0 ∧
      State.reset.pkg.crown.scrubDone = State.reset.pkg.crown.scrubStart) ∧
    ({ State.reset.pkg.crown with scrubStart := 1 } : Crown).scrubDone < 1 ∧
    isNext (exec (.loadfw 64) powered) (fun t => t.reply == [0]) = true ∧ (crownIs .recovery).pkg.ready.getLsbD 12 = true := by decide +kernel
/-- A report with a nonce of 32 bytes is made, of the port and over I3C. -/
theorem witness_crownActs_report : (powered).anyPort = true ∧ (List.replicate 32 (0 : Byte)).length = 32 ∧
    isNext (exec (.attest (List.replicate 32 0)) powered) (fun t => t.pkg.crown.leaf == 1 && t.irqs == [129]) = true ∧
    isNext (exec (.i3cAttest (List.replicate 32 0)) powered) (fun t => t.pkg.crown.leaf == 1) = true := by decide +kernel
/-- Die 3 comes up, or does not in time; the last function of a scrub. -/
theorem witness_crownActs_functions :
    let s := { powered with pkg := { (powered).pkg with ready := 0x1FF7 } }
    s.coming (.die 3) = true ∧ s.pkg.hostReady (.die 3) = true ∧
    isNext (exec (.functionReady (.die 3)) s) (fun t => t.pkg.ready.getLsbD 3 && t.irqs == [128]) = true ∧
    isNext (exec (.readinessTimeout (.die 3)) s) (fun t => t.pkg.fencedSock.getLsbD 3) = true ∧
    -- before the fencing of another failure it is a double fault
    isNext (exec (.readinessTimeout (.die 3)) { s with pkg := { s.pkg with failing := [.link 1] } }) (fun t =>
      t.ctxs.isEmpty && t.pkg.fencedSock.getLsbD 3 && t.pkg.fencedSock.getLsbD 0) = true := by decide +kernel

/-! ### Failures, fencing and links -/

def failing (ps : List Part) (s : State := powered) : State := { s with pkg := { s.pkg with failing := ps } }
/-- A part fails; the Crown, or a second part, does; during a scrub a part is marked. -/
theorem witness_failuresAndFencing_marks :
    (powered).partLive (.socket 3) = true ∧
    isNext (exec (.partFailure (.socket 3)) powered) (fun t => t.pkg.failing == [.socket 3]) = true ∧
    isNext (exec (.partFailure (.socket 12)) powered) (fun t => t.ctxs.isEmpty && t.pkg.fencedSock.getLsbD 0) = true ∧
    isNext (exec (.partFailure (.socket 4)) (failing [.socket 3])) (fun t => t.ctxs.isEmpty) = true ∧
    isNext (exec (.partFailure (.socket 12)) (crownIs .scrubbing)) (fun t => t.pkg.failing == [.socket 12]) = true := by
  decide +kernel
/-- Die 0, a link and a channel are fenced; the fencing of a part that is fenced already is over. -/
theorem witness_failuresAndFencing_fence :
    (failing [.socket 0]).inflight = [] ∧
    (let s := { failing [.link 5] with ctxs := [], pkg := { (failing [.link 5]).pkg with fencedLink := 32 } }
     s.partLive (.link 5) = false ∧ isNext (exec (.fence (.link 5)) s) (fun t => t.pkg.failing.isEmpty) = true) ∧
    isNext (exec (.fence (.socket 0)) (failing [.socket 0])) (fun t => t.pkg.fencedSock.getLsbD 0 && t.tlb.isEmpty &&
      (t.launch? 1).all fun l => l.fate == some 1) = true ∧
    isNext (exec (.fence (.link 5)) (failing [.link 5])) (fun t => t.pkg.fencedLink.getLsbD 5 && !t.pkg.linkUp.getLsbD 5) = true ∧
    (let s := { failing [.channel 0] with pkg := { (failing [.channel 0]).pkg with chReady := 1 } }
     s.partLive (.channel 0) = true ∧ ((s.ctx? 0).any fun x => s.restsOn x.desc 0) = true ∧
     isNext (exec (.fence (.channel 0)) s) (fun t => t.ctxs.isEmpty) = true) := by decide +kernel
/-- The acknowledgement of an MCA write of the group is lost by a link, and of one of a command. -/
theorem witness_failuresAndFencing_ack :
    (let s := powered (write_ true)
     s.named ∧ (s.inflight.all fun w => s.clear w && s.companions w == [w] && w.homeLive s && !s.bears w && w.flat) = true ∧
     s.partLive (.link 0) = true ∧ s.pkg.failing = [] ∧
     (s.ctxs.all fun e => e.2.rounds.isEmpty) = true ∧
     isNext (exec (.acklost 30 (.link 0)) s) (fun t => t.inflight.isEmpty && Memory.read t.mem 0x50000 == 7 &&
       (t.group? 4).any fun g => g.async.map (·.code) == [0x18]) = true) ∧
    (let s := powered (withCmd (ce (cb 1 0 0 8 0x20000 0x50000 0 0 0)) (write_ true))
     let s := { s with inflight := s.inflight.map fun (w : InWrite) => { w with cmd := some 70 } }
     isNext (exec (.acklost 30 (.link 0)) s) (fun t => t.cmds.all fun c => (c.fate.map (·.code)) == some 0x18) = true) := by
  decide +kernel
/-- The part has been fenced already, and others have the write; the part is the Crown, or another one has failed (R356). -/
theorem witness_failuresAndFencing_ackFenced :
    (let s := powered (write_ true)
     let s := { s with inflight := s.inflight.map fun (w : InWrite) => { w with arrived := [.socket 0] }
                       pkg := { s.pkg with fencedLink := 1, linkUp := 0xFFFE } }
     s.partLive (.link 0) = false ∧ s.partFenced (.link 0) = true ∧
     (s.inflight.all fun w => s.clear w && s.companions w == [w] && w.homeLive s && !s.bears w && w.flat) = true ∧
     isNext (exec (.acklost 30 (.link 0)) s) (fun t => t.inflight.isEmpty && Memory.read t.mem 0x50000 == 7 &&
       (t.group? 4).any fun g => g.async.map (·.code) == [0x18]) = true) ∧
    (let s := powered (write_ true)
     s.partLive (.socket 12) = true ∧
     isNext (exec (.acklost 30 (.socket 12)) s) (fun t => t.ctxs.isEmpty && t.pkg.fencedSock.getLsbD 7) = true ∧
     isNext (exec (.acklost 30 (.link 0)) (failing [.socket 3] s)) (fun t => t.ctxs.isEmpty && t.pkg.fencedLink.getLsbD 0) = true) := by
  decide +kernel
/-- Data in order, out of order and broken; acknowledgements; negative ones with retransmissions left and used up. -/
theorem witness_linksDeliver :
    let l : Link := { expect := 5, unacked := [(1, 0), (2, 0)], retries := 3 }
    let s := powered.setLink 0 l
    let last := powered.setLink 0 { l with retries := 16 }
    (powered).pkg.linkUp.getLsbD 0 = true ∧
    isNext (exec (.wilkaiFlit 0 (.data 5 true)) s) (fun t => (t.link 0).expect == 6 && (t.link 0).out == [.ack 5]) = true ∧
    isNext (exec (.wilkaiFlit 0 (.data 7 true)) s) (fun t => (t.link 0).expect == 5 && (t.link 0).out == [.ack 4]) = true ∧
    isNext (exec (.wilkaiFlit 0 (.data 5 false)) s) (fun t => (t.link 0).out == [.nak 5]) = true ∧
    isNext (exec (.wilkaiFlit 0 (.ack 1)) s) (fun t => (t.link 0).unacked == [(2, 0)] && (t.link 0).retries == 0) = true ∧
    isNext (exec (.wilkaiFlit 0 (.nak 1)) s) (fun t => (t.link 0).retries == 4 && (t.link 0).out.length == 2) = true ∧
    last.partLive (.link 0) = true ∧ isNext (exec (.retransmitTimeout 0) last) (fun t => t.pkg.fencedLink.getLsbD 0) = true ∧
    isNext (exec (.retransmitTimeout 0) (crownIs .scrubbing last)) (fun t => t.pkg.failing == [.link 0]) = true := by decide +kernel

/-! ### Steps -/

/-- Where `withFetchWord` has placed a word, the group can issue, and its next three units are mapped, reachable and resident. -/
def placed (w : Nat) : State := State.reset.withFetchWord 64 w
theorem witness_stepRunsDecodedInstruction :
    let u : State := { placed 0x000000032FF82721 with agenda := [], tick := 1, cur := 4, ecc := false }
    (placed 0x000000032FF82721).agenda = [.issue 4 false] ∧
    (u.issuer.any fun x => u.ready x.1 && x.1.async.isEmpty && (List.range 3).all fun k =>
      let va := ((x.2.2.1.entry + x.1.ctl.pc.toNat) % 2 ^ 64 + 4 * k) % 2 ^ 64
      !x.2.2.2.desc.windowed (.socket 0) va && u.icache.contains (3, va / 128) &&
      match u.translate (.socket 0) x.2.2.2.desc ⟨false, false, none⟩ .fetch va 4 with
      | .ok pa => !u.fencedAt pa
      | .error _ => false) = true ∧
    (decode [0x2FF82721, 3, 0]).isOk = true ∧ (decode [0, 0, 0]).isOk = false ∧
    (encodeWord .status).isNone = true ∧ u.pick.map (·.id) = some 4 ∧
    groupIs (step (withG (placed 0) fun g => { g with tvec := 0x100 })) (fun g => g.cause == 1 && g.ctl.pc == 0x100) = true := by
  decide +kernel
/-- IADD with a guard that is false in every lane. -/
theorem witness_idleInstructionsOnlyAdvance :
    (encodeWord (.iadd { fA (.v 1) (vv 2) (vv 3) zz with g := ⟨true, 7⟩ })).isSome = true ∧
    base.issuer.any (fun x => (maskLanes x.1.ctl.mask).all fun lane => !x.1.pred true 7 lane) = true ∧
    groupIs (exec (.iadd { fA (.v 1) (vv 2) (vv 3) zz with g := ⟨true, 7⟩ }) base) (fun g => g.ctl.pc == 8) = true := by
  decide +kernel
/-- The largest fields of a format survive encoding. -/
theorem witness_decodeAndEncodeAgree :
    let i : Instr := .ld (some ⟨4, true⟩) { fM 4 0xFFFF (.v 126) (.v 124) with ch := 3, sc := 5, ord := 1 }
    i.isMachine = true ∧ i.wf = true ∧ decode (encode i) = .ok i ∧ (encode i).length = 3 := by decide +kernel
/-- A step from a state that meets both invariants. -/
theorem witness_everyStepKeeps : base.memOk ∧ base.named ∧ base.ordered ∧
    isNext (step { placed 0x000000032FF82721 with nextId := 90 }) (fun t => Memory.wf t.mem) = true := by decide +kernel

end Sys2Proof.Tests
end

section
/-! PROOFS. What moving and making writes leaves alone. -/

namespace Sys2Proof.Machine

/-- What every step of a fold keeps, the fold keeps. -/
theorem foldl_keeps {α β γ : Type} (π : α → γ) {f : α → β → α} (h : ∀ a b, π (f a b) = π a) (l : List β) (a : α) :
    π (l.foldl f a) = π a := by
  induction l generalizing a with
  | nil => rfl
  | cons b l ih => rw [List.foldl_cons, ih, h]

/-- The state without what a write can change as it moves: memory, the writes on their way, the teams (whose tile regions are
written) and the contexts (whose dirty pages are recorded). -/
def State.besidesWrites (s : State) : State := { s with mem := [], inflight := [], teams := [], ctxs := [] }

/-- Whatever does not look at what writes change is found in the rest. -/
theorem State.eq_of_besidesWrites {γ : Type} {s t : State} (π : State → γ) (hπ : ∀ s : State, π s.besidesWrites = π s)
    (h : t.besidesWrites = s.besidesWrites) : π t = π s := by rw [← hπ t, h, hπ]

@[simp] theorem State.markDirty_besidesWrites (s : State) (ctx va n : Nat) :
    (s.markDirty ctx va n).besidesWrites = s.besidesWrites := rfl

@[simp] theorem State.countWrite_besidesWrites (s : State) (w : InWrite) :
    (s.countWrite w).besidesWrites = s.besidesWrites := by
  unfold State.countWrite
  split <;> rfl

@[simp] theorem State.settleWrite_besidesWrites (s : State) (id : Nat) :
    (s.settleWrite id).besidesWrites = s.besidesWrites := by
  unfold State.settleWrite
  split
  · rfl
  · dsimp only
    split <;> rfl

@[simp] theorem State.settleWrites_besidesWrites (s : State) : s.settleWrites.besidesWrites = s.besidesWrites := by
  unfold State.settleWrites
  exact foldl_keeps State.besidesWrites (fun t w => by split_ifs <;> simp) _ _

@[simp] theorem State.owe_besidesWrites (s : State) (sc : Nat) (ids : List Nat) :
    (s.owe sc ids).besidesWrites = s.besidesWrites := rfl

@[simp] theorem State.place_besidesWrites (s : State) (id : Nat) : (s.place id).besidesWrites = s.besidesWrites := by
  unfold State.place
  split
  · rfl
  · split
    · rfl
    · exact foldl_keeps State.besidesWrites (fun t r => t.owe_besidesWrites _ _) _ _

@[simp] theorem State.landWrite_besidesWrites (s : State) (id : Nat) :
    (s.landWrite id).besidesWrites = s.besidesWrites :=
  (State.settleWrites_besidesWrites _).trans (s.place_besidesWrites id)

@[simp] theorem State.arrive_besidesWrites (s : State) (id : Nat) (os : List Observer) :
    (s.arrive id os).besidesWrites = s.besidesWrites := by
  unfold State.arrive
  split
  · rfl
  · exact (State.settleWrites_besidesWrites _).trans (s.place_besidesWrites id)

@[simp] theorem State.bring_besidesWrites (s : State) (id : Nat) (os : List Observer) :
    (s.bring id os).besidesWrites = s.besidesWrites := by
  unfold State.bring
  exact foldl_keeps State.besidesWrites (fun t x => by split_ifs <;> simp) _ _

@[simp] theorem State.clearWay_besidesWrites (s : State) (pa n : Nat) :
    (s.clearWay pa n).besidesWrites = s.besidesWrites := by
  unfold State.clearWay
  exact foldl_keeps State.besidesWrites (fun t id => by split_ifs <;> simp) _ _

@[simp] theorem State.summon_besidesWrites (s : State) (me : Site) (n : Nat) (l : Loc) :
    (s.summon me n l).besidesWrites = s.besidesWrites := by
  unfold State.summon
  exact foldl_keeps State.besidesWrites (fun t w => by split_ifs <;> simp) _ _

@[simp] theorem State.writeRaw_besidesWrites (s : State) (pa : Nat) (bs : List Byte) :
    (s.writeRaw pa bs).besidesWrites = s.besidesWrites := s.clearWay_besidesWrites pa bs.length

@[simp] theorem State.writeNow_besidesWrites (s : State) (ctx va pa : Nat) (bs : List Byte) :
    (s.writeNow ctx va pa bs).besidesWrites = s.besidesWrites := s.writeRaw_besidesWrites pa bs

@[simp] theorem State.setDirtyAt_besidesWrites (s : State) (o : Observer) (d : CtxDesc) (va : Nat) :
    (s.setDirtyAt o d va).besidesWrites = s.besidesWrites := by
  unfold State.setDirtyAt
  split
  · rfl
  · unfold State.setDirty
    dsimp only
    split <;> simp

/-! ### The package registers -/

@[simp] theorem State.writeRaw_pkg (s : State) (pa : Nat) (bs : List Byte) : (s.writeRaw pa bs).pkg = s.pkg :=
  State.eq_of_besidesWrites State.pkg (fun _ => rfl) (s.writeRaw_besidesWrites pa bs)

@[simp] theorem State.writeNow_pkg (s : State) (ctx va pa : Nat) (bs : List Byte) :
    (s.writeNow ctx va pa bs).pkg = s.pkg :=
  State.eq_of_besidesWrites State.pkg (fun _ => rfl) (s.writeNow_besidesWrites ctx va pa bs)

@[simp] theorem State.setDirtyAt_pkg (s : State) (o : Observer) (d : CtxDesc) (va : Nat) :
    (s.setDirtyAt o d va).pkg = s.pkg :=
  State.eq_of_besidesWrites State.pkg (fun _ => rfl) (s.setDirtyAt_besidesWrites o d va)

@[simp] theorem State.summon_pkg (s : State) (me : Site) (n : Nat) (l : Loc) : (s.summon me n l).pkg = s.pkg :=
  State.eq_of_besidesWrites State.pkg (fun _ => rfl) (s.summon_besidesWrites me n l)

@[simp] theorem State.note_pkg (s : State) (gid : Nat) (rs : List Rel) : (s.note gid rs).pkg = s.pkg := by
  unfold State.note
  split <;> rfl

@[simp] theorem State.met_pkg (s : State) (gid : Nat) (acq : Option Nat) (rs : List Rel) :
    (s.met gid acq rs).pkg = s.pkg := by
  unfold State.met
  split
  · exact ((s.note gid rs).onGroup_pkg gid _).trans (s.note_pkg gid rs)
  · exact s.note_pkg gid rs

@[simp] theorem State.tear_pkg (s t : State) (n : Nat) (l : Loc) : (s.tear t n l).pkg = t.pkg := by
  unfold State.tear
  extract_lets one load
  split
  · rfl
  · have hone : ∀ u p a, (one u p a).1.pkg = u.pkg := fun u p a => by
      simp only [one]
      split_ifs <;> simp
    exact foldl_keeps State.pkg (fun u p => foldl_keeps (fun x : State × List Access => x.1.pkg)
      (fun x a => hone x.1 p a) _ _) _ _

theorem State.xPut_pkg (s : State) (die : Nat) (x : Ctx) (ps : List (Nat × Nat × Nat)) (bs : List Byte) :
    (s.xPut die x ps bs).pkg = s.pkg := by
  induction ps generalizing s bs with
  | nil => rfl
  | cons p ps ih => simp [State.xPut, ih]

theorem State.xWrite_pkg {s t : State} {die va : Nat} {x : Ctx} {bs : List Byte} (h : s.xWrite die x va bs = .ok t) :
    t.pkg = s.pkg := by
  unfold State.xWrite at h
  split at h
  · cases h
  · cases h
    exact s.xPut_pkg die x _ bs

theorem State.failAdmits_pkg (s : State) (gone : Admit → Bool) : (s.failAdmits gone).pkg = s.pkg := by
  unfold State.failAdmits
  extract_lets rewrite
  have hrewrite : ∀ c u a, (rewrite c u a).pkg = u.pkg := fun c u a => by
    dsimp only [rewrite]
    split
    · split
      · rfl
      next h => exact (State.xWrite_pkg h).trans (u.onCmd_pkg _ _)
    · rfl
  have hadmits : ∀ (c : Ctx) (u : State) (r : Round), (r.admits.foldl (rewrite c) u).pkg = u.pkg := fun c u r =>
    foldl_keeps State.pkg (hrewrite c) r.admits u
  have hrounds : ∀ (u : State) (e : Nat × Ctx), (e.2.rounds.foldl (fun s r => r.admits.foldl (rewrite e.2) s) u).pkg = u.pkg :=
    fun u e => foldl_keeps State.pkg (hadmits e.2) e.2.rounds u
  exact foldl_keeps State.pkg hrounds s.ctxs s

@[simp] theorem State.failPeers_pkg (s : State) : s.failPeers.pkg = s.pkg := s.failAdmits_pkg _

/-! ### The orphan log's consumer -/

theorem foldl_interrupt_pkg (vs : List Nat) (s : State) : (vs.foldl State.interrupt s).pkg = s.pkg :=
  foldl_keeps State.pkg (f := State.interrupt) (fun _ _ => rfl) vs s

/-- Adding to the log and raising its interrupts leaves the consumer count. -/
theorem foldl_interrupt_orphanCons (vs : List Nat) (s : State) (kept : List Orphan) (n : Nat) :
    (vs.foldl State.interrupt { s with pkg := { s.pkg with orphans := kept, orphanProd := n } }).pkg.orphanCons =
      s.pkg.orphanCons := by
  rw [foldl_interrupt_pkg]

theorem drainOrphans_orphanCons (os : List Orphan) (s : State) :
    (drainOrphans os s).pkg.orphanCons = s.pkg.orphanCons := by
  induction os generalizing s with
  | nil => rfl
  | cons o os ih =>
    rw [drainOrphans]
    split
    · exact (ih _).trans (foldl_interrupt_orphanCons _ s _ _)
    · rfl

theorem State.writeEntry_orphanCons (s : State) (c : Ctx) (p : Posting) :
    (s.writeEntry c p).1.pkg.orphanCons = s.pkg.orphanCons := by
  unfold State.writeEntry
  dsimp only
  split
  · exact drainOrphans_orphanCons _ s
  · simp [State.interrupt]

theorem drainFaults_orphanCons (ps : List Posting) (x : State × Ctx) :
    (drainFaults ps x).1.pkg.orphanCons = x.1.pkg.orphanCons := by
  induction ps generalizing x with
  | nil => rfl
  | cons p ps ih =>
    unfold drainFaults
    split_ifs
    · exact ih _
    · exact (ih _).trans (x.1.writeEntry_orphanCons x.2 p)
    · rfl

theorem State.postAll_orphanCons (s : State) (n : Nat) (ps : List Posting) :
    (s.postAll n ps).pkg.orphanCons = s.pkg.orphanCons := by
  unfold State.postAll
  split
  · rfl
  · exact drainFaults_orphanCons _ _

/-- Writing what has waited for room leaves the consumer count of the orphan log. -/
theorem State.drain_orphanCons (s : State) : s.drain.pkg.orphanCons = s.pkg.orphanCons := by
  unfold State.drain
  extract_lets s₁ s₂ r
  have h₁ : s₁.pkg.orphanCons = s.pkg.orphanCons := by
    simp only [s₁]
    split
    · rfl
    · exact drainOrphans_orphanCons _ s
  have h₂ : s₂.pkg.orphanCons = s₁.pkg.orphanCons :=
    foldl_keeps (fun t : State => t.pkg.orphanCons) (fun t e => by
      split
      · rfl
      · exact t.postAll_orphanCons _ _) _ _
  have hr : r.1.pkg.orphanCons = s₂.pkg.orphanCons :=
    foldl_keeps (fun x : State × List Ctx => x.1.pkg.orphanCons) (fun x c => drainFaults_orphanCons _ _) _ _
  exact (hr.trans h₂).trans h₁

/-- Bytes that the device or the host writes are read back, and every other byte is as its write found it. -/
theorem State.read_writeRaw (s : State) (pa : Nat) (bs : List Byte) (a : Nat) :
    Memory.read (s.writeRaw pa bs).mem a =
      if pa ≤ a ∧ a < pa + bs.length then bs.getD (a - pa) 0 else Memory.read (s.clearWay pa bs.length).mem a :=
  Memory.read_writeCells_cellsAt bs _ pa a

end Sys2Proof.Machine
end

section
/-! PROOFS. What the host's registers take, and what reads of them return (spec/23 R388, R390, R394). -/

namespace Sys2Proof.Machine

/-! ### SUPMASK -/

/-- A mask with the bits of the keys of a table holds a bit where it did before and where the table lists its number. -/
theorem getLsbD_foldl_keys {α : Type} {n : Nat} (hn : n < 64) (l : List (Nat × α)) (m : W64) :
    (l.foldl (fun m e => m ||| BitVec.ofNat 64 (2 ^ e.1)) m).getLsbD n = (m.getLsbD n || (look? l n).isSome) := by
  induction l generalizing m with
  | nil => simp [look?]
  | cons e l ih =>
    obtain ⟨k, v⟩ := e
    rw [List.foldl_cons, ih]
    simp only [BitVec.getLsbD_or, BitVec.getLsbD_ofNat, Nat.testBit_two_pow, look?]
    by_cases h : k = n <;> simp [h, hn]

/-! ### Writes -/

section writes
variable {s : State} {port n o : Nat} {bs : List Byte}

theorem exec_pageWrite (h : s.portUp port = true) :
    exec (.hostRegisterWrite port o true bs) s = s.writePage port o bs := by
  simp [execHostRegisterWrite, h]

theorem exec_mgmtWrite (h : s.portUp port = true) :
    exec (.hostRegisterWrite port o false bs) s = s.writeMgmt o bs := by
  simp [execHostRegisterWrite, h]

/-- The page and the offset that an aperture offset names. -/
theorem page_split (h : o < 65536) : (n * 65536 + o) / 65536 = n ∧ (n * 65536 + o) % 65536 = o := by omega

theorem State.writePage_mwBase (hn : n < 64) (hl : bs.length = 8) :
    s.writePage port (n * 65536 + 0x400) bs = State.did { s with pkg := { s.pkg with
      mwBase := keep 0 s.pkg.mwBase n (BitVec.ofNat 64 (recNat bs 4 4 * 2 ^ 32)) } } := by
  obtain ⟨hp, ho⟩ := page_split (n := n) (o := 0x400) (by decide)
  simp [State.writePage, hp, ho, hl, hn, ctxPorts]

/-- A write that meets the launch port of a live context in another size or place makes the port answer 0 (R183). -/
theorem State.writePage_launchPort (ho : o < 64) (hc : (s.ctx? n).isSome = true) (hb : bs ≠ [])
    (hl : ¬ (o = 0 ∧ bs.length = 64)) :
    s.writePage port (n * 65536 + o) bs = (s.setPortReply port n 0).did := by
  obtain ⟨hp, hm⟩ := page_split (n := n) (o := o) (by omega)
  have h₁ : o ≠ 0x100 := by omega
  have h₂ : o ≠ 0x200 := by omega
  have h₃ : o ≠ 0x300 := by omega
  have h₄ : o ≠ 0x400 := by omega
  simp only [State.writePage, hp, hm]
  simp [ctxPorts, h₁, h₂, h₃, h₄, hl, ho, hb, hc]

/-- A write where a context page has no field is discarded. -/
theorem State.writePage_noField (ho : 64 ≤ o % 65536) (hf : o % 65536 ∉ [0x100, 0x200, 0x300, 0x400]) :
    s.writePage port o bs = .next s := by
  simp only [List.mem_cons, List.not_mem_nil, or_false, not_or] at hf
  obtain ⟨h₁, h₂, h₃, h₄⟩ := hf
  have h₀ : o % 65536 ≠ 0 := by omega
  simp [State.writePage, ctxPorts, h₀, h₁, h₂, h₃, h₄, Nat.not_lt.2 ho]

theorem State.writeMgmt_route (hn : n < 16) (hl : bs.length = 4) :
    s.writeMgmt (0x200 + 4 * n) bs = (State.failPeers { s with pkg := { s.pkg with
      route := keep 0 s.pkg.route n (BitVec.ofNat 32 (recNat bs 0 8) &&& 0x8000FFFF) } }).did := by
  have hb : 0x200 + 4 * n < 0x240 := by omega
  have hp : 0x200 + 4 * n ≠ 0x100 := by omega
  simp [State.writeMgmt, mgmtPorts, hl, hb, hp, Nat.add_mod]

theorem State.writeMgmt_self (hl : bs.length = 4) :
    s.writeMgmt 0x240 bs = State.did { s with pkg := { s.pkg with self := BitVec.ofNat 32 (recNat bs 0 8 % 16) } } := by
  simp [State.writeMgmt, mgmtPorts, hl]

theorem State.writeMgmt_orphanCons (hl : bs.length = 8) :
    s.writeMgmt 0x8008 bs = (State.drain { s with pkg := { s.pkg with orphanCons := recNat bs 0 8 } }).did := by
  simp [State.writeMgmt, mgmtPorts, hl]

/-- A write to STAGE is taken in RECOVERY where it lies within it (R394), and discarded otherwise. -/
theorem State.writeMgmt_stage :
    s.writeMgmt (0x1000000 + n) bs =
      if n + bs.length ≤ 0x1000000 ∧ s.pkg.crown.state = .recovery then (s.writeRaw n bs).did else .next s := by
  have hlow : ∀ k < 0x1000000, 0x1000000 + n ≠ k := by omega
  have hroute : ¬ 0x1000000 + n < 0x240 := by omega
  have hend : 0x1000000 + n + bs.length ≤ 0x2000000 ↔ n + bs.length ≤ 0x1000000 := by omega
  simp [State.writeMgmt, mgmtPorts, hlow, hroute, hend]

end writes

/-! ### Reads -/

theorem leBytes_length (n x : Nat) : (leBytes n x).length = n := by
  induction n generalizing x with
  | zero => rfl
  | succ n ih => simp [leBytes, ih]

theorem fieldBytes_length (n : Nat) (bs : List Byte) : (fieldBytes n bs).length = n := by simp [fieldBytes]

/-- A field begins with what it holds. -/
theorem take_fieldBytes {n : Nat} {bs : List Byte} (h : bs.length ≤ n) : (fieldBytes n bs).take bs.length = bs := by
  simp [fieldBytes, List.take_take, h]

section reads
variable {s : State} {port n o len : Nat}

theorem State.readPage_acc :
    s.readPage port (n * 65536 + 0x1000) 8 = leBytes 8 (((s.ctx? n).map (·.acc)).getD 0) := by
  simp [State.readPage, page_split]

theorem State.readPage_fin :
    s.readPage port (n * 65536 + 0x1008) 8 = leBytes 8 (((s.ctx? n).map (·.fin)).getD 0) := by
  simp [State.readPage, page_split]

theorem State.readPage_produced :
    s.readPage port (n * 65536 + 0x1010) 8 = leBytes 8 (((s.ctx? n).map (·.produced)).getD 0) := by
  simp [State.readPage, page_split]

theorem State.readPage_werr : s.readPage port (n * 65536 + 0x1018) 8 = leBytes 8 (look 0 s.pkg.werr n).toNat := by
  simp [State.readPage, page_split]

theorem State.readPage_mwBase : s.readPage port (n * 65536 + 0x400) 8 = leBytes 8 (look 0 s.pkg.mwBase n).toNat := by
  simp [State.readPage, page_split]

/-- A read of the launch port begins with the number that the latest write to it got (R183). -/
theorem State.readPage_launchPort :
    (s.readPage port (n * 65536 + 0) 64).take 8 = leBytes 8 (look 0 s.pkg.portReply (port * 64 + n)) := by
  have h := take_fieldBytes (n := 64) (bs := leBytes 8 (look 0 s.pkg.portReply (port * 64 + n))) (by simp [leBytes_length])
  simpa [State.readPage, leBytes_length] using h

/-- A read of a context page where Table 23.1 lists no field returns zeros. -/
theorem State.readPage_noField (h : o % 65536 ∉ [0, 0x300, 0x400, 0x1000, 0x1008, 0x1010, 0x1018]) :
    s.readPage port o len = List.replicate len 0 := by
  simp only [List.mem_cons, List.not_mem_nil, or_false, not_or] at h
  unfold State.readPage
  split
  case h_8 => rfl
  all_goals omega

/-- The fields of many bytes are as long as Table 23.2 says, whatever record or report they hold. -/
theorem State.readMgmt_record_length : (s.readMgmt 0x2000 3012).length = 3012 := by
  simp [State.readMgmt, Pkg.recordField, fieldBytes_length]

theorem State.readMgmt_report_length : (s.readMgmt 0x4000 8192).length = 8192 := by
  simp [State.readMgmt, Pkg.reportField, fieldBytes_length]

end reads

end Sys2Proof.Machine

namespace Sys2Proof.Claims

open Sys2Proof.Machine

theorem supmaskKeepsLiveContexts : SupmaskKeepsLiveContexts := by
  intro s x hport
  refine ⟨_, (exec_supmask s x).trans (if_neg (by simp [hport])), rfl, fun n hn => ?_⟩
  simp only [BitVec.getLsbD_or, BitVec.getLsbD_and, BitVec.getLsbD_not, getLsbD_foldl_keys hn, hn, State.ctx?]
  by_cases h : (look? s.ctxs n).isSome = true <;> simp [h]

theorem registersTakeHostWrites : RegistersTakeHostWrites := by
  intro s port n bytes hport
  refine ⟨fun hn hl => ?_, fun hn hl => ?_, fun hl => ?_, fun hl => ?_, fun hn hc => ?_, fun hc => ?_,
    fun o ho hctx hb hl => ?_, fun ho hf => ?_⟩
  · exact ⟨_, (exec_pageWrite hport).trans (State.writePage_mwBase hn hl), rfl, fun k => look_keep ..⟩
  · refine ⟨_, (exec_mgmtWrite hport).trans (State.writeMgmt_route hn hl), ?_⟩
    simp [look_keep]
  · exact ⟨_, (exec_mgmtWrite hport).trans (State.writeMgmt_self hl), rfl⟩
  · refine ⟨_, (exec_mgmtWrite hport).trans (State.writeMgmt_orphanCons hl), ?_⟩
    simp [State.drain_orphanCons]
  · refine ⟨_, (exec_mgmtWrite hport).trans (State.writeMgmt_stage.trans (if_pos ⟨hn, hc⟩)), fun k hk => ?_⟩
    simp [State.read_writeRaw, hk]
  · exact (exec_mgmtWrite hport).trans (State.writeMgmt_stage.trans (if_neg fun h => hc h.2))
  · exact ⟨_, (exec_pageWrite hport).trans (State.writePage_launchPort ho hctx hb hl), rfl, fun k => look_keep ..⟩
  · exact (exec_pageWrite hport).trans (State.writePage_noField ho hf)

theorem registersAreRead : RegistersAreRead := by
  intro s port n hport hn
  have reg (f : Ctx → Nat) : ((s.ctx? n).map f).getD 0 = match s.ctx? n with
      | none => 0
      | some c => f c := by cases s.ctx? n <;> rfl
  refine ⟨State.readPage_launchPort, State.readPage_acc.trans (congrArg _ (reg (·.acc))),
    State.readPage_fin.trans (congrArg _ (reg (·.fin))), State.readPage_produced.trans (congrArg _ (reg (·.produced))),
    State.readPage_werr, State.readPage_mwBase,
    fun o len ho hf => State.readPage_noField (by rwa [(page_split ho).2]), ?_, ?_, ?_, ?_, ?_, ?_, ?_,
    State.readMgmt_record_length, State.readMgmt_report_length⟩
  all_goals simp [State.readMgmt, Pkg.preadyWord]

/-- Settles O24, register by register: each write through the equation of its aperture, what follows it through the laws of writes
and of the orphan log; each read through the aperture's table. -/
theorem hostRegisters : Obligations.HostRegisters :=
  ⟨supmaskKeepsLiveContexts, registersTakeHostWrites, registersAreRead⟩

end Sys2Proof.Claims
end

section
/-! PROOFS. The decoder and the encoder are inverse to each other (spec/01 R23 to R35). -/

namespace Sys2Proof

/-! ### Codes of fields -/

theorem except_map_eq_ok {ε α β : Type} {f : α → β} {x : Except ε α} {b : β} :
    x.map f = .ok b ↔ ∃ a, x = .ok a ∧ f a = b := by
  cases x <;> simp [Except.map]

theorem except_bind_eq_ok {ε α β : Type} {f : α → Except ε β} {x : Except ε α} {b : β} :
    (x >>= f) = .ok b ↔ ∃ a, x = .ok a ∧ f a = .ok b := by
  cases x <;> simp [bind, Except.bind]

@[simp] theorem Opnd.ofCode_code (o : Opnd) : Opnd.ofCode o.code = .ok o := by
  cases o with
  | v n => revert n; decide
  | s n => revert n; decide
  | q n => revert n; decide
  | zr => rfl

theorem Opnd.code_of_ofCode {c : BitVec 8} {o : Opnd} (h : Opnd.ofCode c = .ok o) : o.code = c := by
  have hall : ∀ c : BitVec 8, (Opnd.ofCode c).toOption.all fun o => o.code == c := by decide
  simpa [h, Except.toOption] using hall c

theorem Opnd.ofCode_eq_ok {c : BitVec 8} {o : Opnd} : Opnd.ofCode c = .ok o ↔ o.code = c :=
  ⟨Opnd.code_of_ofCode, fun h => h ▸ o.ofCode_code⟩

theorem PSel.ofCode_eq_ok {c : BitVec 8} {p : PSel} : PSel.ofCode c = .ok p ↔ p.code = c := by
  obtain ⟨neg, pn⟩ := p
  constructor
  · have hall : ∀ c : BitVec 8, (PSel.ofCode c).toOption.all fun p => p.code == c := by decide
    intro h
    simpa [h, Except.toOption] using hall c
  · rintro rfl
    revert neg pn
    decide

theorem Guard.ofCode_eq {c : BitVec 4} {g : Guard} : Guard.ofCode c = g ↔ g.code = c := by
  obtain ⟨neg, pn⟩ := g
  revert c neg pn
  decide

theorem Src.ofCode_eq_ok {c : BitVec 8} {m : BitVec 4} {s : Src} :
    Src.ofCode c m = .ok s ↔ s.o.code = c ∧ s.mod = m := by
  obtain ⟨o, sel, trap⟩ := s
  have hmod : ∀ (m : BitVec 4) (sel : BitVec 3) (trap : Bool),
      (m.extractLsb' 0 3 = sel ∧ m.getLsbD 3 = trap) ↔ BitVec.ofBool trap ++ sel = m := by decide
  simp [Src.ofCode, except_map_eq_ok, Opnd.ofCode_eq_ok, Src.mod, ← hmod]

/-! ### Bits of a word -/

theorem ofBool_getLsbD (w : W64) (k : Nat) : BitVec.ofBool (w.getLsbD k) = fld w k 1 := by
  apply BitVec.eq_of_getLsbD_eq
  intro i hi
  obtain rfl : i = 0 := by omega
  simp

theorem getLsbD_eq_fld (w : W64) (k : Nat) : w.getLsbD k = (fld w k 1).getLsbD 0 := by simp

@[simp] theorem PSel.ofCode_code (p : PSel) : PSel.ofCode p.code = .ok p := PSel.ofCode_eq_ok.2 rfl

@[simp] theorem Guard.ofCode_code (g : Guard) : Guard.ofCode g.code = g := Guard.ofCode_eq.2 rfl

@[simp] theorem Guard.code_ofCode (c : BitVec 4) : (Guard.ofCode c).code = c := Guard.ofCode_eq.1 rfl

@[simp] theorem Src.ofCode_code (s : Src) : Src.ofCode s.o.code s.mod = .ok s := Src.ofCode_eq_ok.2 ⟨rfl, rfl⟩

/-- A layout of a format: its encoder puts the opcode into the low byte, and its decoder finds the fields where the encoder puts
them. Of some formats not every value is laid out so that it can be told from another (`ok`). -/
structure Codec {F : Type} (enc : BitVec 8 → F → W64) (dec : W64 → Except DecodeErr F) (ok : F → Prop) : Prop where
  opcode : ∀ op x, fld (enc op x) 0 8 = op
  dec_enc : ∀ op x, ok x → dec (enc op x) = .ok x
  enc_of_dec : ∀ w x, dec w = .ok x → enc (fld w 0 8) x = w

theorem codecNop : Codec encNop decNop (fun _ => True) where
  opcode op x := by simp (disch := decide) [encNop, BitVec.extractLsb'_append_eq_of_add_le, -Nat.reduceAdd]
  dec_enc op x _ := by
    simp (disch := decide) [decNop, encNop, BitVec.extractLsb'_append_eq_of_le, BitVec.extractLsb'_append_eq_of_add_le,
      -BitVec.getLsbD_eq_getElem, -Nat.reduceAdd]
  enc_of_dec w x h := by
    simp only [decNop, Except.ok.injEq] at h
    obtain rfl := h
    simp (disch := decide) only [encNop, Guard.code_ofCode,
      BitVec.extractLsb'_append_extractLsb'_eq_extractLsb', -Nat.reduceAdd]
    exact BitVec.extractLsb'_eq_self

theorem codecA : Codec encA decA (fun _ => True) where
  opcode op x := by simp (disch := decide) [encA, BitVec.extractLsb'_append_eq_of_add_le, -Nat.reduceAdd]
  dec_enc op x _ := by
    simp (disch := decide) [decA, encA, BitVec.extractLsb'_append_eq_of_le, BitVec.extractLsb'_append_eq_of_add_le,
      getLsbD_eq_fld, bind, Except.bind, -BitVec.getLsbD_eq_getElem, -Nat.reduceAdd]
  enc_of_dec w x h := by
    simp only [decA, except_bind_eq_ok, Opnd.ofCode_eq_ok, Src.ofCode_eq_ok, Except.ok.injEq] at h
    obtain ⟨d, hd, a, ⟨ha, ham⟩, b, ⟨hb, hbm⟩, c, ⟨hc, hcm⟩, rfl⟩ := h
    simp (disch := decide) only [encA, hd, ha, ham, hb, hbm, hc, hcm, Guard.code_ofCode, ofBool_getLsbD,
      BitVec.extractLsb'_append_extractLsb'_eq_extractLsb', -Nat.reduceAdd]
    exact BitVec.extractLsb'_eq_self

theorem codecAP : Codec encAP decAP (fun _ => True) where
  opcode op x := by simp (disch := decide) [encAP, BitVec.extractLsb'_append_eq_of_add_le, -Nat.reduceAdd]
  dec_enc op x _ := by
    simp (disch := decide) [decAP, encAP, BitVec.extractLsb'_append_eq_of_le, BitVec.extractLsb'_append_eq_of_add_le,
      getLsbD_eq_fld, bind, Except.bind, -BitVec.getLsbD_eq_getElem, -Nat.reduceAdd]
  enc_of_dec w x h := by
    simp only [decAP, except_bind_eq_ok, PSel.ofCode_eq_ok, Src.ofCode_eq_ok, Except.ok.injEq] at h
    obtain ⟨d, hd, a, ⟨ha, ham⟩, b, ⟨hb, hbm⟩, c, ⟨hc, hcm⟩, rfl⟩ := h
    simp (disch := decide) only [encAP, hd, ha, ham, hb, hbm, hc, hcm, Guard.code_ofCode, ofBool_getLsbD,
      BitVec.extractLsb'_append_extractLsb'_eq_extractLsb', -Nat.reduceAdd]
    exact BitVec.extractLsb'_eq_self

theorem codecSel : Codec encSel decSel (fun _ => True) where
  opcode op x := by simp (disch := decide) [encSel, BitVec.extractLsb'_append_eq_of_add_le, -Nat.reduceAdd]
  dec_enc op x _ := by
    simp (disch := decide) [decSel, encSel, BitVec.extractLsb'_append_eq_of_le, BitVec.extractLsb'_append_eq_of_add_le,
      getLsbD_eq_fld, bind, Except.bind, -BitVec.getLsbD_eq_getElem, -Nat.reduceAdd]
  enc_of_dec w x h := by
    simp only [decSel, except_bind_eq_ok, Opnd.ofCode_eq_ok, PSel.ofCode_eq_ok, Src.ofCode_eq_ok, Except.ok.injEq] at h
    obtain ⟨d, hd, a, ⟨ha, ham⟩, b, ⟨hb, hbm⟩, c, hc, rfl⟩ := h
    simp (disch := decide) only [encSel, hd, ha, ham, hb, hbm, hc, Guard.code_ofCode, ofBool_getLsbD,
      BitVec.extractLsb'_append_extractLsb'_eq_extractLsb', -Nat.reduceAdd]
    exact BitVec.extractLsb'_eq_self

theorem codecPlop : Codec encPlop decPlop (fun _ => True) where
  opcode op x := by simp (disch := decide) [encPlop, BitVec.extractLsb'_append_eq_of_add_le, -Nat.reduceAdd]
  dec_enc op x _ := by
    simp (disch := decide) [decPlop, encPlop, BitVec.extractLsb'_append_eq_of_le, BitVec.extractLsb'_append_eq_of_add_le,
      getLsbD_eq_fld, bind, Except.bind, -BitVec.getLsbD_eq_getElem, -Nat.reduceAdd]
  enc_of_dec w x h := by
    simp only [decPlop, except_bind_eq_ok, PSel.ofCode_eq_ok, Src.ofCode_eq_ok, Except.ok.injEq] at h
    obtain ⟨d, hd, a, ha, b, hb, c, ⟨hc, hcm⟩, rfl⟩ := h
    simp (disch := decide) only [encPlop, hd, ha, hb, hc, hcm, Guard.code_ofCode, ofBool_getLsbD,
      BitVec.extractLsb'_append_extractLsb'_eq_extractLsb', -Nat.reduceAdd]
    exact BitVec.extractLsb'_eq_self

theorem codecB : Codec encB decB (fun _ => True) where
  opcode op x := by simp (disch := decide) [encB, BitVec.extractLsb'_append_eq_of_add_le, -Nat.reduceAdd]
  dec_enc op x _ := by
    simp (disch := decide) [decB, encB, BitVec.extractLsb'_append_eq_of_le, BitVec.extractLsb'_append_eq_of_add_le,
      getLsbD_eq_fld, bind, Except.bind, -BitVec.getLsbD_eq_getElem, -Nat.reduceAdd]
  enc_of_dec w x h := by
    simp only [decB, except_bind_eq_ok, Opnd.ofCode_eq_ok, Except.ok.injEq] at h
    obtain ⟨d, hd, a, ha, rfl⟩ := h
    simp (disch := decide) only [encB, hd, ha, Guard.code_ofCode, ofBool_getLsbD,
      BitVec.extractLsb'_append_extractLsb'_eq_extractLsb', -Nat.reduceAdd]
    exact BitVec.extractLsb'_eq_self

theorem codecBP : Codec encBP decBP (fun _ => True) where
  opcode op x := by simp (disch := decide) [encBP, BitVec.extractLsb'_append_eq_of_add_le, -Nat.reduceAdd]
  dec_enc op x _ := by
    simp (disch := decide) [decBP, encBP, BitVec.extractLsb'_append_eq_of_le, BitVec.extractLsb'_append_eq_of_add_le,
      getLsbD_eq_fld, bind, Except.bind, -BitVec.getLsbD_eq_getElem, -Nat.reduceAdd]
  enc_of_dec w x h := by
    simp only [decBP, except_bind_eq_ok, Opnd.ofCode_eq_ok, PSel.ofCode_eq_ok, Except.ok.injEq] at h
    obtain ⟨d, hd, a, ha, rfl⟩ := h
    simp (disch := decide) only [encBP, hd, ha, Guard.code_ofCode, ofBool_getLsbD,
      BitVec.extractLsb'_append_extractLsb'_eq_extractLsb', -Nat.reduceAdd]
    exact BitVec.extractLsb'_eq_self

theorem codecM : Codec encM decM (fun _ => True) where
  opcode op x := by simp (disch := decide) [encM, BitVec.extractLsb'_append_eq_of_add_le, -Nat.reduceAdd]
  dec_enc op x _ := by
    simp (disch := decide) [decM, encM, BitVec.extractLsb'_append_eq_of_le, BitVec.extractLsb'_append_eq_of_add_le,
      getLsbD_eq_fld, bind, Except.bind, -BitVec.getLsbD_eq_getElem, -Nat.reduceAdd]
  enc_of_dec w x h := by
    simp only [decM, except_bind_eq_ok, Opnd.ofCode_eq_ok, Except.ok.injEq] at h
    obtain ⟨d, hd, a, ha, b, hb, rfl⟩ := h
    simp (disch := decide) only [encM, hd, ha, hb, Guard.code_ofCode, ofBool_getLsbD,
      BitVec.extractLsb'_append_extractLsb'_eq_extractLsb', -Nat.reduceAdd]
    exact BitVec.extractLsb'_eq_self

theorem codecMA : Codec encMA decMA (fun _ => True) where
  opcode op x := by simp (disch := decide) [encMA, BitVec.extractLsb'_append_eq_of_add_le, -Nat.reduceAdd]
  dec_enc op x _ := by
    simp (disch := decide) [decMA, encMA, BitVec.extractLsb'_append_eq_of_le, BitVec.extractLsb'_append_eq_of_add_le,
      getLsbD_eq_fld, bind, Except.bind, -BitVec.getLsbD_eq_getElem, -Nat.reduceAdd]
  enc_of_dec w x h := by
    simp only [decMA, except_bind_eq_ok, Opnd.ofCode_eq_ok, Except.ok.injEq] at h
    obtain ⟨d, hd, a, ha, b, hb, rfl⟩ := h
    simp (disch := decide) only [encMA, hd, ha, hb, Guard.code_ofCode, ofBool_getLsbD,
      BitVec.extractLsb'_append_extractLsb'_eq_extractLsb', -Nat.reduceAdd]
    exact BitVec.extractLsb'_eq_self

theorem codecX : Codec encX decX (fun _ => True) where
  opcode op x := by simp (disch := decide) [encX, BitVec.extractLsb'_append_eq_of_add_le, -Nat.reduceAdd]
  dec_enc op x _ := by
    simp (disch := decide) [decX, encX, BitVec.extractLsb'_append_eq_of_le, BitVec.extractLsb'_append_eq_of_add_le,
      bind, Except.bind, -BitVec.getLsbD_eq_getElem, -Nat.reduceAdd]
  enc_of_dec w x h := by
    simp only [decX, except_bind_eq_ok, Opnd.ofCode_eq_ok, Except.ok.injEq] at h
    obtain ⟨d, hd, rfl⟩ := h
    simp (disch := decide) only [encX, hd, Guard.code_ofCode,
      BitVec.extractLsb'_append_extractLsb'_eq_extractLsb', -Nat.reduceAdd]
    exact BitVec.extractLsb'_eq_self

/-- The bits of a format that must be zero are those that the encoder leaves zero (R29). -/
theorem codecP : Codec encP decP (fun _ => True) where
  opcode op x := by simp (disch := decide) [encP, BitVec.extractLsb'_append_eq_of_add_le, -Nat.reduceAdd]
  dec_enc op x _ := by
    simp (disch := decide) [decP, encP, BitVec.extractLsb'_append_eq_of_le, BitVec.extractLsb'_append_eq_of_add_le,
      -Nat.reduceAdd]
  enc_of_dec w x h := by
    simp only [decP] at h
    split at h
    case isFalse => cases h
    case isTrue hz =>
      obtain ⟨hz56, hz22, hz15⟩ : fld w 56 8 = 0#8 ∧ fld w 22 10 = 0#10 ∧ fld w 15 1 = 0#1 := hz
      cases h
      simp (disch := decide) only [encP, ← hz56, ← hz22, ← hz15, Guard.code_ofCode,
        BitVec.extractLsb'_append_extractLsb'_eq_extractLsb', -Nat.reduceAdd]
      exact BitVec.extractLsb'_eq_self

theorem codecT : Codec encT decT (fun _ => True) where
  opcode op x := by simp (disch := decide) [encT, BitVec.extractLsb'_append_eq_of_add_le, -Nat.reduceAdd]
  dec_enc op x _ := by
    simp (disch := decide) [decT, encT, BitVec.extractLsb'_append_eq_of_le, BitVec.extractLsb'_append_eq_of_add_le,
      getLsbD_eq_fld, Except.map, -BitVec.getLsbD_eq_getElem, -Nat.reduceAdd]
  enc_of_dec w x h := by
    simp only [decT] at h
    split at h
    case isFalse => cases h
    case isTrue hz =>
      obtain ⟨hz52, hz15⟩ : fld w 52 12 = 0#12 ∧ fld w 15 1 = 0#1 := hz
      obtain ⟨kc, hkc, rfl⟩ := except_map_eq_ok.1 h
      rw [Opnd.ofCode_eq_ok] at hkc
      simp (disch := decide) only [encT, hkc, ← hz52, ← hz15, Guard.code_ofCode, ofBool_getLsbD,
        BitVec.extractLsb'_append_extractLsb'_eq_extractLsb', -Nat.reduceAdd]
      exact BitVec.extractLsb'_eq_self

/-- PPOLL's destination is laid out as its function says: a selector with FN 0 and 1, a register otherwise (Table 8.3). -/
def FmtPoll.dstFits (x : FmtPoll) : Prop :=
  match x.d with
  | .pred _ => x.fn.toNat < 2
  | .reg _ => ¬ x.fn.toNat < 2

theorem codecPoll : Codec encPoll decPoll FmtPoll.dstFits where
  opcode op x := by simp (disch := decide) [encPoll, BitVec.extractLsb'_append_eq_of_add_le, -Nat.reduceAdd]
  dec_enc op x hx := by
    obtain ⟨g, u, d, pa, ma, b, c, fn, fl⟩ := x
    cases d <;>
    · simp only [FmtPoll.dstFits] at hx
      simp (disch := decide) [decPoll, encPoll, PollDst.code, hx, BitVec.extractLsb'_append_eq_of_le,
        BitVec.extractLsb'_append_eq_of_add_le, getLsbD_eq_fld, Except.map, bind, Except.bind, -BitVec.getLsbD_eq_getElem,
        -BitVec.getLsbD_extractLsb', -Nat.reduceAdd]
  enc_of_dec w x h := by
    have hcode : ∃ d : PollDst, d.code = fld w 12 8 ∧ ∃ pa b c, PSel.ofCode (fld w 20 8) = .ok pa ∧
        Src.ofCode (fld w 28 8) (fld w 48 4) = .ok b ∧ Src.ofCode (fld w 36 8) (fld w 52 4) = .ok c ∧
        x = ⟨Guard.ofCode (fld w 8 4), w.getLsbD 60, d, pa, fld w 44 4, b, c, fld w 56 4, fld w 61 3⟩ := by
      unfold decPoll at h
      split at h <;>
      · simp only [except_bind_eq_ok, except_map_eq_ok, PSel.ofCode_eq_ok, Opnd.ofCode_eq_ok, Except.ok.injEq] at h
        obtain ⟨d, ⟨p, hp, rfl⟩, pa, hpa, b, hb, c, hc, rfl⟩ := h
        refine ⟨_, ?_, pa, b, c, PSel.ofCode_eq_ok.2 hpa, hb, hc, rfl⟩
        exact hp
    simp only [PSel.ofCode_eq_ok, Src.ofCode_eq_ok] at hcode
    obtain ⟨d, hd, pa, b, c, hpa, ⟨hb, hbm⟩, ⟨hc, hcm⟩, rfl⟩ := hcode
    simp (disch := decide) only [encPoll, hd, hpa, hb, hbm, hc, hcm, Guard.code_ofCode, ofBool_getLsbD,
      BitVec.extractLsb'_append_extractLsb'_eq_extractLsb', -Nat.reduceAdd]
    exact BitVec.extractLsb'_eq_self

/-- No selector has the code of the waiting form (R79, R104). -/
theorem PSel.code_ne_waiting (p : PSel) : p.code ≠ 0xFF#8 := by
  obtain ⟨neg, pn⟩ := p
  revert neg pn
  decide

/-- The code of WAITF's destination: 0xFF is the waiting form (R104). -/
def FmtWait.dstCode : Option PSel → BitVec 8
  | none => 0xFF#8
  | some p => p.code

theorem encWait_eq (op : BitVec 8) (x : FmtWait) : encWait op x =
    x.fl ++ BitVec.ofBool x.u ++ x.fn ++ x.c.mod ++ x.b.mod ++ x.a.mod ++ x.c.o.code ++ x.b.o.code ++ x.a.o.code ++
      FmtWait.dstCode x.pd ++ x.g.code ++ op := by
  cases h : x.pd <;> simp only [encWait, h, FmtWait.dstCode]

theorem codecWait : Codec encWait decWait (fun _ => True) where
  opcode op x := by
    simp (disch := decide) [encWait_eq, BitVec.extractLsb'_append_eq_of_add_le, -Nat.reduceAdd]
  dec_enc op x _ := by
    obtain ⟨g, u, pd, a, b, c, fn, fl⟩ := x
    cases pd <;>
    simp (disch := decide) [decWait, encWait_eq, FmtWait.dstCode, PSel.code_ne_waiting, BitVec.extractLsb'_append_eq_of_le,
        BitVec.extractLsb'_append_eq_of_add_le, getLsbD_eq_fld, Except.map, bind, Except.bind, -BitVec.getLsbD_eq_getElem,
        -BitVec.getLsbD_extractLsb', -Nat.reduceAdd]
  enc_of_dec w x h := by
    have hcode : ∃ pd : Option PSel, FmtWait.dstCode pd = fld w 12 8 ∧ ∃ a b c,
        Src.ofCode (fld w 20 8) (fld w 44 4) = .ok a ∧
        Src.ofCode (fld w 28 8) (fld w 48 4) = .ok b ∧ Src.ofCode (fld w 36 8) (fld w 52 4) = .ok c ∧
        x = ⟨Guard.ofCode (fld w 8 4), w.getLsbD 60, pd, a, b, c, fld w 56 4, fld w 61 3⟩ := by
      unfold decWait at h
      split at h
      case isTrue hw =>
        simp only [except_bind_eq_ok, Except.ok.injEq] at h
        obtain ⟨_, rfl, a, ha, b, hb, c, hc, rfl⟩ := h
        exact ⟨none, hw.symm, a, b, c, ha, hb, hc, rfl⟩
      case isFalse =>
        simp only [except_bind_eq_ok, except_map_eq_ok, PSel.ofCode_eq_ok, Except.ok.injEq] at h
        obtain ⟨_, ⟨p, hp, rfl⟩, a, ha, b, hb, c, hc, rfl⟩ := h
        exact ⟨some p, hp, a, b, c, ha, hb, hc, rfl⟩
    simp only [Src.ofCode_eq_ok] at hcode
    obtain ⟨pd, hd, a, b, c, ⟨ha, ham⟩, ⟨hb, hbm⟩, ⟨hc, hcm⟩, rfl⟩ := hcode
    simp (disch := decide) only [encWait_eq, hd, ha, ham, hb, hbm, hc, hcm, Guard.code_ofCode, ofBool_getLsbD,
      BitVec.extractLsb'_append_extractLsb'_eq_extractLsb', -Nat.reduceAdd]
    exact BitVec.extractLsb'_eq_self

theorem noDual_eq_ok {p : Option Dual} {r : Except DecodeErr Instr} {i : Instr} :
    noDual p r = .ok i ↔ p = none ∧ r = .ok i := by
  cases p <;> simp [noDual]

section arms
variable {F : Type} {enc : BitVec 8 → F → W64} {dec : W64 → Except DecodeErr F} {ok : F → Prop} {w : W64} {n : Nat}
  {p : Option Dual} {mk : F → Instr} {i : Instr}

/-- What is decoded in a format is what its encoder lays out. -/
theorem Codec.encodeWord_of_map (hc : Codec enc dec ok) (hop : (fld w 0 8).toNat = n)
    (hmk : ∀ x, encodeWord (mk x) = some (p, enc (BitVec.ofNat 8 n) x)) (h : (dec w).map mk = .ok i) :
    encodeWord i = some (p, w) := by
  obtain ⟨x, hx, rfl⟩ := except_map_eq_ok.1 h
  rw [hmk, ← hop, BitVec.ofNat_toNat, BitVec.setWidth_eq, hc.enc_of_dec w x hx]

/-- The same of an instruction that refuses a prefix. -/
theorem Codec.encodeWord_of_noDual (hc : Codec enc dec ok) (hop : (fld w 0 8).toNat = n)
    (hmk : ∀ x, encodeWord (mk x) = some (none, enc (BitVec.ofNat 8 n) x)) (h : noDual p ((dec w).map mk) = .ok i) :
    encodeWord i = some (p, w) := by
  obtain ⟨rfl, h⟩ := noDual_eq_ok.1 h
  exact hc.encodeWord_of_map hop hmk h

/-- What an encoder lays out is decoded to what it came from. -/
theorem Codec.map_dec (hc : Codec enc dec ok) {op : BitVec 8} {x : F} (hx : ok x) :
    (dec (enc op x)).map mk = .ok (mk x) := by
  rw [hc.dec_enc op x hx, Except.map]

end arms

theorem encodeWord_exitOf (w : FmtA) : encodeWord (exitOf w) = some (none, encA 0x86 w) := by
  unfold exitOf
  split <;> rfl

theorem encodeWord_of_decodeFields {p : Option Dual} {w : W64} {i : Instr} (h : decodeFields p w = .ok i) :
    encodeWord i = some (p, w) := by
  have hNop := codecNop
  have hA := codecA
  have hAP := codecAP
  have hSel := codecSel
  have hPlop := codecPlop
  have hPoll := codecPoll
  have hWait := codecWait
  have hB := codecB
  have hBP := codecBP
  have hM := codecM
  have hMA := codecMA
  have hX := codecX
  have hP := codecP
  have hT := codecT
  unfold decodeFields at h
  split at h
  all_goals first
    | exact Codec.encodeWord_of_map ‹_› ‹_› (fun _ => rfl) h
    | exact Codec.encodeWord_of_noDual ‹_› ‹_› (fun _ => rfl) h
    | exact Codec.encodeWord_of_noDual ‹_› ‹_› encodeWord_exitOf h
    | cases h

theorem exitOf_of_wf_exit {w : FmtA} (h : (Instr.exit w).wf = true) : exitOf w = .exit w := by
  simp only [Instr.wf, FmtA.srcs, Src.unused, Bool.and_eq_true, beq_iff_eq] at h
  simp [exitOf, h]

theorem exitOf_of_wf_exitE {w : FmtA} (h : (Instr.exitE w).wf = true) : exitOf w = .exitE w := by
  simp only [Instr.wf, exitEWf, Bool.and_eq_true] at h
  have hb : w.b.o.isV = true := by tauto
  have : w.b.o ≠ .zr := by rintro hz; simp [hz, Opnd.isV] at hb
  simp [exitOf, this]

theorem FmtPoll.dstFits_of_wf {x : FmtPoll} (h : (Instr.ppoll x).wf = true) : x.dstFits := by
  simp only [Instr.wf, Bool.and_eq_true] at h
  obtain ⟨-, hd⟩ := h
  unfold FmtPoll.dstFits
  split at hd <;> simp_all

/-- Well-formed values of PPOLL, EXIT and EXIT.E decode to themselves; of the others every value does. -/
theorem decodeFields_of_encodeWord {p : Option Dual} {w : W64} {i : Instr} (hw : i.wf = true)
    (h : encodeWord i = some (p, w)) : decodeFields p w = .ok i := by
  cases i
  all_goals cases h
  all_goals unfold decodeFields
  case ppoll x =>
    rw [codecPoll.opcode]
    exact codecPoll.map_dec (FmtPoll.dstFits_of_wf hw)
  case exit x =>
    rw [codecA.opcode, ← exitOf_of_wf_exit hw]
    exact codecA.map_dec trivial
  case exitE x =>
    rw [codecA.opcode, ← exitOf_of_wf_exitE hw]
    exact codecA.map_dec trivial
  all_goals first
    | rw [codecNop.opcode]; exact codecNop.map_dec trivial
    | rw [codecA.opcode]; exact codecA.map_dec trivial
    | rw [codecB.opcode]; exact codecB.map_dec trivial
    | rw [codecAP.opcode]; exact codecAP.map_dec trivial
    | rw [codecBP.opcode]; exact codecBP.map_dec trivial
    | rw [codecSel.opcode]; exact codecSel.map_dec trivial
    | rw [codecPlop.opcode]; exact codecPlop.map_dec trivial
    | rw [codecWait.opcode]; exact codecWait.map_dec trivial
    | rw [codecM.opcode]; exact codecM.map_dec trivial
    | rw [codecMA.opcode]; exact codecMA.map_dec trivial
    | rw [codecX.opcode]; exact codecX.map_dec trivial
    | rw [codecP.opcode]; exact codecP.map_dec trivial
    | rw [codecT.opcode]; exact codecT.map_dec trivial

theorem encodeWord_isSome (i : Instr) : (encodeWord i).isSome = i.isMachine := by cases i <;> rfl

/-- No opcode is one of a prefix (R23). -/
theorem opcode_lt_of_encodeWord {p : Option Dual} {w : W64} {i : Instr} (h : encodeWord i = some (p, w)) :
    (fld w 0 8).toNat < 0xF0 := by
  cases i
  all_goals cases h
  all_goals simp [codecNop.opcode, codecA.opcode, codecAP.opcode, codecSel.opcode, codecPlop.opcode,
    codecPoll.opcode, codecWait.opcode, codecB.opcode, codecBP.opcode, codecM.opcode, codecMA.opcode, codecX.opcode,
    codecP.opcode, codecT.opcode]

/-- The prefix of a well-formed instruction has a count of at most 4 (R25). -/
theorem dual_le_of_wf {d : Dual} {w : W64} {i : Instr} (hw : i.wf = true) (h : encodeWord i = some (some d, w)) :
    d.n.toNat ≤ 4 := by
  have hok : ∃ mem, dualOk mem (some d) = true := by
    cases i
    all_goals cases h
    all_goals simp only [Instr.wf, Bool.and_eq_true, and_assoc] at hw
    all_goals exact ⟨_, hw.1⟩
  obtain ⟨mem, hok⟩ := hok
  simp only [dualOk, Bool.and_eq_true, decide_eq_true_eq] at hok
  exact hok.1

/-! ### Units -/

@[simp] theorem isPrefixUnit_unit (d : Dual) : isPrefixUnit d.unit = true := by
  obtain ⟨n, tm⟩ := d
  revert n tm
  decide

theorem decodePrefix_eq_ok {u : W32} {d : Dual} : decodePrefix u = .ok d ↔ d.unit = u ∧ d.n.toNat ≤ 4 := by
  obtain ⟨n, tm⟩ := d
  have hbit : BitVec.ofBool (u.getLsbD 11) = u.extractLsb' 11 1 := by
    apply BitVec.eq_of_getLsbD_eq
    intro i hi
    obtain rfl : i = 0 := by omega
    simp
  unfold decodePrefix
  constructor
  · split
    case isTrue hu =>
      obtain ⟨hop, hz, hn⟩ := hu
      replace hz : u.extractLsb' 12 20 = 0#20 := hz
      rintro ⟨⟩
      refine ⟨?_, hn⟩
      rw [Dual.unit, ← hop, ← hz]
      simp (disch := decide) only [hbit, BitVec.extractLsb'_append_extractLsb'_eq_extractLsb', -Nat.reduceAdd]
      exact BitVec.extractLsb'_eq_self
    case isFalse => simp
  · rintro ⟨rfl, hn⟩
    revert n tm
    decide

theorem append_units (w : W64) : (fld w 32 32 ++ fld w 0 32 : W64) = w := by
  rw [fld, fld, BitVec.extractLsb'_append_extractLsb'_eq_extractLsb' (by decide)]
  exact BitVec.extractLsb'_eq_self

theorem fld_units (lo hi : W32) : fld (hi ++ lo) 0 32 = lo ∧ fld (hi ++ lo) 32 32 = hi := by
  constructor
  · exact BitVec.extractLsb'_append_eq_right
  · exact BitVec.extractLsb'_append_eq_left

theorem decodeWord_eq_ok {p : Option Dual} {w : W64} {i : Instr} :
    decodeWord p w = .ok i ↔ i.wf = true ∧ encodeWord i = some (p, w) := by
  unfold decodeWord
  constructor
  · split
    · simp
    next j hj =>
      split
      · rintro ⟨⟩
        exact ⟨‹_›, encodeWord_of_decodeFields hj⟩
      · simp
  · rintro ⟨hw, he⟩
    simp [decodeFields_of_encodeWord hw he, hw]

/-- A word's lower unit begins with its opcode, so that it is no prefix (R23). -/
theorem isPrefixUnit_low {p : Option Dual} {lo hi : W32} {i : Instr} (h : encodeWord i = some (p, hi ++ lo)) :
    isPrefixUnit lo = false := by
  have hop := opcode_lt_of_encodeWord h
  rw [show fld (hi ++ lo) 0 8 = lo.extractLsb' 0 8 from BitVec.extractLsb'_append_eq_of_add_le (by decide)] at hop
  simp only [isPrefixUnit, decide_eq_false_iff_not]
  omega

theorem encode_eq {p : Option Dual} {lo hi : W32} {i : Instr} (h : encodeWord i = some (p, hi ++ lo)) :
    encode i = (p.map Dual.unit).toList ++ [lo, hi] := by
  obtain ⟨hlo, hhi⟩ := fld_units lo hi
  rw [encode, h]
  cases p <;> simp [hlo, hhi]

/-- The units of a well-formed machine instruction, whatever stands behind them, decode to it. -/
theorem decode_units {p : Option Dual} {lo hi : W32} {i : Instr} (hw : i.wf = true) (h : encodeWord i = some (p, hi ++ lo))
    (rest : List W32) : decode ((p.map Dual.unit).toList ++ [lo, hi] ++ rest) = .ok i := by
  have hlo := isPrefixUnit_low h
  cases p with
  | none => simp [decode, hlo, decodeWord_eq_ok, hw, h]
  | some d => simp [decode, hlo, decodePrefix_eq_ok.2 ⟨rfl, dual_le_of_wf hw h⟩, decodeWord_eq_ok, hw, h]

/-- Units that decode are those of an instruction's prefix and word. -/
theorem units_of_decode {us : List W32} {i : Instr} (h : decode us = .ok i) :
    ∃ p lo hi rest, us = (p.map Dual.unit).toList ++ [lo, hi] ++ rest ∧ i.wf = true ∧ encodeWord i = some (p, hi ++ lo) := by
  unfold decode at h
  split at h
  · cases h
  split at h
  · split at h
    · cases h
    next d hd =>
      split at h
      · split at h
        · cases h
        · exact ⟨some d, _, _, _, congrArg (· :: _) (decodePrefix_eq_ok.1 hd).1.symm, decodeWord_eq_ok.1 h⟩
      · cases h
  · split at h
    · exact ⟨none, _, _, _, rfl, decodeWord_eq_ok.1 h⟩
    · cases h

end Sys2Proof

namespace Sys2Proof.Claims

theorem decodeOfEncode : DecodeOfEncode := by
  intro i hm hw
  obtain ⟨⟨p, w⟩, he⟩ := Option.isSome_iff_exists.1 ((encodeWord_isSome i).trans hm)
  rw [← append_units w] at he
  rw [encode_eq he]
  simpa using decode_units hw he []

theorem encodeOfDecode : EncodeOfDecode := by
  intro us i h
  obtain ⟨p, lo, hi, rest, rfl, hw, he⟩ := units_of_decode h
  refine ⟨?_, hw, ?_⟩
  · rw [← encodeWord_isSome, he, Option.isSome_some]
  · rw [encode_eq he]
    exact List.prefix_append _ rest

/-- Settles O31: format by format, the decoder finds the fields where the encoder puts them (`Codec`), and the opcode map of the
one is that of the other; units are then split into prefix and word as the encoder joins them. -/
theorem decodeAndEncodeAgree : Obligations.DecodeAndEncodeAgree := ⟨decodeOfEncode, encodeOfDecode⟩

end Sys2Proof.Claims
end

section
/-! PROOFS. An instruction that no active lane executes only advances (spec/01 R26). -/

namespace Sys2Proof

/-! ### The guard of a word -/

@[simp] theorem guard_encNop (op : BitVec 8) (x : FmtNop) : fld (encNop op x) 8 4 = x.g.code := by
  simp (disch := decide) [encNop, BitVec.extractLsb'_append_eq_of_le, BitVec.extractLsb'_append_eq_of_add_le, -Nat.reduceAdd]

@[simp] theorem guard_encA (op : BitVec 8) (x : FmtA) : fld (encA op x) 8 4 = x.g.code := by
  simp (disch := decide) [encA, BitVec.extractLsb'_append_eq_of_le, BitVec.extractLsb'_append_eq_of_add_le, -Nat.reduceAdd]

@[simp] theorem guard_encAP (op : BitVec 8) (x : FmtAP) : fld (encAP op x) 8 4 = x.g.code := by
  simp (disch := decide) [encAP, BitVec.extractLsb'_append_eq_of_le, BitVec.extractLsb'_append_eq_of_add_le, -Nat.reduceAdd]

@[simp] theorem guard_encSel (op : BitVec 8) (x : FmtSel) : fld (encSel op x) 8 4 = x.g.code := by
  simp (disch := decide) [encSel, BitVec.extractLsb'_append_eq_of_le, BitVec.extractLsb'_append_eq_of_add_le, -Nat.reduceAdd]

@[simp] theorem guard_encPlop (op : BitVec 8) (x : FmtPlop) : fld (encPlop op x) 8 4 = x.g.code := by
  simp (disch := decide) [encPlop, BitVec.extractLsb'_append_eq_of_le, BitVec.extractLsb'_append_eq_of_add_le, -Nat.reduceAdd]

@[simp] theorem guard_encPoll (op : BitVec 8) (x : FmtPoll) : fld (encPoll op x) 8 4 = x.g.code := by
  simp (disch := decide) [encPoll, BitVec.extractLsb'_append_eq_of_le, BitVec.extractLsb'_append_eq_of_add_le, -Nat.reduceAdd]

@[simp] theorem guard_encB (op : BitVec 8) (x : FmtB) : fld (encB op x) 8 4 = x.g.code := by
  simp (disch := decide) [encB, BitVec.extractLsb'_append_eq_of_le, BitVec.extractLsb'_append_eq_of_add_le, -Nat.reduceAdd]

@[simp] theorem guard_encBP (op : BitVec 8) (x : FmtBP) : fld (encBP op x) 8 4 = x.g.code := by
  simp (disch := decide) [encBP, BitVec.extractLsb'_append_eq_of_le, BitVec.extractLsb'_append_eq_of_add_le, -Nat.reduceAdd]

@[simp] theorem guard_encM (op : BitVec 8) (x : FmtM) : fld (encM op x) 8 4 = x.g.code := by
  simp (disch := decide) [encM, BitVec.extractLsb'_append_eq_of_le, BitVec.extractLsb'_append_eq_of_add_le, -Nat.reduceAdd]

@[simp] theorem guard_encMA (op : BitVec 8) (x : FmtMA) : fld (encMA op x) 8 4 = x.g.code := by
  simp (disch := decide) [encMA, BitVec.extractLsb'_append_eq_of_le, BitVec.extractLsb'_append_eq_of_add_le, -Nat.reduceAdd]

@[simp] theorem guard_encX (op : BitVec 8) (x : FmtX) : fld (encX op x) 8 4 = x.g.code := by
  simp (disch := decide) [encX, BitVec.extractLsb'_append_eq_of_le, BitVec.extractLsb'_append_eq_of_add_le, -Nat.reduceAdd]

@[simp] theorem guard_encP (op : BitVec 8) (x : FmtP) : fld (encP op x) 8 4 = x.g.code := by
  simp (disch := decide) [encP, BitVec.extractLsb'_append_eq_of_le, BitVec.extractLsb'_append_eq_of_add_le, -Nat.reduceAdd]

@[simp] theorem guard_encT (op : BitVec 8) (x : FmtT) : fld (encT op x) 8 4 = x.g.code := by
  simp (disch := decide) [encT, BitVec.extractLsb'_append_eq_of_le, BitVec.extractLsb'_append_eq_of_add_le, -Nat.reduceAdd]

@[simp] theorem guard_encWait (op : BitVec 8) (x : FmtWait) : fld (encWait op x) 8 4 = x.g.code := by
  simp (disch := decide) [encWait_eq, BitVec.extractLsb'_append_eq_of_le, BitVec.extractLsb'_append_eq_of_add_le,
    -Nat.reduceAdd]

/-- The guard of a word is G[11:8] (R26). -/
theorem guard_ofCode_fld (w : W64) : Guard.ofCode (fld w 8 4) = ⟨w.getLsbD 11, w.extractLsb' 8 3⟩ := by
  rw [Guard.ofCode, Guard.mk.injEq]
  refine ⟨by simp, ?_⟩
  apply BitVec.eq_of_getLsbD_eq
  intro i hi
  simp [hi, show i < 4 by omega]

end Sys2Proof

namespace Sys2Proof.Machine

/-- The instruction with this meaning issues over `size` bytes under the guard. -/
def IssuesUnder (size : Nat) (gd : Guard) (s : State) (r : Res) : Prop := ∃ u body, r = issue s size gd u body

section families
variable (s : State)

/-! The forms that several instructions share. -/

theorem alu_issues (w : FmtA) (srcs : List Src) (f : List W32 → W32) : IssuesUnder 8 w.g s (alu w srcs f s) := ⟨_, _, rfl⟩

theorem aluImm_issues (w : FmtB) (f : W32 → W32 → W32) : IssuesUnder 8 w.g s (aluImm w f s) := ⟨_, _, rfl⟩

theorem arithA_issues (k : Arith) (l : Layout) (p : Option Dual) (w : FmtA) (srcs : List Src) :
    IssuesUnder (dualSize p) w.g s (arithA k l p w srcs s) := ⟨_, _, rfl⟩

theorem arithImm_issues (k : Arith) (p : Option Dual) (w : FmtB) :
    IssuesUnder (dualSize p) w.g s (arithImm k p w s) := ⟨_, _, rfl⟩

theorem extreme_issues (mx : Bool) (l : Layout) (p : Option Dual) (w : FmtA) :
    IssuesUnder (dualSize p) w.g s (extreme mx l p w s) := ⟨_, _, rfl⟩

theorem unary_issues (f : UFn) (p : Option Dual) (w : FmtA) : IssuesUnder (dualSize p) w.g s (unary f p w s) := ⟨_, _, rfl⟩

theorem dotA_issues (f : FFmt) (width : Nat) (p : Option Dual) (w : FmtA) :
    IssuesUnder (dualSize p) w.g s (dotA f width p w s) := ⟨_, _, rfl⟩

end families

/-- Every machine instruction issues under the guard of its word, over the bytes of its word and prefix. -/
theorem exec_issues {ins : Instr} {p : Option Dual} {w : W64} (h : encodeWord ins = some (p, w)) (s : State) :
    IssuesUnder (dualSize p) (Guard.ofCode (fld w 8 4)) s (exec ins s) := by
  cases ins
  all_goals cases h
  all_goals simp only [guard_encNop, guard_encA, guard_encAP, guard_encSel, guard_encPlop, guard_encPoll, guard_encWait,
    guard_encB, guard_encBP, guard_encM, guard_encMA, guard_encX, guard_encP, guard_encT, Guard.ofCode_code]
  all_goals dsimp only [exec]
  case iadd | isub | imul | imad | imin | imax | iabs | andL | orL | xorL | andn | shl | shr | sar | rotl | bfe | bfi
      | popc | clz | brev | dp4 | dp8 => exact alu_issues ..
  case iaddi | andi | ori | xori | shli | shri | sari => exact aluImm_issues ..
  case fadd | fsub | fmul | ffma | fdiv | hadd2 | hmul2 | hfma2 => exact arithA_issues ..
  case fmuli | faddi => exact arithImm_issues ..
  case fmin | fmax | hext2 => exact extreme_issues ..
  case frcp | frsq | fsqrt | fex2 | flg2 | fsin | fcos | ftanh => exact unary_issues ..
  case dpf8 | dpf4 => exact dotA_issues ..
  case fcvt =>
    unfold execFcvt
    exact ⟨_, _, rfl⟩
  all_goals exact ⟨_, _, rfl⟩

/-- Without an active lane that passes the guard no lane executes. -/
theorem Group.executing_nil {g : Group} {gd : Guard} (h : ∀ lane ∈ maskLanes g.ctl.mask, g.pred gd.neg gd.pn lane = false)
    (u : Bool) : g.executing gd u = [] := by
  unfold Group.executing
  split
  · exact List.filter_eq_nil_iff.2 fun l hl => by simp [h l (List.mem_of_mem_take hl)]
  · exact List.filter_eq_nil_iff.2 fun l hl => by simp [h l hl]

end Sys2Proof.Machine

namespace Sys2Proof.Claims

open Sys2Proof.Machine

/-- Settles O29: every machine instruction issues under its word's guard (`exec_issue`), and `issue` only advances where no lane
executes. -/
theorem idleInstructionsOnlyAdvance : Obligations.IdleInstructionsOnlyAdvance := by
  intro ins p w s g t l c ctl hw hi hno hadv
  obtain ⟨u, body, he⟩ := exec_issues hw s
  rw [guard_ofCode_fld] at he
  have hidle := Group.executing_nil (gd := ⟨w.getLsbD 11, w.extractLsb' 8 3⟩) hno u
  rw [he, issue_idle (by simp only [State.issueOf, hi, Option.map_some]; rfl) hidle, Iss.finish_ok (ctl := ctl),
    State.commit_plain]
  rw [← hadv, Iss.after]
  cases p <;> rfl

end Sys2Proof.Claims
end

section
/-! PROOFS. A trap without a handler whose entry finds no room (spec/17 R316, R318). -/

namespace Sys2Proof.Claims

open Sys2Proof.Machine

/-- The package with a launch of one group (log 27) that is at a TRAP with TVEC = 0, and whose context has written as many entries
to its fault ring as the ring has places, none of them consumed. -/
def fullRing : State :=
  let s := State.reset.installProgram
  { s with
    cur := 4
    groups := s.groups.map fun g => { g with ctl := Ctl.single 0 3, tvec := 0 }
    ctxs := s.ctxs.map fun c => (c.1, { c.2 with produced := c.2.desc.frCount }) }

/-- TRAP without operands, under the guard P7. -/
def plainTrap : FmtB := ⟨⟨false, 7⟩, false, .zr, .zr, false, 0, 0⟩

/-- The group issues TRAP in two lanes; it has no producers, TVEC is 0 and the device can use the ring. -/
theorem fullRing_issues : (fullRing.issueOf 8 plainTrap.g plainTrap.u).any (fun i =>
    i.ex = [0, 1] ∧ i.g.id = 4 ∧ i.g.tvec = 0 ∧ i.g.async = [] ∧ fullRing.ringOf i.t.ctx = true) = true := by
  decide +kernel

theorem fullRing_pend : fullRing.pend = [] := by decide +kernel

/-- The entry finds no room (R318), so that the group still drains after the step. -/
theorem fullRing_drains : (match exec (.trap plainTrap) fullRing with
    | .next t => (t.group? 4).all fun g => g.status = .draining
    | _ => true) = true := by
  decide +kernel

/-- Refutes O45, in its second clause: where the fault ring is full, the entry of the trap waits for room (R318), and the group goes
on draining instead of awaiting a response. -/
theorem not_trapsFaultsAndReturns : ¬ Obligations.TrapsFaultsAndReturns := by
  rintro ⟨-, hfault, -⟩
  obtain ⟨i, hi, hfound⟩ := (Option.any_eq_true _ _).1 fullRing_issues
  obtain ⟨hex, hid, htvec, hasync, hring⟩ := of_decide_eq_true hfound
  obtain ⟨t, hstep, -, g, hg, hstatus, -⟩ := hfault plainTrap fullRing i hi (by simp [hex]) (.inl htvec) hasync
    (by simp [fullRing_pend]) hring
  have hdrain := fullRing_drains
  rw [hstep] at hdrain
  simp [← hid, hg, hstatus] at hdrain

end Sys2Proof.Claims
end

section
/-! PROOFS. What an instruction that issues makes of the state, by the outcome of its body (R26, R36), and the instructions that
change a group's control state, regions or predicates alone (spec/04 R102 to R104, spec/08 R104). -/

namespace Sys2Proof.Machine

section outcomes
variable {s : State} {size : Nat} {gd : Guard} {u : Bool} {nx : Next} {i : Iss} {ctl : Ctl}
  {body : Iss → Except Stop Done}

/-- A completed body that leaves the control state alone: the group goes on where the instruction sends it. -/
theorem issue_done (h : Issues s size gd u nx i ctl) {s' : State} {g : Group} {region : Bool}
    (hb : body i = .ok { s := s', g := g, next := nx, region := region }) (hg : g.ctl = i.g.ctl) :
    issue s size gd u body = .next (s'.commit g ctl region) := by
  rw [issue_eq h.found h.lanes, hb, Iss.finish_ok (ctl := ctl) (by simpa only [hg] using h.flow)]

/-- An instruction that waits on the state it found leaves its group blocked. -/
theorem issue_wait (h : Issues s size gd u nx i ctl) (hb : body i = i.wait) :
    issue s size gd u body = .next (s.setGroup { i.g with wait := .blocked }) := by
  rw [issue_eq h.found h.lanes, hb, Iss.wait, Iss.finish_stall, h.state, issueOf_kept h.found]

/-- An instruction that finds a cause in the state it found, and would fall through. -/
theorem issue_cause (h : Issues s size gd u .fall i ctl) {code : BitVec 8} {lane : Nat}
    (hb : body i = i.cause code lane) :
    issue s size gd u body = .next (s.raise i.g i.c.debugStop { code := code, lane := lane } i.hmask) := by
  rw [issue_eq h.found h.lanes, hb, Iss.cause, Iss.finish_cause (.inr (.inr (by simp [h.flow]))), h.state,
    issueOf_kept h.found]

end outcomes

/-- Within their bounds operands pass that check. -/
theorem Iss.checkBounds_ok {i : Iss} {os : List Opnd} (h : os.all i.inBounds = true) : i.checkBounds os = .ok () := by
  simp only [Iss.checkBounds, Iss.check, h, if_true]

/-- A predicate written from each executing lane, as results that write it. -/
theorem Iss.foldl_setPreds (i : Iss) (pn : BitVec 3) (f : Nat → Bool) (ls : List Nat) (g : Group) :
    ls.foldl (fun g lane => g.setPreds pn (i.reach lane) (f lane)) g =
      (ls.map fun lane => (lane, ({ preds := [(pn, f lane)] } : LaneOut))).foldl
        (fun g o => o.2.preds.foldl (fun g p => g.setPreds p.1 (i.reach o.1) p.2) g) g := by
  simp [List.foldl_map]

theorem Iss.foldl_setPreds_same {β : Type} (i : Iss) (π : Group → β) (h : ∀ (g : Group) p, π { g with p := p } = π g)
    (pn : BitVec 3) (f : Nat → Bool) (ls : List Nat) (g : Group) :
    π (ls.foldl (fun g lane => g.setPreds pn (i.reach lane) (f lane)) g) = π g := by
  rw [Iss.foldl_setPreds, Iss.foldl_preds_same π h]

/-- Predicates written in each executing lane, and nothing else (R80, R104). -/
theorem Iss.leaves_setPreds {i : Iss} {gd : Guard} {u : Bool} (hex : i.ex = i.g.executing gd u) (hu : i.uni = u) (ctl : Ctl)
    (pn : BitVec 3) (f : Nat → Bool) :
    i.Leaves ctl [] [] (fun lane => { preds := [(pn, f lane)] })
      ((i.ex.foldl (fun g lane => g.setPreds pn (i.reach lane) (f lane)) i.g).goesOn ctl i.s.tick) := by
  have hsame {β : Type} (π : Group → β) (h : ∀ (g : Group) p, π { g with p := p } = π g) :=
    i.foldl_setPreds_same π h pn f i.ex i.g
  have hnd : i.ex.Nodup := hex ▸ nodup_executing ..
  refine ⟨?_, fun n l _ => ?_, fun n => ?_, fun n l => ?_, fun n l hl => ?_, fun l => ?_⟩
  · exact hsame (fun g => (g.goesOn ctl i.s.tick).rest) fun _ _ => rfl
  · simpa [delivered, Group.vCell, Group.goesOn] using hsame (fun g => g.vCell n.toNat l) fun _ _ => rfl
  · simpa [delivered, Group.sCell, Group.goesOn] using hsame (fun g => g.sCell n.toNat) fun _ _ => rfl
  · simpa [delivered, Queue.pops, Group.queue, Group.goesOn] using hsame (fun g => g.queue l n.toNat) fun _ _ => rfl
  · have hpred := Iss.foldl_preds (i := i) (fun lane => { preds := [(pn, f lane)] }) (n := n) hl i.ex i.g hnd
      fun a ha b hb => Iss.reach_unique hex hu ha hb
    rw [← Iss.foldl_setPreds] at hpred
    exact hpred
  · have hflags := hsame (fun g => look 0 g.fpst l) fun _ _ => rfl
    cases hsrc : i.source l <;> simpa [hsrc, Group.goesOn] using hflags

end Sys2Proof.Machine

namespace Sys2Proof.Claims

open Sys2Proof.Machine

theorem regionsAndHints : RegionsAndHints := by
  refine ⟨fun w s i ctl h => ⟨?_, fun hin => ?_, fun hout => ?_⟩, fun w s i ctl h => ?_⟩
  · rw [Goes, exec_yield, execYield, issue_done h rfl rfl, State.commit_plain, h.state]
  · rw [Goes, exec_region, execRegion, issue_done h rfl rfl, State.commit_region, Group.openRegion, if_pos (by exact hin),
      h.state]
  · rw [exec_region, execRegion, issue_done h rfl rfl, State.commit_region, Group.openRegion,
      if_neg (by simp [Group.goesOn, hout]), h.state]
    rfl
  · rw [Goes, exec_nop, execNop, issue_done h rfl rfl, State.commit_plain, h.state]

theorem waitOnFull : WaitOnFull := by
  intro w s i ctl h os full hbounds
  have hcheck : i.checkBounds [w.a.o, w.b.o, w.c.o] = .ok () := Iss.checkBounds_ok hbounds
  refine ⟨fun hpd hfull => ?_, fun hpd ⟨lane, hlane, hempty⟩ => ?_, fun p hpd => ?_⟩
  · have hall : i.ex.all full = true := List.all_eq_true.2 hfull
    rw [Goes, exec_waitf, execWaitf, issue_done h (s' := s) (g := i.g) (region := false) _ rfl, State.commit_plain]
    simp only [hcheck, hpd, bind, Except.bind, h.state]
    exact if_pos hall
  · have hsome : ¬ i.ex.all full = true := fun hall => by simp [List.all_eq_true.1 hall lane hlane] at hempty
    rw [exec_waitf, execWaitf, issue_wait h]
    simp only [hcheck, hpd, bind, Except.bind]
    exact if_neg hsome
  · refine ⟨_, ?_, Iss.leaves_setPreds h.ex h.uni ctl p.pn full⟩
    have hctl := i.foldl_setPreds_same (·.ctl) (fun _ _ => rfl) p.pn full i.ex i.g
    rw [exec_waitf, execWaitf, issue_done h (s' := i.s) (region := false) _ hctl, State.commit_plain, h.state]
    simp only [hcheck, hpd, bind, Except.bind]
    rfl

/-- Settles O50, instruction by instruction through what its body completes with. -/
theorem regionsHintsAndWaits : Obligations.RegionsHintsAndWaits := ⟨regionsAndHints, waitOnFull⟩

end Sys2Proof.Claims
end

section
/-! PROOFS. What a long-latency producer leaves of its group at issue (R14, R17, R150). -/

namespace Sys2Proof.Machine

/-! ### Emptying registers -/

section markEmpty
variable (g : Group) (lane : Nat) (o : Opnd)

theorem Group.markEmpty_vCell {n : BitVec 7} {l : Nat} (hl : l < 32) (hlane : lane < 32) :
    (g.markEmpty lane o).vCell n.toNat l = if lane = l ∧ o = .v n then { full := false } else g.vCell n.toNat l := by
  cases o with
  | v m =>
    simp only [Group.markEmpty, Group.setV, Group.vCell, look_keep, Opnd.v.injEq]
    by_cases h : lane = l ∧ m = n
    · obtain ⟨rfl, rfl⟩ := h; simp
    · have : ¬ n.toNat * 32 + l = m.toNat * 32 + lane := fun e => h ⟨by omega, BitVec.eq_of_toNat_eq (by omega)⟩
      simp [this, h]
  | s m => simp [Group.markEmpty, Group.setS, Group.vCell]
  | q m => simp [Group.markEmpty]
  | zr => simp [Group.markEmpty]

theorem Group.markEmpty_sCell {n : BitVec 6} :
    (g.markEmpty lane o).sCell n.toNat = if o = .s n then { full := false } else g.sCell n.toNat := by
  cases o with
  | s m =>
    simp only [Group.markEmpty, Group.setS, Group.sCell, look_keep, Opnd.s.injEq]
    by_cases h : m = n
    · subst h; simp
    · have : ¬ n.toNat = m.toNat := fun e => h (BitVec.eq_of_toNat_eq e.symm)
      simp [this, h]
  | v m => simp [Group.markEmpty, Group.setV, Group.sCell]
  | q m => simp [Group.markEmpty]
  | zr => simp [Group.markEmpty]

/-- Emptying a register touches no part of the group beside its registers. -/
theorem Group.markEmpty_same {β : Type} (π : Group → β) (hv : ∀ (g : Group) x, π { g with v := x } = π g)
    (hs : ∀ (g : Group) x, π { g with s := x } = π g) : π (g.markEmpty lane o) = π g := by
  cases o with
  | v n => exact hv ..
  | s n => exact hs ..
  | _ => rfl

end markEmpty

theorem Group.foldl_markEmpty_vCell {lane l : Nat} {n : BitVec 7} (hl : l < 32) (hlane : lane < 32) :
    ∀ (os : List Opnd) (g : Group), (os.foldl (fun (g : Group) o => g.markEmpty lane o) g).vCell n.toNat l =
      if lane = l ∧ .v n ∈ os then { full := false } else g.vCell n.toNat l
  | [], g => by simp
  | o :: os, g => by
    rw [List.foldl_cons, Group.foldl_markEmpty_vCell hl hlane os, Group.markEmpty_vCell _ _ _ hl hlane]
    by_cases hx : lane = l <;> by_cases ho : o = .v n <;> by_cases hm : Opnd.v n ∈ os <;> simp [hx, ho, hm, eq_comm]

theorem Group.foldl_markEmpty_sCell {lane : Nat} {n : BitVec 6} : ∀ (os : List Opnd) (g : Group),
    (os.foldl (fun (g : Group) o => g.markEmpty lane o) g).sCell n.toNat =
      if .s n ∈ os then { full := false } else g.sCell n.toNat
  | [], g => by simp
  | o :: os, g => by
    rw [List.foldl_cons, Group.foldl_markEmpty_sCell os, Group.markEmpty_sCell]
    by_cases ho : o = .s n <;> by_cases hm : Opnd.s n ∈ os <;> simp [ho, hm, eq_comm]

theorem Group.foldl_markEmpty_same {β : Type} (π : Group → β) (hv : ∀ (g : Group) x, π { g with v := x } = π g)
    (hs : ∀ (g : Group) x, π { g with s := x } = π g) (lane : Nat) : ∀ (os : List Opnd) (g : Group),
    π (os.foldl (fun (g : Group) o => g.markEmpty lane o) g) = π g
  | [], _ => rfl
  | o :: os, g => by
    rw [List.foldl_cons, Group.foldl_markEmpty_same π hv hs lane os, Group.markEmpty_same _ _ _ π hv hs]

theorem Group.foldl_empties_vCell {l : Nat} {n : BitVec 7} (hl : l < 32) (os : List Opnd) :
    ∀ (ls : List Nat) (g : Group), (∀ x ∈ ls, x < 32) →
    (ls.foldl (fun (g : Group) lane => os.foldl (fun (g : Group) o => g.markEmpty lane o) g) g).vCell n.toNat l =
      if l ∈ ls ∧ .v n ∈ os then { full := false } else g.vCell n.toNat l
  | [], g, _ => by simp
  | x :: ls, g, h => by
    rw [List.foldl_cons, Group.foldl_empties_vCell hl os ls _ fun y hy => h y (by simp [hy]),
      Group.foldl_markEmpty_vCell hl (h x (by simp))]
    by_cases hx : x = l
    · subst hx; by_cases hm : Opnd.v n ∈ os <;> simp [hm]
    · have : l ≠ x := fun e => hx e.symm
      simp [hx, this]

theorem Group.foldl_empties_same {β : Type} (π : Group → β) (os : List Opnd)
    (h : ∀ (g : Group) lane, π (os.foldl (fun (g : Group) o => g.markEmpty lane o) g) = π g) :
    ∀ (ls : List Nat) (g : Group),
    π (ls.foldl (fun (g : Group) lane => os.foldl (fun (g : Group) o => g.markEmpty lane o) g) g) = π g
  | [], _ => rfl
  | x :: ls, g => by rw [List.foldl_cons, Group.foldl_empties_same π os h ls, h]

/-! ### Reserving queue entries -/

/-- A queue with an entry reserved at its tail under a name (R150). -/
def Queue.reserve (q : Queue) (id : Nat) (stays : Bool) : Queue := { q with entries := q.entries ++ [.reserved id stays] }

/-- One change of a queue in each of several lanes. -/
theorem Group.foldl_setQueue_queue (f : Queue → Queue) (k n : BitVec 4) (l : Nat) : ∀ (ls : List Nat) (g : Group), ls.Nodup →
    (ls.foldl (fun (g : Group) lane => g.setQueue lane k.toNat (f (g.queue lane k.toNat))) g).queue l n.toNat =
      if l ∈ ls ∧ k = n then f (g.queue l n.toNat) else g.queue l n.toNat
  | [], g, _ => by simp
  | x :: ls, g, h => by
    rw [List.foldl_cons, Group.foldl_setQueue_queue f k n l ls _ (List.nodup_cons.1 h).2, Group.setQueue_queue]
    by_cases hx : x = l
    · subst hx
      by_cases hk : k = n
      · subst hk; simp [(List.nodup_cons.1 h).1]
      · simp [hk]
    · have : l ≠ x := fun e => hx e.symm
      simp [hx, this]

theorem Group.foldl_setQueue_same {β : Type} (π : Group → β) (h : ∀ (g : Group) x, π { g with q := x } = π g)
    (f : Group → Nat → Queue) (k : Nat) : ∀ (ls : List Nat) (g : Group),
    π (ls.foldl (fun (g : Group) lane => g.setQueue lane k (f g lane)) g) = π g
  | [], _ => rfl
  | x :: ls, g => by rw [List.foldl_cons, Group.foldl_setQueue_same π h f k ls]; exact h ..

/-! ### The destination of a producer -/

/-- A group without its registers and queues. -/
def Group.beside (g : Group) : Group := { g.rest with p := g.p, fpst := g.fpst }

theorem Group.pop_beside (g : Group) (lane : Nat) (o : Opnd) : (g.pop lane o).beside = g.beside := by
  simp only [Group.beside, Group.pop_rest, Group.pop_p, Group.pop_fpst]

section expect
variable (g : Group) (id n : Nat) (dst : Opnd) (ls : List Nat) (ldq : Bool)

theorem Group.expect_same {β : Type} (π : Group → β) (hv : ∀ (g : Group) x, π { g with v := x } = π g)
    (hs : ∀ (g : Group) x, π { g with s := x } = π g) (hq : ∀ (g : Group) x, π { g with q := x } = π g) :
    π (g.expect id n dst ls ldq) = π g := by
  cases dst with
  | q k => exact Group.foldl_setQueue_same π hq _ _ ls g
  | s k => exact Group.foldl_markEmpty_same π hv hs _ _ g
  | _ => exact Group.foldl_empties_same π _ (fun g lane => Group.foldl_markEmpty_same π hv hs lane _ g) ls g

theorem Group.expect_vCell {m : BitVec 7} {l : Nat} (hl : l < 32) (h : ∀ x ∈ ls, x < 32) :
    (g.expect id n dst ls ldq).vCell m.toNat l =
      if l ∈ ls ∧ .v m ∈ dst.range n then { full := false } else g.vCell m.toNat l := by
  cases dst with
  | q k =>
    rw [if_neg (by simp [Opnd.range])]
    exact Group.foldl_setQueue_same (fun g : Group => g.vCell m.toNat l) (fun _ _ => rfl) _ _ ls g
  | s k =>
    have hno : Opnd.v m ∉ (Opnd.s k).range n := by simp [Opnd.range]
    rw [if_neg fun hm => hno hm.2]
    simp only [Group.expect]
    rw [Group.foldl_markEmpty_vCell hl (by omega), if_neg fun hm => hno hm.2]
  | _ => exact Group.foldl_empties_vCell hl _ ls g h

theorem Group.expect_sCell {m : BitVec 6} :
    (g.expect id n dst ls ldq).sCell m.toNat = if .s m ∈ dst.range n then { full := false } else g.sCell m.toNat := by
  cases dst with
  | q k =>
    rw [if_neg (by simp [Opnd.range])]
    exact Group.foldl_setQueue_same (fun g : Group => g.sCell m.toNat) (fun _ _ => rfl) _ _ ls g
  | s k => exact Group.foldl_markEmpty_sCell _ g
  | v k =>
    have hno : Opnd.s m ∉ (Opnd.v k).range n := by simp [Opnd.range]
    rw [if_neg hno]
    exact Group.foldl_empties_same (fun g : Group => g.sCell m.toNat) _
      (fun g lane => by rw [Group.foldl_markEmpty_sCell, if_neg hno]) ls g
  | zr =>
    have hno : Opnd.s m ∉ Opnd.zr.range n := by simp [Opnd.range]
    rw [if_neg hno]
    exact Group.foldl_empties_same (fun g : Group => g.sCell m.toNat) _
      (fun g lane => by rw [Group.foldl_markEmpty_sCell, if_neg hno]) ls g

theorem Group.expect_queue {m : BitVec 4} {l : Nat} (h : ls.Nodup) :
    (g.expect id n dst ls ldq).queue l m.toNat =
      if l ∈ ls ∧ dst = .q m then (g.queue l m.toNat).reserve id (!ldq) else g.queue l m.toNat := by
  have hregs (ls : List Nat) (os : List Opnd) :=
    Group.foldl_empties_same (fun g : Group => g.queue l m.toNat) os
      (fun g lane => Group.foldl_markEmpty_same (fun g : Group => g.queue l m.toNat) (fun _ _ => rfl) (fun _ _ => rfl) lane os g)
      ls g
  cases dst with
  | q k =>
    simpa [Group.expect, Queue.reserve] using Group.foldl_setQueue_queue (·.reserve id (!ldq)) k m l ls g h
  | s k =>
    rw [if_neg (by simp)]
    exact Group.foldl_markEmpty_same (fun g : Group => g.queue l m.toNat) (fun _ _ => rfl) (fun _ _ => rfl) 0 _ g
  | v k => rw [if_neg (by simp)]; exact hregs ls _
  | zr => rw [if_neg (by simp)]; exact hregs ls _

end expect

/-- Sources read and a destination awaited, and nothing else. -/
theorem Iss.awaits_expect {i : Iss} {gd : Guard} {u : Bool} (hex : i.ex = i.g.executing gd u) (ctl : Ctl)
    (srcs : List Opnd) (id n : Nat) (dst : Opnd) (ldq : Bool) :
    i.Awaits ctl srcs id n dst (!ldq) (((i.g.gather srcs i.ex).2.expect id n dst i.ex ldq).goesOn ctl i.s.tick) := by
  have hnd : i.ex.Nodup := hex ▸ nodup_executing ..
  have hlt : ∀ x ∈ i.ex, x < 32 := fun x hx => executing_lt (hex ▸ hx)
  refine ⟨?_, fun m l hl => ?_, fun m => ?_, fun m l => ?_⟩
  · have hkept : Group.beside ((i.g.gather srcs i.ex).2.expect id n dst i.ex ldq) = i.g.beside :=
      (Group.expect_same _ id n dst i.ex ldq _ (fun _ _ => rfl) (fun _ _ => rfl) fun _ _ => rfl).trans
        (Group.gather_same _ Group.pop_beside srcs i.ex i.g)
    exact congrArg (fun g => g.goesOn ctl i.s.tick) hkept
  · show (Group.expect _ id n dst i.ex ldq).vCell m.toNat l = _
    rw [Group.expect_vCell _ _ _ _ _ _ hl hlt, Group.gather_same (fun g : Group => g.vCell m.toNat l) (by simp [Group.vCell])]
  · show (Group.expect _ id n dst i.ex ldq).sCell m.toNat = _
    rw [Group.expect_sCell, Group.gather_same (fun g : Group => g.sCell m.toNat) (by simp [Group.sCell])]
  · show (Group.expect _ id n dst i.ex ldq).queue l m.toNat = _
    rw [Group.expect_queue _ _ _ _ _ _ hnd, Group.gather_queue _ _ _ _ _ hnd]
    by_cases hm : l ∈ i.ex <;> by_cases hd : dst = .q m <;> simp [hm, hd, Queue.reserve]

/-- What a producer awaits does not depend on sources that are no queues. -/
theorem Iss.Awaits.of_registers {i : Iss} {ctl : Ctl} {srcs : List Opnd} {id n : Nat} {dst : Opnd} {stays : Bool} {g : Group}
    (h : i.Awaits ctl srcs id n dst stays g) (hq : ∀ o ∈ srcs, o.isQueue = false) : i.Awaits ctl [] id n dst stays g where
  rest := h.rest
  vreg := h.vreg
  sreg := h.sreg
  queue m l := by
    have hcount : srcs.count (.q m) = 0 := List.count_eq_zero.2 fun hm => by simpa [Opnd.isQueue] using hq _ hm
    simpa [hcount] using h.queue m l

/-- A producer whose body completes from the state `s0` that its checks leave: it is pending, and its group awaits it. -/
theorem starts_of_body {ins : Instr} {s s0 : State} {size : Nat} {gd : Guard} {u : Bool} {i : Iss} {ctl : Ctl}
    (h : Issues s size gd u .fall i ctl) {body : Iss → Except Stop Done} (he : exec ins s = issue s size gd u body)
    {srcs : List Opnd} {p : Pending} (ldq : Bool) (hk : (p.kind != .ldq) = !ldq) (ht : s0.tick = s.tick)
    (hb : body i = .ok
      { s := { s0 with nextId := s0.nextId + 1, pend := s0.pend ++ [p] }
        g := (i.g.gather srcs i.ex).2.expect p.id ((p.bytes + 3) / 4) p.dst i.ex ldq }) :
    Starts ins s s0 i ctl srcs p := by
  refine ⟨_, ?_, hk ▸ Iss.awaits_expect h.ex ctl srcs p.id ((p.bytes + 3) / 4) p.dst ldq⟩
  have hctl : ((i.g.gather srcs i.ex).2.expect p.id ((p.bytes + 3) / 4) p.dst i.ex ldq).ctl = i.g.ctl :=
    (Group.expect_same _ _ _ _ _ _ (·.ctl) (fun _ _ => rfl) (fun _ _ => rfl) (fun _ _ => rfl)).trans
      (Group.gather_same (·.ctl) (fun g l o => congrArg (·.ctl) (Group.pop_rest g l o)) _ _ _)
  rw [he, issue_done h (region := false) hb hctl, State.commit_plain, h.state]
  simp only [ht]

end Sys2Proof.Machine
end

section
/-! PROOFS. TGET, TSET and the issue of CRND (spec/01 R14, spec/05 R129, R134). -/

namespace Sys2Proof.Claims

open Sys2Proof.Machine

/-- A datum with tangent `n` replaced, field by field. -/
theorem setTan_eq (d : Datum) (n : BitVec 4) (x : W32) :
    d.setTan n.toNat x = { val := d.val, t0 := if n = 0 then x else d.t0, t1 := if n = 1 then x else d.t1
                           t2 := if n = 2 then x else d.t2, t3 := if n = 3 then x else d.t3 } := by
  have hn (k : Nat) (hk : k < 16) : (k = n.toNat) = (n = BitVec.ofNat 4 k) := by
    rw [← BitVec.toNat_inj, BitVec.toNat_ofNat, Nat.mod_eq_of_lt hk]; exact propext eq_comm
  simp [Datum.setTan, withTans, Datum.tan, hn]

theorem tangentAccess : TangentAccess := by
  refine fun w _ => ⟨?_, ?_⟩
  · exact does_apply (f := fun _ _ ds => one (modify w.a.sel ((ds.headD {}).tan w.fn.toNat))) (fun _ => rfl) (fun _ => rfl)
      fun i l => by cases i.g.reads _ l <;> rfl
  · exact does_apply (f := fun _ _ ds => { out := [(ds.getD 1 {}).setTan w.fn.toNat (modify w.a.sel (ds.getD 0 {}).val)] })
      (fun _ => rfl) (fun _ => rfl) fun i l => by rw [setTan_eq]; rfl

/-- What a lane reads from two operands that are no queues. -/
theorem reads_pair (g : Group) (lane : Nat) {a b : Opnd} (ha : a.isQueue = false) :
    g.reads [a, b] lane = [g.datum lane a, g.datum lane b] := by
  cases a with
  | q n => simp [Opnd.isQueue] at ha
  | _ => rfl

theorem randomBitsIssue : RandomBitsIssue := by
  intro w s i ctl h hready hd ha hb hash
  have hnd : i.ex.Nodup := h.ex ▸ nodup_executing ..
  obtain ⟨g, hstep, hawaits⟩ := starts_of_body h (exec_crnd s w) (s0 := s) (srcs := [w.a.o, w.b.o])
    (p := { id := s.nextId, gid := i.g.id, pc := i.g.pc32, region := i.g.regionCnt, kind := .crnd, dst := w.d, uni := w.u
            bytes := 4, lanes := i.ex
            data := i.ex.map fun lane => (lane, [plain (crndHash (modify w.a.sel (i.g.datum lane w.a.o).val)
              (modify w.b.sel (i.g.datum lane w.b.o).val))]) }) false rfl rfl (by
      simp only [hready, bind, Except.bind, if_neg hd, Group.gather_fst _ _ _ hnd, List.map_map, Function.comp_def,
        reads_pair _ _ ha, words, h.state]
      rfl)
  exact ⟨g, hstep, hawaits.of_registers (by simp [ha, hb])⟩

/-- Settles O43: both tangent instructions have the general form, and CRND is a producer whose data is hashed at issue. -/
theorem tangentsAndRandomBits : Obligations.TangentsAndRandomBits := ⟨tangentAccess, randomBitsIssue⟩

end Sys2Proof.Claims
end

section
/-! PROOFS. MFS and MTS (spec/01 Table 1.3, spec/04 R105 to R107). -/

namespace Sys2Proof.Machine

@[simp] theorem Group.gather_nil (g : Group) : ∀ ls : List Nat, (g.gather [] ls).2 = g
  | [] => rfl
  | _ :: ls => Group.gather_nil g ls

/-- Reading an operand that is no queue pops nothing. -/
theorem Group.pop_of_register (g : Group) (lane : Nat) {o : Opnd} (h : o.isQueue = false) : g.pop lane o = g := by
  cases o with
  | q n => simp [Opnd.isQueue] at h
  | _ => rfl

theorem Group.gather_register {o : Opnd} (h : o.isQueue = false) (g : Group) :
    ∀ ls : List Nat, g.gather [o] ls = (ls.map fun lane => (lane, [g.datum lane o]), g)
  | [] => rfl
  | lane :: ls => by
    simp only [Group.gather, Group.takeAll, Group.pop_of_register _ _ h, Group.gather_register h g ls, List.map_cons]

/-- One source that passes the checks of R36 is in bounds and full in each executing lane. -/
theorem Iss.readable_of_ready {i : Iss} {f : Field} (h : i.ready [f] [] = .ok ()) :
    i.inBounds f.o = true ∧ ∀ lane ∈ i.ex, i.g.isFull lane 0 f.o = true := by
  simp only [Iss.ready, bind, Except.bind] at h
  split at h
  · cases h
  · rename_i hb
    split at h
    · cases h
    · rename_i hs
      constructor
      · by_contra hno
        simp [Iss.checkBounds, Iss.check, hno, Iss.cause] at hb
      · intro lane hlane
        by_contra hno
        have hsome : (i.ex.find? fun lane => !i.g.isFull lane 0 f.o).isSome :=
          List.find?_isSome.2 ⟨lane, hlane, by simpa using hno⟩
        obtain ⟨x, hx⟩ := Option.isSome_iff_exists.1 hsome
        simp only [Iss.checkSrcs, List.filter_nil, List.length_nil, hx] at hs
        split_ifs at hs <;> simp [Iss.cause, Iss.wait] at hs

end Sys2Proof.Machine

namespace Sys2Proof.Claims

open Sys2Proof.Machine

theorem specialReads : SpecialReads := by
  refine fun w => ⟨fun hloc => ?_, fun hrem hd s i ctl h hready => ?_⟩
  · refine does_apply (f := fun i lane _ => one (i.special w.imm.toNat lane)) (fun s => exec_mfs s w)
      (fun i => if_neg (by simp [hloc])) fun i lane => ?_
    refine congrArg one ?_
    split <;> simp only [Iss.special, *]
    split <;> rfl
  · refine starts_of_body h (exec_mfs s w) false rfl rfl ?_
    simp only [hrem, hready, bind, Except.bind, if_neg hd, if_true, Group.gather_nil, h.state]
    rfl

/-- Writes of FPST lane by lane, as one write of the group's flags. -/
theorem foldl_fpst (f : Nat → BitVec 5) : ∀ (ls : List Nat) (g : Group),
    ls.foldl (fun (g : Group) l => { g with fpst := keep 0 g.fpst l (f l) }) g =
      { g with fpst := ls.foldl (fun m l => keep 0 m l (f l)) g.fpst }
  | [], _ => rfl
  | l :: ls, g => by rw [List.foldl_cons, foldl_fpst f ls]; rfl

theorem foldl_fpte (f : Nat → BitVec 5) : ∀ (ls : List Nat) (g : Group),
    ls.foldl (fun (g : Group) l => { g with fpte := keep 0 g.fpte l (f l) }) g =
      { g with fpte := ls.foldl (fun m l => keep 0 m l (f l)) g.fpte }
  | [], _ => rfl
  | l :: ls, g => by rw [List.foldl_cons, foldl_fpte f ls]; rfl

/-- The body of MTS of a register `sr` with the word `x` in each lane, once its source has been read. -/
def mtsBody (i : Iss) (sr : Nat) (x : Nat → W32) : Except Stop Done := do
  i.check (i.c.priv || sr ≠ 0x102 || !specialOk sr (x (i.ex.headD 0))) 0x02
  if sr = 0x080 then .ok { s := i.s, g := { i.g with fpst := i.ex.foldl (fun m l => keep 0 m l ((x l).extractLsb' 0 5)) i.g.fpst } }
  else if sr = 0x081 then
    .ok { s := i.s, g := { i.g with fpte := i.ex.foldl (fun m l => keep 0 m l ((x l).extractLsb' 0 5)) i.g.fpte } }
  else
    i.check (specialOk sr (x (i.ex.headD 0))) 0x01
    .ok { s := (writeSpecial sr (x (i.ex.headD 0)) i.t i.s i.g).1, g := (writeSpecial sr (x (i.ex.headD 0)) i.t i.s i.g).2 }

/-- MTS whose source passes the checks of R36 and is no queue. -/
theorem exec_mts_of_ready {w : FmtB} {s : State} {i : Iss} {ctl : Ctl} (h : Issues s 8 w.g w.u .fall i ctl)
    (hready : i.ready [⟨w.a, w.fa⟩] [] = .ok ()) (hq : w.a.isQueue = false) :
    exec (.mts w) s = i.finish (mtsBody i w.imm.toNat fun lane => (i.g.datum lane w.a).val) := by
  obtain ⟨hbounds, hfull⟩ := Iss.readable_of_ready hready
  have hreadable : (i.inBounds w.a && i.ex.all fun lane => i.g.isFull lane 0 w.a) = true := by
    simpa [hbounds] using hfull
  have hhead : ∀ f : Nat → W32, ((i.ex.map f).head?).getD 0 = f (i.ex.headD 0) := fun f => by
    obtain ⟨lane, ls, hex⟩ := List.exists_cons_of_ne_nil h.lanes
    simp [hex]
  rw [exec_mts, execMts, issue_eq h.found h.lanes]
  refine congrArg i.finish ?_
  simp only [mtsBody, hready, hreadable, Group.gather_register hq, List.map_map, Function.comp_def, List.headD_cons,
    List.foldl_map, foldl_fpst, foldl_fpte, Bool.true_and, List.head?_map, Option.map_map]
  simp only [← List.head?_map, hhead]
  rfl

/-- The write of a register that the group holds. -/
theorem mtsBody_group (i : Iss) {sr : Nat} (x : Nat → W32) (h : sr ∈ [0x040, 0x041, 0x044, 0x080, 0x081, 0x0D0, 0x141]) :
    mtsBody i sr x = .ok { s := i.s, g := written i.g i.ex x sr } := by
  have hpriv : (i.c.priv || decide (sr ≠ 0x102) || !specialOk sr (x (i.ex.headD 0))) = true := by
    simp only [List.mem_cons, List.not_mem_nil, or_false] at h
    have : sr ≠ 0x102 := by omega
    simp [this]
  simp only [mtsBody, hpriv, Iss.check, if_true]
  simp only [List.mem_cons, List.not_mem_nil, or_false] at h
  rcases h with rfl | rfl | rfl | rfl | rfl | rfl | rfl <;> rfl

/-- The write of MQRATIO or BRWIN, once the word is within the register's limits and the context may write it. -/
theorem mtsBody_shared (i : Iss) {sr : Nat} (x : Nat → W32) (h : sr = 0x101 ∨ sr = 0x102)
    (hok : specialOk sr (x (i.ex.headD 0)) = true) (hpriv : sr = 0x102 → i.c.priv = true) :
    mtsBody i sr x =
      .ok { s := (writeSpecial sr (x (i.ex.headD 0)) i.t i.s i.g).1, g := (writeSpecial sr (x (i.ex.headD 0)) i.t i.s i.g).2 } := by
  have hcheck : (i.c.priv || decide (sr ≠ 0x102) || !specialOk sr (x (i.ex.headD 0))) = true := by
    rcases h with rfl | rfl
    · simp
    · simp [hpriv rfl]
  have hflags : sr ≠ 0x080 ∧ sr ≠ 0x081 := by omega
  rw [hok] at hcheck
  simp only [mtsBody, hcheck, hok, Iss.check, if_true, hflags, if_false, bind, Except.bind]

/-- A word out of the register's limits is ILLOP, whatever the privilege (log 16). -/
theorem mtsBody_illop (i : Iss) {sr : Nat} (x : Nat → W32) (h : sr = 0x101 ∨ sr = 0x102)
    (hok : specialOk sr (x (i.ex.headD 0)) = false) : mtsBody i sr x = i.cause 0x01 := by
  have hflags : sr ≠ 0x080 ∧ sr ≠ 0x081 := by omega
  simp only [mtsBody, hok, Bool.not_false, Bool.or_true, Iss.check, if_true, hflags, if_false, bind, Except.bind,
    Bool.false_eq_true, Iss.cause]

/-- BRWIN is PRIV at user level. -/
theorem mtsBody_priv (i : Iss) (x : Nat → W32) (hok : specialOk 0x102 (x (i.ex.headD 0)) = true) (hpriv : i.c.priv = false) :
    mtsBody i 0x102 x = i.cause 0x02 := by
  simp only [mtsBody, hok, hpriv, ne_eq, not_true_eq_false, decide_false, Bool.not_true, Bool.or_self, Bool.false_eq_true,
    Iss.check, if_false, Iss.cause, bind, Except.bind]

theorem written_ctl (g : Group) (ls : List Nat) (x : Nat → W32) (sr : Nat) : (written g ls x sr).ctl = g.ctl := by
  unfold written
  split <;> rfl

theorem specialWrites : SpecialWrites := by
  intro w s i ctl h hready hq sr x v key
  have hexec : exec (.mts w) s = i.finish (mtsBody i sr x) := exec_mts_of_ready h hready hq
  have hdone {s' : State} {g : Group} (hbody : mtsBody i sr x = .ok { s := s', g := g }) (hg : g.ctl = i.g.ctl)
      (ht : s'.tick = s.tick) : exec (.mts w) s = .next (s'.setGroup (g.goesOn ctl s.tick)).wake := by
    rw [hexec, hbody, Iss.finish_ok (ctl := ctl) (by simpa only [hg] using h.flow), State.commit_plain, ht]
  have htraps {code : BitVec 8} (hbody : mtsBody i sr x = i.cause code) : Traps (.mts w) s i code := by
    rw [Traps, hexec, hbody, Iss.cause, Iss.finish_cause (.inr (.inr (by simp [h.flow]))), h.state, issueOf_kept h.found]
  have hmq : sr = 0x101 → specialOk sr v = decide (1 ≤ v.toNat % 32 ∧ v.toNat % 32 ≤ 16) := by rintro h; rw [h]; rfl
  have hbr : sr = 0x102 → specialOk sr v = decide (v.toNat % 512 ≤ 256) := by rintro h; rw [h]; rfl
  have hstate := h.state
  refine ⟨fun hsr => ?_, fun hsr hv => ?_, fun hsr hv => ?_, fun hsr hv hp => ?_, fun hsr hv hp => ?_, fun hsr hv => ?_⟩
  · exact hdone ((mtsBody_group i x hsr).trans (by rw [hstate])) (written_ctl ..) rfl
  · refine hdone ((mtsBody_shared i x (.inl hsr) ((hmq hsr).trans (decide_eq_true hv)) (by simp [hsr])).trans ?_) rfl rfl
    rw [hsr, hstate]; rfl
  · exact htraps (mtsBody_illop i x (.inl hsr) ((hmq hsr).trans (decide_eq_false hv)))
  · refine hdone ((mtsBody_shared i x (.inr hsr) ((hbr hsr).trans (decide_eq_true hv)) fun _ => hp).trans ?_) rfl rfl
    rw [hsr, hstate]; rfl
  · refine htraps ?_
    have hok : specialOk 0x102 v = true := hsr ▸ (hbr hsr).trans (decide_eq_true hv)
    rw [hsr]; exact mtsBody_priv i x hok hp
  · exact htraps (mtsBody_illop i x (.inr hsr) ((hbr hsr).trans (decide_eq_false (by omega))))

/-- Settles O51: MFS has the general form or is a producer, and MTS is its body after the checks, register by register. -/
theorem specialRegisters : Obligations.SpecialRegisters := ⟨specialReads, specialWrites⟩

end Sys2Proof.Claims
end

section
/-! PROOFS. Null atomics without order, prefetches and QCFG (spec/06 R145, R151, R152). -/

namespace Sys2Proof.Machine

/-- The fields of a base pair are its registers, read without a trap (R137). -/
theorem baseFields_eq (a : Opnd) : baseFields a = (Claims.basePair a).map fun o => ⟨o, false⟩ := by
  unfold baseFields Claims.basePair
  split <;> rfl

/-- In a rising list, the least element with a property is the first. -/
theorem find?_eq_some_of_least {p : Nat → Bool} {a : Nat} {ls : List Nat} (hs : ls.Pairwise (· < ·)) (ha : a ∈ ls)
    (hp : p a = true) (hmin : ∀ b ∈ ls, p b = true → a ≤ b) : ls.find? p = some a := by
  obtain ⟨pre, post, rfl⟩ := List.append_of_mem ha
  refine List.find?_eq_some_iff_append.2 ⟨hp, pre, post, rfl, fun b hb => ?_⟩
  have hlt : b < a := (List.pairwise_append.1 hs).2.2 b hb a (by simp)
  by_contra hno
  have := hmin b (by simp [hb]) (by simpa using hno)
  omega

/-- The executing lanes rise. -/
theorem executing_pairwise (g : Group) (gd : Guard) (u : Bool) : (g.executing gd u).Pairwise (· < ·) :=
  (List.pairwise_lt_range.sublist (List.filter_sublist (p := fun l => g.ctl.mask.getLsbD l))).sublist executing_sub

theorem Iss.va_lt (i : Iss) (a : Opnd) (ofs : Int) (lane : Nat) : i.va a ofs lane < 2 ^ 64 := by
  unfold Iss.va
  omega

/-- Prefetched lines enter the instruction cache, each once; choices are used up, and nothing else changes (log 13). -/
theorem prefetchLines_eq : ∀ (xs : List (Nat × Nat)) (s : State), ∃ lines k,
    s.prefetchLines xs = { s with icache := s.icache ++ lines, free := s.free + k } ∧
      ∀ x ∈ lines, x ∉ s.icache ∧ x ∈ xs
  | [], s => ⟨[], 0, by simp [State.prefetchLines], by simp⟩
  | x :: xs, s => by
    rw [State.prefetchLines]
    by_cases hx : (Config.freeBit s.free && !s.icache.contains x) = true
    · rw [if_pos hx]
      obtain ⟨lines, k, heq, hmem⟩ := prefetchLines_eq xs { s with free := s.free + 1, icache := s.icache ++ [x] }
      have hnew : x ∉ s.icache := by simpa using (Bool.and_eq_true_iff.1 hx).2
      refine ⟨x :: lines, 1 + k, by rw [heq, List.append_assoc, Nat.add_assoc]; rfl, fun y hy => ?_⟩
      rcases List.mem_cons.1 hy with rfl | hy
      · exact ⟨hnew, by simp⟩
      · obtain ⟨hout, hin⟩ := hmem y hy
        exact ⟨fun hy => hout (List.mem_append_left _ hy), List.mem_cons_of_mem _ hin⟩
    · rw [if_neg hx]
      obtain ⟨lines, k, heq, hmem⟩ := prefetchLines_eq xs { s with free := s.free + 1 }
      exact ⟨lines, 1 + k, by rw [heq, Nat.add_assoc], fun y hy => ⟨(hmem y hy).1, List.mem_cons_of_mem _ (hmem y hy).2⟩⟩

/-- Groups that differ in their queues at most. -/
theorem Group.eq_with_queues {g h : Group} (heq : { g with q := [] } = { h with q := [] }) : g = { h with q := g.q } :=
  congrArg (fun x : Group => { x with q := g.q }) heq

/-- The depths of the other queues of a lane, as a sum over all queues. -/
theorem Group.otherDepths_eq (g : Group) (lane n : Nat) :
    g.otherDepths lane n = ((List.range 16).map fun k => if k = n then 0 else (g.queue lane k).depth).sum := by
  unfold Group.otherDepths
  generalize List.range 16 = ks
  have hfold : ∀ (ks : List Nat) (x : Nat), (ks.filter (· ≠ n)).foldl (fun x k => x + (g.queue lane k).depth) x =
      x + (ks.map fun k => if k = n then 0 else (g.queue lane k).depth).sum := by
    intro ks
    induction ks with
    | nil => simp
    | cons k ks ih =>
      intro x
      rw [List.filter_cons, List.map_cons, List.sum_cons]
      by_cases hk : k = n
      · rw [if_neg (by simp [hk]), if_pos hk, ih, Nat.zero_add]
      · rw [if_pos (by simp [hk]), if_neg hk, List.foldl_cons, ih, Nat.add_assoc]
  simpa using hfold ks 0

end Sys2Proof.Machine

namespace Sys2Proof.Claims

open Sys2Proof.Machine

/-- The address of a primal access is the effective address (R137, R149). -/
theorem flatAddr_zero (i : Iss) (a : Opnd) (ofs : Int) (lane : Nat) : flatAddr i a ofs lane 0 = i.va a ofs lane := by
  rw [flatAddr, Nat.zero_mul, Nat.add_zero, Nat.mod_eq_of_lt (i.va_lt a ofs lane)]

theorem nullAtomicsAndPrefetches : NullAtomicsAndPrefetches := by
  refine ⟨fun p w s i ctl h hd hb hfn ⟨hready, hheld⟩ hord => ?_, fun w s i ctl h hready => ⟨?_, ?_⟩⟩
  · rw [exec_atom, execAtom, issue_done h (s' := i.s) (g := i.g) (region := true) _ rfl, State.commit_region, h.state]
    have hfence : isAcq w.ord = false ∧ isRel w.ord = false := by simp [isAcq, isRel, hord]
    rw [if_pos ⟨hd, hb, hfn⟩]
    simp only [Iss.nullAtomic, baseFields_eq] at hready ⊢
    simp only [hready, Iss.gate, hheld, hfence, bind, Except.bind, Bool.false_eq_true, if_false, Bool.and_self]
  · rw [Goes, exec_pfd, execPfd, issue_done h (s' := i.s) (g := i.g) (region := false) _ rfl, State.commit_plain, h.state]
    simp only [baseFields_eq, hready, bind, Except.bind]
  · obtain ⟨lines, k, heq, hmem⟩ := prefetchLines_eq
      (((i.ex.map fun lane => i.va w.a w.ofs.toInt lane).filter i.codeAt).map fun va => (i.t.cluster, va / 128)) s
    refine ⟨lines, k, ?_, fun x hx => ⟨(hmem x hx).1, ?_⟩⟩
    · rw [exec_pfi, execPfi, issue_done h (g := i.g) (region := false) _ rfl, State.commit_plain]
      simp only [baseFields_eq, hready, bind, Except.bind, h.state]
      rw [heq]
    · have hline := (hmem x hx).2
      simp only [List.mem_map, List.mem_filter] at hline
      obtain ⟨va, ⟨⟨lane, hlane, rfl⟩, -⟩, rfl⟩ := hline
      exact ⟨lane, hlane, by rw [flatAddr_zero]⟩

theorem queueConfiguration : QueueConfiguration := by
  intro w s i ctl n h hd total hlanded
  have htotal (lane : Nat) : i.g.otherDepths lane n.toNat + w.imm.toNat = total lane := by
    rw [Group.otherDepths_eq, Nat.add_comm]
  refine ⟨fun lane hlane hdeep hfirst => ?_, fun hfits => ?_⟩
  · have hfind : i.ex.find? (fun lane => decide (i.l.queueTotal < i.g.otherDepths lane n.toNat + w.imm.toNat)) = some lane := by
      simp only [htotal]
      exact find?_eq_some_of_least (h.ex ▸ executing_pairwise ..) hlane (decide_eq_true hdeep)
        fun l hl hdeep => hfirst l hl (of_decide_eq_true hdeep)
    rw [exec_qcfg, execQcfg, issue_cause h]
    simp only [hd, hfind, Iss.check, Iss.cause, bind, Except.bind, Option.isNone_some, Bool.false_eq_true, if_false,
      Option.getD_some]
  · have hnone : i.ex.find? (fun lane => decide (i.l.queueTotal < i.g.otherDepths lane n.toNat + w.imm.toNat)) = none := by
      simpa [htotal] using hfits
    have hclosed : (i.ex.any fun lane => (i.g.queue lane n.toNat).entries.any fun e => e.landed?.isNone) = false := by
      simp only [List.any_eq_false, Bool.not_eq_true]
      intro lane hlane e he
      obtain ⟨d, rfl⟩ := hlanded lane hlane e he
      rfl
    have hsame {β : Type} (π : Group → β) (hπ : ∀ (g : Group) x, π { g with q := x } = π g) :=
      Group.foldl_setQueue_same π hπ (fun g lane => { g.queue lane n.toNat with depth := w.imm.toNat, entries := [] }) n.toNat i.ex
        i.g
    refine ⟨i.ex.foldl (fun g lane =>
      g.setQueue lane n.toNat { g.queue lane n.toNat with depth := w.imm.toNat, entries := [] }) i.g, ?_, ?_, fun m lane => ?_⟩
    · rw [exec_qcfg, execQcfg, issue_done h (s' := s) (region := false) _ (hsame (·.ctl) fun _ _ => rfl), State.commit_plain]
      simp only [hd, hnone, hclosed, Iss.check, bind, Except.bind, Option.isNone_none, if_true, Bool.false_eq_true, if_false,
        h.state]
    · exact Group.eq_with_queues (hsame (fun g => { g with q := [] }) fun _ _ => rfl)
    · have hqueue := Group.foldl_setQueue_queue (fun q => { q with depth := w.imm.toNat, entries := [] }) n m lane i.ex i.g
        (h.ex ▸ nodup_executing ..)
      simpa only [and_comm, eq_comm] using hqueue

/-- Settles O53: each instruction has no effect but the one that its body names, once its checks pass. -/
theorem nullAtomicsPrefetchesAndQueues : Obligations.NullAtomicsPrefetchesAndQueues :=
  ⟨nullAtomicsAndPrefetches, queueConfiguration⟩

end Sys2Proof.Claims
end

section
/-! PROOFS. BARI, BARX and BARA (spec/09 R193 to R196). -/

namespace Sys2Proof.Machine

section check
variable (i : Iss) {ok : Bool} (code : BitVec 8) (lane : Nat)

theorem Iss.check_of_true (h : ok = true) : i.check ok code lane = .ok () := by rw [Iss.check, if_pos h]

theorem Iss.check_of_false (h : ok = false) : i.check ok code lane = .error (.cause i.s { code := code, lane := lane }) := by
  rw [Iss.check, if_neg (by simp [h]), Iss.cause]

end check

end Sys2Proof.Machine

namespace Sys2Proof.Claims

open Sys2Proof.Machine

/-- An instruction that names a barrier finds it. -/
theorem Names.barrier {i : Iss} {a : Opnd} {fa : Bool} {imm : W32} {more : List Opnd} {t : Team} {n : Nat}
    (h : Names i a fa imm more t n) : i.barrier a fa imm more = .ok (t, n) := by
  have hn : bitsOf imm.toNat 0 10 = n := h.number.symm
  have hdeclared : decide (n < i.l.barriers) = true := decide_eq_true h.declared
  simp only [Iss.barrier, h.ready, hn, hdeclared, h.team, Iss.check, bind, Except.bind, if_true]

theorem barrierInitAndExpect : BarrierInitAndExpect := by
  intro w s i ctl t n h hnames old ok
  have hbar := hnames.barrier
  have hok {x : Int} (hx : ok x) : pendOk x = true := decide_eq_true hx
  have hover {x : Int} (hx : ¬ ok x) : pendOk x = false := decide_eq_false hx
  refine ⟨fun hx => ?_, fun hx => ?_, fun hx => ?_, fun hx => ?_⟩
  · rw [SetsBarrier, exec_bari, execBari, issue_done h (s' := s.setBar t.id n
      { old with count := w.imm.toNat / 2 ^ 16, arr := 0, pend := pairInt i w.d, brk := false }) (g := i.g) (region := true) _ rfl,
      State.commit_region]
    · rfl
    · simp only [hbar, bind, Except.bind, Iss.check_of_true i _ _ (show pendOk (i.bytePair w.d) = true from hok hx), h.state]
      rfl
  · rw [Traps, exec_bari, execBari, issue_cause h]
    simp only [hbar, bind, Except.bind, Iss.check_of_false i _ _ (show pendOk (i.bytePair w.d) = false from hover hx)]
    rfl
  · rw [SetsBarrier, exec_barx, execBarx, issue_done h (s' := s.setBar t.id n
      (phased { old with pend := old.pend + pairInt i w.d })) (g := i.g) (region := true) _ rfl, State.commit_region]
    · rfl
    · simp only [hbar, bind, Except.bind, h.state,
        Iss.check_of_true i _ _ (show pendOk ((t.bar n).pend + i.bytePair w.d) = true from hok hx)]
      rfl
  · rw [Traps, exec_barx, execBarx, issue_cause h]
    simp only [hbar, bind, Except.bind,
      Iss.check_of_false i _ _ (show pendOk ((t.bar n).pend + i.bytePair w.d) = false from hover hx)]
    rfl

theorem barrierArrival : BarrierArrival := by
  intro w s i ctl t n h hnames old
  have hbar := hnames.barrier
  refine ⟨fun hover => ?_, fun hfits hheld => ?_⟩
  · have hno : decide ((t.bar n).arr + i.ex.length ≤ 65535) = false := decide_eq_false (Nat.not_le.2 hover)
    rw [Traps, exec_bara, execBara, issue_cause h]
    simp only [hbar, bind, Except.bind, Iss.check_of_false i _ _ hno]
    rfl
  · have hok : decide ((t.bar n).arr + i.ex.length ≤ 65535) = true := decide_eq_true hfits
    rw [SetsBarrier, exec_bara, execBara, issue_done h (s' := s.setBar t.id n
      (phased { s.carriedBy old [i.side (if t.id = i.t.id then 1 else 2)] with arr := old.arr + i.ex.length })) (g := i.g)
      (region := true) _ rfl, State.commit_region]
    · rfl
    · simp only [hbar, bind, Except.bind, Iss.check_of_true i _ _ hok, Iss.release, Iss.gate, hheld, Bool.false_eq_true,
        if_false, h.state]
      rfl

/-- Settles O55: a named barrier is found, checked, changed as R195 says, and stored. -/
theorem barriersCount : Obligations.BarriersCount := ⟨barrierInitAndExpect, barrierArrival⟩

end Sys2Proof.Claims
end

section
/-! PROOFS. An atomic lands while a write that names a byte twice settles (spec/06 R143, spec/13 R241). -/

namespace Sys2Proof.Claims

open Sys2Proof.Machine

/-- A write of host memory that every reader sees, and that names one byte twice: coherence order finds its first value there, memory
takes its last. Nothing in `State.Inv` excludes it. -/
def twiceWritten : InWrite :=
  { id := 0, site := {}, base := hostBase, len := 1, cells := [(hostBase, 1), (hostBase, 2)], placed := true, arrived := allObservers }

/-- A pending ATOM.ADD of one lane, four bytes at address 0. -/
def waitingAdd : Pending :=
  { id := 7, gid := 4, pc := 0, region := 0, kind := .atom ⟨0, 4, false⟩, dst := .v 0, uni := false, bytes := 4, lanes := [0]
    accs := [{ lane := 0, k := 0, loc := .mem 0, va := 0 }], data := [(0, [plain 1])] }

/-- The package with a launch of one group (log 27), for which the ATOM is pending, and with that write
on its way. -/
def atomicPending : State :=
  let s := State.reset.installProgram
  { s with
    inflight := [twiceWritten]
    pend := [waitingAdd] }

theorem atomicPending_inv : atomicPending.Inv where
  mem := by unfold State.memOk; decide +kernel
  names := by unfold State.named; decide +kernel
  order := by unfold State.ordered; decide +kernel

theorem atomicPending_flying : ∃ g, Flying atomicPending waitingAdd g := by
  have hgroup : (atomicPending.group? 4).any (fun g => g.status = .running) = true := by decide +kernel
  obtain ⟨g, hg, hruns⟩ := (Option.any_eq_true _ _).1 hgroup
  exact ⟨g, by decide +kernel, hg, by simpa using hruns, rfl⟩

theorem atomicPending_settled : Settled atomicPending 0 4 := by
  unfold Settled
  decide +kernel

/-- Before the landing the byte's latest value is the first that the write names, after it the last. -/
theorem atomicPending_lands : atomicPending.latestBytes hostBase 1 = [1] ∧
    (match exec (.atomResultLands 7 false) atomicPending with
      | .next t => decide (t.latestBytes hostBase 1 = [2])
      | _ => false) = true := by
  decide +kernel

/-- Refutes O60, in the frame of its second part: the ATOM of `atomicPending` writes bytes 0 to 3, and the latest value of another
byte changes, as a write that names it twice settles in the same step. -/
theorem not_landingsOfProducersAndAtomics : ¬ Obligations.LandingsOfProducersAndAtomics := by
  rintro ⟨-, hatomics⟩
  obtain ⟨g, hflying⟩ := atomicPending_flying
  obtain ⟨hlands, -⟩ := hatomics atomicPending waitingAdd g 0 4 0 0 { lane := 0, k := 0, loc := .mem 0, va := 0 } [plain 1] hflying
    rfl rfl rfl rfl (by decide) (by decide) rfl rfl rfl rfl rfl rfl rfl rfl atomicPending_inv
  obtain ⟨t, hstep, -, hframe, -⟩ := hlands (by decide +kernel) atomicPending_settled
  obtain ⟨hbefore, hafter⟩ := atomicPending_lands
  rw [show exec (.atomResultLands 7 false) atomicPending = .next t from hstep] at hafter
  have hsame := hframe hostBase (by decide)
  rw [of_decide_eq_true hafter, hbefore] at hsame
  exact absurd hsame (by decide)

end Sys2Proof.Claims
end

section
/-! PROOFS. An atomic without a destination is performed while a write that names a byte twice settles (spec/06 R143). -/

namespace Sys2Proof.Claims

open Sys2Proof.Machine

/-- The package with a launch of one group (log 27), one lane of which is at its entry, whose core's TLB maps the first page, and with
a write on its way that every reader sees and that names a byte of host memory twice. -/
def atAtomic : State :=
  let s := State.reset.installProgram
  { s with
    cur := 4
    groups := s.groups.map fun g => { g with ctl := Ctl.single 0 1 }
    tlb := [{ die := 0, core := some 0, ctx := 0, page := 0, pa := 0, pte := 0x40000, w := true, x := true, usr := true }]
    inflight := [twiceWritten] }

/-- ATOM.EXCH of four bytes at address 0, operand and destination ZR, under the guard P7. -/
def exchangeZero : FmtMA :=
  { g := ⟨false, 7⟩, ch := 0, mca := false, u := false, ord := 0, sc := 0, sz := 2, fn := 8, ofs := 0, b := .zr, a := .zr, d := .zr }

theorem atAtomic_found : (atAtomic.issueOf 8 exchangeZero.g exchangeZero.u).isSome = true := by decide +kernel

/-- What the group finds as it issues. -/
def atomicIssue : Iss := (atAtomic.issueOf 8 exchangeZero.g exchangeZero.u).get atAtomic_found

theorem atomicIssue_issues : ∃ ctl, Issues atAtomic 8 exchangeZero.g exchangeZero.u .fall atomicIssue ctl := by
  obtain ⟨ctl, hctl⟩ := Option.isSome_iff_exists.1
    (show (atomicIssue.g.ctl.advance atomicIssue.after .fall).isSome = true by decide +kernel)
  exact ⟨ctl, (Option.some_get _).symm, by decide +kernel, hctl⟩

theorem atomicIssue_ready : atomicIssue.ready [⟨.zr, false⟩] [.zr] = .ok () := by
  have hok : (atomicIssue.ready [⟨.zr, false⟩] [.zr]).isOk = true := by decide +kernel
  cases hready : atomicIssue.ready [⟨.zr, false⟩] [.zr] with
  | ok _ => rfl
  | error _ => simp [hready, Except.isOk, Except.toBool] at hok

theorem atomicIssue_allowed : Allowed atomicIssue .write 4 0 ⟨0, true, true, true, 0x40000⟩ 0 where
  aligned := by decide
  canonical := by decide +kernel
  noWindow := by decide +kernel
  leaf := by decide +kernel
  permitted := by decide +kernel

theorem atAtomic_inv : atAtomic.Inv where
  mem := by unfold State.memOk; decide +kernel
  names := by unfold State.named; decide +kernel
  order := by unfold State.ordered; decide +kernel

theorem atAtomic_settled : Settled (atAtomic.setDirty 0x40000) 0 4 := by
  unfold Settled
  decide +kernel

/-- Before the ATOM the byte's latest value is the first that the write names, after it the last. -/
theorem atAtomic_performs : (atAtomic.setDirty 0x40000).latestBytes hostBase 1 = [1] ∧
    (match exec (.atom none exchangeZero) atAtomic with
      | .next t => decide (t.latestBytes hostBase 1 = [2])
      | _ => false) = true := by
  decide +kernel

/-- Refutes O48, in the frame of its second part: the ATOM of `atAtomic` writes bytes 0 to 3, and the latest value of another byte
changes, as a write that names it twice settles in the same step. -/
theorem not_atomicOperations : ¬ Obligations.AtomicOperations := by
  rintro ⟨-, hatOnce, -⟩
  obtain ⟨ctl, hissues⟩ := atomicIssue_issues
  have hva : flatAddr atomicIssue .zr (BitVec.toInt (0 : BitVec 12)) 0 0 = 0 := by decide +kernel
  obtain ⟨t, hstep, -, hframe⟩ := hatOnce none exchangeZero atAtomic atomicIssue ctl 0 hissues (by decide +kernel) (by decide)
    (.inl (by decide)) atomicIssue_ready (by decide +kernel) rfl rfl rfl (fun _ => by decide) rfl rfl (by decide +kernel)
    (by decide +kernel) atAtomic_inv ⟨0, true, true, true, 0x40000⟩ 0 (hva ▸ atomicIssue_allowed) (by decide +kernel)
    atAtomic_settled (by unfold Apart; decide +kernel) 0 (by decide +kernel)
  obtain ⟨hbefore, hafter⟩ := atAtomic_performs
  rw [hstep] at hafter
  have hsame := hframe hostBase (by decide)
  rw [of_decide_eq_true hafter, hbefore] at hsame
  exact absurd hsame (by decide)

end Sys2Proof.Claims
end

section
/-! PROOFS. What CLAIM consumes and awaits at issue (spec/10 R202, R211 to R213). -/

namespace Sys2Proof.Claims

open Sys2Proof.Machine

/-! ### What the claims of the lanes consume -/

theorem hasKey_iff (e : Estate) (ctx chain ident : Nat) :
    e.hasKey ctx chain ident = true ↔ e.live = true ∧ e.ctx = ctx ∧ e.body.chain = chain ∧ e.body.ident = ident := by
  simp [Estate.hasKey]

section claimAll
variable (s : State) (ctx chain n lane ident : Nat) (ls : List (Nat × Nat))

/-- A lane whose key no live estate has receives nothing. -/
theorem claimAll_none (h : s.estates.find? (·.hasKey ctx chain ident) = none) :
    s.claimAll ctx chain n ((lane, ident) :: ls) =
      ((s.claimAll ctx chain n ls).1, ⟨lane, 1, none⟩ :: (s.claimAll ctx chain n ls).2) := by
  rw [State.claimAll, h]

/-- A lane takes a live estate of its key, and the lanes after it find the others. -/
theorem claimAll_some {e : Estate} (h : s.estates.find? (·.hasKey ctx chain ident) = some e) :
    s.claimAll ctx chain n ((lane, ident) :: ls) =
      ((State.claimAll { s with estates := s.estates.erase e } ctx chain n ls).1,
        ⟨lane, if e.body.prim.length = n then 0 else if e.body.prim.length < n then 2 else 3, some e⟩ ::
          (State.claimAll { s with estates := s.estates.erase e } ctx chain n ls).2) := by
  rw [State.claimAll, h]

end claimAll

theorem claimAll_lanes (ctx chain n : Nat) : ∀ (ls : List (Nat × Nat)) (s : State),
    (s.claimAll ctx chain n ls).2.map (·.lane) = ls.map (·.1)
  | [], _ => rfl
  | (lane, ident) :: ls, s => by
    cases h : s.estates.find? (·.hasKey ctx chain ident) with
    | none => rw [claimAll_none _ _ _ _ _ _ _ h, List.map_cons, List.map_cons, claimAll_lanes ctx chain n ls]
    | some e => rw [claimAll_some _ _ _ _ _ _ _ h, List.map_cons, List.map_cons, claimAll_lanes ctx chain n ls]

/-- Claims change the estates alone. -/
theorem claimAll_rest (ctx chain n : Nat) : ∀ (ls : List (Nat × Nat)) (s : State),
    (s.claimAll ctx chain n ls).1 = { s with estates := (s.claimAll ctx chain n ls).1.estates }
  | [], _ => rfl
  | (lane, ident) :: ls, s => by
    cases h : s.estates.find? (·.hasKey ctx chain ident) with
    | none => rw [claimAll_none _ _ _ _ _ _ _ h]; exact claimAll_rest ctx chain n ls s
    | some e =>
      rw [claimAll_some _ _ _ _ _ _ _ h]
      exact claimAll_rest ctx chain n ls { s with estates := s.estates.erase e }

/-- What is taken and what is left are together what there was. -/
theorem claimAll_perm (ctx chain n : Nat) : ∀ (ls : List (Nat × Nat)) (s : State),
    ((s.claimAll ctx chain n ls).2.filterMap (·.est) ++ (s.claimAll ctx chain n ls).1.estates).Perm s.estates
  | [], _ => List.Perm.refl _
  | (lane, ident) :: ls, s => by
    cases h : s.estates.find? (·.hasKey ctx chain ident) with
    | none => rw [claimAll_none _ _ _ _ _ _ _ h]; exact claimAll_perm ctx chain n ls s
    | some e =>
      rw [claimAll_some _ _ _ _ _ _ _ h]
      have htail := claimAll_perm ctx chain n ls { s with estates := s.estates.erase e }
      exact (htail.cons e).trans (List.perm_cons_erase (List.mem_of_find?_eq_some h)).symm

/-- What is left was there before. -/
theorem claimAll_left (ctx chain n : Nat) (ls : List (Nat × Nat)) (s : State) {e : Estate}
    (h : e ∈ (s.claimAll ctx chain n ls).1.estates) : e ∈ s.estates :=
  (claimAll_perm ctx chain n ls s).subset (List.mem_append_right _ h)

/-- A lane that receives nothing has status 1, and no live estate of its key is left. -/
theorem claimAll_missed (ctx chain n : Nat) : ∀ (ls : List (Nat × Nat)) (s : State),
    ∀ x ∈ ls.zip (s.claimAll ctx chain n ls).2, x.2.est = none → x.2.st = 1 ∧
      ∀ e ∈ (s.claimAll ctx chain n ls).1.estates, e.hasKey ctx chain x.1.2 = false
  | [], _ => by simp
  | (lane, ident) :: ls, s => by
    cases h : s.estates.find? (·.hasKey ctx chain ident) with
    | none =>
      rw [claimAll_none _ _ _ _ _ _ _ h, List.zip_cons_cons]
      refine List.forall_mem_cons.2 ⟨fun _ => ⟨rfl, fun e he => ?_⟩, claimAll_missed ctx chain n ls s⟩
      simpa using List.find?_eq_none.1 h e (claimAll_left ctx chain n ls s he)
    | some e =>
      rw [claimAll_some _ _ _ _ _ _ _ h, List.zip_cons_cons]
      exact List.forall_mem_cons.2 ⟨fun hno => (nomatch hno),
        claimAll_missed ctx chain n ls { s with estates := s.estates.erase e }⟩

/-- A lane that receives an estate receives a live one of its key, with the status of its size. -/
theorem claimAll_taken (ctx chain n : Nat) : ∀ (ls : List (Nat × Nat)) (s : State),
    ∀ x ∈ ls.zip (s.claimAll ctx chain n ls).2, ∀ e, x.2.est = some e → e.hasKey ctx chain x.1.2 = true ∧
      x.2.st = if e.body.prim.length = n then 0 else if e.body.prim.length < n then 2 else 3
  | [], _ => by simp
  | (lane, ident) :: ls, s => by
    cases h : s.estates.find? (·.hasKey ctx chain ident) with
    | none =>
      rw [claimAll_none _ _ _ _ _ _ _ h, List.zip_cons_cons]
      exact List.forall_mem_cons.2 ⟨fun e he => (nomatch he), claimAll_taken ctx chain n ls s⟩
    | some e =>
      rw [claimAll_some _ _ _ _ _ _ _ h, List.zip_cons_cons]
      refine List.forall_mem_cons.2 ⟨fun f hf => ?_, claimAll_taken ctx chain n ls { s with estates := s.estates.erase e }⟩
      cases hf
      exact ⟨List.find?_some (p := fun e : Estate => e.hasKey ctx chain ident) h, rfl⟩

theorem claimsConsumeOnce : ClaimsConsumeOnce := by
  intro s ctx chain n ls r
  refine ⟨claimAll_lanes ctx chain n ls s, claimAll_rest ctx chain n ls s, claimAll_perm ctx chain n ls s, fun x hx hno => ?_,
    fun x hx e he => ?_⟩
  · obtain ⟨hst, hleft⟩ := claimAll_missed ctx chain n ls s x hx hno
    exact ⟨hst, fun e he hkey => by simpa [(hasKey_iff ..).2 hkey] using hleft e he⟩
  · obtain ⟨hkey, hst⟩ := claimAll_taken ctx chain n ls s x hx e he
    obtain ⟨hlive, hctx, hchain, hident⟩ := (hasKey_iff ..).1 hkey
    exact ⟨hlive, hctx, hchain, hident, hst⟩

/-! ### The issue -/

/-- One register is its own range. -/
theorem mem_range_one {o d : Opnd} : o ∈ d.range 1 ↔ o = d := by cases d <;> simp [Opnd.range]

/-- A group without its registers. -/
def withoutRegisters (g : Group) : Group := { g with v := [], s := [] }

theorem eq_with_registers {g h : Group} (heq : withoutRegisters g = withoutRegisters h) : g = { h with v := g.v, s := g.s } :=
  congrArg (fun x : Group => { x with v := g.v, s := g.s }) heq

/-- A producer that lands in registers empties them and touches nothing else of its group. -/
theorem expect_withoutRegisters (g : Group) (id n : Nat) {dst : Opnd} (ls : List Nat) (ldq : Bool) (h : dst.isQueue = false) :
    withoutRegisters (g.expect id n dst ls ldq) = withoutRegisters g := by
  have hregs (lane : Nat) (os : List Opnd) (g : Group) :=
    Group.foldl_markEmpty_same withoutRegisters (fun _ _ => rfl) (fun _ _ => rfl) lane os g
  cases dst with
  | q k => simp [Opnd.isQueue] at h
  | s k => exact hregs 0 _ g
  | v k => exact Group.foldl_empties_same withoutRegisters _ (fun g lane => hregs lane _ g) ls g
  | zr => exact Group.foldl_empties_same withoutRegisters _ (fun g lane => hregs lane _ g) ls g

theorem claimIssues : ClaimIssues := by
  intro w s i ctl b h
  refine ⟨fun hchain => ?_, fun hchain hb hd => ?_⟩
  · rw [Traps, exec_claim, execClaim, issue_cause h]
    simp only [bind, Except.bind, Iss.check_of_false i _ _ (show decide (i.l.chain ≠ 0) = false by simp [hchain])]
    rfl
  · intro n hready c
    have hlt : ∀ x ∈ i.ex, x < 32 := fun x hx => executing_lt (h.ex ▸ hx)
    have hrest : c.1 = { s with estates := c.1.estates } := claimAll_rest ..
    have hsame : withoutRegisters ((i.g.expect s.nextId 1 w.d i.ex).expect s.nextId n w.b.o i.ex) = withoutRegisters i.g :=
      (expect_withoutRegisters _ _ _ _ _ (by rw [hb]; rfl)).trans (expect_withoutRegisters _ _ _ _ _ hd)
    refine ⟨(i.g.expect s.nextId 1 w.d i.ex).expect s.nextId n w.b.o i.ex, eq_with_registers hsame, fun m lane hl => ?_,
      fun m => ?_, ?_⟩
    · rw [Group.expect_vCell _ _ _ _ _ _ hl hlt, Group.expect_vCell _ _ _ _ _ _ hl hlt]
      by_cases hlane : lane ∈ i.ex <;> by_cases hm : w.d = Opnd.v m <;> simp [hlane, hm, mem_range_one, eq_comm]
    · have hno : Opnd.s m ∉ w.b.o.range n := by simp [hb, Opnd.range]
      rw [Group.expect_sCell, Group.expect_sCell, if_neg hno]
      simp only [mem_range_one, eq_comm]
    · have hctl : ((i.g.expect s.nextId 1 w.d i.ex).expect s.nextId n w.b.o i.ex).ctl = i.g.ctl := by
        have hgroup := congrArg Group.ctl (eq_with_registers hsame)
        exact hgroup
      rw [exec_claim, execClaim, issue_done h (region := true)
        (g := (i.g.expect s.nextId 1 w.d i.ex).expect s.nextId n w.b.o i.ex)
        (s' := { s with
          estates := c.1.estates, nextId := s.nextId + 1
          pend := s.pend ++ [{
            id := s.nextId, gid := i.g.id, pc := i.g.ctl.pc.setWidth 32
            region := if i.g.inHandler then i.g.regionCnt else i.g.regionCnt + 1
            kind := .claim b.toNat n c.2, dst := w.d, uni := false, bytes := 4, lanes := i.ex
            acq := c.2.any (·.est.isSome), sc := 4 }] }) _ hctl, State.commit_region]
      simp only [bind, Except.bind, Iss.check_of_true i _ _ (show decide (i.l.chain ≠ 0) = true by simp [hchain]), hb, h.state]
      rw [hb] at hready
      rw [show i.ready (baseFields w.a.o) (w.d :: (Opnd.v b).range (w.fn.toNat + 1)) = .ok () from hready, hrest]
      rfl

end Sys2Proof.Claims
end

section
/-! PROOFS. What performing accesses leaves alone (spec/06 R146, spec/13 R246 to R252, spec/10 R208): of groups all but the
releases that their reads have met, of teams all but their tile regions, and everything else but memory, the writes on their
way, the contexts' dirty pages and the pending producers. -/

namespace Sys2Proof.Machine

/-! ### Teams but for their tile regions -/

/-- The teams without their tile regions. -/
def State.bareTeams (s : State) : List Team := s.teams.map fun t => { t with tile := [] }

@[simp] theorem State.countWrite_bareTeams (s : State) (w : InWrite) : (s.countWrite w).bareTeams = s.bareTeams := by
  unfold State.countWrite
  split <;> rfl

@[simp] theorem State.settleWrite_bareTeams (s : State) (id : Nat) : (s.settleWrite id).bareTeams = s.bareTeams := by
  unfold State.settleWrite
  split
  · rfl
  · dsimp only
    split
    · simp only [State.bareTeams, State.onTeam_teams, List.map_map]
      refine List.map_congr_left fun t _ => ?_
      simp only [Function.comp_apply]
      split <;> rfl
    · rfl

@[simp] theorem State.settleWrites_bareTeams (s : State) : s.settleWrites.bareTeams = s.bareTeams := by
  unfold State.settleWrites
  exact foldl_keeps State.bareTeams (fun t w => by split_ifs <;> simp) _ _

@[simp] theorem State.place_bareTeams (s : State) (id : Nat) : (s.place id).bareTeams = s.bareTeams := by
  unfold State.place
  split
  · rfl
  · split
    · rfl
    · exact (foldl_keeps State.bareTeams (fun t (r : Rel) => (rfl : (t.owe r.sc (t.idsOf r)).bareTeams = t.bareTeams)) _ _)

@[simp] theorem State.landWrite_bareTeams (s : State) (id : Nat) : (s.landWrite id).bareTeams = s.bareTeams :=
  (State.settleWrites_bareTeams _).trans (s.place_bareTeams id)

@[simp] theorem State.arrive_bareTeams (s : State) (id : Nat) (os : List Observer) :
    (s.arrive id os).bareTeams = s.bareTeams := by
  unfold State.arrive
  split
  · rfl
  · exact (State.settleWrites_bareTeams _).trans (s.place_bareTeams id)

@[simp] theorem State.bring_bareTeams (s : State) (id : Nat) (os : List Observer) :
    (s.bring id os).bareTeams = s.bareTeams := by
  unfold State.bring
  exact foldl_keeps State.bareTeams (fun t x => by split_ifs <;> simp) _ _

/-! ### What performing leaves alone -/

/-- A group without the releases that its reads have met. -/
def Group.unmet (g : Group) : Group := { g with seen := [], notes := [] }

/-- The state without what performing accesses can change. -/
def State.besidesPerforming (s : State) : State :=
  { s.besidesWrites with
    teams := s.bareTeams, groups := s.groups.map Group.unmet, pend := [], free := 0, nextId := 0 }

/-- What moves writes alone leaves it. -/
theorem State.besidesPerforming_of_writes {s t : State} (hw : t.besidesWrites = s.besidesWrites)
    (ht : t.bareTeams = s.bareTeams) : t.besidesPerforming = s.besidesPerforming := by
  have hgroups : t.groups = s.groups := State.eq_of_besidesWrites State.groups (fun _ => rfl) hw
  simp only [State.besidesPerforming, hw, ht, hgroups]

@[simp] theorem State.owe_besidesPerforming (s : State) (sc : Nat) (ids : List Nat) :
    (s.owe sc ids).besidesPerforming = s.besidesPerforming := rfl

@[simp] theorem State.place_besidesPerforming (s : State) (id : Nat) :
    (s.place id).besidesPerforming = s.besidesPerforming :=
  State.besidesPerforming_of_writes (by simp) (by simp)

@[simp] theorem State.arrive_besidesPerforming (s : State) (id : Nat) (os : List Observer) :
    (s.arrive id os).besidesPerforming = s.besidesPerforming :=
  State.besidesPerforming_of_writes (by simp) (by simp)

@[simp] theorem State.bring_besidesPerforming (s : State) (id : Nat) (os : List Observer) :
    (s.bring id os).besidesPerforming = s.besidesPerforming :=
  State.besidesPerforming_of_writes (by simp) (by simp)

@[simp] theorem State.performFor_besidesPerforming (s : State) (r : Rel) (ids : List Nat) :
    (s.performFor r ids).besidesPerforming = s.besidesPerforming := by
  unfold State.performFor
  split
  · rfl
  · exact foldl_keeps State.besidesPerforming (fun t id => by simp) _ _

@[simp] theorem State.summon_besidesPerforming (s : State) (me : Site) (n : Nat) (l : Loc) :
    (s.summon me n l).besidesPerforming = s.besidesPerforming := by
  unfold State.summon
  exact foldl_keeps State.besidesPerforming (fun t w => by split_ifs <;> simp) _ _

@[simp] theorem State.meet_besidesPerforming (s : State) (me : Site) (n : Nat) (l : Loc) :
    (s.meet me n l).besidesPerforming = s.besidesPerforming := by
  unfold State.meet
  exact (foldl_keeps State.besidesPerforming (fun t id => by simp) _ _).trans (by simp)

/-- A change of a group that leaves all but the releases that its reads have met. -/
theorem State.onGroup_besidesPerforming (s : State) (id : Nat) {f : Group → Group} (h : ∀ g, (f g).unmet = g.unmet) :
    (s.onGroup id f).besidesPerforming = s.besidesPerforming := by
  have hgroups : (s.onGroup id f).groups.map Group.unmet = s.groups.map Group.unmet := by
    simp only [State.onGroup_groups, List.map_map]
    refine List.map_congr_left fun g _ => ?_
    simp only [Function.comp_apply]
    split
    · exact h g
    · rfl
  simp only [State.besidesPerforming, hgroups]
  rfl

@[simp] theorem State.take_besidesPerforming (s : State) (gid : Nat) (scope : Rel → Nat) (rs : List Rel) :
    (s.take gid scope rs).besidesPerforming = s.besidesPerforming :=
  s.onGroup_besidesPerforming gid fun _ => rfl

@[simp] theorem State.note_besidesPerforming (s : State) (gid : Nat) (rs : List Rel) :
    (s.note gid rs).besidesPerforming = s.besidesPerforming := by
  unfold State.note
  split
  · rfl
  · exact s.onGroup_besidesPerforming gid fun _ => rfl

@[simp] theorem State.met_besidesPerforming (s : State) (gid : Nat) (acq : Option Nat) (rs : List Rel) :
    (s.met gid acq rs).besidesPerforming = s.besidesPerforming := by
  unfold State.met
  split
  · exact (State.take_besidesPerforming _ gid _ rs).trans (s.note_besidesPerforming gid rs)
  · exact s.note_besidesPerforming gid rs

@[simp] theorem State.free_besidesPerforming (s : State) (n : Nat) :
    State.besidesPerforming { s with free := n } = s.besidesPerforming := rfl

@[simp] theorem State.addWrite_besidesPerforming (s : State) (w : InWrite) :
    (s.addWrite w).besidesPerforming = s.besidesPerforming := rfl

@[simp] theorem State.atomOne_besidesPerforming (s : State) (p : Pending) (op : AtomOp) (own : Option Rel) (a : Access) :
    (s.atomOne p op own a).1.besidesPerforming = s.besidesPerforming := by
  unfold State.atomOne
  split
  · extract_lets me s₁ old met gained s₂ ds r b cmp side id s₃
    have hmeet : s₁.besidesPerforming = s.besidesPerforming := s.meet_besidesPerforming _ _ _
    have hside : s₂.besidesPerforming = s₁.besidesPerforming := by
      simp only [s₂]
      split
      · rfl
      · exact s₁.performFor_besidesPerforming _ _
    have hwrite : s₃.besidesPerforming = s₂.besidesPerforming := by
      simp only [s₃]
      split
      · rfl
      · split <;> simp
    exact (hwrite.trans hside).trans hmeet
  · rfl

@[simp] theorem State.atomAll_besidesPerforming (s : State) (p : Pending) (op : AtomOp) (err : Bool) (sel : Access → Bool) :
    (s.atomAll p op err sel).1.besidesPerforming = s.besidesPerforming := by
  unfold State.atomAll
  split
  · rfl
  · extract_lets s₁ step r
    have hstep : ∀ x a, (step x a).1.besidesPerforming = x.1.besidesPerforming := fun x a => by
      simp only [step, State.atomOne_besidesPerforming]
      split_ifs
      · rfl
      · exact foldl_keeps State.besidesPerforming (fun t r => by simp) _ _
    have hsides : s₁.besidesPerforming = s.besidesPerforming :=
      foldl_keeps State.besidesPerforming (fun t r => by simp) _ _
    have hall : r.1.besidesPerforming = s₁.besidesPerforming :=
      foldl_keeps (fun x : State × List Access × List Rel × List (Nat × Nat) => x.1.besidesPerforming) hstep _ _
    clear_value r s₁
    rw [State.met_besidesPerforming, State.free_besidesPerforming, hall, hsides]

@[simp] theorem State.performPart_besidesPerforming (s : State) (id : Nat) (sel : Access → Bool) :
    (s.performPart id sel).besidesPerforming = s.besidesPerforming := by
  unfold State.performPart
  split
  · rfl
  · split
    · rfl
    · dsimp only
      split
      · exact State.atomAll_besidesPerforming ..
      · exact (State.met_besidesPerforming ..).trans (foldl_keeps State.besidesPerforming (fun t a => by simp) _ _)

@[simp] theorem State.fulfil_besidesPerforming {s t : State} {r : Rel} (h : s.fulfil r = some t) :
    t.besidesPerforming = s.besidesPerforming := by
  unfold State.fulfil at h
  extract_lets s₁ at h
  have hreads : s₁.besidesPerforming = s.besidesPerforming :=
    foldl_keeps State.besidesPerforming (fun t id => t.performPart_besidesPerforming id _) _ _
  split at h
  · cases h
    exact (State.performFor_besidesPerforming ..).trans hreads
  · cases h

/-- Release sides are performed in order. -/
theorem State.fulfilAll_cons {s t : State} {r : Rel} {rs : List Rel} (h : s.fulfilAll (r :: rs) = some t) :
    ∃ u, s.fulfil r = some u ∧ u.fulfilAll rs = some t := by
  have hnone (rs : List Rel) : rs.foldl (fun (o : Option State) r => o.bind fun s => s.fulfil r) none = none := by
    induction rs with
    | nil => rfl
    | cons r rs ih => exact ih
  simp only [State.fulfilAll, List.foldl_cons, Option.bind_some] at h
  cases hu : s.fulfil r with
  | none => rw [hu, hnone] at h; cases h
  | some u => exact ⟨u, rfl, by rwa [hu] at h⟩

theorem State.fulfilAll_besidesPerforming (rs : List Rel) : ∀ {s t : State}, s.fulfilAll rs = some t →
    t.besidesPerforming = s.besidesPerforming := by
  induction rs with
  | nil => rintro s t ⟨⟩; rfl
  | cons r rs ih =>
    intro s t h
    obtain ⟨u, hu, ht⟩ := State.fulfilAll_cons h
    exact (ih ht).trans (State.fulfil_besidesPerforming hu)

/-- An observation leaves all but what performing can change. -/
theorem State.observe_besidesPerforming {s t : State} {gid : Nat} {rs : List Rel} (h : s.observe gid rs = some t) :
    t.besidesPerforming = s.besidesPerforming := by
  unfold State.observe at h
  obtain ⟨u, hu, rfl⟩ := Option.map_eq_some_iff.1 h
  exact (State.take_besidesPerforming ..).trans (State.fulfilAll_besidesPerforming _ hu)

end Sys2Proof.Machine
end

section
/-! PROOFS. A CLAIM lands (spec/10 R208, R212, R213). -/

namespace Sys2Proof.Machine

/-! ### Release sides with nothing left to wait for -/

/-- A release side that carries no write on its way and waits for no read. -/
theorem State.bears?_eq_false {s : State} {r : Rel} (h : s.bears? r = false) : s.idsOf r = [] ∧ s.readsDone r = true := by
  simpa [State.bears?] using h

/-- Performing a producer whose accesses are performed does nothing. -/
theorem State.perform_of_performed {s : State} {id : Nat} (h : ∀ p, s.pend? id = some p → p.performed = true) :
    s.perform id = s := by
  unfold State.perform State.performPart
  split
  · rfl
  next p hp => rw [if_pos (by simp [h p hp])]

theorem State.performFor_nil (s : State) (r : Rel) : s.performFor r [] = s := by
  unfold State.performFor
  split
  · simp [State.owe]
  · have hnone : s.onWay [] = [] := List.filter_eq_nil_iff.2 (by simp)
    rw [hnone]; rfl

theorem State.fulfil_of_not_bears {s : State} {r : Rel} (h : s.bears? r = false) : s.fulfil r = some s := by
  obtain ⟨hids, hreads⟩ := State.bears?_eq_false h
  have hdone : ∀ id ∈ (s.pend.filter fun p => r.reads.contains p.id).map (·.id), s.perform id = s := by
    intro id hid
    refine State.perform_of_performed fun p hp => ?_
    obtain ⟨q, hq, rfl⟩ := List.mem_map.1 hid
    have hid : p.id = q.id := by simpa using List.find?_some hp
    have hread := List.all_eq_true.1 hreads p (List.mem_of_find?_eq_some hp)
    simpa only [hid, (List.mem_filter.1 hq).2, Bool.not_true, Bool.false_or] using hread
  have hfold : ((s.pend.filter fun p => r.reads.contains p.id).map (·.id)).foldl State.perform s = s :=
    List.foldlRecOn _ _ (motive := fun t => t = s) rfl fun t ht id hid => by rw [ht, hdone id hid]
  simp only [State.fulfil, hfold, hreads, hids, List.all_nil, Bool.and_self, if_true, State.performFor_nil]

theorem State.observe_of_not_bears {s : State} (gid : Nat) {rs : List Rel} (h : ∀ r ∈ rs, s.bears? r = false) :
    s.observe gid rs = some (s.take gid Rel.sc rs) := by
  have hall : ∀ rs : List Rel, (∀ r ∈ rs, s.bears? r = false) → s.fulfilAll rs = some s := by
    intro rs
    induction rs with
    | nil => exact fun _ => rfl
    | cons r rs ih =>
      intro h
      have hhead := State.fulfil_of_not_bears (h r (by simp))
      simpa [State.fulfilAll, hhead] using ih fun r hr => h r (by simp [hr])
  simp [State.observe, hall _ fun r hr => h r (List.mem_filter.1 hr).1]

/-! ### Groups, teams and launches after performing -/

section after
variable {s t : State} (h : t.besidesPerforming = s.besidesPerforming)
include h

theorem State.group?_of_besidesPerforming {id : Nat} {g : Group} (hg : s.group? id = some g) :
    ∃ g', t.group? id = some g' ∧ g'.unmet = g.unmet := by
  have hgroups : t.groups.map Group.unmet = s.groups.map Group.unmet := congrArg State.groups h
  have hfind (u : State) : (u.groups.map Group.unmet).find? (fun g => decide (g.id = id)) = (u.group? id).map Group.unmet :=
    List.find?_map ..
  have hmap := (hfind t).symm.trans ((congrArg _ hgroups).trans (hfind s))
  rw [hg, Option.map_some, Option.map_eq_some_iff] at hmap
  exact hmap

theorem State.team?_of_besidesPerforming {id : Nat} {u : Team} (hu : s.team? id = some u) :
    ∃ u', t.team? id = some u' ∧ { u' with tile := [] } = { u with tile := [] } := by
  have hteams : t.bareTeams = s.bareTeams := congrArg State.teams h
  have hfind (u : State) : u.bareTeams.find? (fun t => decide (t.id = id)) = (u.team? id).map fun t => { t with tile := [] } :=
    List.find?_map ..
  have hmap := (hfind t).symm.trans ((congrArg _ hteams).trans (hfind s))
  rw [hu, Option.map_some, Option.map_eq_some_iff] at hmap
  exact hmap

theorem State.launch?_of_besidesPerforming (id : Nat) : t.launch? id = s.launch? id := by
  have hlaunch := congrArg (fun u : State => u.launch? id) h
  exact hlaunch

end after

/-! ### Landing in registers -/

/-- A part of a group that writes of registers and queues do not touch. -/
theorem Group.land_same {β : Type} (π : Group → β) (hv : ∀ (g : Group) x, π { g with v := x } = π g)
    (hs : ∀ (g : Group) x, π { g with s := x } = π g) (hq : ∀ (g : Group) x, π { g with q := x } = π g)
    (g : Group) (p : Pending) (o : Opnd) (lane : Nat) (ds : List Datum) : π (g.land p o lane ds) = π g := by
  have hgive : ∀ (g : Group) o d, π (g.give lane o d) = π g := fun g o d => by
    cases o with
    | v n => exact hv ..
    | s n => exact hs ..
    | q n => exact hq ..
    | zr => rfl
  have hregs (o : Opnd) : π (((o.range ds.length).zip ds).foldl
      (fun g r => if p.forced.contains (Opnd.home r.1 lane) then g else g.give lane r.1 r.2) g) = π g :=
    foldl_keeps π (fun g r => by split; exacts [rfl, hgive ..]) _ _
  cases o with
  | q n => exact hq ..
  | v n => exact hregs _
  | s n => exact hregs _
  | zr => exact hregs _

/-- Results written in one lane, each to its register. -/
theorem Group.foldl_give_vCell_other {lane l : Nat} {n : BitVec 7} (hl : l < 32) (hlane : lane < 32) :
    ∀ (rs : List (Opnd × Datum)) (g : Group), (lane = l → .v n ∉ rs.map (·.1)) →
    (rs.foldl (fun (g : Group) r => g.give lane r.1 r.2) g).vCell n.toNat l = g.vCell n.toNat l
  | [], _, _ => rfl
  | r :: rs, g, h => by
    rw [List.foldl_cons, Group.foldl_give_vCell_other hl hlane rs _ fun e hm => h e (List.mem_cons_of_mem _ hm),
      Group.give_vCell _ _ _ _ hl hlane, if_neg fun ⟨ho, he⟩ => h he (by simp [ho])]

theorem Group.foldl_give_vCell_of_mem {lane : Nat} {n : BitVec 7} {d : Datum} (hlane : lane < 32) :
    ∀ (rs : List (Opnd × Datum)) (g : Group), (rs.map (·.1)).Nodup → (.v n, d) ∈ rs →
    (rs.foldl (fun (g : Group) r => g.give lane r.1 r.2) g).vCell n.toNat lane = { d := d, full := true }
  | [], _, _, hm => absurd hm List.not_mem_nil
  | r :: rs, g, hnd, hm => by
    rw [List.map_cons, List.nodup_cons] at hnd
    rw [List.foldl_cons]
    rcases List.mem_cons.1 hm with rfl | hm
    · rw [Group.foldl_give_vCell_other hlane hlane rs _ fun _ => hnd.1, Group.give_vCell _ _ _ _ hlane hlane,
        if_pos ⟨rfl, rfl⟩]
    · exact Group.foldl_give_vCell_of_mem hlane rs _ hnd.2 hm

/-- A landing that no debugger has forced writes each register of the range. -/
theorem Group.land_registers {p : Pending} (hp : p.forced = []) {o : Opnd} (ho : o.isQueue = false) (g : Group) (lane : Nat)
    (ds : List Datum) :
    g.land p o lane ds = ((o.range ds.length).zip ds).foldl (fun (g : Group) r => g.give lane r.1 r.2) g := by
  cases o with
  | q n => simp [Opnd.isQueue] at ho
  | _ => simp [Group.land, hp]

/-- What the last step that touches a part leaves of it, in a fold over steps with names of their own. -/
theorem foldl_of_mem {α β γ : Type} (π : α → γ) {f : α → β → α} (key : β → Nat) {c : β} {v : γ}
    (hthis : ∀ a, π (f a c) = v) : ∀ (l : List β) (a : α), (∀ a, ∀ b ∈ l, key b ≠ key c → π (f a b) = π a) →
    (l.map key).Nodup → c ∈ l → π (l.foldl f a) = v
  | [], _, _, _, hc => absurd hc List.not_mem_nil
  | b :: l, a, hother, hnd, hc => by
    rw [List.map_cons, List.nodup_cons] at hnd
    rw [List.foldl_cons]
    rcases List.mem_cons.1 hc with rfl | hc
    · rw [← hthis a]
      refine List.foldlRecOn l f (motive := fun x => π x = π (f a c)) rfl fun x hx b hb => ?_
      rw [hother x b (List.mem_cons_of_mem _ hb) fun e => hnd.1 (e ▸ List.mem_map_of_mem hb), hx]
    · exact foldl_of_mem π key hthis l _ (fun a b hb => hother a b (List.mem_cons_of_mem _ hb)) hnd.2 hc

/-! ### The lanes of a CLAIM -/

/-- The status word of an S destination has a bit for each status that occurred. -/
theorem statusWord_getLsbD (sts : List Nat) {k : Nat} (hk : k < 4) : (statusWord sts).getLsbD k = sts.contains k := by
  have hword : ∀ b0 b1 b2 b3 : Bool, ∀ k < 4, (BitVec.ofNat 32 ((List.range 4).foldl
      (fun x k => if [b0, b1, b2, b3].getD k false then x + 2 ^ k else x) 0)).getLsbD k = [b0, b1, b2, b3].getD k false := by
    decide
  have hlist : ∀ k < 4, [sts.contains 0, sts.contains 1, sts.contains 2, sts.contains 3].getD k false = sts.contains k := by
    intro k hk
    interval_cases k <;> rfl
  have := hword (sts.contains 0) (sts.contains 1) (sts.contains 2) (sts.contains 3) k hk
  rw [hlist k hk] at this
  exact this

@[simp] theorem claimWords_length (n duals : Nat) (e : Option Estate) : (claimWords n duals e).length = n := by
  cases e <;> simp [claimWords]

/-- A lane without an estate receives zeros. -/
theorem claimWords_none (n duals : Nat) {j : Nat} (hj : j < n) : (claimWords n duals none).getD j {} = {} := by
  simp [claimWords, List.getD, hj]

/-- What a lane receives in its register `j` from an estate: the estate's register, or zeros beyond them (R212). -/
theorem claimWords_some (n duals : Nat) (e : Estate) {j : Nat} (hj : j < n) :
    (claimWords n duals (some e)).getD j {} =
      if j < e.body.prim.length then
        withTans (e.body.prim.getD j 0) (min e.body.tans.length duals) fun k => (e.body.tans.getD k []).getD j 0
      else {} := by
  simp [claimWords, List.getD, hj, nth]

/-- The registers of a range, in order and all different, as long as they do not wrap around. -/
theorem range_v_nodup (b : BitVec 7) {n : Nat} (h : n ≤ 128) : ((Opnd.v b).range n).Nodup := by
  refine List.Nodup.map_on (fun x hx y hy hxy => ?_) List.nodup_range
  have hx := List.mem_range.1 hx
  have hy := List.mem_range.1 hy
  have hv := congrArg BitVec.toNat (add_left_cancel (Opnd.v.inj hxy))
  simp only [BitVec.toNat_ofNat] at hv
  omega

section landClaim
variable {p : Pending} (hp : p.forced = [])

theorem Group.landClaim_same {β : Type} (π : Group → β) (hv : ∀ (g : Group) x, π { g with v := x } = π g)
    (hs : ∀ (g : Group) x, π { g with s := x } = π g) (hq : ∀ (g : Group) x, π { g with q := x } = π g)
    (g : Group) (p : Pending) (base n duals : Nat) (got : List ClaimLane) (lost : Bool) :
    π (g.landClaim p base n duals got lost) = π g := by
  have hland (o : Opnd) (f : ClaimLane → List Datum) (got : List ClaimLane) (g : Group) :
      π (got.foldl (fun g c => g.land p o c.lane (f c)) g) = π g := by
    refine foldl_keeps π (f := fun (g : Group) (c : ClaimLane) => g.land p o c.lane (f c)) (fun g c => ?_) got g
    exact Group.land_same π hv hs hq g p o c.lane (f c)
  unfold Group.landClaim
  extract_lets got' g₁
  have hrange : π g₁ = π g := hland (.v (BitVec.ofNat 7 base)) (fun c => claimWords n duals c.est) got' g
  split
  · split
    · exact hrange
    · exact (Group.land_same π hv hs hq ..).trans hrange
  · exact (hland p.dst (fun c => [plain (BitVec.ofNat 32 c.st)]) got' g₁).trans hrange

include hp

/-- One datum lands in one register. -/
theorem Group.land_one {o : Opnd} (ho : o.isQueue = false) (g : Group) (lane : Nat) (d : Datum) :
    g.land p o lane [d] = g.give lane o d := by
  rw [Group.land_registers hp ho]
  cases o with
  | q n => simp [Opnd.isQueue] at ho
  | _ => simp [Opnd.range]

/-- A landing in another register, or in another lane, leaves a V register alone. -/
theorem Group.land_one_vCell (o : Opnd) {lane l : Nat} (hl : l < 32) (hlane : lane < 32) (g : Group) (d : Datum) {n : BitVec 7}
    (h : lane = l → o ≠ .v n) : (g.land p o lane [d]).vCell n.toNat l = g.vCell n.toNat l := by
  by_cases ho : o.isQueue = true
  · cases o with
    | q k => simp [Group.land, Group.vCell, Group.setQueue]
    | _ => simp [Opnd.isQueue] at ho
  · rw [Group.land_one hp (by simpa using ho), Group.give_vCell _ _ _ _ hl hlane, if_neg fun ⟨hon, hlane⟩ => h hlane hon]

/-- The status word after a CLAIM of which no lane is lost. -/
theorem Group.landClaim_statusWord (g : Group) (base n duals : Nat) (got : List ClaimLane) {m : BitVec 6} (hdst : p.dst = .s m) :
    (g.landClaim p base n duals got false).sCell m.toNat =
      { d := plain (statusWord ((got.filter fun c => decide (c.lane < 32)).map (·.st))), full := true } := by
  simp only [Group.landClaim, hdst, Bool.false_eq_true, if_false]
  rw [Group.land_one hp rfl, Group.give_sCell, if_pos rfl]

variable {base n duals : Nat} {got : List ClaimLane} (hnd : (got.map (·.lane)).Nodup) {c : ClaimLane} (hc : c ∈ got)
  (hlane : c.lane < 32)
include hnd hc hlane

omit hp in
/-- The landings of the lanes, one after the other, as seen in a lane of their own. -/
theorem Group.foldl_land_vCell (o : Opnd) (f : ClaimLane → List Datum) (m : BitVec 7) (v : Cell)
    (hother : ∀ (g : Group) (x : ClaimLane), x.lane < 32 → x.lane ≠ c.lane →
      (g.land p o x.lane (f x)).vCell m.toNat c.lane = g.vCell m.toNat c.lane)
    (hthis : ∀ g : Group, (g.land p o c.lane (f c)).vCell m.toNat c.lane = v) (g : Group) :
    ((got.filter fun c => decide (c.lane < 32)).foldl (fun g x => g.land p o x.lane (f x)) g).vCell m.toNat c.lane = v :=
  foldl_of_mem (f := fun (g : Group) (x : ClaimLane) => g.land p o x.lane (f x)) (fun g : Group => g.vCell m.toNat c.lane)
    (·.lane) hthis _ g
    (fun g x hx hne => hother g x (of_decide_eq_true (List.mem_filter.1 hx).2) hne)
    (hnd.sublist (List.filter_sublist.map _)) (List.mem_filter.2 ⟨hc, decide_eq_true hlane⟩)

/-- A lane's range after a CLAIM. -/
theorem Group.landClaim_range (hbase : base + n ≤ 128) (g : Group) (lost : Bool) {j : Nat} (hj : j < n)
    (hdst : p.dst ≠ .v (BitVec.ofNat 7 (base + j))) :
    (g.landClaim p base n duals got lost).vCell (base + j) c.lane =
      { d := (claimWords n duals c.est).getD j {}, full := true } := by
  have hreg : (BitVec.ofNat 7 (base + j)).toNat = base + j := by
    rw [BitVec.toNat_ofNat, Nat.mod_eq_of_lt (by omega)]
  have hrange (g : Group) : ((got.filter fun c => decide (c.lane < 32)).foldl (fun g x => g.land p (.v (BitVec.ofNat 7 base)) x.lane
      (claimWords n duals x.est)) g).vCell (BitVec.ofNat 7 (base + j)).toNat c.lane =
      { d := (claimWords n duals c.est).getD j {}, full := true } := by
    refine Group.foldl_land_vCell hnd hc hlane _ (fun x => claimWords n duals x.est) _ _ (fun g x hx hne => ?_) (fun g => ?_) g
    · rw [Group.land_registers hp rfl, Group.foldl_give_vCell_other hlane hx _ _ fun he => absurd he hne]
    · rw [Group.land_registers hp rfl, claimWords_length]
      have hnames : (((Opnd.v (BitVec.ofNat 7 base)).range n).zip (claimWords n duals c.est)).map (·.1) =
          (Opnd.v (BitVec.ofNat 7 base)).range n := List.map_fst_zip (by simp [Opnd.range])
      refine Group.foldl_give_vCell_of_mem hlane _ _ (by rw [hnames]; exact range_v_nodup _ (by omega)) ?_
      refine List.mem_iff_getElem.2 ⟨j, by simp [Opnd.range, hj], ?_⟩
      simp [Opnd.range, hj, BitVec.ofNat_add]
  rw [← hreg]
  unfold Group.landClaim
  extract_lets got' g₁
  have hkept (f : ClaimLane → Datum) (g : Group) : (got'.foldl (fun g x => g.land p p.dst x.lane [f x]) g).vCell
      (BitVec.ofNat 7 (base + j)).toNat c.lane = g.vCell (BitVec.ofNat 7 (base + j)).toNat c.lane :=
    List.foldlRecOn got' _ (motive := fun h : Group => h.vCell (BitVec.ofNat 7 (base + j)).toNat c.lane =
      g.vCell (BitVec.ofNat 7 (base + j)).toNat c.lane) rfl fun h hh x hx =>
        (Group.land_one_vCell hp _ hlane (of_decide_eq_true (List.mem_filter.1 hx).2) h _ fun _ => hdst).trans hh
  split
  · split
    · exact hrange g
    · rw [Group.land_one_vCell hp _ hlane (by omega) _ _ fun _ => hdst]
      exact hrange g
  · exact (hkept (fun x => plain (BitVec.ofNat 32 x.st)) g₁).trans (hrange g)

/-- A lane's status register after a CLAIM. -/
theorem Group.landClaim_status (g : Group) (lost : Bool) {m : BitVec 7} (hdst : p.dst = .v m) :
    (g.landClaim p base n duals got lost).vCell m.toNat c.lane = { d := plain (BitVec.ofNat 32 c.st), full := true } := by
  simp only [Group.landClaim, hdst]
  refine Group.foldl_land_vCell hnd hc hlane _ (fun x => [plain (BitVec.ofNat 32 x.st)]) _ _ (fun g x hx hne => ?_)
    (fun g => ?_) _
  · exact Group.land_one_vCell hp _ hlane hx g _ fun he => absurd he hne
  · rw [Group.land_one hp rfl, Group.give_vCell _ _ _ _ hlane hlane, if_pos ⟨rfl, rfl⟩]

end landClaim

end Sys2Proof.Machine
end

section
/-! PROOFS. The steps in which a CLAIM lands, with and without an error (spec/10 R212, R213; spec/06 R153). -/

namespace Sys2Proof.Machine

/-! ### The group of a state that changes around it -/

theorem State.group?_setGroup {s : State} {g h : Group} (hs : s.group? g.id = some h) :
    (s.setGroup g).group? g.id = some g := by
  have hfind : ∀ gs : List Group, gs.find? (fun x => decide (x.id = g.id)) = some h →
      (gs.map fun x => if x.id = g.id then g else x).find? (fun x => decide (x.id = g.id)) = some g := by
    intro gs
    induction gs with
    | nil => intro h; cases h
    | cons x gs ih =>
      intro hx
      by_cases hid : x.id = g.id
      · simp [hid]
      · simp only [List.find?_cons, hid, decide_false] at hx
        simpa [hid] using ih hx
  exact hfind s.groups hs

theorem State.group?_onGroup {s : State} {id : Nat} {g : Group} (f : Group → Group) (hf : ∀ g, (f g).id = g.id)
    (hs : s.group? id = some g) : (s.onGroup id f).group? id = some (f g) := by
  have hfind : (s.onGroup id f).group? id = (s.group? id).map f := by
    show (s.groups.map fun h => if h.id = id then f h else h).find? (fun h => decide (h.id = id)) =
      (s.groups.find? fun h => decide (h.id = id)).map f
    induction s.groups with
    | nil => rfl
    | cons x gs ih =>
      by_cases hid : x.id = id
      · simp [hid, hf]
      · simpa [hid] using ih
  rw [hfind, hs, Option.map_some]

theorem State.group?_wake {s : State} {id : Nat} {g : Group} (hs : s.group? id = some g) :
    s.wake.group? id = some (if g.wait = .blocked then { g with wait := .none } else g) := by
  have hfind : s.wake.group? id = (s.group? id).map fun g => if g.wait = .blocked then { g with wait := .none } else g := by
    show (s.groups.map fun g => if g.wait = .blocked then { g with wait := .none } else g).find? (fun h => decide (h.id = id)) = _
    rw [List.find?_map]
    refine congrArg _ (congrArg (List.find? · s.groups) (funext fun x => ?_))
    simp only [Function.comp_apply]
    split <;> rfl
  rw [hfind, hs, Option.map_some]

/-- A part of a group that does not hold what it waits for. -/
theorem Group.woken_same {β : Type} (π : Group → β) (h : ∀ (g : Group) w, π { g with wait := w } = π g) (g : Group) :
    π (if g.wait = .blocked then { g with wait := .none } else g) = π g := by
  split
  · exact h ..
  · rfl

/-- A running group has nothing to settle. -/
theorem State.settleFault_of_running {s : State} {gid : Nat} {g : Group} (hg : s.group? gid = some g)
    (hr : g.status = .running) : s.settleFault gid = s := by
  simp only [State.settleFault, hg, hr]
  split <;> rfl

theorem State.launch?_onLaunch {s : State} {id : Nat} {l : Launch} (f : Launch → Launch) (hf : ∀ l, (f l).id = l.id)
    (hs : s.launch? id = some l) : (s.onLaunch id f).launch? id = some (f l) := by
  have hfind : (s.onLaunch id f).launch? id = (s.launch? id).map f := by
    show (s.launches.map fun h => if h.id = id then f h else h).find? (fun h => decide (h.id = id)) =
      (s.launches.find? fun h => decide (h.id = id)).map f
    induction s.launches with
    | nil => rfl
    | cons x gs ih =>
      by_cases hid : x.id = id
      · simp [hid, hf]
      · simpa [hid] using ih
  rw [hfind, hs, Option.map_some]

/-- A cause that a running group comes to hold waits for its next instruction boundary (R312). -/
theorem State.asyncCause_of_running {s : State} {gid : Nat} {g : Group} (c : Bool → CauseRec) (hg : s.group? gid = some g)
    (hr : g.status = .running) :
    ∃ f : Group → Group, s.asyncCause gid c = s.onGroup gid f ∧
      (s.onGroup gid f).group? gid = some { g with async := g.async ++ [c g.inHandler] } := by
  let f (g : Group) : Group := { (if g.status = .draining then g.releaseLdq else g) with async := g.async ++ [c g.inHandler] }
  have hid : ∀ g, (f g).id = g.id := fun g => by simp only [f]; split <;> rfl
  have hthis : f g = { g with async := g.async ++ [c g.inHandler] } := by simp [f, hr]
  have hgroup := State.group?_onGroup f hid hg
  exact ⟨f, State.settleFault_of_running hgroup (by rw [hthis, hr]), hthis ▸ hgroup⟩

/-! ### The state in which a CLAIM has landed -/

/-- A group without its registers and queues. -/
def Group.withoutCells (g : Group) : Group := { g with v := [], s := [], q := [] }

theorem Group.landClaim_withoutCells (g : Group) (p : Pending) (base n duals : Nat) (got : List ClaimLane) (lost : Bool) :
    (g.landClaim p base n duals got lost).withoutCells = g.withoutCells :=
  Group.landClaim_same Group.withoutCells (fun _ _ => rfl) (fun _ _ => rfl) (fun _ _ => rfl) g p base n duals got lost

theorem withTans_tan (x : W32) (n : Nat) (f : Nat → W32) {k : Nat} (hk : k < 4) :
    (withTans x n f).tan k = if k < n then f k else 0 := by
  interval_cases k <;> rfl

/-- What a lane receives in its register `j` from an estate, word by word (R212). -/
theorem claimWords_some_words (n duals : Nat) (e : Estate) {j : Nat} (hj : j < n) :
    ((claimWords n duals (some e)).getD j {}).val = e.body.prim.getD j 0 ∧
      ∀ k < 4, ((claimWords n duals (some e)).getD j {}).tan k =
        if j < e.body.prim.length ∧ k < min e.body.tans.length duals then (e.body.tans.getD k []).getD j 0 else 0 := by
  rw [claimWords_some n duals e hj]
  by_cases hlen : j < e.body.prim.length
  · rw [if_pos hlen]
    refine ⟨rfl, fun k hk => ?_⟩
    rw [withTans_tan _ _ _ hk]
    simp only [hlen, true_and]
  · rw [if_neg hlen]
    refine ⟨?_, fun k hk => ?_⟩
    · rw [List.getD_eq_default _ _ (Nat.not_lt.1 hlen)]
    · rw [if_neg fun h => hlen h.1]
      interval_cases k <;> rfl

/-- A status that some lane of the package has. -/
theorem contains_statuses (got : List ClaimLane) (k : Nat) :
    ((got.filter fun c => decide (c.lane < 32)).map (·.st)).contains k = got.any fun c => decide (c.lane < 32 ∧ c.st = k) := by
  rw [Bool.eq_iff_iff]
  simp [and_assoc]

/-- As many estates as lanes that received one. -/
theorem length_filterMap_est (got : List ClaimLane) :
    (got.filterMap (·.est)).length = (got.filter fun c => c.est.isSome).length := by
  rw [List.length_filterMap_eq_countP, List.countP_eq_length_filter]

/-- A launch whose CLAIM has received `k` estates (R213). -/
def Launch.claims (k : Nat) (l : Launch) : Launch := { l with red := { l.red with claimed := l.red.claimed + k } }

/-- The state after a CLAIM whose group it leaves as `g` and which has received `k` estates for a launch. -/
def State.claimed (s : State) (p : Pending) (g : Group) (lid k : Nat) : State :=
  State.dropPend { (s.setGroup g).onLaunch lid (Launch.claims k) with free := s.free + 1 } p.id

section claimed
variable {s : State} {p : Pending} {g h : Group} {lid k : Nat} {l : Launch}

theorem State.claimed_group? (hs : s.group? p.gid = some h) (hg : g.id = p.gid) :
    (s.claimed p g lid k).group? p.gid = some g := by
  have hset := State.group?_setGroup (s := s) (g := g) (hg.symm ▸ hs)
  exact hg ▸ hset

theorem State.claimed_launch? (hl : s.launch? lid = some l) :
    (s.claimed p g lid k).wake.launch? lid = some (Launch.claims k l) := by
  have hon := State.launch?_onLaunch (s := s.setGroup g) (Launch.claims k) (fun _ => rfl) hl
  exact hon

end claimed

/-- A CLAIM whose data has no error lands in every lane. -/
theorem exec_claimLands_eq {s s1 : State} {p : Pending} {g : Group} {t : Team} {l : Launch} {base n : Nat} {got : List ClaimLane}
    (hp : s.pend? p.id = some p) (hk : p.kind = .claim base n got)
    (hs : s.observe p.gid ((got.filterMap (·.est)).flatMap (·.rels)) = some s1) (hg : s1.group? p.gid = some g)
    (hh : s1.home? g = some (t, l)) :
    exec (.claimLands p.id false) s = ((s1.claimed p (g.landClaim p base n l.dualN got false) l.id
      (got.filterMap (·.est)).length).settleFault p.gid).did := by
  rw [exec_claimLands, execClaimLands]
  simp only [hp, hk, Bool.false_eq_true, if_false, List.contains_nil, Bool.not_false, List.filter_true, false_and, hs, hg, hh,
    Option.bind_some]
  rfl

/-- A CLAIM whose data has an error in these lanes lands in the others, and its group faults. -/
theorem exec_claimLands_err {s s1 : State} {p : Pending} {g : Group} {t : Team} {l : Launch} {base n : Nat} {got rest : List ClaimLane}
    {lost : List Nat} (hp : s.pend? p.id = some p) (hk : p.kind = .claim base n got) (hlost : lostLanes s.free got = lost)
    (hne : lost ≠ []) (hrest : got.filter (fun c => !lost.contains c.lane) = rest)
    (hs : s.observe p.gid ((rest.filterMap (·.est)).flatMap (·.rels)) = some s1) (hg : s1.group? p.gid = some g)
    (hh : s1.home? g = some (t, l)) :
    let g' := g.landClaim p base n l.dualN rest true
    let u := s1.claimed p { g' with refill := g'.refill ++ [⟨lost, base, n, p.dst, statusWord (rest.map (·.st))⟩] } l.id
      (rest.filterMap (·.est)).length
    exec (.claimLands p.id true) s = (State.asyncCause { u with
      estates := u.estates ++ (got.filter fun c => lost.contains c.lane).filterMap fun c =>
        c.est.map fun e => { e with level := .discarded 3, lid := t.lid } } p.gid
      fun ih => { p.memErr ih (lost.headD 0) 5 0 with fetch := true }).did := by
  rw [exec_claimLands, execClaimLands]
  simp only [hp, hk, if_true, hlost, hrest, hs, hg, hh, Option.bind_some, true_and, List.isEmpty_iff, hne, if_false]
  rfl

end Sys2Proof.Machine

namespace Sys2Proof.Claims

open Sys2Proof.Machine

/-- The group, team and launch of a producer after performing. -/
theorem home_of_besidesPerforming {s s1 : State} (h : s1.besidesPerforming = s.besidesPerforming) {gid : Nat} {g : Group}
    {t : Team} {l : Launch} (hg : s.group? gid = some g) (ht : s.team? g.team = some t) (hl : s.launch? t.lid = some l) :
    ∃ g1 t1, s1.group? gid = some g1 ∧ g1.unmet = g.unmet ∧ t1.lid = t.lid ∧ s1.home? g1 = some (t1, l) := by
  obtain ⟨g1, hg1, hunmet⟩ := State.group?_of_besidesPerforming h hg
  have hteam : g1.team = g.team := (congrArg Group.team hunmet :)
  obtain ⟨t1, ht1, hbare⟩ := State.team?_of_besidesPerforming h ht
  have hlid : t1.lid = t.lid := (congrArg Team.lid hbare :)
  exact ⟨g1, t1, hg1, hunmet, hlid, by
    simp [State.home?, hteam, ht1, hlid, State.launch?_of_besidesPerforming h, hl]⟩

/-- A free choice picks an element where there is one. -/
theorem pickOne_mem {α : Type} (free key : Nat) : ∀ {xs : List α}, xs ≠ [] → ∃ x ∈ xs, pickOne free key xs = some x
  | [x], _ => ⟨x, List.mem_singleton_self x, rfl⟩
  | x :: y :: zs, _ => by
    have hlt : Config.laneChoice free key % (x :: y :: zs).length < (x :: y :: zs).length := Nat.mod_lt _ (by simp)
    exact ⟨_, List.getElem_mem hlt, List.getElem?_eq_getElem hlt⟩

/-- An error loses the estates of some lanes that received one (R213). -/
theorem lostLanes_spec (free : Nat) (got : List ClaimLane) :
    (∀ lane ∈ lostLanes free got, ∃ c ∈ got, c.lane = lane ∧ c.est.isSome = true) ∧
      ((∃ c ∈ got, c.est.isSome = true) → lostLanes free got ≠ []) := by
  refine ⟨fun lane hlane => ?_, fun ⟨c, hc, hsome⟩ => ?_⟩
  · obtain ⟨c, hc, rfl⟩ := List.mem_map.1 (List.mem_filter.1 hlane).1
    exact ⟨c, (List.mem_filter.1 hc).1, rfl, (List.mem_filter.1 hc).2⟩
  · have hhit : (got.filter fun c => c.est.isSome).map (·.lane) ≠ [] :=
      List.ne_nil_of_mem (List.mem_map_of_mem (List.mem_filter.2 ⟨hc, hsome⟩))
    obtain ⟨lane, hlane, hone⟩ := pickOne_mem free 32 hhit
    exact List.ne_nil_of_mem (List.mem_filter.2 ⟨hlane, by simp [hone]⟩)

theorem claimsLand : ClaimsLand := by
  intro s p g t l base n got hfly hkind ht hl hbase hnd rels
  obtain ⟨hpend, hg, hruns, hfree⟩ := hfly
  refine ⟨fun hb => ⟨_, State.observe_of_not_bears p.gid hb⟩, fun s1 hs1 => ?_, fun hsome hb => ?_⟩
  · have hkeep := State.observe_besidesPerforming hs1
    obtain ⟨g1, t1, hg1, hunmet, hlid, hhome⟩ := home_of_besidesPerforming hkeep hg ht hl
    have hkept := g1.landClaim_withoutCells p base n l.dualN got false
    have hid : (g1.landClaim p base n l.dualN got false).id = p.gid :=
      (congrArg Group.id hkept :).trans (show g1.id = p.gid by simpa using List.find?_some hg1)
    have hrun1 : (g1.landClaim p base n l.dualN got false).status = .running :=
      (congrArg Group.status hkept :).trans ((congrArg Group.status hunmet :).trans hruns)
    have hland := State.claimed_group? (p := p) (lid := l.id) (k := (got.filterMap (·.est)).length) hg1 hid
    have hl1 : s1.launch? l.id = some l := by
      have hlid : l.id = t.lid := by simpa using List.find?_some hl
      rw [hlid, State.launch?_of_besidesPerforming hkeep, hl]
    refine ⟨_, by rw [exec_claimLands_eq hpend hkind hs1 hg1 hhome, State.settleFault_of_running hland hrun1]; rfl, _,
      State.group?_wake hland, ?_, ?_, rfl, ?_, fun c hc hlane => ⟨fun j hj hdst => ?_, fun m hdst => ?_⟩, fun m hdst k hk => ?_⟩
    · exact (Group.woken_same (·.p) (fun _ _ => rfl) _).trans ((congrArg Group.p hkept :).trans (congrArg Group.p hunmet :))
    · exact (Group.woken_same (·.ctl) (fun _ _ => rfl) _).trans ((congrArg Group.ctl hkept :).trans (congrArg Group.ctl hunmet :))
    · rw [State.claimed_launch? hl1, ← length_filterMap_est]
      rfl
    · refine ⟨_, (Group.woken_same (fun g => g.vCell (base + j) c.lane) (fun _ _ => rfl) _).trans
        (Group.landClaim_range hfree hnd hc hlane hbase g1 false hj hdst), fun hno => ?_, fun e he => ?_⟩
      · rw [hno, claimWords_none _ _ hj]
      · rw [he]; exact claimWords_some_words _ _ e hj
    · exact (Group.woken_same (fun g => g.vCell m.toNat c.lane) (fun _ _ => rfl) _).trans
        (Group.landClaim_status hfree hnd hc hlane g1 false hdst)
    · rw [Group.woken_same (fun g => g.sCell m.toNat) (fun _ _ => rfl), Group.landClaim_statusWord hfree _ _ _ _ _ hdst]
      refine ⟨rfl, ?_⟩
      show (statusWord _).getLsbD k = _
      rw [statusWord_getLsbD _ hk, contains_statuses]
  · obtain ⟨hwhich, hnonempty⟩ := lostLanes_spec s.free got
    have hne := hnonempty hsome
    generalize hlost : lostLanes s.free got = lost at hwhich hne
    generalize hrest : got.filter (fun c => !lost.contains c.lane) = rest
    have hsub : ∀ r ∈ (rest.filterMap (·.est)).flatMap (·.rels), r ∈ rels := by
      intro r hr
      obtain ⟨e, he, hr⟩ := List.mem_flatMap.1 hr
      obtain ⟨c, hc, he⟩ := List.mem_filterMap.1 he
      exact List.mem_flatMap.2 ⟨e, List.mem_filterMap.2 ⟨c, (List.mem_filter.1 (hrest ▸ hc)).1, he⟩, hr⟩
    have hs1 := State.observe_of_not_bears p.gid fun r hr => hb r (hsub r hr)
    have hkeep := State.observe_besidesPerforming hs1
    obtain ⟨g1, t1, hg1, hunmet, hlid, hhome⟩ := home_of_besidesPerforming hkeep hg ht hl
    generalize s.take p.gid Rel.sc ((rest.filterMap (·.est)).flatMap (·.rels)) = s1 at hs1 hkeep hg1 hhome
    have hl1 : s1.launch? l.id = some l := by
      have hlid : l.id = t.lid := by simpa using List.find?_some hl
      rw [hlid, State.launch?_of_besidesPerforming hkeep, hl]
    have hstep := exec_claimLands_err hpend hkind hlost hne hrest hs1 hg1 hhome
    have hkept := g1.landClaim_withoutCells p base n l.dualN rest true
    extract_lets g2 u at hstep
    have hid : g2.id = p.gid := (congrArg Group.id hkept :).trans (show g1.id = p.gid by simpa using List.find?_some hg1)
    have hrun2 : g2.status = .running :=
      (congrArg Group.status hkept :).trans ((congrArg Group.status hunmet :).trans hruns)
    have hasync : g2.async = g.async := (congrArg Group.async hkept :).trans (congrArg Group.async hunmet :)
    have hland : u.group? p.gid = some { g2 with
        refill := g2.refill ++ [⟨lost, base, n, p.dst, statusWord (rest.map (·.st))⟩] } := State.claimed_group? hg1 hid
    have hlaunch : u.wake.launch? l.id = some (Launch.claims (rest.filterMap (·.est)).length l) := State.claimed_launch? hl1
    clear_value u g2
    obtain ⟨f, hasyncCause, hgroup⟩ := State.asyncCause_of_running (s := { u with
      estates := u.estates ++ (got.filter fun c => lost.contains c.lane).filterMap fun c =>
        c.est.map fun e => { e with level := .discarded 3, lid := t1.lid } })
      (fun ih => { p.memErr ih (lost.headD 0) 5 0 with fetch := true }) hland hrun2
    rw [hasyncCause] at hstep
    refine ⟨_, hstep, lost, hne, hwhich, fun c hc hlane e he => ?_, ?_, _,
      { p.memErr g2.inHandler (lost.headD 0) 5 0 with fetch := true }, State.group?_wake hgroup, ?_, rfl, ?_, rfl⟩
    · refine List.mem_append_right _ (List.mem_filterMap.2 ⟨c, List.mem_filter.2 ⟨hc, by simpa using hlane⟩, ?_⟩)
      rw [he, Option.map_some, hlid]
    · refine (congrArg (Option.map fun l => l.red.claimed) hlaunch).trans ?_
      rw [Option.map_some, length_filterMap_est, ← hrest, List.filter_filter]
      rfl
    · rw [Group.woken_same (·.async) (fun _ _ => rfl), hasync]
    · obtain ⟨lane, lanes, rfl⟩ := List.exists_cons_of_ne_nil hne
      exact List.mem_cons_self

/-- Settles O54: what the lanes consume by induction on the lanes, the issue through the body of CLAIM, and the landings
through what performing the makes leaves alone. -/
theorem estatesAreClaimed : Obligations.EstatesAreClaimed := ⟨claimIssues, claimsConsumeOnce, claimsLand⟩

end Sys2Proof.Claims
end

section
/-! PROOFS. A step fetches, decodes and runs; the group that it picks goes first of its pipe (spec/01 R21, R23, R35; spec/09
R190 to R192). -/

namespace Sys2Proof.Machine

/-! ### The group that goes first -/

theorem State.issuesBefore_eq_true {s : State} {h g : Group} : s.issuesBefore h g = true ↔
    s.overdue h = true ∧ (s.overdue g = false ∨ h.lastIssue < g.lastIssue) ∨
    s.overdue h = false ∧ s.overdue g = false ∧
      (s.prioOf g < s.prioOf h ∨ s.prioOf h = s.prioOf g ∧ h.lastIssue < g.lastIssue) := by
  cases hh : s.overdue h <;> cases hg : s.overdue g <;> simp [issuesBefore, hh, hg]

theorem State.issuesBefore_irrefl (s : State) (g : Group) : ¬ s.issuesBefore g g = true := by
  rw [issuesBefore_eq_true]
  rintro (⟨hg, hlate | hlt⟩ | ⟨-, -, hlt | ⟨-, hlt⟩⟩)
  · simp [hg] at hlate
  all_goals exact absurd hlt (lt_irrefl _)

theorem State.issuesBefore_trans {s : State} {a b c : Group} (hab : s.issuesBefore a b = true) (hbc : s.issuesBefore b c = true) :
    s.issuesBefore a c = true := by
  rw [issuesBefore_eq_true] at *
  rcases hab with ⟨ha, hlate⟩ | ⟨ha, hb, hab⟩
  · rcases hbc with ⟨hb, hc | hbc⟩ | ⟨-, hc, -⟩
    · exact .inl ⟨ha, .inl hc⟩
    · have hab := hlate.resolve_left (by simp [hb])
      exact .inl ⟨ha, .inr (hab.trans hbc)⟩
    · exact .inl ⟨ha, .inl hc⟩
  · rcases hbc with ⟨hlate, -⟩ | ⟨-, hc, hbc⟩
    · simp [hb] at hlate
    · exact .inr ⟨ha, hc, by omega⟩

theorem State.mayIssue_eq_true {s : State} {g : Group} : s.mayIssue g = true ↔ s.ready g = true ∧
    ∀ h ∈ s.groups, s.ready h = true → s.pipeOf h = s.pipeOf g → ¬ s.issuesBefore h g = true := by
  rw [mayIssue, Bool.and_eq_true, List.all_eq_true]
  refine and_congr_right fun _ => forall₂_congr fun h _ => ?_
  simp only [Bool.not_eq_true', ← Bool.not_eq_true, Bool.and_eq_true, beq_iff_eq, not_and]
  exact ⟨fun hn hr hp => hn ⟨hr, hp⟩, fun hn hrp => hn hrp.1 hrp.2⟩

/-- Of the ready groups of a pipe one may issue: they are finitely many, and going first has no cycle. -/
theorem State.exists_mayIssue {s : State} {h : Group} (hh : h ∈ s.groups) (hready : s.ready h = true) :
    ∃ g ∈ s.groups, s.mayIssue g = true := by
  let rivals : Set {g : Group // g ∈ s.groups} := {g | s.ready g = true ∧ s.pipeOf g = s.pipeOf h}
  have : Finite {g : Group // g ∈ s.groups} := List.finite_toSet s.groups
  have : IsTrans {g : Group // g ∈ s.groups} fun a b => s.issuesBefore a b = true :=
    ⟨fun _ _ _ => State.issuesBefore_trans⟩
  have : Std.Irrefl fun a b : {g : Group // g ∈ s.groups} => s.issuesBefore a b = true :=
    ⟨fun a => s.issuesBefore_irrefl a⟩
  obtain ⟨⟨g, hg⟩, ⟨hr, hp⟩, hmin⟩ := (Finite.wellFounded_of_trans_of_irrefl
    fun a b : {g : Group // g ∈ s.groups} => s.issuesBefore a b = true).has_min rivals ⟨⟨h, hh⟩, hready, rfl⟩
  exact ⟨g, hg, State.mayIssue_eq_true.2 ⟨hr, fun x hx hxr hxp => hmin ⟨x, hx⟩ ⟨hxr, hxp.trans hp⟩⟩⟩

theorem longestWait_mem {gs : List Group} {g : Group} (h : longestWait gs = some g) : g ∈ gs := by
  induction gs generalizing g with
  | nil => cases h
  | cons x gs ih =>
    rw [longestWait] at h
    split at h
    · cases h; exact List.mem_cons_self
    next y hy =>
      split at h
      · cases h; exact List.mem_cons_self
      · cases h; exact List.mem_cons_of_mem _ (ih hy)

theorem longestWait_eq_none {gs : List Group} (h : longestWait gs = none) : gs = [] := by
  cases gs with
  | nil => rfl
  | cons x gs =>
    rw [longestWait] at h
    split at h
    · cases h
    · split at h <;> cases h

/-! ### Fetching the units at the program counter -/

theorem State.group?_of_issuer {s : State} {g : Group} {t : Team} {l : Launch} {c : Ctx} (h : s.issuer = some (g, t, l, c)) :
    s.group? s.cur = some g := by
  simp only [issuer, Option.bind_eq_bind, Option.bind_eq_some_iff, Option.some.injEq, Prod.mk.injEq] at h
  obtain ⟨g', hg, t', -, l', -, c', -, rfl, -⟩ := h
  exact hg

/-- The decoder does not read past a word without a prefix. -/
theorem decode_fetched (u v w : W32) : decode (if isPrefixUnit u then [u, v, w] else [u, v]) = decode [u, v, w] := by
  split
  · rfl
  next hu => simp only [decode, hu, Bool.false_eq_true, if_false]

section Fetched
variable {s : State} {gid : Nat} {err : Bool} {g : Group} {t : Team} {l : Launch} {c : Ctx} {us : List W32}
  (hfound : State.issuer { s with cur := gid, ecc := err } = some (g, t, l, c)) (hmay : s.mayIssue g = true)
  (hquiet : g.async = []) (hfetch : State.fetch { s with cur := gid, ecc := err } g t l c = .got us)
include hfound hmay hquiet hfetch

theorem issueGroup_of_decode {i : Instr} (hi : decode us = .ok i) :
    issueGroup s gid err = exec i { s with cur := gid, ecc := err } := by
  have hg : s.group? gid = some g := State.group?_of_issuer hfound
  have hissuer : State.issuer { s with cur := gid } = some (g, t, l, c) := hfound
  simp only [issueGroup, hg, hmay, hquiet, hissuer, hfetch, hi, Bool.not_true, Bool.false_eq_true, if_false, List.isEmpty_nil]

theorem issueGroup_of_illegal {e : DecodeErr} (he : decode us = .error e) :
    issueGroup s gid err = .next (State.raise { s with cur := gid, ecc := err } g c.debugStop
      { code := 0x01, lane := firstLane (g.illegalMask us) } (g.illegalMask us)) := by
  have hg : s.group? gid = some g := State.group?_of_issuer hfound
  have hissuer : State.issuer { s with cur := gid } = some (g, t, l, c) := hfound
  simp only [issueGroup, hg, hmay, hquiet, hissuer, hfetch, he, Bool.not_true, Bool.false_eq_true, if_false, List.isEmpty_nil]

end Fetched

/-! ### Entering the handler of a trap -/

theorem State.dropClaims_groups (s : State) (gid : Nat) : (s.dropClaims gid).groups = s.groups := by
  unfold dropClaims
  split <;> rfl

theorem State.dropClaims_rest (s : State) (gid : Nat) : { s.dropClaims gid with cores := [] } = { s with cores := [] } := by
  unfold dropClaims
  split <;> rfl

theorem State.coreSt_dropClaims (s : State) (gid k : Nat) :
    { (s.dropClaims gid).coreSt k with claims := [] } = { s.coreSt k with claims := [] } := by
  unfold dropClaims
  split
  · rfl
  next t _ =>
    by_cases hk : k = coreKey t.die t.core
    · simp only [hk, coreSt, onCore, setCore, look_keep_self]
    · simp only [coreSt, onCore, setCore, look_keep_other _ _ _ hk]

@[simp] theorem enterTrap_id (g : Group) (code : BitVec 8) (pc hmask : W32) : (enterTrap g code pc hmask).id = g.id := rfl

theorem State.raise_of_trap {s : State} {g : Group} {debug : Bool} {c : CauseRec} {hmask : W32}
    (htrap : isTrapCause c.code = true) (hcode : c.code ≠ 0x41) (htvec : g.tvec ≠ 0) (hout : g.inHandler = false) :
    s.raise g debug c hmask =
      (((s.setGroup { g with walked := [] }).dropClaims g.id).wake).setGroup (enterTrap g c.code g.pc32 hmask) := by
  simp only [raise, htrap, hcode, htvec, hout, Bool.false_eq_true, or_self, false_and, if_true, if_false]

/-- A trap outside a handler, with a handler set, enters it (R313). -/
theorem trapTaken_raise {s : State} {g : Group} {debug : Bool} {c : CauseRec} {hmask : W32} (htrap : isTrapCause c.code = true)
    (hcode : c.code ≠ 0x41) (htvec : g.tvec ≠ 0) (hout : g.inHandler = false) :
    TrapTaken s (s.raise g debug c hmask) g c.code hmask := by
  rw [State.raise_of_trap htrap hcode htvec hout]
  refine ⟨?_, ?_, fun k => ?_⟩
  · simp only [State.setGroup, State.wake, State.dropClaims_groups, List.map_map]
    refine List.map_congr_left fun h _ => ?_
    by_cases hid : h.id = g.id
    · simp only [Function.comp_apply, enterTrap_id, hid, if_true, apply_ite Group.id, ite_self]
      rfl
    · simp only [Function.comp_apply, enterTrap_id, hid, if_false, apply_ite Group.id, ite_self]
  · simp only [State.setGroup, State.wake]
    exact congrArg (fun t : State => { t with groups := [], cores := [] }) (State.dropClaims_rest _ _)
  · exact State.coreSt_dropClaims _ _ _

end Sys2Proof.Machine

namespace Sys2Proof.Claims
open Machine

theorem FetchesWords.fetchUnit {s : State} {g : Group} {t : Team} {l : Launch} {c : Ctx} {word : Nat → W32}
    (h : FetchesWords s g t l c word) {k : Nat} (hk : k < 3) :
    s.fetchUnit g t c ((g.fetchVa l + 4 * k) % 2 ^ 64) = .got [word k] := by
  obtain ⟨pa, hwindow, hpa, hfence, hline, hword⟩ := h.mapped k hk
  rw [hword]
  simp only [State.fetchUnit, Group.fetchVa, hwindow, hpa, hfence, hline, Bool.false_eq_true, if_false, if_true]

theorem FetchesWords.fetchUnits {s : State} {g : Group} {t : Team} {l : Launch} {c : Ctx} {word : Nat → W32}
    (h : FetchesWords s g t l c word) : ∀ {n k : Nat}, k + n ≤ 3 →
    s.fetchUnits g t c n ((g.fetchVa l + 4 * k) % 2 ^ 64) = .got ((List.range' k n).map word)
  | 0, k, _ => rfl
  | n + 1, k, hk => by
    have hnext : ((g.fetchVa l + 4 * k) % 2 ^ 64 + 4) % 2 ^ 64 = (g.fetchVa l + 4 * (k + 1)) % 2 ^ 64 := by omega
    simp only [State.fetchUnits, h.fetchUnit (by omega : k < 3), hnext, h.fetchUnits (by omega : k + 1 + n ≤ 3)]
    rfl

/-- Three units are fetched where the first is a prefix, else two (R23). -/
theorem FetchesWords.fetch {s : State} {g : Group} {t : Team} {l : Launch} {c : Ctx} {word : Nat → W32}
    (h : FetchesWords s g t l c word) :
    s.fetch g t l c = .got (if isPrefixUnit (word 0) then [word 0, word 1, word 2] else [word 0, word 1]) := by
  have hstart : g.fetchVa l = (g.fetchVa l + 4 * 0) % 2 ^ 64 := by simp [Group.fetchVa]
  have hfirst : s.fetchUnits g t c 1 (g.fetchVa l) = .got [word 0] := by rw [hstart]; exact h.fetchUnits (by omega)
  simp only [State.fetch, hfirst, List.any_cons, List.any_nil, Bool.or_false]
  split
  · rw [hstart]; exact h.fetchUnits (by omega)
  · rw [hstart]; exact h.fetchUnits (by omega)

theorem stepsRunDecodedInstructions : StepsRunDecodedInstructions := by
  refine ⟨?_, fun s rest i hagenda hi => ?_, fun s rest i hagenda hi => ?_⟩
  · intro s rest gid err g t l c word hagenda u hfetches hgid units
    have hstep : step s = settle (issueGroup (turnState s rest) gid err) := by
      simp only [step, hagenda]
      rfl
    refine ⟨fun i hi => ?_, fun e he htvec hout => ⟨_, hstep.trans (congrArg settle (issueGroup_of_illegal hfetches.found
      hfetches.first hfetches.quiet hfetches.fetch ((decode_fetched _ _ _).trans he))), ?_⟩⟩
    · exact hstep.trans (congrArg settle (issueGroup_of_decode hfetches.found hfetches.first hfetches.quiet hfetches.fetch
        ((decode_fetched _ _ _).trans hi)))
    · exact trapTaken_raise rfl (show (0x01 : BitVec 8) ≠ 0x41 by decide) htvec hout
  · simp only [step, hagenda, runTurn, hi]
    rfl
  · simp only [step, hagenda, runTurn, hi]
    rfl

theorem readyGroupsArePicked : ReadyGroupsArePicked := by
  refine fun s => ⟨fun hnone h hh => ?_, fun g hg => ?_⟩
  · have hempty := longestWait_eq_none hnone
    by_contra hready
    obtain ⟨g, hg, hmay⟩ := State.exists_mayIssue hh (by simpa using hready)
    simpa [hempty] using List.mem_filter.2 ⟨hg, hmay⟩
  · obtain ⟨hmem, hmay⟩ := List.mem_filter.1 (longestWait_mem hg)
    obtain ⟨hready, hfirst⟩ := State.mayIssue_eq_true.1 hmay
    refine ⟨hmem, hready, fun h hh hr hpipe => ?_⟩
    have hnot := hfirst h hh hr hpipe
    rw [State.issuesBefore_eq_true] at hnot
    push Not at hnot
    obtain ⟨hlate, hprio⟩ := hnot
    refine ⟨fun hover => ?_, fun hover => ?_⟩
    · simpa using hlate hover
    · have hover' : s.overdue h = false := by
        by_contra hc
        exact (hlate (by simpa using hc)).1 hover
      exact hprio hover' hover

/-- Settles O30: the fetch finds the units that are decoded, an illegal word enters the handler, and of the ready groups of a
pipe one that nothing goes before exists. -/
theorem stepRunsDecodedInstruction : Obligations.StepRunsDecodedInstruction :=
  ⟨stepsRunDecodedInstructions, readyGroupsArePicked⟩

end Sys2Proof.Claims
end

section
/-! PROOFS. Integer arithmetic, logic and shifts (spec/04 R81 to R84; spec/03 R65, R75). -/

namespace Sys2Proof.Claims

open Sys2Proof.Machine

/-! ### Instructions that write one word -/

section forms
variable {ins : Instr} {w : FmtA}

/-- An instruction of format A that writes one word does what its function of the source words says. -/
theorem does_alu {srcs : List Src} {f : List W32 → W32} {out : List Datum → LaneOut} (he : ∀ s, exec ins s = alu w srcs f s)
    (hf : ∀ ds, ds.length = srcs.length → one (f (words srcs ds)) = out ds) :
    Does ins 8 w.g w.u (srcs.map Src.field) [w.d] fun _ _ ds => out ds :=
  does_apply (f := fun _ _ ds => one (f (words srcs ds))) he (fun _ => rfl) fun _ _ => hf _ (by simp [reads_length])

theorem word1_of_alu {f : List W32 → W32} {f' : W32 → W32} (he : ∀ s, exec ins s = alu w [w.a] f s)
    (hf : ∀ a, f [a] = f' a) : Word1 ins w f' :=
  does_alu he fun
    | [x], _ => congrArg one (hf (modify w.a.sel x.val))

theorem word2_of_alu {f : List W32 → W32} {f' : W32 → W32 → W32} (he : ∀ s, exec ins s = alu w [w.a, w.b] f s)
    (hf : ∀ a b, f [a, b] = f' a b) : Word2 ins w f' :=
  does_alu he fun
    | [x, y], _ => congrArg one (hf (modify w.a.sel x.val) (modify w.b.sel y.val))

theorem word3_of_alu {f : List W32 → W32} {f' : W32 → W32 → W32 → W32} (he : ∀ s, exec ins s = alu w [w.a, w.b, w.c] f s)
    (hf : ∀ a b c, f [a, b, c] = f' a b c) : Word3 ins w f' :=
  does_alu he fun
    | [x, y, z], _ => congrArg one (hf (modify w.a.sel x.val) (modify w.b.sel y.val) (modify w.c.sel z.val))

theorem wordI_of_aluImm {w : FmtB} {f f' : W32 → W32 → W32} (he : ∀ s, exec ins s = aluImm w f s)
    (hf : ∀ a, f a w.imm = f' a w.imm) : WordI ins w f' :=
  does_apply (f := fun _ _ ds => one (f (ds.headD {}).val w.imm)) he (fun _ => rfl) fun i l => by
    rw [hf]; cases i.g.reads _ l <;> rfl

end forms

/-! ### Results -/

/-- A word is the low 32 bits of its number. -/
theorem word_num (uns : Bool) (x : W32) : word (num uns x) = x := by
  cases uns
  · exact BitVec.ofInt_toInt
  · exact (BitVec.ofInt_natCast ..).trans (BitVec.ofNat_toNat ..)

/-- Clamping between two limits, case by case. -/
theorem clamp_eq {lo hi x : Int} (h : lo ≤ hi) : max lo (min hi x) = if x < lo then lo else if hi < x then hi else x := by
  split_ifs <;> omega

theorem satWord_eq_fit (sat uns : Bool) (x : Int) : satWord sat uns x = fit sat uns x := by
  unfold satWord fit word
  cases sat <;> cases uns <;> simp [clamp_eq]

theorem mulWord_low {fn : BitVec 4} (fl : BitVec 3) (a b : W32) (h : fn = 0) :
    mulWord fn fl a b = fit (fl.getLsbD 1) (fl.getLsbD 0) (num (fl.getLsbD 0) a * num (fl.getLsbD 0) b) := by
  rw [mulWord, if_pos h, satWord_eq_fit]; rfl

theorem mulWord_high {fn : BitVec 4} (fl : BitVec 3) (a b : W32) (h : fn = 1) :
    mulWord fn fl a b = BitVec.ofInt 32 ((num (fl.getLsbD 0) a * num (fl.getLsbD 0) b) / 2 ^ 32) := by
  rw [mulWord, if_neg (by simp [h])]; rfl

theorem madWord_low {fn : BitVec 4} (fl : BitVec 3) (a b c : W32) (h : fn = 0) :
    madWord fn fl a b c =
      fit (fl.getLsbD 1) (fl.getLsbD 0) (num (fl.getLsbD 0) a * num (fl.getLsbD 0) b + num (fl.getLsbD 0) c) := by
  rw [madWord, if_pos h, satWord_eq_fit]; rfl

theorem madWord_high {fn : BitVec 4} (fl : BitVec 3) (a b c : W32) (h : fn = 1) :
    madWord fn fl a b c =
      BitVec.ofInt 32 ((num (fl.getLsbD 0) a * num (fl.getLsbD 0) b) / 2 ^ 32 + num (fl.getLsbD 0) c) := by
  rw [madWord, if_neg (by simp [h])]; rfl

theorem word_min_num (uns : Bool) (a b : W32) :
    word (min (num uns a) (num uns b)) = if num uns a ≤ num uns b then a else b := by
  rw [min_def]; split <;> exact word_num ..

theorem word_max_num (uns : Bool) (a b : W32) :
    word (max (num uns a) (num uns b)) = if num uns a ≤ num uns b then b else a := by
  rw [max_def]; split <;> exact word_num ..

/-- R82: the magnitude, of which only that of 0x8000_0000 is no signed word. -/
theorem satWord_natAbs (sat : Bool) (a : W32) :
    satWord sat false a.toInt.natAbs =
      if sat = true ∧ a = 0x80000000 then 0x7FFFFFFF else if a.msb then -a else a := by
  have hword : word a.toInt.natAbs = if a.msb then -a else a := by
    refine BitVec.eq_of_toNat_eq ?_
    rw [← BitVec.abs_eq, word, BitVec.ofInt_natCast, BitVec.toNat_abs, BitVec.toNat_ofNat, BitVec.toInt_eq_msb_cond,
      BitVec.msb_eq_decide]
    simp only [decide_eq_true_eq, Nat.reduceSub, Nat.reducePow, Nat.cast_ofNat]
    have := a.isLt
    split <;> omega
  have hlt : a ≠ 0x80000000 → a.toInt.natAbs < 2 ^ 31 := by
    intro hne
    have : a.toInt ≠ (0x80000000 : W32).toInt := fun h => hne (BitVec.eq_of_toInt_eq h)
    have : a.toInt ≠ -2 ^ 31 := this
    have := BitVec.toInt_lt (x := a); have := BitVec.le_toInt a
    omega
  cases sat
  · simpa [satWord] using hword
  · by_cases ha : a = 0x80000000
    · subst ha; rfl
    · have := hlt ha
      rw [if_neg fun h => ha h.2, ← hword, satWord_eq_fit]
      simp only [fit, if_true, Bool.false_eq_true, if_false, word]
      rw [if_neg (by omega), if_neg (by omega)]

theorem and_satBit (fl : BitVec 3) : (fl &&& satBit == 0) = !fl.getLsbD 1 := by
  revert fl; decide

theorem mulWf_of_sat_high {w : FmtA} (n : Nat) (hsat : w.fl.getLsbD 1 = true) (hfn : w.fn = 1) : mulWf w n = false := by
  rw [mulWf, and_satBit, hsat, hfn]; simp

theorem integerArithmetic : IntegerArithmetic := by
  refine fun w => ⟨?_, ?_, fun w => ?_, fun hfn => ?_, fun hfn => ?_, fun hfn => ?_, fun hfn => ?_, fun hsat hfn => ?_, ?_, ?_, ?_⟩
  · exact word2_of_alu (exec_iadd · w) fun _ _ => satWord_eq_fit ..
  · exact word2_of_alu (exec_isub · w) fun _ _ => satWord_eq_fit ..
  · exact wordI_of_aluImm (exec_iaddi · w) fun _ => rfl
  · exact word2_of_alu (exec_imul · w) fun a b => mulWord_low w.fl a b hfn
  · exact word2_of_alu (exec_imul · w) fun a b => mulWord_high w.fl a b hfn
  · exact word3_of_alu (exec_imad · w) fun a b c => madWord_low w.fl a b c hfn
  · exact word3_of_alu (exec_imad · w) fun a b c => madWord_high w.fl a b c hfn
  · exact ⟨mulWf_of_sat_high 2 hsat hfn, mulWf_of_sat_high 3 hsat hfn⟩
  · exact word2_of_alu (exec_imin · w) fun a b => word_min_num _ a b
  · exact word2_of_alu (exec_imax · w) fun a b => word_max_num _ a b
  · exact word1_of_alu (exec_iabs · w) fun a => satWord_natAbs _ a

/-! ### Logic and shifts -/

/-- A word with given bits is the word of its bits. -/
theorem eq_ofBits {x : W32} {f : Nat → Bool} (h : ∀ k < 32, x.getLsbD k = f k) : x = ofBits f := by
  refine BitVec.eq_of_getLsbD_eq fun k hk => ?_
  rw [h k hk, ofBits, BitVec.getLsbD_ofNat, Nat.testBit_ofBits_lt _ _ hk]
  simp [hk]

theorem sarWord_eq_ofBits (a n : W32) :
    sarWord a n = ofBits fun k => if k + n.toNat < 32 then a.getLsbD (k + n.toNat) else a.msb := by
  refine eq_ofBits fun k hk => ?_
  rw [sarWord, BitVec.getLsbD_sshiftRight, Nat.add_comm]
  by_cases h : k + n.toNat < 32
  · rw [Nat.min_eq_left (by omega)]
    simp [h, hk]
  · have : ¬ k + min n.toNat 32 < 32 := by omega
    simp [h, hk, this]

theorem rotlWord_eq_ofBits (a n : W32) : rotlWord a n = ofBits fun k => a.getLsbD ((k + 32 - n.toNat % 32) % 32) := by
  refine eq_ofBits fun k hk => ?_
  rw [rotlWord, BitVec.getLsbD_rotateLeft, Nat.mod_mod]
  have hr : n.toNat % 32 < 32 := Nat.mod_lt _ (by decide)
  by_cases h : k < n.toNat % 32
  · rw [decide_eq_true h, cond_true]
    congr 1; omega
  · rw [decide_eq_false h, cond_false, decide_eq_true hk, Bool.true_and]
    congr 1; omega

theorem shlWord_eq (a n : W32) : shlWord a n = if 32 ≤ n.toNat then 0 else a <<< n.toNat := by
  simp only [shlWord, ← Nat.not_le, ite_not]

theorem shrWord_eq (a n : W32) : shrWord a n = if 32 ≤ n.toNat then 0 else a >>> n.toNat := by
  simp only [shrWord, ← Nat.not_le, ite_not]

/-- R84: a literal amount above 31 is no encoding of a shift. -/
theorem shift_wf {w : FmtB} (h : 31 < w.imm.toNat) : (w.plain && decide (w.imm.toNat ≤ 31)) = false := by
  rw [decide_eq_false (by omega), Bool.and_false]

theorem logicAndShifts : LogicAndShifts := by
  refine ⟨fun w => ⟨?_, ?_, ?_, ?_, ?_, ?_, ?_, ?_⟩, fun w => ⟨?_, ?_, ?_, ?_, ?_, ?_, ?_⟩⟩
  · exact word2_of_alu (exec_andL · w) fun _ _ => rfl
  · exact word2_of_alu (exec_orL · w) fun _ _ => rfl
  · exact word2_of_alu (exec_xorL · w) fun _ _ => rfl
  · exact word2_of_alu (exec_andn · w) fun _ _ => rfl
  · exact word2_of_alu (exec_shl · w) fun a n => shlWord_eq a n
  · exact word2_of_alu (exec_shr · w) fun a n => shrWord_eq a n
  · exact word2_of_alu (exec_sar · w) fun a n => sarWord_eq_ofBits a n
  · exact word2_of_alu (exec_rotl · w) fun a n => rotlWord_eq_ofBits a n
  · exact wordI_of_aluImm (exec_andi · w) fun _ => rfl
  · exact wordI_of_aluImm (exec_ori · w) fun _ => rfl
  · exact wordI_of_aluImm (exec_xori · w) fun _ => rfl
  · exact wordI_of_aluImm (exec_shli · w) fun a => shlWord_eq a _
  · exact wordI_of_aluImm (exec_shri · w) fun a => shrWord_eq a _
  · exact wordI_of_aluImm (exec_sari · w) fun a => sarWord_eq_ofBits a _
  · exact fun h => ⟨shift_wf h, shift_wf h, shift_wf h⟩

/-- Settles O38: each instruction writes one word, and its function of the source words is that of Tables 4.3 and 4.4. -/
theorem integerInstructions : Obligations.IntegerInstructions := ⟨integerArithmetic, logicAndShifts⟩

end Sys2Proof.Claims
end

section
/-! PROOFS. Bit fields, counts, compares and moves (spec/04 R85 to R87). -/

namespace Sys2Proof.Claims

open Sys2Proof.Machine

/-! ### Bit fields and counts -/

theorem reverse_eq_ofBits (a : W32) : a.reverse = ofBits fun k => a.getLsbD (31 - k) :=
  eq_ofBits fun k hk => by rw [BitVec.getLsbD_reverse, BitVec.getMsbD_eq_getLsbD, decide_eq_true hk]; rfl

/-- The leading zeros of a number below 2^n. -/
theorem length_takeWhile_zeros (x : Nat) : ∀ n, x < 2 ^ n →
    ((List.range n).reverse.takeWhile fun k => !x.testBit k).length = if x = 0 then n else n - 1 - x.log2
  | 0, h => by simp at h ⊢
  | n + 1, h => by
    rw [List.range_succ, List.reverse_append, List.reverse_singleton, List.singleton_append, List.takeWhile_cons]
    by_cases hlt : x < 2 ^ n
    · have hlog : x ≠ 0 → x.log2 < n := fun h0 => (Nat.log2_lt h0).2 hlt
      rw [Nat.testBit_lt_two_pow hlt, Bool.not_false, if_pos rfl, List.length_cons, length_takeWhile_zeros x n hlt]
      split_ifs with h0
      · rfl
      · have := hlog h0; omega
    · have h0 : x ≠ 0 := by rintro rfl; exact hlt (by simp)
      have hlog : x.log2 = n := (Nat.log2_eq_iff h0).2 ⟨by omega, h⟩
      have hbit : x.testBit n = true := hlog ▸ Nat.testBit_log2 h0
      simp [hbit, h0, hlog]

theorem clzWord_eq (a : W32) :
    clzWord a = BitVec.ofNat 32 ((List.range 32).reverse.takeWhile fun k => !a.getLsbD k).length := by
  have hzero : a = 0 ↔ a.toNat = 0 := ⟨fun h => by simp [h], fun h => BitVec.eq_of_toNat_eq h⟩
  have := length_takeWhile_zeros a.toNat 32 a.isLt
  simp only [clzWord, hzero, BitVec.getLsbD]
  rw [this]

theorem signed_eq_toInt {n : Nat} (hn : 0 < n) (x : Nat) : signed n x = (BitVec.ofNat n x).toInt := by
  have hpow : 2 ^ n = 2 * 2 ^ (n - 1) := by rw [← Nat.pow_succ', Nat.succ_eq_add_one, Nat.sub_add_cancel hn]
  have hhalf : x % 2 ^ n < 2 ^ (n - 1) ↔ 2 * (x % 2 ^ n) < 2 ^ n := by omega
  rw [BitVec.toInt_eq_toNat_cond, BitVec.toNat_ofNat, signed, if_congr hhalf rfl rfl]
  push_cast
  rfl

theorem testBit_bitsOf (x lo n k : Nat) : (bitsOf x lo n).testBit k = (decide (k < n) && x.testBit (lo + k)) := by
  rw [bitsOf, Nat.testBit_mod_two_pow, Nat.testBit_shiftRight]

theorem bfeWord_eq_ofBits (uns : Bool) (a b : W32) :
    bfeWord uns a b = ofBits fun k =>
      if k < (fieldOf b).2 then a.getLsbD ((fieldOf b).1 + k)
      else !uns && decide (0 < (fieldOf b).2) && a.getLsbD ((fieldOf b).1 + (fieldOf b).2 - 1) := by
  generalize hf : fieldOf b = pw
  obtain ⟨pos, wid⟩ := pw
  refine eq_ofBits fun k hk => ?_
  have hbit (j : Nat) : a.toNat.testBit j = a.getLsbD j := rfl
  simp only [bfeWord, hf]
  by_cases h0 : wid = 0
  · simp [h0]
  have hpos : 0 < wid := Nat.pos_of_ne_zero h0
  rw [if_neg h0]
  cases uns
  · rw [if_neg (by simp), word, signed_eq_toInt hpos]
    show ((BitVec.ofNat wid (bitsOf a.toNat pos wid)).signExtend 32).getLsbD k = _
    have hlast : wid - 1 < wid := by omega
    rw [BitVec.getLsbD_signExtend, BitVec.msb_eq_getLsbD_last, BitVec.getLsbD_ofNat, BitVec.getLsbD_ofNat, testBit_bitsOf,
      testBit_bitsOf, Nat.add_sub_assoc hpos]
    by_cases h : k < wid <;> simp [hk, hpos, hlast, hbit, h]
  · rw [if_pos rfl, BitVec.getLsbD_ofNat, testBit_bitsOf, hbit]
    by_cases h : k < wid <;> simp [hk, h]

theorem bfiWord_eq_ofBits (a b c : W32) :
    bfiWord a b c = ofBits fun k =>
      if (fieldOf b).1 ≤ k ∧ k < (fieldOf b).1 + (fieldOf b).2 then a.getLsbD (k - (fieldOf b).1) else c.getLsbD k := by
  generalize hf : fieldOf b = pw
  obtain ⟨pos, wid⟩ := pw
  refine eq_ofBits fun k hk => ?_
  have hmask : (BitVec.ofNat 32 ((2 ^ wid - 1) * 2 ^ pos)).getLsbD k = decide (pos ≤ k ∧ k < pos + wid) := by
    rw [BitVec.getLsbD_ofNat, Nat.testBit_mul_two_pow, Nat.testBit_two_pow_sub_one, decide_eq_true hk, Bool.true_and,
      ← Bool.decide_and]
    exact decide_eq_decide.2 (by omega)
  simp only [bfiWord, hf, BitVec.getLsbD_or, BitVec.getLsbD_and, BitVec.getLsbD_not, hmask, BitVec.getLsbD_shiftLeft]
  by_cases h : pos ≤ k ∧ k < pos + wid
  · simp [h, hk]
  · simp [h, hk]

theorem bitFieldsAndCounts : BitFieldsAndCounts := by
  refine fun w => ⟨?_, ?_, ?_, ?_, ?_⟩
  · exact word2_of_alu (exec_bfe · w) fun a b => bfeWord_eq_ofBits _ a b
  · exact word3_of_alu (exec_bfi · w) fun a b c => bfiWord_eq_ofBits a b c
  · exact word1_of_alu (exec_popc · w) fun _ => rfl
  · exact word1_of_alu (exec_clz · w) fun a => clzWord_eq a
  · exact word1_of_alu (exec_brev · w) fun a => reverse_eq_ofBits a

/-! ### Compares and moves -/

/-- The relations of Table 1.16, in order. -/
theorem relates_eq {fn : Nat} (hfn : fn < 6) (a b : Int) :
    relates fn a b = [decide (a = b), decide (a ≠ b), decide (a < b), decide (a ≤ b), decide (a > b),
      decide (a ≥ b)].getD fn false := by
  match fn, hfn with
  | 0, _ | 1, _ | 2, _ | 3, _ | 4, _ | 5, _ => rfl

/-- The four relations of ICMPI. -/
theorem relatesImm_eq {fn : Nat} (hfn : fn < 4) (a b : Int) :
    relatesImm fn a b = [decide (a = b), decide (a ≠ b), decide (a < b), decide (a ≥ b)].getD fn false := by
  match fn, hfn with
  | 0, _ | 1, _ | 2, _ | 3, _ => rfl

/-- The value of an FP32 encoding, by its exponent and fraction fields (R60). -/
theorem decode_fp32 (x : W32) :
    fp32.decode x.toNat =
      if x.extractLsb' 23 8 = 0xFF#8 then (if x.extractLsb' 0 23 = 0 then .inf x.msb else .nan)
      else if x.extractLsb' 23 8 = 0 then .fin x.msb (x.extractLsb' 0 23).toNat (-149) false
      else .fin x.msb (2 ^ 23 + (x.extractLsb' 0 23).toNat) (-149 + ((x.extractLsb' 23 8).toNat : Int) - 1) false := by
  have hexp : bitsOf x.toNat 23 8 = (x.extractLsb' 23 8).toNat := rfl
  have hfrac : bitsOf x.toNat 0 23 = (x.extractLsb' 0 23).toNat := rfl
  have hsign : x.toNat.testBit 31 = x.msb := by rw [BitVec.msb_eq_getLsbD_last]; rfl
  simp only [FFmt.decode, fp32, FFmt.signBit, FFmt.emin, hexp, hfrac, hsign, BitVec.toNat_eq]
  simp

theorem isNan_decode_fp32 (x : W32) :
    (fp32.decode x.toNat).isNan = true ↔ x.extractLsb' 23 8 = 0xFF#8 ∧ x.extractLsb' 0 23 ≠ 0 := by
  rw [decode_fp32]
  by_cases he : x.extractLsb' 23 8 = 0xFF#8
  · by_cases hf : x.extractLsb' 0 23 = 0
    · rw [if_pos he, if_pos hf]; simp [XV.isNan, hf]
    · rw [if_pos he, if_neg hf]; exact iff_of_true rfl ⟨he, hf⟩
  · rw [if_neg he]
    split <;> simp [XV.isNan, he]

/-- What SEL delivers of a datum. -/
theorem selected_eq (d : Datum) :
    d.selected = if d.val.extractLsb' 23 8 = 0xFF#8 ∧ d.val.extractLsb' 0 23 ≠ 0
      then { d with t0 := 0x7FC00000, t1 := 0x7FC00000, t2 := 0x7FC00000, t3 := 0x7FC00000 } else d := by
  simp only [Datum.selected, isNan_decode_fp32]
  rfl

theorem comparesAndMoves : ComparesAndMoves := by
  refine ⟨fun w hfn => ?_, fun w => ?_, fun p w => ?_, fun p w => ?_, fun w => ?_⟩
  · refine does_apply (exec_icmp · w) (fun _ => rfl) fun i lane => ?_
    obtain ⟨x, y, hds⟩ := List.length_eq_two.1 (reads_length i.g lane ([w.a.field, w.b.field].map (·.o)))
    rw [hds]
    exact congrArg (fun b : Bool => ({ preds := [(w.pd.pn, b)] } : LaneOut)) (relates_eq hfn _ _)
  · refine does_apply (exec_icmpi · w) (fun _ => rfl) fun i lane => ?_
    obtain ⟨x, hds⟩ := List.length_eq_one_iff.1 (reads_length i.g lane [w.a])
    simp only [List.map_cons, List.map_nil, hds]
    exact congrArg (fun b : Bool => ({ preds := [(w.pd.pn, b)] } : LaneOut)) (relatesImm_eq w.fn.isLt _ _)
  · refine does_apply (exec_sel · p w) (fun _ => rfl) fun i lane => ?_
    exact congrArg (fun d : Datum => ({ out := [d.cut (i.tans p)] } : LaneOut)) (selected_eq _)
  · refine does_apply (exec_mov · p w) (fun _ => rfl) fun i lane => ?_
    cases i.g.reads _ lane <;> rfl
  · exact does_apply (exec_movi · w) (fun _ => rfl) fun _ _ => rfl

/-- Settles O39: the results bit by bit, and the operands delivered, from the general form of each instruction. -/
theorem bitFieldsComparesAndMoves : Obligations.BitFieldsComparesAndMoves := ⟨bitFieldsAndCounts, comparesAndMoves⟩

end Sys2Proof.Claims
end

section
/-! PROOFS. Unary functions and dot products (spec/05 R116, R117, R121 to R123; spec/03 R76, R77). -/

namespace Sys2Proof.Claims

open Sys2Proof.Machine

/-! ### Unary functions -/

theorem unary_of_exec {ins : Option Dual → FmtA → Instr} {f : UFn} (he : ∀ p w s, exec (ins p w) s = unary f p w s) :
    Unary ins f := fun p w =>
  does_apply (f := fun i _ ds =>
      unaryOut f (flMode w.fl) (flFtz w.fl) (i.tans p) (modify w.a.sel (ds.headD {}).val) (ds.headD {}).tan) (he p w) (fun _ => rfl) fun i lane => by
    obtain ⟨x, hds⟩ := List.length_eq_one_iff.1 (reads_length i.g lane ([w.a.field].map (·.o)))
    rw [hds]; rfl

/-! ### Rounding special values -/

section rounding
variable (mode : Nat) (ftz : Bool)

theorem round32_nan (bad sig : Bool) : round32 mode ftz .nan bad sig = ⟨0x7FC00000, flagIf (bad || sig) flagInvalid⟩ := by
  simp [round32, FFmt.round, fp32]

theorem round32_inf (neg : Bool) (more : Flags) :
    round32 mode ftz (.inf neg) false false more = ⟨if neg then 0xFF800000 else 0x7F800000, more⟩ := by
  cases neg <;> simp [round32, FFmt.round, FFmt.infCode, FFmt.signed, FFmt.signBit, fp32, flagIf]

theorem round32_zero (neg : Bool) : round32 mode ftz (.zero neg) false false = ⟨if neg then 0x80000000 else 0, 0⟩ := by
  cases neg <;> simp [round32, FFmt.round, XV.zero, FFmt.roundMag, FFmt.signed, FFmt.signBit, fp32, flagIf]

end rounding

/-! ### The rows of Table 5.5 -/

/-- What a function gives for a zero. -/
def atZero (neg : Bool) : UFn → FRes
  | .rcp => ⟨if neg then 0xFF800000 else 0x7F800000, flagDivZero⟩
  | .rsq => ⟨if neg then 0xFF800000 else 0x7F800000, flagDivZero⟩
  | .lg2 => ⟨0xFF800000, flagDivZero⟩
  | .ex2 | .cos => ⟨0x3F800000, 0⟩
  | .sqrt | .sin | .tanh => ⟨if neg then 0x80000000 else 0, 0⟩

/-- What a function gives for an infinity. -/
def atInf (neg : Bool) : UFn → FRes
  | .rcp => ⟨if neg then 0x80000000 else 0, 0⟩
  | .rsq => if neg then ⟨0x7FC00000, flagInvalid⟩ else ⟨0, 0⟩
  | .sqrt | .lg2 => if neg then ⟨0x7FC00000, flagInvalid⟩ else ⟨0x7F800000, 0⟩
  | .ex2 => ⟨if neg then 0 else 0x7F800000, 0⟩
  | .sin | .cos => ⟨0x7FC00000, flagInvalid⟩
  | .tanh => ⟨if neg then 0xBF800000 else 0x3F800000, 0⟩

theorem mem_table55 {f : UFn} {a : W32} {r : W32 × Flags} (h : (a, r) ∈ table55 f) :
    ∃ neg : Bool, (a = (if neg then 0x80000000 else 0) ∧ r = ((atZero neg f).w, (atZero neg f).flags)) ∨
      (a = (if neg then 0xFF800000 else 0x7F800000) ∧ r = ((atInf neg f).w, (atInf neg f).flags)) := by
  have hrows : table55 f = [(0, (atZero false f).w, (atZero false f).flags), (0x80000000, (atZero true f).w, (atZero true f).flags),
      (0x7F800000, (atInf false f).w, (atInf false f).flags), (0xFF800000, (atInf true f).w, (atInf true f).flags)] := by
    cases f <;> rfl
  simp only [hrows, List.mem_cons, Prod.mk.injEq, List.not_mem_nil, or_false] at h
  obtain ⟨ha, hr⟩ | ⟨ha, hr⟩ | ⟨ha, hr⟩ | ⟨ha, hr⟩ := h
  · exact ⟨false, .inl ⟨ha, hr⟩⟩
  · exact ⟨true, .inl ⟨ha, hr⟩⟩
  · exact ⟨false, .inr ⟨ha, hr⟩⟩
  · exact ⟨true, .inr ⟨ha, hr⟩⟩

section eval
variable (f : UFn) (mode : Nat) (ftz : Bool) (a : W32)

theorem eval_zero (neg : Bool) (e : Int) : f.eval mode ftz a (.fin neg 0 e false) false = atZero neg f := by
  cases f with
  | rcp => exact (round32_inf mode ftz _ _).trans (by cases neg <;> rfl)
  | rsq => exact round32_inf mode ftz neg flagDivZero
  | lg2 => exact round32_inf mode ftz true flagDivZero
  | ex2 | cos => rfl
  | sqrt | sin | tanh => exact round32_zero mode ftz neg

theorem eval_inf (neg : Bool) : f.eval mode ftz a (.inf neg) false = atInf neg f := by
  cases f with
  | rcp => exact round32_zero mode ftz neg
  | rsq => cases neg; exacts [round32_zero mode ftz false, round32_nan mode ftz true false]
  | sqrt | lg2 => cases neg; exacts [round32_inf mode ftz false 0, round32_nan mode ftz true false]
  | ex2 => cases neg; exacts [round32_inf mode ftz false 0, round32_zero mode ftz false]
  | sin | cos => exact round32_nan mode ftz true false
  | tanh => rfl

theorem eval_nan (sig : Bool) : f.eval mode ftz a .nan sig = ⟨0x7FC00000, flagIf sig flagInvalid⟩ := by
  cases f <;> exact round32_nan mode ftz false sig

theorem eval_negative {f : UFn} (hf : f = .rsq ∨ f = .sqrt ∨ f = .lg2) {m : Nat} (hm : m ≠ 0) (e : Int) (sig : Bool) :
    f.eval mode ftz a (.fin true m e false) sig = ⟨0x7FC00000, flagInvalid⟩ := by
  obtain rfl | rfl | rfl := hf <;> simp only [UFn.eval, if_neg hm, if_true] <;> exact round32_nan mode ftz true sig

end eval

/-! ### What a unary function takes its source as -/

theorem subnormal_fp32 (x : W32) : fp32.subnormal x.toNat = decide (x.extractLsb' 23 8 = 0 ∧ x.extractLsb' 0 23 ≠ 0) := by
  have hexp : bitsOf x.toNat 23 8 = (x.extractLsb' 23 8).toNat := rfl
  have hfrac : bitsOf x.toNat 0 23 = (x.extractLsb' 0 23).toNat := rfl
  simp only [FFmt.subnormal, fp32, hexp, hfrac, BitVec.toNat_eq, ne_eq]
  rfl

theorem signalling_fp32 (x : W32) : fp32.signalling x.toNat = ((fp32.decode x.toNat).isNan && !x.getLsbD 22) := by
  simp [FFmt.signalling, fp32]
  rfl

/-- A source whose exponent field is not zero is not flushed. -/
theorem source_fp32 (ftz : Bool) {x : W32} (h : x.extractLsb' 23 8 ≠ 0 ∨ ftz = false ∨ x.extractLsb' 0 23 = 0) :
    fp32.source ftz x.toNat = fp32.decode x.toNat := by
  have hsub : (ftz && decide (x.extractLsb' 23 8 = 0 ∧ x.extractLsb' 0 23 ≠ 0)) = false := by
    obtain h | h | h := h
    · rw [decide_eq_false fun hx => h hx.1, Bool.and_false]
    · rw [h, Bool.false_and]
    · rw [decide_eq_false fun hx => hx.2 h, Bool.and_false]
  rw [FFmt.source, subnormal_fp32, hsub]; rfl

/-- A unary function gives what it evaluates to. -/
theorem unaryOut_gives {f : UFn} {mode : Nat} {ftz : Bool} {a y : W32} {flags : Flags} (n : Nat) (tan : Nat → W32)
    (h : f.eval mode ftz a (fp32.source ftz a.toNat) (fp32.signalling a.toNat) = ⟨y, flags⟩) :
    (unaryOut f mode ftz n a tan).out.map (·.val) = [y] ∧ (unaryOut f mode ftz n a tan).flags = flags :=
  ⟨congrArg (fun r : FRes => [r.w]) h, congrArg FRes.flags h⟩

theorem unaryFunctions : UnaryFunctions := by
  refine ⟨⟨unary_of_exec fun p w s => exec_frcp s p w, unary_of_exec fun p w s => exec_frsq s p w,
    unary_of_exec fun p w s => exec_fsqrt s p w, unary_of_exec fun p w s => exec_fex2 s p w,
    unary_of_exec fun p w s => exec_flg2 s p w, unary_of_exec fun p w s => exec_fsin s p w,
    unary_of_exec fun p w s => exec_fcos s p w, unary_of_exec fun p w s => exec_ftanh s p w⟩,
    fun f mode ftz n tan => ⟨fun a r hrow => ?_, fun a he hf => ?_, fun a hfn hneg he hnz => ?_⟩⟩
  · obtain ⟨neg, ⟨ha, hr⟩ | ⟨ha, hr⟩⟩ := mem_table55 hrow
    · have hfrac : a.extractLsb' 0 23 = 0 := by rw [ha]; cases neg <;> rfl
      have hdecode : fp32.decode a.toNat = .fin neg 0 (-149) false := by rw [ha]; cases neg <;> rfl
      refine unaryOut_gives n tan ?_
      rw [source_fp32 ftz (.inr (.inr hfrac)), signalling_fp32, hdecode, hr]
      exact eval_zero f mode ftz a neg (-149)
    · have hexp : a.extractLsb' 23 8 ≠ 0 := by rw [ha]; cases neg <;> decide
      have hdecode : fp32.decode a.toNat = .inf neg := by rw [ha]; cases neg <;> rfl
      refine unaryOut_gives n tan ?_
      rw [source_fp32 ftz (.inl hexp), signalling_fp32, hdecode, hr]
      exact eval_inf f mode ftz a neg
  · have hdecode : fp32.decode a.toNat = .nan := by rw [decode_fp32, if_pos he, if_neg hf]
    refine unaryOut_gives n tan ?_
    rw [source_fp32 ftz (.inl (by simp [he])), signalling_fp32, hdecode, eval_nan]
    cases a.getLsbD 22 <;> rfl
  · have hdecode : ∃ m e, m ≠ 0 ∧ fp32.decode a.toNat = .fin true m e false := by
      rw [decode_fp32, if_neg he, hneg]
      split
      · rename_i h0
        obtain h | h := hnz
        · exact absurd h0 h
        · exact ⟨_, _, fun h' => h.2 (BitVec.eq_of_toNat_eq h'), rfl⟩
      · exact ⟨_, _, by omega, rfl⟩
    obtain ⟨m, e, hm, hdecode⟩ := hdecode
    refine unaryOut_gives n tan ?_
    rw [source_fp32 ftz (hnz.imp_right fun h => .inl h.1), hdecode]
    exact eval_negative mode ftz a hfn hm e _

/-! ### Dot products -/

theorem foldl_add_init {α : Type} (f : α → Int) (c : Int) (l : List α) :
    l.foldl (fun v x => v + f x) c = c + l.foldl (fun v x => v + f x) 0 := by
  induction l generalizing c with
  | nil => simp
  | cons x l ih => rw [List.foldl_cons, List.foldl_cons, ih, ih (0 + f x)]; omega

/-- An element as a number. -/
theorem elems_eq (width : Nat) (uns : Bool) (x : W32) :
    elems width uns x = (List.range (32 / width)).map fun j =>
      if uns then (element x width j : Int) else signed width (element x width j) := by
  refine List.map_congr_left fun j _ => ?_
  have helem : x.toNat / 2 ^ (width * j) % 2 ^ width = element x width j := by rw [element, bitsOf, Nat.shiftRight_eq_div_pow]
  have hmod : element x width j % 2 ^ width = element x width j := Nat.mod_mod _ _
  simp only [helem, signed, hmod]
  cases uns <;> simp

theorem dotInt_eq (width : Nat) (uns sat : Bool) (a b c : W32) :
    dotInt width uns sat a b c =
      fit sat uns (num uns c + ((elems width uns a).zip (elems width uns b)).foldl (fun x e => x + e.1 * e.2) 0) := by
  rw [dotInt, satWord_eq_fit, elems_eq, elems_eq, List.zip_map', List.foldl_map, foldl_add_init]
  rfl

theorem dot_of_exec {ins : Option Dual → FmtA → Instr} {f : FmtA → FFmt} {width : Nat}
    (he : ∀ p w s, exec (ins p w) s = dotA (f w) width p w s) : Dot ins f width := by
  intro p w
  refine does_apply (he p w) (fun _ => rfl) fun i lane => ?_
  obtain ⟨x, y, z, hds⟩ := List.length_eq_three.1 (reads_length i.g lane ([w.a.field, w.b.field, w.c.field].map (·.o)))
  rw [hds]
  rfl

theorem dotProducts : DotProducts := by
  refine ⟨fun w => ⟨?_, ?_⟩, ?_, ?_, fun p w => ?_⟩
  · exact word3_of_alu (exec_dp4 · w) fun a b c => dotInt_eq 8 _ _ a b c
  · exact word3_of_alu (exec_dp8 · w) fun a b c => dotInt_eq 4 _ _ a b c
  · exact dot_of_exec fun p w s => exec_dpf8 s p w
  · exact dot_of_exec fun p w s => exec_dpf4 s p w
  · exact does_apply (exec_bscale · p w) (fun _ => rfl) fun _ _ => rfl

/-- Settles O42: the special sources go through one rounding of a NaN, an infinity or a zero, and the dot products are the sums
of their elements' products. -/
theorem functionsAndDotProducts : Obligations.FunctionsAndDotProducts := ⟨unaryFunctions, dotProducts⟩

end Sys2Proof.Claims
end

section
/-! PROOFS. The checks of MST and MLD (spec/15 R281, R282, R304, R305). -/

namespace Sys2Proof.Machine

theorem State.group?_id {s : State} {id : Nat} {g : Group} (h : s.group? id = some g) : g.id = id := by
  simpa using List.find?_some h

theorem State.team?_id {s : State} {id : Nat} {t : Team} (h : s.team? id = some t) : t.id = id := by
  simpa using List.find?_some h

/-- The team of an issuing group. -/
theorem State.team?_of_issuer {s : State} {g : Group} {t : Team} {l : Launch} {c : Ctx} (h : s.issuer = some (g, t, l, c)) :
    s.team? g.team = some t := by
  simp only [issuer, Option.bind_eq_bind, Option.bind_eq_some_iff, Option.some.injEq, Prod.mk.injEq] at h
  obtain ⟨g', -, t', ht, l', -, c', -, rfl, rfl, -⟩ := h
  exact ht

/-- Sources that pass the checks of R36 are in bounds. -/
theorem Iss.inBounds_of_ready {i : Iss} {fs : List Field} {dsts : List Opnd} (h : i.ready fs dsts = .ok ()) :
    ∀ f ∈ fs, i.inBounds f.o = true := by
  have hall : (fs.map (·.o) ++ dsts).all i.inBounds = true := by
    by_contra hno
    simp only [Iss.ready, Iss.checkBounds, Iss.check, if_neg hno, bind, Except.bind, Iss.cause, reduceCtorEq] at h
  exact fun f hf => List.all_eq_true.1 hall f.o (List.mem_append_left _ (List.mem_map_of_mem hf))

/-- Operands that pass the checks of R36, on a core whose tiles no other team owns (R281, R283). -/
theorem Iss.operands_of_ready {i : Iss} {fs : List Field} (howns : i.unit.owner = none ∨ i.unit.owner = some i.t.id)
    (h : i.ready fs [] = .ok ()) (aligned : Bool) : i.operands fs aligned = .ok () := by
  have hbounds : fs.all (fun f => i.inBounds f.o) = true := List.all_eq_true.2 (Iss.inBounds_of_ready h)
  simp only [Iss.operands, hbounds, Bool.or_true, Iss.check, if_true, h, bind, Except.bind]
  obtain ho | ho := howns <;> simp [ho]

/-- An instruction that has no earlier access to perform goes on as it is (R142). -/
theorem Iss.over_of_quiet {i : Iss} (hkept : i.kept i.s = i.g) (hquiet : ∀ q ∈ i.s.pend, q.gid ≠ i.g.id) (n : Nat)
    (locs : List Loc) : i.over n locs = .ok i := by
  have hnone : ∀ p ∈ i.s.pend, p.meets i.g.id n locs = false := fun p hp => by simp [Pending.meets, hquiet p hp]
  have hsame : i.s.performOver i.g.id n locs = i.s := by
    rw [State.performOver, List.filter_eq_nil_iff.2 (by simpa using hnone)]; rfl
  have hany : i.s.pend.any (fun p => p.meets i.g.id n locs && !p.performed) = false :=
    List.any_eq_false.2 fun p hp => by simp [hnone p hp]
  simp only [Iss.over, hsame, hany, Iss.goOn, hkept, Bool.false_eq_true, if_false]

end Sys2Proof.Machine

namespace Sys2Proof.Claims

open Sys2Proof.Machine

/-! ### Claims on tiles -/

theorem ofGroup_iff (i : Iss) (k : Claim) : k.ofGroup i.g.id = true ↔ OwnClaim i k := by
  simp [Claim.ofGroup, OwnClaim]

/-- A claim is free where no other agent has claimed one of its tiles. -/
theorem claimFree_of_disjoint {c : CoreSt} {key : Nat} {tiles : List Nat}
    (h : ∀ k ∈ c.claims, k.ofGroup key = false → ∀ x ∈ k.tiles, x ∉ tiles) : c.claimFree false key tiles = true := by
  refine List.all_eq_true.2 fun k hk => ?_
  have hother : k.ofGroup key = false := by
    have := List.mem_takeWhile_imp hk
    cases hop : k.isOp <;> simp_all [Claim.ofGroup]
  simpa using h k ((List.takeWhile_sublist _).subset hk) hother

/-- Claims on tiles that no other agent claims are free at once (R282). -/
theorem claimTiles_of_unclaimed {i : Iss} {tiles : List Nat} (h : Unclaimed i tiles) : i.claimTiles tiles = .ok () := by
  have hfree : (i.unit.claim i.g.id tiles).claimFree false i.g.id ((i.unit.claim i.g.id tiles).claimed i.g.id) = true := by
    refine claimFree_of_disjoint fun k hk hother x hx => ?_
    have hnot : ¬ OwnClaim i k := fun ho => by simp [(ofGroup_iff i k).2 ho] at hother
    cases hown : i.unit.claims.find? (·.ofGroup i.g.id) with
    | some o =>
      have hmem : o ∈ i.unit.claims := List.mem_of_find?_eq_some hown
      have ho : o.ofGroup i.g.id = true := by simpa using List.find?_some hown
      have hsame : i.unit.claim i.g.id tiles = i.unit := if_pos (List.any_eq_true.2 ⟨o, hmem, ho⟩)
      rw [hsame] at hk ⊢
      simpa [CoreSt.claimed, hown] using (((h k hk).resolve_left hnot) x hx).2 o hmem ((ofGroup_iff i o).1 ho)
    | none =>
      have hnew : (i.unit.claim i.g.id tiles).claims = i.unit.claims ++ [⟨false, i.g.id, tiles, none⟩] := by
        rw [CoreSt.claim, if_neg (by simpa using hown)]
      rw [hnew, List.mem_append, List.mem_singleton] at hk
      obtain hk | rfl := hk
      · have hfirst : i.unit.claims.find? (fun k => !k.isOp && k.key == i.g.id) = none := hown
        simpa [CoreSt.claimed, hnew, List.find?_append, hfirst, Claim.ofGroup] using (((h k hk).resolve_left hnot) x hx).1
      · exact absurd ⟨rfl, rfl⟩ hnot
  rw [Iss.claimTiles]; simp only [hfree, if_true]

/-! ### The operands of a move -/

section moves
variable {i : Iss} {w : FmtT}

/-- What MST and MLD move, from their four registers. -/
abbrev movesOf (i : Iss) (w : FmtT) : Moves i w := {}

theorem mstore_size : (i.mstore w).size = (movesOf i w).size := rfl

theorem mstore_rows : (i.mstore w).rows (i.unit.tile w.td.toNat) = (movesOf i w).rows := rfl

theorem mstore_cols : (i.mstore w).cols (i.unit.tile w.td.toNat) = (movesOf i w).cols := by
  have hcols : bitsOf (movesOf i w).last 8 8 = (movesOf i w).last / 256 % 256 := by
    rw [bitsOf, Nat.shiftRight_eq_div_pow]; rfl
  show (if bitsOf (movesOf i w).last 8 8 = 0 then _ else bitsOf (movesOf i w).last 8 8) = _
  rw [hcols]; rfl

theorem mstore_row (x : W32) (r : Nat) : (i.mstore w).row x r none = (movesOf i w).elem r 0 := by
  simp only [Moves.elem, Nat.zero_mul, Nat.add_zero]; rfl

/-- Address and stride are multiples of the element's size. -/
abbrev Moves.Aligned (m : Moves i w) : Prop := m.addr % m.size = 0 ∧ m.stride % m.size = 0

theorem mstore_aligned : (i.mstore w).aligned = decide (movesOf i w).Aligned := by
  rw [Bool.decide_and]; rfl

theorem elem_cols (m : Moves i w) (r j : Nat) : m.elem r j = m.elem r 0 + j * m.size := by
  simp [Moves.elem]

/-- A misaligned operand is found before all else (R304, R305). -/
theorem mstoreChecks_misaligned (howns : Owns i) (hready : i.ready (sFields w.sa.toNat 4) [] = .ok ())
    (h : ¬ (movesOf i w).Aligned) (n : Nat) (loads : Bool) :
    i.mstoreChecks w (i.mstore w) n loads = i.cause 0x03 := by
  simp only [Iss.mstoreChecks, Iss.operands_of_ready howns hready, mstore_aligned, decide_eq_false h, Iss.check, bind, Except.bind,
    Bool.false_eq_true, if_false, Iss.cause]

/-- A row beyond the region is found once the operands are aligned. -/
theorem mstoreChecks_outside (howns : Owns i) (hready : i.ready (sFields w.sa.toNat 4) [] = .ok ())
    (h : (movesOf i w).Aligned) (hcols : (movesOf i w).cols ≠ 0)
    (hout : ∃ r < (movesOf i w).rows, i.l.tileUnits * 256 < (movesOf i w).elem r (movesOf i w).cols)
    (n : Nat) (loads : Bool) : i.mstoreChecks w (i.mstore w) n loads = i.cause 0x12 := by
  obtain ⟨r, hr, hlt⟩ := hout
  have hbad (x : W32) : ((List.range (movesOf i w).rows).flatMap fun r => (moved n (i.mstore w).tan).map ((i.mstore w).row x r)).all
      (fun x => decide (x + (movesOf i w).cols * (movesOf i w).size ≤ i.l.tileUnits * 256)) = false := by
    refine List.all_eq_false.2 ⟨(movesOf i w).elem r 0, List.mem_flatMap.2 ⟨r, List.mem_range.2 hr, ?_⟩, ?_⟩
    · exact List.mem_map.2 ⟨none, List.mem_cons_self .., mstore_row x r⟩
    · rw [elem_cols] at hlt; simpa using hlt
  simp only [Iss.mstoreChecks, Iss.operands_of_ready howns hready, mstore_aligned, decide_eq_true h, mstore_rows, mstore_cols,
    mstore_size, hbad, decide_eq_false hcols, Iss.check, bind, Except.bind, Bool.or_self, Bool.false_eq_true, if_true, if_false,
    Iss.cause]

/-- The primal rows alone move where TAN is clear. -/
theorem mstore_tan (h : (movesOf i w).ctl < 64) : (i.mstore w).tan = false :=
  Nat.testBit_lt_two_pow h

theorem moved_primal (n : Nat) : moved n false = [none] := rfl

theorem followers_of_alike {c : CoreSt} {d n : Nat} (h : Alike c d n) : c.followers d n = true := by
  obtain ⟨hlast, hlike⟩ := h
  refine Bool.and_eq_true_iff.2 ⟨decide_eq_true hlast, List.all_eq_true.2 fun k hk => decide_eq_true ?_⟩
  obtain ⟨j, hj, rfl⟩ := List.mem_map.1 (List.mem_filter.1 hk).1
  have := List.mem_range.1 hj
  exact hlike (d + j) (by omega) (by omega)

/-- The limits of the format code, and of the mode of MLD. -/
theorem mstore_format {loads : Bool} (h : if loads = true then (movesOf i w).ctl ≤ 2 else (movesOf i w).ctl % 8 ≤ 5) :
    (if loads = true then decide ((i.mstore w).fmt ≤ 2) && bitsOf (i.mstore w).ctl 3 3 == 0
      else decide ((i.mstore w).fmt ≤ 5)) = true := by
  have hfield : (i.mstore w).fmt = (movesOf i w).ctl % 8 := rfl
  cases loads with
  | false => simpa [hfield] using h
  | true =>
    have hlow : ∀ c, c ≤ 2 → c % 8 ≤ 2 ∧ bitsOf c 3 3 = 0 := by decide
    obtain ⟨hlow, hzero⟩ := hlow _ h
    exact Bool.and_eq_true_iff.2 ⟨decide_eq_true hlow, beq_iff_eq.2 hzero⟩

/-- The bits that Table 15.7 reserves. -/
theorem mstore_reserved (hctl : (movesOf i w).ctl < 64) (hlast : (movesOf i w).last / 65536 = 0xFFFF) :
    (i.mstore w).ctl / 128 = 0 ∧ bitsOf (i.mstore w).last 16 16 = 0xFFFF := by
  show (movesOf i w).ctl / 128 = 0 ∧ bitsOf (movesOf i w).last 16 16 = 0xFFFF
  rw [bitsOf, Nat.shiftRight_eq_div_pow]; omega

/-- A move that keeps the limits passes every check, and holds its tiles. -/
theorem mstoreChecks_of_fits {loads : Bool} {n : Nat} (h : (movesOf i w).Fits loads n) :
    i.mstoreChecks w (i.mstore w) n loads = .ok () := by
  obtain ⟨howns, hready, haligned, hregion, ⟨hh, hrows, hcols, hstride⟩, ⟨hctl, hlast, hfmt⟩, halike, ⟨hheld, -⟩, hclaims⟩ := h
  have hin (x : W32) : ((List.range (movesOf i w).rows).flatMap fun r => (moved n (i.mstore w).tan).map ((i.mstore w).row x r)).all
      (fun x => decide (x + (movesOf i w).cols * (movesOf i w).size ≤ i.l.tileUnits * 256)) = true := by
    simp only [mstore_tan hctl, moved_primal, List.map_cons, List.map_nil, mstore_row, List.all_eq_true, List.mem_flatMap,
      List.mem_range, List.mem_singleton, decide_eq_true_eq]
    rintro _ ⟨r, hr, rfl⟩
    simpa only [elem_cols _ r (movesOf i w).cols] using hregion r hr
  obtain ⟨hzero, hones⟩ := mstore_reserved hctl hlast
  have hfollow : (decide (n = 0) || !((i.mstore w).tan || loads) || i.unit.followers w.td.toNat n) = true := by
    obtain hl | hn | hlike := halike
    · simp [mstore_tan hctl, hl]
    · simp [hn]
    · have hnext : i.unit.followers w.td.toNat n = true := followers_of_alike hlike
      rw [hnext, Bool.or_true]
  have hsize : (i.unit.tile w.td.toNat).h ≠ 0 ∧ (movesOf i w).rows ≤ (i.unit.tile w.td.toNat).h ∧
      (movesOf i w).cols ≤ (i.unit.tile w.td.toNat).w ∧ (movesOf i w).cols * (movesOf i w).size ≤ (i.mstore w).stride :=
    ⟨hh, hrows, hcols, hstride⟩
  simp only [Iss.mstoreChecks, Iss.operands_of_ready howns hready, mstore_aligned, decide_eq_true haligned, mstore_rows, mstore_cols,
    mstore_size, hin, decide_eq_true hsize.1, decide_eq_true hsize.2, mstore_format hfmt, beq_iff_eq.2 hzero,
    beq_iff_eq.2 hones, hfollow,
    Iss.gate, hheld, claimTiles_of_unclaimed hclaims, Bool.or_true, Bool.and_true, Bool.false_eq_true, Iss.check, if_true, if_false,
    bind, Except.bind]

end moves

/-! ### The traps -/

section traps
variable {s : State} {i : Iss} {ctl : Ctl} {p : Option Dual} {w : FmtT}

/-- A cause that the checks find is raised before anything moves. -/
theorem moves_trap (h : Issues s (dualSize p) w.g false .fall i ctl) {code : BitVec 8}
    (hcause : ∀ n loads, i.mstoreChecks w (i.mstore w) n loads = i.cause code) :
    Traps (.mst p w) s i code ∧ Traps (.mld p w) s i code := by
  constructor
  · refine (exec_mst s p w).trans (issue_cause h ?_)
    simp only [hcause, bind, Except.bind, Iss.cause]
  · refine (exec_mld s p w).trans (issue_cause h ?_)
    simp only [hcause, bind, Except.bind, Iss.cause]

end traps

end Sys2Proof.Claims
end

section
/-! PROOFS. The rows that MST puts on their way (spec/15 R303, R304; log 6). -/

namespace Sys2Proof.Machine

/-! ### Bytes laid out -/

theorem look?_cellsAt (bs : List Byte) : ∀ o a, look? (cellsAt o bs) a = if o ≤ a then bs[a - o]? else none := by
  induction bs with
  | nil => intro o a; simp [cellsAt, look?]
  | cons b bs ih =>
    intro o a
    rw [cellsAt, look?, ih]
    by_cases h : o = a
    · simp [h]
    · by_cases hlt : o + 1 ≤ a
      · rw [if_neg h, if_pos hlt, if_pos (by omega), show a - o = a - (o + 1) + 1 by omega, List.getElem?_cons_succ]
      · rw [if_neg h, if_neg hlt, if_neg (by omega)]

theorem getElem?_leBytes : ∀ {n b : Nat} (x : Nat), b < n → (leBytes n x)[b]? = some (BitVec.ofNat 8 (x / 256 ^ b))
  | n + 1, 0, x, _ => by simp [leBytes]
  | n + 1, b + 1, x, h => by
    rw [leBytes, List.getElem?_cons_succ, getElem?_leBytes _ (by omega), Nat.div_div_eq_div_mul, Nat.pow_succ, Nat.mul_comm 256]

/-- A byte of pieces of one length, laid out one after the other. -/
theorem getElem?_flatMap_const {α β : Type} {f : α → List β} {k : Nat} (hk : ∀ x, (f x).length = k) {b : Nat} (hb : b < k) :
    ∀ (l : List α) (j : Nat), (l.flatMap f)[j * k + b]? = l[j]?.bind fun x => (f x)[b]?
  | [], j => by simp
  | x :: l, 0 => by
    rw [List.flatMap_cons, Nat.zero_mul, Nat.zero_add, List.getElem?_append_left (by rw [hk]; exact hb)]; rfl
  | x :: l, j + 1 => by
    have hle : (f x).length ≤ (j + 1) * k + b := by rw [hk, Nat.succ_mul]; omega
    rw [List.flatMap_cons, List.getElem?_append_right hle, hk, show (j + 1) * k + b - k = j * k + b by rw [Nat.succ_mul]; omega,
      getElem?_flatMap_const hk hb l j, List.getElem?_cons_succ]

/-! ### A row -/

/-- A load that touches no byte of a write finds nothing of it (R237). -/
theorem State.tear_of_disjoint {s t : State} {n : Nat} {l : Loc}
    (h : ∀ q ∈ t.pend, ∀ a ∈ q.accs, a.loc.overlaps q.bytes l n = false) : s.tear t n l = t := by
  unfold State.tear
  refine if_pos ?_
  simp only [Bool.not_eq_true', List.any_eq_false, Bool.and_eq_true, not_and]
  intro q hq _
  simp only [List.any_eq_true, Bool.and_eq_true, not_exists, not_and]
  intro a ha _ hover
  simp [h q hq a ha] at hover

/-- The write of a row: its team finds it once it is owed to the team, and no agent has it yet. -/
structure RowWrite (site : Site) (team : Nat) (row : Nat × List Byte) (v : InWrite) : Prop where
  tile : v.tile = some team
  site : v.site = site
  cells : v.cells = cellsAt row.1 row.2
  owed : v.owed = 1
  arrived : v.arrived = []
  mca : v.mca = false

/-- No access that is pending touches a row. -/
def Iss.ClearOf (i : Iss) (ps : List Pending) (row : Nat × List Byte) : Prop :=
  ∀ q ∈ ps, ∀ a ∈ q.accs, a.loc.overlaps q.bytes (.tile i.t.id row.1) row.2.length = false

/-- A row that no pending access touches becomes one more write on its way. -/
theorem Iss.putRow_eq (i : Iss) {s : State} {row : Nat × List Byte} (h : i.ClearOf s.pend row) :
    ∃ v, RowWrite (s.siteOf i.g.id) i.t.id row v ∧
      i.putRow s row.1 row.2 = { s with nextId := s.nextId + 1, inflight := s.inflight ++ [v] } := by
  refine ⟨_, ⟨rfl, rfl, rfl, rfl, rfl, rfl⟩, State.tear_of_disjoint h⟩

theorem Iss.foldl_putRow (i : Iss) : ∀ (rows : List (Nat × List Byte)) (s : State), (∀ row ∈ rows, i.ClearOf s.pend row) →
    ∃ ws k, rows.foldl (fun s row => i.putRow s row.1 row.2) s = { s with nextId := k, inflight := s.inflight ++ ws } ∧
      List.Forall₂ (RowWrite (s.siteOf i.g.id) i.t.id) rows ws
  | [], s, _ => ⟨[], s.nextId, by simp, .nil⟩
  | row :: rows, s, h => by
    obtain ⟨v, hv, hput⟩ := i.putRow_eq (h row List.mem_cons_self)
    obtain ⟨ws, k, hfold, hws⟩ := i.foldl_putRow rows (i.putRow s row.1 row.2) fun r hr => by
      rw [hput]; exact h r (List.mem_cons_of_mem _ hr)
    refine ⟨v :: ws, k, ?_, .cons hv ?_⟩
    · rw [List.foldl_cons, hfold, hput, List.append_assoc, List.singleton_append]
    · rw [hput] at hws; exact hws

/-! ### What readers find -/

section readers
variable {s t : State} {ws : List InWrite} (hin : t.inflight = s.inflight ++ ws)
include hin

/-- A reader of a tile region finds, of each of the new writes that it sees, the bytes that the write covers. -/
theorem State.tileByte_append {k : Nat} (hteam : (t.team? k).map (·.tile) = (s.team? k).map (·.tile)) (x : Site) (a : Nat) :
    t.tileByte x k a = ws.foldl (fun b w => if w.visibleTile k x then (look? w.cells a).getD b else b) (s.tileByte x k a) := by
  have hbase : (t.team? k).map (fun u => look 0 u.tile a) = (s.team? k).map fun u => look 0 u.tile a := by
    simpa only [Option.map_map, Function.comp_def] using congrArg (Option.map fun m => look 0 m a) hteam
  rw [tileByte, hin, hbase, List.foldl_append]
  rfl

/-- A reader that sees none of the new writes finds what it found. -/
theorem State.tileByte_of_unseen {k : Nat} (hteam : (t.team? k).map (·.tile) = (s.team? k).map (·.tile)) {x : Site}
    (h : ∀ v ∈ ws, v.visibleTile k x = false) (a : Nat) : t.tileByte x k a = s.tileByte x k a := by
  rw [State.tileByte_append hin hteam]
  exact List.foldlRecOn ws _ (motive := (· = s.tileByte x k a)) rfl fun b hb v hv => by simpa [h v hv] using hb

theorem State.viewByte_of_unseen (hmem : t.mem = s.mem) {g : Option Nat} {o : Observer} (h : ∀ v ∈ ws, v.visible g o = false)
    (a : Nat) : t.viewByte g o a = s.viewByte g o a := by
  rw [viewByte, hin, hmem, List.foldl_append]
  exact List.foldlRecOn ws _ (motive := (· = s.viewByte g o a)) rfl fun b hb v hv => by simpa [h v hv] using hb

/-- The group that puts rows finds the byte of the last row that covers it. -/
theorem State.tileByte_of_rows {me : Site} {team : Nat} {rows : List (Nat × List Byte)} (hgid : me.gid.isSome = true)
    (hteam : (t.team? team).map (·.tile) = (s.team? team).map (·.tile))
    (hrows : List.Forall₂ (RowWrite me team) rows ws) (a : Nat) :
    t.tileByte me team a = rows.foldl (fun b row => (look? (cellsAt row.1 row.2) a).getD b) (s.tileByte me team a) := by
  rw [State.tileByte_append hin hteam]
  generalize s.tileByte me team a = b
  clear hin hteam
  induction hrows generalizing b with
  | nil => rfl
  | @cons row v _ _ hv _ ih =>
    have hseen : v.visibleTile team me = true := by simp [InWrite.visibleTile, hv.tile, hv.site, hgid]
    rw [List.foldl_cons, List.foldl_cons, if_pos hseen, hv.cells, ih]

end readers

theorem RowWrite.unseen {me x : Site} {team k : Nat} {row : Nat × List Byte} {v : InWrite} (hv : RowWrite me team row v)
    (h : k ≠ team ∨ x.gid ≠ me.gid) : v.visibleTile k x = false := by
  obtain h | h := h
  · have : team ≠ k := fun e => h e.symm
    simp [InWrite.visibleTile, hv.tile, this]
  · have : me.gid ≠ x.gid := fun e => h e.symm
    simp [InWrite.visibleTile, hv.site, hv.arrived, this]

theorem RowWrite.invisible {me : Site} {team : Nat} {row : Nat × List Byte} {v : InWrite} (hv : RowWrite me team row v)
    (g : Option Nat) (o : Observer) : v.visible g o = false := by
  simp [InWrite.visible, InWrite.flat, hv.tile]

theorem State.siteOf_gid (s : State) (gid : Nat) : (s.siteOf gid).gid = some gid := by
  unfold State.siteOf
  split <;> rfl

end Sys2Proof.Machine

namespace Sys2Proof.Claims

open Sys2Proof.Machine

/-! ### The rows of a move -/

section rows
variable {i : Iss} {w : FmtT}

/-- What MST writes of an element (R305). -/
theorem mstore_code (x : W32) : ((i.mstore w).code none x).1 = (movesOf i w).code x := by
  have hmode : bitsOf (i.mstore w).ctl 3 2 = (movesOf i w).ctl / 8 % 4 := by
    rw [bitsOf, Nat.shiftRight_eq_div_pow]; rfl
  have hfmt : (i.mstore w).fmt = (movesOf i w).ctl % 8 := rfl
  have hbit : (i.mstore w).ctl.testBit 5 = (movesOf i w).ctl.testBit 5 := rfl
  simp only [MStore.code, Moves.code, hfmt, hmode, hbit]
  split
  · rfl
  · split
    · rw [word, BitVec.toNat_ofInt, BitVec.toNat_ofInt]; omega
    · rfl

/-- The bytes of a row. -/
def rowBytes (m : Moves i w) (r : Nat) : List Byte :=
  (List.range m.cols).flatMap fun j => leBytes m.size (m.code (m.tile.at r j))

/-- The rows, each with its place. -/
def rowsOf (m : Moves i w) : List (Nat × List Byte) := (List.range m.rows).map fun r => (m.elem r 0, rowBytes m r)

theorem rowBytes_length (m : Moves i w) (r : Nat) : (rowBytes m r).length = m.cols * m.size := by
  simp [rowBytes, List.length_flatMap, leBytes_length]

theorem getElem?_rowBytes (m : Moves i w) (r : Nat) {j b : Nat} (hj : j < m.cols) (hb : b < m.size) :
    (rowBytes m r)[j * m.size + b]? = some (BitVec.ofNat 8 (m.code (m.tile.at r j) / 256 ^ b)) := by
  rw [rowBytes, getElem?_flatMap_const (fun _ => leBytes_length ..) hb, List.getElem?_range hj, Option.bind_some,
    getElem?_leBytes _ hb]

theorem look?_row (m : Moves i w) (r a : Nat) :
    look? (cellsAt (m.elem r 0) (rowBytes m r)) a =
      if m.elem r 0 ≤ a ∧ a < m.elem r m.cols then (rowBytes m r)[a - m.elem r 0]? else none := by
  have hend : m.elem r m.cols = m.elem r 0 + (rowBytes m r).length := by rw [rowBytes_length, elem_cols]
  rw [look?_cellsAt, hend]
  by_cases hle : m.elem r 0 ≤ a
  · by_cases hlt : a < m.elem r 0 + (rowBytes m r).length
    · rw [if_pos hle, if_pos ⟨hle, hlt⟩]
    · rw [if_pos hle, if_neg (fun h => hlt h.2), List.getElem?_eq_none (by omega)]
  · rw [if_neg hle, if_neg fun h => hle h.1]

/-- Rows of the given stride do not meet. -/
theorem row_unique {m : Moves i w} (hstride : m.cols * m.size ≤ m.stride) {r q a : Nat}
    (hr : m.elem r 0 ≤ a ∧ a < m.elem r m.cols) (hq : m.elem q 0 ≤ a ∧ a < m.elem q m.cols) : q = r := by
  have hstep {x y : Nat} (h : x < y) : x * m.stride + m.stride ≤ y * m.stride := by
    rw [← Nat.succ_mul]; exact Nat.mul_le_mul_right _ h
  simp only [Moves.elem] at hr hq
  rcases Nat.lt_trichotomy q r with h | h | h
  · have := hstep h; omega
  · exact h
  · have := hstep h; omega

/-- The bytes of the rows, and no other byte, are found anew. -/
theorem foldl_rows_inside {m : Moves i w} (hstride : m.cols * m.size ≤ m.stride) {r j b : Nat} (hr : r < m.rows) (hj : j < m.cols)
    (hb : b < m.size) (c : Byte) :
    (rowsOf m).foldl (fun c row => (look? (cellsAt row.1 row.2) (m.elem r j + b)).getD c) c =
      BitVec.ofNat 8 (m.code (m.tile.at r j) / 256 ^ b) := by
  have hofs : m.elem r j + b = m.elem r 0 + (j * m.size + b) := by rw [elem_cols]; omega
  have hlt : j * m.size + b < m.cols * m.size := by
    have : (j + 1) * m.size ≤ m.cols * m.size := Nat.mul_le_mul_right _ hj
    rw [Nat.succ_mul] at this; omega
  have hin : m.elem r 0 ≤ m.elem r j + b ∧ m.elem r j + b < m.elem r m.cols := by
    rw [hofs, elem_cols m r m.cols]; omega
  rw [rowsOf, List.foldl_map]
  refine foldl_of_mem id id (c := r) (fun c => ?_) _ c (fun c q _ (hq : q ≠ r) => ?_) (by simpa using List.nodup_range) (List.mem_range.2 hr)
  · rw [look?_row, if_pos hin, hofs, Nat.add_sub_cancel_left, getElem?_rowBytes m r hj hb]; rfl
  · rw [look?_row, if_neg fun hmeets => hq (row_unique hstride hin hmeets)]; rfl

theorem foldl_rows_outside (m : Moves i w) {a : Nat} (h : ∀ r < m.rows, ¬ (m.elem r 0 ≤ a ∧ a < m.elem r m.cols)) (c : Byte) :
    (rowsOf m).foldl (fun c row => (look? (cellsAt row.1 row.2) a).getD c) c = c := by
  rw [rowsOf, List.foldl_map]
  exact List.foldlRecOn _ _ (motive := (· = c)) rfl fun b hb r hr => by
    simpa only [look?_row, if_neg (h r (List.mem_range.1 hr)), Option.getD_none] using hb

end rows

end Sys2Proof.Claims
end

section
/-! PROOFS. MST (spec/15 R303 to R306). -/

namespace Sys2Proof.Machine

theorem State.team?_onTeam {s : State} {f : Team → Team} (hf : ∀ u, (f u).id = u.id) (id k : Nat) :
    (s.onTeam id f).team? k = (s.team? k).map fun u => if u.id = id then f u else u := by
  have hid : ∀ u : Team, (if u.id = id then f u else u).id = u.id := fun u => by split; exacts [hf u, rfl]
  simp only [State.team?, State.onTeam_teams, List.find?_map, Function.comp_def, hid]

end Sys2Proof.Machine

namespace Sys2Proof.Claims

open Sys2Proof.Machine

/-- What ends the claim of an instruction of matrix moves. -/
theorem unclaim_coreOf (i : Iss) (ts) :
    CoreSt.unclaim { coreOf i with tiles := ts } false i.g.id = { coreOf i with tiles := ts, claims := claimsLeft i } := by
  refine congrArg (fun cs => { coreOf i with tiles := ts, claims := cs }) (List.filter_congr fun k _ => ?_)
  cases k.isOp <;> simp [beq_eq_decide]

section mst
variable {s : State} {i : Iss} {ctl : Ctl} {p : Option Dual} {w : FmtT}

/-- An instruction that waits for nothing performs nothing first. -/
theorem mstoreOrder_of_fits (h : Issues s (dualSize p) w.g false .fall i ctl) {loads : Bool} {k : Nat}
    (hfits : (movesOf i w).Fits loads k) (n : Nat) : i.mstoreOrder w (i.mstore w) n = .ok i :=
  Iss.over_of_quiet (h.state ▸ issueOf_kept h.found) hfits.quiet.2 _ _

/-- The state after the rows, the flags and the end of the claim. -/
def stored (i : Iss) (w : FmtT) (flags : Flags) : State :=
  (((rowsOf (movesOf i w)).foldl (fun s row => i.putRow s row.1 row.2) i.s).onTeam i.t.id
    fun u => { u with mflags := u.mflags ||| flags }).setCore (coreKey i.t.die i.t.core) ((coreOf i).unclaim false i.g.id)

/-- The codes and flags of what MST moves, with the place of each row. -/
def mstOut (i : Iss) (w : FmtT) (n : Nat) : List (Nat × List (Nat × Flags)) :=
  (moved n (i.mstore w).tan).flatMap fun k => (List.range ((i.mstore w).rows (i.unit.tile w.td.toNat))).map fun r =>
    ((i.mstore w).row i.g.tanStride r k, (List.range ((i.mstore w).cols (i.unit.tile w.td.toNat))).map fun j =>
      (i.mstore w).code k ((i.unit.part w.td.toNat k).at r j))

/-- The flags that its conversions raise (R306). -/
def mstFlags (i : Iss) (w : FmtT) (n : Nat) : Flags := (mstOut i w n).foldl (fun f x => x.2.foldl (fun f y => f ||| y.2) f) 0

theorem mstOut_rows (hctl : (movesOf i w).ctl < 64) (n : Nat) :
    (mstOut i w n).map (fun x => (x.1, x.2.flatMap fun y => leBytes (i.mstore w).size y.1)) = rowsOf (movesOf i w) := by
  simp only [mstOut, mstore_tan hctl, moved_primal, List.flatMap_cons, List.flatMap_nil, List.append_nil, List.map_map, mstore_rows,
    mstore_cols, mstore_row, Function.comp_def, List.flatMap_map, mstore_code]
  rfl

theorem exec_mst_of_fits (h : Issues s (dualSize p) w.g false .fall i ctl) (hfits : (movesOf i w).Fits false (i.tans p)) :
    exec (.mst p w) s = .next ((stored i w (mstFlags i w (i.tans p))).commit i.g ctl false) := by
  refine (exec_mst s p w).trans (issue_done h ?_ rfl)
  simp only [mstoreChecks_of_fits hfits, mstoreOrder_of_fits h hfits, bind, Except.bind]
  rw [stored, ← mstOut_rows hfits.fields.1 (i.tans p), List.foldl_map]
  rfl

/-- What MST leaves: its rows on their way after all other writes, the flags of its conversions, its claim ended, its group
gone on, and nothing else changed. -/
structure LeavesRows (s : State) (i : Iss) (ctl : Ctl) (m : Moves i w) (flags : Flags) (ws : List InWrite) (t : State) : Prop where
  inflight : t.inflight = s.inflight ++ ws
  rows : List.Forall₂ (RowWrite (s.siteOf i.g.id) i.t.id) (rowsOf m) ws
  teams : ∀ k, t.team? k = (s.team? k).map fun u => if u.id = i.t.id then { u with mflags := u.mflags ||| flags } else u
  core : t.coreSt (coreKey i.t.die i.t.core) = { coreOf i with claims := claimsLeft i }
  groups : t.groups = ((s.setGroup (i.g.goesOn ctl s.tick)).wake).groups
  rest : { t with groups := [], cores := [], teams := [], inflight := [], nextId := 0 } =
    { s with groups := [], cores := [], teams := [], inflight := [], nextId := 0 }

theorem leavesRows (h : Issues s (dualSize p) w.g false .fall i ctl)
    (hclear : ∀ q ∈ s.pend, ∀ a ∈ q.accs, ∀ r < (movesOf i w).rows, a.loc.overlaps q.bytes (.tile i.t.id ((movesOf i w).elem r 0))
      ((movesOf i w).cols * (movesOf i w).size) = false) (flags : Flags) :
    ∃ ws, LeavesRows s i ctl (movesOf i w) flags ws ((stored i w flags).commit i.g ctl false) := by
  have hstate := h.state
  obtain ⟨ws, k, hfold, hrows⟩ := i.foldl_putRow (rowsOf (movesOf i w)) i.s (by
    simp only [rowsOf, List.mem_map, List.mem_range]
    rintro _ ⟨r, hr, rfl⟩ q hq a ha
    rw [rowBytes_length]
    exact hclear q (hstate ▸ hq) a ha r hr)
  have hteams (id : Nat) : ((stored i w flags).commit i.g ctl false).team? id =
      (i.s.team? id).map fun u => if u.id = i.t.id then { u with mflags := u.mflags ||| flags } else u := by
    refine Eq.trans ?_ (State.team?_onTeam (f := fun u => { u with mflags := u.mflags ||| flags }) (fun _ => rfl) i.t.id id)
    simp only [stored, hfold]
    rfl
  have hcore : ((stored i w flags).commit i.g ctl false).coreSt (coreKey i.t.die i.t.core) = (coreOf i).unclaim false i.g.id :=
    look_keep_self ..
  refine ⟨ws, ?_, ?_, ?_, ?_, ?_, ?_⟩
  · simp only [← hstate, stored, hfold]; rfl
  · exact hstate ▸ hrows
  · exact hstate ▸ hteams
  · exact hcore.trans (unclaim_coreOf i (coreOf i).tiles)
  · simp only [← hstate, stored, hfold]; rfl
  · simp only [← hstate, stored, hfold]; rfl

end mst

namespace LeavesRows

variable {s t : State} {i : Iss} {ctl : Ctl} {w : FmtT} {m : Moves i w} {flags : Flags} {ws : List InWrite}
  (h : LeavesRows s i ctl m flags ws t)
include h

theorem tile (k : Nat) : (t.team? k).map (·.tile) = (s.team? k).map (·.tile) := by
  rw [h.teams, Option.map_map]
  refine congrFun (congrArg _ (funext fun u => ?_)) _
  simp only [Function.comp_apply]; split <;> rfl

theorem team (hteam : s.team? i.t.id = some i.t) : t.team? i.t.id = some { i.t with mflags := i.t.mflags ||| flags } := by
  rw [h.teams, hteam, Option.map_some, if_pos rfl]

theorem otherTeam {k : Nat} (hk : k ≠ i.t.id) : t.team? k = s.team? k := by
  rw [h.teams]
  cases hu : s.team? k with
  | none => rfl
  | some u =>
    rw [Option.map_some, if_neg (State.team?_id hu ▸ hk)]

theorem inside (hstride : m.cols * m.size ≤ m.stride) {r j b : Nat} (hr : r < m.rows) (hj : j < m.cols) (hb : b < m.size) :
    t.tileByte (s.siteOf i.g.id) i.t.id (m.elem r j + b) = BitVec.ofNat 8 (m.code (m.tile.at r j) / 256 ^ b) := by
  have hgid : (s.siteOf i.g.id).gid.isSome = true := by rw [State.siteOf_gid]; rfl
  rw [State.tileByte_of_rows h.inflight hgid (h.tile _) h.rows, foldl_rows_inside hstride hr hj hb]

theorem outside {a : Nat} (ha : ∀ r < m.rows, ¬ (m.elem r 0 ≤ a ∧ a < m.elem r m.cols)) :
    t.tileByte (s.siteOf i.g.id) i.t.id a = s.tileByte (s.siteOf i.g.id) i.t.id a := by
  have hgid : (s.siteOf i.g.id).gid.isSome = true := by rw [State.siteOf_gid]; rfl
  rw [State.tileByte_of_rows h.inflight hgid (h.tile _) h.rows, foldl_rows_outside m ha]

/-- Each new write is that of a row. -/
theorem row_of_mem {v : InWrite} (hv : v ∈ ws) : ∃ row, RowWrite (s.siteOf i.g.id) i.t.id row v := by
  obtain ⟨n, hn, rfl⟩ := List.getElem_of_mem hv
  exact ⟨_, h.rows.get (h.rows.length_eq ▸ hn) hn⟩

theorem otherReader {x : Site} {k : Nat} (hx : k ≠ i.t.id ∨ x.gid ≠ some i.g.id) (a : Nat) : t.tileByte x k a = s.tileByte x k a :=
  State.tileByte_of_unseen h.inflight (h.tile k) (fun v hv => by
    obtain ⟨row, hrow⟩ := h.row_of_mem hv
    exact hrow.unseen (by rwa [State.siteOf_gid])) a

theorem newWrites {v : InWrite} (hv : v ∈ t.inflight) : v ∈ s.inflight ∨
    (v.tile = some i.t.id ∧ v.site = s.siteOf i.g.id ∧ v.owed = 1 ∧ v.arrived = [] ∧ v.mca = false) := by
  rw [h.inflight, List.mem_append] at hv
  refine hv.imp_right fun hv => ?_
  obtain ⟨row, hrow⟩ := h.row_of_mem hv
  exact ⟨hrow.tile, hrow.site, hrow.owed, hrow.arrived, hrow.mca⟩

theorem memory (g : Option Nat) (o : Observer) (a : Nat) : t.viewByte g o a = s.viewByte g o a :=
  State.viewByte_of_unseen h.inflight (congrArg State.mem h.rest :) (fun v hv => by
    obtain ⟨row, hrow⟩ := h.row_of_mem hv
    exact hrow.invisible g o) a

end LeavesRows

theorem or_and_self_flags (x y : Flags) : (x ||| y) &&& x = x := by
  ext k hk
  simp only [BitVec.getElem_and, BitVec.getElem_or]
  cases x[k] <;> simp

end Sys2Proof.Claims
end

section
/-! PROOFS. MLD (spec/15 R303, R305). -/

namespace Sys2Proof.Machine

/-! ### Tiles -/

/-- A table in which a key is listed with one value, or not at all where that is the default. -/
theorem look_of_unique {α : Type} {d v : α} {k : Nat} : ∀ {m : List (Nat × α)}, (∀ e ∈ m, e.1 = k → e.2 = v) →
    (v = d ∨ ∃ e ∈ m, e.1 = k) → look d m k = v
  | [], _, h => by simpa [look, eq_comm] using h
  | (k', x) :: m, hone, h => by
    by_cases hk : k' = k
    · simpa [look, hk] using hone (k', x) List.mem_cons_self hk
    · rw [look, if_neg hk]
      exact look_of_unique (fun e he => hone e (List.mem_cons_of_mem _ he)) (h.imp_right (by simp [hk]))

/-- The elements of a tile that is built. -/
theorem Tile.at_build {h w r j : Nat} (f : Nat → Nat → W32) (hr : r < h) (hj : j < min w 64) : (Tile.build h w f).at r j = f r j := by
  refine look_of_unique (fun e he hkey => ?_) ?_
  · simp only [Tile.build, List.mem_flatMap, List.mem_filterMap, List.mem_range] at he
    obtain ⟨m, -, n, hn, he⟩ := he
    split at he
    · cases he
    · obtain rfl := (Option.some.inj he).symm
      obtain ⟨rfl, rfl⟩ : m = r ∧ n = j := by simp only at hkey; omega
      rfl
  · refine or_iff_not_imp_left.2 fun hne => ⟨(64 * r + j, f r j), ?_, rfl⟩
    simp only [Tile.build, List.mem_flatMap, List.mem_filterMap, List.mem_range]
    exact ⟨r, hr, j, hj, if_neg hne⟩

theorem CoreSt.tile_setTile (c : CoreSt) (k : Nat) (u : Tile) (x : Nat) :
    (c.setTile k u).tile x = if x = k then u else c.tile x := look_keep ..

/-- One change of each of several tiles. -/
theorem CoreSt.tile_foldl_setTile {β : Type} (F : β → Tile → Tile) (idx : β → Nat) (x : Nat) : ∀ (l : List β) (c : CoreSt),
    (l.map idx).Nodup →
    (∀ k ∈ l, idx k = x → (l.foldl (fun c k => c.setTile (idx k) (F k (c.tile (idx k)))) c).tile x = F k (c.tile x)) ∧
    (x ∉ l.map idx → (l.foldl (fun c k => c.setTile (idx k) (F k (c.tile (idx k)))) c).tile x = c.tile x)
  | [], c, _ => ⟨by simp, fun _ => rfl⟩
  | k :: l, c, hnd => by
    rw [List.map_cons, List.nodup_cons] at hnd
    obtain ⟨hthis, hother⟩ := CoreSt.tile_foldl_setTile F idx x l (c.setTile (idx k) (F k (c.tile (idx k)))) hnd.2
    simp only [CoreSt.tile_setTile] at hthis hother
    simp only [List.foldl_cons]
    refine ⟨fun q hq hx => ?_, fun hx => ?_⟩
    · rcases List.mem_cons.1 hq with rfl | hq
      · subst hx
        rw [hother hnd.1, if_pos rfl]
      · have hne : x ≠ idx k := by rintro rfl; exact hnd.1 (hx ▸ List.mem_map_of_mem hq)
        rw [hthis q hq hx, if_neg hne]
    · rw [List.map_cons, List.mem_cons, not_or] at hx
      rw [hother hx.2, if_neg hx.1]

/-- Changes of tiles change nothing else of a core. -/
theorem CoreSt.foldl_setTile_rest {β : Type} (f : CoreSt → β → Nat × Tile) : ∀ (l : List β) (c : CoreSt),
    ∃ ts, l.foldl (fun c k => c.setTile (f c k).1 (f c k).2) c = { c with tiles := ts }
  | [], c => ⟨c.tiles, rfl⟩
  | k :: l, c => CoreSt.foldl_setTile_rest f l (c.setTile (f c k).1 (f c k).2)

/-! ### What a plain read leaves -/

theorem Iss.unmet_kept (i : Iss) (s : State) : (i.kept s).unmet = i.g.unmet := by
  unfold Iss.kept
  split <;> rfl

/-- A plain read goes on from a state in which writes have arrived. -/
theorem Iss.meet_eq_ok {i j : Iss} {n : Nat} {locs : List Loc} (h : i.meet n locs = .ok j) :
    ∃ s1, j = i.goOn s1 ∧ s1.besidesPerforming = i.s.besidesPerforming := by
  simp only [Iss.meet] at h
  split at h
  · cases h
  · cases h
    exact ⟨_, rfl, (State.met_besidesPerforming ..).trans (foldl_keeps State.besidesPerforming (fun s l => by simp) _ _)⟩

/-- A plain read waits for nothing where no write on its way waits for a moment or for reads. -/
theorem Iss.meet_of_free {i : Iss} (h : ∀ v ∈ i.s.inflight, v.mca = false ∧ ∀ r ∈ v.rels, i.s.readsDone r = true) (n : Nat)
    (locs : List Loc) : ∃ j, i.meet n locs = .ok j := by
  have hbring (id : Nat) : i.s.canBring id = true := List.all_eq_true.2 fun v hv => by
    obtain ⟨hmca, hrels⟩ := h v hv
    have hread : i.s.unread v = true := by simp [State.unread, List.all_eq_true.2 hrels]
    simp [hmca, hread]
  have hread : locs.all (i.s.canRead (i.s.siteOf i.g.id) n) = true :=
    List.all_eq_true.2 fun l _ => List.all_eq_true.2 fun v _ => by simp [hbring]
  simp only [Iss.meet, hread, Bool.not_true, Bool.false_eq_true, if_false, Except.ok.injEq, exists_eq']

/-- A group stands where it stood. -/
theorem State.siteOf_of_besidesPerforming {s t : State} (h : t.besidesPerforming = s.besidesPerforming) {gid : Nat} {g : Group}
    {u : Team} (hg : s.group? gid = some g) (hu : s.team? g.team = some u) : t.siteOf gid = s.siteOf gid := by
  obtain ⟨g', hg', hunmet⟩ := State.group?_of_besidesPerforming h hg
  have hteam : g'.team = g.team := (congrArg Group.team hunmet :)
  obtain ⟨u', hu', hbare⟩ := State.team?_of_besidesPerforming h hu
  have hid : u'.id = u.id := (congrArg Team.id hbare :)
  have hcluster : u'.cluster = u.cluster := (congrArg Team.cluster hbare :)
  have hdie : u'.die = u.die := (congrArg Team.die hbare :)
  have hctx : u'.ctx = u.ctx := (congrArg Team.ctx hbare :)
  simp only [State.siteOf, hg, hg', hteam, hu, hu', Option.bind_some, hid, hcluster, hdie, hctx]

end Sys2Proof.Machine

namespace Sys2Proof.Claims

open Sys2Proof.Machine

section mld
variable {s : State} {i i1 : Iss} {ctl : Ctl} {p : Option Dual} {w : FmtT}

/-- The tile of the primal or of tangent `k`. -/
def partIndex (d : Nat) : Option Nat → Nat
  | none => d
  | some k => d + 1 + k

theorem nodup_partIndex (d n : Nat) : ((moved n true).map (partIndex d)).Nodup := by
  have hrest : ((List.range n).map fun k => d + 1 + k).Nodup := List.nodup_range.map fun _ _ h => Nat.add_left_cancel h
  have hfirst : d ∉ (List.range n).map fun k => d + 1 + k := by simp; omega
  simpa only [moved, partIndex, if_true, List.map_cons, List.map_map, Function.comp_def, List.nodup_cons] using ⟨hfirst, hrest⟩

/-- What MLD makes of a tile: the elements that move are new, those of a tangent tile zero. -/
def loadedTile (i i1 : Iss) (w : FmtT) (k : Option Nat) (u : Tile) : Tile :=
  Tile.build u.h u.w fun r j =>
    if r < (movesOf i w).rows ∧ j < (movesOf i w).cols then
      if k.isSome then 0
      else (i.mstore w).load (i1.s.readLoc (i1.s.siteOf i1.g.id) (movesOf i w).size (.tile i1.t.id ((movesOf i w).elem r j)))
    else u.at r j

/-- The core after MLD. -/
def loadedCore (i i1 : Iss) (w : FmtT) (n : Nat) : CoreSt :=
  ((moved n true).foldl (fun c k => c.setTile (partIndex w.td.toNat k) (loadedTile i i1 w k (c.tile (partIndex w.td.toNat k))))
    (coreOf i1)).unclaim false i1.g.id

theorem mstoreLocs_primal (hctl : (movesOf i w).ctl < 64) (n : Nat) :
    i.mstoreLocs w (i.mstore w) n = (List.range (movesOf i w).rows).map fun r => .tile i.t.id ((movesOf i w).elem r 0) := by
  simp only [Iss.mstoreLocs, mstore_tan hctl, moved_primal, List.map_cons, List.map_nil, mstore_rows, mstore_row]
  exact (List.map_eq_flatMap ..).symm

theorem exec_mld_of_fits (h : Issues s (dualSize p) w.g false .fall i ctl) (hfits : (movesOf i w).Fits true (i.tans p))
    (hmeet : i.meet ((movesOf i w).cols * (movesOf i w).size)
      ((List.range (movesOf i w).rows).map fun r => .tile i.t.id ((movesOf i w).elem r 0)) = .ok i1) :
    exec (.mld p w) s = .next ((i1.setUnit (loadedCore i i1 w (i.tans p))).commit i1.g ctl false) := by
  have hctl : (movesOf i w).ctl < 64 := hfits.fields.1
  obtain ⟨s1, hgo, -⟩ := Iss.meet_eq_ok hmeet
  have hg : i1.g.ctl = i.g.ctl := by rw [hgo]; exact (congrArg Group.ctl (i.unmet_kept s1) :)
  refine (exec_mld s p w).trans (issue_done h ?_ hg)
  simp only [mstoreChecks_of_fits hfits, mstoreOrder_of_fits h hfits, mstore_cols, mstore_size, mstoreLocs_primal hctl, hmeet, bind,
    Except.bind]
  refine congrArg i1.matrixDone
    (congrArg (fun f => List.foldl f i1.unit (moved (i.tans p) true)) (funext fun c => funext fun k => ?_))
  cases k with
  | none =>
    simp only [mstore_row, ← elem_cols, Option.isSome_none, Bool.false_and]
    rfl
  | some k =>
    simp only [mstore_tan hctl, Option.isSome_some, Bool.not_false, Bool.and_self, if_true]
    rfl

theorem loadedCore_tile (n x : Nat) :
    (loadedCore i i1 w n).tile x =
      if x = w.td.toNat then loadedTile i i1 w none ((coreOf i1).tile x)
      else if w.td.toNat < x ∧ x ≤ w.td.toNat + n then loadedTile i i1 w (some (x - w.td.toNat - 1)) ((coreOf i1).tile x)
      else (coreOf i1).tile x := by
  obtain ⟨hthis, hother⟩ := CoreSt.tile_foldl_setTile (loadedTile i i1 w) (partIndex w.td.toNat) x (moved n true) (coreOf i1)
    (nodup_partIndex _ n)
  split_ifs with hd hn
  · exact hthis none List.mem_cons_self hd.symm
  · refine hthis (some (x - w.td.toNat - 1)) (List.mem_cons_of_mem _ (List.mem_map_of_mem (List.mem_range.2 (by omega)))) ?_
    simp only [partIndex]; omega
  · refine hother fun hmem => ?_
    obtain ⟨k, hk, hx⟩ := List.mem_map.1 hmem
    obtain rfl | hk := List.mem_cons.1 hk
    · exact hd hx.symm
    · obtain ⟨q, hq, rfl⟩ := List.mem_map.1 (show k ∈ (List.range n).map some from hk)
      have hlt : q < n := List.mem_range.1 hq
      simp only [partIndex] at hx
      omega

theorem loadedCore_rest (i i1 : Iss) (w : FmtT) (n : Nat) :
    ∃ ts, loadedCore i i1 w n = { coreOf i1 with tiles := ts, claims := claimsLeft i1 } := by
  obtain ⟨ts, hts⟩ := CoreSt.foldl_setTile_rest
    (fun c k => (partIndex w.td.toNat k, loadedTile i i1 w k (c.tile (partIndex w.td.toNat k)))) (moved n true) (coreOf i1)
  exact ⟨ts, (congrArg (CoreSt.unclaim · false i1.g.id) hts).trans (unclaim_coreOf i1 ts)⟩

/-- An element as MLD finds it (R305). -/
theorem mstore_load (hctl : (movesOf i w).ctl ≤ 2) (bs : List Byte) :
    (i.mstore w).load bs = if (movesOf i w).ctl = 0 then BitVec.ofNat 32 (ofLe bs)
      else BitVec.ofNat 32 (convert (if (movesOf i w).ctl = 1 then bf16 else fp16) fp32 0 false false none (ofLe bs)).1 := by
  have hfmt : (i.mstore w).fmt = (movesOf i w).ctl := Nat.mod_eq_of_lt (show (movesOf i w).ctl < 8 by omega)
  rw [MStore.load, hfmt]

/-- The element of a row that MLD puts into the tile. -/
def Moves.fetched (m : Moves i w) (i1 : Iss) (me : Site) (r j : Nat) : W32 :=
  let x := ofLe ((List.range m.size).map fun b => i1.s.tileByte me i.t.id (m.elem r j + b))
  if m.ctl = 0 then BitVec.ofNat 32 x
  else BitVec.ofNat 32 (convert (if m.ctl = 1 then bf16 else fp16) fp32 0 false false none x).1

/-- MLD gives its tiles the elements that it finds, and its tangent tiles zeroes. -/
theorem loadedTile_at (hctl : (movesOf i w).ctl ≤ 2) (ht : i1.t = i.t) (k : Option Nat) {u : Tile} {r j : Nat} (hr : r < u.h)
    (hj : j < min u.w 64) :
    (loadedTile i i1 w k u).at r j =
      if r < (movesOf i w).rows ∧ j < (movesOf i w).cols then
        if k.isSome then 0 else (movesOf i w).fetched i1 (i1.s.siteOf i1.g.id) r j
      else u.at r j := by
  rw [loadedTile, Tile.at_build _ hr hj, mstore_load hctl, ht]
  rfl

/-- MLD, from the state in which what it must find has arrived. -/
theorem tileLoads (h : Issues s (dualSize p) w.g false .fall i ctl) (hfits : (movesOf i w).Fits true (i.tans p))
    (hmeet : i.meet ((movesOf i w).cols * (movesOf i w).size)
      ((List.range (movesOf i w).rows).map fun r => .tile i.t.id ((movesOf i w).elem r 0)) = .ok i1) :
    Retiles (.mld p w) s i1 ctl (coreOf i).owner fun k u =>
      u.h = ((coreOf i).tile k).h ∧ u.w = ((coreOf i).tile k).w ∧
      (k < w.td.toNat ∨ w.td.toNat + i.tans p < k → u = (coreOf i).tile k) ∧
      (w.td.toNat ≤ k → k ≤ w.td.toNat + i.tans p → ∀ r < u.h, ∀ j < min u.w 64, u.at r j =
        if r < (movesOf i w).rows ∧ j < (movesOf i w).cols then
          if k ≠ w.td.toNat then 0 else (movesOf i w).fetched i1 (s.siteOf i.g.id) r j
        else ((coreOf i).tile k).at r j) := by
  have hctl : (movesOf i w).ctl ≤ 2 := hfits.fields.2.2
  have hstate := h.state
  have hstep := exec_mld_of_fits h hfits hmeet
  obtain ⟨s1, hgo, hrest⟩ := Iss.meet_eq_ok hmeet
  have hcore : coreOf i1 = coreOf i := by
    rw [hgo]; exact (congrArg (fun t : State => t.coreSt (coreKey i.t.die i.t.core)) hrest :)
  have htick : i1.s.tick = s.tick := by rw [hgo, ← hstate]; exact (congrArg State.tick hrest :)
  have hgid : i1.g.id = i.g.id := by rw [hgo]; exact (congrArg Group.id (i.unmet_kept s1) :)
  have ht : i1.t = i.t := by rw [hgo]; rfl
  have hsite : i1.s.siteOf i1.g.id = s.siteOf i.g.id := by
    have hissuer := (issueOf_some h.found).1
    have hcur : s.group? s.cur = some i.g := State.group?_of_issuer hissuer
    have hgroup : s.group? i.g.id = some i.g := (State.group?_id hcur).symm ▸ hcur
    rw [hgid, hgo]
    exact State.siteOf_of_besidesPerforming (hstate ▸ hrest) hgroup (State.team?_of_issuer hissuer)
  obtain ⟨ts, hts⟩ := loadedCore_rest i i1 w (i.tans p)
  refine ⟨_, loadedCore i i1 w (i.tans p), hstep, ⟨?_, look_keep_self .., fun j hj => look_keep_other _ _ _ hj, rfl⟩, ?_, fun k => ?_⟩
  · rw [State.commit_plain, ← htick]; rfl
  · rw [hts, hcore]
  · rw [loadedCore_tile, hcore]
    split_ifs with hd hn
    · refine ⟨rfl, rfl, fun hout => by omega, fun _ _ r hr j hj => ?_⟩
      rw [loadedTile_at (u := (coreOf i).tile k) hctl ht none hr hj, hsite, if_neg (not_not.2 hd)]; rfl
    · refine ⟨rfl, rfl, fun hout => by omega, fun _ _ r hr j hj => ?_⟩
      rw [loadedTile_at (u := (coreOf i).tile k) hctl ht _ hr hj, if_pos hd]; rfl
    · exact ⟨rfl, rfl, fun _ => rfl, fun h1 h2 => by omega⟩

end mld

/-- Settles O10: MST and MLD pass or fail one row of checks; MST's rows are writes that its group alone finds, and MLD builds its
tiles anew from the bytes that it has met. -/
theorem tileStoresAndLoads : Obligations.TileStoresAndLoads := by
  intro p w s i ctl h m n d me
  have hfound : s.team? i.g.team = some i.t := State.team?_of_issuer (issueOf_some h.found).1
  have hteam : s.team? i.t.id = some i.t := (State.team?_id hfound).symm ▸ hfound
  refine ⟨fun howns hready hmis => ?_, fun howns hready haligned hcols hout => ?_, fun hfits hclear => ?_, fun i1 hmeet hfits => ?_,
    fun hfree k ls => ?_⟩
  · exact moves_trap h fun _ _ => mstoreChecks_misaligned howns hready hmis _ _
  · exact moves_trap h fun _ _ => mstoreChecks_outside howns hready haligned hcols hout _ _
  · obtain ⟨ws, hleaves⟩ := leavesRows h hclear (mstFlags i w (i.tans p))
    exact ⟨_, _, exec_mst_of_fits h hfits, hleaves.team hteam, rfl, or_and_self_flags ..,
      fun r hr j hj b hb => hleaves.inside hfits.shape.2.2.2 hr hj hb, fun a ha => hleaves.outside ha,
      fun x k a hx => hleaves.otherReader hx a, fun v hv => hleaves.newWrites hv, hleaves.memory, fun x hx => hleaves.otherTeam hx,
      hleaves.core, hleaves.groups, hleaves.rest⟩
  · exact tileLoads h hfits hmeet
  · exact Iss.meet_of_free (h.state ▸ hfree) k ls

end Sys2Proof.Claims
end

section
/-! PROOFS. IABS (spec/04 R82). -/

namespace Sys2Proof

/-- A unit with the opcode of an instruction begins its word (R23). -/
theorem decode_of_opcode {lo : W32} {n : Nat} (hop : lo.extractLsb' 0 8 = BitVec.ofNat 8 n) (hn : n < 0xF0) (hi : W32) :
    decode [lo, hi] = decodeWord none (hi ++ lo) := by
  have hopcode : isPrefixUnit lo = false := by
    simp only [isPrefixUnit, hop, BitVec.toNat_ofNat, decide_eq_false_iff_not]
    omega
  simp [decode, hopcode]

theorem flOnly_sat {w : FmtA} (h : w.flOnly satBit = true) : w.fl.getLsbD 0 = false ∧ w.fl.getLsbD 2 = false := by
  have hbits : ∀ fl : BitVec 3, (fl &&& ~~~satBit == 0) = true → fl.getLsbD 0 = false ∧ fl.getLsbD 2 = false := by decide
  exact hbits w.fl h

end Sys2Proof

namespace Sys2Proof.Claims

open Sys2Proof.Machine

theorem satWord_natAbs_wraps (a : W32) : satWord false false a.toInt.natAbs = BitVec.ofNat 32 a.toInt.natAbs :=
  BitVec.ofInt_natCast ..

/-- R82: only the magnitude of 0x8000_0000 is clamped. -/
theorem satWord_natAbs_clamps (a : W32) :
    satWord true false a.toInt.natAbs = if a = 0x80000000 then 0x7FFFFFFF else BitVec.ofNat 32 a.toInt.natAbs := by
  rw [← satWord_natAbs_wraps, satWord_natAbs, satWord_natAbs]
  simp

theorem iabs_wf {w : FmtA} (h : (Instr.iabs w).wf = true) :
    w.fn = 0 ∧ w.fl.getLsbD 0 = false ∧ w.fl.getLsbD 2 = false ∧ w.b.unused = true ∧ w.c.unused = true := by
  simp only [Instr.wf, FmtA.plain, FmtA.srcs, Bool.and_eq_true, decide_eq_true_eq] at h
  obtain ⟨⟨⟨-, hb, hc⟩, hfn⟩, hfl⟩ := h
  obtain ⟨h0, h2⟩ := flOnly_sat hfl
  exact ⟨BitVec.eq_of_toNat_eq (Nat.lt_one_iff.1 hfn), h0, h2, hb, hc⟩

theorem decode_iabs {lo hi : W32} (hop : lo.extractLsb' 0 8 = 0x09#8) {i : Instr} (h : decode [lo, hi] = .ok i) :
    ∃ w, i = .iabs w := by
  have hop' : (fld (hi ++ lo) 0 8).toNat = 9 := by
    rw [show fld (hi ++ lo) 0 8 = lo.extractLsb' 0 8 from BitVec.extractLsb'_append_eq_of_add_le (by decide), hop]; rfl
  rw [decode_of_opcode hop (by decide), decodeWord, decodeFields, hop'] at h
  cases hdec : decA (hi ++ lo) with
  | error e => simp [hdec, noDual, Except.map] at h
  | ok w =>
    simp only [hdec, noDual, Except.map] at h
    split at h
    · cases h
      exact ⟨w, rfl⟩
    · cases h

/-- Settles O36: the word that IABS writes is the magnitude, clamped or cut, and its opcode decodes to nothing else. -/
theorem absoluteValue : Obligations.AbsoluteValue := by
  refine ⟨fun w => ⟨fun hsat => ?_, fun hsat => ?_, iabs_wf⟩, fun lo hi hop i => decode_iabs hop, rfl⟩
  · refine word1_of_alu (exec_iabs · w) fun a => ?_
    rw [flSat, hsat]
    exact satWord_natAbs_wraps a
  · refine word1_of_alu (exec_iabs · w) fun a => ?_
    rw [flSat, hsat]
    exact satWord_natAbs_clamps a

end Sys2Proof.Claims
end

section
/-! PROOFS. Register pairs and predicates (spec/04 R88, R89). -/

namespace Sys2Proof.Claims

open Sys2Proof.Machine

/-! ### Register pairs -/

theorem nth_vals (ds : List Datum) (k : Nat) : nth (ds.map (·.val)) k = (ds.getD k {}).val :=
  List.getD_map (d := ({} : Datum)) ds (·.val)

theorem length_range_two {o : Opnd} (h : o.isQueue = false) : (o.range 2).length = if o = .zr then 1 else 2 := by
  cases o with
  | q n => simp [Opnd.isQueue] at h
  | zr => rfl
  | _ => simp [Opnd.range]

/-- A pair among the words read is one 64-bit number, low word first, and the words after it follow. -/
theorem takePair_vals {o : Opnd} (h : o.isQueue = false) (ds : List Datum) :
    takePair o (ds.map (·.val)) =
      (if o = .zr then 0 else (ds.getD 0 {}).val.toNat + 2 ^ 32 * (ds.getD 1 {}).val.toNat,
        (ds.drop (o.range 2).length).map (·.val)) := by
  rw [takePair, length_range_two h, nth_vals, nth_vals, pairNat, Nat.mul_comm]
  split <;> simp only [List.map_drop]

theorem getD_drop (ds : List Datum) (k j : Nat) : (ds.drop k).getD j {} = ds.getD (k + j) {} := by
  simp [List.getD_eq_getElem?_getD]

theorem pairAddresses : PairAddresses := by
  refine fun w => ⟨fun ha hb => does_apply (exec_iadd64 · w) (fun _ => rfl) fun i lane => ?_,
    fun ha => does_apply (exec_lea · w) (fun _ => rfl) fun i lane => ?_⟩
  · simp only [takePair_vals ha, takePair_vals hb, getD_drop]
    rfl
  · simp only [takePair_vals ha, nth_vals, getD_drop]
    rfl

/-! ### Predicates -/

/-- The functions of Table 4.6, in order. -/
theorem plopBit_eq {fn : Nat} (hfn : fn < 4) (a b : Bool) :
    plopBit fn a b = [a && b, a || b, xor a b, a && !b].getD fn false := by
  match fn, hfn with
  | 0, _ | 1, _ | 2, _ | 3, _ => rfl

/-- A sum of powers of two below 2^n has the bits of its terms. -/
theorem sumOfBits_testBit (p : Nat → Bool) : ∀ n,
    (List.range n).foldl (fun x k => if p k then x + 2 ^ k else x) 0 < 2 ^ n ∧
    ∀ k, ((List.range n).foldl (fun x k => if p k then x + 2 ^ k else x) 0).testBit k = (decide (k < n) && p k)
  | 0 => by simp
  | n + 1 => by
    obtain ⟨hlt, hbits⟩ := sumOfBits_testBit p n
    rw [List.range_succ, List.foldl_append, List.foldl_cons, List.foldl_nil]
    generalize (List.range n).foldl (fun x k => if p k then x + 2 ^ k else x) 0 = x at hlt hbits
    have hbelow {k : Nat} (hk : k ≠ n) : k < n + 1 ↔ k < n := by omega
    by_cases hp : p n = true
    · have hor : x + 2 ^ n = 2 ^ n ||| x := by
        rw [Nat.add_comm]; simpa using Nat.two_pow_add_eq_or_of_lt hlt 1
      rw [if_pos hp]
      refine ⟨by omega, fun k => ?_⟩
      rw [hor, Nat.testBit_or, Nat.testBit_two_pow, hbits]
      by_cases hk : k = n
      · simp [hk, hp]
      · simp [Ne.symm hk, hbelow hk]
    · rw [if_neg hp]
      refine ⟨by omega, fun k => ?_⟩
      rw [hbits]
      by_cases hk : k = n
      · simp [hk, hp]
      · simp [hbelow hk]

/-- R89: the predicates of a lane as a byte, of which bit 7 is P7. -/
theorem predByte_eq (g : Group) (lane : Nat) :
    g.predByte lane = ofBits fun n => decide (n = 7) || (decide (n < 7) && g.pred false (BitVec.ofNat 3 n) lane) := by
  refine eq_ofBits fun k hk => ?_
  have hbit := (sumOfBits_testBit (fun n => g.pred false (BitVec.ofNat 3 n) lane) 8).2 k
  rw [Group.predByte, BitVec.getLsbD_ofNat, hbit, decide_eq_true hk, Bool.true_and]
  by_cases h7 : k = 7
  · subst h7; rfl
  · have : k < 8 ↔ k < 7 := by omega
    simp [h7, this]

theorem predicateLogic : PredicateLogic := by
  refine ⟨fun w hfn => does_apply (exec_plop · w) (fun _ => rfl) fun i lane => ?_,
    fun w => does_apply (exec_prd · w) (fun _ => rfl) fun i lane => congrArg one (predByte_eq i.g lane),
    fun w => does_apply (exec_pwr · w) (fun _ => rfl) fun i lane => ?_⟩
  · exact congrArg (fun b : Bool => ({ preds := [(w.pd.pn, b)] } : LaneOut)) (plopBit_eq hfn _ _)
  · obtain ⟨x, y, hds⟩ := List.length_eq_two.1 (reads_length i.g lane ([w.a.field, w.b.field].map (·.o)))
    rw [hds]
    rfl

/-- Settles O40: pairs as 64-bit numbers, and predicates bit by bit, from the general form of each instruction. -/
theorem addressesAndPredicates : Obligations.AddressesAndPredicates := ⟨pairAddresses, predicateLogic⟩

end Sys2Proof.Claims
end

section
/-! PROOFS. The control state of a group: end checks, unwinding and reconvergence (spec/04 R95 to R97, spec/08 R161). -/

namespace Sys2Proof.Machine

/-! ### The end check -/

section endCheck
variable {floor : Nat} {e : LoopEnt} {es : List LoopEnt} {pc : CodeAt}

/-- An address that ends no body is gone on at. -/
theorem endCheck_elsewhere {loops : List LoopEnt} (h : ∀ e es, loops = e :: es → pc ≠ e.fin) :
    endCheck floor loops pc = (loops, pc) := by
  cases loops with
  | nil => rfl
  | cons e es => rw [endCheck, if_neg fun hend => h e es rfl hend.2]

theorem endCheck_repeats (hfloor : floor ≤ es.length) (hend : pc = e.fin) (hcount : e.count ≠ 1) :
    endCheck floor (e :: es) pc = ({ e with count := e.count - 1 } :: es, e.start) := by
  rw [endCheck, if_pos ⟨Nat.lt_succ_of_le hfloor, hend⟩, if_neg fun h => hcount (sub_eq_zero.1 h)]

theorem endCheck_pops (hfloor : floor ≤ es.length) (hend : pc = e.fin) (hcount : e.count = 1) :
    endCheck floor (e :: es) pc = endCheck floor es pc := by
  rw [endCheck, if_pos ⟨Nat.lt_succ_of_le hfloor, hend⟩, if_pos (by rw [hcount]; rfl)]

end endCheck

/-! ### A group that has not split -/

section whole
variable {c : Ctl} {top : DivEnt} (hdiv : c.div = [top])
include hdiv

theorem Ctl.settle_whole (loops : List LoopEnt) (pc : CodeAt) :
    Ctl.settle c.div loops pc = some (Ctl.setPc { c with loops := loops } pc) := by
  rw [Ctl.settle, hdiv]
  simp only [rejoin, Bool.false_eq_true, if_false, Ctl.setPc]

theorem Ctl.advance_branch_whole (a8 t : CodeAt) :
    c.advance a8 (.branch t) = some (Ctl.setPc { c with loops := unwind c.loops t } t) :=
  Ctl.settle_whole hdiv ..

/-- Without a reconvergence address every loop takes part in the end check. -/
theorem Ctl.advance_fall_whole (hrcv : top.rcv = none) (pc : CodeAt) :
    c.advance pc .fall = some (Ctl.setPc { c with loops := (endCheck 0 c.loops pc).1 } (endCheck 0 c.loops pc).2) := by
  have hfloor : c.floor pc = 0 := by simp [Ctl.floor, hdiv, hrcv]
  rw [Ctl.advance, hfloor]
  exact Ctl.settle_whole hdiv ..

end whole

/-! ### A path that arrives -/

section arrival
variable {e e' : DivEnt} {es : List DivEnt} {loops : List LoopEnt} {t : CodeAt}

/-- R97: a path that arrives with deeper loops than its branch had cannot end. -/
theorem Ctl.settle_deeper (hmask : e.mask ≠ 0) (hrcv : e.rcv = some t) (hdeep : e.loops.length < loops.length) :
    Ctl.settle (e :: e' :: es) loops t = none := by
  rw [Ctl.settle, rejoin, if_neg hmask, if_pos hrcv, if_pos hdeep]

/-- An entry with lanes left that is not at its reconvergence address runs. -/
theorem rejoin_stays (hmask : e.mask ≠ 0) (hrcv : e.rcv ≠ some t) (j : Bool) :
    rejoin (e :: es) loops t j = some (e :: es, loops, t, j) := by
  cases es with
  | nil => rfl
  | cons e' es => rw [rejoin, if_neg hmask, if_neg hrcv]

/-- R161: a path that arrives ends, and the entry below runs. -/
theorem rejoin_arrives (hmask : e.mask ≠ 0) (hrcv : e.rcv = some t) (hdepth : loops.length ≤ e.loops.length)
    (hmask' : e'.mask ≠ 0) (hrcv' : e'.rcv ≠ some e'.pc) (j : Bool) :
    rejoin (e :: e' :: es) loops t j = some (e' :: es, if e'.join then loops else e'.loops, e'.pc, e'.join) := by
  rw [rejoin, if_neg hmask, if_pos hrcv, if_neg (Nat.not_lt.2 hdepth), rejoin_stays hmask' hrcv']

end arrival

end Sys2Proof.Machine

namespace Sys2Proof.Claims

open Sys2Proof.Machine

theorem inBody_iff (l : LoopEnt) (t : CodeAt) : inBody l t ↔ (l.start.sle t && t.slt l.fin) = true := by
  rw [Bool.and_eq_true, BitVec.sle_iff_toInt_le, BitVec.slt_iff_toInt_lt, inBody]

/-- R96: the loops that a branch leaves lie above those that it keeps and do not hold its target; the top one kept does. -/
theorem unwind_splits (t : CodeAt) : ∀ loops : List LoopEnt, ∃ gone, loops = gone ++ unwind loops t ∧
    (∀ e ∈ gone, ¬ inBody e t) ∧ ∀ e es, unwind loops t = e :: es → inBody e t
  | [] => ⟨[], rfl, by simp, by simp [unwind]⟩
  | e :: es => by
    by_cases hin : inBody e t
    · rw [unwind, if_pos ((inBody_iff e t).1 hin)]
      refine ⟨[], rfl, by simp, fun f fs h => ?_⟩
      cases h
      exact hin
    · obtain ⟨gone, hsplit, hgone, hkept⟩ := unwind_splits t es
      rw [unwind, if_neg (hin ∘ (inBody_iff e t).2)]
      exact ⟨e :: gone, congrArg (e :: ·) hsplit, List.forall_mem_cons.2 ⟨hin, hgone⟩, hkept⟩

theorem endCheckOfLoops : EndCheck := by
  intro c top hdiv hrcv pc
  have hfall := Ctl.advance_fall_whole hdiv hrcv pc
  refine ⟨fun hloops => ?_, fun e es hloops => ⟨fun hne => ?_, fun heq hcount => ?_, fun heq hcount => ?_⟩⟩
  · rw [hfall, endCheck_elsewhere (by simp [hloops])]
  · rw [hfall, endCheck_elsewhere (by simp [hloops, hne])]
  · rw [hfall, hloops, endCheck_repeats (Nat.zero_le _) heq hcount]
  · rw [hfall, hloops, endCheck_pops (Nat.zero_le _) heq hcount]
    exact (Ctl.advance_fall_whole (c := { c with loops := es }) hdiv hrcv pc).symm

theorem unwinding : Unwinding := by
  intro c top hdiv a8 t
  obtain ⟨gone, hsplit, hgone, hkept⟩ := unwind_splits t c.loops
  exact ⟨gone, unwind c.loops t, hsplit, Ctl.advance_branch_whole hdiv a8 t, hgone, hkept⟩

theorem reconvergence : Reconvergence := by
  intro c e e' es t hdiv hmask hrcv
  refine ⟨fun hdeep => ?_, fun hdepth hmask' hrcv' => ?_⟩
  · rw [Ctl.advance, hdiv, Ctl.settle_deeper hmask hrcv hdeep]
  · rw [Ctl.advance, hdiv, Ctl.settle, rejoin_arrives hmask hrcv hdepth hmask' hrcv']
    cases e'.join <;> rfl

/-- Settles O44: the end check by the top loop's count, unwinding along the loops, and the arrival of a path at the entry below. -/
theorem endChecks : Obligations.EndChecks := ⟨endCheckOfLoops, unwinding, reconvergence⟩

end Sys2Proof.Claims
end

section
/-! PROOFS. What flow instructions find before they transfer control (spec/04 R91, R92, R94). -/

namespace Sys2Proof.Machine

/-- A cause that LOOPDIV does not outrank is raised wherever the group would go on. -/
theorem issue_unranked {s : State} {size : Nat} {gd : Guard} {u : Bool} {i : Iss} (hfound : s.issueOf size gd u = some i)
    (hlanes : i.ex ≠ []) {body : Iss → Except Stop Done} {code : BitVec 8} (hrank : outranked code = false)
    (hb : body i = i.cause code) :
    issue s size gd u body = .next (s.raise i.g i.c.debugStop { code := code, lane := i.ex.headD 0 } i.hmask) := by
  rw [issue_eq hfound hlanes, hb, Iss.cause, Iss.finish_cause (.inl hrank), (issueOf_some hfound).2.1, issueOf_kept hfound]

/-- A full source is read at once. -/
theorem Iss.checkSrcs_of_full {i : Iss} {f : Field} (h : ∀ lane ∈ i.ex, i.g.isFull lane 0 f.o = true) :
    i.checkSrcs [f] [] = .ok () := by
  have hnone : i.ex.find? (fun lane => !i.g.isFull lane 0 f.o) = none :=
    List.find?_eq_none.2 fun lane hl => by simp [h lane hl]
  simp only [Iss.checkSrcs, List.filter_nil, List.length_nil, hnone]

theorem Iss.checkBounds_one {i : Iss} {o : Opnd} (h : i.inBounds o = true) : i.checkBounds [o] = .ok () :=
  Iss.checkBounds_ok (by simp [h])

/-- Lanes that hold different words do not agree. -/
theorem Iss.agreed_eq_none {i : Iss} {o : Opnd} {x y : Nat} (hx : x ∈ i.ex) (hy : y ∈ i.ex)
    (hne : (i.g.datum x o).val ≠ (i.g.datum y o).val) : i.agreed o = none := by
  refine if_neg fun hall => hne ?_
  have hhead {z : Nat} (hz : z ∈ i.ex) := of_decide_eq_true (List.all_eq_true.1 hall _ (List.mem_map_of_mem hz))
  exact (hhead hx).trans (hhead hy).symm

end Sys2Proof.Machine

namespace Sys2Proof.Claims

open Sys2Proof.Machine

/-- Lanes execute in part of the active ones just where their number is another. -/
theorem mixed_iff {s : State} {size : Nat} {gd : Guard} {u : Bool} {i : Iss} (hfound : s.issueOf size gd u = some i) :
    i.mixed = true ↔ Mixed i := by
  have hsub : i.ex.Sublist (maskLanes i.g.ctl.mask) := (issueOf_some hfound).2.2.2.1 ▸ executing_sub
  rw [Iss.mixed, decide_eq_true_iff, Mixed, not_iff_not, hsub.length_eq]

section guard
variable {s : State} {size : Nat} {gd : Guard} {u : Bool} {i : Iss} (hfound : s.issueOf size gd u = some i) (code : BitVec 8)
include hfound

theorem check_of_uniform (huniform : ¬ Mixed i) : i.check (!i.mixed) code = .ok () :=
  Iss.check_of_true i _ _ (by simpa using mt (mixed_iff hfound).1 huniform)

theorem check_of_mixed (hmixed : Mixed i) : i.check (!i.mixed) code = i.cause code :=
  Iss.check_of_false i _ _ (by simp [(mixed_iff hfound).2 hmixed])

end guard

section agree
variable {i : Iss} {o : Opnd} {x : W32}

theorem Agree.agreed (h : Agree i o x) (hlanes : i.ex ≠ []) : i.agreed o = some x := by
  obtain ⟨l, ls, hls⟩ := List.exists_cons_of_ne_nil hlanes
  have hhead : (i.ex.map fun lane => (i.g.datum lane o).val).headD 0 = x := by
    rw [hls]; exact h.same l (by simp [hls])
  have hall : (i.ex.map fun lane => (i.g.datum lane o).val).all (· = x) = true := by
    simpa using h.same
  simp only [Iss.agreed, hhead, hall, if_true]

/-- R92: an aligned offset on which the lanes agree is a place to go. -/
theorem Agree.codeOffset (h : Agree i o x) (hlanes : i.ex ≠ []) (haligned : x.extractLsb' 0 2 = 0) :
    i.codeOffset o = .ok (x.setWidth 64) := by
  simp only [Iss.codeOffset, Iss.checkBounds_one h.bounds, Iss.checkSrcs_of_full (f := ⟨o, false⟩) h.full, h.agreed hlanes,
    bind, Except.bind, if_pos haligned]

end agree

section flow
variable {s : State} {gd : Guard} {i : Iss} (hfound : s.issueOf 8 gd false = some i)
include hfound

theorem after_eq : i.after = i.g.ctl.pc + 8 := by
  rw [Iss.after, (issueOf_some hfound).2.2.1]
  rfl

theorem addr_eq : i.addr = i.g.ctl.pc := by
  rw [Iss.addr, (issueOf_some hfound).2.2.1]
  exact BitVec.add_zero _

theorem target_eq (tgt : BitVec 24) : i.target tgt = ahead i.g.ctl.pc (tgt.signExtend 64) := by
  rw [Iss.target, addr_eq hfound, ahead]

theorem join_eq (rc : BitVec 20) : i.join rc = ahead i.g.ctl.pc (rc.setWidth 64) := by
  rw [Iss.join, addr_eq hfound, ahead]

/-- An instruction that changes the control state of its group alone, and where it goes on. -/
theorem goes_of_body (hlanes : i.ex ≠ []) {ins : Instr} {body : Iss → Except Stop Done}
    (he : exec ins s = issue s 8 gd false body) {c ctl : Ctl} {next : Next}
    (hb : body i = .ok { s := i.s, g := { i.g with ctl := c }, next := next })
    (hgo : c.advance (i.g.ctl.pc + 8) next = some ctl) : Goes ins s i ctl := by
  rw [Goes, he, issue_eq hfound hlanes, hb, Iss.finish_ok (ctl := ctl) (by rw [after_eq hfound]; exact hgo), State.commit_plain,
    (issueOf_some hfound).2.1]
  rfl

/-- An instruction that no active lane executes only advances (R26). -/
theorem goes_of_idle (hidle : i.ex = []) {ins : Instr} {body : Iss → Except Stop Done}
    (he : exec ins s = issue s 8 gd false body) {ctl : Ctl}
    (hgo : i.g.ctl.advance (i.g.ctl.pc + 8) .fall = some ctl) : Goes ins s i ctl := by
  rw [Goes, he, issue_idle hfound hidle, Iss.finish_ok (ctl := ctl) (by rw [after_eq hfound]; exact hgo), State.commit_plain,
    (issueOf_some hfound).2.1]

end flow

end Sys2Proof.Claims
end

section
/-! PROOFS. LOOP and LBRK (spec/04 R94, R98). -/

namespace Sys2Proof.Claims

open Sys2Proof.Machine

/-- What LOOP does with the count `n` and the end `t` once its guard and its lanes agree (R94, steps 4 to 7). -/
def loopFrom (i : Iss) (t : CodeAt) (n : W32) : Except Stop Done :=
  if n = 0 then .ok { s := i.s, g := i.g, next := .branch t }
  else do
    i.check (decide (i.g.ctl.loops.length < 4)) 0x04
    i.check (i.g.ctl.loops.head?.all fun e => t.sle e.fin) 0x04
    .ok { s := i.s, g := { i.g with ctl := { i.g.ctl with loops := ⟨i.after, t, n⟩ :: i.g.ctl.loops } } }

section loops
variable {w : FmtX} {s : State} {i : Iss} {ctl : Ctl} {e : LoopEnt} {es : List LoopEnt} {x y : Nat}
  (hfound : s.issueOf 8 w.g false = some i) (hlanes : i.ex ≠ [])
include hfound hlanes

/-! ### LBRK -/

theorem lbrk_mixed (hmixed : Mixed i) : Traps (.lbrk w) s i 0x04 := by
  refine (exec_lbrk s w).trans (issue_unranked hfound hlanes (by decide) ?_)
  rw [check_of_mixed hfound _ hmixed]
  rfl

theorem lbrk_empty (huniform : ¬ Mixed i) (hloops : i.g.ctl.loops = []) : Traps (.lbrk w) s i 0x04 := by
  refine (exec_lbrk s w).trans (issue_unranked hfound hlanes (by decide) ?_)
  rw [check_of_uniform hfound _ huniform, hloops]
  rfl

/-- R98: the top loop is popped. -/
theorem lbrk_pops (huniform : ¬ Mixed i) (hloops : i.g.ctl.loops = e :: es)
    (hgo : Ctl.advance { i.g.ctl with loops := es } (i.g.ctl.pc + 8) .fall = some ctl) : Goes (.lbrk w) s i ctl := by
  refine goes_of_body hfound hlanes (exec_lbrk s w) ?_ hgo
  rw [check_of_uniform hfound _ huniform, hloops]
  rfl

/-! ### LOOP, in the order of the steps of R94 -/

theorem loop_mixed (hbounds : i.inBounds w.d = true) (hmixed : Mixed i) : Traps (.loop w) s i 0x04 := by
  refine (exec_loop s w).trans (issue_unranked hfound hlanes (by decide) ?_)
  rw [Iss.checkBounds_one hbounds, check_of_mixed hfound _ hmixed]
  rfl

theorem loop_disagreeing (hbounds : i.inBounds w.d = true) (huniform : ¬ Mixed i)
    (hfull : ∀ lane ∈ i.ex, i.g.isFull lane 0 w.d = true) (hx : x ∈ i.ex) (hy : y ∈ i.ex)
    (hne : (i.g.datum x w.d).val ≠ (i.g.datum y w.d).val) : Traps (.loop w) s i 0x04 := by
  refine (exec_loop s w).trans (issue_unranked hfound hlanes (by decide) ?_)
  rw [Iss.checkBounds_one hbounds, check_of_uniform hfound _ huniform, Iss.checkSrcs_of_full (f := ⟨w.d, false⟩) hfull,
    Iss.agreed_eq_none hx hy hne]
  rfl

/-- Steps 4 to 7 of R94, for the count on which the lanes agree. -/
theorem exec_loop_of_agree (huniform : ¬ Mixed i) {n : W32} (hagree : Agree i w.d n) :
    exec (.loop w) s = issue s 8 w.g false fun i => loopFrom i (i.target w.tgt) n := by
  rw [exec_loop, execLoop, issue_eq hfound hlanes, issue_eq hfound hlanes, Iss.checkBounds_one hagree.bounds,
    check_of_uniform hfound _ huniform, Iss.checkSrcs_of_full (f := ⟨w.d, false⟩) hagree.full, hagree.agreed hlanes]
  rfl

theorem loop_zero (huniform : ¬ Mixed i) (hagree : Agree i w.d 0)
    (hgo : i.g.ctl.advance (i.g.ctl.pc + 8) (.branch (ahead i.g.ctl.pc (w.tgt.signExtend 64))) = some ctl) :
    Goes (.loop w) s i ctl :=
  goes_of_body hfound hlanes (exec_loop_of_agree hfound hlanes huniform hagree)
    (by rw [loopFrom, if_pos rfl, target_eq hfound]) hgo

section counted
variable {n : W32} (huniform : ¬ Mixed i) (hagree : Agree i w.d n) (hn : n ≠ 0)
include huniform hagree hn

theorem loop_full (hdepth : 4 ≤ i.g.ctl.loops.length) : Traps (.loop w) s i 0x04 := by
  refine (exec_loop_of_agree hfound hlanes huniform hagree).trans (issue_unranked hfound hlanes (by decide) ?_)
  rw [loopFrom, if_neg hn, Iss.check_of_false i _ _ (decide_eq_false (Nat.not_lt.2 hdepth))]
  rfl

theorem loop_beyond (hdepth : i.g.ctl.loops.length < 4) (hloops : i.g.ctl.loops = e :: es)
    (hbeyond : e.fin.toInt < (ahead i.g.ctl.pc (w.tgt.signExtend 64)).toInt) : Traps (.loop w) s i 0x04 := by
  refine (exec_loop_of_agree hfound hlanes huniform hagree).trans (issue_unranked hfound hlanes (by decide) ?_)
  rw [loopFrom, if_neg hn, Iss.check_of_true i _ _ (decide_eq_true hdepth), Iss.check_of_false i]
  · rfl
  · simpa [hloops, target_eq hfound, BitVec.sle_eq_decide] using hbeyond

theorem loop_pushes (hdepth : i.g.ctl.loops.length < 4)
    (hinside : ∀ e es, i.g.ctl.loops = e :: es → (ahead i.g.ctl.pc (w.tgt.signExtend 64)).toInt ≤ e.fin.toInt)
    (hgo : Ctl.advance { i.g.ctl with loops := ⟨i.g.ctl.pc + 8, ahead i.g.ctl.pc (w.tgt.signExtend 64), n⟩ :: i.g.ctl.loops }
      (i.g.ctl.pc + 8) .fall = some ctl) : Goes (.loop w) s i ctl := by
  refine goes_of_body hfound hlanes (exec_loop_of_agree hfound hlanes huniform hagree) ?_ hgo
  rw [loopFrom, if_neg hn, Iss.check_of_true i _ _ (decide_eq_true hdepth), Iss.check_of_true i, target_eq hfound, after_eq hfound]
  · rfl
  · cases hloops : i.g.ctl.loops with
    | nil => rfl
    | cons e es => simpa [target_eq hfound, BitVec.sle_eq_decide] using hinside e es hloops

end counted

end loops

/-- Settles O4, step by step of R94: a guard that divides the lanes, counts that differ, the count 0, and a counted loop that finds
no place, reaches beyond its outer loop, or is pushed. -/
theorem loopInstructions : Obligations.LoopInstructions := by
  intro w s i hfound hlanes a t loops
  refine ⟨?_, ?_, fun x y => ?_, fun ctl => ?_, fun n huniform hagree hn => ⟨?_, fun hdepth ⟨e, es, hloops, hbeyond⟩ => ?_,
    fun ctl => ?_⟩, ?_, fun e es ctl huniform => ?_⟩
  · exact loop_mixed hfound hlanes
  · exact lbrk_mixed hfound hlanes
  · exact loop_disagreeing hfound hlanes
  · exact loop_zero hfound hlanes
  · exact loop_full hfound hlanes huniform hagree hn
  · exact loop_beyond hfound hlanes huniform hagree hn hdepth hloops hbeyond
  · exact loop_pushes hfound hlanes huniform hagree hn
  · exact lbrk_empty hfound hlanes
  · exact lbrk_pops hfound hlanes huniform

/-- Settles O37: LBRK by its guard and by the loops that it finds; where the next word ends no outer body, the end check leaves
them alone. -/
theorem loopBreak : Obligations.LoopBreak := by
  intro w s i hfound a8 loops
  refine ⟨fun hidle ctl hgo => ?_, lbrk_mixed hfound, lbrk_empty hfound, fun hlanes huniform e es hloops =>
    ⟨fun top hdiv hrcv hend => ?_, fun ctl => lbrk_pops hfound hlanes huniform hloops⟩⟩
  · exact goes_of_idle hfound hidle (exec_lbrk s w) hgo
  · refine lbrk_pops hfound hlanes huniform hloops ?_
    rw [Ctl.advance_fall_whole (c := { i.g.ctl with loops := es }) hdiv hrcv,
      endCheck_elsewhere fun f fs hf => (hend f fs hf).symm]
    simp only [Ctl.setPc, hdiv]

end Sys2Proof.Claims
end

section
/-! PROOFS. BRA and BRX (spec/04 R91, R92, R97; spec/08 R159, R160). -/

namespace Sys2Proof.Claims

open Sys2Proof.Machine

/-! ### The split -/

/-- A branch at `a` to `t` may split its group, to rejoin at `j`: not beyond the path's own reconvergence address (R160), on a
divergence stack with room, and within the body of the innermost loop (R97). -/
structure CanSplit (c : Ctl) (top : DivEnt) (es : List DivEnt) (a t j : CodeAt) : Prop where
  div : c.div = top :: es
  nested : ∀ r, top.rcv = some r → j.toInt ≤ r.toInt
  room : c.div.length < 255
  inLoop : ∀ l ls, c.loops = l :: ls → inBody l t ∧ a.toInt < j.toInt ∧ j.toInt ≤ l.fin.toInt

/-- The group's control state after the split: the fall-through path on top, then the taken path, then the join. -/
def forked (c : Ctl) (top : DivEnt) (es : List DivEnt) (a t j : CodeAt) (taken fall : W32) : Ctl :=
  { c with div :=
      { pc := a + 8, mask := fall, rcv := some j, loops := c.loops } ::
      { pc := t, mask := taken, rcv := some j, loops := c.loops } ::
      { top with pc := j, join := true } :: es }

section split
variable {c : Ctl} {top : DivEnt} {es : List DivEnt} {a t j : CodeAt}

theorem CanSplit.nests (h : CanSplit c top es a t j) : (top.rcv.any fun r => r.slt j) = false := by
  cases hrcv : top.rcv with
  | none => rfl
  | some r => simpa [BitVec.slt_eq_decide] using h.nested r hrcv

theorem CanSplit.split (h : CanSplit c top es a t j) (taken fall : W32) :
    c.split a t j taken fall = .ok (forked c top es a t j taken fall) := by
  have hroom : ¬ 254 < (top :: es).length := by have := h.room; rw [h.div] at this; omega
  rw [Ctl.split, h.div]
  simp only [h.nests, Bool.false_eq_true, if_false, if_neg hroom]
  refine if_neg ?_
  cases hloops : c.loops with
  | nil => simp
  | cons l ls =>
    obtain ⟨⟨hstart, hend⟩, hahead, hfin⟩ := h.inLoop l ls hloops
    simp [BitVec.slt_eq_decide, BitVec.sle_eq_decide, hstart, hend, hahead, hfin]

end split

/-! ### Branches -/

section branches
variable {s : State} {gd : Guard} {i : Iss} (hfound : s.issueOf 8 gd false = some i)
include hfound

theorem branchTo_uniform (huniform : ¬ Mixed i) (rc : BitVec 20) (t : CodeAt) :
    i.branchTo rc t = .ok { s := i.s, g := i.g, next := .branch t } :=
  if_pos (by simpa using mt (mixed_iff hfound).1 huniform)

theorem branchTo_alone (hmixed : Mixed i) (t : CodeAt) : i.branchTo 0 t = i.cause 0x01 := by
  rw [Iss.branchTo, if_neg (by simp [(mixed_iff hfound).2 hmixed]), if_pos rfl]

/-- The ILLOP cases that need no target. -/
theorem branchLegal_alone (hmixed : Mixed i) : i.branchLegal 0 = false := by
  simp [Iss.branchLegal, (mixed_iff hfound).2 hmixed]

theorem branchLegal_uniform (huniform : ¬ Mixed i) (rc : BitVec 20) : i.branchLegal rc = true := by
  simp [Iss.branchLegal, mt (mixed_iff hfound).1 huniform]

section split
variable {rc : BitVec 20} {top : DivEnt} {es : List DivEnt} {t : CodeAt} (hmixed : Mixed i) (hrc : rc ≠ 0)
  (h : CanSplit i.g.ctl top es i.g.ctl.pc t (ahead i.g.ctl.pc (rc.setWidth 64)))
include hrc h

theorem CanSplit.branchLegal : i.branchLegal rc = true := by
  have hnests := h.nests
  rw [← join_eq hfound] at hnests
  simpa [Iss.branchLegal, h.div, hnests] using .inr hrc

include hmixed

theorem CanSplit.branchTo :
    i.branchTo rc t = .ok { s := i.s, next := .jump (i.g.ctl.pc + 8), g := { i.g with
      ctl := forked i.g.ctl top es i.g.ctl.pc t (ahead i.g.ctl.pc (rc.setWidth 64)) (laneMask i.ex)
        (i.g.ctl.mask &&& ~~~(laneMask i.ex)) } } := by
  rw [Iss.branchTo, if_neg (by simp [(mixed_iff hfound).2 hmixed]), if_neg hrc, addr_eq hfound, join_eq hfound,
    after_eq hfound]
  simp only [h.split]

end split

end branches

/-- Table 4.8, for BRA and for BRX. -/
theorem branches : Branches := by
  intro w s i hfound hlanes a join splits
  refine ⟨fun ctl huniform hgo => ?_, fun hmixed hrc => ⟨?_, ?_⟩,
    fun top es ctl hdiv hmixed hrc hnested hroom hloop hgo => ?_,
    fun t hagree haligned => ⟨fun ctl huniform hgo => ?_, fun top es ctl hdiv hmixed hrc hnested hroom hloop hgo => ?_⟩⟩
  · refine goes_of_body hfound hlanes (exec_bra s w) (branchTo_uniform hfound huniform _ _) ?_
    rw [target_eq hfound]
    exact hgo
  · refine (exec_bra s w).trans (issue_unranked hfound hlanes (by decide) ?_)
    rw [hrc]
    exact branchTo_alone hfound hmixed _
  · refine (exec_brx s w).trans (issue_unranked hfound hlanes (by decide) ?_)
    rw [hrc, Iss.check_of_false i _ _ (branchLegal_alone hfound hmixed)]
    rfl
  · have hsplit : CanSplit i.g.ctl top es a (ahead a (w.tgt.signExtend 64)) join := ⟨hdiv, hnested, hroom, hloop⟩
    refine goes_of_body hfound hlanes (exec_bra s w) (c := forked _ _ _ _ _ _ _ _) (next := .jump (a + 8)) ?_ hgo
    rw [target_eq hfound]
    exact CanSplit.branchTo hfound hmixed hrc hsplit
  · refine goes_of_body hfound hlanes (exec_brx s w) ?_ hgo
    rw [Iss.check_of_true i _ _ (branchLegal_uniform hfound huniform _), hagree.codeOffset hlanes haligned]
    exact branchTo_uniform hfound huniform _ _
  · have hsplit : CanSplit i.g.ctl top es a (t.setWidth 64) join := ⟨hdiv, hnested, hroom, hloop⟩
    refine goes_of_body hfound hlanes (exec_brx s w) (c := forked _ _ _ _ _ _ _ _) (next := .jump (a + 8)) ?_ hgo
    rw [Iss.check_of_true i _ _ (CanSplit.branchLegal hfound hrc hsplit), hagree.codeOffset hlanes haligned]
    exact CanSplit.branchTo hfound hmixed hrc hsplit

end Sys2Proof.Claims
end

section
/-! PROOFS. CALL and RET (spec/04 R93). -/

namespace Sys2Proof.Machine

/-- Data written to one operand in the executing lanes, and nothing else. -/
theorem Iss.leaves_giveAll {i : Iss} {gd : Guard} {u : Bool} (hex : i.ex = i.g.executing gd u) (ctl : Ctl) (o : Opnd)
    (f : Nat → Datum) :
    i.Leaves ctl [] [o] (fun lane => { out := [f lane] })
      ((i.g.giveAll o (i.ex.map fun lane => (lane, f lane))).goesOn ctl i.s.tick) := by
  have hnd : i.ex.Nodup := hex ▸ nodup_executing ..
  have hlt : ∀ x ∈ i.ex, x < 32 := fun x hx => executing_lt (hex ▸ hx)
  have houts : i.g.giveAll o (i.ex.map fun lane => (lane, f lane)) =
      i.g.giveOuts [o] (i.ex.map fun lane => (lane, [f lane])) := by
    rw [Group.giveOuts_cons]; rfl
  have hsame {β : Type} (π : Group → β) (h : ∀ (g : Group) l o d, π (g.give l o d) = π g) :=
    Group.giveOuts_same π h [o] (i.ex.map fun lane => (lane, [f lane])) i.g
  rw [houts]
  refine ⟨?_, fun n l hl => ?_, fun n => ?_, fun n l => ?_, fun n l _ => ?_, fun l => ?_⟩
  · exact congrArg (fun g : Group => g.goesOn ctl i.s.tick) (hsame Group.rest (by simp))
  · exact Group.giveOuts_vCell hl i.ex hlt [o] (fun lane => [f lane]) i.g
  · exact Group.giveOuts_sCell i.ex [o] (fun lane => [f lane]) i.g
  · exact Group.giveOuts_queue i.ex hnd [o] (fun lane => [f lane]) i.g
  · refine (hsame (fun g => g.pred false n l) (by simp [Group.pred])).trans ?_
    by_cases hn : n = 7
    · simp [hn, Group.pred]
    · rw [if_neg hn]
      cases i.source l <;> rfl
  · refine (hsame (fun g => look 0 g.fpst l) (by simp)).trans ?_
    cases i.source l <;> simp

end Sys2Proof.Machine

namespace Sys2Proof.Claims

open Sys2Proof.Machine

/-- The link that CALL leaves in a lane: the offset of the next word, beside the tangents that were there (R80, R93). -/
def linkOf (i : Iss) (o : Opnd) (lane : Nat) : Datum := { i.g.datum lane o with val := (i.g.ctl.pc + 8).setWidth 32 }

theorem callsAndReturns : CallsAndReturns := by
  intro w s i ctl
  refine ⟨fun h huniform hready => ?_, fun t h huniform hagree haligned => ?_, fun hfound hlanes hmixed => ⟨?_, ?_⟩⟩
  · have hctl := Group.giveAll_same (·.ctl) w.d (fun g l d => by cases w.d <;> rfl) i.g
      (i.ex.map fun lane => (lane, linkOf i w.d lane))
    refine ⟨_, ?_, Iss.leaves_giveAll h.ex ctl w.d (linkOf i w.d)⟩
    rw [exec_call, execCall, issue_done h (s' := i.s) (region := false) _ hctl, State.commit_plain, h.state]
    rw [check_of_uniform h.found _ huniform, hready, after_eq h.found, target_eq h.found]
    rfl
  · refine goes_of_body h.found h.lanes (exec_ret s w) (next := .jump (t.setWidth 64)) ?_ ((after_eq h.found) ▸ h.flow)
    rw [check_of_uniform h.found _ huniform, hagree.codeOffset h.lanes haligned]
    rfl
  · refine (exec_call s w).trans (issue_unranked hfound hlanes (by decide) ?_)
    rw [check_of_mixed hfound _ hmixed]
    rfl
  · refine (exec_ret s w).trans (issue_unranked hfound hlanes (by decide) ?_)
    rw [check_of_mixed hfound _ hmixed]
    rfl

/-- Settles O46: the outcome of a branch by its taken lanes and its reconvergence address, and CALL and RET by their guard. -/
theorem controlTransfers : Obligations.ControlTransfers := ⟨branches, callsAndReturns⟩

end Sys2Proof.Claims
end

section
/-! PROOFS. Instructions whose lanes compute apart: what they deliver, and the trap of an enabled flag (spec/05 R109, R110). -/

namespace Sys2Proof.Machine

/-- The trap of R110: the first flag in order, of the lowest lane that raises and enables it. -/
theorem Group.fpTrap_eq_some {g : Group} {ls : List Nat} {out : Nat → LaneOut} {n : Nat} {bit : Flags} {code : BitVec 8}
    {lane : Nat} (hn : fpCauses[n]? = some (bit, code)) (hsorted : ls.Pairwise (· < ·)) (hlane : lane ∈ ls)
    (hbit : (out lane).flags &&& look 0 g.fpte lane &&& bit ≠ 0)
    (hbefore : ∀ l ∈ ls, ∀ f ∈ fpCauses.take n, (out l).flags &&& look 0 g.fpte l &&& f.1 = 0)
    (hlower : ∀ l ∈ ls, l < lane → (out l).flags &&& look 0 g.fpte l &&& bit = 0) :
    g.fpTrap (ls.map fun l => (l, out l)) = some (code, lane) := by
  obtain ⟨hlt, hget⟩ := List.getElem?_eq_some_iff.1 hn
  have hsplit : fpCauses = fpCauses.take n ++ (bit, code) :: fpCauses.drop (n + 1) := by
    rw [← hget, ← List.drop_eq_getElem_cons hlt, List.take_append_drop]
  refine List.findSome?_eq_some_iff.2 ⟨_, _, _, hsplit, ?_, fun f hf => ?_⟩
  · have hleast : ls.find? (fun l => decide ((out l).flags &&& look 0 g.fpte l &&& bit ≠ 0)) = some lane :=
      find?_eq_some_of_least hsorted hlane (decide_eq_true hbit) fun l hl hraised => by
        by_contra hlow
        exact of_decide_eq_true hraised (hlower l hl (by omega))
    rw [List.find?_map, Option.map_map]
    exact congrArg (Option.map _) hleast
  · rw [Option.map_eq_none_iff, List.find?_eq_none]
    rintro _ ho
    obtain ⟨l, hl, rfl⟩ := List.mem_map.1 ho
    simpa using hbefore l hl f hf

end Sys2Proof.Machine

namespace Sys2Proof.Claims

open Sys2Proof.Machine

/-- The instruction has the general form, and gives a lane what `out` says of the effective count of tangents and the data that the
lane has read (R36). -/
def Computes (ins : Instr) (p : Option Dual) (gd : Guard) (u : Bool) (srcs : List Field) (dsts : List Opnd)
    (out : Nat → List Datum → LaneOut) : Prop :=
  ∃ f : Iss → Nat → List Datum → LaneOut,
    (∀ s, exec ins s = issue s (dualSize p) gd u fun i => i.apply srcs dsts (f i)) ∧
    ∀ i lane ds, ds.length = srcs.length → f i lane ds = out (i.tans p) ds

section computes
variable {ins : Instr} {p : Option Dual} {gd : Guard} {u : Bool} {srcs : List Field} {dsts : List Opnd}
  {out : Nat → List Datum → LaneOut}

/-- The results in other words. -/
theorem Computes.congr (h : Computes ins p gd u srcs dsts out) {out' : Nat → List Datum → LaneOut}
    (hout : ∀ n ds, ds.length = srcs.length → out n ds = out' n ds) : Computes ins p gd u srcs dsts out' := by
  obtain ⟨f, he, hf⟩ := h
  exact ⟨f, he, fun i lane ds hlen => (hf i lane ds hlen).trans (hout _ ds hlen)⟩

theorem Computes.does (h : Computes ins p gd u srcs dsts out) :
    Does ins (dualSize p) gd u srcs dsts fun i _ ds => out (i.tans p) ds := by
  obtain ⟨f, he, hf⟩ := h
  exact does_apply he (fun _ => rfl) fun i lane => hf i lane _ (by simp [reads_length])

theorem Computes.trapsOnFlags (h : Computes ins p gd u srcs dsts out) :
    TrapsOnFlags ins (dualSize p) gd u srcs dsts fun i _ ds => out (i.tans p) ds := by
  obtain ⟨f, he, hf⟩ := h
  intro s i ctl hi hready flags n bit code lane hn hlane hbit hbefore hlower
  have hout (l : Nat) : f i l (i.g.reads (srcs.map (·.o)) l) = out (i.tans p) (i.g.reads (srcs.map (·.o)) l) :=
    hf i l _ (by simp [reads_length])
  refine (he s).trans (issue_applyAll_trap hi.found hi.lanes rfl hready ?_ (by rw [hi.flow]; rfl))
  rw [List.map_map]
  simp only [Function.comp_def, hout]
  exact Group.fpTrap_eq_some hn (hi.ex ▸ executing_pairwise ..) hlane hbit hbefore hlower

theorem Computes.precise (h : Computes ins p gd u srcs dsts out) : Precise ins p gd u srcs dsts :=
  ⟨out, h.does, h.trapsOnFlags⟩

end computes

end Sys2Proof.Claims
end

section
/-! PROOFS. Floating-point arithmetic, selection, comparison and sign (spec/05 R111, R113 to R115, R119, R120). -/

namespace Sys2Proof.Claims

open Sys2Proof.Machine

/-! ### Arithmetic -/

theorem arithA_computes {ins : Instr} {k : Arith} {l : Layout} {p : Option Dual} {w : FmtA} {srcs : List Src}
    (he : ∀ s, exec ins s = arithA k l p w srcs s) :
    Computes ins p w.g w.u (srcs.map Src.field) [w.d] fun n ds =>
      arithOut k l (flMode w.fl) (flFtz w.fl) n (words srcs ds) (tansOf ds) :=
  ⟨_, he, fun _ _ _ _ => rfl⟩

theorem arithImm_computes {ins : Instr} {k : Arith} {p : Option Dual} {w : FmtB}
    (he : ∀ s, exec ins s = arithImm k p w s) :
    Computes ins p w.g w.u [⟨w.a, w.fa⟩] [w.d] fun n ds =>
      arithOut k lay32 0 false n [(ds.getD 0 {}).val, w.imm] fun t => [(ds.getD 0 {}).tan t, 0] :=
  ⟨_, he, fun _ _ ds hlen => by obtain ⟨x, rfl⟩ := List.length_eq_one_iff.1 hlen; rfl⟩

theorem arithmetic_of_exec {ins : Option Dual → FmtA → Instr} {k : Arith} {l : FmtA → Layout} {srcs : FmtA → List Src}
    (he : ∀ p w s, exec (ins p w) s = arithA k (l w) p w (srcs w) s) : Arithmetic ins k l srcs := fun p w =>
  (arithA_computes (he p w)).does

theorem floatingArithmetic : FloatingArithmetic := by
  refine ⟨?_, ?_, ?_, ?_, ?_, ?_, ?_, ?_, fun p w => ?_, fun p w => ?_⟩
  · exact arithmetic_of_exec fun p w s => exec_fadd s p w
  · exact arithmetic_of_exec fun p w s => exec_fsub s p w
  · exact arithmetic_of_exec fun p w s => exec_fmul s p w
  · exact arithmetic_of_exec fun p w s => exec_ffma s p w
  · exact arithmetic_of_exec fun p w s => exec_fdiv s p w
  · exact arithmetic_of_exec fun p w s => exec_hadd2 s p w
  · exact arithmetic_of_exec fun p w s => exec_hmul2 s p w
  · exact arithmetic_of_exec fun p w s => exec_hfma2 s p w
  · exact (arithImm_computes (exec_faddi · p w)).does
  · exact (arithImm_computes (exec_fmuli · p w)).does

/-! ### Selection, comparison and sign -/

theorem extreme_computes {ins : Instr} {max : Bool} {l : Layout} {p : Option Dual} {w : FmtA}
    (he : ∀ s, exec ins s = extreme max l p w s) :
    Computes ins p w.g w.u [w.a.field, w.b.field] [w.d] fun n ds =>
      extremeOut max l (flFtz w.fl) n (val w.a ds 0) (val w.b ds 1) (ds.getD 0 {}).tan (ds.getD 1 {}).tan :=
  ⟨_, he, fun _ _ ds hlen => by obtain ⟨x, y, rfl⟩ := List.length_eq_two.1 hlen; rfl⟩

theorem fcmp_computes (w : FmtAP) :
    Computes (.fcmp w) none w.g w.u [w.a.field, w.b.field] [] fun _ ds =>
      let a := fp32.source (flFtz w.fl) (val w.a ds 0).toNat
      let b := fp32.source (flFtz w.fl) (val w.b ds 1).toNat
      { preds := [(w.pd.pn, fcmpBit w.fn.toNat a b)]
        flags := fp32.sigFlag (val w.a ds 0).toNat ||| fp32.sigFlag (val w.b ds 1).toNat |||
          flagIf (decide (2 ≤ w.fn.toNat ∧ w.fn.toNat ≤ 5) && (a.isNan || b.isNan)) flagInvalid } :=
  ⟨_, (exec_fcmp · w), fun _ _ ds hlen => by obtain ⟨x, y, rfl⟩ := List.length_eq_two.1 hlen; rfl⟩

/-- A word with its sign bit turned or not, bit by bit (R115). -/
theorem flipSign_eq_ofBits (flip : Bool) (x : W32) :
    (if flip then x ^^^ 0x80000000 else x) = ofBits fun k => if k = 31 then xor x.msb flip else x.getLsbD k := by
  refine eq_ofBits fun k hk => ?_
  have htop : (0x80000000 : W32) = BitVec.twoPow 32 31 := rfl
  rw [BitVec.msb_eq_getLsbD_last]
  cases flip
  · split <;> simp_all
  · rw [if_pos rfl, htop, BitVec.getLsbD_xor, BitVec.getLsbD_twoPow]
    by_cases h : k = 31
    · subst h; rfl
    · simp [h, Ne.symm h]

theorem floatingSelection : FloatingSelection := by
  refine ⟨fun p w => ⟨?_, ?_, ?_, ?_⟩, fun w => (fcmp_computes w).does⟩
  · exact (extreme_computes (exec_fmin · p w)).does
  · exact (extreme_computes (exec_fmax · p w)).does
  · exact (extreme_computes (exec_hext2 · p w)).does
  · refine does_apply (exec_fsgn · p w) (fun _ => rfl) fun i lane => ?_
    generalize i.g.reads _ lane = ds
    have hflip (a b : Bool) : (if w.fn = 0 then a else if w.fn = 1 then true else xor a b) =
        xor a (if w.fn = 0 then false else if w.fn = 1 then !a else b) := by
      split_ifs <;> simp
    simp only [flipSign_eq_ofBits, hflip]
    rfl

/-- Settles O41: each instruction has the general form, and its results are those of the statement; FSGN's bit by bit. -/
theorem floatingPoint : Obligations.FloatingPoint := ⟨floatingArithmetic, floatingSelection⟩

end Sys2Proof.Claims
end

section
/-! PROOFS. Rounding a magnitude to a number of bits, in the formats' own terms and in those of a quotient (spec/03 R68, R69,
Table 3.5). -/

namespace Sys2Proof.Machine

open Sys2Proof.Claims

/-- `m` / 2^d rounded to an integer magnitude of a sign. -/
def roundedMag (mode : Nat) (neg : Bool) (m d : Nat) : Nat :=
  m / 2 ^ d + if roundsUp mode neg (m / 2 ^ d % 2 = 1) (m % 2 ^ d) (2 ^ (d - 1)) false then 1 else 0

/-! ### Magnitudes -/

/-- What is exact does not go up. -/
theorem roundsUp_exact (mode : Nat) (neg odd : Bool) {half : Nat} (h : 0 < half) :
    roundsUp mode neg odd 0 half false = false := by
  have : (0 : Nat) ≠ half := by omega
  unfold roundsUp
  split <;> simp [this]

/-- The decision does not change where remainder and half are scaled alike. -/
theorem roundsUp_scale (mode : Nat) (neg odd st : Bool) (rem half : Nat) {c : Nat} (h : 0 < c) :
    roundsUp mode neg odd (rem * c) (half * c) st = roundsUp mode neg odd rem half st := by
  have hlt : half * c < rem * c ↔ half < rem := Nat.mul_lt_mul_right h
  have heq : rem * c = half * c ↔ rem = half := Nat.mul_left_inj (Nat.ne_of_gt h)
  have hzero : rem * c ≠ 0 ↔ rem ≠ 0 := by simp [Nat.ne_of_gt h]
  simp only [roundsUp, hlt, heq, hzero]

theorem roundedMag_of_dvd (mode : Nat) (neg : Bool) (m d : Nat) : roundedMag mode neg (m * 2 ^ d) d = m := by
  rw [roundedMag, Nat.mul_mod_left, Nat.mul_div_cancel _ (Nat.two_pow_pos d), roundsUp_exact _ _ _ (Nat.two_pow_pos _)]
  rfl

theorem roundedMag_scale (mode : Nat) (neg : Bool) (m k : Nat) {d : Nat} (hd : 0 < d) :
    roundedMag mode neg (m * 2 ^ k) (d + k) = roundedMag mode neg m d := by
  have hhalf : 2 ^ (d + k - 1) = 2 ^ (d - 1) * 2 ^ k := by rw [← Nat.pow_add]; congr 1; omega
  simp only [roundedMag, hhalf, Nat.pow_add 2 d k, Nat.mul_div_mul_right _ _ (Nat.two_pow_pos k), Nat.mul_mod_mul_right,
    roundsUp_scale _ _ _ _ _ _ (Nat.two_pow_pos k)]

theorem roundedMag_le (mode : Nat) (neg : Bool) (m d : Nat) : roundedMag mode neg m d ≤ m / 2 ^ d + 1 := by
  unfold roundedMag
  split <;> omega

/-! ### Integers -/

theorem toInt_eq_natAbs (v : Int) : toInt (decide (v < 0)) v.natAbs = v := by
  unfold toInt
  split
  next h => simp only [decide_eq_true_eq] at h; omega
  next h => simp only [decide_eq_true_eq] at h; omega

@[simp] theorem natAbs_toInt (neg : Bool) (m : Nat) : (toInt neg m).natAbs = m := by
  cases neg <;> simp [toInt]

theorem toInt_emod_eq_zero (neg : Bool) (m d : Nat) : toInt neg m % 2 ^ d = 0 ↔ m % 2 ^ d = 0 := by
  rw [← Int.dvd_iff_emod_eq_zero, ← Int.natAbs_dvd_natAbs, natAbs_toInt, Int.natAbs_pow, Nat.dvd_iff_mod_eq_zero]
  rfl

/-- The floor of a negative quotient that is no integer, and what is left above it. -/
theorem neg_ediv_emod {m d : Nat} (h : m % 2 ^ d ≠ 0) :
    -(m : Int) / 2 ^ d = -(m / 2 ^ d : Nat) - 1 ∧ -(m : Int) % 2 ^ d = 2 ^ d - (m % 2 ^ d : Nat) := by
  have hlt := Nat.mod_lt m (Nat.two_pow_pos d)
  have hdiv : (2 : Int) ^ d * (m / 2 ^ d : Nat) + (m % 2 ^ d : Nat) = m := mod_cast Nat.div_add_mod m (2 ^ d)
  have hpos : (0 : Int) < 2 ^ d := by positivity
  have hcast : ((2 ^ d : Nat) : Int) = 2 ^ d := by push_cast; rfl
  refine (Int.ediv_emod_unique hpos).2 ⟨?_, ?_, ?_⟩
  · linarith
  · omega
  · omega

/-- A power of two that leaves a remainder is even. -/
theorem two_pow_eq_twice_half {m d : Nat} (h : m % 2 ^ d ≠ 0) : 2 ^ d = 2 * 2 ^ (d - 1) := by
  have hd : d ≠ 0 := by rintro rfl; simp [Nat.mod_one] at h
  rw [← Nat.pow_succ', Nat.succ_eq_add_one, Nat.sub_add_cancel (Nat.pos_of_ne_zero hd)]

theorem rounded_of_dvd (mode : Nat) (neg : Bool) (n d : Nat) : rounded mode (toInt neg (n * 2 ^ d)) d = toInt neg n := by
  have hfloor : toInt neg (n * 2 ^ d) / 2 ^ d = toInt neg n := by
    refine Int.ediv_eq_of_eq_mul_left (by positivity) ?_
    cases neg <;> simp [toInt]
  simp [rounded, (toInt_emod_eq_zero neg (n * 2 ^ d) d).2, hfloor]

theorem rounded_of_inexact (mode : Nat) {m d : Nat} (h : m % 2 ^ d ≠ 0) : rounded mode m d = roundedMag mode false m d := by
  have hint : (2 : Int) ^ d = 2 * (2 ^ (d - 1) : Nat) := mod_cast two_pow_eq_twice_half h
  have hfloor : (m : Int) / 2 ^ d = (m / 2 ^ d : Nat) := by push_cast; rfl
  have hrem : (m : Int) % 2 ^ d = (m % 2 ^ d : Nat) := by push_cast; rfl
  simp only [rounded, roundedMag, hfloor, hrem]
  rw [hint]
  clear hint hfloor hrem
  generalize m / 2 ^ d = n, m % 2 ^ d = r, 2 ^ (d - 1) = half at h ⊢
  match mode with
  | 0 => simp [roundsUp, h]; split_ifs <;> omega
  | 1 | 2 | _ + 3 => simp [roundsUp, h]

theorem rounded_neg_of_inexact (mode : Nat) {m d : Nat} (h : m % 2 ^ d ≠ 0) :
    rounded mode (-(m : Int)) d = -(roundedMag mode true m d : Int) := by
  have hm : m ≠ 0 := by rintro rfl; simp at h
  have hint : (2 : Int) ^ d = 2 * (2 ^ (d - 1) : Nat) := mod_cast two_pow_eq_twice_half h
  have hbelow : m % 2 ^ d < 2 * 2 ^ (d - 1) := two_pow_eq_twice_half h ▸ Nat.mod_lt m (Nat.two_pow_pos d)
  obtain ⟨hfloor, hrem⟩ := neg_ediv_emod h
  simp only [rounded, roundedMag, hfloor, hrem]
  rw [hint]
  clear hint hfloor hrem
  generalize m / 2 ^ d = n, m % 2 ^ d = r, 2 ^ (d - 1) = half at h hbelow ⊢
  have hr : (2 : Int) * half - r ≠ 0 := by omega
  match mode with
  | 0 => simp [roundsUp, hr]; split_ifs <;> omega
  | 1 | _ + 3 => simp [roundsUp, hr, hm]
  | 2 => simp [roundsUp, h, hr]; omega

/-- Rounding a number is rounding its magnitude. -/
theorem rounded_toInt (mode : Nat) (neg : Bool) (m d : Nat) :
    rounded mode (toInt neg m) d = toInt neg (roundedMag mode neg m d) := by
  by_cases h : m % 2 ^ d = 0
  · obtain ⟨n, rfl⟩ := Nat.dvd_of_mod_eq_zero h
    rw [Nat.mul_comm, rounded_of_dvd, roundedMag_of_dvd]
  · cases neg
    · exact rounded_of_inexact mode h
    · exact rounded_neg_of_inexact mode h

/-! ### What the model rounds -/

theorem log2_mul_two_pow {m : Nat} (hm : m ≠ 0) (k : Nat) : (m * 2 ^ k).log2 = m.log2 + k := by
  refine (Nat.log2_eq_iff (Nat.mul_ne_zero hm (Nat.two_pow_pos k).ne')).2 ⟨?_, ?_⟩
  · rw [Nat.pow_add]
    exact Nat.mul_le_mul_right _ (Nat.log2_self_le hm)
  · rw [Nat.add_right_comm, Nat.pow_add]
    exact Nat.mul_lt_mul_of_pos_right Nat.lt_log2_self (Nat.two_pow_pos k)

/-- The fraction of a whole number, scaled to 24 bits and rounded; a carry out of it goes on into the exponent (R126). -/
def wholeFrac (mode : Nat) (neg : Bool) (m : Nat) : Nat :=
  if m.log2 ≤ 23 then m * 2 ^ (23 - m.log2) else roundedMag mode neg m (m.log2 - 23)

theorem wholeFrac_le (mode : Nat) (neg : Bool) (m : Nat) : wholeFrac mode neg m ≤ 2 ^ 24 := by
  have hlt : m < 2 ^ (m.log2 + 1) := Nat.lt_log2_self
  unfold wholeFrac
  split
  next h =>
    calc m * 2 ^ (23 - m.log2) ≤ 2 ^ (m.log2 + 1) * 2 ^ (23 - m.log2) := Nat.mul_le_mul_right _ hlt.le
      _ = 2 ^ 24 := by rw [← Nat.pow_add]; congr 1; omega
  next h =>
    have hdiv : m / 2 ^ (m.log2 - 23) < 2 ^ 24 := by
      rw [Nat.div_lt_iff_lt_mul (Nat.two_pow_pos _), ← Nat.pow_add]
      convert hlt using 2
      omega
    have := roundedMag_le mode neg m (m.log2 - 23)
    omega

/-- A whole number as an FP32 magnitude: its exponent field and its fraction. -/
theorem roundMag_fp32_whole (mode : Nat) (neg : Bool) {m : Nat} (hm : m ≠ 0) :
    fp32.roundMag mode neg m 0 false =
      ((m.log2 + 126) * 2 ^ 23 + wholeFrac mode neg m, decide (m.log2 ≤ 23 ∨ m % 2 ^ (m.log2 - 23) = 0)) := by
  have hq : max ((0 : Int) - 27 + (m * 2 ^ 27).log2 - 23) (-149) = m.log2 - 23 := by
    rw [log2_mul_two_pow hm]; push_cast; omega
  have hd : ((m.log2 : Int) - 23 - (0 - 27)).toNat = m.log2 + 4 := by omega
  have hexp : ((m.log2 : Int) - 23 - (-149)).toNat = m.log2 + 126 := by omega
  have hmag : fp32.roundMag mode neg m 0 false =
      ((m.log2 + 126) * 2 ^ 23 + roundedMag mode neg (m * 2 ^ 27) (m.log2 + 4),
        decide (m * 2 ^ 27 % 2 ^ (m.log2 + 4) = 0)) := by
    have hemin : fp32.emin = -149 := rfl
    have hfb : fp32.fb = 23 := rfl
    rw [FFmt.roundMag, if_neg (by simp [hm])]
    simp only [hemin, hfb, Nat.cast_ofNat, Nat.reduceAdd, hq, hd, hexp, roundedMag, Nat.add_assoc, Bool.not_false, Bool.and_true]
  rw [hmag]
  by_cases h : m.log2 ≤ 23
  · have hscale : m * 2 ^ 27 = m * 2 ^ (23 - m.log2) * 2 ^ (m.log2 + 4) := by
      rw [Nat.mul_assoc, ← Nat.pow_add]; congr 2; omega
    rw [hscale, roundedMag_of_dvd, Nat.mul_mod_left, wholeFrac, if_pos h]
    simp [h]
  · have hwidth : m.log2 + 4 = m.log2 - 23 + 27 := by omega
    rw [hwidth, roundedMag_scale _ _ _ _ (by omega), wholeFrac, if_neg h, Nat.pow_add, Nat.mul_mod_mul_right]
    simp [h]

/-- A whole number of at most 32 bits as an FP32 encoding: it neither overflows nor is subnormal. -/
theorem round_fp32_whole (mode : Nat) (neg : Bool) {m : Nat} (hm : m ≠ 0) (hbound : m < 2 ^ 32) :
    fp32.round mode false false false (.fin neg m 0 false) =
      ((if neg then 2 ^ 31 else 0) + (m.log2 + 126) * 2 ^ 23 + wholeFrac mode neg m,
        if m.log2 ≤ 23 ∨ m % 2 ^ (m.log2 - 23) = 0 then 0 else flagInexact) := by
  have htop : m.log2 < 32 := (Nat.log2_lt hm).2 hbound
  have hle := wholeFrac_le mode neg m
  have hmax : ¬ fp32.maxCode < (m.log2 + 126) * 2 ^ 23 + wholeFrac mode neg m := by
    show ¬ 0x7F7FFFFF < _
    omega
  have hsub : ¬ (m.log2 + 126) * 2 ^ 23 + wholeFrac mode neg m < 2 ^ fp32.fb := by
    show ¬ _ < 2 ^ 23
    omega
  have hsigned : fp32.signed neg ((m.log2 + 126) * 2 ^ 23 + wholeFrac mode neg m) =
      (if neg then 2 ^ 31 else 0) + (m.log2 + 126) * 2 ^ 23 + wholeFrac mode neg m := by
    cases neg
    · exact (congrArg (· + _) (Nat.zero_add _)).symm
    · exact (Nat.add_assoc ..).symm
  simp only [FFmt.round, roundMag_fp32_whole mode neg hm, if_neg hmax, hsub, hsigned]
  by_cases hexact : m.log2 ≤ 23 ∨ m % 2 ^ (m.log2 - 23) = 0 <;> simp [hexact, flagIf]

/-- A dyadic as an integer, at an exponent below 0 and at another. -/
theorem roundInt_of_neg {e : Int} (he : e < 0) (mode : Nat) (neg : Bool) (m : Nat) :
    roundInt mode neg m e = (rounded mode (toInt neg m) (-e).toNat, decide (toInt neg m % 2 ^ (-e).toNat = 0)) := by
  rw [roundInt, if_neg (by omega), rounded_toInt]
  simp only [toInt_emod_eq_zero]
  rfl

theorem roundInt_of_nonneg (e : Nat) (mode : Nat) (neg : Bool) (m : Nat) :
    roundInt mode neg m e = (toInt neg m * 2 ^ e, true) := by
  rw [roundInt, if_pos (by omega)]
  cases neg <;> simp [toInt]

end Sys2Proof.Machine
end

section
/-! PROOFS. Conversions (spec/05 R124 to R128). -/

namespace Sys2Proof.Claims

open Sys2Proof.Machine

/-! ### I2F -/

theorem natAbs_num_le (uns : Bool) (x : W32) : (num uns x).natAbs < 2 ^ 32 := by
  have := x.isLt
  have := BitVec.toInt_lt (x := x)
  have := BitVec.le_toInt x
  unfold num
  split <;> omega

theorem i2fOut_eq (fn : BitVec 4) (mode : Nat) (a : W32) : i2fOut fn mode a = intToFloat mode (num (fn == 1) a) := by
  have hbound := natAbs_num_le (fn == 1) a
  have hext : ext (fn == 1) a = num (fn == 1) a := rfl
  simp only [i2fOut, hext]
  generalize num (fn == 1) a = v at hbound ⊢
  by_cases hzero : v = 0
  · subst hzero; simp [intToFloat, FFmt.round, FFmt.roundMag, FFmt.signed, one, flagIf, fp32]
  obtain ⟨neg, m, hneg, hm, rfl⟩ : ∃ neg m, decide (v < 0) = neg ∧ v.natAbs = m ∧ v = toInt neg m :=
    ⟨_, _, rfl, rfl, (toInt_eq_natAbs v).symm⟩
  have hsign : toInt neg m < 0 ↔ neg = true := by rw [← decide_eq_true_iff (p := toInt neg m < 0), hneg]
  rw [hm] at hbound
  simp only [hm, hsign, Bool.decide_eq_true, round_fp32_whole mode neg (by omega) hbound, intToFloat, if_neg hzero,
    rounded_toInt, natAbs_toInt, toInt_emod_eq_zero]
  rfl

/-! ### F2I -/

/-- The magnitude of an FP32 word as a multiple of its unit, zero where it is subnormal and the flush bit is set. -/
def mant32 (ftz : Bool) (a : W32) : Nat :=
  if (a.extractLsb' 23 8).toNat = 0 then (if ftz then 0 else (a.extractLsb' 0 23).toNat)
  else 2 ^ 23 + (a.extractLsb' 0 23).toNat

theorem source_fp32_finite (ftz : Bool) {a : W32} (h : (a.extractLsb' 23 8).toNat ≠ 255) :
    ∃ x : Int, fp32.source ftz a.toNat = .fin a.msb (mant32 ftz a) x false ∧
      (mant32 ftz a = 0 ∨ x = (max (a.extractLsb' 23 8).toNat 1 : Nat) - 150) := by
  have hfinite : a.extractLsb' 23 8 ≠ 0xFF#8 := fun he => h (by rw [he]; rfl)
  by_cases hexp : a.extractLsb' 23 8 = 0
  · by_cases hflush : ftz = true ∧ a.extractLsb' 0 23 ≠ 0
    · obtain ⟨rfl, hfrac⟩ := hflush
      have hsign : a.toNat.testBit 31 = a.msb := by rw [BitVec.msb_eq_getLsbD_last]; rfl
      refine ⟨0, ?_, .inl (by simp [mant32, hexp])⟩
      rw [FFmt.source, subnormal_fp32, decide_eq_true ⟨hexp, hfrac⟩]
      simp [mant32, hexp, XV.zero, FFmt.signBit, fp32, hsign]
    · have hkept : ftz = false ∨ a.extractLsb' 0 23 = 0 := by
        by_contra hno
        exact hflush (by simpa using hno)
      refine ⟨-149, ?_, .inr (by simp [hexp])⟩
      rw [source_fp32 ftz (.inr hkept), decode_fp32, if_neg hfinite, if_pos hexp]
      obtain rfl | hfrac := hkept
      · simp [mant32, hexp]
      · simp [mant32, hexp, hfrac]
  · have hpos : (a.extractLsb' 23 8).toNat ≠ 0 := fun h0 => hexp (BitVec.eq_of_toNat_eq h0)
    refine ⟨_, ?_, .inr rfl⟩
    rw [source_fp32 ftz (.inl hexp), decode_fp32, if_neg hfinite, if_neg hexp, mant32, if_neg hpos]
    congr 1
    omega

theorem roundInt_zero (mode : Nat) (neg : Bool) (x : Int) : roundInt mode neg 0 x = (0, true) := by
  have hzero : toInt neg 0 = 0 := by cases neg <;> rfl
  rcases lt_or_ge x 0 with hx | hx
  · simp [roundInt_of_neg hx, hzero, rounded]
  · obtain ⟨e, rfl⟩ := Int.eq_ofNat_of_zero_le hx
    simp [roundInt_of_nonneg, hzero]

/-- R127: the rounded integer of an FP32 word with exponent field `e`. -/
theorem roundInt_fp32 (mode : Nat) (neg : Bool) {m e : Nat} {x : Int} (h : m = 0 ∨ x = (max e 1 : Nat) - 150) :
    roundInt mode neg m x =
      (if 150 ≤ e then toInt neg m * 2 ^ (e - 150) else rounded mode (toInt neg m) (150 - max e 1),
        decide (150 ≤ e ∨ toInt neg m % 2 ^ (150 - max e 1) = 0)) := by
  obtain rfl | rfl := h
  · have hzero : toInt neg 0 = 0 := by cases neg <;> rfl
    simp [roundInt_zero, hzero, rounded]
  by_cases he : 150 ≤ e
  · have hx : ((max e 1 : Nat) : Int) - 150 = (e - 150 : Nat) := by omega
    rw [hx, roundInt_of_nonneg, if_pos he, decide_eq_true (.inl he)]
  · have hd : (-(((max e 1 : Nat) : Int) - 150)).toNat = 150 - max e 1 := by omega
    rw [roundInt_of_neg (by omega), hd, if_neg he]
    simp [he]

/-- An integer within two limits, inexact where it is a rounded one; outside, the nearest limit, invalid (R127). -/
def clampedOut (lo hi n : Int) (exact : Bool) : LaneOut :=
  if n < lo then { one (word lo) with flags := flagInvalid }
  else if hi < n then { one (word hi) with flags := flagInvalid }
  else { one (word n) with flags := flagIf (!exact) flagInexact }

section f2i
variable (uns : Bool) (mode : Nat) (ftz : Bool) {a : W32}

theorem f2iOut_finite {neg : Bool} {m : Nat} {x : Int} (h : fp32.source ftz a.toNat = .fin neg m x false) :
    f2iOut uns mode ftz a = clampedOut (if uns then 0 else -2 ^ 31) (if uns then 2 ^ 32 - 1 else 2 ^ 31 - 1)
      (roundInt mode neg m x).1 (roundInt mode neg m x).2 := by
  rw [f2iOut, h]
  rfl

theorem floatToInt_finite (lo hi : Int) (h : (a.extractLsb' 23 8).toNat ≠ 255) :
    floatToInt mode ftz lo hi a =
      let e := (a.extractLsb' 23 8).toNat
      let v := toInt a.msb (mant32 ftz a)
      clampedOut lo hi (if 150 ≤ e then v * 2 ^ (e - 150) else rounded mode v (150 - max e 1))
        (decide (150 ≤ e ∨ v % 2 ^ (150 - max e 1) = 0)) := by
  have hmant : (mant32 ftz a : Int) = if (a.extractLsb' 23 8).toNat = 0 then
      (if ftz then 0 else ((a.extractLsb' 0 23).toNat : Int)) else 2 ^ 23 + ((a.extractLsb' 0 23).toNat : Int) := by
    unfold mant32
    push_cast
    rfl
  have hv : (if a.msb then -(mant32 ftz a : Int) else mant32 ftz a) = toInt a.msb (mant32 ftz a) := rfl
  simp only [floatToInt, if_neg h, ← hmant, hv, clampedOut, flagIf, Bool.not_eq_true', decide_eq_false_iff_not, ite_not]
  rfl

theorem f2iOut_eq (a : W32) :
    f2iOut uns mode ftz a =
      floatToInt mode ftz (if uns then 0 else -2 ^ 31) (if uns then 2 ^ 32 - 1 else 2 ^ 31 - 1) a := by
  by_cases hexp : (a.extractLsb' 23 8).toNat = 255
  · have hspecial : a.extractLsb' 23 8 = 0xFF#8 := BitVec.eq_of_toNat_eq hexp
    have hsource := (source_fp32 ftz (.inl (hspecial ▸ by decide))).trans (decode_fp32 a)
    rw [if_pos hspecial] at hsource
    by_cases hfrac : a.extractLsb' 0 23 = 0
    · rw [if_pos hfrac] at hsource
      simp only [f2iOut, hsource, floatToInt, if_pos hexp, hfrac]
      rfl
    · have hne : ((a.extractLsb' 0 23).toNat : Int) ≠ 0 := fun h0 => hfrac (BitVec.eq_of_toNat_eq (Int.natCast_eq_zero.1 h0))
      rw [if_neg hfrac] at hsource
      simp only [f2iOut, hsource, floatToInt, if_pos hexp, if_pos hne]
      rfl
  · obtain ⟨x, hsource, hx⟩ := source_fp32_finite ftz hexp
    rw [f2iOut_finite uns mode ftz hsource, floatToInt_finite mode ftz _ _ hexp, roundInt_fp32 mode a.msb hx]

end f2i

/-! ### PACK2 -/

theorem sat16_eq (uns : Bool) (x : W32) :
    (sat16 uns x : Int) = (if uns then max 0 (min 65535 (num uns x)) else max (-32768) (min 32767 (num uns x))) % 2 ^ 16 := by
  have hext : ext uns x = num uns x := rfl
  simp only [sat16, hext]
  generalize num uns x = v
  have hword (y : Int) : ((bitsOf (word y).toNat 0 16 : Nat) : Int) = y % 2 ^ 16 := by
    rw [bitsOf, Nat.shiftRight_zero, word, BitVec.toNat_ofInt]
    omega
  cases uns <;> exact hword _

theorem joinElems_pair (n x y : Nat) : (joinElems n [(x, 0), (y, 0)]).1 = BitVec.ofInt 32 ((x : Int) + y * 2 ^ n) := by
  have h : (joinElems n [(x, 0), (y, 0)]).1 = BitVec.ofNat 32 (x + y * 2 ^ n) := by simp [joinElems]
  rw [h, ← BitVec.ofInt_natCast]
  push_cast
  rfl

/-! ### The instructions -/

theorem fcvt_computes (p : Option Dual) (w : FmtA) :
    let f := fcvtFormats w.fn.toNat
    let conv (mode : Nat) (rand : Option Nat) (x : W32) : W32 × Flags :=
      let r := convert f.1 f.2.2 mode (w.b.sel.getLsbD 0) (flFtz w.fl) rand (x.toNat % 2 ^ f.2.1)
      (BitVec.ofNat 32 r.1, r.2)
    Computes (.fcvt p w) p w.g w.u ((if 9 < w.fn.toNat then [w.a, w.c] else [w.a]).map Src.field) [w.d] fun n ds =>
      dualOut n
        (conv (flMode w.fl) (if 9 < w.fn.toNat then some ((val w.c ds 1).extractLsb' 0 16).toNat else none) (val w.a ds 0))
        fun k => conv 0 none ((ds.getD 0 {}).tan k) := by
  intro f conv
  refine ⟨_, fun s => by rw [exec_fcvt, execFcvt], fun i lane ds hlen => ?_⟩
  by_cases h : 9 < w.fn.toNat
  · simp only [if_pos h] at hlen ⊢
    obtain ⟨x, y, rfl⟩ := List.length_eq_two.1 hlen
    rfl
  · simp only [if_neg h] at hlen ⊢
    obtain ⟨x, rfl⟩ := List.length_eq_one_iff.1 hlen
    rfl

theorem i2f_computes (w : FmtA) :
    Computes (.i2f w) none w.g w.u [w.a.field] [w.d] fun _ ds =>
      intToFloat (flMode w.fl) (num (w.fn == 1) (val w.a ds 0)) :=
  ⟨_, (exec_i2f · w), fun _ _ ds hlen => by
    obtain ⟨x, rfl⟩ := List.length_eq_one_iff.1 hlen
    exact i2fOut_eq ..⟩

theorem f2i_computes (w : FmtA) :
    Computes (.f2i w) none w.g w.u [w.a.field] [w.d] fun _ ds =>
      floatToInt (flMode w.fl) (flFtz w.fl) (if w.fn = 1 then 0 else -2 ^ 31) (if w.fn = 1 then 2 ^ 32 - 1 else 2 ^ 31 - 1)
        (val w.a ds 0) :=
  ⟨_, (exec_f2i · w), fun _ _ ds hlen => by
    obtain ⟨x, rfl⟩ := List.length_eq_one_iff.1 hlen
    refine (f2iOut_eq ..).trans ?_
    simp only [beq_iff_eq]
    rfl⟩

/-- PACK2 of two words as 16-bit floating-point elements. -/
def packFloats (w : FmtA) (n : Nat) (ds : List Datum) : LaneOut :=
  let pair (mode : Nat) (a b : W32) : W32 × Flags :=
    let c (x : W32) : Nat × Flags := convert fp32 (if w.fn = 0 then fp16 else bf16) mode false (flFtz w.fl) none x.toNat
    joinElems 16 [c a, c b]
  dualOut n (pair (flMode w.fl) (val w.a ds 0) (val w.b ds 1)) fun k => pair 0 ((ds.getD 0 {}).tan k) ((ds.getD 1 {}).tan k)

/-- PACK2 of two words as 16-bit integers. -/
def packInts (w : FmtA) (ds : List Datum) : LaneOut :=
  one (joinElems 16 [(sat16 (flUns w.fl) (val w.a ds 0), 0), (sat16 (flUns w.fl) (val w.b ds 1), 0)]).1

theorem pack2_computes (p : Option Dual) (w : FmtA) :
    Computes (.pack2 p w) p w.g w.u [w.a.field, w.b.field] [w.d] fun n ds =>
      if w.fn = 2 then packInts w ds else packFloats w n ds :=
  ⟨_, (exec_pack2 · p w), fun _ _ ds hlen => by obtain ⟨x, y, rfl⟩ := List.length_eq_two.1 hlen; rfl⟩

theorem packInts_eq (w : FmtA) (ds : List Datum) :
    let lim (x : Int) : Int := if w.fl.getLsbD 0 then max 0 (min 65535 x) else max (-32768) (min 32767 x)
    packInts w ds = one (BitVec.ofInt 32 (lim (num (w.fl.getLsbD 0) (val w.a ds 0)) % 2 ^ 16 +
        lim (num (w.fl.getLsbD 0) (val w.b ds 1)) % 2 ^ 16 * 2 ^ 16)) := by
  rw [packInts, joinElems_pair, sat16_eq, sat16_eq]
  rfl

/-- Settles O1: FCVT and PACK2 are the model's conversion of their elements; I2F and F2I, the one rounding written out. -/
theorem conversions : Obligations.Conversions := by
  refine ⟨fun p w => (fcvt_computes p w).does, fun w => (i2f_computes w).does, fun w => (f2i_computes w).does,
    fun p w hfn => ?_, fun p w hfn => ?_⟩
  · have hfloat : w.fn ≠ 2 := by rintro h; simp [h] at hfn
    exact ((pack2_computes p w).congr fun n ds _ => if_neg hfloat).does
  · exact ((pack2_computes p w).congr fun n ds _ => (if_pos hfn).trans (packInts_eq w ds)).does

end Sys2Proof.Claims
end

section
/-! PROOFS. The traps of enabled flags (spec/05 R110). -/

namespace Sys2Proof.Claims

open Sys2Proof.Machine

theorem unary_computes {ins : Instr} {f : UFn} {p : Option Dual} {w : FmtA} (he : ∀ s, exec ins s = unary f p w s) :
    Computes ins p w.g w.u [w.a.field] [w.d] fun n ds =>
      unaryOut f (flMode w.fl) (flFtz w.fl) n (val w.a ds 0) (ds.getD 0 {}).tan :=
  ⟨_, he, fun _ _ ds hlen => by obtain ⟨x, rfl⟩ := List.length_eq_one_iff.1 hlen; rfl⟩

theorem dotA_computes {ins : Instr} {f : FFmt} {width : Nat} {p : Option Dual} {w : FmtA}
    (he : ∀ s, exec ins s = dotA f width p w s) :
    Computes ins p w.g w.u [w.a.field, w.b.field, w.c.field] [w.d] fun n ds =>
      dotOut f width (flMode w.fl) (flFtz w.fl) n one32 [val w.a ds 0] [val w.b ds 1] (val w.c ds 2)
        (fun k => [(ds.getD 0 {}).tan k]) (fun k => [(ds.getD 1 {}).tan k]) (ds.getD 2 {}).tan :=
  ⟨_, he, fun _ _ ds hlen => by obtain ⟨x, y, z, rfl⟩ := List.length_eq_three.1 hlen; rfl⟩

/-- BSCALE's block sum, of the data that it reads in the order A, B, C, D (R123). -/
def blockScaled (w : FmtA) (n : Nat) (ds : List Datum) : LaneOut :=
  let a := takeBlock w.a.o ds
  let b := takeBlock w.b.o a.2
  let c := modify w.c.sel (b.2.getD 0 {}).val
  let d := b.2.getD 1 {}
  let g := ((scale16 (bitsOf c.toNat 0 16)).mul (scale16 (bitsOf c.toNat 16 16))).1
  dotOut (if w.fn = 0 then e4m3 else e2m1) (if w.fn = 0 then 8 else 4) (flMode w.fl) (flFtz w.fl) n g
    (a.1.map (·.val)) (b.1.map (·.val)) d.val (tansOf a.1) (tansOf b.1) d.tan

theorem bscale_computes (p : Option Dual) (w : FmtA) :
    Computes (.bscale p w) p w.g w.u (blockFields w.a ++ blockFields w.b ++ [w.c.field, ⟨w.d, false⟩]) [w.d] (blockScaled w) :=
  ⟨_, (exec_bscale · p w), fun _ _ _ _ => rfl⟩

/-- Settles O2: every instruction that can raise flags has the general form, which traps before it writes (`Computes`). -/
theorem preciseFloatingTraps : Obligations.PreciseFloatingTraps := by
  intro p w v x a ab abc arith traps imm
  have hadd := arithA_computes (exec_fadd · p w)
  have hfma := arithA_computes (exec_ffma · p w)
  have hdiv := arithA_computes (exec_fdiv · p w)
  refine ⟨hadd.trapsOnFlags, hfma.trapsOnFlags, hdiv.trapsOnFlags, ⟨hadd.precise, ?_, ?_, hfma.precise, hdiv.precise, ?_, ?_⟩,
    ⟨?_, ?_, ?_, ?_, ?_, ?_, (fcmp_computes x).precise⟩, ⟨?_, ?_, ?_, ?_, ?_, ?_, ?_, ?_⟩,
    ⟨?_, ?_, (bscale_computes p w).precise⟩, (fcvt_computes p w).precise, (pack2_computes p w).precise,
    (i2f_computes w).precise, (f2i_computes w).precise⟩
  · exact (arithA_computes (exec_fsub · p w)).precise
  · exact (arithA_computes (exec_fmul · p w)).precise
  · exact (arithImm_computes (exec_faddi · p v)).precise
  · exact (arithImm_computes (exec_fmuli · p v)).precise
  · exact (arithA_computes (exec_hadd2 · p w)).precise
  · exact (arithA_computes (exec_hmul2 · p w)).precise
  · exact (arithA_computes (exec_hfma2 · p w)).precise
  · exact (extreme_computes (exec_fmin · p w)).precise
  · exact (extreme_computes (exec_fmax · p w)).precise
  · exact (extreme_computes (exec_hext2 · p w)).precise
  · exact (unary_computes (exec_frcp · p w)).precise
  · exact (unary_computes (exec_frsq · p w)).precise
  · exact (unary_computes (exec_fsqrt · p w)).precise
  · exact (unary_computes (exec_fex2 · p w)).precise
  · exact (unary_computes (exec_flg2 · p w)).precise
  · exact (unary_computes (exec_fsin · p w)).precise
  · exact (unary_computes (exec_fcos · p w)).precise
  · exact (unary_computes (exec_ftanh · p w)).precise
  · exact (dotA_computes (exec_dpf8 · p w)).precise
  · exact (dotA_computes (exec_dpf4 · p w)).precise

end Sys2Proof.Claims
end

section
/-! PROOFS. What the checks of accesses find: each access by itself, and the instruction as a whole (spec/06 R137 to R139, spec/12
R226, R232, R233, spec/17 R311, R325, R327). -/

namespace Sys2Proof.Machine

/-! ### The accesses of an instruction -/

/-- The executing lanes, each with the primal and the tangents that it accesses (R149). -/
def Iss.places (i : Iss) (tans : Nat) : List (Nat × Nat) :=
  i.ex.flatMap fun lane => (List.range (tans + 1)).map fun k => (lane, k)

theorem Iss.mem_places {i : Iss} {tans : Nat} {x : Nat × Nat} : x ∈ i.places tans ↔ x.1 ∈ i.ex ∧ x.2 ≤ tans := by
  obtain ⟨lane, k⟩ := x
  simp [Iss.places]

theorem Iss.map_places {α : Type} (i : Iss) (tans : Nat) (f : Nat → Nat → α) :
    (i.places tans).map (fun x => f x.1 x.2) = i.ex.flatMap fun lane => (List.range (tans + 1)).map (f lane) := by
  simp only [Iss.places, List.map_flatMap, List.map_map, Function.comp_def]

theorem Iss.spread_eq (i : Iss) (m tans : Nat) (addr : Nat → Nat) :
    i.spread m tans addr = (i.places tans).map fun x => (x.1, x.2, (addr x.1 + x.2 * i.g.tanStride.toNat) % m) :=
  (i.map_places tans fun lane k => (lane, k, (addr lane + k * i.g.tanStride.toNat) % m)).symm

/-- The places rise by lane, and in a lane from the primal on. -/
theorem Iss.places_pairwise {i : Iss} (h : i.ex.Pairwise (· < ·)) (tans : Nat) :
    (i.places tans).Pairwise fun x y => x.1 < y.1 ∨ x.1 = y.1 ∧ x.2 < y.2 := by
  refine List.pairwise_flatMap.2 ⟨fun lane _ => ?_, h.imp fun hlt x hx y hy => ?_⟩
  · exact List.pairwise_map.2 (List.pairwise_lt_range.imp fun hlt => .inr ⟨rfl, hlt⟩)
  · obtain ⟨_, -, rfl⟩ := List.mem_map.1 hx
    obtain ⟨_, -, rfl⟩ := List.mem_map.1 hy
    exact .inl hlt

/-! ### The cause of highest rank -/

theorem topCause_mem : ∀ {cs : List CauseRec} {d : CauseRec}, topCause cs = some d → d ∈ cs
  | c :: cs, d, h => by
    rw [topCause] at h
    cases htop : topCause cs with
    | none => exact Option.some.inj (htop ▸ h) ▸ List.mem_cons_self
    | some e =>
      simp only [htop] at h
      split at h
      · exact Option.some.inj h ▸ List.mem_cons_self
      · exact Option.some.inj h ▸ List.mem_cons_of_mem _ (topCause_mem htop)

/-- A cause that outranks all before it, and that none after it outranks, is the one that is raised (R311). -/
theorem topCause_append {c : CauseRec} {post : List CauseRec} (hpost : ∀ d ∈ post, causeRank c.code ≤ causeRank d.code) :
    ∀ {pre : List CauseRec}, (∀ d ∈ pre, causeRank c.code < causeRank d.code) → topCause (pre ++ c :: post) = some c
  | [], _ => by
    rw [List.nil_append, topCause]
    cases htop : topCause post with
    | none => rfl
    | some d => exact if_pos (hpost d (topCause_mem htop))
  | d :: pre, hpre => by
    rw [List.cons_append, topCause, topCause_append hpost fun e he => hpre e (List.mem_cons_of_mem _ he)]
    exact if_neg (Nat.not_le.2 (hpre d List.mem_cons_self))

/-- What an access that fails its check raises (R319). -/
def accessCause (space lane addr : Nat) (c : BitVec 8) : CauseRec :=
  { code := c, lane := lane, space := space, addr := BitVec.ofNat 64 addr }

/-- Of the causes that accesses find, the first of highest rank is raised (R139, R311). -/
theorem topCause_places {i : Iss} (hex : i.ex.Pairwise (· < ·)) {space tans : Nat} {addr : Nat → Nat → Nat}
    {cause : Nat → Nat → Option (BitVec 8)} {lane k : Nat} {c : BitVec 8} (hlane : lane ∈ i.ex) (hk : k ≤ tans)
    (hc : cause lane k = some c)
    (hfirst : ∀ x ∈ i.ex, ∀ j ≤ tans, ∀ d, cause x j = some d → causeRank c ≤ causeRank d ∧
      (causeRank c = causeRank d → lane < x ∨ (lane = x ∧ k ≤ j))) :
    topCause ((i.places tans).filterMap fun x => (cause x.1 x.2).map (accessCause space x.1 (addr x.1 x.2))) =
      some (accessCause space lane (addr lane k) c) := by
  have hmem : (lane, k) ∈ i.places tans := Iss.mem_places.2 ⟨hlane, hk⟩
  have hrises := Iss.places_pairwise hex tans
  have hother (x : Nat × Nat) (hx : x ∈ i.places tans) :=
    hfirst x.1 (Iss.mem_places.1 hx).1 x.2 (Iss.mem_places.1 hx).2
  obtain ⟨pre, post, hsplit⟩ := List.append_of_mem hmem
  rw [hsplit] at hrises hother ⊢
  rw [List.filterMap_append, List.filterMap_cons_some (b := accessCause space lane (addr lane k) c) (by rw [hc]; rfl)]
  refine topCause_append (fun d hd => ?_) fun d hd => ?_
  all_goals
    obtain ⟨x, hx, hcx⟩ := List.mem_filterMap.1 hd
    obtain ⟨e, he, rfl⟩ := Option.map_eq_some_iff.1 hcx
  · exact (hother x (by simp [hx]) e he).1
  · obtain ⟨hle, heq⟩ := hother x (by simp [hx]) e he
    have hbefore : x.1 < lane ∨ x.1 = lane ∧ x.2 < k :=
      (List.pairwise_append.1 hrises).2.2 x hx (lane, k) List.mem_cons_self
    refine lt_of_le_of_ne hle fun hsame => ?_
    have hafter := heq hsame
    omega

/-! ### The checks of an instruction -/

/-- Accesses that find nothing: the core's TLB takes what it lacked, and the accesses are those that were checked (R327). -/
theorem Iss.judge_ok {i : Iss} {cs : List Checked} (h : ∀ c ∈ cs, c.miss = none ∧ c.pte = none ∧ c.cause = none) :
    i.judge cs = .ok ({ i with s := (cs.filterMap Checked.fill).foldl State.tlbFill i.s }, cs.map (·.acc)) := by
  have hmiss : cs.filterMap (·.miss) = [] := List.filterMap_eq_nil_iff.2 fun c hc => (h c hc).1
  have hpte : cs.filterMap (·.pte) = [] := List.filterMap_eq_nil_iff.2 fun c hc => (h c hc).2.1
  have hcause : cs.filterMap (·.cause) = [] := List.filterMap_eq_nil_iff.2 fun c hc => (h c hc).2.2
  simp only [Iss.judge, hmiss, hpte, hcause, List.isEmpty_nil, Bool.not_true, Bool.false_eq_true, if_false, List.foldl_nil,
    topCause]

/-- Accesses of which one finds a cause, while none waits for a walk or writes. -/
theorem Iss.judge_cause {i : Iss} {cs : List Checked} (h : ∀ c ∈ cs, c.miss = none ∧ c.pte = none) {c : CauseRec}
    (hc : topCause (cs.filterMap (·.cause)) = some c) :
    i.judge cs = .error (.cause ((cs.filterMap Checked.fill).foldl State.tlbFill i.s) c) := by
  have hmiss : cs.filterMap (·.miss) = [] := List.filterMap_eq_nil_iff.2 fun c hc => (h c hc).1
  have hpte : cs.filterMap (·.pte) = [] := List.filterMap_eq_nil_iff.2 fun c hc => (h c hc).2
  simp only [Iss.judge, hmiss, hpte, hc, List.isEmpty_nil, Bool.not_true, Bool.false_eq_true, if_false, List.foldl_nil]

/-- The state without its TLBs and the choices that filling them uses up. -/
def State.besidesTlb (s : State) : State := { s with tlb := [], free := 0 }

@[simp] theorem State.tlbFill_besidesTlb (s : State) (e : TlbEnt) : (s.tlbFill e).besidesTlb = s.besidesTlb := by
  unfold State.tlbFill
  dsimp only
  generalize (if e.core.isSome then 64 else 8192) = size
  split <;> rfl

@[simp] theorem State.foldl_tlbFill_besidesTlb (es : List TlbEnt) (s : State) :
    (es.foldl State.tlbFill s).besidesTlb = s.besidesTlb :=
  foldl_keeps State.besidesTlb State.tlbFill_besidesTlb es s

/-! ### One access -/

/-- A check against the limit of a space finds the cause, and nothing else (R232). -/
theorem checkLimit_eq (space limit n : Nat) (mk : Nat → Nat → Loc) (lane k o : Nat) :
    checkLimit space limit n mk (lane, k, o) =
      { acc := { lane := lane, k := k, loc := mk lane o, va := BitVec.ofNat 64 o }
        cause := (Claims.limitCause n limit o).map (accessCause space lane o) } := by
  unfold checkLimit Claims.limitCause
  dsimp only
  split_ifs <;> rfl

/-- A permitted read finds its place, and the entry that the core's TLB lacks (R137, R139, R325, R327). -/
theorem Iss.checkFlat_allowed {i : Iss} {n va : Nat} {l : Leaf} {pa : Nat} (h : Claims.Allowed i .read n va l pa) (lane k : Nat) :
    i.checkFlat .read n (lane, k, va) =
      { acc := { lane := lane, k := k, loc := .mem pa, va := BitVec.ofNat 64 va }, fill := i.fillOf va } := by
  have hwindow : ¬ ((i.c.desc.ws.getD i.t.die (0, 0)).2 ≠ 0 ∧ windowBase ≤ va ∧ va < windowBase + windowSpan) :=
    fun ⟨hws, hin⟩ => h.noWindow.elim hws fun hout => hout hin
  simp only [Iss.checkFlat, h.canonical, hwindow, h.leaf, h.permitted, h.aligned, Bool.not_true, Bool.false_eq_true, if_false,
    ne_eq, not_true_eq_false, reduceCtorEq]

/-- Where the page is found by a walk alone, the TLBs have no entry to take (R327). -/
theorem Iss.fillOf_of_leafOf_error {i : Iss} {kind : Kind} {va : Nat} {c : BitVec 8} (h : i.leafOf kind va = some (.error c)) :
    i.fillOf va = none := by
  unfold Iss.leafOf at h
  unfold Iss.fillOf
  cases hcore : i.s.tlbEntry i.t.die (some i.t.core) i.t.ctx (va / 65536) with
  | some e => rfl
  | none =>
    cases hdie : i.s.tlbEntry i.t.die none i.t.ctx (va / 65536) with
    | some e => simp [hcore, hdie] at h
    | none => rfl

/-- What the check of a read finds where no walk is missing: the cause, and the entry that the core's TLB lacks where page tables
translate the address (R139, R226, R325). -/
theorem Iss.checkFlat_read {i : Iss} {n va : Nat} (h : Claims.mapped i va = true → i.leafOf .read va ≠ none) (lane k : Nat) :
    let c := i.checkFlat .read n (lane, k, va)
    c.miss = none ∧ c.pte = none ∧ c.cause = (Claims.flatCause i .read n va).map (accessCause 0 lane va) ∧
      c.fill = if Claims.mapped i va then i.fillOf va else none := by
  unfold Claims.flatCause Iss.checkFlat
  dsimp only
  cases hcanon : canonical va with
  | false =>
    have hmapped : Claims.mapped i va = false := by rw [Claims.mapped, hcanon]; rfl
    rw [hmapped]
    by_cases halign : va % n = 0 <;> simp [halign, accessCause]
  | true =>
    by_cases hwindow : (i.c.desc.ws.getD i.t.die (0, 0)).2 ≠ 0 ∧ windowBase ≤ va ∧ va < windowBase + windowSpan
    · have hmapped : Claims.mapped i va = false := by rw [Claims.mapped, hcanon, decide_eq_true hwindow]; rfl
      rw [if_neg (by simp), if_pos hwindow, if_neg nofun, hmapped]
      by_cases hlimit : (i.c.desc.ws.getD i.t.die (0, 0)).2 * 65536 < va - windowBase + n
      · simp only [if_pos hlimit]
        by_cases halign : va % n = 0 <;> simp [halign, accessCause]
      · simp only [if_neg hlimit]
        by_cases halign : va % n = 0 <;> simp [halign, accessCause]
    · have hmapped : Claims.mapped i va = true := by rw [Claims.mapped, hcanon, decide_eq_false hwindow]; rfl
      rw [if_neg (by simp), if_neg hwindow, hmapped]
      cases hleaf : i.leafOf .read va with
      | none => exact absurd hleaf (h hmapped)
      | some r =>
        cases r with
        | error c => by_cases halign : va % n = 0 <;> simp [halign, Iss.fillOf_of_leafOf_error hleaf, accessCause]
        | ok l =>
          dsimp only
          cases hcheck : i.s.leafCheck i.c.desc ⟨i.c.priv, false, none⟩ .read va n l with
          | error c => by_cases halign : va % n = 0 <;> simp [halign, accessCause]
          | ok pa => by_cases halign : va % n = 0 <;> simp [halign, accessCause]

/-! ### The ranks of what an access finds -/

theorem Kind.outranked_pgCause (k : Kind) : outranked k.pgCause = false := by cases k <;> rfl

/-- A walk fails with PROT, or with PGRD or PGWR, which LOOPDIV does not outrank (R97, R325). -/
theorem State.outranked_of_walkFrom_error {s : State} {o : Observer} {d : CtxDesc} {k : Kind} {va : Nat} {c : BitVec 8} :
    ∀ {levels : List (Nat × Nat)} {table : Nat}, s.walkFrom o d k va levels table = .error c → outranked c = false
  | [], _, h => by cases h; rfl
  | (lo, len) :: levels, table, h => by
    simp only [State.walkFrom] at h
    split_ifs at h
    · cases h; rfl
    · cases h; exact k.outranked_pgCause
    · cases h; rfl
    · cases h; rfl
    · cases h; rfl
    · exact State.outranked_of_walkFrom_error h

theorem State.outranked_of_leafCheck_error {s : State} {d : CtxDesc} {who : Who} {k : Kind} {va n : Nat} {l : Leaf} {c : BitVec 8}
    (h : s.leafCheck d who k va n l = .error c) : outranked c = false := by
  simp only [State.leafCheck] at h
  split_ifs at h <;> (cases h; rfl)

theorem Iss.outranked_of_leafOf_error {i : Iss} {k : Kind} {va : Nat} {c : BitVec 8} (h : i.leafOf k va = some (.error c)) :
    outranked c = false := by
  simp only [Iss.leafOf] at h
  split at h
  · cases h
  · split_ifs at h
    exact State.outranked_of_walkFrom_error (Option.some.inj h)

theorem outranked_of_flatCause {i : Iss} {k : Kind} {n va : Nat} {c : BitVec 8} (h : Claims.flatCause i k n va = some c) :
    outranked c = false := by
  unfold Claims.flatCause at h
  split_ifs at h
  · cases h; rfl
  · cases h; exact k.outranked_pgCause
  · cases h; rfl
  · cases h; rfl
  · split at h
    · cases h
    next hleaf => cases h; exact Iss.outranked_of_leafOf_error hleaf
    · split at h
      next hcheck => cases h; exact State.outranked_of_leafCheck_error hcheck
      · cases h

theorem outranked_of_limitCause {n limit o : Nat} {c : BitVec 8} (h : Claims.limitCause n limit o = some c) :
    outranked c = false := by
  unfold Claims.limitCause at h
  split_ifs at h <;> (cases h; rfl)

end Sys2Proof.Machine
end

section
/-! PROOFS. LD, LDQ, LDT, LDL and LDW (spec/06 R137 to R140, R149, R150; spec/12 R226, R232 to R235). -/

namespace Sys2Proof.Machine

/-- Operands that pass the checks of R36 are in bounds, so that no address has to be formed first (R13, R311). -/
theorem Iss.bounded_of_ready {i : Iss} {fs : List Field} {dsts : List Opnd} (h : i.ready fs dsts = .ok ())
    (prep : Unit → Except Stop (Iss × List Access)) : i.bounded fs (fs.map (·.o) ++ dsts) prep = .ok () := by
  have hall : (fs.map (·.o) ++ dsts).all i.inBounds = true := by
    by_contra hno
    simp only [Iss.ready, Iss.checkBounds, Iss.check, if_neg hno, bind, Except.bind, Iss.cause, reduceCtorEq] at h
  simp only [Iss.bounded, hall, if_true]

/-- The fields of a tile or lane-local access are its registers, read without a trap (R232, R233). -/
theorem chipFields_eq (a b : Opnd) : chipFields a b = (Claims.chipBase a b).map fun o => ⟨o, false⟩ := by
  unfold chipFields Claims.chipBase
  split_ifs <;> rfl

/-- An instruction none of whose accesses meets an earlier one of its group goes on as it is (R142). -/
theorem Iss.over_of_apart {i : Iss} {n : Nat} {accs : List Access} (hkept : i.kept i.s = i.g)
    (h : Claims.Apart i.s i.g.id n accs) : i.over n (accs.map (·.loc)) = .ok i := by
  have hnone : ∀ q ∈ i.s.pend, q.meets i.g.id n (accs.map (·.loc)) = false := fun q hq => by
    by_cases hown : q.gid = i.g.id
    · simpa [Pending.meets, hown] using h q hq hown
    · simp [Pending.meets, hown]
  have hsame : i.s.performOver i.g.id n (accs.map (·.loc)) = i.s := by
    rw [State.performOver, List.filter_eq_nil_iff.2 fun q hq => by simp [hnone q hq]]; rfl
  have hany : i.s.pend.any (fun q => q.meets i.g.id n (accs.map (·.loc)) && !q.performed) = false :=
    List.any_eq_false.2 fun q hq => by simp [hnone q hq]
  simp only [Iss.over, hsame, hany, Iss.goOn, hkept, Bool.false_eq_true, if_false]

theorem Iss.kept_of_besidesTlb {i : Iss} {s t : State} (h : t.besidesTlb = s.besidesTlb) : i.kept t = i.kept s := by
  have hgroups : t.groups = s.groups := (congrArg State.groups h :)
  simp only [Iss.kept, State.group?, hgroups]

section load
variable {i : Iss} {kind : PendKind} {base : List Field} {d : Opnd} {n : Nat} {acq : Bool} {sc : Nat}
  {prep : Iss → Except Stop (Iss × List Access)} (hready : i.ready base (d.range ((n + 3) / 4)) = .ok ())
  (hheld : i.held = false)
include hready hheld

theorem Iss.load_error {e : Stop} (h : prep i = .error e) : i.load kind base d n acq sc prep = .error e := by
  have hready' : i.ready base (d.range (regsFor n)) = .ok () := hready
  simp only [Iss.load, Iss.bounded_of_ready hready', hready', Iss.gate, hheld, h, bind, Except.bind, Bool.false_eq_true, if_false]

theorem Iss.load_ok {j : Iss} {accs : List Access} (h : prep i = .ok (j, accs)) (hover : j.over n (accs.map (·.loc)) = .ok j) :
    i.load kind base d n acq sc prep = .ok
      { s := { j.s with
          nextId := j.s.nextId + 1
          pend := j.s.pend ++ [{
            id := j.s.nextId, gid := j.g.id, pc := j.g.pc32, region := j.g.regionCnt, kind := kind, dst := d
            uni := j.uni, bytes := n, lanes := j.ex, accs := accs, acq := acq, sc := sc }] }
        g := j.g.expect j.s.nextId ((n + 3) / 4) d j.ex (kind == .ldq) } := by
  have hready' : i.ready base (d.range (regsFor n)) = .ok () := hready
  simp only [Iss.load, Iss.bounded_of_ready hready', hready', Iss.gate, hheld, h, hover, bind, Except.bind, Bool.false_eq_true,
    if_false]
  rfl

end load

end Sys2Proof.Machine

namespace Sys2Proof.Claims

open Sys2Proof.Machine

section load
variable {s s0 : State} {i : Iss} {ctl : Ctl} {ins : Instr} {size : Nat} {gd : Guard} {u : Bool} {kind : PendKind}
  {base : List Opnd} {d : Opnd} {n : Nat} {acq : Bool} {sc : Nat} {prep : Iss → Except Stop (Iss × List Access)}
  (he : exec ins s = issue s size gd u fun i => i.load kind (base.map fun o => ⟨o, false⟩) d n acq sc prep)
  (hclear : Clear i base (d.range ((n + 3) / 4)))
include he hclear

/-- A load whose checks change nothing but TLBs issues its accesses, where none meets an earlier one of its group. -/
theorem loadIssues_of_prep (h : Issues s size gd u .fall i ctl) (hs0 : s0.besidesTlb = s.besidesTlb) {accs : List Access}
    (hprep : prep i = .ok ({ i with s := s0 }, accs)) (hapart : Apart s i.g.id n accs) :
    LoadIssues ins s s0 i ctl kind d n acq sc accs := by
  have hpend : s0.pend = s.pend := (congrArg State.pend hs0 :)
  have htick : s0.tick = s.tick := (congrArg State.tick hs0 :)
  have hid : s0.nextId = s.nextId := (congrArg State.nextId hs0 :)
  have hkept : i.kept s0 = i.g := (Iss.kept_of_besidesTlb hs0).trans (issueOf_kept h.found)
  have hover : Iss.over { i with s := s0 } n (accs.map (·.loc)) = .ok { i with s := s0 } :=
    Iss.over_of_apart hkept (by simp only [Apart, hpend]; exact hapart)
  refine starts_of_body h he (kind == .ldq) rfl htick ?_
  rw [Iss.load_ok hclear.1 hclear.2 hprep hover, Group.gather_nil]
  simp only [hid]
  rfl

/-- A load one of whose accesses fails its check raises the cause of highest rank, of the lowest lane, and performs nothing
(R139, R311, R319). -/
theorem checksFail_of_prep (h : s.issueOf size gd u = some i) (hlanes : i.ex ≠ []) {space tans : Nat} {addr : Nat → Nat → Nat}
    {cause : Nat → Nat → Option (BitVec 8)} {chk : Nat × Nat → Checked} (hprep : prep i = i.judge ((i.places tans).map chk))
    (hfill : (((i.places tans).map chk).filterMap Checked.fill).foldl State.tlbFill s = s0)
    (hchk : ∀ x ∈ i.places tans, (chk x).miss = none ∧ (chk x).pte = none ∧
      (chk x).cause = (cause x.1 x.2).map (accessCause space x.1 (addr x.1 x.2)))
    (hrank : ∀ lane k c, cause lane k = some c → outranked c = false) : ChecksFail ins s0 i space tans addr cause := by
  intro lane hlane k hk c hc hfirst
  obtain ⟨-, rfl, -, hex, -⟩ := issueOf_some h
  have hs0 : s0.besidesTlb = i.s.besidesTlb := hfill ▸ State.foldl_tlbFill_besidesTlb ..
  have hkept : i.kept s0 = i.g := (Iss.kept_of_besidesTlb hs0).trans (issueOf_kept h)
  have hcauses : ((i.places tans).map chk).filterMap (·.cause) =
      (i.places tans).filterMap fun x => (cause x.1 x.2).map (accessCause space x.1 (addr x.1 x.2)) := by
    rw [List.filterMap_map]
    exact List.filterMap_congr fun x hx => (hchk x hx).2.2
  have htop := topCause_places (space := space) (addr := addr) (hex ▸ executing_pairwise ..) hlane hk hc hfirst
  have hjudge : prep i = .error (.cause s0 (accessCause space lane (addr lane k) c)) := by
    rw [hprep, Iss.judge_cause (c := accessCause space lane (addr lane k) c) _ (hcauses ▸ htop), hfill]
    simp only [List.mem_map]
    rintro _ ⟨x, hx, rfl⟩
    exact ⟨(hchk x hx).1, (hchk x hx).2.1⟩
  rw [he, issue_eq h hlanes, Iss.load_error hclear.1 hclear.2 hjudge, Iss.finish_cause (.inl (hrank lane k c hc)), hkept]
  rfl

end load

/-! ### Flat memory -/

section flat
variable {i : Iss} {n : Nat} {a : Opnd} {ofs : Int}

theorem flat_eq (i : Iss) (kind : Kind) (n tans : Nat) (a : Opnd) (ofs : Int) :
    i.flat kind n tans a ofs =
      i.judge ((i.places tans).map fun x => i.checkFlat kind n (x.1, x.2, flatAddr i a ofs x.1 x.2)) := by
  rw [Iss.flat, Iss.spread_eq, List.map_map]
  rfl

theorem flat_of_allowed {tans : Nat} {leaf : Nat → Nat → Leaf} {pa : Nat → Nat → Nat}
    (h : ∀ lane ∈ i.ex, ∀ k ≤ tans, Allowed i .read n (flatAddr i a ofs lane k) (leaf lane k) (pa lane k)) :
    i.flat .read n tans a ofs = .ok ({ i with s := filled i tans (flatAddr i a ofs) },
      spreadAt i tans (fun lane k => .mem (pa lane k)) (flatAddr i a ofs)) := by
  have hchk : (i.places tans).map (fun x => i.checkFlat .read n (x.1, x.2, flatAddr i a ofs x.1 x.2)) =
      (i.places tans).map fun x =>
        { acc := { lane := x.1, k := x.2, loc := .mem (pa x.1 x.2), va := BitVec.ofNat 64 (flatAddr i a ofs x.1 x.2) }
          fill := i.fillOf (flatAddr i a ofs x.1 x.2) } :=
    List.map_congr_left fun x hx => by
      obtain ⟨hlane, hk⟩ := Iss.mem_places.1 hx
      exact Iss.checkFlat_allowed (h x.1 hlane x.2 hk) x.1 x.2
  have hfree : ∀ c ∈ (i.places tans).map fun x => i.checkFlat .read n (x.1, x.2, flatAddr i a ofs x.1 x.2),
      c.miss = none ∧ c.pte = none ∧ c.cause = none := by
    rw [hchk]
    rintro _ hc
    obtain ⟨x, -, rfl⟩ := List.mem_map.1 hc
    exact ⟨rfl, rfl, rfl⟩
  rw [flat_eq, Iss.judge_ok hfree, hchk]
  simp only [filled, spreadAt, ← Iss.map_places, List.map_map, List.filterMap_map, Function.comp_def]

theorem flatChecked_read (i : Iss) (n tans : Nat) (addr : Nat → Nat → Nat) :
    flatChecked i .read n tans addr =
      ((i.places tans).filterMap fun x => if mapped i (addr x.1 x.2) then i.fillOf (addr x.1 x.2) else none).foldl State.tlbFill
        i.s := by
  refine (congrArg (List.foldl State.setDirty _) (List.filterMap_eq_nil_iff.2 fun va _ => ?_)).trans ?_
  · split
    · exact if_neg fun h => nomatch h.2
    · rfl
  · rw [List.foldl_nil, ← Iss.map_places, List.filterMap_filter, List.filterMap_map]
    rfl

end flat

/-! ### Spaces with a limit -/

section limit
variable (i : Iss) (space limit n tans : Nat) (ofs : Nat → Nat → Nat) (place : Nat → Nat → Loc)

/-- The check of one access of a space with a limit. -/
abbrev limitCheck (x : Nat × Nat) : Checked := checkLimit space limit n place (x.1, x.2, ofs x.1 x.2)

theorem limitCheck_eq (x : Nat × Nat) :
    limitCheck space limit n ofs place x =
      { acc := { lane := x.1, k := x.2, loc := place x.1 (ofs x.1 x.2), va := BitVec.ofNat 64 (ofs x.1 x.2) }
        cause := (limitCause n limit (ofs x.1 x.2)).map (accessCause space x.1 (ofs x.1 x.2)) } :=
  checkLimit_eq ..

theorem limitChecks_fill (s : State) :
    (((i.places tans).map (limitCheck space limit n ofs place)).filterMap Checked.fill).foldl State.tlbFill s = s := by
  rw [List.filterMap_eq_nil_iff.2 fun c hc => ?_]
  · rfl
  · obtain ⟨x, -, rfl⟩ := List.mem_map.1 hc
    rw [limitCheck_eq]

theorem judge_limitCheck {i : Iss} {tans : Nat}
    (h : ∀ lane ∈ i.ex, ∀ k ≤ tans, ofs lane k % n = 0 ∧ ofs lane k + n ≤ limit) :
    i.judge ((i.places tans).map (limitCheck space limit n ofs place)) =
      .ok (i, spreadAt i tans (fun lane k => place lane (ofs lane k)) ofs) := by
  have hfree : ∀ c ∈ (i.places tans).map (limitCheck space limit n ofs place),
      c.miss = none ∧ c.pte = none ∧ c.cause = none := by
    rintro _ hc
    obtain ⟨x, hx, rfl⟩ := List.mem_map.1 hc
    obtain ⟨hlane, hk⟩ := Iss.mem_places.1 hx
    obtain ⟨haligned, hfits⟩ := h x.1 hlane x.2 hk
    have hnone : limitCause n limit (ofs x.1 x.2) = none := by
      rw [limitCause, if_neg (not_not.2 haligned), if_neg (Nat.not_lt.2 hfits)]
    rw [limitCheck_eq, hnone]
    exact ⟨rfl, rfl, rfl⟩
  rw [Iss.judge_ok hfree, limitChecks_fill]
  simp only [spreadAt, ← Iss.map_places, List.map_map, Function.comp_def, limitCheck_eq]

end limit

/-! ### The instructions -/

section instructions
variable (p : Option Dual) (w : FmtM) (s : State) (i : Iss)

theorem exec_ld_load : exec (.ld p w) s = issue s (dualSize p) w.g w.u fun i =>
    i.load .load ((basePair w.a).map fun o => ⟨o, false⟩) w.d (2 ^ w.sz.toNat) (w.ord.getLsbD 0) w.sc.toNat fun i =>
      i.flat .read (2 ^ w.sz.toNat) (i.memTans p) w.a w.ofs.toInt := by
  rw [exec_ld, execLd, baseFields_eq]; rfl

theorem exec_ldq_load : exec (.ldq p w) s = issue s (dualSize p) w.g w.u fun i =>
    i.load .ldq ((basePair w.a).map fun o => ⟨o, false⟩) w.d (2 ^ w.sz.toNat) (w.ord.getLsbD 0) w.sc.toNat fun i =>
      i.flat .read (2 ^ w.sz.toNat) (i.memTans p) w.a w.ofs.toInt := by
  rw [exec_ldq, execLdq, baseFields_eq]; rfl

theorem exec_ldt_load : exec (.ldt p w) s = issue s (dualSize p) w.g w.u fun i =>
    i.load .load ((chipBase w.a w.b).map fun o => ⟨o, false⟩) w.d (2 ^ w.sz.toNat) (w.ord.getLsbD 0) w.sc.toNat fun i =>
      i.tileAccess p w := by
  rw [exec_ldt, execLdt, chipFields_eq]; rfl

theorem exec_ldl_load : exec (.ldl p w) s = issue s (dualSize p) w.g w.u fun i =>
    i.load .load ((chipBase w.a .zr).map fun o => ⟨o, false⟩) w.d (2 ^ w.sz.toNat) false 0 fun i => i.laneAccess p w := by
  rw [exec_ldl, execLdl, chipFields_eq]; rfl

theorem exec_ldw_load : exec (.ldw p w) s = issue s (dualSize p) w.g w.u fun i =>
    i.load .load ((basePair w.a).map fun o => ⟨o, false⟩) w.d (2 ^ w.sz.toNat) false 0 fun i => i.windowAccess p w := by
  rw [exec_ldw, execLdw, baseFields_eq]; rfl

/-- The offset of an access of LDW in the window (R226). -/
def windowOfs (i : Iss) (a : Opnd) (ofs : Int) (lane k : Nat) : Nat :=
  ((i.va a ofs lane + 2 ^ 64 - windowBase) % 2 ^ 64 + k * i.g.tanStride.toNat) % 2 ^ 64

theorem tileAccess_eq : i.tileAccess p w =
    i.judge ((i.places (i.memTans p)).map (limitCheck 1 (if (i.coreTeam w.b).isSome then i.l.tileUnits * 256 else 0)
      (2 ^ w.sz.toNat) (chipOfs i w.a w.ofs.toInt) fun _ o => .tile (((i.coreTeam w.b).map (·.id)).getD 0) o)) := by
  rw [Iss.tileAccess, Iss.spread_eq, List.map_map]; rfl

theorem laneAccess_eq : i.laneAccess p w =
    i.judge ((i.places (i.memTans p)).map (limitCheck 2 i.l.laneBytes (2 ^ w.sz.toNat) (chipOfs i w.a w.ofs.toInt)
      fun lane o => .lane i.g.id lane o)) := by
  rw [Iss.laneAccess, Iss.spread_eq, List.map_map]; rfl

theorem windowAccess_eq : i.windowAccess p w =
    i.judge ((i.places (i.memTans p)).map (limitCheck 3 ((i.c.desc.ws.getD i.t.die (0, 0)).2 * 65536) (2 ^ w.sz.toNat)
      (windowOfs i w.a w.ofs.toInt) fun _ o => .ws i.t.die ((i.c.desc.ws.getD i.t.die (0, 0)).1 * 65536 + o))) := by
  rw [Iss.windowAccess, Iss.spread_eq, List.map_map]; rfl

end instructions

theorem loadsIssue : LoadsIssue := by
  intro p w s i ctl h n tans hclear _ leaf pa hallowed accs s0 hapart
  have hprep : i.flat .read n tans w.a w.ofs.toInt = .ok ({ i with s := s0 }, accs) := flat_of_allowed hallowed
  have hs0 : s0.besidesTlb = s.besidesTlb := h.state ▸ State.foldl_tlbFill_besidesTlb ..
  exact ⟨loadIssues_of_prep (exec_ld_load p w s) hclear h hs0 hprep hapart,
    loadIssues_of_prep (exec_ldq_load p w s) hclear h hs0 hprep hapart⟩

theorem chipLoadsIssue : ChipLoadsIssue := by
  intro p w s i ctl h n tans ofs wofs fits _ _
  have hsame : { i with s := s } = i := by rw [← h.state]
  refine ⟨?_, ?_, ?_⟩
  · intro t hclear hteam hfits accs hapart
    refine loadIssues_of_prep (exec_ldt_load p w s) hclear h rfl ?_ hapart
    rw [hsame, tileAccess_eq, hteam]
    exact judge_limitCheck _ _ _ _ _ hfits
  · intro hclear hfits accs hapart
    refine loadIssues_of_prep (exec_ldl_load p w s) hclear h rfl ?_ hapart
    rw [hsame, laneAccess_eq]
    exact judge_limitCheck _ _ _ _ _ hfits
  · intro hclear ws hfits accs hapart
    refine loadIssues_of_prep (exec_ldw_load p w s) hclear h rfl ?_ hapart
    rw [hsame, windowAccess_eq]
    exact judge_limitCheck _ _ _ _ _ hfits

section fails
variable {s s0 : State} {i : Iss} {ins : Instr} {size : Nat} {gd : Guard} {u : Bool} {kind : PendKind}
  {base : List Opnd} {d : Opnd} {n : Nat} {acq : Bool} {sc : Nat} {prep : Iss → Except Stop (Iss × List Access)}
  (he : exec ins s = issue s size gd u fun i => i.load kind (base.map fun o => ⟨o, false⟩) d n acq sc prep)
  (h : s.issueOf size gd u = some i) (hlanes : i.ex ≠ []) (hclear : Clear i base (d.range ((n + 3) / 4)))
include he h hlanes hclear

/-- A load of a space with a limit. -/
theorem checksFail_of_limit {space limit tans : Nat} {ofs : Nat → Nat → Nat} {place : Nat → Nat → Loc}
    (hprep : prep i = i.judge ((i.places tans).map (limitCheck space limit n ofs place))) :
    ChecksFail ins s i space tans ofs fun lane k => limitCause n limit (ofs lane k) :=
  checksFail_of_prep he hclear h hlanes hprep (limitChecks_fill ..)
    (fun x _ => by rw [limitCheck_eq]; exact ⟨rfl, rfl, rfl⟩) fun _ _ _ => outranked_of_limitCause

/-- A load of flat memory. -/
theorem flatChecksFail_of_flat {tans : Nat} {a : Opnd} {ofs : Int} (hprep : prep i = i.flat .read n tans a ofs) :
    FlatChecksFail ins i .read n tans (flatAddr i a ofs) := by
  intro hwalked
  have hfinds (x : Nat × Nat) (hx : x ∈ i.places tans) :=
    Iss.checkFlat_read (n := n) (hwalked x.1 (Iss.mem_places.1 hx).1 x.2 (Iss.mem_places.1 hx).2) x.1 x.2
  refine checksFail_of_prep he hclear h hlanes (hprep.trans (flat_eq ..)) ?_ (fun x hx => ?_) fun _ _ _ => outranked_of_flatCause
  · rw [flatChecked_read, List.filterMap_map, (issueOf_some h).2.1]
    exact congrArg (List.foldl State.tlbFill s) (List.filterMap_congr fun x hx => (hfinds x hx).2.2.2)
  · obtain ⟨hmiss, hpte, hcause, -⟩ := hfinds x hx
    exact ⟨hmiss, hpte, hcause⟩

end fails

theorem loadChecksFail : LoadChecksFail := by
  intro p w s i h hlanes n tans dsts ofs wofs tile
  exact ⟨fun hclear => ⟨flatChecksFail_of_flat (exec_ld_load p w s) h hlanes hclear rfl,
      flatChecksFail_of_flat (exec_ldq_load p w s) h hlanes hclear rfl,
      checksFail_of_limit (exec_ldw_load p w s) h hlanes hclear (windowAccess_eq p w i)⟩,
    fun hclear => checksFail_of_limit (exec_ldt_load p w s) h hlanes hclear (tileAccess_eq p w i),
    fun hclear => checksFail_of_limit (exec_ldl_load p w s) h hlanes hclear (laneAccess_eq p w i)⟩

/-- Settles O52: the five loads have one body, which issues the accesses that its checks give and raises the first cause of highest
rank that they find; each space has a lemma that says what its check finds. -/
theorem loadsOfEverySpace : Obligations.LoadsOfEverySpace := ⟨loadsIssue, chipLoadsIssue, loadChecksFail⟩

end Sys2Proof.Claims
end

section
/-! PROOFS. A release at die scope of a group whose die is none of a write's observers (spec/06 R146, spec/20 R357). -/

namespace Sys2Proof.Claims

open Sys2Proof.Machine

/-- A write of a byte of host memory by the group of `atRelease`, in coherence order, that stands for another write. -/
def bearingWrite : InWrite :=
  { id := 0, site := { gid := some 4, team := 2, cluster := 3, die := 12 }, base := hostBase, len := 1, cells := [(hostBase, 1)]
    placed := true, rels := [{ site := {}, sc := 3, ids := [1], reads := [] }] }

/-- A write of no group, at the byte after it. -/
def borneWrite : InWrite := { id := 1, site := {}, base := hostBase + 1, len := 1, cells := [(hostBase + 1, 1)] }

/-- The package with a launch of one group (log 27), one lane of which is at its entry, with these writes on their way. The group's
team stands on socket 12, that of the Crown, where no launch places one; nothing in `State.Inv` excludes it. -/
def atRelease : State :=
  let s := State.reset.installProgram
  { s with
    cur := 4
    teams := s.teams.map fun t => { t with die := 12 }
    groups := s.groups.map fun g => { g with ctl := Ctl.single 0 1 }
    inflight := [bearingWrite, borneWrite] }

/-- A null ATOM.ADD with OR 3 at die scope, under the guard P7. -/
def releaseDie : FmtMA :=
  { g := ⟨false, 7⟩, ch := 0, mca := false, u := false, ord := 3, sc := 3, sz := 2, fn := 0, ofs := 0, b := .zr, a := .zr, d := .zr }

theorem atRelease_found : (atRelease.issueOf 8 releaseDie.g releaseDie.u).isSome = true := by decide +kernel

/-- What the group finds as it issues. -/
def releaseIssue : Iss := (atRelease.issueOf 8 releaseDie.g releaseDie.u).get atRelease_found

theorem releaseIssue_issues : ∃ ctl, Issues atRelease 8 releaseDie.g releaseDie.u .fall releaseIssue ctl := by
  obtain ⟨ctl, hctl⟩ := Option.isSome_iff_exists.1
    (show (releaseIssue.g.ctl.advance releaseIssue.after .fall).isSome = true by decide +kernel)
  exact ⟨ctl, (Option.some_get _).symm, by decide +kernel, hctl⟩

theorem releaseIssue_clear : Clear releaseIssue [] [] := by
  have hok : (releaseIssue.ready [] []).isOk = true := by decide +kernel
  refine ⟨?_, by decide +kernel⟩
  cases hready : releaseIssue.ready [] [] with
  | ok _ => exact hready
  | error _ => simp [hready, Except.isOk, Except.toBool] at hok

theorem atRelease_inv : atRelease.Inv where
  mem := by unfold State.memOk; decide +kernel
  names := by unfold State.named; decide +kernel
  order := by unfold State.ordered; decide +kernel

/-- The group's write stays on its way, since the other one has not arrived, and has reached the observers of a write, but not
socket 12. -/
theorem atRelease_performs : (match exec (.atom none releaseDie) atRelease with
    | .next t => t.inflight.any fun v =>
        v.site.gid = some 4 && v.flat && v.arrived = allObservers && !v.arrived.contains (.socket 12)
    | _ => true) = true := by
  decide +kernel

/-- Refutes O5, in its second part: a write of host memory reaches sockets 0 to 11 and the host at once, and not the die of its
group, if that is another one. -/
theorem not_releaseReachesScope : ¬ Obligations.ReleaseReachesScope := by
  intro hrelease
  obtain ⟨ctl, hissues⟩ := releaseIssue_issues
  have hquiet : atRelease.pend = [] := by decide +kernel
  obtain ⟨-, hperforms⟩ := hrelease none releaseDie atRelease releaseIssue ctl hissues rfl rfl (.inl rfl) releaseIssue_clear
  obtain ⟨t, hstep, hreaches⟩ := hperforms rfl atRelease_inv (fun q hq => absurd hq (hquiet ▸ List.not_mem_nil))
    (by decide +kernel)
  have hperformed := atRelease_performs
  rw [hstep] at hperformed
  obtain ⟨v, hv, hfound⟩ := List.any_eq_true.1 hperformed
  simp only [Bool.and_eq_true, decide_eq_true_eq, Bool.not_eq_true'] at hfound
  obtain ⟨⟨⟨hgid, hflat⟩, -⟩, hmissed⟩ := hfound
  obtain ⟨hown, hdie⟩ : some releaseIssue.g.id = some 4 ∧ releaseIssue.t.die = 12 := by decide +kernel
  obtain ⟨-, hobservers, -⟩ := hreaches v hv (.inl (hgid.trans hown.symm))
  have hreached := hobservers le_rfl hflat (.socket 12) (by rw [hdie]; decide)
  rw [hmissed] at hreached
  exact absurd hreached (by decide)

end Sys2Proof.Claims
end

section
/-! PROOFS. A store with more tangents than an operand has (spec/06 R149, spec/05 R132). -/

namespace Sys2Proof.Claims

open Sys2Proof.Machine

/-- The package with a launch of one group (log 27), one lane of which is at its entry, with tangents 16 bytes apart; byte 80 of the
lane's own memory is 1. -/
def atLaneStore : State :=
  let s := State.reset.installProgram
  { s with
    cur := 4
    groups := s.groups.map fun g => { g with ctl := Ctl.single 0 1, tanStride := 16, lmem := [(laneKey 0 80, 1)] } }

/-- A DUAL word of five tangents, which memory instructions move. Decoding refuses it (R35), and nothing in the statement excludes it. -/
def fiveTangents : Dual := ⟨5, true⟩

/-- STL of the four bytes of ZR at offset 0, under the guard P7. -/
def storeZero : FmtM :=
  { g := ⟨false, 7⟩, ch := 0, mca := false, u := false, ord := 0, sc := 0, sz := 2, ofs := 0, b := .zr, a := .zr, d := .zr }

theorem atLaneStore_found : (atLaneStore.issueOf 12 storeZero.g storeZero.u).isSome = true := by decide +kernel

/-- What the group finds as it issues. -/
def laneStoreIssue : Iss := (atLaneStore.issueOf 12 storeZero.g storeZero.u).get atLaneStore_found

theorem laneStoreIssue_issues : ∃ ctl, Issues atLaneStore 12 storeZero.g storeZero.u .fall laneStoreIssue ctl := by
  obtain ⟨ctl, hctl⟩ := Option.isSome_iff_exists.1
    (show (laneStoreIssue.g.ctl.advance laneStoreIssue.after .fall).isSome = true by decide +kernel)
  exact ⟨ctl, (Option.some_get _).symm, by decide +kernel, hctl⟩

theorem laneStoreIssue_clear : Clear laneStoreIssue [.zr] [] := by
  have hok : (laneStoreIssue.ready [⟨.zr, false⟩] []).isOk = true := by decide +kernel
  refine ⟨?_, by decide +kernel⟩
  cases hready : laneStoreIssue.ready [⟨.zr, false⟩] [] with
  | ok _ => exact hready
  | error _ => simp [hready, Except.isOk, Except.toBool] at hok

/-- The six accesses of the lane stand apart, below the end of its memory. -/
theorem laneStoreIssue_places : laneStoreIssue.ex = [0] ∧ laneStoreIssue.l.laneBytes = 1024 ∧
    ∀ k ≤ 5, chipOfs laneStoreIssue .zr 0 0 k = 16 * k := by
  decide +kernel

/-- The store leaves byte 80, the first of the fifth tangent, as it was. -/
theorem atLaneStore_keeps : (match exec (.stl (some fiveTangents) storeZero) atLaneStore with
    | .next t => (t.group? 4).all fun g => look 0 g.lmem (laneKey 0 80) = 1
    | _ => true) = true := by
  decide +kernel

/-- Refutes O47, in its second part: a register has four tangents, and STL of a fifth, which the statement admits and of which each
byte is then zero, writes nothing. -/
theorem not_storesOfEverySpace : ¬ Obligations.StoresOfEverySpace := by
  rintro ⟨-, hchip, -⟩
  obtain ⟨ctl, hissues⟩ := laneStoreIssue_issues
  obtain ⟨hex, hbytes, hofs⟩ := laneStoreIssue_places
  obtain ⟨-, hlane⟩ := hchip (some fiveTangents) storeZero atLaneStore laneStoreIssue ctl hissues rfl rfl (by decide) nofun
    (by decide +kernel)
  have hplace : ∀ lane ∈ laneStoreIssue.ex, ∀ k ≤ 5, chipOfs laneStoreIssue .zr 0 lane k = 16 * k := fun lane hlane => by
    obtain rfl : lane = 0 := List.mem_singleton.1 (hex ▸ hlane)
    exact hofs
  have hfits : ∀ lane ∈ laneStoreIssue.ex, ∀ k ≤ 5,
      chipOfs laneStoreIssue .zr 0 lane k % 4 = 0 ∧ chipOfs laneStoreIssue .zr 0 lane k + 4 ≤ laneStoreIssue.l.laneBytes :=
    fun lane hlane k hk => by rw [hplace lane hlane k hk, hbytes]; omega
  have hapart : ∀ lane ∈ laneStoreIssue.ex, ∀ j ≤ 5, ∀ k ≤ 5,
      chipOfs laneStoreIssue .zr 0 lane j = chipOfs laneStoreIssue .zr 0 lane k → j = k :=
    fun lane hlane j hj k hk h => by rw [hplace lane hlane j hj, hplace lane hlane k hk] at h; omega
  have hquiet : atLaneStore.pend = [] := by decide +kernel
  obtain ⟨t, g, hstep, -, -, hg, -, hfound⟩ := hlane laneStoreIssue_clear hfits hbytes.le hapart
    fun q hq => absurd hq (hquiet ▸ List.not_mem_nil)
  have hmem : 0 ∈ laneStoreIssue.ex := by simp [hex]
  have hcovers : chipOfs laneStoreIssue .zr 0 0 5 ≤ 80 ∧ 80 < chipOfs laneStoreIssue .zr 0 0 5 + 4 := by
    rw [hofs 5 le_rfl]; omega
  have hzero : look 0 g.lmem (laneKey 0 80) = 0 := ((hfound 0 80 (by decide)).1 hmem 5 le_rfl hcovers).trans (by decide +kernel)
  have hid : laneStoreIssue.g.id = 4 := by decide +kernel
  have hkept := atLaneStore_keeps
  rw [hstep] at hkept
  simp only [← hid, hg, Option.all_some, decide_eq_true_eq, hzero] at hkept
  exact absurd hkept (by decide)

end Sys2Proof.Claims
end

section
/-! PROOFS. The lane instructions: LXCH, PPOLL, LRED, LEQV and LPICK (spec/08 R167 to R172). -/

namespace Sys2Proof.Machine

open Sys2Proof.Claims (val ofBits eq_ofBits sumOfBits_testBit)

/-! ### What the executing lanes have read -/

theorem getLsbD_laneMask (ls : List Nat) {k : Nat} (hk : k < 32) : (laneMask ls).getLsbD k = decide (k ∈ ls) := by
  have hbit := (sumOfBits_testBit (fun l => ls.contains l) 32).2 k
  rw [laneMask, BitVec.getLsbD_ofNat, lanes, hbit, decide_eq_true hk, Bool.true_and, Bool.true_and, List.contains_eq_mem]

/-- A mask of lanes, bit by bit. -/
theorem laneMask_eq_ofBits (ls : List Nat) : laneMask ls = ofBits fun k => decide (k ∈ ls) :=
  eq_ofBits fun _ hk => getLsbD_laneMask ls hk

section lanesRead
variable (ls : List Nat)

/-- What a lane has read, where it is one of those that read. -/
theorem laneData_map_getD (f : Nat → List Datum) (k : Nat) (ds : List Datum) :
    (laneData (ls.map fun l => (l, f l)) k).getD ds = if k ∈ ls then f k else ds := by
  induction ls with
  | nil => rfl
  | cons l ls ih =>
    by_cases hl : l = k
    · subst hl
      simp [laneData]
    · simpa [laneData, hl, Ne.symm hl] using ih

theorem laneWords_map (a : Src) (f : Nat → List Datum) :
    laneWords a (ls.map fun l => (l, f l)) = ls.map fun l => (l, val a (f l) 0) := by
  simp [laneWords, val, List.headD_eq_head?_getD, List.head?_eq_getElem?]

/-- The lanes that hold a word. -/
theorem lanesOf_map (f : Nat → W32) (x : W32) :
    ((ls.map fun l => (l, f l)).filter fun y => y.2 = x).map (·.1) = ls.filter fun l => f l = x := by
  simp [List.filter_map, Function.comp_def]

end lanesRead

/-- A source's datum after its modifier, which touches the primal word only (R32). -/
theorem headD_modify (a : Src) (ds : List Datum) :
    (ds.headD {}).modify a.sel = { ds.getD 0 {} with val := val a ds 0 } := by
  cases ds <;> rfl

end Sys2Proof.Machine

namespace Sys2Proof.Claims

open Sys2Proof.Machine

/-! ### The instructions -/

/-- R168: LXCH delivers what a lane of the segment has read, or the lane's own. -/
theorem does_lxch (p : Option Dual) (w : FmtA) :
    Does (.lxch p w) (dualSize p) w.g w.u [w.a.field, w.b.field] [w.d] fun i lane ds =>
      let src := lxchLane w.fn.toNat (32 >>> w.fl.toNat) lane (val w.b ds 1)
      let ds := if src ∈ i.ex then i.g.reads [w.a.o, w.b.o] src else ds
      { out := [{ ds.getD 0 {} with val := val w.a ds 0 }.cut (i.tans p)] } := by
  refine does_applyAll (exec_lxch · p w) (fun _ => rfl) fun i => ?_
  rw [List.map_map]
  refine List.map_congr_left fun lane _ => ?_
  simp only [Function.comp_apply, laneData_map_getD, headD_modify]
  rfl

/-- R172: LPICK delivers what the named lane has read, or the lowest one. -/
theorem does_lpick (p : Option Dual) (w : FmtA) :
    Does (.lpick p w) (dualSize p) w.g w.u [w.a.field, w.b.field] [w.d] fun i _ ds =>
      let src := (val w.b ds 1).toNat % 32
      let ds := if src ∈ i.ex then i.g.reads [w.a.o, w.b.o] src else i.g.reads [w.a.o, w.b.o] (i.ex.headD 0)
      { out := [{ ds.getD 0 {} with val := val w.a ds 0 }.cut (i.tans p)] } := by
  refine does_applyAll (exec_lpick · p w) (fun _ => rfl) fun i => ?_
  rw [List.map_map]
  refine List.map_congr_left fun lane hlane => ?_
  simp only [Function.comp_apply, laneData_map_getD, headD_modify]
  obtain ⟨low, rest, hex⟩ := List.exists_cons_of_ne_nil (List.ne_nil_of_mem hlane)
  rw [hex]
  rfl

/-- R170: LRED folds the words of the lanes, in ascending order. -/
theorem does_lred (w : FmtA) :
    let word (i : Iss) (lane : Nat) : W32 := val w.a (i.g.reads [w.a.o] lane) 0
    Does (.lred w) 8 w.g w.u [w.a.field] [w.d] fun i _ _ =>
      one ((i.ex.tail.map (word i)).foldl (lredWord w.fn.toNat) (word i (i.ex.headD 0))) := by
  intro word
  refine does_applyAll (exec_lred · w) (fun _ => rfl) fun i => ?_
  rw [List.map_map]
  refine List.map_congr_left fun lane hlane => ?_
  simp only [Function.comp_apply, laneWords_map, List.map_map]
  obtain ⟨low, rest, hex⟩ := List.exists_cons_of_ne_nil (List.ne_nil_of_mem hlane)
  rw [hex]
  rfl

/-- R171: LEQV gives a lane those that hold its word; or all where all do, and none elsewhere. -/
theorem does_leqv (w : FmtA) :
    let word (i : Iss) (lane : Nat) : W32 := val w.a (i.g.reads [w.a.o] lane) 0
    Does (.leqv w) 8 w.g w.u [w.a.field] [w.d] fun i lane _ =>
      let same := i.ex.filter fun l => word i l = word i lane
      one (ofBits fun k => decide (k ∈ if w.fn = 0 then same else if same = i.ex then same else [])) := by
  intro word
  refine does_applyAll (exec_leqv · w) (fun _ => rfl) fun i => ?_
  rw [laneWords_map, List.map_map]
  refine List.map_congr_left fun lane _ => ?_
  simp only [Function.comp_apply, lanesOf_map, List.length_map, laneMask_eq_ofBits, List.length_filter_eq_length_iff,
    List.filter_eq_self]
  rfl

/-- R169: PPOLL to a predicate tells whether all, or any, of the lanes hold the polled one. -/
theorem does_ppoll_pred {w : FmtPoll} {pd : PSel} (hd : w.d = .pred pd) :
    let yes (i : Iss) (lane : Nat) : Bool := i.g.pred w.pa.neg w.pa.pn lane
    Does (.ppoll w) 8 w.g w.u [] [] fun i _ _ =>
      { preds := [(pd.pn, if w.fn = 0 then i.ex.all (yes i) else i.ex.any (yes i))] } := by
  intro yes
  refine does_apply (exec_ppoll · w) (f := fun i _ _ => { preds := [(pd.pn, if w.fn = 0 then
    decide ((i.ex.filter (yes i)).length = i.ex.length) else !(i.ex.filter (yes i)).isEmpty)] })
    (fun i => by simp only [hd]; rfl) fun i _ => ?_
  have hall : decide ((i.ex.filter (yes i)).length = i.ex.length) = i.ex.all (yes i) := by
    rw [Bool.eq_iff_iff, decide_eq_true_iff, List.length_filter_eq_length_iff, List.all_eq_true]
  have hany : (!(i.ex.filter (yes i)).isEmpty) = i.ex.any (yes i) := by
    rw [Bool.eq_iff_iff]; simp
  rw [hall, hany]

/-- R169: PPOLL to a register gives the mask of the lanes that hold the polled predicate. -/
theorem does_ppoll_reg {w : FmtPoll} {o : Opnd} (hd : w.d = .reg o) :
    Does (.ppoll w) 8 w.g w.u [] [o] fun i _ _ =>
      one (ofBits fun k => decide (k ∈ i.ex) && i.g.pred w.pa.neg w.pa.pn k) := by
  refine does_apply (exec_ppoll · w) (f := fun i _ _ => one (laneMask (i.ex.filter (i.g.pred w.pa.neg w.pa.pn))))
    (fun i => by simp only [hd]; rfl) fun i _ => ?_
  simp only [laneMask_eq_ofBits, List.mem_filter, Bool.decide_and, Bool.decide_eq_true]

/-- Settles O3, instruction by instruction: every lane's sources are gathered before a result is formed, and each result is that of
the statement. -/
theorem laneInstructions : Obligations.LaneInstructions := by
  refine ⟨fun p w => ⟨does_lxch p w, does_lpick p w⟩, fun w => ⟨does_lred w, does_leqv w⟩, fun w => ?_⟩
  intro yes
  split
  · next hd => exact does_ppoll_pred hd
  · next hd => exact does_ppoll_reg hd

end Sys2Proof.Claims
end

section
/-! PROOFS. Lanes that leave a group: its masks, the statuses, and what the end of a group keeps (spec/08 R161, R173 to R175). -/

namespace Sys2Proof.Machine

open Sys2Proof.Claims (MayLeave exited without)

/-! ### The lanes that remain -/

/-- The entry at the bottom of the divergence stack stays, whichever paths above it end. -/
theorem rejoin_getLast? {div : List DivEnt} {loops : List LoopEnt} {pc : CodeAt} {j : Bool}
    {r : List DivEnt × List LoopEnt × CodeAt × Bool} (h : rejoin div loops pc j = some r) :
    r.1.getLast? = div.getLast? := by
  induction div, loops, pc, j using rejoin.induct with
  | case1 | case2 => cases h; rfl
  | case3 e e' es loops pc j hempty ih =>
    rw [rejoin, if_pos hempty] at h
    rw [ih h, List.getLast?_cons_cons]
  | case4 e e' es loops pc j hlanes harrived hdeeper =>
    rw [rejoin, if_neg hlanes, if_pos harrived, if_pos hdeeper] at h
    cases h
  | case5 e e' es loops pc j hlanes harrived hdepth ih =>
    rw [rejoin, if_neg hlanes, if_pos harrived, if_neg hdepth] at h
    rw [ih h, List.getLast?_cons_cons]
  | case6 e e' es loops pc j hlanes hgoing =>
    rw [rejoin, if_neg hlanes, if_neg hgoing] at h
    cases h
    rfl

@[simp] theorem Ctl.setPc_alive (c : Ctl) (pc : CodeAt) : (c.setPc pc).alive = c.alive := by
  obtain ⟨div, loops⟩ := c
  match div with
  | [] | [_] => rfl
  | e :: e' :: es => simp only [Ctl.setPc, Ctl.alive, List.getLast?_cons_cons]

theorem Ctl.settle_alive {c c' : Ctl} {loops : List LoopEnt} {pc : CodeAt} (h : Ctl.settle c.div loops pc = some c') :
    c'.alive = c.alive := by
  rw [Ctl.settle] at h
  split at h
  · cases h
  · next div _ _ _ hrejoin =>
    cases h
    have hlast : div.getLast? = c.div.getLast? := rejoin_getLast? hrejoin
    rw [Ctl.setPc_alive, Ctl.alive, Ctl.alive, hlast]

/-- No lane leaves as a group goes on. -/
theorem Ctl.advance_alive {c c' : Ctl} {a8 : CodeAt} {nx : Next} (h : c.advance a8 nx = some c') : c'.alive = c.alive := by
  cases nx <;> exact Ctl.settle_alive h

theorem without_alive (c : Ctl) (ls : List Nat) : (without c ls).alive = c.alive &&& ~~~(laneMask ls) := by
  rw [Ctl.alive, Ctl.alive, without, List.getLast?_map]
  cases c.div.getLast? <;> simp

/-- Lanes that were removed are not among those that remain as the group goes on. -/
theorem not_mem_alive_of_without {c c' : Ctl} {ls : List Nat} {a8 : CodeAt} {nx : Next}
    (h : (without c ls).advance a8 nx = some c') {lane : Nat} (hlane : lane ∈ ls) : lane ∉ maskLanes c'.alive := by
  intro hmem
  have hlt := maskLanes_lt hmem
  have hbit := (List.mem_filter.1 hmem).2
  rw [Ctl.advance_alive h, without_alive, BitVec.getLsbD_and, BitVec.getLsbD_not, getLsbD_laneMask ls hlt, decide_eq_true hlane,
    Bool.not_true, Bool.and_false, Bool.and_false] at hbit
  exact Bool.false_ne_true hbit

/-! ### The statuses (R173, R175) -/

/-- The statuses enter the reductions one by one. -/
theorem exit_foldl (xs : List (Nat × BitVec 8)) (r : Reduce) :
    xs.foldl (fun r x => r.exit x.2) r = exited r (xs.map (·.2)) := by
  induction xs generalizing r with
  | nil => rfl
  | cons x xs ih =>
    rw [List.foldl_cons, ih]
    have hcount : ((x.2 :: xs.map (·.2)).filter (· ≠ 0)).length =
        (if x.2 = 0 then 0 else 1) + ((xs.map (·.2)).filter (· ≠ 0)).length := by
      rw [List.filter_cons]
      by_cases hzero : x.2 = 0
      · rw [if_neg (by simp [hzero]), if_pos hzero, Nat.zero_add]
      · rw [if_pos (decide_eq_true hzero), if_neg hzero, List.length_cons, Nat.add_comm]
    simp only [exited, hcount, List.map_cons, List.foldl_cons, List.length_cons, Reduce.exit, Nat.add_assoc, Nat.add_comm 1]

/-- The status of a lane is the low byte of its source. -/
theorem exitStatuses_map (a : Src) (g : Group) (ls : List Nat) :
    (exitStatuses a (ls.map fun lane => (lane, [g.datum lane a.o]))).map (·.2) =
      ls.map fun lane => (modify a.sel (g.datum lane a.o).val).setWidth 8 := by
  simp [exitStatuses, laneWords]

theorem Iss.waitProducers_ok {i : Iss} (h : MayLeave i) : i.waitProducers = .ok () := by
  obtain ⟨hpend, hmatrix⟩ := h
  rw [Iss.waitProducers, if_neg]
  rw [hmatrix, Bool.false_or, List.any_eq_true]
  rintro ⟨q, hq, hlands⟩
  obtain ⟨hgid, hlands⟩ := Bool.and_eq_true_iff.1 hlands
  obtain ⟨hlast, hlanes⟩ := hpend q hq (of_decide_eq_true hgid)
  rw [hlast, Bool.false_and, Bool.or_false, Bool.and_eq_true_iff, List.any_eq_true] at hlands
  obtain ⟨hlanewise, lane, hlane, hex⟩ := hlands
  rcases hlanes with hnot | hnone
  · simp [hnot] at hlanewise
  · exact hnone lane hlane (by simpa using hex)

/-! ### The end of a group -/

/-- The parts of a state that what is said of a group's end speaks of: the groups, memory, and the launches' reductions. -/
def State.ends (s : State) : List Group × List Host.Cell × List (Nat × Reduce) :=
  (s.groups, s.mem, s.launches.map fun l => (l.id, l.red))

theorem State.onLaunch_ends (s : State) (id : Nat) {f : Launch → Launch} (hid : ∀ l, (f l).id = l.id)
    (hred : ∀ l, (f l).red = l.red) : (s.onLaunch id f).ends = s.ends := by
  simp only [State.ends, State.onLaunch, List.map_map]
  congr 3
  funext l
  by_cases hl : l.id = id <;> simp [hl, hid, hred]

theorem State.onCtx_ends (s : State) (n : Nat) (f : Ctx → Ctx) : (s.onCtx n f).ends = s.ends := rfl

theorem State.discardGuards_ends (s : State) (team : Nat) : (s.discardGuards team).ends = s.ends := by
  simp only [State.ends, State.discardGuards, List.map_map]
  congr 3
  funext l
  simp only [Function.comp_apply]
  split <;> rfl

theorem State.retireTeam_ends (s : State) (team : Nat) : (s.retireTeam team).ends = s.ends := by
  rw [State.retireTeam]
  split
  · rfl
  · dsimp only
    split
    · rfl
    · rw [State.discardGuards_ends]
      split <;> rfl

theorem State.dropClaims_ends (s : State) (gid : Nat) : (s.dropClaims gid).ends = s.ends := by
  rw [State.dropClaims]
  split <;> rfl

/-- A group without pending producers has received no estate that it has not claimed. -/
theorem State.countClaims_of_quiet {s : State} {g : Group} (h : ∀ q ∈ s.pend, q.gid ≠ g.id) : s.countClaims g = s := by
  have hnone : (s.pend.filter fun p => p.gid = g.id) = [] := List.filter_eq_nil_iff.2 fun q hq => by simpa using h q hq
  rw [State.countClaims]
  split
  · rfl
  · rw [hnone]
    rfl

/-- A group without pending producers ends: it is gone, and memory and the launches' reductions are as before. -/
theorem State.retireGroup_ends {s : State} {gid : Nat} {g : Group} (hg : s.group? gid = some g)
    (hquiet : ∀ q ∈ s.pend, q.gid ≠ gid) :
    (s.retireGroup gid).ends = (s.groups.filter (fun h => h.id ≠ gid), s.mem, s.launches.map fun l => (l.id, l.red)) := by
  have hdrop := State.dropClaims_ends s gid
  simp only [State.ends, Prod.mk.injEq] at hdrop
  obtain ⟨hgroups, hmem, hreds⟩ := hdrop
  rw [State.retireGroup, hg]
  simp only [State.countClaims_of_quiet (State.group?_id hg ▸ hquiet), State.retireTeam_ends]
  split
  · simp only [State.ends, hgroups, hmem, hreds]
  · rw [State.onCtx_ends, State.onLaunch_ends]
    · simp only [State.ends, hgroups, hmem, hreds]
    · exact fun _ => rfl
    · exact fun _ => rfl

/-- Launches with the same reductions are found with them. -/
theorem State.launch?_red {s t : State} (h : (t.launches.map fun l => (l.id, l.red)) = s.launches.map fun l => (l.id, l.red))
    (id : Nat) : (t.launch? id).map (·.red) = (s.launch? id).map (·.red) := by
  have hfind (s : State) : (s.launch? id).map (·.red) =
      ((s.launches.map fun l => (l.id, l.red)).find? fun x => x.1 = id).map (·.2) := by
    rw [State.launch?, List.find?_map, Option.map_map]
    rfl
  rw [hfind, hfind, h]

theorem State.setGroup_of_gone {s : State} {g : Group} (h : ∀ x ∈ s.groups, x.id ≠ g.id) : s.setGroup g = s := by
  have hmap : (s.groups.map fun x => if x.id = g.id then g else x) = s.groups :=
    (List.map_congr_left fun x hx => if_neg (h x hx)).trans (List.map_id' _)
  rw [State.setGroup, hmap]

/-- A group that is gone does not come back as its instruction completes. -/
theorem State.group?_commit_of_gone {s : State} {g : Group} (h : ∀ x ∈ s.groups, x.id ≠ g.id) (ctl : Ctl) :
    (s.commit g ctl false).group? g.id = none := by
  rw [State.commit_plain, State.setGroup_of_gone (by exact h)]
  refine List.find?_eq_none.2 fun x hx => ?_
  obtain ⟨y, hy, rfl⟩ := List.mem_map.1 hx
  rw [Group.woken_same (·.id) (fun _ _ => rfl), decide_eq_true_iff]
  exact h y hy

end Sys2Proof.Machine
end

section
/-! PROOFS. EXIT, and where a group goes of which lanes have left (spec/08 R173 to R175). -/

namespace Sys2Proof.Machine

open Sys2Proof.Claims (exited without)

section leave
variable {s s' : State} {i : Iss} {gd : Guard} {u : Bool} {ctl : Ctl} {xs : List (Nat × BitVec 8)} {region : Bool}

/-- The statuses of exits enter the reductions of a launch. -/
def Launch.exits (sts : List (BitVec 8)) (l : Launch) : Launch := { l with red := exited l.red sts }

/-- A group without the lanes that exit, in each of its masks (R174). -/
def Group.exits (g : Group) (ls : List Nat) : Group :=
  { g with ctl := without g.ctl ls, recorded := without g.recorded ls, saved := g.saved.map fun c => without c ls }

/-- The state that exits with these statuses leave, before the group goes on. -/
def Iss.left (i : Iss) (s : State) (sts : List (BitVec 8)) : State :=
  let s := s.onLaunch i.l.id (Launch.exits sts)
  if i.lastLanes then s.retireGroup i.g.id else s

/-- Outside a handler the group goes on with the lanes left, or is gone. -/
theorem Iss.leave_eq (hin : i.g.inHandler = false) : i.leave s' i.g xs region =
    { s := i.left s' (xs.map (·.2)), g := i.g.exits i.ex
      next := if (without i.g.ctl i.ex).mask = 0 then .jump i.after else .fall, region := region } := by
  simp only [Iss.leave, exit_foldl]
  split
  · next hhandler _ => simp [hin] at hhandler
  · rfl

/-- An instruction whose body ends in exits. -/
theorem issue_leave {body : Iss → Except Stop Done} (hfound : s.issueOf 8 gd u = some i) (hlanes : i.ex ≠ [])
    (hin : i.g.inHandler = false) (hbody : body i = .ok (i.leave s' i.g xs region))
    (hflow : (without i.g.ctl i.ex).advance (i.g.ctl.pc + 8)
      (if (without i.g.ctl i.ex).mask = 0 then .jump (i.g.ctl.pc + 8) else .fall) = some ctl) :
    issue s 8 gd u body = .next ((i.left s' (xs.map (·.2))).commit (i.g.exits i.ex) ctl region) := by
  obtain ⟨-, -, hsize, -⟩ := issueOf_some hfound
  have hafter : i.after = i.g.ctl.pc + 8 := by rw [Iss.after, hsize]; rfl
  rw [issue_eq hfound hlanes, hbody, Iss.leave_eq hin, hafter]
  exact Iss.finish_ok (by rw [hafter]; exact hflow)

end leave

end Sys2Proof.Machine

namespace Sys2Proof.Claims

open Sys2Proof.Machine

/-- An issuing group and its launch are found under their names. -/
theorem issuer_entries {s : State} {g : Group} {t : Team} {l : Launch} {c : Ctx} (h : s.issuer = some (g, t, l, c)) :
    s.group? g.id = some g ∧ s.launch? l.id = some l := by
  have hgroup := State.group?_of_issuer h
  refine ⟨State.group?_id hgroup ▸ hgroup, ?_⟩
  simp only [State.issuer, Option.bind_eq_bind, Option.bind_eq_some_iff, Option.some.injEq, Prod.mk.injEq] at h
  obtain ⟨_, -, t', -, l', hl, _, -, -, -, rfl, -⟩ := h
  exact (show l'.id = t'.lid by simpa using List.find?_some hl) ▸ hl

theorem exitRemovesLanes : ExitRemovesLanes := by
  intro w s i hfound hlanes hready hmay hqueue hin sts c ctl hflow
  obtain ⟨hissuer, hstate, -⟩ := issueOf_some hfound
  have hstep : exec (.exit w) s = .next ((i.left s sts).commit (i.g.exits i.ex) ctl false) := by
    rw [exec_exit, execExit, issue_leave (s' := s) (region := false) hfound hlanes hin _ hflow,
      exitStatuses_map w.a i.g i.ex]
    simp only [bind, Except.bind, hready, Iss.waitProducers_ok hmay, Group.gather_register hqueue, hstate]
  refine ⟨fun hlast => ?_, fun hlast => ⟨_, hstep, ?_⟩⟩
  · rw [hstep, Iss.left, if_neg (by simp [hlast])]
    rfl
  · obtain ⟨hgroup, hlaunch⟩ := issuer_entries hissuer
    obtain ⟨hpend, -⟩ := hmay
    have hquiet : ∀ q ∈ s.pend, q.gid ≠ i.g.id := fun q hq hgid => by
      obtain ⟨hnot, -⟩ := hpend q (hstate.symm ▸ hq) hgid
      exact Bool.false_ne_true (hnot.symm.trans hlast)
    have hleft : i.left s sts = (s.onLaunch i.l.id (Launch.exits sts)).retireGroup i.g.id := by rw [Iss.left, if_pos hlast]
    have hends := State.retireGroup_ends (s := s.onLaunch i.l.id (Launch.exits sts)) hgroup hquiet
    rw [← hleft] at hends
    simp only [State.ends, Prod.mk.injEq] at hends
    obtain ⟨hgroups, hmem, hreds⟩ := hends
    refine ⟨State.group?_commit_of_gone (g := i.g.exits i.ex) (fun x hx => ?_) ctl, hmem, ?_⟩
    · rw [hgroups] at hx
      exact of_decide_eq_true (List.mem_filter.1 hx).2
    · have hred := State.launch?_red hreds i.l.id
      rw [State.launch?_onLaunch (Launch.exits sts) (fun _ => rfl) hlaunch] at hred
      exact hred

end Sys2Proof.Claims
end

section
/-! PROOFS. EXIT.E of one lane (spec/10 R202, R203, R206 to R208). -/

namespace Sys2Proof.Machine

/-! ### The estate -/

/-- What EXIT.E records of a lane: its registers from `b`, the primal words and then each tangent that the launch has (R205). -/
def Iss.estateOf (i : Iss) (w : FmtA) (lane : Nat) : EstateRec :=
  let ds := (w.b.o.range (w.fn.toNat + 1)).map (i.g.datum lane)
  { chain := i.l.chain, ident := i.identity w.c.o lane, makerSeq := i.l.seq, die := i.t.die, core := i.t.core, ttl := i.l.ttl
    prim := ds.map (·.val), tans := (List.range i.l.dualN).map fun k => ds.map (·.tan k) }

/-- The estate of that record at the core of its team, under the next unused name, with the group's release at device scope. -/
def Iss.made (i : Iss) (s : State) (r : EstateRec) : Estate :=
  ⟨i.t.ctx, s.nextId, i.l.id, r, .core i.t.die i.t.core, [i.side 4]⟩

/-- A launch that has made one more estate. -/
def Launch.makes (l : Launch) : Launch := { l with red := { l.red with made := l.red.made + 1 } }

/-- A core store with room keeps what it holds. -/
theorem roomInCore_of_fits {die core need : Nat} {es : List Estate}
    (h : bytesOf (es.filter fun e => e.level == .core die core) + need ≤ coreStoreBytes) (area : Nat → Nat) (fuel : Nat) :
    roomInCore die core need area (fuel + 1) es = some es := by
  rw [roomInCore, if_pos h]

section store
variable (s : State) (e : Estate)

theorem State.mem_storeEstate : e ∈ (s.storeEstate e).estates := by simp [State.storeEstate]

/-- Of the key of an estate that is stored, no other is left (R207). -/
theorem State.hasKey_of_storeEstate {f : Estate} (hf : f ∈ (s.storeEstate e).estates) (hne : f ≠ e) :
    f.hasKey e.ctx e.body.chain e.body.ident = false := by
  rw [State.storeEstate, List.mem_append, List.mem_singleton, or_iff_left hne] at hf
  obtain ⟨x, -, rfl⟩ := List.mem_map.1 hf
  split
  · rfl
  · next hkey => exact Bool.eq_false_iff.2 hkey

end store

theorem Group.openRegion_same {β : Type} (π : Group → β)
    (h : ∀ (g : Group) pc cnt recorded q, π { g with regionPc := pc, regionCnt := cnt, recorded := recorded, q := q } = π g)
    (g : Group) : π g.openRegion = π g := by
  rw [Group.openRegion]
  split
  · rfl
  · exact h ..

/-- As its instruction completes and opens a region, a group goes on under its new control state. -/
theorem State.group?_commit_region {s : State} {g h : Group} (hs : s.group? g.id = some h) (ctl : Ctl) :
    ∃ g', (s.commit g ctl true).group? g.id = some g' ∧ g'.ctl = ctl := by
  have hid : (g.goesOn ctl s.tick).openRegion.id = g.id := Group.openRegion_same (·.id) (fun _ _ _ _ _ => rfl) _
  have hctl : (g.goesOn ctl s.tick).openRegion.ctl = ctl := Group.openRegion_same (·.ctl) (fun _ _ _ _ _ => rfl) _
  have hset := State.group?_setGroup (g := (g.goesOn ctl s.tick).openRegion) (hid.symm ▸ hs)
  rw [hid] at hset
  rw [State.commit_region]
  exact ⟨_, State.group?_wake hset, (Group.woken_same (·.ctl) (fun _ _ => rfl) _).trans hctl⟩

/-- A group whose acquires have been performed releases without waiting (R208). -/
theorem Iss.release_ok {i : Iss} (h : i.held = false) (sc : Nat) : i.release sc = .ok (i.side sc) := by
  simp only [Iss.release, Iss.gate, h, bind, Except.bind, Bool.false_eq_true, if_false]

end Sys2Proof.Machine

namespace Sys2Proof.Claims

open Sys2Proof.Machine

section exitE
variable {w : FmtA} {s : State} {i : Iss} {ctl : Ctl} {lane : Nat}

/-- R206: EXIT.E without a chain is PROT, whatever comes after it. -/
theorem exitE_without_chain (hfound : s.issueOf 8 w.g w.u = some i) (hlanes : i.ex ≠ []) (hchain : i.l.chain = 0) :
    Traps (.exitE w) s i 0x12 := by
  obtain ⟨-, hstate, -⟩ := issueOf_some hfound
  have hrank : outranked 0x12 = false := by decide
  rw [Traps, exec_exitE, execExitE, issue_eq hfound hlanes]
  simp only [bind, Except.bind, Iss.check_of_false i _ _ (show decide (i.l.chain ≠ 0) = false by simp [hchain])]
  rw [Iss.finish_cause (.inl hrank), hstate, issueOf_kept hfound]

/-- EXIT.E of one lane whose core store has room. -/
theorem exec_exitE_of_fits (hfound : s.issueOf 8 w.g w.u = some i) (hex : i.ex = [lane]) (hchain : i.l.chain ≠ 0)
    (hready : i.ready (w.a.field :: (baseFields w.c.o ++ (w.b.o.range (w.fn.toNat + 1)).map fun o => ⟨o, false⟩)) [] = .ok ())
    (hmay : MayLeave i) (hheld : i.held = false) (hqueue : w.a.o.isQueue = false) (hin : i.g.inHandler = false)
    (hfits : bytesOf (s.estates.filter fun e => e.level == .core i.t.die i.t.core) + (i.estateOf w lane).size ≤ coreStoreBytes)
    (hflow : (without i.g.ctl i.ex).advance (i.g.ctl.pc + 8)
      (if (without i.g.ctl i.ex).mask = 0 then .jump (i.g.ctl.pc + 8) else .fall) = some ctl) :
    exec (.exitE w) s = .next ((i.left ((State.storeEstate { s with nextId := s.nextId + 1 }
      (i.made s (i.estateOf w lane))).onLaunch i.l.id Launch.makes)
      (i.ex.map fun lane => (modify w.a.sel (i.g.datum lane w.a.o).val).setWidth 8)).commit (i.g.exits i.ex) ctl true) := by
  obtain ⟨-, hstate, -⟩ := issueOf_some hfound
  rw [exec_exitE, execExitE, ← exitStatuses_map w.a i.g i.ex]
  refine issue_leave hfound (by simp [hex]) hin ?_ hflow
  simp only [bind, Except.bind, Iss.check_of_true i _ _ (show decide (i.l.chain ≠ 0) = true by simp [hchain]), hready,
    Iss.waitProducers_ok hmay, Iss.release_ok hheld, Group.gather_register hqueue, hstate, hex, List.map_cons, List.map_nil,
    List.foldl_cons, List.foldl_nil]
  rw [roomInCore_of_fits (by rw [Nat.zero_add]; exact hfits)]
  rfl

end exitE

theorem exitLeavesEstate : ExitLeavesEstate := by
  intro w s i ctl lane hfound
  refine ⟨fun hlanes hchain => exitE_without_chain hfound hlanes hchain, ?_⟩
  intro hex hchain n hready hmay hheld hqueue hin hlast ds r hfits c hflow
  have hstep := exec_exitE_of_fits hfound hex hchain hready hmay hheld hqueue hin hfits hflow
  rw [Iss.left, if_neg (by simp [hlast])] at hstep
  obtain ⟨hissuer, -⟩ := issueOf_some hfound
  obtain ⟨hgroup, -⟩ := issuer_entries hissuer
  refine ⟨_, i.made s r, hstep, State.mem_storeEstate .., rfl, rfl, rfl, rfl, fun f hf hne => ?_, rfl, rfl, ?_⟩
  · exact State.hasKey_of_storeEstate _ (i.made s r) hf hne
  · obtain ⟨g, hg, hctl⟩ := State.group?_commit_region (g := i.g.exits i.ex) (by exact hgroup) ctl
    exact ⟨g, hg, hctl ▸ not_mem_alive_of_without hflow (by simp [hex])⟩

/-- Settles O49: exits are removed from every mask and counted one by one, the end of a group keeps memory and the reductions, and
EXIT.E stores its estate, the only one of its key, before the same exit. -/
theorem lanesExit : Obligations.LanesExit := ⟨exitRemovesLanes, exitLeavesEstate⟩

end Sys2Proof.Claims
end

section
/-! PROOFS. BARW and BART (spec/09 R195 to R197). -/

namespace Sys2Proof.Machine

/-- What performing accesses leaves alone of the step count. -/
theorem State.observe_tick {s u : State} {gid : Nat} {rs : List Rel} (h : s.observe gid rs = some u) : u.tick = s.tick :=
  (congrArg State.tick (State.observe_besidesPerforming h) :)

section kept
variable (i : Iss) (u : State)

/-- A part of the issuing group that does not hold what its reads have met. -/
theorem Iss.kept_same {β : Type} (π : Group → β) (h : ∀ (g : Group) seen notes, π { g with seen := seen, notes := notes } = π g) :
    π (i.kept u) = π i.g := by
  rw [Iss.kept]
  split
  · rfl
  · exact h ..

@[simp] theorem Iss.kept_ctl : (i.kept u).ctl = i.g.ctl := i.kept_same u (·.ctl) fun _ _ _ => rfl

theorem Iss.kept_executing (gd : Guard) (b : Bool) : (i.kept u).executing gd b = i.g.executing gd b :=
  i.kept_same u (·.executing gd b) fun _ _ _ => rfl

end kept

end Sys2Proof.Machine

namespace Sys2Proof.Claims

open Sys2Proof.Machine

section barw
variable {w : FmtB} {s : State} {i : Iss} {ctl : Ctl} {t : Team} {n : Nat}

/-- The phase that a BARW awaits. -/
def awaited (w : FmtB) (i : Iss) : Bool := xor (w.imm.getLsbD 16) ((i.g.datum 0 w.d).val.getLsbD 0)

/-- How a BARW goes through its barrier: with an acquire of what the arrivals carry, once that can be performed. -/
def passage (w : FmtB) (i : Iss) (t : Team) (n : Nat) : Except Stop Done :=
  match i.observe (t.bar n).rels with
  | .error _ => .error (.stall i.s (.barGo t.id n (awaited w i)))
  | .ok i => .ok { s := i.s, g := i.g }

/-- BARW by what it names. -/
theorem exec_barw_named (h : Issues s 8 w.g w.u .fall i ctl) (hnames : Names i w.a w.fa w.imm [w.d] t n) :
    exec (.barw w) s = i.finish (if i.g.wait = .barGo t.id n (awaited w i) then passage w i t n
      else do
        i.check (!(t.bar n).brk) 0x2A
        if (t.bar n).ph = awaited w i then passage w i t n else .error (.stall i.s (.bar t.id n (awaited w i)))) := by
  rw [exec_barw, execBarw, issue_eq h.found h.lanes]
  simp only [hnames.barrier, bind, Except.bind]
  rfl

/-- The passage acquires and goes on, or stays released. -/
theorem finish_passage (h : Issues s 8 w.g w.u .fall i ctl) :
    (∀ u, s.observe i.g.id (t.bar n).rels = some u →
      i.finish (passage w i t n) = .next (u.setGroup ((i.kept u).goesOn ctl s.tick)).wake) ∧
    (s.observe i.g.id (t.bar n).rels = none →
      i.finish (passage w i t n) = .next (s.setGroup { i.g with wait := .barGo t.id n (awaited w i) })) := by
  refine ⟨fun u hu => ?_, fun hnone => ?_⟩
  · have hflow : (i.kept u).ctl.advance i.after .fall = some ctl := by rw [Iss.kept_ctl]; exact h.flow
    simp only [passage, Iss.observe, h.state, hu, Iss.goOn]
    rw [Iss.finish_ok hflow, State.commit_plain, State.observe_tick hu]
  · simp only [passage, Iss.observe, h.state, hnone, Iss.wait]
    rw [Iss.finish_stall, issueOf_kept h.found]

/-- R195, R196: BARW. -/
theorem barrierWaits_barw (h : Issues s 8 w.g w.u .fall i ctl) (hnames : Names i w.a w.fa w.imm [w.d] t n) :
    let passes : Prop := exec (.barw w) s = i.finish (passage w i t n)
    (i.g.wait = .barGo t.id n (awaited w i) → passes) ∧
    (i.g.wait ≠ .barGo t.id n (awaited w i) → (t.bar n).brk = true → Traps (.barw w) s i 0x2A) ∧
    ((t.bar n).brk = false → (t.bar n).ph = awaited w i → passes) ∧
    (i.g.wait ≠ .barGo t.id n (awaited w i) → (t.bar n).brk = false → (t.bar n).ph ≠ awaited w i →
      exec (.barw w) s = .next (s.setGroup { i.g with wait := .bar t.id n (awaited w i) })) := by
  have heq := exec_barw_named h hnames
  refine ⟨fun hgo => ?_, fun hgo hbrk => ?_, fun hbrk hph => ?_, fun hgo hbrk hph => ?_⟩
  · rw [heq, if_pos hgo]
  · rw [Traps, heq, if_neg hgo, Iss.check_of_false _ _ _ (by simp [hbrk])]
    exact (Iss.finish_cause (.inr (.inr (by simp [h.flow])))).trans (by rw [h.state, issueOf_kept h.found])
  · rw [heq, Iss.check_of_true _ _ _ (by simp [hbrk])]
    by_cases hgo : i.g.wait = .barGo t.id n (awaited w i)
    · rw [if_pos hgo]
    · rw [if_neg hgo]
      simp only [bind, Except.bind, if_pos hph]
  · rw [heq, if_neg hgo, Iss.check_of_true _ _ _ (by simp [hbrk])]
    simp only [bind, Except.bind, if_neg hph]
    rw [Iss.finish_stall, h.state, issueOf_kept h.found]

end barw

section bart
variable {w : FmtBP} {s : State} {i : Iss} {ctl : Ctl} {t : Team} {n : Nat}

/-- BART by what it names. -/
theorem exec_bart_named (h : Issues s 8 w.g w.u .fall i ctl) (hnames : Names i w.a w.fa w.imm [] t n) :
    exec (.bart w) s = i.finish (do
      i.check (!(t.bar n).brk) 0x2A
      let j ← if (t.bar n).ph == w.imm.getLsbD 16 then i.observe (t.bar n).rels else .ok i
      .ok { s := j.s, g := j.ex.foldl (fun g lane => g.setPreds w.pd.pn (j.reach lane) ((t.bar n).ph == w.imm.getLsbD 16)) j.g }) := by
  rw [exec_bart, execBart, issue_eq h.found h.lanes]
  simp only [hnames.barrier, bind, Except.bind]

/-- A group that writes a predicate in its executing lanes, as it stands after its reads, goes on. -/
theorem finish_setPreds (j : Iss) (hflow : j.g.ctl.advance i.after .fall = some ctl) (pn : BitVec 3) (yes : Bool) :
    i.finish (.ok { s := j.s, g := j.ex.foldl (fun g lane => g.setPreds pn (j.reach lane) yes) j.g }) =
      .next (j.s.setGroup ((j.ex.foldl (fun g lane => g.setPreds pn (j.reach lane) yes) j.g).goesOn ctl j.s.tick)).wake := by
  have hctl := j.foldl_setPreds_same (·.ctl) (fun _ _ => rfl) pn (fun _ => yes) j.ex j.g
  rw [Iss.finish_ok (ctl := ctl) (by simpa only [hctl] using hflow), State.commit_plain]

theorem barrierWaits_bart (h : Issues s 8 w.g w.u .fall i ctl) (hnames : Names i w.a w.fa w.imm [] t n) :
    ((t.bar n).brk = true → Traps (.bart w) s i 0x2A) ∧
    ((t.bar n).brk = false → (t.bar n).ph ≠ w.imm.getLsbD 16 →
      Completes (.bart w) s i ctl [] [] fun _ => { preds := [(w.pd.pn, false)] }) ∧
    (∀ u, (t.bar n).brk = false → (t.bar n).ph = w.imm.getLsbD 16 → s.observe i.g.id (t.bar n).rels = some u →
      ∃ g, exec (.bart w) s = .next (u.setGroup g).wake ∧
        Iss.Leaves { i with g := i.kept u } ctl [] [] (fun _ => { preds := [(w.pd.pn, true)] }) g) := by
  have heq := exec_bart_named h hnames
  refine ⟨fun hbrk => ?_, fun hbrk hph => ?_, fun u hbrk hph hu => ?_⟩
  · rw [Traps, heq, Iss.check_of_false _ _ _ (by simp [hbrk])]
    exact (Iss.finish_cause (.inr (.inr (by simp [h.flow])))).trans (by rw [h.state, issueOf_kept h.found])
  · refine ⟨_, ?_, Iss.leaves_setPreds h.ex h.uni ctl w.pd.pn fun _ => false⟩
    rw [heq, Iss.check_of_true _ _ _ (by simp [hbrk])]
    simp only [bind, Except.bind, beq_false_of_ne hph, Bool.false_eq_true, if_false]
    rw [finish_setPreds i h.flow, h.state]
  · have hex : i.ex = (i.kept u).executing w.g w.u := (Iss.kept_executing ..).symm ▸ h.ex
    refine ⟨_, ?_, Iss.leaves_setPreds (i := { i with g := i.kept u }) hex h.uni ctl w.pd.pn fun _ => true⟩
    rw [heq, Iss.check_of_true _ _ _ (by simp [hbrk])]
    simp only [bind, Except.bind, hph, beq_self_eq_true, if_true, Iss.observe, h.state, hu]
    rw [finish_setPreds (i.goOn u) ((congrArg (·.advance i.after .fall) (i.kept_ctl u)).trans h.flow), ← State.observe_tick hu]
    rfl

end bart

/-- Settles O6: a named barrier is found and checked; through a completed phase the group acquires what the arrivals carry, or stays
released while that cannot be performed. -/
theorem barrierWaits : Obligations.BarrierWaits := by
  refine ⟨fun w s i ctl t n h hnames => ?_, fun w s i ctl t n h hnames => barrierWaits_bart h hnames⟩
  obtain ⟨hgo, hbroken, hpast, hwait⟩ := barrierWaits_barw h hnames
  have hpasses {r : Res} (hr : r = i.finish (passage w i t n)) := hr ▸ finish_passage (t := t) (n := n) h
  exact ⟨fun hb => by rw [State.observe_of_not_bears _ hb]; rfl, fun hw => hpasses (hgo hw), hbroken,
    fun hb hph => hpasses (hpast hb hph), hwait⟩

end Sys2Proof.Claims
end

section
/-! PROOFS. What posting entries leaves alone (spec/17 R318, spec/20 R365), and when an entry is posted at once. -/

namespace Sys2Proof.Machine

/-! ### What posting leaves alone -/

/-- The state without what the posting of entries can change: memory and the writes on their way, which tile regions and dirty
pages go with, contexts, the orphan log, interrupts, and the fates of launches (R354). -/
def State.besidesPosting (s : State) : State :=
  { s with
    mem := [], inflight := [], teams := s.bareTeams, ctxs := [], launches := s.launches.map fun l => { l with fate := none }
    pkg := {}, irqs := [] }

@[simp] theorem State.interrupt_besidesPosting (s : State) (v : Nat) : (s.interrupt v).besidesPosting = s.besidesPosting := rfl

@[simp] theorem State.interrupt_pkg (s : State) (v : Nat) : (s.interrupt v).pkg = s.pkg := rfl

theorem State.pkg_besidesPosting (s : State) (p : Pkg) : ({ s with pkg := p } : State).besidesPosting = s.besidesPosting := rfl

@[simp] theorem State.onCtx_besidesPosting (s : State) (n : Nat) (f : Ctx → Ctx) :
    (s.onCtx n f).besidesPosting = s.besidesPosting := rfl

@[simp] theorem State.writeRaw_bareTeams (s : State) (pa : Nat) (bs : List Byte) : (s.writeRaw pa bs).bareTeams = s.bareTeams :=
  foldl_keeps State.bareTeams (fun t id => by split_ifs <;> simp) _ s

@[simp] theorem State.writeRaw_besidesPosting (s : State) (pa : Nat) (bs : List Byte) :
    (s.writeRaw pa bs).besidesPosting = s.besidesPosting := by
  have hpost (t : State) : t.besidesPosting = { t.besidesWrites with
      teams := t.bareTeams, launches := t.besidesWrites.launches.map fun l => { l with fate := none }, pkg := {}, irqs := [] } := rfl
  rw [hpost, hpost s, State.writeRaw_besidesWrites, State.writeRaw_bareTeams]

@[simp] theorem drainOrphans_besidesPosting (os : List Orphan) : ∀ s : State,
    (drainOrphans os s).besidesPosting = s.besidesPosting := by
  induction os with
  | nil => exact fun _ => rfl
  | cons o os ih =>
    intro s
    unfold drainOrphans
    split
    · rw [ih, foldl_keeps State.besidesPosting State.interrupt_besidesPosting, State.pkg_besidesPosting]
    · exact State.pkg_besidesPosting ..

@[simp] theorem State.orphan_besidesPosting (s : State) (o : Orphan) : (s.orphan o).besidesPosting = s.besidesPosting :=
  drainOrphans_besidesPosting _ s

@[simp] theorem State.writeEntry_besidesPosting (s : State) (c : Ctx) (p : Posting) :
    (s.writeEntry c p).1.besidesPosting = s.besidesPosting := by
  unfold State.writeEntry
  dsimp only
  split
  · exact State.orphan_besidesPosting ..
  · rw [State.interrupt_besidesPosting, State.writeRaw_besidesPosting, State.writeRaw_besidesPosting]

@[simp] theorem State.lostEntry_besidesPosting (s : State) (n : Nat) (p : Posting) :
    (s.lostEntry n p).besidesPosting = s.besidesPosting := by
  have hfate : (s.lostEntry n p).launches.map (fun l => { l with fate := none }) =
      s.launches.map fun l => { l with fate := none } := by
    simp only [State.lostEntry, List.map_map]
    exact List.map_congr_left fun l _ => by simp only [Function.comp_apply]; split <;> rfl
  unfold State.besidesPosting
  rw [hfate]
  rfl

@[simp] theorem drainFaults_besidesPosting (ps : List Posting) : ∀ x : State × Ctx,
    (drainFaults ps x).1.besidesPosting = x.1.besidesPosting := by
  induction ps with
  | nil => exact fun _ => rfl
  | cons p ps ih =>
    intro x
    unfold drainFaults
    split
    · exact (ih _).trans (State.lostEntry_besidesPosting ..)
    · split
      · exact (ih _).trans (State.writeEntry_besidesPosting ..)
      · rfl

@[simp] theorem State.postAll_besidesPosting (s : State) (n : Nat) (ps : List Posting) :
    (s.postAll n ps).besidesPosting = s.besidesPosting := by
  unfold State.postAll
  split
  · rfl
  · exact drainFaults_besidesPosting _ _

@[simp] theorem State.postAll_groups (s : State) (n : Nat) (ps : List Posting) : (s.postAll n ps).groups = s.groups :=
  (congrArg State.groups (s.postAll_besidesPosting n ps) :)

/-! ### Whether entries are posted -/

theorem look?_map_key {α : Type} (n : Nat) (f : α → α) (m : List (Nat × α)) :
    look? (m.map fun e => if e.1 = n then (e.1, f e.2) else e) n = (look? m n).map f := by
  induction m with
  | nil => rfl
  | cons e m ih =>
    by_cases hk : e.1 = n
    · simp [look?, hk]
    · simpa [look?, hk] using ih

/-- The context that an update finds under its key. -/
theorem State.ctx?_onCtx (s : State) (n : Nat) (f : Ctx → Ctx) : (s.onCtx n f).ctx? n = (s.ctx? n).map f :=
  look?_map_key n f s.ctxs

/-- What neither moves the orphan log's waiting entries nor the context's has nothing to wait for. -/
theorem State.postedBy_of_eq {s t : State} {n : Nat} (horphans : t.pkg.orphanQ = s.pkg.orphanQ)
    (hwaiting : (t.ctx? n).map (·.faultQ) = (s.ctx? n).map (·.faultQ)) : s.postedBy n t = true := by
  simp [State.postedBy, horphans, hwaiting]

section one
variable {s : State} {n : Nat} {x : Ctx} (hx : s.ctx? n = some x) (hring : x.desc.ringOk = true) (hq : x.faultQ = []) (p : Posting)
include hx hring hq

/-- One entry, none waiting ahead of it: it is written where there is room, and else waits. -/
theorem State.postAll_one : s.postAll n [p] =
    if s.entryRoom x then (s.writeEntry x p).1.onCtx n fun c => { c with
      produced := (s.writeEntry x p).2.produced, awaits := (s.writeEntry x p).2.awaits, faultQ := [] }
    else s.onCtx n fun c => { c with produced := x.produced, awaits := x.awaits, faultQ := [p] } := by
  simp only [State.postAll, hx, hq, List.nil_append, drainFaults, hring, Bool.not_true, Bool.false_eq_true, if_false]
  generalize s.writeEntry x p = w
  cases s.entryRoom x <;> simp only [Bool.false_eq_true, if_false, if_true]

/-- On a ring that is on no fenced channel it is posted exactly where there is room. -/
theorem State.postedBy_postAll_one (hopen : s.ringFenced x = false) (horphans : s.pkg.orphanQ = []) :
    s.postedBy n (s.postAll n [p]) = s.entryRoom x := by
  have hentry : (s.writeEntry x p).1.pkg = s.pkg := by
    simp only [State.writeEntry, hopen, Bool.false_eq_true, if_false]
    rw [State.interrupt_pkg, State.writeRaw_pkg, State.writeRaw_pkg]
  rw [State.postAll_one hx hring hq]
  cases hroom : s.entryRoom x with
  | true =>
    simp only [if_true, State.postedBy, State.ctx?_onCtx, State.onCtx_pkg, hentry, horphans, Option.map_map]
    cases (s.writeEntry x p).1.ctx? n <;> rfl
  | false => simp [State.postedBy, State.ctx?_onCtx, horphans, hx, hq]

end one

end Sys2Proof.Machine
end

section
/-! PROOFS. Steps of groups: asynchronous faults, fills, walks and releases (spec/09 R192, R197; spec/17 R312, R316, R318, R327). -/

namespace Sys2Proof.Machine

/-! ### Settling the faults of a descheduled group -/

section settle
variable {s : State} {g : Group}

/-- A group with a pending producer goes on waiting for it (R316, rule 3). -/
theorem State.settleFault_of_pending {gid : Nat} (h : ∃ p ∈ s.pend, p.gid = gid) : s.settleFault gid = s := by
  have hany : s.pend.any (fun p => decide (p.gid = gid)) = true := by simpa using h
  unfold State.settleFault
  split
  · rfl
  · rw [if_pos hany]

/-- A group whose entry is posted awaits a response (R316, R320). -/
def Group.await (g : Group) (c : CauseRec) : Group :=
  { g with status := .awaiting, async := [], cause := 0x100 ||| c.code.setWidth 32, causePc := c.pc, wait := .none }

variable (hg : s.group? g.id = some g) (hpend : ∀ p ∈ s.pend, p.gid ≠ g.id) (hstatus : g.status = .draining) {c : CauseRec}
  (hcause : g.async = [c]) (hregion : c.region = g.regionCnt) {u : Team} (hu : s.team? g.team = some u) {l : Launch}
  (hl : s.launch? u.lid = some l) {x : Ctx} (hx : s.ctx? u.ctx = some x) (hring : x.desc.ringOk = true)
include hg hpend hstatus hcause hregion hu hl hx hring

/-- One replayable cause of a group without pending producers is posted, or waits for room (R318). -/
theorem State.settleFault_one : s.settleFault g.id =
    let s' := (s.setGroup (g.await c)).postAll u.ctx [groupPosting g u l true c]
    if s.postedBy u.ctx s' then s' else s := by
  have hany : s.pend.any (fun p => decide (p.gid = g.id)) = false := by simpa using hpend
  have hhome : s.home? g = some (u, l) := by simp [State.home?, hu, hl]
  have hring' : s.ringOf u.ctx = true := by simp [State.ringOf, hx, hring]
  have hrepl : ((g.async.all fun c => c.fetch || c.region == g.regionCnt) && s.ringOf u.ctx) = true := by
    simp [hcause, hregion, hring']
  have hposts : State.postCauses (s.setGroup (g.await c)) g true =
      (s.setGroup (g.await c)).postAll u.ctx [groupPosting g u l true c] := by
    simp only [State.postCauses, show (s.setGroup (g.await c)).home? g = some (u, l) from hhome, hcause, List.map_cons, List.map_nil]
  have htop : topCause g.async = some c := by rw [hcause]; rfl
  simp only [State.settleFault, hg, hany, Bool.false_eq_true, if_false, hstatus, hhome, htop, hrepl]
  rw [show ({ g with status := .awaiting, async := [], cause := 0x100 ||| c.code.setWidth 32, causePc := c.pc, wait := .none } :
    Group) = g.await c from rfl, hposts]
  cases s.postedBy u.ctx ((s.setGroup (g.await c)).postAll u.ctx [groupPosting g u l true c]) <;> rfl

/-- It is posted where the fault record has room for its entry and none waits ahead of it. -/
theorem State.group?_settleFault_one (hq : x.faultQ = []) (hopen : s.ringFenced x = false) (horphans : s.pkg.orphanQ = []) :
    (s.settleFault g.id).group? g.id = some (if s.entryRoom x then g.await c else g) := by
  rw [State.settleFault_one hg hpend hstatus hcause hregion hu hl hx hring]
  have hposted : s.postedBy u.ctx ((s.setGroup (g.await c)).postAll u.ctx [groupPosting g u l true c]) = s.entryRoom x :=
    State.postedBy_postAll_one (s := s.setGroup (g.await c)) hx hring hq _ hopen horphans
  simp only [hposted]
  cases s.entryRoom x with
  | true =>
    show ((s.setGroup (g.await c)).postAll u.ctx [groupPosting g u l true c]).groups.find? _ = _
    rw [State.postAll_groups]
    exact State.group?_setGroup (g := g.await c) hg
  | false => exact hg

end settle

/-! ### Asynchronous faults -/

/-- The state in which a group has been descheduled for its causes. -/
def State.descheduled (s : State) (g : Group) : State := (s.setGroup g.deschedule).dropClaims g.id

theorem Group.deschedule_eq (g : Group) : g.deschedule =
    { (if g.debugStop then g else g.releaseLdq) with status := .draining, wait := .none, walked := [] } := rfl

theorem Group.deschedule_same {β : Type} (π : Group → β)
    (h : ∀ (g : Group) q st w pages, π { g with q := q, status := st, wait := w, walked := pages } = π g) (g : Group) :
    π g.deschedule = π g := by
  rw [Group.deschedule_eq]
  split
  · exact h g g.q _ _ _
  · exact h g g.releaseLdq.q _ _ _

theorem exec_asyncFault_running {s : State} {g : Group} (hg : s.group? g.id = some g) (hruns : g.status = .running)
    (hcauses : g.async ≠ []) : exec (.asyncFault g.id) s = .next ((s.descheduled g).settleFault g.id).wake := by
  have hsome : (!g.async.isEmpty) = true := by simpa using hcauses
  show execAsyncFault g.id s = _
  simp only [execAsyncFault, hg, hruns, hsome, true_and, if_true]
  rfl

theorem State.group?_descheduled {s : State} {g : Group} (hg : s.group? g.id = some g) :
    (s.descheduled g).group? g.id = some g.deschedule := by
  have hid : g.deschedule.id = g.id := g.deschedule_same (·.id) fun _ _ _ _ _ => rfl
  show (State.dropClaims _ _).groups.find? _ = _
  rw [State.dropClaims_groups]
  exact hid ▸ State.group?_setGroup (g := g.deschedule) (hid.symm ▸ hg)

/-- Descheduling leaves all but groups and claims. -/
theorem State.descheduled_rest (s : State) (g : Group) :
    { s.descheduled g with groups := [], cores := [] } = { s with groups := [], cores := [] } :=
  (congrArg (fun t : State => { t with groups := [] }) (State.dropClaims_rest (s.setGroup g.deschedule) g.id) :)

/-- A group that is not blocked is found as it was. -/
theorem State.group?_wake_of_unblocked {s : State} {id : Nat} {g : Group} (hg : s.group? id = some g) (hw : g.wait ≠ .blocked) :
    s.wake.group? id = some g := by rw [State.group?_wake hg, if_neg hw]

/-! ### Fills, walks and releases -/

/-- The group of a name after a change of every group that keeps names. -/
theorem find?_map_group {f : Group → Group} (hf : ∀ g, (f g).id = g.id) (gs : List Group) (id : Nat) :
    (gs.map f).find? (fun g => decide (g.id = id)) = (gs.find? fun g => decide (g.id = id)).map f := by
  rw [List.find?_map]
  exact congrArg _ (congrArg (List.find? · gs) (funext fun g => by simp only [Function.comp_apply, hf]))

/-- A translation that enters a TLB is there. -/
theorem State.mem_tlbFill (s : State) (e : TlbEnt) : e ∈ (s.tlbFill e).tlb := by
  unfold State.tlbFill
  extract_lets
  split_ifs <;> simp

theorem State.tlbFill_eq (s : State) (e : TlbEnt) : s.tlbFill e = { s with tlb := (s.tlbFill e).tlb, free := (s.tlbFill e).free } := by
  unfold State.tlbFill
  extract_lets
  split_ifs <;> rfl

/-- The walk that ends is gone from the queue, and its waiters of walks go on as `f` says. -/
def State.walkEnds (s : State) (w : Walk) (f : Group → Group) : State :=
  { s with
    walks := s.walks.filter fun v => !decide (v.die = w.die ∧ v.ctx = w.ctx ∧ v.page = w.page), free := s.free + 1
    groups := s.groups.map fun g => if w.waiters.contains g.id ∧ g.wait = .walk then f g else g }

section walks
variable {s : State} {die : Nat} {w : Walk} {c : Ctx}
  (hpick : pickOne s.free die ((s.walks.filter fun v => decide (v.die = die)).take 16) = some w) (hdie : w.die = die)
  (hc : s.ctx? w.ctx = some c)
include hpick hdie hc

theorem exec_translationWalk_ok {l : Leaf} (hwalk : s.walk (.socket die) c.desc .read (w.page * 65536) = .ok l) :
    ∃ tlb free, { die := die, ctx := w.ctx, page := w.page, pa := l.pa, pte := l.pte, w := l.w, x := l.x, usr := l.usr } ∈ tlb ∧
      exec (.translationWalk die) s =
        .next ({ s.walkEnds w (fun g => { g with wait := .none }) with tlb := tlb, free := free } : State).wake := by
  let e : TlbEnt := { die := die, ctx := w.ctx, page := w.page, pa := l.pa, pte := l.pte, w := l.w, x := l.x, usr := l.usr }
  let s1 : State := { s with walks := s.walks.filter fun v => !decide (v.die = die ∧ v.ctx = w.ctx ∧ v.page = w.page), free := s.free + 1 }
  refine ⟨(s1.tlbFill e).tlb, (s1.tlbFill e).free, s1.mem_tlbFill e, ?_⟩
  show execTranslationWalk die s = _
  have hwalk1 : s1.walk (.socket die) c.desc .read (w.page * 65536) = .ok l := hwalk
  simp only [execTranslationWalk, hpick, hc]
  rw [hwalk1]
  simp only [State.did]
  rw [s1.tlbFill_eq e]
  subst hdie
  rfl

theorem exec_translationWalk_error {e : BitVec 8} (hwalk : s.walk (.socket die) c.desc .read (w.page * 65536) = .error e) :
    exec (.translationWalk die) s =
      .next (s.walkEnds w fun g => { g with wait := .none, walked := g.walked ++ [w.page] }).wake := by
  let s1 : State := { s with walks := s.walks.filter fun v => !decide (v.die = die ∧ v.ctx = w.ctx ∧ v.page = w.page), free := s.free + 1 }
  show execTranslationWalk die s = _
  have hwalk1 : s1.walk (.socket die) c.desc .read (w.page * 65536) = .error e := hwalk
  simp only [execTranslationWalk, hpick, hc]
  rw [hwalk1]
  simp only [State.did]
  subst hdie
  rfl

end walks

end Sys2Proof.Machine

namespace Sys2Proof.Claims

open Sys2Proof.Machine

section steps
variable {s : State} {g : Group} (hg : s.group? g.id = some g)
include hg

/-- R312, R316, R318: an asynchronous fault. -/
theorem asyncFault_drains (hruns : g.status = .running) (hcauses : g.async ≠ []) (hpend : ∃ p ∈ s.pend, p.gid = g.id) :
    Leads (.asyncFault g.id) s fun t => t.group? g.id = some g.deschedule := by
  refine ⟨_, exec_asyncFault_running hg hruns hcauses, ?_⟩
  have hsame : (s.descheduled g).pend = s.pend := (congrArg State.pend (s.descheduled_rest g) :)
  rw [State.settleFault_of_pending (by rwa [hsame])]
  exact State.group?_wake_of_unblocked (State.group?_descheduled hg) (by simp [Group.deschedule_eq])

theorem asyncFault_posts (hruns : g.status = .running) {c : CauseRec} (hcause : g.async = [c])
    (hpend : ∀ p ∈ s.pend, p.gid ≠ g.id) {u : Team} (hu : s.team? g.team = some u) {l : Launch} (hl : s.launch? u.lid = some l)
    (hregion : c.region = g.regionCnt) {x : Ctx} (hx : s.ctx? u.ctx = some x) (hring : x.desc.ringOk = true)
    (hq : x.faultQ = []) (horphans : s.pkg.orphanQ = []) (hopen : s.ringFenced x = false) :
    Leads (.asyncFault g.id) s fun t =>
      t.group? g.id = some (if s.entryRoom x then g.deschedule.await c else g.deschedule) := by
  have hid : g.deschedule.id = g.id := g.deschedule_same (·.id) fun _ _ _ _ _ => rfl
  have hteam : g.deschedule.team = g.team := g.deschedule_same (·.team) fun _ _ _ _ _ => rfl
  have hasync : g.deschedule.async = [c] := (g.deschedule_same (·.async) fun _ _ _ _ _ => rfl).trans hcause
  have hcnt : g.deschedule.regionCnt = g.regionCnt := g.deschedule_same (·.regionCnt) fun _ _ _ _ _ => rfl
  have hrest := s.descheduled_rest g
  have hsettled := State.group?_settleFault_one (s := s.descheduled g) (g := g.deschedule) (c := c) (u := u) (l := l) (x := x)
    (hid ▸ State.group?_descheduled hg)
    (by rw [hid, show (s.descheduled g).pend = s.pend from (congrArg State.pend hrest :)]; exact hpend)
    (by simp [Group.deschedule_eq]) hasync (hregion.trans hcnt.symm)
    (by rw [hteam]; exact (congrArg (fun t : State => t.team? g.team) hrest :).trans hu)
    ((congrArg (fun t : State => t.launch? u.lid) hrest :).trans hl)
    ((congrArg (fun t : State => t.ctx? u.ctx) hrest :).trans hx) hring hq
    ((congrArg (fun t : State => t.ringFenced x) hrest :).trans hopen)
    ((congrArg (fun t : State => t.pkg.orphanQ) hrest :).trans horphans)
  have hroom : (s.descheduled g).entryRoom x = s.entryRoom x := (congrArg (fun t : State => t.entryRoom x) hrest :)
  rw [hid, hroom] at hsettled
  refine ⟨_, exec_asyncFault_running hg hruns (by simp [hcause]), State.group?_wake_of_unblocked hsettled ?_⟩
  split
  · simp [Group.await]
  · simp [Group.deschedule_eq]

/-- R192: a fill. -/
theorem instructionMissFill_fills {line : Nat} (hw : g.wait = .miss line) {u : Team} (hu : s.team? g.team = some u) :
    Leads (.instructionMissFill g.id) s fun t =>
      t.icache = s.icache ++ [(u.cluster, line)] ∧ t.group? g.id = some { g with wait := .none } ∧ t.mem = s.mem := by
  have hcluster : s.clusterOf g = u.cluster := by simp [State.clusterOf, hu]
  have hexec : exec (.instructionMissFill g.id) s = execInstructionMissFill g.id s := rfl
  rw [Leads, hexec]
  simp only [execInstructionMissFill, hg, hw, hcluster]
  refine ⟨_, rfl, rfl, State.group?_wake_of_unblocked ?_ (by simp), rfl⟩
  refine (find?_map_group (fun h => by split <;> rfl) s.groups g.id).trans ?_
  rw [show s.groups.find? _ = _ from hg, Option.map_some, if_pos ⟨hw, hcluster⟩]

/-- R327: the group of a walk that ends. -/
theorem group?_walkEnds {w : Walk} {f : Group → Group} (hf : ∀ g, (f g).id = g.id) (hw : g.wait = .walk)
    (hin : g.id ∈ w.waiters) : (s.walkEnds w f).group? g.id = some (f g) := by
  refine (find?_map_group (fun h => by split <;> simp only [hf]) s.groups g.id).trans ?_
  rw [show s.groups.find? _ = _ from hg, Option.map_some, if_pos ⟨by simpa using hin, hw⟩]

theorem translationWalk_ends {die : Nat} (hwalks : ∃ w ∈ s.walks, w.die = die) :
    ∃ w ∈ (s.walks.filter fun v => decide (v.die = die)).take 16, ∀ c, s.ctx? w.ctx = some c →
      (∀ l, s.walk (.socket die) c.desc .read (w.page * 65536) = .ok l → Leads (.translationWalk die) s fun t =>
        { die := die, ctx := w.ctx, page := w.page, pa := l.pa, pte := l.pte, w := l.w, x := l.x, usr := l.usr } ∈ t.tlb ∧
        w ∉ t.walks ∧ (g.wait = .walk → g.id ∈ w.waiters → t.group? g.id = some { g with wait := .none })) ∧
      (∀ e, s.walk (.socket die) c.desc .read (w.page * 65536) = .error e → Leads (.translationWalk die) s fun t =>
        t.tlb = s.tlb ∧ w ∉ t.walks ∧
        (g.wait = .walk → g.id ∈ w.waiters →
          t.group? g.id = some { g with wait := .none, walked := g.walked ++ [w.page] })) := by
  have hqueued : (s.walks.filter fun v => decide (v.die = die)).take 16 ≠ [] := by
    obtain ⟨w, hw, hdie⟩ := hwalks
    have hmem : w ∈ s.walks.filter fun v => decide (v.die = die) := List.mem_filter.2 ⟨hw, by simpa using hdie⟩
    simpa using List.ne_nil_of_mem hmem
  obtain ⟨w, hw, hpick⟩ := pickOne_mem s.free die hqueued
  have hdie : w.die = die := by simpa using (List.mem_filter.1 (List.mem_of_mem_take hw)).2
  have hgone (f : Group → Group) : w ∉ (s.walkEnds w f).walks := by simp [State.walkEnds]
  refine ⟨w, hw, fun c hc => ⟨fun l hl => ?_, fun e he => ?_⟩⟩
  · obtain ⟨tlb, free, hmem, hexec⟩ := exec_translationWalk_ok hpick hdie hc hl
    exact ⟨_, hexec, hmem, hgone fun g => { g with wait := .none }, fun hwait hin => State.group?_wake_of_unblocked
      (group?_walkEnds (f := fun g => { g with wait := .none }) hg (fun _ => rfl) hwait hin) (by simp)⟩
  · exact ⟨_, exec_translationWalk_error hpick hdie hc he, rfl,
      hgone fun g => { g with wait := .none, walked := g.walked ++ [w.page] }, fun hwait hin => State.group?_wake_of_unblocked
      (group?_walkEnds (f := fun g => { g with wait := .none, walked := g.walked ++ [w.page] }) hg (fun _ => rfl) hwait hin)
      (by simp)⟩

/-- R197: a release. -/
theorem barrierRelease_releases {u n : Nat} {ph : Bool} (hw : g.wait = .barDone u n ph) :
    exec (.barrierRelease g.id) s = .next (s.setGroup { g with wait := .barGo u n ph }).wake := by
  show execBarrierRelease g.id s = _
  simp only [execBarrierRelease, hg, hw]
  rfl

end steps

/-- Settles O12, step by step: a descheduled group drains or has its entry posted, and fills, walks and releases change the groups
that wait for them. -/
theorem groupSteps : Obligations.GroupSteps := fun s g hg =>
  ⟨fun hruns hcauses => ⟨asyncFault_drains hg hruns hcauses, fun c u l hcause hpend hu hl hregion x hx hring hq horphans hopen => by
      obtain ⟨t, hexec, hgroup⟩ := asyncFault_posts hg hruns hcause hpend hu hl hregion hx hring hq horphans hopen
      exact ⟨t, hexec, hgroup.trans (by split <;> rfl)⟩⟩,
    fun line hw u hu => instructionMissFill_fills hg hw hu, fun die hwalks => translationWalk_ends hg hwalks,
    fun u n ph hw => barrierRelease_releases hg hw⟩

end Sys2Proof.Claims
end

section
/-! PROOFS. TGRAB (spec/09 R199, R200). -/

namespace Sys2Proof.Machine

theorem range_s_nodup (d : BitVec 6) {n : Nat} (h : n ≤ 64) : ((Opnd.s d).range n).Nodup := by
  refine List.Nodup.map_on (fun x hx y hy hxy => ?_) List.nodup_range
  have hx := List.mem_range.1 hx
  have hy := List.mem_range.1 hy
  have hs := congrArg BitVec.toNat (add_left_cancel (Opnd.s.inj hxy))
  rw [BitVec.toNat_ofNat, BitVec.toNat_ofNat] at hs
  omega

/-! ### Choosing nodes and pieces -/

theorem lowestNode_eq_none {xs : List Node} (h : lowestNode xs = none) : xs = [] := by
  cases xs with
  | nil => rfl
  | cons x xs =>
    simp only [lowestNode] at h
    split at h
    · cases h
    · split at h <;> cases h

/-- The node of the lowest number is one of the list, and none has a lower one. -/
theorem lowestNode_spec {xs : List Node} : ∀ {x : Node}, lowestNode xs = some x → x ∈ xs ∧ ∀ y ∈ xs, x.node ≤ y.node := by
  induction xs with
  | nil => intro x h; cases h
  | cons y ys ih =>
    intro x h
    simp only [lowestNode] at h
    cases hz : lowestNode ys with
    | none =>
      obtain rfl : y = x := by simpa [hz] using h
      simp [lowestNode_eq_none hz]
    | some z =>
      obtain ⟨hmem, hleast⟩ := ih hz
      simp only [hz] at h
      split at h
      next hle =>
        obtain rfl := Option.some.inj h
        exact ⟨by simp, fun v hv => by
          rcases List.mem_cons.1 hv with rfl | hv
          exacts [le_rfl, hle.trans (hleast v hv)]⟩
      next hlt =>
        obtain rfl := Option.some.inj h
        exact ⟨by simp [hmem], fun v hv => by
          rcases List.mem_cons.1 hv with rfl | hv
          exacts [Nat.le_of_not_le hlt, hleast v hv]⟩

theorem lowestNode_of_least {xs : List Node} {x : Node} (hx : x ∈ xs) (hleast : ∀ y ∈ xs, x.node ≤ y.node)
    (hone : ∀ y ∈ xs, y.node = x.node → y = x) : lowestNode xs = some x := by
  cases hy : lowestNode xs with
  | none => rw [lowestNode_eq_none hy] at hx; cases hx
  | some y =>
    obtain ⟨hmem, hlow⟩ := lowestNode_spec hy
    rw [hone y hmem (le_antisymm (hlow x hx) (hleast y hmem))]

theorem largest_mem {ps : List Piece} : ∀ {p : Piece}, largest ps = some p → p ∈ ps := by
  induction ps with
  | nil => intro p h; cases h
  | cons q qs ih =>
    intro p h
    simp only [largest] at h
    split at h
    · simp [Option.some.inj h]
    next r hr =>
      split at h
      · simp [Option.some.inj h]
      · exact Option.some.inj h ▸ List.mem_cons_of_mem _ (ih hr)

theorem Node.named_eq_true {x : Node} {graph node : Nat} : x.named graph node = true ↔ x.graph = graph ∧ x.node = node :=
  decide_eq_true_iff

/-- A node is found under its name, where it is the only one of that name. -/
theorem find?_named {xs : List Node} {x : Node} (hx : x ∈ xs) (hone : ∀ y ∈ xs, y.graph = x.graph → y.node = x.node → y = x) :
    xs.find? (·.named x.graph x.node) = some x := by
  induction xs with
  | nil => cases hx
  | cons y ys ih =>
    cases hy : y.named x.graph x.node with
    | true =>
      obtain ⟨hgraph, hnode⟩ := Node.named_eq_true.1 hy
      rw [List.find?_cons_of_pos (p := fun z : Node => z.named x.graph x.node) hy, hone y (by simp) hgraph hnode]
    | false =>
      have hne : x ≠ y := by rintro rfl; simp [Node.named] at hy
      rw [List.find?_cons_of_neg (by simp [hy])]
      exact ih ((List.mem_cons.1 hx).resolve_left hne) fun z hz => hone z (List.mem_cons_of_mem _ hz)

/-- A change of nodes that keeps their names and grains keeps the grains of pieces. -/
theorem Ctx.grainOf_map {c c' : Ctx} {f : Node → Node} (hnodes : c'.nodes = c.nodes.map f)
    (hf : ∀ x, (f x).graph = x.graph ∧ (f x).node = x.node ∧ (f x).grain = x.grain) (p : Piece) : c'.grainOf p = c.grainOf p := by
  have hnamed : ((·.named p.graph p.node) ∘ f : Node → Bool) = (·.named p.graph p.node) :=
    funext fun x => by simp only [Function.comp_apply, Node.named, hf]
  have hstep : Node.step ∘ f = Node.step := funext fun x => by simp only [Function.comp_apply, Node.step, hf]
  simp only [Ctx.grainOf, hnodes, List.find?_map, hnamed, Option.map_map, hstep]

theorem Ctx.handOut_eq (c : Ctx) (p : Piece) : c.handOut p =
    ({ c with pieces := c.pieces.map fun x => if x.handle = p.handle then Claims.handed p (c.grainOf p) else x },
      Claims.handed p (c.grainOf p)) := rfl

end Sys2Proof.Machine

namespace Sys2Proof.Claims

open Sys2Proof.Machine

/-- Words written one after the other to different S registers. -/
theorem gives_foldl {os : List Opnd} (hs : ∀ o ∈ os, ∃ n, o = .s n) (hnd : os.Nodup) : ∀ (ws : List W32) (g : Group),
    Gives g ((os.zip ws).foldl (fun g x => g.give 0 x.1 (plain x.2)) g) os ws := by
  induction os with
  | nil => exact fun ws g => ⟨rfl, by simp, by simp⟩
  | cons o os ih =>
    intro ws g
    cases ws with
    | nil => exact ⟨rfl, by simp, by simp⟩
    | cons w ws =>
      obtain ⟨k, rfl⟩ := hs o (by simp)
      obtain ⟨hout, hnd⟩ := List.nodup_cons.1 hnd
      obtain ⟨hrest, hin, hother⟩ := ih (fun o ho => hs o (by simp [ho])) hnd ws (g.give 0 (.s k) (plain w))
      refine ⟨hrest, fun x hx n hn => ?_, fun n hn => ?_⟩
      · rcases List.mem_cons.1 hx with rfl | hx
        · obtain rfl := Opnd.s.inj hn
          rw [List.zip_cons_cons, List.foldl_cons, hother k fun hk => hout (List.mem_of_mem_take hk), Group.give_sCell, if_pos rfl]
        · exact hin x hx n hn
      · simp only [List.length_cons, List.take_succ_cons, List.mem_cons, not_or] at hn
        rw [List.zip_cons_cons, List.foldl_cons, hother n hn.2, Group.give_sCell, if_neg fun h => hn.1 h.symm]

section four
variable (g : Group) (d : BitVec 6)

theorem exists_s_of_mem_range {n : Nat} {o : Opnd} (h : o ∈ (Opnd.s d).range n) : ∃ k, o = .s k := by
  obtain ⟨k, -, rfl⟩ := List.mem_map.1 h
  exact ⟨_, rfl⟩

/-- The four registers of a chunk (hand_out). -/
theorem gives_giveChunk (p : Piece) : Gives g (g.giveChunk (.s d) p) ((Opnd.s d).range 4)
    [BitVec.ofNat 32 p.chunkLo, BitVec.ofNat 32 p.chunkHi, BitVec.ofNat 32 p.node, handleWord p.handle] :=
  gives_foldl (fun _ ho => exists_s_of_mem_range d ho) (range_s_nodup d (by decide)) _ g

/-- The two registers that say that nothing is handed out. -/
theorem gives_giveNone : Gives g (g.giveNone (.s d)) (((Opnd.s d).range 4).drop 2) [0xFFFFFFFF, 0] :=
  gives_foldl (fun _ ho => exists_s_of_mem_range d (List.mem_of_mem_drop ho))
    ((range_s_nodup d (by decide)).sublist (List.drop_sublist _ _)) _ g

end four

section tgrab
variable {w : FmtB} {s : State} {i : Iss} {ctl : Ctl} {d : BitVec 6} (h : Issues s 8 w.g w.u .fall i ctl) (hd : w.d = .s d)
  (hready : i.ready [] (w.d.range 4) = .ok ())
include h hd hready

/-- TGRAB by the piece that it finds. -/
theorem grabs_of_grab {nodes : List Node} {ps pieces : List Piece} {p : Piece} {step : Nat}
    (hgrab : i.c.grab w.imm.toNat i.g.id i.t.die s.nextId = some ({ i.c with nodes := nodes, pieces := ps }, p))
    (hstep : Ctx.grainOf { i.c with nodes := nodes, pieces := ps } p = step)
    (hps : (ps.map fun x => if x.handle = p.handle then handed p step else x) =
      pieces.map fun x => if x.handle = p.handle then handed p step else x) : Grabs w s i ctl step p nodes pieces := by
  obtain ⟨hrest, hgiven⟩ := hd ▸ gives_giveChunk i.g d (handed p step)
  refine ⟨i.g.giveChunk w.d (handed p step), ?_, hrest, hgiven⟩
  rw [exec_tgrab, execTgrab, issue_done h (g := i.g.giveChunk w.d (handed p step)) (region := true) (s' :=
    State.onCtx { s with nextId := s.nextId + 1 } i.t.ctx fun _ => { i.c with
      nodes := nodes, pieces := pieces.map fun x => if x.handle = p.handle then handed p step else x }) _ (by rw [hrest]),
    State.commit_region]
  · rfl
  · simp only [hready, h.state, bind, Except.bind, State.fresh_fst, hgrab, Ctx.handOut_eq, hstep, hps]
    rfl

/-- TGRAB where the graph has no piece to give. -/
theorem exec_tgrab_none (hgrab : i.c.grab w.imm.toNat i.g.id i.t.die s.nextId = none) :
    exec (.tgrab w) s = .next (s.setGroup ((i.g.giveNone w.d).goesOn ctl s.tick).openRegion).wake := by
  obtain ⟨hrest, -⟩ := hd ▸ gives_giveNone i.g d
  rw [exec_tgrab, execTgrab, issue_done h (g := i.g.giveNone w.d) (region := true) (s' := s) _ (by rw [hrest]), State.commit_region]
  simp only [hready, h.state, bind, Except.bind, State.fresh_fst, hgrab]

end tgrab

/-- R200: TGRAB. -/
theorem taskGrab : TaskGrab := by
  intro w s i ctl d h hd hready hfresh hunique graph ready back can near
  have hrdy : i.c.nodes.filter (fun x => decide (x.graph = w.imm.toNat ∧ x.state = .ready)) = ready := rfl
  have hback : i.c.pieces.filter (fun p => decide (p.graph = w.imm.toNat ∧ p.holder = none)) = back := rfl
  have hcan : i.c.pieces.filter (fun p => decide (p.graph = w.imm.toNat ∧ 2 * i.c.grainOf p ≤ p.hi - p.next)) = can := rfl
  have hnear : can.filter (fun p => decide (p.die = i.t.die)) = near := rfl
  refine ⟨fun x hx hleast => ?_, fun hnone p hp => ?_, fun hnone hno p hp => ?_, fun hnone hno hnot => ?_⟩
  · obtain ⟨hmem, hx'⟩ := List.mem_filter.1 hx
    obtain ⟨hgraph, -⟩ := of_decide_eq_true hx'
    have hlow : lowestNode ready = some x := lowestNode_of_least hx hleast fun y hy hnode => by
      obtain ⟨hy, hy'⟩ := List.mem_filter.1 hy
      exact hunique y hy x hmem ((of_decide_eq_true hy').1.trans hgraph.symm) hnode
    refine grabs_of_grab h hd hready (by simp only [Ctx.grab, hrdy, hlow, Node.named_eq_true]; rfl) ?_ rfl
    rw [Ctx.grainOf_map (c := i.c) rfl fun y => by split <;> exact ⟨rfl, rfl, rfl⟩]
    have hfind := find?_named hmem fun y hy hg hn => hunique y hy x hmem hg hn
    rw [hgraph] at hfind
    simp only [Ctx.grainOf, hfind]
    rfl
  · refine grabs_of_grab (ps := i.c.pieces.map fun x =>
        if x.handle = p.handle then { p with holder := some i.g.id, die := i.t.die } else x) h hd hready
      (by simp only [Ctx.grab, hrdy, hnone, lowestNode, hback, hp]) rfl ?_
    rw [List.map_map]
    exact List.map_congr_left fun x _ => by simp only [Function.comp_apply]; split <;> simp [*]
  · have hgraph : p.graph = graph := by
      have hmem : p ∈ can := by
        have hmem := largest_mem hp
        split at hmem
        exacts [hmem, List.mem_of_mem_filter hmem]
      exact (of_decide_eq_true (List.mem_filter.1 hmem).2).1
    refine grabs_of_grab h hd hready ?_ ?_ rfl
    · simp only [Ctx.grab, hrdy, hnone, lowestNode, hback, hno, largest, hcan, hnear, List.isEmpty_iff, hp, hgraph]
      rfl
    · rfl
  · refine ⟨_, exec_tgrab_none h hd hready ?_, hd ▸ gives_giveNone i.g d⟩
    simp only [Ctx.grab, hrdy, hnone, lowestNode, hback, hno, largest, hcan, hnot, List.filter_nil, ite_self]

end Sys2Proof.Claims
end

section
/-! PROOFS. TDONE (spec/09 R199 to R201). -/

namespace Sys2Proof.Machine

/-! ### The end of a node takes no step of its own -/

theorem State.postAll_tick (s : State) (n : Nat) (ps : List Posting) : (s.postAll n ps).tick = s.tick :=
  (congrArg State.tick (s.postAll_besidesPosting n ps) :)

theorem State.orphan_tick (s : State) (o : Orphan) : (s.orphan o).tick = s.tick :=
  (congrArg State.tick (s.orphan_besidesPosting o) :)

theorem State.deviceWrite_tick {s t : State} {c : Ctx} {va : Nat} {bs : List Byte}
    (h : s.deviceWrite c va bs = .ok (some t)) : t.tick = s.tick := by
  unfold State.deviceWrite at h
  split at h
  · cases h
  · dsimp only at h
    split at h
    · cases h
    · cases h
      exact (State.eq_of_besidesWrites State.tick (fun _ => rfl) (State.writeNow_besidesWrites ..)).trans
        (State.eq_of_besidesWrites State.tick (fun _ => rfl) (State.setDirtyAt_besidesWrites ..))

theorem State.writeRecord_tick (s : State) (n va status : Nat) (r : Reduce) (p : Posting) :
    (s.writeRecord n va status r p).tick = s.tick := by
  unfold State.writeRecord
  split
  · rfl
  · dsimp only
    split
    · exact State.postAll_tick ..
    · exact State.orphan_tick ..
    next h => exact (State.deviceWrite_tick h :)

theorem State.deviceArrive_tick (s : State) (team n : Nat) (rs : List Rel) : (s.deviceArrive team n rs).tick = s.tick := by
  unfold State.deviceArrive
  split
  · rfl
  · dsimp only
    split_ifs
    · rfl
    · exact State.postAll_tick ..
    · rfl

theorem State.notify_tick (s : State) (n : Nat) (yes : Bool) : (s.notify n yes).tick = s.tick := by
  cases yes <;> rfl

theorem State.graphDone_tick {s t : State} {n graph : Nat} (h : s.graphDone n graph = some t) : t.tick = s.tick := by
  unfold State.graphDone at h
  obtain ⟨u, hu, rfl⟩ := Option.map_eq_some_iff.1 h
  exact (congrArg State.tick (State.fulfilAll_besidesPerforming _ hu) :)

theorem State.sinkDone_tick {s t : State} {n : Nat} {x : Node} (h : s.sinkDone n x = some t) : t.tick = s.tick := by
  unfold State.sinkDone at h
  obtain ⟨u, hu, rfl⟩ := Option.map_eq_some_iff.1 h
  have hrecord := (u.writeRecord_tick n x.record.toNat 0 {} x.posting).trans (State.graphDone_tick hu)
  dsimp only
  rw [State.notify_tick]
  split
  · exact hrecord
  · rw [State.deviceArrive_tick, hrecord]

/-- Sinks end one after the other. -/
theorem foldl_sinkDone_tick (n : Nat) (xs : List Node) : ∀ {s t : State},
    xs.foldl (fun (o : Option State) x => o.bind fun s => s.sinkDone n x) (some s) = some t → t.tick = s.tick := by
  have hnone (xs : List Node) : xs.foldl (fun (o : Option State) x => o.bind fun s => s.sinkDone n x) none = none := by
    induction xs with
    | nil => rfl
    | cons x xs ih => exact ih
  induction xs with
  | nil => rintro s t ⟨⟩; rfl
  | cons x xs ih =>
    intro s t h
    simp only [List.foldl_cons, Option.bind_some] at h
    cases hu : s.sinkDone n x with
    | none => rw [hu, hnone] at h; cases h
    | some u => exact (ih (hu ▸ h)).trans (State.sinkDone_tick hu)

theorem State.nodeDone_tick {s t : State} {n graph node : Nat} (h : s.nodeDone n graph node = some t) : t.tick = s.tick := by
  unfold State.nodeDone at h
  split at h
  · cases h; rfl
  · exact (foldl_sinkDone_tick n _ h :)

/-! ### Retired iterations -/

/-- The numbers in intervals from which others are cut out. -/
theorem cutOut_iff {a b n : Nat} {xs : List (Nat × Nat)} :
    (∃ y ∈ cutOut a b xs, y.1 ≤ n ∧ n < y.2) ↔ (∃ x ∈ xs, x.1 ≤ n ∧ n < x.2) ∧ ¬ (a ≤ n ∧ n < b) := by
  unfold cutOut
  split
  next hempty => simp only [iff_self_and]; intro; omega
  next hcut =>
    simp only [List.mem_flatMap, List.mem_filter, List.mem_cons, List.not_mem_nil, or_false, decide_eq_true_eq]
    constructor
    · rintro ⟨y, ⟨x, hx, rfl | rfl, -⟩, hlow, hhigh⟩
      · exact ⟨⟨x, hx, by omega, by omega⟩, by omega⟩
      · exact ⟨⟨x, hx, by omega, by omega⟩, by omega⟩
    · rintro ⟨⟨x, hx, hlow, hhigh⟩, hout⟩
      rcases Nat.lt_or_ge n a with hn | hn
      · exact ⟨_, ⟨x, hx, .inl rfl, by simp only; omega⟩, hlow, by simp only; omega⟩
      · exact ⟨_, ⟨x, hx, .inr rfl, by simp only; omega⟩, by simp only; omega, hhigh⟩

theorem Node.retire_eq (x : Node) (a b : Nat) : x.retire a b = { x with
    left := cutOut a b x.left
    state := if x.state = .running ∧ cutOut a b x.left = [] then .done else x.state } := by
  simp only [Node.retire, List.isEmpty_iff]
  split <;> rfl

theorem Ctx.retireChunk_grainOf (c : Ctx) (p : Piece) (a b : Nat) (q : Piece) : (c.retireChunk p a b).grainOf q = c.grainOf q :=
  Ctx.grainOf_map rfl (fun x => by split <;> simp [Node.retire_eq]) q

end Sys2Proof.Machine

namespace Sys2Proof.Claims

open Sys2Proof.Machine


/-- The word of a register among those of a chunk. -/
theorem datum_range (g : Group) (d : BitVec 6) {k : Nat} (hk : k < 4) :
    g.datum 0 (((Opnd.s d).range 4).getD k .zr) = (g.sCell (d + BitVec.ofNat 6 k).toNat).d := by
  rw [Opnd.range, List.getD_eq_getElem?_getD, List.getElem?_map, List.getElem?_range hk]
  rfl

/-- The state that a TDONE leaves where it ends no node: the nodes of its context, its piece handed on or freed, and its release
side for the record of the graph. -/
def handedOn (s : State) (i : Iss) (p : Piece) (nodes : List Node) : State :=
  s.onCtx i.t.ctx fun x => { x with
    nodes := nodes
    taskRels := (i.c.taskRels ++ [(p.graph, i.side 5)]).filter fun x => s.bears? x.2
    pieces := if p.next < p.hi then i.c.pieces.map fun y => if y.handle = p.handle then handed p (i.c.grainOf p) else y
      else i.c.pieces.filter fun y => y.handle ≠ p.handle }

/-- The group of a TDONE, with its next chunk or with none. -/
def nextChunk (w : FmtB) (i : Iss) (p : Piece) : Group :=
  if p.next < p.hi then i.g.giveChunk w.d (handed p (i.c.grainOf p)) else i.g.giveNone w.d

/-- How a TDONE ends: with the state that its graph leaves, once there is one with every entry posted. -/
def tdoneEnd (w : FmtB) (i : Iss) (p : Piece) (s1 : State) (o : Option State) : Except Stop Done :=
  match o with
  | none => i.wait
  | some t => if s1.postedBy i.t.ctx t = true
    then .ok { s := t, g := Iss.kept { i with g := nextChunk w i p } t, region := true } else i.wait

section chunk
variable {w : FmtB} {i : Iss} {d : BitVec 6} (hd : w.d = .s d)
include hd

/-- The chunk registers of a TDONE. -/
theorem gives_nextChunk (p : Piece) :
    if p.next < p.hi then Gives i.g (nextChunk w i p) (w.d.range 4)
      [BitVec.ofNat 32 (handed p (i.c.grainOf p)).chunkLo, BitVec.ofNat 32 (handed p (i.c.grainOf p)).chunkHi,
        BitVec.ofNat 32 p.node, handleWord p.handle]
    else Gives i.g (nextChunk w i p) ((w.d.range 4).drop 2) [0xFFFFFFFF, 0] := by
  simp only [nextChunk, hd]
  split
  · exact gives_giveChunk i.g d (handed p (i.c.grainOf p))
  · exact gives_giveNone i.g d

theorem nextChunk_rest (p : Piece) : nextChunk w i p = { i.g with s := (nextChunk w i p).s } := by
  have hgives := gives_nextChunk (i := i) hd p
  split at hgives
  exacts [hgives.1, hgives.1]

end chunk

section tdone
variable {w : FmtB} {s : State} {i : Iss} {ctl : Ctl} {d : BitVec 6} (h : Issues s 8 w.g w.u .fall i ctl) (hd : w.d = .s d)
  (hready : i.ready ((w.d.range 4).map fun o => ⟨o, false⟩) (w.d.range 4) = .ok ())
include h hd hready

theorem tdone_without_piece
    (hnone : ∀ p ∈ i.c.pieces, ¬ (p.holder = some i.g.id ∧ handleWord p.handle = (i.g.sCell (d + BitVec.ofNat 6 3).toNat).d.val)) :
    Traps (.tdone w) s i 0x12 := by
  rw [Traps, exec_tdone, execTdone]
  refine issue_cause h ?_
  have hfind : i.c.pieces.find? (fun p => decide (p.holder = some i.g.id ∧
      handleWord p.handle = (i.g.sCell (d + BitVec.ofNat 6 3).toNat).d.val)) = none :=
    List.find?_eq_none.2 fun p hp => by simpa using hnone p hp
  simp only [hready, bind, Except.bind]
  simp only [hd, datum_range i.g d (show 3 < 4 by decide), hfind]

/-- TDONE of a piece that its group holds. -/
theorem exec_tdone_held {p : Piece} {nodes : List Node}
    (hp : i.c.pieces.find? (fun p => decide (p.holder = some i.g.id ∧
      handleWord p.handle = (i.g.sCell (d + BitVec.ofNat 6 3).toNat).d.val)) = some p) (hheld : i.held = false)
    (hnodes : (i.c.retireChunk p (i.g.sCell (d + BitVec.ofNat 6 0).toNat).d.val.toNat
      (i.g.sCell (d + BitVec.ofNat 6 1).toNat).d.val.toNat).nodes = nodes) :
    exec (.tdone w) s = i.finish (tdoneEnd w i p (handedOn s i p nodes)
      (if ((i.c.nodes.any fun x => x.named p.graph p.node && x.state == .running)
          && nodes.any fun x => x.named p.graph p.node && x.state == .done) = true
        then (handedOn s i p nodes).nodeDone i.t.ctx p.graph p.node else some (handedOn s i p nodes))) := by
  rw [exec_tdone, execTdone, issue_eq h.found h.lanes]
  simp only [hready, bind, Except.bind]
  simp only [hd, datum_range i.g d (show 3 < 4 by decide), datum_range i.g d (show 0 < 4 by decide),
    datum_range i.g d (show 1 < 4 by decide), hp, Iss.release_ok hheld, Iss.goOn, h.state, Ctx.handOut_eq,
    Ctx.retireChunk_grainOf]
  simp only [← hnodes, handedOn, nextChunk, hd, tdoneEnd]
  by_cases hmore : p.next < p.hi
  · simp only [if_pos hmore, decide_eq_true hmore, if_true]
    rfl
  · simp only [if_neg hmore, decide_eq_false hmore, Bool.false_eq_true, if_false]
    rfl

end tdone

section finish
variable {w : FmtB} {s : State} {i : Iss} {ctl : Ctl} {d : BitVec 6} (h : Issues s 8 w.g w.u .fall i ctl) (p : Piece)
include h

theorem finish_tdoneEnd_some (hd : w.d = .s d) {s1 t : State} (htick : t.tick = s.tick) (hposted : s1.postedBy i.t.ctx t = true) :
    i.finish (tdoneEnd w i p s1 (some t)) =
      .next (t.setGroup ((Iss.kept { i with g := nextChunk w i p } t).goesOn ctl s.tick).openRegion).wake := by
  have hflow : (Iss.kept { i with g := nextChunk w i p } t).ctl.advance i.after .fall = some ctl := by
    rw [Iss.kept_ctl, nextChunk_rest hd]
    exact h.flow
  simp only [tdoneEnd, hposted, if_true]
  rw [Iss.finish_ok hflow, State.commit_region, htick]

theorem finish_tdoneEnd_wait {s1 : State} {o : Option State} (hno : ∀ t, o = some t → s1.postedBy i.t.ctx t = false) :
    i.finish (tdoneEnd w i p s1 o) = .next (s.setGroup { i.g with wait := .blocked }) := by
  have hend : tdoneEnd w i p s1 o = i.wait := by
    cases o with
    | none => rfl
    | some t => simp only [tdoneEnd, hno t rfl, Bool.false_eq_true, if_false]
  rw [hend, Iss.wait, Iss.finish_stall, h.state, issueOf_kept h.found]

/-- The group that goes on where no node ends. -/
theorem kept_nextChunk (hd : w.d = .s d) {t : State} (ht : t.groups = s.groups) :
    Iss.kept { i with g := nextChunk w i p } t = nextChunk w i p := by
  have hkept : i.kept t = i.g := by
    have : i.kept t = i.kept s := by simp only [Iss.kept, State.group?, ht]
    rw [this, issueOf_kept h.found]
  rw [nextChunk_rest hd p]
  simp only [Iss.kept] at hkept ⊢
  split
  · rfl
  next g hg =>
    rw [hg] at hkept
    rw [← hkept]

end finish

theorem mem_zip_map {α β : Type} {f : α → β} {xs : List α} {x : α × β} (h : x ∈ xs.zip (xs.map f)) :
    x.1 ∈ xs ∧ x.2 = f x.1 := by
  induction xs with
  | nil => cases h
  | cons y ys ih =>
    rcases List.mem_cons.1 h with rfl | h
    · exact ⟨by simp, rfl⟩
    · exact ⟨List.mem_cons_of_mem _ (ih h).1, (ih h).2⟩

/-- R199, R200: TDONE. -/
theorem taskDone : TaskDone := by
  intro w s i ctl d h hd hready v lo hi mine
  refine ⟨tdone_without_piece h hd hready, fun p hp hheld => ?_⟩
  intro q of
  obtain ⟨nodes, hnodes⟩ : ∃ nodes, (i.c.retireChunk p lo hi).nodes = nodes := ⟨_, rfl⟩
  have hexec := exec_tdone_held h hd hready hp hheld hnodes
  refine ⟨nodes, nextChunk w i p, hnodes ▸ List.length_map .., fun x hx => ?_, gives_nextChunk hd p, ?_⟩
  · obtain ⟨-, hx⟩ := mem_zip_map (hnodes ▸ hx)
    rw [hx]
    simp only [Node.named_eq_true]
    refine ⟨fun hout => if_neg hout, fun hin => ?_⟩
    rw [if_pos hin, Node.retire_eq]
    exact ⟨rfl, fun n => cutOut_iff, rfl⟩
  · intro s1 ends waits
    have hends : ((i.c.nodes.any fun x => x.named p.graph p.node && x.state == .running)
        && nodes.any fun x => x.named p.graph p.node && x.state == .done) = true ↔ ends := by
      simp only [Bool.and_eq_true, List.any_eq_true, Node.named_eq_true, beq_iff_eq, ends, of]
    refine ⟨fun hno => ?_, fun hyes hnone => ?_, fun s2 hyes hsome => ?_⟩
    · rw [if_neg (mt hends.1 hno)] at hexec
      have hstep := finish_tdoneEnd_some h p hd (s1 := s1) (t := s1) rfl (State.postedBy_of_eq rfl rfl)
      rw [kept_nextChunk h p hd (t := s1) rfl] at hstep
      exact hexec.trans hstep
    · rw [if_pos (hends.2 hyes)] at hexec
      exact hexec.trans (finish_tdoneEnd_wait h p fun t ht => by cases hnone.symm.trans ht)
    · rw [if_pos (hends.2 hyes), show (handedOn s i p nodes).nodeDone _ _ _ = some s2 from hsome] at hexec
      refine ⟨fun hposted => ?_, fun hposted => ?_⟩
      · exact hexec.trans (finish_tdoneEnd_some h p hd ((State.nodeDone_tick hsome).trans rfl) hposted)
      · exact hexec.trans (finish_tdoneEnd_wait h p fun t ht => by cases ht; exact hposted)

/-- Settles O57: a TGRAB takes the first piece that there is, and a TDONE cuts its iterations out of its node and hands on the
rest of its piece, once the end of a node has been recorded. -/
theorem piecesAreGrabbedAndReturned : Obligations.PiecesAreGrabbedAndReturned := ⟨taskGrab, taskDone⟩

end Sys2Proof.Claims
end

section
/-! PROOFS. A matrix operation begins (spec/15 R282, R290, R302). -/

namespace Sys2Proof.Machine

/-! ### The queues of a matrix unit -/

@[simp] theorem CoreSt.queue_setQueue (c : CoreSt) (q : Bool) (ms : List MOp) : (c.setQueue q ms).queue q = ms := by
  cases q <;> rfl

@[simp] theorem CoreSt.queue_setQueue_not (c : CoreSt) (q : Bool) (ms : List MOp) :
    (c.setQueue q ms).queue (!q) = c.queue (!q) := by
  cases q <;> rfl

@[simp] theorem CoreSt.tile_setQueue (c : CoreSt) (q : Bool) (ms : List MOp) (k : Nat) : (c.setQueue q ms).tile k = c.tile k := by
  cases q <;> rfl

theorem CoreSt.setQueue_rest (c : CoreSt) (q : Bool) (ms : List MOp) :
    c.setQueue q ms = { c with mq0 := (c.setQueue q ms).mq0, mq1 := (c.setQueue q ms).mq1 } := by
  cases q <;> rfl

theorem CoreSt.setHead_eq {c : CoreSt} {q : Bool} {m : MOp} {ms : List MOp} (h : c.queue q = m :: ms) (m' : MOp) :
    c.setHead q m' = c.setQueue q (m' :: ms) := by
  rw [CoreSt.setHead, h, List.drop_one, List.tail_cons]

theorem CoreSt.runnable_of_head {c : CoreSt} {q : Bool} {m : MOp} {ms : List MOp} (h : c.queue q = m :: ms)
    (hdone : m.done = false) (hfree : c.claimFree true m.id m.names = true) : c.runnable q = some m := by
  simp [CoreSt.runnable, h, hdone, hfree]

/-! ### Writing the targets of an operation -/

theorem MOp.targets_nodup (m : MOp) : (m.targets.map (·.1)).Nodup := by
  have hnext : ((List.range m.tans).map fun k => m.td + 1 + k).Nodup :=
    List.nodup_range.map fun a b hab => by simpa using hab
  simp only [MOp.targets, List.map_cons, List.map_map, Function.comp_def, List.nodup_cons]
  refine ⟨fun hmem => ?_, hnext⟩
  obtain ⟨k, -, hk⟩ := List.mem_map.1 hmem
  omega

theorem MOp.write_rest (m : MOp) (c : CoreSt) (f : Option Nat → Nat → Nat → W32 → W32) :
    ∃ ts, m.write c f = { c with tiles := ts } :=
  CoreSt.foldl_setTile_rest (fun _ (x : Nat × Option Nat) => (x.1, m.retile (c.tile x.1) (f x.2))) m.targets c

/-- Each target tile is written once, and no other tile. -/
theorem MOp.tile_write (m : MOp) (c : CoreSt) (f : Option Nat → Nat → Nat → W32 → W32) (k : Nat) :
    (∀ x ∈ m.targets, x.1 = k → (m.write c f).tile k = m.retile (c.tile k) (f x.2)) ∧
    (k ∉ m.targets.map (·.1) → (m.write c f).tile k = c.tile k) := by
  obtain ⟨hthis, hother⟩ := CoreSt.tile_foldl_setTile (fun (x : Nat × Option Nat) _ => m.retile (c.tile x.1) (f x.2)) (·.1) k
    m.targets c m.targets_nodup
  exact ⟨fun x hx hk => hk ▸ hthis x hx hk, hother⟩

theorem MOp.not_mem_targets {m : MOp} {k : Nat} (h : k < m.td ∨ m.td + m.tans < k) : k ∉ m.targets.map (·.1) := by
  simp only [MOp.targets, List.map_cons, List.map_map, List.mem_cons, List.mem_map, List.mem_range, Function.comp_apply]
  rintro (rfl | ⟨j, hj, rfl⟩) <;> omega

/-- The elements of the destination tile of an operation of no K-steps (R290). -/
theorem MOp.empty_at {m : MOp} {c : CoreSt} (hstep : m.step = 0) {r n : Nat} (hr : r < (c.tile m.td).h)
    (hn : n < min (c.tile m.td).w 64) : ((m.empty c).tile m.td).at r n =
      if r < m.rows ∧ n < m.cols then (if m.acc then (c.tile m.td).at r n else 0)
      else if m.z then 0 else (c.tile m.td).at r n := by
  obtain ⟨hthis, -⟩ := m.tile_write c (fun k _ _ x => if mxInt m.afmt && k.isSome then 0 else x) m.td
  rw [MOp.empty, hthis (m.td, none) (by simp [MOp.targets]) rfl, MOp.retile, Tile.at_build _ hr hn]
  cases m.acc <;> simp [hstep]

end Sys2Proof.Machine

namespace Sys2Proof.Claims

open Sys2Proof.Machine

/-- R282, R290, R302: an operation begins. -/
theorem matrixOperationBegins : MatrixOperationBegins := by
  refine ⟨fun s rels h => by rw [State.fulfilAll_bears h]; rfl, ?_⟩
  intro core q s s1 m ms c hperformed b hhead hstarted hdone hstep hlive hfree
  have hexec : exec (.matrixOperationStart core q) s =
      .next (s1.setCore core (if b.count = 0 then (b.empty c).setHead q { b with done := true } else c.setHead q b)).wake := by
    have hrun := CoreSt.runnable_of_head hhead hdone hfree
    simp only [exec_matrixOperationStart, execMatrixOperationStart, c] at hrun ⊢
    simp only [hrun, hstarted, hlive, hperformed, Bool.not_true, Bool.or_self, Bool.false_eq_true, if_false]
    rfl
  refine ⟨fun hcount => ?_, fun hcount => ?_⟩
  · rw [hexec, if_neg hcount, CoreSt.setHead_eq hhead]
  · obtain ⟨ts, hts⟩ : ∃ ts, b.empty c = { c with tiles := ts } := b.write_rest c _
    have hqueue : (b.empty c).queue q = m :: ms := by rw [hts]; exact hhead
    refine ⟨_, by rw [hexec, if_pos hcount, CoreSt.setHead_eq hqueue], ?_, by simp, ?_, fun k hk => ?_, fun r hr n hn => ?_⟩
    · rw [CoreSt.setQueue_rest, hts]
    · rw [CoreSt.queue_setQueue_not, hts]
      rfl
    · rw [CoreSt.tile_setQueue]
      exact (b.tile_write c _ k).2 (MOp.not_mem_targets hk)
    · rw [CoreSt.tile_setQueue]
      exact MOp.empty_at hstep hr hn

end Sys2Proof.Claims
end

section
/-! PROOFS. A matrix operation completes (spec/15 R282, R296, R299, R302, R306), and the arrivals that no instruction makes
(spec/09 R195). -/

namespace Sys2Proof.Machine

/-! ### Arrivals of the device -/

/-- A team stays as long as a group of it does. -/
theorem State.retireTeam_of_group {s : State} {team : Nat} (h : ∃ g ∈ s.groups, g.team = team) : s.retireTeam team = s := by
  unfold State.retireTeam
  split
  · rfl
  · dsimp only
    rw [if_pos (.inl (by simpa using h))]

/-- Barriers change no group's team. -/
theorem State.exists_group_setBar {s : State} {team k n : Nat} {b : Barrier} (h : ∃ g ∈ s.groups, g.team = k) :
    ∃ g ∈ (s.setBar team n b).groups, g.team = k := by
  obtain ⟨g, hg, hteam⟩ := h
  refine ⟨_, List.mem_map_of_mem hg, ?_⟩
  split
  exacts [hteam, hteam]

theorem State.team?_setBar {s : State} {team : Nat} {u : Team} (h : s.team? team = some u) (n : Nat) (b : Barrier) :
    (s.setBar team n b).team? team = some { u with bars := keep {} u.bars n b } := by
  have hid : u.id = team := State.team?_id h
  rw [State.setBar]
  exact (State.team?_onTeam (f := fun u => { u with bars := keep {} u.bars n b }) (fun _ => rfl) team team).trans
    (by rw [h, Option.map_some, if_pos hid])

section arrive
variable {s : State} {team : Nat} {u : Team} (h : s.team? team = some u) (n : Nat) (rs : List Rel)
include h

/-- An arrival on a broken barrier does nothing (R195). -/
theorem State.deviceArrive_broken (hbrk : (u.bar n).brk = true) : s.deviceArrive team n rs = s := by
  simp [State.deviceArrive, h, State.carriedBy, hbrk]

/-- One arrival too many breaks the barrier (R195). -/
theorem State.deviceArrive_over (hbrk : (u.bar n).brk = false) (harr : 65535 ≤ (u.bar n).arr) :
    s.deviceArrive team n rs = (s.setBar team n { s.carriedBy (u.bar n) rs with brk := true }).postBar u n 0xFFFF := by
  simp [State.deviceArrive, h, State.carriedBy, hbrk, show 65535 < (u.bar n).arr + 1 by omega]

theorem State.deviceArrive_counted (hbrk : (u.bar n).brk = false) (harr : (u.bar n).arr < 65535) :
    s.deviceArrive team n rs =
      s.setBar team n (Barrier.check { s.carriedBy (u.bar n) rs with arr := (u.bar n).arr + 1 }) := by
  simp [State.deviceArrive, h, State.carriedBy, hbrk, show ¬ 65535 < (u.bar n).arr + 1 by omega]

end arrive

/-! ### Cores and barriers while entries are posted -/

theorem State.postAll_coreSt (s : State) (n : Nat) (ps : List Posting) (k : Nat) : (s.postAll n ps).coreSt k = s.coreSt k := by
  have hcores : (s.postAll n ps).cores = s.cores := (congrArg State.cores (s.postAll_besidesPosting n ps) :)
  rw [State.coreSt, hcores, State.coreSt]

/-- Posting changes of a team its tile region alone. -/
theorem State.team?_postAll_bars (s : State) (n : Nat) (ps : List Posting) (k : Nat) :
    ((s.postAll n ps).team? k).map (·.bars) = (s.team? k).map (·.bars) := by
  have hfind (t : State) : (t.bareTeams.find? fun v => decide (v.id = k)).map (·.bars) = (t.team? k).map (·.bars) := by
    rw [State.bareTeams, List.find?_map, Option.map_map]
    rfl
  have hteams : (s.postAll n ps).bareTeams = s.bareTeams := (congrArg State.teams (s.postAll_besidesPosting n ps) :)
  rw [← hfind, ← hfind, hteams]

/-- A barrier stands as it was stored while its entry is posted. -/
theorem State.brk_postAll_setBar {s : State} {team : Nat} {u : Team} (h : s.team? team = some u) (n : Nat) (b : Barrier)
    (k : Nat) (ps : List Posting) :
    (((s.setBar team n b).postAll k ps).team? team).map (fun v => (look {} v.bars n).brk) = some b.brk := by
  have hbars := State.team?_postAll_bars (s.setBar team n b) k ps team
  rw [State.team?_setBar h, Option.map_some] at hbars
  have hbrk := congrArg (Option.map fun bars => (look {} bars n).brk) hbars
  rw [Option.map_map, Option.map_some, look_keep_self] at hbrk
  exact hbrk

/-- Work that posts nothing is done. -/
theorem State.didPosting_of_same {s t : State} (n : Nat) (hpkg : t.pkg = s.pkg) (hctxs : t.ctxs = s.ctxs) :
    s.didPosting n t = .next t.wake := by
  rw [State.didPosting, State.postedBy_of_eq (by rw [hpkg]) (by rw [State.ctx?, State.ctx?, hctxs]), if_pos rfl]
  rfl

end Sys2Proof.Machine

namespace Sys2Proof.Claims

open Sys2Proof.Machine

/-- The core as an operation leaves it that completes. -/
def coreWithout (c : CoreSt) (q : Bool) (m : MOp) (ms : List MOp) : CoreSt :=
  { c.setQueue q ms with
    claims := c.claims.filter fun k => !k.isOp || decide (k.key ≠ m.id), q0run := if q then 0 else c.q0run }

theorem coreWithout_queue (c : CoreSt) (q : Bool) (m : MOp) (ms : List MOp) : (coreWithout c q m ms).queue q = ms := by
  cases q <;> rfl

/-- The state in which an operation that completes arrives on its barrier. -/
def opGone (s : State) (core : Nat) (q : Bool) (m : MOp) (ms : List MOp) : State :=
  (s.setCore core (coreWithout (s.coreSt core) q m ms)).onTeam m.team fun v => { v with mflags := v.mflags ||| m.flags }

/-- The arrival of an operation that completes. -/
def opArrives (s : State) (m : MOp) : State :=
  match m.bar with
  | none => s
  | some b => s.deviceArrive m.team b [s.opSide m]

theorem opArrives_none {s : State} {m : MOp} (h : m.bar = none) : opArrives s m = s := by rw [opArrives, h]

theorem opArrives_eq {s : State} {m : MOp} {n : Nat} (h : m.bar = some n) :
    opArrives s m = s.deviceArrive m.team n [s.opSide m] := by rw [opArrives, h]

section completes
variable {core : Nat} {q : Bool} {s : State} {m : MOp} {ms : List MOp} {u : Team}

theorem opGone_coreSt : (opGone s core q m ms).coreSt core = coreWithout (s.coreSt core) q m ms := look_keep_self ..

theorem opGone_team (hteam : s.team? m.team = some u) :
    (opGone s core q m ms).team? m.team = some { u with mflags := u.mflags ||| m.flags } :=
  (State.team?_onTeam (f := fun v => { v with mflags := v.mflags ||| m.flags }) (fun _ => rfl) m.team m.team).trans
    (by rw [show (s.setCore core _).team? m.team = some u from hteam, Option.map_some, if_pos (State.team?_id hteam)])

theorem opGone_opSide (hteam : s.team? m.team = some u) : (opGone s core q m ms).opSide m = s.opSide m := by
  simp only [State.opSide, State.opSite, opGone_team hteam, hteam]

/-- Neither an arrival nor the posting of its entry ends a group. -/
theorem exists_group_opArrives {t : State} (h : ∃ g ∈ t.groups, g.team = m.team) :
    ∃ g ∈ (opArrives t m).groups, g.team = m.team := by
  unfold opArrives State.deviceArrive
  split
  · exact h
  · split
    · exact h
    · dsimp only
      split_ifs
      · exact h
      · rw [State.postBar, State.post, State.postAll_groups]
        exact State.exists_group_setBar h
      · exact State.exists_group_setBar h

/-- The step by which an operation completes. -/
theorem exec_matrixOperationComplete_eq (hhead : (s.coreSt core).queue q = m :: ms) (hdone : m.done = true)
    (hteam : s.team? m.team = some u) (hlive : s.teamLive m.team = true) (hgroup : ∃ g ∈ s.groups, g.team = m.team) :
    exec (.matrixOperationComplete core q) s = s.didPosting u.ctx (opArrives (opGone s core q m ms) m) := by
  have hcore : (if q = true then { ((s.coreSt core).setQueue q ms).unclaim true m.id with q0run := 0 }
      else ((s.coreSt core).setQueue q ms).unclaim true m.id) = coreWithout (s.coreSt core) q m ms := by
    have hclaims : ((s.coreSt core).claims.filter fun k => !(k.isOp == true && k.key == m.id)) =
        (s.coreSt core).claims.filter fun k => !k.isOp || decide (k.key ≠ m.id) :=
      List.filter_congr fun k _ => by by_cases hk : k.key = m.id <;> simp [hk]
    simp only [coreWithout, CoreSt.unclaim, ← hclaims]
    cases q <;> rfl
  have hstay := State.retireTeam_of_group (exists_group_opArrives (m := m) (t := opGone s core q m ms) hgroup)
  simp only [exec_matrixOperationComplete, execMatrixOperationComplete, hhead, hdone, hlive, hteam, hcore, Bool.not_true,
    Bool.or_self, Bool.false_eq_true, if_false]
  exact congrArg (s.didPosting u.ctx) hstay

/-- One arrival too many: the entry of the broken barrier may have to wait. -/
theorem opArrives_over (hteam : s.team? m.team = some u) {n : Nat} (hbar : m.bar = some n)
    (hbrk : (u.bar n).brk = false) (harr : 65535 ≤ (u.bar n).arr) :
    ((opArrives (opGone s core q m ms) m).coreSt core).queue q = ms ∧
    ((opArrives (opGone s core q m ms) m).team? m.team).map (fun v => (look {} v.bars n).brk) = some true := by
  have hgone := opGone_team (core := core) (q := q) (ms := ms) hteam
  rw [opArrives_eq hbar, State.deviceArrive_over hgone n _ hbrk harr, State.postBar, State.post]
  refine ⟨?_, ?_⟩
  · rw [State.postAll_coreSt]
    exact (congrArg (·.queue q) opGone_coreSt).trans (coreWithout_queue ..)
  · exact State.brk_postAll_setBar hgone ..

end completes

/-- R282, R296, R299, R302, R306: an operation completes. -/
theorem matrixOperationCompletes : MatrixOperationCompletes := by
  intro core q s m ms u c hhead hdone hteam hlive hgroup
  have hexec := exec_matrixOperationComplete_eq hhead hdone hteam hlive hgroup
  have hgone := opGone_team (core := core) (q := q) (ms := ms) hteam
  refine ⟨fun n hbar hbrk harr => ⟨_, hexec, False.elim, opArrives_over hteam hbar hbrk harr⟩, fun hfits => ?_⟩
  have hstep {t : State} (ht : opArrives (opGone s core q m ms) m = t) (hpkg : t.pkg = s.pkg) (hctxs : t.ctxs = s.ctxs) :
      exec (.matrixOperationComplete core q) s = .next t.wake :=
    hexec.trans (ht.symm ▸ State.didPosting_of_same u.ctx hpkg hctxs)
  by_cases hcounts : ∃ n, m.bar = some n ∧ (look {} u.bars n).brk = false
  · obtain ⟨n, hbar, hbrk⟩ := hcounts
    have harr := (hfits n hbar).resolve_left (by simp [hbrk])
    have harrives := (opArrives_eq hbar).trans (State.deviceArrive_counted hgone n [(opGone s core q m ms).opSide m] hbrk harr)
    have hset := State.team?_setBar hgone n (Barrier.check { (opGone s core q m ms).carriedBy (u.bar n)
      [(opGone s core q m ms).opSide m] with arr := (u.bar n).arr + 1 })
    refine ⟨_, hstep harrives rfl rfl, rfl, opGone_coreSt, (congrArg (Option.map Team.mflags) hset :),
      fun hno => by simp [hbar] at hno, fun k hk _ _ => ?_⟩
    obtain rfl := Option.some.inj (hbar.symm.trans hk)
    refine (congrArg (Option.map fun v : Team => look {} v.bars n) hset).trans ?_
    rw [Option.map_some, look_keep_self, opGone_opSide hteam]
    rfl
  · have hsame : opArrives (opGone s core q m ms) m = opGone s core q m ms := by
      cases hbar : m.bar with
      | none => exact opArrives_none hbar
      | some n =>
        have hbrk : (look {} u.bars n).brk = true := by simpa [hbar] using hcounts
        rw [opArrives_eq hbar, State.deviceArrive_broken hgone n _ hbrk]
    refine ⟨_, hstep hsame rfl rfl, rfl, opGone_coreSt, (congrArg (Option.map Team.mflags) hgone :), fun _ => ?_,
      fun n hbar hbrk _ => absurd ⟨n, hbar, hbrk⟩ hcounts⟩
    rw [show (opGone s core q m ms).wake.coreSt core = _ from opGone_coreSt]
    rfl

/-- Settles O59: an operation of no K-steps writes each of its tiles once, and an operation that completes leaves its claims and
arrives on its barrier, which ends no team that has groups. -/
theorem matrixOperationsRun : Obligations.MatrixOperationsRun := ⟨matrixOperationBegins, matrixOperationCompletes⟩

end Sys2Proof.Claims
end

section
/-! PROOFS. The entry of a broken record over a write on its way (spec/09 R179, spec/17 R318, spec/20 R359). -/

namespace Sys2Proof.Claims

open Sys2Proof.Machine

/-- A store of the team's group to the first byte of its team's tile region, that is on its way. -/
def regionStore : InWrite :=
  { id := 0, site := { gid := some 4, team := 2, cluster := 3, die := 0 }, lid := 1, tile := some 2, base := 0, len := 1
    cells := [(0, 1)], placed := true }

/-- An MCA write to the first entry of the context's fault ring that has not reached its moment, and that releases the store at
device scope. -/
def ringWrite : InWrite :=
  { id := 1, site := { gid := some 4, team := 2, cluster := 3, die := 0 }, lid := 1, base := 0x20000040, len := 1
    cells := [(0x20000040, 1)], mca := true, placed := true
    rels := [{ site := { gid := some 4, team := 2, cluster := 3, die := 0 }, sc := 4, ids := [0], reads := [] }] }

/-- The package with a launch of one group (log 27) whose writes these are, and with a second launch in its queue, whose record asks
for no cluster, which breaks a limit (R179). -/
def brokenOverWrite : State :=
  let s := State.reset.installProgram
  { s with
    launches := s.launches ++ s.launches.map fun l => { l with id := 5, seq := 2, placed := 0, record := splice l.record 0x28 [0, 0] }
    inflight := [regionStore, ringWrite], nextId := 9 }

/-- The second launch is at the head of its queue, with a broken record. -/
theorem brokenOverWrite_heads : ((brokenOverWrite.launch? 5).any fun l => (brokenOverWrite.ctx? l.ctx).any fun c => decide (
    l.id = 5 ∧ c.phase = .live ∧ brokenOverWrite.atHead l.ctx l.queue l.id = true ∧ l.closed = false ∧ l.allPlaced = false ∧
    l.finished = false ∧ l.cleared = true ∧ l.verdict = none ∧ (l.broken c.desc l.pusherBars).isSome = true)) = true := by
  decide +kernel

/-- Nothing excludes these writes. -/
theorem brokenOverWrite_inv : brokenOverWrite.Inv where
  mem := by unfold State.memOk; decide +kernel
  names := by unfold State.named; decide +kernel
  order := by unfold State.ordered; decide +kernel

/-- The entry is written, and the store has arrived before it. -/
theorem brokenOverWrite_stores : (match exec (.teamPlacement 5 0 0 0) brokenOverWrite with
    | .next t => decide (t.teams = brokenOverWrite.teams)
    | _ => true) = false := by
  decide +kernel

/-- Refutes O13, in its third part: the entry of a broken record is written over an MCA write on its way to the fault ring, which
has its moment before (R359), and the store to a tile region that this write releases arrives before that, so that the teams do not
stay as they were. -/
theorem not_launchesBegin : ¬ Obligations.LaunchesBegin := by
  rintro ⟨-, -, hplaced⟩
  obtain ⟨l, hl, hctx⟩ := (Option.any_eq_true _ _).1 brokenOverWrite_heads
  obtain ⟨c, hc, hheads⟩ := (Option.any_eq_true _ _).1 hctx
  obtain ⟨hid, hlive, hfirst, hopen, hleft, hgoing, hcleared, hverdict, hbroken⟩ := of_decide_eq_true hheads
  obtain ⟨-, hends, -⟩ := hplaced brokenOverWrite l c 0 0 0 ⟨hid ▸ hl, hc, hlive, hfirst, hopen, hleft, hgoing⟩
  obtain ⟨t, hstep, -, -, hteams⟩ := hends hcleared (by simp [hverdict]) hbroken
  have hstores := brokenOverWrite_stores
  rw [← hid, hstep] at hstores
  split at hstores
  next u hu =>
    split at hu
    · cases hu
      exact of_decide_eq_false hstores hteams
    · cases hu
  · cases hstores

end Sys2Proof.Claims
end

section
/-! PROOFS. A launch whose arrival breaks a barrier of number 0xFFFF (spec/09 R181, R195, spec/17 R318). -/

namespace Sys2Proof.Claims

open Sys2Proof.Machine

/-- Barrier 0xFFFF, on which as many arrivals are counted as there can be. -/
def fullBarrier : Barrier := { arr := 65535 }

/-- The package with a launch (log 27) of which nothing runs any more, whose record names barrier 0xFFFF. The team that pushed it
stands for a launch of 65536 barriers, its barrier 0xFFFF is `fullBarrier`, and the context's fault ring is full. -/
def overArrival : State :=
  let s := State.reset.installProgram
  { s with
    groups := [], nextId := 9
    teams := s.teams.map fun t => { t with lid := 5, bars := [(0xFFFF, fullBarrier)] }
    launches := s.launches.map fun l => { l with
      placed := 1, team := some 2, pushBars := 65536
      record := splice (splice l.record 0x3A [0, 0]) 0x18 (leBytes 8 0x50000) }
    ctxs := s.ctxs.map fun c => (c.1, { c.2 with produced := c.2.desc.frCount }) }

/-- The launch meets every condition of its completion; it names no barrier below 0xFFFF. -/
theorem overArrival_ready : ((overArrival.launch? 1).any fun l => (overArrival.ctx? l.ctx).any fun c => decide (
    l.id = 1 ∧ c.phase = .live ∧ l.finished = false ∧ overArrival.launchIdle l = true ∧ c.faultQ = [] ∧ l.forks = [] ∧
    l.chain = 0 ∧ (overArrival.launches.filter fun x => decide (x.ctx = l.ctx ∧ x.queue = l.queue)) = [l] ∧ l.cbar = 0xFFFF ∧
    (overArrival.translate .host c.desc ⟨true, false, none⟩ .write l.recordAddr 32).toOption = some 0x50000)) = true := by
  decide +kernel

theorem overArrival_quiet : overArrival.pkg.orphanQ = [] ∧ overArrival.inflight = [] ∧ overArrival.fencedAt 0x50000 = false := by
  decide +kernel

/-- The arrival is one too many; its entry finds no room, so that the launch waits. -/
theorem overArrival_waits : (match exec (.launchComplete 1) overArrival with
    | .next _ => true
    | _ => false) = false := by
  decide +kernel

/-- Refutes O14, in its first part: where the team that pushed a launch has a barrier of number 0xFFFF, the completion arrives on it
although CBAR names none, and the entry of that barrier, as it breaks, waits for room in the full fault ring (R318). -/
theorem not_launchesEndAndTasksAreDefined : ¬ Obligations.LaunchesEndAndTasksAreDefined := by
  rintro ⟨hcompletes, -⟩
  obtain ⟨l, hl, hctx⟩ := (Option.any_eq_true _ _).1 overArrival_ready
  obtain ⟨c, hc, hready⟩ := (Option.any_eq_true _ _).1 hctx
  obtain ⟨hid, hlive, hgoing, hidle, hqueue, hforks, hchain, honly, hcbar, htranslate⟩ := of_decide_eq_true hready
  obtain ⟨horphans, hinflight, hopen⟩ := overArrival_quiet
  obtain ⟨pa, hpa⟩ : ∃ pa, overArrival.translate .host c.desc ⟨true, false, none⟩ .write l.recordAddr 32 = .ok pa := by
    cases h : overArrival.translate .host c.desc ⟨true, false, none⟩ .write l.recordAddr 32 with
    | ok pa => exact ⟨pa, rfl⟩
    | error e => rw [h] at htranslate; cases htranslate
  obtain rfl : pa = 0x50000 := by rw [hpa] at htranslate; exact Option.some.inj htranslate
  obtain ⟨t, hstep, -⟩ := hcompletes overArrival l c 0x50000 (hid ▸ hl) hc hlive hgoing hidle (by simp [hqueue]) horphans hinflight
    (by simp [hforks]) hchain honly (absurd hcbar) hpa hopen
  have hwaits := overArrival_waits
  rw [← hid, hstep] at hwaits
  cases hwaits

end Sys2Proof.Claims
end

section
/-! PROOFS. A copy command delivers a byte while a write that names a byte twice settles (spec/14 R266, spec/13 R241). -/

namespace Sys2Proof.Claims

open Sys2Proof.Machine

theorem eq_ok_of_toOption {ε α : Type} {e : Except ε α} {a : α} (h : e.toOption = some a) : e = .ok a := by
  cases e with
  | ok b => exact congrArg Except.ok (Option.some.inj h)
  | error _ => cases h

/-- A running COPY at die scope of eight bytes to address 0x50000, of which the engine has read one. -/
def copyOfEight : Cmd :=
  { id := 70, ctx := 0, qid := 5, team := 2, lid := 1, die := 0, core := 0, cluster := 3, corner := 0, teampos := 0, priv := false
    bytes := [1, 0, 0, 0, 0xFF, 0xFF, 0, 0, 3, 0, 0, 0] ++ leBytes 4 8 ++ leBytes 8 0x20000 ++ leBytes 8 0x50000 ++
      List.replicate 32 0
    gslot := 0, state := .running, staged := [7], fetched := 1 }

/-- The package with a launch of one group (log 27), whose team has pushed the COPY, and with a write on its way that every reader
sees and that names a byte of host memory twice. -/
def copyDelivers : State := { State.reset.installProgram with cmds := [copyOfEight], inflight := [twiceWritten], nextId := 90 }

theorem copyDelivers_inv : copyDelivers.Inv where
  mem := by unfold State.memOk; decide +kernel
  names := by unfold State.named; decide +kernel
  order := by unfold State.ordered; decide +kernel

/-- The context of the COPY lets it write its first byte at address 0x50000. -/
theorem copyDelivers_translates : ((copyDelivers.ctx? 0).any fun x => decide (
    (copyDelivers.translate (.socket 0) x.desc ⟨false, true, some 0⟩ .write 0x50000 1).toOption = some 0x50000 ∧
    (copyDelivers.setDirtyAt (.socket 0) x.desc 0x50000).latestBytes hostBase 1 = [1])) = true := by
  decide +kernel

/-- After the delivery the latest value of the byte is the last that the write names. -/
theorem copyDelivers_delivers : (match exec (.delivery 70 1) copyDelivers with
    | .next t => decide (t.latestBytes hostBase 1 = [2])
    | _ => false) = true := by
  decide +kernel

/-- Refutes O15, in the frame of its fifth part: the COPY of `copyDelivers` writes the byte at 0x50000, and the latest value of another
byte changes, as a write that names it twice settles in the same step. Nothing in `State.Inv` excludes such a write. -/
theorem not_copyEnginesReadAndDeliver : ¬ Obligations.CopyEnginesReadAndDeliver := by
  rintro ⟨-, -, -, -, hdelivers, -⟩
  obtain ⟨x, hx, hfinds⟩ := (Option.any_eq_true _ _).1 copyDelivers_translates
  obtain ⟨htranslate, hbefore⟩ := of_decide_eq_true hfinds
  obtain ⟨u, hu⟩ := Option.isSome_iff_exists.1 (show (copyDelivers.team? 2).isSome = true by decide +kernel)
  obtain ⟨hwrites, -⟩ := hdelivers copyDelivers copyOfEight x u 1 (by decide +kernel) hx hu (by decide) rfl (by decide +kernel)
    copyDelivers_inv (by decide +kernel) rfl (by decide +kernel) (.inl rfl) (by decide) (by decide) (by decide +kernel)
    (by decide +kernel) (by decide +kernel)
  obtain ⟨t, hstep, -, -, -, hframe⟩ := hwrites (by decide +kernel) (by decide +kernel) (by decide +kernel) 0x50000
    (eq_ok_of_toOption htranslate) (by decide +kernel) (by decide +kernel)
  have hafter := copyDelivers_delivers
  rw [show exec (.delivery 70 1) copyDelivers = .next t from hstep] at hafter
  have hsame := (of_decide_eq_true hafter).symm.trans (hframe hostBase (by decide))
  exact absurd (hsame.trans hbefore) (by decide)

end Sys2Proof.Claims
end

section
/-! PROOFS. The numbers that a K-step adds up (spec/15 R286, R290). -/

namespace Sys2Proof.Machine

/-- Bit `i` of the number that bytes denote. -/
theorem testBit_ofLe (bs : List Byte) : ∀ i, (ofLe bs).testBit i = (bs.getD (i / 8) 0).getLsbD (i % 8) := by
  induction bs with
  | nil => simp [ofLe]
  | cons b bs ih =>
    intro i
    have hsum : ofLe (b :: bs) = 2 ^ 8 * ofLe bs + b.toNat := by rw [ofLe]; omega
    rw [hsum, Nat.testBit_two_pow_mul_add _ b.isLt]
    split_ifs with hi
    · rw [Nat.div_eq_of_lt hi, Nat.mod_eq_of_lt hi]; rfl
    · obtain ⟨j, rfl⟩ := Nat.exists_eq_add_of_le (Nat.le_of_not_lt hi)
      rw [show 8 + j - 8 = j by omega, ih, show (8 + j) / 8 = j / 8 + 1 by omega, show (8 + j) % 8 = j % 8 by omega,
        List.getD_cons_succ]

/-- An element that lies within one byte. -/
theorem bitsOf_ofLe (bs : List Byte) {lo n : Nat} (h : lo % 8 + n ≤ 8) :
    BitVec.ofNat n (bitsOf (ofLe bs) lo n) = (bs.getD (lo / 8) 0).extractLsb' (lo % 8) n := by
  refine BitVec.eq_of_getLsbD_eq fun k hk => ?_
  rw [BitVec.getLsbD_ofNat, Claims.testBit_bitsOf, testBit_ofLe, BitVec.getLsbD_extractLsb',
    show (lo + k) / 8 = lo / 8 by omega, show (lo + k) % 8 = lo % 8 + k by omega]
  simp [hk]

/-- The elements of an INT8 line are its bytes. -/
theorem signed_lineCodes_int8 (b : Nat → Byte) :
    (lineCodes 5 ((List.range 32).map b)).map (signed 8) = (List.range 32).map fun j => (b j).toInt := by
  rw [lineCodes, List.map_map]
  refine List.map_congr_left fun j hj => ?_
  have hlt : j < 32 := List.mem_range.1 hj
  rw [Function.comp_apply, show mxWidth 5 = 8 from rfl, Claims.signed_eq_toInt (by decide), bitsOf_ofLe _ (by omega),
    Nat.mul_div_cancel_left j (by decide), Nat.mul_mod_right, BitVec.extractLsb'_eq_self]
  simp [hlt]

/-- Those of an INT4 line are the halves of its bytes, the low half first. -/
theorem signed_lineCodes_int4 (b : Nat → Byte) :
    (lineCodes 6 ((List.range 16).map b)).map (signed 4) =
      (List.range 32).map fun j => ((b (j / 2)).extractLsb' (4 * (j % 2)) 4).toInt := by
  rw [lineCodes, List.map_map]
  refine List.map_congr_left fun j hj => ?_
  have hlt : j / 2 < 16 := by have := List.mem_range.1 hj; omega
  rw [Function.comp_apply, show mxWidth 6 = 4 from rfl, Claims.signed_eq_toInt (by decide), bitsOf_ofLe _ (by omega),
    show 4 * j / 8 = j / 2 by omega, show 4 * j % 8 = 4 * (j % 2) by omega]
  simp [hlt]

/-- A K-step of integers adds the sum of the products of two lines (R290). -/
theorem MOp.addInt_eq (m : MOp) {a b : MLine} (acc : W32) {f g : Nat → Int}
    (ha : a.codes.map (signed (mxWidth m.afmt)) = (List.range 32).map f)
    (hb : b.codes.map (signed (mxWidth m.afmt)) = (List.range 32).map g) :
    m.addInt a b acc = acc + BitVec.ofInt 32 ((List.range 32).map fun j => f j * g j).sum := by
  have hzip : (a.codes.zip b.codes).map (fun e => signed (mxWidth m.afmt) e.1 * signed (mxWidth m.afmt) e.2) =
      (List.range 32).map fun j => f j * g j := calc
    _ = ((a.codes.map (signed (mxWidth m.afmt))).zip (b.codes.map (signed (mxWidth m.afmt)))).map fun e => e.1 * e.2 := by
      rw [List.zip_map, List.map_map]; rfl
    _ = _ := by rw [ha, hb, List.zip_map', List.map_map]; rfl
  rw [MOp.addInt, ← hzip, List.sum_eq_foldl, List.foldl_map]
  rfl

end Sys2Proof.Machine
end

section
/-! PROOFS. What a K-step reads and writes (spec/15 R237, R244, R290, R298). -/

namespace Sys2Proof.Machine

/-! ### What arrives before and while it reads -/

@[simp] theorem State.stirTile_besidesPerforming (s : State) (team : Nat) :
    (s.stirTile team).besidesPerforming = s.besidesPerforming :=
  foldl_keeps State.besidesPerforming (fun t w => by simp) _ s

theorem State.summonAll_besidesPerforming {s t : State} {me : Site} {hit : InWrite → Bool} (h : s.summonAll me hit = some t) :
    t.besidesPerforming = s.besidesPerforming := by
  simp only [State.summonAll] at h
  split at h
  · cases h
    exact foldl_keeps State.besidesPerforming (fun t w => by simp) _ s
  · cases h

/-- Nothing arrives first where no write of the place has been performed toward the reader alone. -/
theorem State.summonAll_of_free {s : State} {hit : InWrite → Bool} (h : ∀ v ∈ s.inflight, v.owed = 0 ∨ hit v = false) (me : Site) :
    s.summonAll me hit = some s := by
  have hnone : s.owing me hit = [] := List.filter_eq_nil_iff.2 fun v hv => by
    obtain h | h := h v hv <;> simp [InWrite.owedTo, h]
  simp [State.summonAll, hnone]

/-! ### The queue that runs, and the elements that it writes -/

theorem CoreSt.pick_of_runnable {c : CoreSt} {q : Bool} {m : MOp} (hrun : c.runnable q = some m)
    (hq : q = true ↔ (c.runnable true).isSome = true ∧ ((c.runnable false).isNone = true ∨ c.mqratio - 1 ≤ c.q0run)) :
    c.pick = some q := by
  cases q with
  | false =>
    cases hone : c.runnable true with
    | none => simp [CoreSt.pick, hrun, hone]
    | some k => simpa [CoreSt.pick, hrun, hone] using hq
  | true =>
    cases hzero : c.runnable false with
    | none => simp [CoreSt.pick, hrun, hzero]
    | some k => simpa [CoreSt.pick, hrun, hzero] using hq

/-- An element of a target before the step adds to it. -/
def MOp.start (m : MOp) (t : Tile) (r n : Nat) : W32 := if m.step = 0 ∧ m.acc = false then 0 else t.at r n

/-- The elements of each target after a step. -/
theorem MOp.at_write {m : MOp} (c : CoreSt) (f : Option Nat → Nat → Nat → W32 → W32) {k : Option Nat}
    (hk : ∀ j, k = some j → j < m.tans) {r n : Nat} (hr : r < (c.part m.td k).h) (hn : n < min (c.part m.td k).w 64) :
    ((m.write c f).part m.td k).at r n =
      if r < m.rows ∧ n < m.cols then f k r n (m.start (c.part m.td k) r n)
      else if m.step = 0 ∧ m.z = true then 0 else (c.part m.td k).at r n := by
  have htile : (m.write c f).part m.td k = m.retile (c.part m.td k) (f k) := by
    cases k with
    | none => exact (m.tile_write c f m.td).1 (m.td, none) List.mem_cons_self rfl
    | some j =>
      have hmem : (m.td + 1 + j, some j) ∈ m.targets :=
        List.mem_cons_of_mem _ (List.mem_map.2 ⟨j, List.mem_range.2 (hk j rfl), rfl⟩)
      exact (m.tile_write c f (m.td + 1 + j)).1 _ hmem rfl
  rw [htile, MOp.retile, Tile.at_build _ hr hn]
  simp only [MOp.start, Bool.and_eq_true, decide_eq_true_eq, Bool.not_eq_true']

/-- A K-step is one write of the targets, of the sums of the lines of its rows and columns (R290). -/
theorem MOp.run_eq (m : MOp) (rd : Reader) (c : CoreSt) : ∃ f, (m.run rd c).1 = m.write c f ∧
    ∀ k r n x, r < m.rows → n < m.cols → f k r n x = (m.add (m.aLine rd c r).1 (m.bLine rd n) k x).1 := by
  refine ⟨fun k r n x => (m.add (((List.range m.rows).map (m.aLine rd c)).getD r ({ codes := [] }, [])).1
    (((List.range m.cols).map (m.bLine rd)).getD n { codes := [] }) k x).1, rfl, fun k r n x hr hn => ?_⟩
  simp [hr, hn]

end Sys2Proof.Machine

namespace Sys2Proof.Claims

open Sys2Proof.Machine

/-- The core after a step of the head of a queue, which becomes `m'`. -/
def stepped (c c' : CoreSt) (q : Bool) (m' : MOp) : CoreSt :=
  { c'.setHead q m' with q0run := if !q && (c.runnable true).isSome then c.q0run + 1 else 0 }

section step
variable {core : Nat} {s : State} {q : Bool} {m : MOp} {ms : List MOp} {u : Team} {x : Ctx}

/-- A step of the head of a queue, which becomes `m'`, writes tiles and nothing else of its core. -/
theorem stepped_write {c : CoreSt} (hhead : c.queue q = m :: ms) (f : Option Nat → Nat → Nat → W32 → W32) (m' : MOp) :
    (stepped c (m.write c f) q m').queue q = m' :: ms ∧ (stepped c (m.write c f) q m').queue (!q) = c.queue (!q) ∧
    (stepped c (m.write c f) q m').claims = c.claims ∧
    ∀ k, (stepped c (m.write c f) q m').tile k = (m.write c f).tile k := by
  obtain ⟨ts, hts⟩ := m.write_rest c f
  have hqueue : (m.write c f).queue q = m :: ms := by rw [hts]; exact hhead
  rw [stepped, CoreSt.setHead_eq hqueue, hts]
  cases q <;> exact ⟨rfl, rfl, rfl, fun _ => rfl⟩

/-- What an operation needs to take the next K-step of its core. -/
structure Steps (s : State) (core : Nat) (q : Bool) (m : MOp) (u : Team) (x : Ctx) : Prop where
  pick : (s.coreSt core).pick = some q
  runs : (s.coreSt core).runnable q = some m
  started : m.started = true
  team : s.team? m.team = some u
  live : s.teamLive m.team = true
  ctx : s.ctx? u.ctx = some x
  refresh : m.bsp = false ∨ (s.dieSt u.die).refresh = none

/-- Where the slice of a context begins in the weight store of the team's die. -/
def sliceBase (x : Ctx) (u : Team) : Nat := (x.desc.ws.getD u.die (0, 0)).1 * 65536

theorem Steps.goes (h : Steps s core q m u x) : (!m.started || !s.teamLive m.team ||
    m.refreshWait ((((s.ctx? u.ctx).map fun x => x.desc.ws.getD u.die (0, 0)).getD (0, 0)).1 * 65536)
      (s.dieSt u.die).refresh) = false := by
  have hwait (base : Nat) : m.refreshWait base (s.dieSt u.die).refresh = false := by
    obtain h | h := h.refresh <;> simp [MOp.refreshWait, h]
  simp [h.started, h.live, hwait]

/-- A K-step whose data have no error. -/
theorem exec_kStep_eq (h : Steps s core q m u x) {s1 : State}
    (hs1 : s.summonAll (s.opSite m) (fun v => v.tile == some m.team) = some s1) :
    let r := m.run (s1.reader (s1.stirTile m.team) m u (sliceBase x u)) (s.coreSt core)
    exec (.kStep core false) s = .next (({ s1.stirTile m.team with free := (s1.stirTile m.team).free + 1 }).setCore core
      (stepped (s.coreSt core) r.1 q
        { m with step := m.step + 1, done := decide (m.count ≤ m.step + 1), flags := m.flags ||| r.2 })).wake := by
  simp only [exec_kStep, execKStep, h.pick, h.runs, Option.bind_some, h.team, h.goes, hs1, Bool.false_eq_true, if_false]
  rw [h.ctx]
  rfl

/-- The state of a K-step that has met an error, before its entry is posted. -/
def stepFailed (s : State) (core : Nat) (q : Bool) (m : MOp) : State :=
  s.setCore core (stepped (s.coreSt core) (m.write (s.coreSt core) fun _ _ _ _ => 0) q { m with done := true })

/-- A K-step that meets an error (R300). -/
theorem exec_kStep_err (h : Steps s core q m u x) :
    exec (.kStep core true) s = (stepFailed s core q m).didPosting u.ctx
      (((stepFailed s core q m).post u.ctx (m.posting u (((s.launch? u.lid).map (·.seq)).getD 0) q)).failLaunch u.lid) := by
  simp only [exec_kStep, execKStep, h.pick, h.runs, Option.bind_some, h.team, h.goes, Bool.false_eq_true, if_false, if_true]
  rfl

end step

end Sys2Proof.Claims
end

section
/-! PROOFS. K-steps (spec/15 R290 to R300), and a launch that fails after an entry is posted (spec/17 R318, R354). -/

namespace Sys2Proof.Machine

/-! ### A launch that fails -/

/-- A launch as a fault of its work leaves it. -/
def Launch.failed (l : Launch) : Launch := { l with fate := worse l.fate 1 }

theorem worse_worse (fate : Option Nat) : worse (worse fate 1) 1 = worse fate 1 := by
  cases fate with
  | none => rfl
  | some k =>
    by_cases hk : k = 4
    · subst hk; rfl
    · have hstays : worse (some k) 1 = some k := worse.eq_3 1 k hk
      rw [hstays, hstays]

theorem Launch.failed_failed (l : Launch) : l.failed.failed = l.failed := by
  simp only [Launch.failed, worse_worse]

theorem drainOrphans_launches (os : List Orphan) : ∀ s : State, (drainOrphans os s).launches = s.launches := by
  induction os with
  | nil => exact fun _ => rfl
  | cons o os ih =>
    intro s
    unfold drainOrphans
    split
    · exact (ih _).trans (foldl_keeps State.launches (f := State.interrupt) (fun _ _ => rfl) _ _)
    · rfl

theorem State.writeEntry_launches (s : State) (c : Ctx) (p : Posting) : (s.writeEntry c p).1.launches = s.launches := by
  have hraw (t : State) (a : Nat) (bs : List Byte) : (t.writeRaw a bs).launches = t.launches :=
    State.eq_of_besidesWrites State.launches (fun _ => rfl) (t.writeRaw_besidesWrites a bs)
  unfold State.writeEntry
  dsimp only
  split
  · exact drainOrphans_launches _ s
  · have hints (t : State) (v : Nat) : (t.interrupt v).launches = t.launches := rfl
    rw [hints, hraw, hraw]

theorem State.lostEntry_failed (s : State) (n : Nat) (p : Posting) :
    (s.lostEntry n p).launches.map Launch.failed = s.launches.map Launch.failed := by
  simp only [State.lostEntry, List.map_map]
  refine List.map_congr_left fun l _ => ?_
  rw [Function.comp_apply]
  split
  exacts [l.failed_failed, rfl]

/-- Posting entries fails launches at most (R354). -/
theorem State.postAll_failed (s : State) (n : Nat) (ps : List Posting) :
    (s.postAll n ps).launches.map Launch.failed = s.launches.map Launch.failed := by
  have hdrain (ps : List Posting) : ∀ x : State × Ctx,
      (drainFaults ps x).1.launches.map Launch.failed = x.1.launches.map Launch.failed := by
    induction ps with
    | nil => exact fun _ => rfl
    | cons p ps ih =>
      intro x
      unfold drainFaults
      split_ifs
      · exact (ih _).trans (State.lostEntry_failed ..)
      · exact (ih _).trans (congrArg _ (x.1.writeEntry_launches x.2 p))
      · rfl
  unfold State.postAll
  split
  · rfl
  · exact hdrain _ _

/-- A launch without a fate completes FAULT after the entry of its failure, whatever that entry has met. -/
theorem State.fate_failLaunch_postAll {s : State} {id : Nat} {l : Launch} (hl : s.launch? id = some l) (hfate : l.fate = none)
    (n : Nat) (ps : List Posting) : (((s.postAll n ps).failLaunch id).launch? id).map (·.fate) = some (some 1) := by
  have hfind (t : State) : (t.launches.map Launch.failed).find? (fun l => decide (l.id = id)) = (t.launch? id).map Launch.failed :=
    List.find?_map ..
  have hsame := (hfind (s.postAll n ps)).symm.trans ((congrArg _ (s.postAll_failed n ps)).trans (hfind s))
  rw [hl, Option.map_some, Option.map_eq_some_iff] at hsame
  obtain ⟨k, hk, hfailed⟩ := hsame
  have hafter : ((s.postAll n ps).failLaunch id).launch? id = some k.failed :=
    State.launch?_onLaunch Launch.failed (fun _ => rfl) hk
  rw [hafter, hfailed, Option.map_some, Launch.failed, hfate]
  rfl

/-! ### The lines of an operation -/

theorem MOp.codes_aLine {m : MOp} {r line : Nat} (hta : m.ta = none) (hline : m.rowOf.getD r none = some line) (rd : Reader)
    (c : CoreSt) : (m.aLine rd c r).1.codes = lineCodes m.afmt (rd false (m.aAt m.step line) (mxLine m.afmt)) := by
  rw [MOp.aLine, hta]
  simp only [hline]
  rfl

/-- An element of INT8 lines from tile memory after a step. -/
theorem MOp.add_int8 {m : MOp} (ha : m.afmt = 5) {a b : MLine} {x y : Nat → Byte} (hx : a.codes = lineCodes 5 ((List.range 32).map x))
    (hy : b.codes = lineCodes 5 ((List.range 32).map y)) (acc : W32) :
    (m.add a b none acc).1 = acc + BitVec.ofInt 32 ((List.range 32).map fun j => (x j).toInt * (y j).toInt).sum := by
  have hint : mxInt m.afmt = true := by rw [ha]; rfl
  rw [MOp.add, if_pos hint]
  refine m.addInt_eq acc ?_ ?_ <;> rw [ha]
  exacts [hx ▸ signed_lineCodes_int8 x, hy ▸ signed_lineCodes_int8 y]

/-- An element of INT4 lines from tile memory after a step. -/
theorem MOp.add_int4 {m : MOp} (ha : m.afmt = 6) {a b : MLine} {x y : Nat → Byte} (hx : a.codes = lineCodes 6 ((List.range 16).map x))
    (hy : b.codes = lineCodes 6 ((List.range 16).map y)) (acc : W32) :
    (m.add a b none acc).1 = acc + BitVec.ofInt 32 ((List.range 32).map fun j =>
      ((x (j / 2)).extractLsb' (4 * (j % 2)) 4).toInt * ((y (j / 2)).extractLsb' (4 * (j % 2)) 4).toInt).sum := by
  have hint : mxInt m.afmt = true := by rw [ha]; rfl
  rw [MOp.add, if_pos hint]
  refine m.addInt_eq acc ?_ ?_ <;> rw [ha]
  exacts [hx ▸ signed_lineCodes_int4 x, hy ▸ signed_lineCodes_int4 y]

end Sys2Proof.Machine

namespace Sys2Proof.Claims

open Sys2Proof.Machine

section step
variable {core : Nat} {s : State} {q : Bool} {m : MOp} {ms : List MOp} {u : Team} {x : Ctx}

theorem stepped_part {c : CoreSt} (hhead : c.queue q = m :: ms) (f : Option Nat → Nat → Nat → W32 → W32) (m' : MOp) (k : Option Nat) :
    (stepped c (m.write c f) q m').part m.td k = (m.write c f).part m.td k := by
  obtain ⟨-, -, -, htile⟩ := stepped_write hhead f m'
  cases k <;> exact htile _

/-- R300: a K-step that meets an error. -/
theorem kStep_fails (h : Steps s core q m u x) (hhead : (s.coreSt core).queue q = m :: ms) {l : Launch} (hl : s.launch? u.lid = some l)
    (hfate : l.fate = none) : LeadsSurely u.ctx (x.desc.ctx = u.ctx ∧ x.faultQ = [] ∧ s.pkg.orphanQ = [] ∧ x.desc.ringOk = true ∧
      s.ringFenced x = false ∧ s.entryRoom x = true) (.kStep core true) s fun t =>
    (t.coreSt core).queue q = { m with done := true } :: ms ∧ (t.launch? u.lid).map (·.fate) = some (some 1) ∧
    ∀ r < ((s.coreSt core).part m.td none).h, ∀ n < min ((s.coreSt core).part m.td none).w 64, r < m.rows → n < m.cols →
      ((t.coreSt core).tile m.td).at r n = 0 := by
  refine ⟨_, exec_kStep_err h, ?_, ?_⟩
  · rintro ⟨-, hq, horphans, hring, hopen, hroom⟩
    exact (State.postedBy_postAll_one (s := stepFailed s core q m) h.ctx hring hq _ hopen horphans).trans hroom
  · have hcore : ∀ ps, ((stepFailed s core q m).postAll u.ctx ps).coreSt core = _ := fun ps =>
      ((stepFailed s core q m).postAll_coreSt u.ctx ps core).trans (look_keep_self ..)
    obtain ⟨hqueue, -, -, -⟩ := stepped_write (c := s.coreSt core) hhead (fun _ _ _ _ => 0) { m with done := true }
    refine ⟨(congrArg (·.queue q) (hcore _)).trans hqueue, State.fate_failLaunch_postAll (s := stepFailed s core q m) hl hfate _ _,
      fun r hr n hn hrow hcol => ?_⟩
    have hat := MOp.at_write (m := m) (s.coreSt core) (fun _ _ _ _ => 0) (k := none) (by simp) hr hn
    rw [if_pos ⟨hrow, hcol⟩, ← stepped_part hhead _ { m with done := true }] at hat
    exact (congrArg (fun c : CoreSt => (c.tile m.td).at r n) (hcore _)).trans hat

end step

/-- Settles O11: a K-step writes its targets once, each element from the lines of its row and its column, which it finds as stores
arrive; of INT8 and INT4 lines the codes are bytes and halves of bytes. -/
theorem kSteps : Obligations.KSteps := by
  intro core s q m ms u x c old hhead hruns hstarted hteam hlive hctx hq hrefresh
  have h : Steps s core q m u x := ⟨CoreSt.pick_of_runnable hruns hq, hruns, hstarted, hteam, hlive, hctx, hrefresh⟩
  have hold (k : Option Nat) : old k = c.part m.td k := by cases k <;> rfl
  refine ⟨fun s1 hs1 => ?_, fun hfree => State.summonAll_of_free (fun v hv => (hfree v hv).imp_right (by simp)) _,
    fun l hl hfate => kStep_fails h hhead hl hfate⟩
  intro s2 rd
  have hsame : s2.besidesPerforming = s.besidesPerforming :=
    (s1.stirTile_besidesPerforming m.team).trans (State.summonAll_besidesPerforming hs1)
  obtain ⟨f, hf, hsum⟩ := m.run_eq rd c
  obtain ⟨u', hu', hbare⟩ := State.team?_of_besidesPerforming hsame hteam
  have hflags : u'.mflags = u.mflags := (congrArg Team.mflags hbare :)
  let m' (flags : Flags) : MOp := { m with step := m.step + 1, done := decide (m.count ≤ m.step + 1), flags := m.flags ||| flags }
  obtain ⟨hqueue, hother, hclaims, htile⟩ := stepped_write hhead f (m' (m.run rd c).2)
  obtain ⟨t, ht, hcore, hmem, hws, hu⟩ : ∃ t, exec (.kStep core false) s = .next t ∧
      t.coreSt core = stepped c (m.write c f) q (m' (m.run rd c).2) ∧ t.mem = s2.mem ∧ t.ws = s.ws ∧ t.team? m.team = some u' := by
    refine ⟨_, exec_kStep_eq h hs1, ?_, rfl, (congrArg State.ws hsame :), hu'⟩
    rw [← hf]
    exact look_keep_self ..
  refine ⟨t, (m.run rd c).2, ht, hmem, hws, by rw [hu, Option.map_some, hflags], hcore ▸ hqueue, hcore ▸ hother, hcore ▸ hclaims,
    fun k hk => ?_, ?_⟩
  · rw [hcore, htile]
    exact (m.tile_write c f k).2 (MOp.not_mem_targets hk)
  · intro k hk r hr n hn y start
    have hy : y = if r < m.rows ∧ n < m.cols then f k r n start
        else if m.step = 0 ∧ m.z = true then 0 else (old k).at r n := by
      rw [hold] at hr hn
      have hat := MOp.at_write c f hk hr hn
      rw [← stepped_part hhead f (m' (m.run rd c).2), ← hcore, ← hold] at hat
      refine Eq.trans ?_ hat
      cases k <;> rfl
    have hadds (hrow : r < m.rows) (hcol : n < m.cols) : y = (m.add (m.aLine rd c r).1 (m.bLine rd n) k start).1 := by
      rw [hy, if_pos ⟨hrow, hcol⟩, hsum k r n _ hrow hcol]
    refine ⟨fun hno => by rw [hy, if_neg hno], hadds, ?_⟩
    intro hrow hcol hk hfmt hta hbsp line hline byte half
    subst hk
    have ha := MOp.codes_aLine hta hline rd c
    have hb : (m.bLine rd n).codes = lineCodes m.afmt (rd false (m.bAt m.step n) (mxLine m.afmt)) := by
      rw [hfmt, ← hbsp]; rfl
    refine ⟨fun h5 => ?_, fun h6 => ?_⟩
    · rw [MOp.aAt, lineAt, h5] at ha
      rw [MOp.bAt, lineAt, ← hfmt, h5] at hb
      exact (hadds hrow hcol).trans (MOp.add_int8 h5 ha hb start)
    · rw [MOp.aAt, lineAt, h6] at ha
      rw [MOp.bAt, lineAt, ← hfmt, h6] at hb
      exact (hadds hrow hcol).trans (MOp.add_int4 h6 ha hb start)

end Sys2Proof.Claims
end

section
/-! PROOFS. Bytes of writes on their way: what settling does to them (spec/13 R241; log 6). -/

namespace Sys2Proof.Machine

/-! ### Cells -/

theorem look?_eq_none {α : Type} {m : List (Nat × α)} {k : Nat} : look? m k = none ↔ ∀ e ∈ m, e.1 ≠ k := by
  induction m with
  | nil => simp [look?]
  | cons e m ih => by_cases h : e.1 = k <;> simp [look?, h, ih]

/-- The entry of a key that the table lists once. -/
theorem look?_of_mem {α : Type} {m : List (Nat × α)} (hnodup : (m.map (·.1)).Nodup) {e : Nat × α} (he : e ∈ m) :
    look? m e.1 = some e.2 := by
  induction m with
  | nil => cases he
  | cons f m ih =>
    obtain ⟨hf, hm⟩ := List.nodup_cons.1 hnodup
    obtain rfl | he := List.mem_cons.1 he
    · simp [look?]
    · have hne : f.1 ≠ e.1 := fun h => hf (List.mem_map.2 ⟨e, he, h.symm⟩)
      simp [look?, hne, ih hm he]

/-- Leaving out entries by their keys. -/
theorem look?_filter {α : Type} (p : Nat → Bool) (m : List (Nat × α)) (k : Nat) :
    look? (m.filter fun e => p e.1) k = if p k then look? m k else none := by
  induction m with
  | nil => simp [look?]
  | cons e m ih =>
    by_cases hk : e.1 = k
    · subst hk
      cases hp : p e.1 <;> simp [look?, hp, ih]
    · cases hp : p e.1 <;> simp [look?, hp, hk, ih]

/-- Cells written in a table leave the other keys alone. -/
theorem look_foldl_keep_other {α : Type} [DecidableEq α] {d : α} {cs : List (Nat × α)} {k : Nat} (h : look? cs k = none) :
    ∀ m, look d (cs.foldl (fun m c => keep d m c.1 c.2) m) k = look d m k := by
  rw [look?_eq_none] at h
  intro m
  refine List.foldlRecOn cs _ (motive := fun t => look d t k = look d m k) rfl fun t ht c hc => ?_
  rw [look_keep_other _ _ _ (h c hc).symm, ht]

/-- Cells of different keys written in a table are found there. -/
theorem look_foldl_keep {α : Type} [DecidableEq α] {d : α} {k : Nat} {v : α} {cs : List (Nat × α)}
    (hnodup : (cs.map (·.1)).Nodup) (h : look? cs k = some v) :
    ∀ m, look d (cs.foldl (fun m c => keep d m c.1 c.2) m) k = v := by
  induction cs with
  | nil => simp [look?] at h
  | cons c cs ih =>
    obtain ⟨hc, hcs⟩ := List.nodup_cons.1 hnodup
    intro m
    by_cases hk : c.1 = k
    · subst hk
      have hno : look? cs c.1 = none := look?_eq_none.2 fun e he hek => hc (List.mem_map.2 ⟨e, he, hek⟩)
      have hv : c.2 = v := by simpa [look?] using h
      rw [List.foldl_cons, look_foldl_keep_other hno, look_keep_self, hv]
    · exact ih hcs (by simpa [look?, hk] using h) _

/-! ### Settling one write -/

/-- The byte of memory or of a tile region, whatever is on its way. -/
def State.placeByte (s : State) (tile : Option Nat) (a : Nat) : Byte :=
  match tile with
  | none => Memory.read s.mem a
  | some t => ((s.team? t).map fun u => look 0 u.tile a).getD 0

/-- Whether the place that a write has is there: memory, or the tile region of a team that has not retired. -/
def State.placeIs (s : State) (tile : Option Nat) : Prop := ∀ t, tile = some t → (s.team? t).isSome = true

/-- A write without the bytes that another covers. -/
def InWrite.without (x w : InWrite) : InWrite := { x with cells := x.cells.filter fun c => !w.covers x c }

theorem InWrite.look?_without (x w : InWrite) (a : Nat) :
    look? (x.without w).cells a = if w.tile = x.tile ∧ look? w.cells a ≠ none then none else look? x.cells a := by
  have hany : (w.cells.any fun d => decide (d.1 = a)) = true ↔ look? w.cells a ≠ none := by
    rw [ne_eq, look?_eq_none]; simp
  have hfilter := look?_filter (fun k => !(w.tile == x.tile && w.cells.any fun d => decide (d.1 = k))) x.cells a
  rw [InWrite.without]
  refine hfilter.trans ?_
  by_cases h : w.tile = x.tile ∧ look? w.cells a ≠ none
  · rw [if_pos h, if_neg (by simp [h.1, hany.2 h.2])]
  · rw [if_neg h, if_pos]
    rw [← hany, not_and_or, Bool.not_eq_true] at h
    obtain h | h := h <;> simp [h]

/-- A team with cells written in its tile region. -/
def Team.putCells (cells : List Host.Cell) (u : Team) : Team :=
  { u with tile := cells.foldl (fun m c => keep 0 m c.1 c.2) u.tile }

theorem State.team?_putCells (s : State) (cells : List Host.Cell) (id k : Nat) : (s.onTeam id (Team.putCells cells)).team? k =
    (s.team? k).map fun u => if u.id = id then u.putCells cells else u := State.team?_onTeam (f := Team.putCells cells) (fun _ => rfl) id k

/-- Settling the first write of its name. -/
theorem State.settleWrite_eq {s : State} {pre post : List InWrite} {w : InWrite} (hlist : s.inflight = pre ++ w :: post)
    (hpre : ∀ x ∈ pre, x.id ≠ w.id) : s.settleWrite w.id =
      let t : State := { s with inflight := pre.map (fun x => x.without w) ++ post }
      match w.tile with
      | some k => t.onTeam k (Team.putCells w.cells)
      | none => { t with mem := Memory.writeCells t.mem w.cells } := by
  have hfind : s.inflight.find? (fun x => decide (x.id = w.id)) = some w := by
    rw [hlist, List.find?_append, List.find?_eq_none.2 (by simpa using hpre)]
    simp
  have htake : s.inflight.takeWhile (fun x => decide (x.id ≠ w.id)) = pre := by
    rw [hlist, List.takeWhile_append_of_pos (by simpa using hpre)]
    simp
  have hdrop : (s.inflight.dropWhile fun x => decide (x.id ≠ w.id)).drop 1 = post := by
    rw [hlist, List.dropWhile_append_of_pos (by simpa using hpre)]
    simp
  rw [State.settleWrite, hfind]
  simp only [htake, hdrop]
  rfl

theorem State.settleWrite_of_absent {s : State} {id : Nat} (h : ∀ x ∈ s.inflight, x.id ≠ id) : s.settleWrite id = s := by
  rw [State.settleWrite, List.find?_eq_none.2 (by simpa using h)]

/-- A name is that of no write, or of a first one. -/
theorem State.split_of_id (s : State) (id : Nat) : (∀ x ∈ s.inflight, x.id ≠ id) ∨
    ∃ pre w post, s.inflight = pre ++ w :: post ∧ (∀ x ∈ pre, x.id ≠ id) ∧ w.id = id := by
  cases h : s.inflight.find? fun x => decide (x.id = id) with
  | none => exact .inl (by simpa using List.find?_eq_none.1 h)
  | some w =>
    obtain ⟨hw, pre, post, hlist, hpre⟩ := List.find?_eq_some_iff_append.1 h
    exact .inr ⟨pre, w, post, hlist, by simpa using hpre, by simpa using hw⟩

section settle
variable {s : State} {pre post : List InWrite} {w : InWrite} (hlist : s.inflight = pre ++ w :: post)
  (hpre : ∀ x ∈ pre, x.id ≠ w.id)
include hlist hpre

theorem State.settleWrite_inflight : (s.settleWrite w.id).inflight = pre.map (fun x => x.without w) ++ post := by
  rw [State.settleWrite_eq hlist hpre]
  dsimp only
  split <;> rfl

theorem State.settleWrite_placeIs {tile : Option Nat} (h : s.placeIs tile) : (s.settleWrite w.id).placeIs tile := by
  intro t ht
  rw [State.settleWrite_eq hlist hpre]
  dsimp only
  split
  · rw [State.team?_putCells, Option.isSome_map]
    exact h t ht
  · exact h t ht

/-- A write that settles elsewhere, or does not cover a byte, leaves it alone. -/
theorem State.settleWrite_placeByte_other {tile : Option Nat} {a : Nat} (h : w.tile = tile → look? w.cells a = none) :
    (s.settleWrite w.id).placeByte tile a = s.placeByte tile a := by
  rw [State.settleWrite_eq hlist hpre]
  dsimp only
  split
  next k hk =>
    cases tile with
    | none => rfl
    | some t =>
      simp only [State.placeByte, State.team?_putCells, Option.map_map]
      refine congrArg (fun o : Option Byte => o.getD 0) (Option.map_congr fun u hu => ?_)
      have hid : u.id = t := by simpa [State.team?] using List.find?_some hu
      by_cases hkt : u.id = k
      · simp only [Function.comp_apply, if_pos hkt]
        exact look_foldl_keep_other (h (by rw [hk, ← hkt, hid])) _
      · simp only [Function.comp_apply, if_neg hkt]
  next hk =>
    cases tile with
    | none => exact look_foldl_keep_other (h hk) _
    | some t => rfl

/-- A write that settles brings its bytes. -/
theorem State.settleWrite_placeByte {a : Nat} {b : Byte} (hnodup : (w.cells.map (·.1)).Nodup) (hlook : look? w.cells a = some b)
    (h : s.placeIs w.tile) : (s.settleWrite w.id).placeByte w.tile a = b := by
  rw [State.settleWrite_eq hlist hpre]
  dsimp only
  cases htile : w.tile with
  | none => exact look_foldl_keep hnodup hlook _
  | some t =>
    obtain ⟨u, hu⟩ := Option.isSome_iff_exists.1 (h t htile)
    have hid : u.id = t := by simpa [State.team?] using List.find?_some hu
    have hu' : State.team? { s with inflight := pre.map (fun x => x.without w) ++ post } t = some u := hu
    simp only [State.placeByte, State.team?_putCells, hu', Option.map_some, if_pos hid, Option.getD_some]
    exact look_foldl_keep hnodup hlook _

end settle

end Sys2Proof.Machine
end

section
/-! PROOFS. What readers find while the writes that everyone sees settle (spec/20 R358 to R360; log 6). -/

namespace Sys2Proof.Machine

/-! ### Every write that all readers see settles -/

/-- What settling does for one write of the list. -/
def State.settleNext (s : State) (w : InWrite) : State :=
  if !w.whole then s else if s.bears w then s.countWrite w else (s.countWrite w).settleWrite w.id

theorem State.settleWrites_eq (s : State) : s.settleWrites = s.inflight.foldl State.settleNext s := rfl

/-- What counting keeps, and settling those of a list that all readers see, the whole of it keeps. -/
theorem foldl_settleNext_keeps {P : State → Prop} (hcount : ∀ s w, P s → P (s.countWrite w)) {ws : List InWrite}
    (hsettle : ∀ s, ∀ w ∈ ws, w.whole = true → P s → P (s.settleWrite w.id)) {s : State} (hs : P s) :
    P (ws.foldl State.settleNext s) := by
  refine List.foldlRecOn ws _ hs fun t ht w hw => ?_
  unfold State.settleNext
  split
  · exact ht
  next hwhole =>
    split
    · exact hcount t w ht
    · exact hsettle _ w hw (by simpa using hwhole) (hcount t w ht)

/-- Counting a write changes of the list no more than its `counted`, and of the rest its context alone. -/
theorem State.countWrite_eq (s : State) (w : InWrite) : ∃ (f : InWrite → Bool) (cs : List (Nat × Ctx)), s.countWrite w =
    { s with inflight := s.inflight.map fun x => { x with counted := f x }, ctxs := cs } := by
  unfold State.countWrite
  split
  · exact ⟨fun x => x.counted, s.ctxs, by simp⟩
  · refine ⟨fun x => if x.id = w.id then true else x.counted, _, congrArg (fun l => State.markDirty { s with inflight := l } _ _ _)
      (List.map_congr_left fun x _ => ?_)⟩
    by_cases hx : x.id = w.id <;> simp [hx]

/-! ### Names, and the atomics that made the writes -/

/-- What decides whether a release side carries a write. -/
def InWrite.tag (w : InWrite) : Nat × Nat := (w.id, w.maker)

/-- What a state has on its way is part of what another has. -/
def State.Within (s t : State) : Prop := (s.inflight.map InWrite.tag).Sublist (t.inflight.map InWrite.tag)

theorem State.countWrite_tags (s : State) (w : InWrite) : (s.countWrite w).inflight.map InWrite.tag = s.inflight.map InWrite.tag := by
  obtain ⟨f, cs, heq⟩ := s.countWrite_eq w
  rw [heq, List.map_map]
  rfl

theorem State.settleWrite_within (s : State) (id : Nat) : (s.settleWrite id).Within s := by
  obtain hno | ⟨pre, w, post, hlist, hpre, rfl⟩ := s.split_of_id id
  · rw [State.settleWrite_of_absent hno]
    exact List.Sublist.refl _
  · have htags : (pre.map fun x => x.without w).map InWrite.tag = pre.map InWrite.tag := by rw [List.map_map]; rfl
    rw [State.Within, State.settleWrite_inflight hlist hpre, hlist, List.map_append, htags, List.map_append, List.map_cons]
    exact (List.sublist_cons_self ..).append_left _

theorem foldl_settleNext_within (ws : List InWrite) (s : State) : (ws.foldl State.settleNext s).Within s :=
  foldl_settleNext_keeps (P := fun t => t.Within s) (fun t w ht => by rw [State.Within, State.countWrite_tags]; exact ht)
    (fun t w _ _ ht => (t.settleWrite_within w.id).trans ht) (List.Sublist.refl _)

theorem State.ids_eq_tags (s : State) : s.inflight.map (·.id) = (s.inflight.map InWrite.tag).map (·.1) := by
  rw [List.map_map]; rfl

theorem State.Within.nodup {s t : State} (h : s.Within t) (hnodup : (t.inflight.map (·.id)).Nodup) :
    (s.inflight.map (·.id)).Nodup := by
  rw [State.ids_eq_tags] at *
  exact hnodup.sublist (h.map _)

/-- A write whose release sides carry nothing of a list carries nothing of what is left of it. -/
theorem State.bears_of_tags {s t : State} {v w : InWrite} (htags : ∀ x ∈ s.inflight, ∃ y ∈ t.inflight, y.tag = x.tag)
    (hv : v.id = w.id ∧ v.rels = w.rels) (h : t.bears w = false) : s.bears v = false := by
  simp only [State.bears, List.any_eq_false, Bool.not_eq_true, Bool.and_eq_false_imp, decide_eq_true_eq] at h ⊢
  rw [hv.1, hv.2]
  intro r hr x hx hid
  obtain ⟨y, hy, htag⟩ := htags x hx
  obtain ⟨hyid, hymaker⟩ := Prod.mk.inj htag
  have hno := h r hr y hy (by rw [hyid]; exact hid)
  rwa [Rel.carries, hyid, hymaker] at hno

theorem State.Within.bears {s t : State} (h : s.Within t) {w : InWrite} (hw : t.bears w = false) : s.bears w = false :=
  State.bears_of_tags (fun _ hx => List.mem_map.1 (h.subset (List.mem_map_of_mem hx))) ⟨rfl, rfl⟩ hw

/-- Settling takes a name out of the list. -/
theorem State.settleWrite_gone {s : State} (hnodup : (s.inflight.map (·.id)).Nodup) (id : Nat) :
    ∀ v ∈ (s.settleWrite id).inflight, v.id ≠ id := by
  obtain hno | ⟨pre, w, post, hlist, hpre, rfl⟩ := s.split_of_id id
  · rwa [State.settleWrite_of_absent hno]
  · rw [hlist, List.map_append, List.map_cons, List.nodup_append, List.nodup_cons] at hnodup
    rw [State.settleWrite_inflight hlist hpre]
    intro v hv
    obtain hv | hv := List.mem_append.1 hv
    · obtain ⟨x, hx, rfl⟩ := List.mem_map.1 hv
      exact hpre x hx
    · exact fun hid => hnodup.2.1.1 (List.mem_map.2 ⟨v, hv, hid⟩)

theorem State.Within.gone {s t : State} (h : s.Within t) {id : Nat} (ht : ∀ v ∈ t.inflight, v.id ≠ id) :
    ∀ v ∈ s.inflight, v.id ≠ id := by
  intro v hv
  obtain ⟨x, hx, htag⟩ := List.mem_map.1 (h.subset (List.mem_map_of_mem (f := InWrite.tag) hv))
  exact (Prod.mk.inj htag).1 ▸ ht x hx

/-- A write that all readers see, and that carries no other, leaves the list. -/
theorem State.settleWrites_gone {s : State} {w : InWrite} (hnodup : (s.inflight.map (·.id)).Nodup) (hw : w ∈ s.inflight)
    (hwhole : w.whole = true) (hbears : s.bears w = false) : ∀ v ∈ s.settleWrites.inflight, v.id ≠ w.id := by
  obtain ⟨pre, post, hlist⟩ := List.append_of_mem hw
  have hbefore := foldl_settleNext_within pre s
  generalize ht : pre.foldl State.settleNext s = t at hbefore
  have hturn : t.settleNext w = (t.countWrite w).settleWrite w.id := by
    rw [State.settleNext, hwhole, hbefore.bears hbears]
    rfl
  have hids : ((t.countWrite w).inflight.map (·.id)).Nodup := by
    rw [State.ids_eq_tags, State.countWrite_tags, ← State.ids_eq_tags]
    exact hbefore.nodup hnodup
  rw [State.settleWrites_eq]
  nth_rw 1 [hlist]
  rw [List.foldl_append, List.foldl_cons, ht, hturn]
  exact (foldl_settleNext_within post _).gone (State.settleWrite_gone hids w.id)

/-! ### Writes that do not settle -/

/-- A write with these arrivals is on its way. -/
def State.Keeps (s : State) (v : InWrite) : Prop :=
  ∃ x ∈ s.inflight, x.id = v.id ∧ x.arrived = v.arrived ∧ x.placed = v.placed

theorem State.settleWrite_keeps {s : State} {id : Nat} {v : InWrite} (hid : v.id ≠ id) (h : s.Keeps v) : (s.settleWrite id).Keeps v := by
  obtain ⟨x, hx, hxid, hrest⟩ := h
  obtain hno | ⟨pre, w, post, hlist, hpre, rfl⟩ := s.split_of_id id
  · rw [State.settleWrite_of_absent hno]
    exact ⟨x, hx, hxid, hrest⟩
  · rw [State.Keeps, State.settleWrite_inflight hlist hpre]
    rw [hlist, List.mem_append, List.mem_cons] at hx
    obtain hx | rfl | hx := hx
    · exact ⟨x.without w, List.mem_append_left _ (List.mem_map_of_mem hx), hxid, hrest⟩
    · exact absurd hxid.symm hid
    · exact ⟨x, List.mem_append_right _ hx, hxid, hrest⟩

/-- A write that some reader does not see stays as it is. -/
theorem State.settleWrites_keeps {s : State} {v : InWrite} (hnodup : (s.inflight.map (·.id)).Nodup) (hv : v ∈ s.inflight)
    (hwhole : v.whole = false) : s.settleWrites.Keeps v := by
  refine foldl_settleNext_keeps (P := fun t => t.Keeps v) (fun t w ⟨x, hx, hsame⟩ => ?_)
    (fun t w hw hww ht => State.settleWrite_keeps (fun hid => ?_) ht) ⟨v, hv, rfl, rfl, rfl⟩
  · obtain ⟨f, cs, heq⟩ := t.countWrite_eq w
    rw [State.Keeps, heq]
    exact ⟨_, List.mem_map_of_mem hx, hsame⟩
  · rw [List.inj_on_of_nodup_map hnodup hv hw hid, hww] at hwhole
    cases hwhole

/-! ### The latest write of a byte -/

/-- No write of a list covers a byte. -/
def Uncovered (tile : Option Nat) (a : Nat) (ws : List InWrite) : Prop := ∀ v ∈ ws, v.tile = tile → look? v.cells a = none

/-- The last write of a list that covers a byte: its name, the byte, and what holds of its arrivals. -/
def LastOf (id : Nat) (tile : Option Nat) (a : Nat) (b : Byte) (seen : List Observer → Prop) (ws : List InWrite) : Prop :=
  ∃ pre w post, ws = pre ++ w :: post ∧ (∀ v ∈ pre, v.id ≠ id) ∧ w.id = id ∧ w.tile = tile ∧ (w.cells.map (·.1)).Nodup ∧
    look? w.cells a = some b ∧ seen w.arrived ∧ Uncovered tile a post

/-- A byte has its value from a write that is on its way, or that has settled. -/
def State.Latest (s : State) (id : Nat) (tile : Option Nat) (a : Nat) (b : Byte) (seen : List Observer → Prop) : Prop :=
  s.placeIs tile ∧ (LastOf id tile a b seen s.inflight ∨ Uncovered tile a s.inflight ∧ s.placeByte tile a = b)

section latest
variable {id : Nat} {tile : Option Nat} {a : Nat} {b : Byte} {seen : List Observer → Prop}

/-- Where the writes change, but not what they cover. -/
theorem LastOf.map {seen' : List Observer → Prop} {ws : List InWrite} (f : InWrite → InWrite)
    (hf : ∀ w ∈ ws, (f w).id = w.id ∧ (f w).tile = w.tile ∧ (f w).cells = w.cells)
    (hseen : ∀ w ∈ ws, w.id = id → seen w.arrived → seen' (f w).arrived) (h : LastOf id tile a b seen ws) :
    LastOf id tile a b seen' (ws.map f) := by
  obtain ⟨pre, w, post, rfl, hpre, hid, htile, hnodup, hlook, hw, hpost⟩ := h
  obtain ⟨hfid, hftile, hfcells⟩ := hf w (by simp)
  refine ⟨pre.map f, f w, post.map f, by simp, ?_, hfid.trans hid, hftile.trans htile, hfcells ▸ hnodup, hfcells ▸ hlook,
    hseen w (by simp) hid hw, ?_⟩
  · simp only [List.forall_mem_map]
    exact fun v hv => (hf v (by simp [hv])).1 ▸ hpre v hv
  · simp only [Uncovered, List.forall_mem_map]
    intro v hv
    obtain ⟨-, hvtile, hvcells⟩ := hf v (by simp [hv])
    rw [hvtile, hvcells]
    exact hpost v hv

theorem Uncovered.map {ws : List InWrite} (f : InWrite → InWrite) (hf : ∀ w ∈ ws, (f w).tile = w.tile ∧ (f w).cells = w.cells)
    (h : Uncovered tile a ws) : Uncovered tile a (ws.map f) := by
  simp only [Uncovered, List.forall_mem_map]
  intro v hv
  rw [(hf v hv).1, (hf v hv).2]
  exact h v hv

theorem State.Latest.countWrite {s : State} (h : s.Latest id tile a b seen) (w : InWrite) : (s.countWrite w).Latest id tile a b seen := by
  obtain ⟨f, cs, heq⟩ := s.countWrite_eq w
  rw [heq]
  obtain ⟨his, h | ⟨hno, hb⟩⟩ := h
  · exact ⟨his, .inl (h.map _ (fun _ _ => ⟨rfl, rfl, rfl⟩) fun _ _ _ hw => hw)⟩
  · exact ⟨his, .inr ⟨hno.map _ fun _ _ => ⟨rfl, rfl⟩, hb⟩⟩

theorem Uncovered.without {ws : List InWrite} (h : Uncovered tile a ws) (w : InWrite) :
    Uncovered tile a (ws.map fun x => x.without w) := by
  simp only [Uncovered, List.forall_mem_map]
  intro v hv hvtile
  rw [InWrite.look?_without, h v hv hvtile, ite_self]

/-- Where the last write of a byte has settled, no other covers it. -/
theorem Uncovered.of_last {w : InWrite} {post : List InWrite} (h : Uncovered w.tile a post) (hlook : look? w.cells a = some b)
    (pre : List InWrite) : Uncovered w.tile a (pre.map (fun x => x.without w) ++ post) := by
  intro x hx hxtile
  obtain hx | hx := List.mem_append.1 hx
  · obtain ⟨y, -, rfl⟩ := List.mem_map.1 hx
    rw [InWrite.look?_without, if_pos ⟨hxtile.symm, by simp [hlook]⟩]
  · exact h x hx hxtile

/-- A write that settles stands before the last one of a byte, is that one, or stands after it. -/
theorem State.Latest.settleWrite {s : State} (h : s.Latest id tile a b seen) (k : Nat) :
    (s.settleWrite k).Latest id tile a b seen := by
  obtain hno | ⟨pre, w, post, hlist, hpre, rfl⟩ := s.split_of_id k
  · rwa [State.settleWrite_of_absent hno]
  obtain ⟨his, h⟩ := h
  refine ⟨State.settleWrite_placeIs hlist hpre his, ?_⟩
  rw [State.settleWrite_inflight hlist hpre]
  obtain ⟨pre', v, post', hlist', hpre', rfl, htile, hnodup, hlook, hv, hpost⟩ | ⟨hno, hb⟩ := h
  · have hsplit := hlist.symm.trans hlist'
    obtain ⟨mid, rfl, hmid⟩ | ⟨mid, rfl, hmid⟩ := List.append_eq_append_iff.1 hsplit
    · cases mid with
      | nil =>
        obtain ⟨rfl, rfl⟩ := List.cons.inj hmid
        subst htile
        exact .inr ⟨hpost.of_last hlook pre, State.settleWrite_placeByte hlist hpre hnodup hlook his⟩
      | cons x mid =>
        obtain ⟨rfl, rfl⟩ := List.cons.inj hmid
        refine .inl ⟨pre.map (fun x => x.without w) ++ mid, v, post', by simp, ?_, rfl, htile, hnodup, hlook, hv, hpost⟩
        simp only [List.mem_append, List.mem_map]
        rintro x (⟨y, hy, rfl⟩ | hx)
        exacts [hpre' y (by simp [hy]), hpre' x (by simp [hx])]
    · cases mid with
      | nil =>
        obtain ⟨rfl, rfl⟩ := List.cons.inj hmid
        subst htile
        exact .inr ⟨hpost.of_last hlook _, State.settleWrite_placeByte hlist hpre hnodup hlook his⟩
      | cons x mid =>
        obtain ⟨rfl, rfl⟩ := List.cons.inj hmid
        have hw : w.tile = tile → look? w.cells a = none := hpost w (by simp)
        refine .inl ⟨pre'.map (fun x => x.without w), v.without w, mid.map (fun x => x.without w) ++ post, by simp, ?_, rfl, htile,
          (hnodup.sublist (List.filter_sublist.map _)), ?_, hv, fun x hx => ?_⟩
        · simp only [List.forall_mem_map]
          exact hpre'
        · rw [InWrite.look?_without, if_neg (fun h => h.2 (hw (h.1.trans htile)))]
          exact hlook
        · obtain hx | hx := List.mem_append.1 hx
          · exact Uncovered.without (fun y hy => hpost y (by simp [hy])) w x hx
          · exact hpost x (by simp [hx])
  · rw [hlist] at hno
    have hw : w.tile = tile → look? w.cells a = none := hno w (by simp)
    refine .inr ⟨fun x hx => ?_, (State.settleWrite_placeByte_other hlist hpre hw).trans hb⟩
    obtain hx | hx := List.mem_append.1 hx
    · exact Uncovered.without (fun y hy => hno y (by simp [hy])) w x hx
    · exact hno x (by simp [hx])

theorem State.Latest.settleWrites {s : State} (h : s.Latest id tile a b seen) : s.settleWrites.Latest id tile a b seen :=
  foldl_settleNext_keeps (P := fun t => t.Latest id tile a b seen) (fun _ w ht => ht.countWrite w)
    (fun _ w _ _ ht => ht.settleWrite w.id) h

/-- A fold over writes that do not cover a byte. -/
theorem Uncovered.foldl {sees : InWrite → Bool} (hsees : ∀ v, sees v = true → v.tile = tile) {ws : List InWrite}
    (h : Uncovered tile a ws) (x : Byte) :
    ws.foldl (fun b w => if sees w then (look? w.cells a).getD b else b) x = x :=
  List.foldlRecOn ws _ (motive := (· = x)) rfl fun y hy v hv => by
    split
    next hsee => rw [h v hv (hsees v hsee)]; exact hy
    · exact hy

/-- A reader that sees the latest write of a byte finds it. -/
theorem State.Latest.found {s : State} (h : s.Latest id tile a b seen) {sees : InWrite → Bool}
    (hsees : ∀ v, sees v = true → v.tile = tile) (hlast : ∀ v, v.tile = tile → seen v.arrived → sees v = true) :
    s.inflight.foldl (fun b w => if sees w then (look? w.cells a).getD b else b) (s.placeByte tile a) = b := by
  obtain ⟨-, ⟨pre, w, post, hlist, -, -, htile, -, hlook, hw, hpost⟩ | ⟨hno, hb⟩⟩ := h
  · rw [hlist, List.foldl_append, List.foldl_cons, hpost.foldl hsees, if_pos (hlast w htile hw), hlook, Option.getD_some]
  · rw [hno.foldl hsees, hb]

/-- Of a write that has settled, the place has the byte. -/
theorem State.Latest.settled {s : State} (h : s.Latest id tile a b seen) (hgone : ∀ v ∈ s.inflight, v.id ≠ id) :
    s.placeByte tile a = b := by
  obtain ⟨-, ⟨pre, w, post, hlist, -, hid, -⟩ | ⟨-, hb⟩⟩ := h
  · exact absurd hid (hgone w (by simp [hlist]))
  · exact hb

end latest

end Sys2Proof.Machine
end

section
/-! PROOFS. A write that moves: its place in coherence order, its arrivals, and what it brings of its command (spec/13 R224, R252;
spec/14 R266; spec/20 R358 to R360). -/

namespace Sys2Proof.Machine

theorem mem_joinNew {α : Type} [DecidableEq α] {xs ys : List α} {x : α} : x ∈ joinNew xs ys ↔ x ∈ xs ∨ x ∈ ys := by
  by_cases hx : x ∈ xs <;> simp [joinNew, hx]

/-! ### A write takes its place -/

/-- The writes on their way once one of them has its place. -/
def ranks (ws : List InWrite) (w : InWrite) : List InWrite :=
  if w.placed then ws
  else (ws.filter fun x => decide (x.id ≠ w.id)).filter (·.placed) ++ [{ w with placed := true }] ++
    (ws.filter fun x => decide (x.id ≠ w.id)).filter fun x => !x.placed

theorem InWrite.eq_of_placed {w : InWrite} (h : w.placed = true) : { w with placed := true } = w := by rw [← h]

theorem foldl_owe_eq (rs : List Rel) : ∀ s : State, ∃ owed : InWrite → Nat,
    rs.foldl (fun s r => s.owe r.sc (s.idsOf r)) s = { s with inflight := s.inflight.map fun x => { x with owed := owed x } } := by
  induction rs with
  | nil => exact fun s => ⟨fun x => x.owed, by simp⟩
  | cons r rs ih =>
    intro s
    obtain ⟨owed, h⟩ := ih (s.owe r.sc (s.idsOf r))
    let first (x : InWrite) : Nat := if (s.idsOf r).contains x.id then max x.owed r.sc else x.owed
    have howe : s.owe r.sc (s.idsOf r) = { s with inflight := s.inflight.map fun x => { x with owed := first x } } :=
      congrArg (fun l => { s with inflight := l }) (List.map_congr_left fun x _ => by simp only [first]; split <;> rfl)
    refine ⟨fun x => owed { x with owed := first x }, ?_⟩
    rw [List.foldl_cons, h, howe]
    simp only [List.map_map]
    rfl

/-- Taking a place changes of the writes their order and what is owed of them. -/
theorem State.place_eq {s : State} {w : InWrite} (hfind : s.inflight.find? (fun v => decide (v.id = w.id)) = some w) :
    ∃ owed : InWrite → Nat, s.place w.id = { s with inflight := (ranks s.inflight w).map fun x => { x with owed := owed x } } := by
  simp only [State.place, hfind, ranks]
  split
  · exact ⟨fun x => x.owed, by simp⟩
  · exact foldl_owe_eq _ _

section ranks
variable {ws : List InWrite} {w : InWrite} (hw : w ∈ ws) (hnodup : (ws.map (·.id)).Nodup)
include hw hnodup

theorem mem_ranks {x : InWrite} : x ∈ ranks ws w ↔ x = { w with placed := true } ∨ x ∈ ws ∧ x.id ≠ w.id := by
  have heq : x ∈ ws → x.id = w.id → x = w := fun hx hid => List.inj_on_of_nodup_map hnodup hx hw hid
  unfold ranks
  split
  next h =>
    rw [InWrite.eq_of_placed h]
    exact ⟨fun hx => or_iff_not_imp_right.2 fun hno => heq hx (not_not.1 fun hid => hno ⟨hx, hid⟩), fun hx => hx.elim (· ▸ hw) (·.1)⟩
  · simp only [List.mem_append, List.mem_filter, List.mem_singleton, decide_eq_true_eq, Bool.not_eq_true']
    cases x.placed <;> simp [or_comm]

/-- A byte that every other write of it precedes has its last write in the one that takes its place. -/
theorem lastOf_ranks {c : Host.Cell} (hc : c ∈ w.cells) (hcells : (w.cells.map (·.1)).Nodup)
    (hothers : ∀ v ∈ ws, v.id ≠ w.id → v.tile = w.tile → (∃ d ∈ v.cells, d.1 = c.1) →
      v.placed = true ∧ (w.placed = true → v ∈ ws.takeWhile fun x => decide (x.id ≠ w.id))) :
    LastOf w.id w.tile c.1 c.2 (fun os => os = w.arrived) (ranks ws w) := by
  have hcovers {v : InWrite} (h : look? v.cells c.1 ≠ none) : ∃ d ∈ v.cells, d.1 = c.1 := by
    rw [ne_eq, look?_eq_none] at h
    simpa using h
  unfold ranks
  split
  next hplaced =>
    obtain ⟨pre, post, rfl⟩ := List.append_of_mem hw
    rw [List.map_append, List.map_cons, List.nodup_append, List.nodup_cons] at hnodup
    obtain ⟨-, ⟨hpost, -⟩, hdisj⟩ := hnodup
    have hpre : ∀ x ∈ pre, x.id ≠ w.id := fun x hx => hdisj _ (List.mem_map_of_mem hx) _ (by simp)
    have htake : (pre ++ w :: post).takeWhile (fun x => decide (x.id ≠ w.id)) = pre := by
      rw [List.takeWhile_append_of_pos (by simpa using hpre)]
      simp
    refine ⟨pre, w, post, rfl, hpre, rfl, rfl, hcells, look?_of_mem hcells hc, rfl, fun v hv hvtile => ?_⟩
    by_contra hlook
    have hid : v.id ≠ w.id := fun h => hpost (List.mem_map.2 ⟨v, hv, h⟩)
    have hmem := (hothers v (by simp [hv]) hid hvtile (hcovers hlook)).2 hplaced
    rw [htake] at hmem
    exact hdisj _ (List.mem_map_of_mem hmem) _ (List.mem_cons_of_mem _ (List.mem_map_of_mem hv)) rfl
  · refine ⟨_, { w with placed := true }, _, by rw [List.append_assoc, List.singleton_append], ?_, rfl, rfl, hcells,
      look?_of_mem hcells hc, rfl, fun v hv hvtile => ?_⟩
    · intro v hv
      simpa using (List.mem_filter.1 (List.mem_filter.1 hv).1).2
    · obtain ⟨hrest, hunplaced⟩ := List.mem_filter.1 hv
      obtain ⟨hmem, hid⟩ := List.mem_filter.1 hrest
      by_contra hlook
      have hplaced := (hothers v hmem (by simpa using hid) hvtile (hcovers hlook)).1
      simp [hplaced] at hunplaced

end ranks

/-! ### Arrivals -/

/-- A write takes its place, and arrivals of it are noted; then whatever can settles. -/
def State.reach (s : State) (id : Nat) (f : InWrite → InWrite) : State :=
  State.settleWrites { s.place id with inflight := (s.place id).inflight.map fun w => if w.id = id then f w else w }

/-- The arrivals of R358 at observers: all of them for a write with a single moment, else its own die's first. -/
def InWrite.reaching (os : List Observer) (w : InWrite) : InWrite :=
  if w.single then { w with arrived := allObservers }
  else { w with arrived := joinNew w.arrived (if w.mca then os else joinNew [.socket w.site.die] os) }

/-- The single moment of an MCA write. -/
def InWrite.landing (w : InWrite) : InWrite := { w with arrived := allObservers, mca := false, acq := false }

theorem State.landWrite_eq_reach (s : State) (id : Nat) : s.landWrite id = s.reach id InWrite.landing := rfl

theorem State.arrive_eq_reach (s : State) (id : Nat) (o : Observer) : s.arrive id [o] = s.reach id (InWrite.reaching [o]) := by
  rw [State.arrive, if_neg (by simp)]
  refine congrArg (fun l => State.settleWrites { s.place id with inflight := l }) (List.map_congr_left fun w _ => ?_)
  by_cases hw : w.id = id <;> simp [hw, InWrite.reaching]

@[simp] theorem State.reach_besidesWrites (s : State) (id : Nat) (f : InWrite → InWrite) :
    (s.reach id f).besidesWrites = s.besidesWrites :=
  (State.settleWrites_besidesWrites _).trans (s.place_besidesWrites id)

/-- Arrivals, and no more. -/
structure Arrives (f : InWrite → InWrite) : Prop where
  id : ∀ w, (f w).id = w.id
  tile : ∀ w, (f w).tile = w.tile
  cells : ∀ w, (f w).cells = w.cells
  rels : ∀ w, (f w).rels = w.rels
  maker : ∀ w, (f w).maker = w.maker

theorem arrives_landing : Arrives InWrite.landing :=
  ⟨fun _ => rfl, fun _ => rfl, fun _ => rfl, fun _ => rfl, fun _ => rfl⟩

theorem arrives_reaching (os : List Observer) : Arrives (InWrite.reaching os) := by
  constructor <;> intro w <;> unfold InWrite.reaching <;> split <;> rfl

/-- A state where a write has its place and its arrivals, and nothing has settled yet. -/
def State.noted (s : State) (w : InWrite) (f : InWrite → InWrite) (owed : InWrite → Nat) : State :=
  { s with inflight := (ranks s.inflight w).map fun x =>
      if x.id = w.id then f { x with owed := owed x } else { x with owed := owed x } }

section reach
variable {s : State} {w : InWrite} {f : InWrite → InWrite}
  (hfind : s.inflight.find? (fun v => decide (v.id = w.id)) = some w) (hinv : s.Inv) (hf : Arrives f)
include hfind hinv hf

theorem State.reach_eq : ∃ owed, s.reach w.id f = (s.noted w f owed).settleWrites ∧
    ((s.noted w f owed).inflight.map (·.id)).Nodup := by
  obtain ⟨owed, hplace⟩ := State.place_eq hfind
  have hnodup : ((s.place w.id).inflight.map (·.id)).Nodup := (State.place_ranked ⟨hinv.names, hinv.order⟩).1.1
  refine ⟨owed, ?_, ?_⟩
  · rw [State.reach, hplace]
    simp only [List.map_map]
    rfl
  · rw [hplace, List.map_map] at hnodup
    rw [State.noted, List.map_map]
    refine (congrArg List.Nodup (List.map_congr_left fun x _ => ?_)).mpr hnodup
    by_cases hx : x.id = w.id <;> simp [hx, hf.id]

/-- A write that some reader does not see keeps its arrivals and its place while another moves. -/
theorem State.reach_keeps {v : InWrite} (hv : v ∈ s.inflight) (hid : v.id ≠ w.id) (hwhole : v.whole = false) :
    (s.reach w.id f).Keeps v := by
  have hw := List.mem_of_find?_eq_some hfind
  obtain ⟨owed, heq, hnodup⟩ := State.reach_eq hfind hinv hf
  have hmem := (mem_ranks hw hinv.names.1).2 (.inr ⟨hv, hid⟩)
  rw [heq]
  exact State.settleWrites_keeps (v := { v with owed := owed v }) hnodup
    (List.mem_map.2 ⟨v, hmem, if_neg hid⟩) hwhole

/-- A write that has reached all, and carries no other, is on its way no more. -/
theorem State.reach_gone (hwhole : ∀ n, (f { w with placed := true, owed := n }).whole = true) (hbears : s.bears w = false) :
    ∀ v ∈ (s.reach w.id f).inflight, v.id ≠ w.id := by
  have hw := List.mem_of_find?_eq_some hfind
  obtain ⟨owed, heq, hnodup⟩ := State.reach_eq hfind hinv hf
  have hmem := (mem_ranks hw hinv.names.1).2 (.inl rfl)
  rw [heq]
  generalize hn : owed { w with placed := true } = n
  have hin : f { w with placed := true, owed := n } ∈ (s.noted w f owed).inflight :=
    List.mem_map.2 ⟨_, hmem, by rw [if_pos rfl, hn]⟩
  have hgone := State.settleWrites_gone hnodup hin (hwhole n) (State.bears_of_tags (fun x hx => ?_) ⟨hf.id _, hf.rels _⟩ hbears)
  · simpa only [hf.id] using hgone
  · obtain ⟨y, hy, rfl⟩ := List.mem_map.1 hx
    obtain rfl | ⟨hy, hid⟩ := (mem_ranks hw hinv.names.1).1 hy
    · exact ⟨w, hw, by rw [if_pos rfl, InWrite.tag, InWrite.tag, hf.id, hf.maker]⟩
    · exact ⟨y, hy, by rw [if_neg hid]; rfl⟩

/-- The bytes of a write that moves are the latest of theirs, if no other write comes after them. -/
theorem State.reach_latest {c : Host.Cell} {seen : List Observer → Prop} (his : s.placeIs w.tile)
    (hlast : LastOf w.id w.tile c.1 c.2 (fun os => os = w.arrived) (ranks s.inflight w))
    (hseen : ∀ n, seen (f { w with placed := true, owed := n }).arrived) :
    (s.reach w.id f).Latest w.id w.tile c.1 c.2 seen := by
  have hw := List.mem_of_find?_eq_some hfind
  obtain ⟨owed, heq, -⟩ := State.reach_eq hfind hinv hf
  rw [heq]
  refine State.Latest.settleWrites ⟨his, .inl (hlast.map _ (fun x _ => ?_) fun x hx hid _ => ?_)⟩
  · split
    exacts [⟨hf.id _, hf.tile _, hf.cells _⟩, ⟨rfl, rfl, rfl⟩]
  · obtain rfl | ⟨-, hne⟩ := (mem_ranks hw hinv.names.1).1 hx
    · rw [if_pos hid]
      exact hseen _
    · exact absurd hid hne

end reach

/-! ### Entries that wait -/

/-- The entries that wait for room in the fault records. -/
def State.waiting (s : State) : List (Nat × List Posting) := s.ctxs.map fun e => (e.1, e.2.faultQ)

theorem look?_map_snd {α β : Type} (f : α → β) (m : List (Nat × α)) (k : Nat) :
    look? (m.map fun e => (e.1, f e.2)) k = (look? m k).map f := by
  induction m with
  | nil => rfl
  | cons e m ih => by_cases h : e.1 = k <;> simp [look?, h, ih]

theorem State.faultQ_of_waiting {s t : State} (h : t.waiting = s.waiting) (n : Nat) :
    (t.ctx? n).map (·.faultQ) = (s.ctx? n).map (·.faultQ) := by
  rw [State.ctx?, State.ctx?, ← look?_map_snd, ← look?_map_snd]
  exact congrArg (look? · n) h

theorem State.markDirty_waiting (s : State) (ctx va n : Nat) : (s.markDirty ctx va n).waiting = s.waiting := by
  simp only [State.markDirty, State.waiting, State.onCtx, List.map_map]
  refine List.map_congr_left fun e _ => ?_
  simp only [Function.comp_apply]
  split_ifs <;> rfl

theorem State.countWrite_waiting (s : State) (w : InWrite) : (s.countWrite w).waiting = s.waiting := by
  unfold State.countWrite
  split
  · rfl
  · exact State.markDirty_waiting ..

theorem State.settleWrite_waiting (s : State) (id : Nat) : (s.settleWrite id).waiting = s.waiting := by
  unfold State.settleWrite
  split
  · rfl
  · dsimp only
    split <;> rfl

theorem State.reach_waiting (s : State) (id : Nat) (f : InWrite → InWrite) : (s.reach id f).waiting = s.waiting := by
  have hplace : (s.place id).waiting = s.waiting := by
    unfold State.place
    split
    · rfl
    · split
      · rfl
      · dsimp only
        exact foldl_keeps State.waiting (f := fun s r => s.owe r.sc (s.idsOf r)) (fun _ _ => rfl) _ _
  refine Eq.trans ?_ hplace
  exact foldl_settleNext_keeps (P := fun t => t.waiting = (s.place id).waiting)
    (fun t w ht => (t.countWrite_waiting w).trans ht) (fun t w _ _ ht => (t.settleWrite_waiting w.id).trans ht) rfl

/-! ### What a write brings of its command -/

/-- Readers find the same, and the same entries wait. -/
structure State.SameBytes (s t : State) : Prop where
  inflight : s.inflight = t.inflight
  mem : s.mem = t.mem
  tiles : ∀ k, (s.team? k).map (·.tile) = (t.team? k).map (·.tile)
  pkg : s.pkg = t.pkg
  ctxs : s.ctxs = t.ctxs

theorem State.SameBytes.of_eq {s t : State} (hin : s.inflight = t.inflight) (hmem : s.mem = t.mem) (hteams : s.teams = t.teams)
    (hpkg : s.pkg = t.pkg) (hctxs : s.ctxs = t.ctxs) : s.SameBytes t :=
  ⟨hin, hmem, fun k => by rw [State.team?, State.team?, hteams], hpkg, hctxs⟩

theorem State.SameBytes.trans {s t u : State} (h : s.SameBytes t) (h' : t.SameBytes u) : s.SameBytes u :=
  ⟨h.inflight.trans h'.inflight, h.mem.trans h'.mem, fun k => (h.tiles k).trans (h'.tiles k), h.pkg.trans h'.pkg,
    h.ctxs.trans h'.ctxs⟩

theorem State.SameBytes.refl (s : State) : s.SameBytes s := .of_eq rfl rfl rfl rfl rfl

theorem State.SameBytes.placeByte {s t : State} (h : s.SameBytes t) (tile : Option Nat) (a : Nat) :
    s.placeByte tile a = t.placeByte tile a := by
  cases tile with
  | none => rw [State.placeByte, State.placeByte, h.mem]
  | some k =>
    have htile := congrArg (fun o => (o.map fun m => look 0 m a).getD 0) (h.tiles k)
    simpa only [Option.map_map, State.placeByte, Function.comp_def] using htile

theorem State.SameBytes.latest {s t : State} (h : s.SameBytes t) {id : Nat} {tile : Option Nat} {a : Nat} {b : Byte}
    {seen : List Observer → Prop} (hlatest : t.Latest id tile a b seen) : s.Latest id tile a b seen := by
  rw [State.Latest, h.inflight, h.placeByte]
  refine ⟨fun k hk => ?_, hlatest.2⟩
  have hsome := congrArg Option.isSome (h.tiles k)
  rw [Option.isSome_map, Option.isSome_map] at hsome
  rw [hsome]
  exact hlatest.1 k hk

theorem State.tile_onTeam {f : Team → Team} (hid : ∀ u, (f u).id = u.id) (htile : ∀ u, (f u).tile = u.tile) (s : State)
    (id k : Nat) : ((s.onTeam id f).team? k).map (·.tile) = (s.team? k).map (·.tile) := by
  rw [State.team?_onTeam hid, Option.map_map]
  refine Option.map_congr fun u _ => ?_
  rw [Function.comp_apply]
  split
  exacts [htile u, rfl]

/-- A delivery of a command without a barrier moves a pointer of its team at most. -/
theorem State.deliver_sameBytes (s : State) {c : Cmd} (hbar : c.cbar = 0xFFFF) (n : Nat) : (s.deliver c n).SameBytes s := by
  unfold State.deliver
  extract_lets sides keepSide t
  rw [if_neg fun h => h.1 hbar]
  simp only [t]
  split
  · exact .refl _
  · exact ⟨rfl, rfl, fun k => State.tile_onTeam (by exact fun _ => rfl) (by exact fun _ => rfl) s c.team k, rfl, rfl⟩

/-- A command that neither notifies nor has bytes left leaves its queue. -/
theorem State.leaveQueue_sameBytes (s : State) {c : Cmd} (hnotify : c.notifies = false) (hlen : c.len ≤ c.delivered) (status : Nat) :
    (s.leaveQueue c status).SameBytes s := by
  have hrest : c.len - c.delivered = 0 := Nat.sub_eq_zero_of_le hlen
  simp only [State.leaveQueue, hnotify, hrest, State.notify, Bool.false_eq_true, if_false, ne_eq, not_true_eq_false]
  unfold State.returnWord
  split <;> exact .of_eq rfl rfl rfl rfl rfl

theorem State.cmd?_onCmd {s : State} {f : Cmd → Cmd} (hf : ∀ c, (f c).id = c.id) {id : Nat} {c : Cmd} (h : s.cmd? id = some c) :
    (s.onCmd id f).cmd? id = some (f c) := by
  have hid : ∀ c : Cmd, (if c.id = id then f c else c).id = c.id := fun c => by split; exacts [hf c, rfl]
  have hc : c.id = id := by simpa [State.cmd?] using List.find?_some h
  rw [State.cmd?] at h
  simp only [State.cmd?, State.onCmd, List.find?_map, Function.comp_def, hid, h, Option.map_some, if_pos hc]

theorem State.deliver_cmds (s : State) {c : Cmd} (hbar : c.cbar = 0xFFFF) (n : Nat) : (s.deliver c n).cmds = s.cmds := by
  unfold State.deliver
  extract_lets sides keepSide t
  rw [if_neg fun h => h.1 hbar]
  simp only [t]
  split <;> rfl

/-- What counts as delivered of a command that neither notifies nor has a barrier changes no byte. -/
theorem State.countFor_sameBytes {s : State} {cid : Option Nat}
    (h : ∀ c, cid.bind s.cmd? = some c → c.notifies = false ∧ c.cbar = 0xFFFF) : (s.countFor cid).SameBytes s := by
  unfold State.countFor
  split
  · exact .refl _
  next c hc =>
    obtain ⟨hnotify, hbar⟩ := h c hc
    obtain ⟨k, -, hk⟩ := Option.bind_eq_some_iff.1 hc
    have hid : c.id = k := by simpa [State.cmd?] using List.find?_some hk
    subst hid
    unfold State.countMoved
    dsimp only
    split
    · exact .refl _
    · let moved (x : Cmd) : Cmd := { x with moving := x.moving - s.moved c }
      let delivered (x : Cmd) : Cmd := { x with delivered := x.delivered + s.moved c }
      have hbar' : (delivered c).cbar = 0xFFFF := hbar
      generalize ht : ((s.onCmd c.id moved).onCmd c.id delivered).deliver (delivered c) (s.moved c) = t
      have hsame : t.SameBytes s := ht ▸ (State.deliver_sameBytes _ hbar' _).trans (.of_eq rfl rfl rfl rfl rfl)
      have hcmd : t.cmd? c.id = some (delivered (moved c)) := by
        rw [← ht, State.cmd?, State.deliver_cmds _ hbar']
        exact State.cmd?_onCmd (f := delivered) (fun _ => rfl) (State.cmd?_onCmd (f := moved) (fun _ => rfl) hk)
      refine State.SameBytes.trans (t := t) ?_ hsame
      rw [State.countDelivery, ht, State.settleCmd, hcmd]
      dsimp only
      split
      next hlen => exact State.leaveQueue_sameBytes t (c := delivered (moved c)) hnotify hlen 0
      · exact .refl _

end Sys2Proof.Machine
end

section
/-! PROOFS. Arrivals of writes, the single moment of an MCA write, and refresh windows (spec/12 R228; spec/13 R224, R252; spec/20
R358 to R360). -/

namespace Sys2Proof.Claims

open Sys2Proof.Machine

/-- A byte of a write that no write after it in coherence order covers, and none that has no place yet. -/
def IsLast (s : State) (w : InWrite) (c : Host.Cell) : Prop := c ∈ w.cells ∧ (w.cells.map (·.1)).Nodup ∧
  ∀ v ∈ s.inflight, v.id ≠ w.id → v.tile = w.tile → (∃ d ∈ v.cells, d.1 = c.1) →
    v.placed = true ∧ (w.placed = true → v ∈ s.inflight.takeWhile fun x => decide (x.id ≠ w.id))

/-- What a move of a write leaves: the writes that some reader did not see as they were; the moved one in its place, where all
readers see it and it carries no other; and its bytes the latest of theirs. -/
structure Moved (s : State) (w : InWrite) (f : InWrite → InWrite) (t : State) : Prop where
  others : ∀ v ∈ s.inflight, v.id ≠ w.id → v.whole = true ∨ t.Keeps v
  gone : (∀ n, (f { w with placed := true, owed := n }).whole = true) → s.bears w = false → ∀ v ∈ t.inflight, v.id ≠ w.id
  latest : ∀ (seen : List Observer → Prop) c, IsLast s w c → s.placeIs w.tile →
    (∀ n, seen (f { w with placed := true, owed := n }).arrived) → t.Latest w.id w.tile c.1 c.2 seen

section move
variable {s : State} {w : InWrite} (hfind : s.inflight.find? (fun v => decide (v.id = w.id)) = some w) (hinv : s.Inv)
  (hloads : w.torn = false ∨ ∀ q ∈ s.pend, ∀ a ∈ q.accs, a.loc.overlaps q.bytes w.loc w.len = false)
  (hcmd : ∀ c, w.cmd.bind s.cmd? = some c → c.notifies = false ∧ recNat c.bytes 4 2 = 0xFFFF)
include hfind hinv hloads hcmd

/-- A write moves: no load on its way meets it, and its command has nothing to report. -/
theorem afterMove_moved {f : InWrite → InWrite} (hf : Arrives f) :
    ∃ t, s.afterMove (s.reach w.id f) w = .next t ∧ Moved s w f t := by
  have hrest := s.reach_besidesWrites w.id f
  have hpend : (s.reach w.id f).pend = s.pend := State.eq_of_besidesWrites State.pend (fun _ => rfl) hrest
  have hcmds : (s.reach w.id f).cmds = s.cmds := State.eq_of_besidesWrites State.cmds (fun _ => rfl) hrest
  have hpkg : (s.reach w.id f).pkg = s.pkg := State.eq_of_besidesWrites State.pkg (fun _ => rfl) hrest
  have hmeets : s.meetLoads w (s.reach w.id f) = s.reach w.id f := by
    unfold State.meetLoads
    obtain htorn | hloads := hloads
    · rw [htorn, if_neg Bool.false_ne_true]
    · rw [State.tear_of_disjoint (hpend ▸ hloads), ite_self]
  have hcount : ((s.reach w.id f).countFor w.cmd).SameBytes (s.reach w.id f) := by
    refine State.countFor_sameBytes fun c hc => hcmd c ?_
    rwa [show (s.reach w.id f).cmd? = s.cmd? from funext fun k => by rw [State.cmd?, State.cmd?, hcmds]] at hc
  have hposted : s.postedBy w.site.ctx ((s.reach w.id f).countFor w.cmd) = true := by
    refine State.postedBy_of_eq (by rw [hcount.pkg, hpkg]) ?_
    rw [State.ctx?, hcount.ctxs]
    exact State.faultQ_of_waiting (s.reach_waiting w.id f) _
  refine ⟨((s.reach w.id f).countFor w.cmd).wake, by rw [State.afterMove, hmeets, State.didPosting, if_pos hposted]; rfl, ?_⟩
  have hsame : ((s.reach w.id f).countFor w.cmd).wake.SameBytes (s.reach w.id f) :=
    State.SameBytes.trans (t := (s.reach w.id f).countFor w.cmd) (.of_eq rfl rfl rfl rfl rfl) hcount
  refine ⟨fun v hv hid => ?_, fun hwhole hbears => ?_, fun seen c ⟨hc, hcells, hlast⟩ his hseen => ?_⟩
  · cases hwhole : v.whole with
    | true => exact .inl rfl
    | false =>
      right
      rw [State.Keeps, hsame.inflight]
      exact State.reach_keeps hfind hinv hf hv hid hwhole
  · rw [hsame.inflight]
    exact State.reach_gone hfind hinv hf hwhole hbears
  · exact hsame.latest (State.reach_latest hfind hinv hf his
      (lastOf_ranks (List.mem_of_find?_eq_some hfind) hinv.names.1 hc hcells hlast) hseen)

end move

theorem placeIs_of_flat {w : InWrite} (hflat : w.flat = true) (s : State) : s.placeIs w.tile := by
  intro k hk
  simp [InWrite.flat, hk] at hflat

section moved
variable {s t : State} {w : InWrite} {f : InWrite → InWrite} (h : Moved s w f t)
include h

/-- An observer that the write has reached finds its bytes. -/
theorem Moved.viewByte (hflat : w.flat = true) {o : Observer} (ho : ∀ n, o ∈ (f { w with placed := true, owed := n }).arrived)
    (gid : Option Nat) {c : Host.Cell} (hlast : IsLast s w c) : t.viewByte gid o c.1 = c.2 := by
  have hnone : w.tile = none := by simpa [InWrite.flat] using hflat
  have hlatest := h.latest (o ∈ ·) c hlast (placeIs_of_flat hflat s) ho
  rw [hnone] at hlatest
  refine hlatest.found (sees := fun v => v.visible gid o) (fun v hv => ?_) fun v hv hseen => ?_
  · simp only [InWrite.visible, InWrite.flat, Bool.and_eq_true, Option.isNone_iff_eq_none] at hv
    exact hv.1
  · simp [InWrite.visible, InWrite.flat, hv, hseen]

/-- Every agent finds the bytes of a write of a tile region that has arrived there. -/
theorem Moved.tileByte (harrived : ∀ n, (f { w with placed := true, owed := n }).arrived ≠ []) {k : Nat} (hk : w.tile = some k)
    (hteam : (s.team? k).isSome = true) (r : Site) {c : Host.Cell} (hlast : IsLast s w c) : t.tileByte r k c.1 = c.2 := by
  have hlatest := h.latest (· ≠ []) c hlast (fun j hj => by rwa [← Option.some.inj (hk.symm.trans hj)]) harrived
  rw [hk] at hlatest
  refine hlatest.found (sees := fun v => v.visibleTile k r) (fun v hv => ?_) fun v hv hseen => ?_
  · simp only [InWrite.visibleTile, Bool.and_eq_true, decide_eq_true_eq] at hv
    exact hv.1
  · simp [InWrite.visibleTile, hv, hseen]

/-- A write that all readers see, and that carries no other, is in memory. -/
theorem Moved.settled (hwhole : ∀ n, (f { w with placed := true, owed := n }).whole = true) (hbears : s.bears w = false) :
    (∀ v ∈ t.inflight, v.id ≠ w.id) ∧ ∀ c, IsLast s w c → w.flat = true → Memory.read t.mem c.1 = c.2 := by
  refine ⟨h.gone hwhole hbears, fun c hlast hflat => ?_⟩
  have hnone : w.tile = none := by simpa [InWrite.flat] using hflat
  have hlatest := h.latest (fun _ => True) c hlast (placeIs_of_flat hflat s) fun _ => trivial
  rw [hnone] at hlatest
  exact hlatest.settled (h.gone hwhole hbears)

end moved

/-- Where all arrivals have happened and no single moment is due, every reader sees a write. -/
theorem whole_iff {w : InWrite} : w.whole = true ↔ w.mca = false ∧ ∀ o ∈ allObservers, o ∈ w.arrived := by
  simp [InWrite.whole]

section arrival
variable {s : State} {w : InWrite} {o : Observer}

theorem exec_writeArrival_eq (hfind : s.inflight.find? (fun v => decide (v.id = w.id)) = some w) (hclear : s.clear w = true)
    (ho : o ∈ allObservers) (hnew : o ∉ w.arrived) (hmay : s.mayArrive w o = true) :
    exec (.writeArrival w.id o) s = s.afterMove (s.reach w.id (InWrite.reaching [o])) w := by
  simp [execWriteArrival, hfind, hclear, ho, hnew, hmay, State.arrive_eq_reach]

theorem exec_mcaSingleMoment_eq (hfind : s.inflight.find? (fun v => decide (v.id = w.id)) = some w) (hclear : s.clear w = true)
    (hmca : w.mca = true) (hnone : w.arrived = []) :
    exec (.mcaSingleMoment w.id) s = s.afterMove (s.reach w.id InWrite.landing) w := by
  simp [execMcaSingleMoment, hfind, hclear, hmca, hnone, State.landWrite_eq_reach]

theorem reaching_of_single (hsingle : w.single = true) (n : Nat) :
    InWrite.reaching [o] { w with placed := true, owed := n } = { w with placed := true, owed := n, arrived := allObservers } :=
  if_pos hsingle

theorem mem_reaching (hsingle : w.single = false) (hmca : w.mca = false) (n : Nat) {p : Observer} :
    p ∈ (InWrite.reaching [o] { w with placed := true, owed := n }).arrived ↔
      p ∈ w.arrived ∨ p = .socket w.site.die ∨ p = o := by
  rw [InWrite.reaching, if_neg (by rw [show InWrite.single { w with placed := true, owed := n } = w.single from rfl, hsingle]; decide)]
  simp [mem_joinNew, hmca]

end arrival

/-- Settles O17: an arrival is one move of a write, which its command and the loads on their way leave to it; the bytes that are the
latest of theirs are found on their way by those whom the write has reached, or in their place once it has settled. -/
theorem writesAndRefreshWindows : Obligations.WritesAndRefreshWindows := by
  refine ⟨?_, fun s die => ⟨?_, ?_⟩⟩
  · intro s w o hfind hclear hinv ho hloads hcmd own last settled others
    have hmove {f : InWrite → InWrite} (hf : Arrives f) := afterMove_moved hfind hinv hloads hcmd hf
    refine ⟨fun hmca hsingle hnew hown => ?_, fun hmca hsingle hnew hport => ?_, fun hmca hnone hflat => ?_⟩
    · have hmay : s.mayArrive w o = true := by simpa [State.mayArrive, hmca, hsingle] using hown
      obtain ⟨t, ht, hmoved⟩ := hmove (arrives_reaching [o])
      have hflat : w.flat = true := by
        simp only [InWrite.single, Bool.or_eq_false_iff, Bool.not_eq_false'] at hsingle
        exact hsingle.1
      refine ⟨t, (exec_writeArrival_eq hfind hclear ho hnew hmay).trans ht, hmoved.others,
        fun gid c hc => hmoved.viewByte hflat (fun n => (mem_reaching hsingle hmca n).2 (by simp)) gid hc,
        fun hall hbears => hmoved.settled (fun n => whole_iff.2 ⟨?_, fun p hp => (mem_reaching hsingle hmca n).2 ?_⟩) hbears⟩
      · rw [InWrite.reaching]
        split <;> exact hmca
      · obtain h | h := hall p hp <;> simp [h]
    · have hmay : s.mayArrive w o = true := by simp [State.mayArrive, hmca, hsingle, hport, own]
      obtain ⟨t, ht, hmoved⟩ := hmove (arrives_reaching [o])
      refine ⟨t, (exec_writeArrival_eq hfind hclear ho hnew hmay).trans ht, hmoved.others,
        hmoved.settled fun n => whole_iff.2 ?_, fun hflat gid p hp c hc => hmoved.viewByte hflat (fun n => ?_) gid hc,
        fun team r c hteam hc hthere => hmoved.tileByte (fun n => ?_) hteam hthere r hc⟩
      · rw [reaching_of_single hsingle]
        exact ⟨hmca, fun _ h => h⟩
      · rw [reaching_of_single hsingle]
        exact hp
      · rw [reaching_of_single hsingle]
        exact List.ne_nil_of_mem ho
    · obtain ⟨t, ht, hmoved⟩ := hmove arrives_landing
      exact ⟨t, (exec_mcaSingleMoment_eq hfind hclear hmca hnone).trans ht, hmoved.others,
        hmoved.settled fun n => whole_iff.2 ⟨rfl, fun _ h => h⟩,
        fun gid p c hp hc => hmoved.viewByte hflat (fun _ => hp) gid hc⟩
  · intro b hdie hclosed hnext hready
    rw [exec_wsRefresh]
    exact if_pos ⟨hdie, hclosed, hnext, hready⟩
  · intro b hopen
    rw [exec_refreshWindowEnd]
    exact if_pos hopen

end Sys2Proof.Claims
end

section
/-! PROOFS. Properties of memory and of the writes on their way that last: what every operation keeps because it does to them no
more than a few things (spec/13 R241; spec/20 R358; log 6). -/

namespace Sys2Proof.Machine

/-! ### Lasting properties -/

/-- What names, places and arrivals say of a write. -/
def InWrite.rank (w : InWrite) : Nat × Bool × List Observer := (w.id, w.placed, w.arrived)

/-- Names and order depend on nothing else of the writes. -/
theorem ranked_iff_ranks {n : Nat} {ws : List InWrite} : Ranked n ws ↔
    (((ws.map InWrite.rank).map (·.1)).Nodup ∧ ∀ r ∈ ws.map InWrite.rank, r.1 < n) ∧
      (∀ r ∈ ws.map InWrite.rank, r.2.2 ≠ [] → r.2.1 = true) ∧
      (ws.map InWrite.rank).Pairwise fun r q => q.2.1 = true → r.2.1 = true := by
  simp [Ranked, InWrite.rank, List.pairwise_map, Function.comp_def]

/-- A property of memory, of the writes on their way and of the next unused name that lasts: whatever the machine does to these is
one of the following, and each keeps it. -/
structure Lasting where
  rel : List Host.Cell → List InWrite → Nat → Prop
  /-- bytes are written -/
  put : ∀ {m ws n} (cs : List Host.Cell), rel m ws n → rel (Memory.writeCells m cs) ws n
  /-- bytes are cleared -/
  clear : ∀ {m ws n} (p : Host.Cell → Bool), rel m ws n → rel (m.filter p) ws n
  /-- names are given to other things -/
  name : ∀ {m ws n k}, n ≤ k → rel m ws n → rel m ws k
  /-- writes leave the list -/
  leave : ∀ {m ws vs n}, vs.Sublist ws → rel m ws n → rel m vs n
  /-- a new write joins it -/
  join : ∀ {m ws n} {w : InWrite}, w.id = n → w.placed = false → w.arrived = [] → rel m ws n → rel m (ws ++ [w]) (n + 1)
  /-- a write takes its place in coherence order -/
  place : ∀ {m ws n} {w : InWrite}, w ∈ ws → rel m ws n →
    rel m ((ws.filter fun x => x.id ≠ w.id).filter (fun x : InWrite => x.placed) ++ [{ w with placed := true }] ++
      (ws.filter fun x => x.id ≠ w.id).filter fun x : InWrite => !x.placed) n
  /-- a write that has its place arrives -/
  arrive : ∀ {m ws n} {w : InWrite} {f : InWrite → InWrite}, w ∈ ws → w.placed = true → (∀ x, (f x).id = x.id) →
    (∀ x, (f x).placed = x.placed) → rel m ws n → rel m (ws.map fun x => if x.id = w.id then f x else x) n
  /-- other fields of writes change -/
  change : ∀ {m ws vs n}, vs.map InWrite.rank = ws.map InWrite.rank → rel m ws n → rel m vs n

/-- A state has a lasting property. -/
def Lasting.holds (K : Lasting) (s : State) : Prop := K.rel s.mem s.inflight s.nextId

/-- The property that names are given once and that coherence order is whole. -/
def Lasting.writes : Lasting where
  rel _ ws n := Ranked n ws
  put _ h := h
  clear _ h := h
  name hle h := ⟨⟨h.1.1, fun w hw => (h.1.2 w hw).trans_le hle⟩, h.2⟩
  leave := Ranked.sublist
  join := Ranked.snoc
  place := Ranked.place
  arrive {_ ws n w f} hw hp hid hplaced h := by
    refine Ranked.map (fun x => if x.id = w.id then f x else x) (fun x => ?_) (fun x => ?_) (fun x hx ha => ?_) h
    · split
      exacts [hid x, rfl]
    · split
      exacts [hplaced x, rfl]
    · split at ha
      next heq => exact List.inj_on_of_nodup_map h.1.1 hx hw heq ▸ hp
      next => exact h.2.1 x hx ha
  change hranks h := by rwa [ranked_iff_ranks, hranks, ← ranked_iff_ranks]

variable {K : Lasting} {s t : State}

/-- What a fold meets keeps the property, so the fold does. -/
theorem Lasting.holds.foldl {α : Type} {f : State → α → State} (h : K.holds s)
    (hf : ∀ s a, K.holds s → K.holds (f s a)) (l : List α) : K.holds (l.foldl f s) := by
  induction l generalizing s with
  | nil => exact h
  | cons a l ih => exact ih (hf s a h)

/-- Other fields of the writes change, each for itself. -/
theorem Lasting.map {m : List Host.Cell} {ws : List InWrite} {n : Nat} {f : InWrite → InWrite} (hf : ∀ x, (f x).rank = x.rank)
    (h : K.rel m ws n) : K.rel m (ws.map f) n :=
  K.change (by simp only [List.map_map]; exact List.map_congr_left fun x _ => hf x) h

/-- The same of a fold that carries more than the state. -/
theorem Lasting.holds.foldl_by {α β : Type} {π : β → State} {f : β → α → β} {b : β} (h : K.holds (π b))
    (hf : ∀ b a, K.holds (π b) → K.holds (π (f b a))) (l : List α) : K.holds (π (l.foldl f b)) := by
  induction l generalizing b with
  | nil => exact h
  | cons a l ih => exact ih (hf b a h)

/-- The same of a fold of which each part may fail. -/
theorem Lasting.holds.foldl_bind {α : Type} {f : State → α → Option State} (h : K.holds s)
    (hf : ∀ {s a t}, K.holds s → f s a = some t → K.holds t) {l : List α}
    (ht : l.foldl (fun o a => o.bind fun s => f s a) (some s) = some t) : K.holds t := by
  induction l generalizing s with
  | nil => exact Option.some.inj ht ▸ h
  | cons a l ih =>
    rw [List.foldl_cons, Option.bind_some] at ht
    cases ha : f s a with
    | none =>
      have hnone : ∀ l : List α, l.foldl (fun o a => o.bind fun s => f s a) none = none := fun l => by
        induction l with
        | nil => rfl
        | cons a l ih => exact ih
      rw [ha, hnone] at ht
      cases ht
    | some u => exact ih (hf h ha) (ha ▸ ht)

@[simp] theorem Lasting.holds_ite {c : Prop} [Decidable c] :
    K.holds (if c then s else t) ↔ if c then K.holds s else K.holds t := by split <;> rfl

theorem Lasting.holds.ite {c : Prop} [Decidable c] (hs : K.holds s) (ht : K.holds t) : K.holds (if c then s else t) := by
  split
  exacts [hs, ht]

end Sys2Proof.Machine
end

section
/-! PROOFS. Lasting properties: what operations on other parts of the state do, and writes that move (spec/13 R241, R252; spec/20 R358
to R360). -/

namespace Sys2Proof.Machine

variable {K : Lasting} {s : State}

/-- Whatever else a state holds does not count. -/
@[simp] theorem Lasting.holds_mk {groups teams cores dies mem inflight ws pend launches cmds returns ctxs estates tlb walks invs icache
    blocks sideInfo pkg irqs reply agenda cur ecc free tick nextId} :
    K.holds ⟨groups, teams, cores, dies, mem, inflight, ws, pend, launches, cmds, returns, ctxs, estates, tlb, walks, invs, icache,
      blocks, sideInfo, pkg, irqs, reply, agenda, cur, ecc, free, tick, nextId⟩ ↔ K.rel mem inflight nextId := Iff.rfl

@[simp] theorem Lasting.rel_iff : K.rel s.mem s.inflight s.nextId ↔ K.holds s := Iff.rfl

/-! ### Other parts of the state -/

namespace Lasting

@[simp] theorem holds_setGroup {g : Group} : K.holds (s.setGroup g) ↔ K.holds s := Iff.rfl
@[simp] theorem holds_onGroup {id : Nat} {f : Group → Group} : K.holds (s.onGroup id f) ↔ K.holds s := Iff.rfl
@[simp] theorem holds_onTeam {id : Nat} {f : Team → Team} : K.holds (s.onTeam id f) ↔ K.holds s := Iff.rfl
@[simp] theorem holds_onLaunch {id : Nat} {f : Launch → Launch} : K.holds (s.onLaunch id f) ↔ K.holds s := Iff.rfl
@[simp] theorem holds_onCmd {id : Nat} {f : Cmd → Cmd} : K.holds (s.onCmd id f) ↔ K.holds s := Iff.rfl
@[simp] theorem holds_onCtx {n : Nat} {f : Ctx → Ctx} : K.holds (s.onCtx n f) ↔ K.holds s := Iff.rfl
@[simp] theorem holds_setCore {k : Nat} {c : CoreSt} : K.holds (s.setCore k c) ↔ K.holds s := Iff.rfl
@[simp] theorem holds_wake : K.holds s.wake ↔ K.holds s := Iff.rfl
@[simp] theorem holds_setBar {team n : Nat} {b : Barrier} : K.holds (s.setBar team n b) ↔ K.holds s := Iff.rfl
@[simp] theorem holds_interrupt {v : Nat} : K.holds (s.interrupt v) ↔ K.holds s := Iff.rfl
@[simp] theorem holds_setPortReply {port ctx n : Nat} : K.holds (s.setPortReply port ctx n) ↔ K.holds s := Iff.rfl
@[simp] theorem holds_onCrown {f : Crown → Crown} : K.holds (s.onCrown f) ↔ K.holds s := Iff.rfl

end Lasting

/-! ### Writes that move -/

/-- A write that takes its place has it then. -/
theorem State.exists_placed {w : InWrite} (hfind : s.inflight.find? (fun v => decide (v.id = w.id)) = some w) :
    ∃ v ∈ (s.place w.id).inflight, v.id = w.id ∧ v.placed = true := by
  obtain ⟨owed, heq⟩ := State.place_eq hfind
  rw [heq]
  refine ⟨_, List.mem_map_of_mem (a := { w with placed := true }) ?_, rfl, rfl⟩
  unfold ranks
  split
  next hp => exact (InWrite.eq_of_placed hp).symm ▸ List.mem_of_find?_eq_some hfind
  next => simp

namespace Lasting.holds

section
variable (h : K.holds s)
include h

/-- A name is given to something else. -/
theorem fresh : K.holds s.fresh.2 := K.name (Nat.le_succ _) h

@[simp] theorem owe {sc : Nat} {ids : List Nat} : K.holds (s.owe sc ids) := Lasting.map (fun x => by split <;> rfl) h

@[simp] theorem countWrite {w : InWrite} : K.holds (s.countWrite w) := by
  unfold State.countWrite
  split
  · exact h
  · exact Lasting.map (fun x => by split <;> rfl) h

@[simp] theorem settleWrite {id : Nat} : K.holds (s.settleWrite id) := by
  obtain habs | ⟨pre, w, post, hlist, hpre, rfl⟩ := s.split_of_id id
  · rwa [State.settleWrite_of_absent habs]
  · have hsub : (pre ++ post).Sublist s.inflight :=
      hlist ▸ (List.Sublist.refl pre).append (List.sublist_cons_self w post)
    have hrest : K.rel s.mem (pre.map (fun x => x.without w) ++ post) s.nextId :=
      K.change (by simp [Function.comp_def, InWrite.rank, InWrite.without]) (K.leave hsub h)
    rw [State.settleWrite_eq hlist hpre]
    dsimp only
    split
    · exact hrest
    · exact K.put _ hrest

@[simp] theorem settleWrites : K.holds s.settleWrites :=
  h.foldl (fun s w h => by split_ifs <;> simp [h]) _

@[simp] theorem place {id : Nat} : K.holds (s.place id) := by
  unfold State.place
  split
  · exact h
  next w hfind =>
    obtain rfl : w.id = id := by simpa using List.find?_some hfind
    split
    · exact h
    · exact Lasting.holds.foldl (s := { s with inflight := _ }) (K.place (List.mem_of_find?_eq_some hfind) h)
        (fun _ _ h => h.owe) _

/-- A write that takes its place arrives. -/
theorem reach {id : Nat} {f : InWrite → InWrite} (hid : ∀ x, (f x).id = x.id) (hplaced : ∀ x, (f x).placed = x.placed) :
    K.holds { s.place id with inflight := (s.place id).inflight.map fun x => if x.id = id then f x else x } := by
  cases hfind : s.inflight.find? fun w => decide (w.id = id) with
  | none =>
    have habs : ∀ x ∈ s.inflight, ¬ x.id = id := by simpa using List.find?_eq_none.1 hfind
    have heq : s.inflight.map (fun x => if x.id = id then f x else x) = s.inflight :=
      (List.map_congr_left fun x hx => if_neg (habs x hx)).trans s.inflight.map_id
    simpa only [State.place, hfind, heq] using h
  | some w =>
    obtain rfl : w.id = id := by simpa using List.find?_some hfind
    obtain ⟨v, hv, hvid, hvplaced⟩ := State.exists_placed hfind
    have harrive := K.arrive hv hvplaced hid hplaced h.place
    rwa [hvid] at harrive

@[simp] theorem landWrite {id : Nat} : K.holds (s.landWrite id) :=
  settleWrites (h.reach (f := InWrite.landing) (fun _ => rfl) fun _ => rfl)

@[simp] theorem arrive {id : Nat} {os : List Observer} : K.holds (s.arrive id os) := by
  unfold State.arrive
  split
  · exact h
  · have heq : ∀ w : InWrite, (if w.id ≠ id then w else if w.single then { w with arrived := allObservers }
        else { w with arrived := joinNew w.arrived (if w.mca then os else joinNew [.socket w.site.die] os) }) =
        if w.id = id then w.reaching os else w := fun w => by by_cases hw : w.id = id <;> simp [hw, InWrite.reaching]
    simp only [heq]
    exact settleWrites (h.reach (fun _ => by unfold InWrite.reaching; split <;> rfl) fun _ => by
      unfold InWrite.reaching; split <;> rfl)

@[simp] theorem bring {id : Nat} {os : List Observer} : K.holds (s.bring id os) :=
  h.foldl (fun s w h => by simp [h]) _

@[simp] theorem bringAll {ids : List Nat} : K.holds (s.bringAll ids) := h.foldl (fun _ _ h => h.bring) ids

@[simp] theorem performFor {r : Rel} {ids : List Nat} : K.holds (s.performFor r ids) := by
  unfold State.performFor
  split
  · exact h.owe
  · exact h.foldl (fun _ _ h => h.bring) _

@[simp] theorem stirTile {team : Nat} : K.holds (s.stirTile team) := h.foldl (fun _ _ h => h.bring) _

@[simp] theorem stirMem {die : Nat} : K.holds (s.stirMem die) := h.foldl (fun _ _ h => h.bring) _

@[simp] theorem summon {me : Site} {n : Nat} {l : Loc} : K.holds (s.summon me n l) :=
  h.foldl (fun s w h => by simp [h]) _

theorem summonAll {me : Site} {hit : InWrite → Bool} {t : State} (ht : s.summonAll me hit = some t) : K.holds t := by
  unfold State.summonAll at ht
  dsimp only at ht
  split at ht
  · cases ht
    exact h.foldl (fun _ _ h => h.bring) _
  · cases ht

@[simp] theorem clearWay {pa n : Nat} : K.holds (s.clearWay pa n) := h.foldl (fun s w h => by simp [h]) _

@[simp] theorem writeRaw {pa : Nat} {bs : List Byte} : K.holds (s.writeRaw pa bs) :=
  K.put _ (Lasting.map (fun x => by dsimp only; split <;> rfl) h.clearWay)

@[simp] theorem writeNow {ctx va pa : Nat} {bs : List Byte} : K.holds (s.writeNow ctx va pa bs) := h.writeRaw

@[simp] theorem writeTile {team ofs : Nat} {bs : List Byte} : K.holds (s.writeTile team ofs bs) :=
  (Lasting.map (fun x => by dsimp only; split <;> rfl) h : K.rel s.mem _ s.nextId)

@[simp] theorem setDirty {pte : Nat} : K.holds (s.setDirty pte) := by simp [State.setDirty, h]

@[simp] theorem setDirtyAt {o : Observer} {d : CtxDesc} {va : Nat} : K.holds (s.setDirtyAt o d va) := by
  unfold State.setDirtyAt
  split
  · exact h
  · exact h.setDirty

/-- A new write joins those on their way. -/
theorem addWrite {w : InWrite} (hplaced : w.placed = false) (harrived : w.arrived = []) : K.holds (s.addWrite w) :=
  K.join (w := { w with id := s.nextId }) rfl hplaced harrived h

end

end Lasting.holds

end Sys2Proof.Machine
end

section
/-! PROOFS. Lasting properties: entries, barriers, groups that end, and exceptions (spec/09 R195, R197; spec/17 R311 to R321). -/

namespace Sys2Proof.Machine

variable {K : Lasting} {s t : State}

namespace Lasting.holds

section
variable (h : K.holds s)
include h

/-! ### Entries -/

@[simp] theorem drainOrphans {os : List Orphan} : K.holds (Machine.drainOrphans os s) := by
  induction os generalizing s with
  | nil => exact h
  | cons o os ih =>
    rw [Machine.drainOrphans]
    split
    · refine ih (foldl (f := State.interrupt) (Lasting.holds_mk.2 h) (fun _ _ h => h) _)
    · exact h

@[simp] theorem orphan {o : Orphan} : K.holds (s.orphan o) := h.drainOrphans

@[simp] theorem writeEntry {c : Ctx} {p : Posting} : K.holds (s.writeEntry c p).1 := by
  unfold State.writeEntry
  simp [h]

@[simp] theorem drainFaults {ps : List Posting} {c : Ctx} : K.holds (Machine.drainFaults ps (s, c)).1 := by
  induction ps generalizing s c with
  | nil => exact h
  | cons p ps ih =>
    rw [Machine.drainFaults]
    split_ifs
    · exact ih (s := s.lostEntry _ _) h
    · exact ih h.writeEntry
    · exact h

@[simp] theorem postAll {n : Nat} {ps : List Posting} : K.holds (s.postAll n ps) := by
  unfold State.postAll
  split
  · exact h
  · exact h.drainFaults

@[simp] theorem post {n : Nat} {p : Posting} : K.holds (s.post n p) := h.postAll

@[simp] theorem drain : K.holds s.drain := by
  unfold State.drain
  extract_lets s₁ s₂ r
  have h₁ : K.holds s₁ := by simp [s₁, h]
  have h₂ : K.holds s₂ := h₁.foldl (fun s e h => by simp [h]) _
  exact foldl_by (π := Prod.fst) (b := (s₂, [])) h₂ (fun _ _ h => h.drainFaults) _

/-! ### Barriers -/

@[simp] theorem postBar {t : Team} {n qid : Nat} : K.holds (s.postBar t n qid) := h.post

@[simp] theorem deviceArrive {team n : Nat} {rs : List Rel} : K.holds (s.deviceArrive team n rs) := by
  unfold State.deviceArrive
  split
  · exact h
  · simp [h]

@[simp] theorem deliverBar {team bar n qid : Nat} {rs : List Rel} : K.holds (s.deliverBar team bar n qid rs) := by
  unfold State.deliverBar
  split
  · exact h
  · simp [h]

/-! ### The end of groups, teams and launches -/

@[simp] theorem retireTeam {team : Nat} : K.holds (s.retireTeam team) := by
  unfold State.retireTeam
  split
  · exact h
  · extract_lets k c s₁ s₂
    have h₁ : K.holds s₁ := K.leave List.filter_sublist h
    have h₂ : K.holds s₂ := by simp [s₂, h₁]
    split
    · exact h
    · exact h₂

@[simp] theorem countClaims {g : Group} : K.holds (s.countClaims g) := by
  unfold State.countClaims
  split
  · exact h
  · simp [h]

@[simp] theorem dropClaims {gid : Nat} : K.holds (s.dropClaims gid) := by
  unfold State.dropClaims
  split
  · exact h
  · exact h

@[simp] theorem retireGroup {gid : Nat} : K.holds (s.retireGroup gid) := by
  unfold State.retireGroup
  split
  · exact h
  · extract_lets s₁ s₂ s₃
    have h₂ : K.holds s₂ := (h.countClaims.dropClaims : K.holds s₁)
    refine retireTeam ?_
    simp only [s₃]
    split
    · exact h₂
    · exact h₂

@[simp] theorem postCauses {g : Group} {repl : Bool} : K.holds (s.postCauses g repl) := by
  unfold State.postCauses
  split
  · exact h
  · exact h.postAll

@[simp] theorem retireEnded {g : Group} : K.holds (s.retireEnded g) := by simp [State.retireEnded, h]

@[simp] theorem stopGroup {g : Group} : K.holds (s.stopGroup g) := by simp [State.stopGroup, h]

@[simp] theorem endLaunch {lid status : Nat} : K.holds (s.endLaunch lid status) :=
  Lasting.holds.foldl (s := s.onLaunch lid _) h (fun _ _ h => h.stopGroup) _

/-! ### Exceptions -/

@[simp] theorem settleFault {gid : Nat} : K.holds (s.settleFault gid) := by
  unfold State.settleFault
  split
  · exact h
  · split
    · exact h
    · split <;> simp [h]

@[simp] theorem settleFaults : K.holds s.settleFaults := h.foldl (fun _ _ h => h.settleFault) _

@[simp] theorem faultGroup {gid : Nat} {c : CauseRec} : K.holds (s.faultGroup gid c) := settleFault (s := s.onGroup _ _) h

@[simp] theorem raise {g : Group} {debug : Bool} {c : CauseRec} {hmask : W32} : K.holds (s.raise g debug c hmask) := by
  simp [State.raise, h]

end

end Lasting.holds

/-! ### Instructions and steps -/

/-- The property holds after a step that happens. -/
def Lasting.next (K : Lasting) : Res → Prop
  | .next s => K.holds s
  | _ => True

@[simp] theorem Lasting.next_next : K.next (.next s) ↔ K.holds s := Iff.rfl
@[simp] theorem Lasting.next_notEnabled : K.next notEnabled := trivial
@[simp] theorem Lasting.next_ite {c : Prop} [Decidable c] {r q : Res} :
    K.next (if c then r else q) ↔ if c then K.next r else K.next q := by split <;> rfl

theorem Lasting.next_if {c : Prop} [Decidable c] {r q : Res} (hr : K.next r) (hq : K.next q) : K.next (if c then r else q) := by
  split
  exacts [hr, hq]

/-- A step that is not enabled does not happen. -/
theorem Lasting.next_unless {c : Prop} [Decidable c] {r : Res} (hr : K.next r) : K.next (if c then notEnabled else r) :=
  Lasting.next_if trivial hr

/-- A step that happens only if it is enabled. -/
theorem Lasting.next_when {c : Prop} [Decidable c] {r : Res} (hr : K.next r) : K.next (if c then r else notEnabled) :=
  Lasting.next_if hr trivial

@[simp] theorem Lasting.next_did (h : K.holds s) : K.next s.did := h

@[simp] theorem Lasting.next_didPosting {n : Nat} (h : K.holds t) : K.next (s.didPosting n t) := by
  simp [State.didPosting, h]

@[simp] theorem Lasting.next_posting {n : Nat} {r : Res} (h : K.next r) : K.next (s.posting n r) := by
  unfold State.posting
  split
  · simpa using fun _ => h
  · exact h

/-- An instruction that completes gives what `Q` says; where it stops, the property holds. -/
def Lasting.runs (K : Lasting) {α : Type} (Q : α → Prop) : Except Stop α → Prop
  | .ok a => Q a
  | .error (.stall s _) => K.holds s
  | .error (.cause s _ _) => K.holds s

section runs
variable {α β : Type} {Q : α → Prop} {R : β → Prop} {i : Iss}

@[simp] theorem Lasting.runs_ok {a : α} : K.runs Q (.ok a) ↔ Q a := Iff.rfl
@[simp] theorem Lasting.runs_stall {w : Wait} : K.runs Q (.error (.stall s w)) ↔ K.holds s := Iff.rfl
@[simp] theorem Lasting.runs_stop {c : CauseRec} {moves : Bool} : K.runs Q (.error (.cause s c moves)) ↔ K.holds s := Iff.rfl
@[simp] theorem Lasting.runs_ite {c : Prop} [Decidable c] {x y : Except Stop α} :
    K.runs Q (if c then x else y) ↔ if c then K.runs Q x else K.runs Q y := by split <;> rfl

@[simp] theorem Lasting.runs_bind_iff {x : Except Stop α} {f : α → Except Stop β} :
    K.runs R (x >>= f) ↔ K.runs (fun a => K.runs R (f a)) x := by
  match x with
  | .ok a => rfl
  | .error (.stall _ _) => rfl
  | .error (.cause _ _ _) => rfl

/-- Where every stop keeps the property, what is left is what the results give. -/
theorem Lasting.runs_iff_of_stops {x : Except Stop α} (hx : K.runs (fun _ => True) x) :
    K.runs Q x ↔ ∀ a, x = .ok a → Q a := by
  match x, hx with
  | .ok a, _ => simp
  | .error (.stall _ _), hx => simpa using hx
  | .error (.cause _ _ _), hx => simpa using hx

theorem Lasting.runs_if {c : Prop} [Decidable c] {x y : Except Stop α} (hx : K.runs Q x) (hy : K.runs Q y) :
    K.runs Q (if c then x else y) := by
  split
  exacts [hx, hy]

theorem Lasting.runs_mono {P : α → Prop} {x : Except Stop α} (hx : K.runs P x) (h : ∀ a, P a → Q a) : K.runs Q x := by
  match x with
  | .ok a => exact h a hx
  | .error (.stall _ _) => exact hx
  | .error (.cause _ _ _) => exact hx

theorem Lasting.runs_bind {x : Except Stop α} {f : α → Except Stop β} (hx : K.runs Q x)
    (hf : ∀ a, Q a → K.runs R (f a)) : K.runs R (x >>= f) := by
  match x with
  | .ok a => exact hf a hx
  | .error (.stall _ _) => exact hx
  | .error (.cause _ _ _) => exact hx

/-- A part of an instruction that only some forms have. -/
theorem Lasting.runs_optional {c : Prop} [Decidable c] {x : Except Stop α} {a : α} {f : α → Except Stop β} (hx : K.runs Q x)
    (ha : Q a) (hf : ∀ b, Q b → K.runs R (f b)) : K.runs R (if c then x >>= f else Except.ok a >>= f) := by
  split
  exacts [runs_bind hx hf, hf a ha]

@[simp] theorem Lasting.runs_wait (h : K.holds i.s) : K.runs Q i.wait := h
@[simp] theorem Lasting.runs_cause {code : BitVec 8} {lane : Nat} (h : K.holds i.s) : K.runs Q (i.cause code lane) := h
@[simp] theorem Lasting.runs_check {Q : Unit → Prop} {ok : Bool} {code : BitVec 8} {lane : Nat} (h : K.holds i.s) :
    K.runs Q (i.check ok code lane) ↔ (ok = true → Q ()) := by
  unfold Iss.check
  split <;> simp [*]

/-- The next state of an instruction. -/
theorem Lasting.next_finish {r : Except Stop Done} (h : K.holds i.s) (hr : K.runs (fun d => K.holds d.s) r) :
    K.next (i.finish r) := by
  unfold Iss.finish
  split
  · exact hr
  · have hr : K.holds _ := hr
    simp [h, hr]
  · have hr : K.holds _ := hr
    split
    · exact h.raise
    · exact hr

/-- An instruction keeps what its body keeps. -/
theorem Lasting.next_issue {size : Nat} {gd : Guard} {u : Bool} {body : Iss → Except Stop Done} (h : K.holds s)
    (hbody : ∀ i : Iss, K.holds i.s → K.runs (fun d => K.holds d.s) (body i)) : K.next (issue s size gd u body) := by
  unfold issue
  split
  · trivial
  · refine Lasting.next_finish h ?_
    split
    · exact h
    · exact hbody _ h

end runs

end Sys2Proof.Machine
end

section
/-! PROOFS. Lasting properties: instructions that access no memory (spec/01 R36; spec/04; spec/05; spec/08 R167 to R172). -/

namespace Sys2Proof.Machine

variable {K : Lasting} {s : State} {i : Iss}

namespace Lasting

/-! ### Checks, and the general form -/

section checks
variable {Q : Unit → Prop} (h : K.holds i.s)
include h

@[simp] theorem runs_checkBounds {os : List Opnd} :
    K.runs Q (i.checkBounds os) ↔ (i.checkBounds os = .ok () → Q ()) :=
  (runs_iff_of_stops ((runs_check h).2 fun _ => trivial)).trans ⟨fun hq => hq (), fun hq _ => hq⟩

theorem stops_checkSrcs {fs : List Field} {seen : List Opnd} : K.runs (fun _ => True) (i.checkSrcs fs seen) := by
  induction fs generalizing seen with
  | nil => trivial
  | cons f fs ih =>
    unfold Iss.checkSrcs
    split
    · split
      exacts [h, h]
    · exact ih

@[simp] theorem runs_checkSrcs {fs : List Field} {seen : List Opnd} :
    K.runs Q (i.checkSrcs fs seen) ↔ (i.checkSrcs fs seen = .ok () → Q ()) :=
  (runs_iff_of_stops (stops_checkSrcs h)).trans ⟨fun hq => hq (), fun hq _ => hq⟩

@[simp] theorem runs_ready {srcs : List Field} {dsts : List Opnd} :
    K.runs Q (i.ready srcs dsts) ↔ (i.ready srcs dsts = .ok () → Q ()) :=
  (runs_iff_of_stops (by simp [Iss.ready, h])).trans ⟨fun hq => hq (), fun hq _ => hq⟩

@[simp] theorem runs_applyAll {srcs : List Field} {dsts : List Opnd} {f : List (Nat × List Datum) → List (Nat × LaneOut)} :
    K.runs (fun d => K.holds d.s) (i.applyAll srcs dsts f) := by
  simp only [Iss.applyAll, runs_bind_iff, runs_ready h]
  intro _
  split
  exacts [h, h]

@[simp] theorem runs_apply {srcs : List Field} {dsts : List Opnd} {f : Nat → List Datum → LaneOut} :
    K.runs (fun d => K.holds d.s) (i.apply srcs dsts f) := runs_applyAll h

theorem runs_branchTo {rc : BitVec 20} {t : CodeAt} : K.runs (fun d => K.holds d.s) (i.branchTo rc t) := by
  unfold Iss.branchTo
  split_ifs
  · exact h
  · exact h
  · dsimp only
    split
    exacts [h, h]

theorem runs_codeOffset {d : Opnd} {Q : CodeAt → Prop} (hq : ∀ t, Q t) : K.runs Q (i.codeOffset d) := by
  simp only [Iss.codeOffset, runs_bind_iff, runs_checkBounds h, runs_checkSrcs h]
  intro _ _
  split
  · exact h
  · split
    exacts [hq _, h]

end checks

section instructions
variable (h : K.holds s)
include h

/-- Instructions of the general form. -/
theorem next_apply {size : Nat} {gd : Guard} {u : Bool} {srcs : List Field} {dsts : List Opnd}
    {f : Iss → Nat → List Datum → LaneOut} : K.next (issue s size gd u fun i => i.apply srcs dsts (f i)) :=
  next_issue h fun _ hi => runs_apply hi

theorem next_applyAll {size : Nat} {gd : Guard} {u : Bool} {srcs : List Field} {dsts : List Opnd}
    {f : Iss → List (Nat × List Datum) → List (Nat × LaneOut)} :
    K.next (issue s size gd u fun i => i.applyAll srcs dsts (f i)) :=
  next_issue h fun _ hi => runs_applyAll hi

/-! ### Other forms -/

theorem next_execCrnd {w : FmtA} : K.next (execCrnd w s) :=
  next_issue h fun i hi => by
    simp only [runs_bind_iff, runs_ready hi]
    intro _
    split
    exacts [hi, hi.fresh]

theorem next_execMfs {w : FmtB} : K.next (execMfs w s) :=
  next_issue h fun i hi => by
    dsimp only
    split
    · simp only [runs_bind_iff, runs_ready hi]
      intro _
      split
      exacts [hi, hi.fresh]
    · exact runs_apply hi

theorem holds.writeSpecial {sr : Nat} {x : W32} {t : Team} {g : Group} : K.holds (Machine.writeSpecial sr x t s g).1 := by
  unfold Machine.writeSpecial
  split <;> exact h

theorem next_execMts {w : FmtB} : K.next (execMts w s) :=
  next_issue h fun i hi => by
    simp [hi, hi.writeSpecial]

theorem next_execPpoll {w : FmtPoll} : K.next (execPpoll w s) :=
  next_issue h fun i hi => by
    dsimp only
    split <;> exact runs_apply hi

theorem next_execWaitf {w : FmtWait} : K.next (execWaitf w s) :=
  next_issue h fun i hi => by
    simp only [runs_bind_iff, runs_checkBounds hi]
    intro _
    split
    · split
      exacts [hi, hi]
    · exact hi

/-! ### Control transfers -/

theorem next_execBrx {w : FmtX} : K.next (execBrx w s) :=
  next_issue h fun i hi => by
    simp only [runs_bind_iff, runs_check hi]
    exact fun _ => runs_codeOffset hi fun _ => runs_branchTo hi

theorem next_execCall {w : FmtX} : K.next (execCall w s) := next_issue h fun i hi => by simp [hi]

theorem next_execRet {w : FmtX} : K.next (execRet w s) :=
  next_issue h fun i hi => by
    simp only [runs_bind_iff, runs_check hi]
    exact fun _ => runs_codeOffset hi fun _ => hi

theorem next_execLoop {w : FmtX} : K.next (execLoop w s) :=
  next_issue h fun i hi => by
    simp only [runs_bind_iff, runs_checkBounds hi, runs_check hi, runs_checkSrcs hi]
    intro _ _ _
    split
    · exact hi
    · split
      · exact hi
      · simp [hi]

theorem next_execLbrk {w : FmtX} : K.next (execLbrk w s) := next_issue h fun i hi => by simp [hi]

theorem next_execTret {w : FmtX} : K.next (execTret w s) :=
  next_issue h fun i hi => by
    split
    exacts [hi, hi]

end instructions

end Lasting

end Sys2Proof.Machine
end

section
/-! PROOFS. Lasting properties: accesses of memory, in the order of the machine's shared operations on them (spec/06 R137 to R154;
spec/13 R241 to R252). -/

namespace Sys2Proof.Machine

variable {K : Lasting} {s t : State} {i : Iss}

namespace Lasting.holds

section
variable (h : K.holds s)
include h

/-! ### Acquires, and new writes -/

@[simp] theorem take {gid : Nat} {scope : Rel → Nat} {rs : List Rel} : K.holds (s.take gid scope rs) := h

@[simp] theorem acquire {gid sc : Nat} {rs : List Rel} : K.holds (s.acquire gid sc rs) := h

@[simp] theorem note {gid : Nat} {rs : List Rel} : K.holds (s.note gid rs) := by simp [State.note, h]

@[simp] theorem met {gid : Nat} {acq : Option Nat} {rs : List Rel} : K.holds (s.met gid acq rs) := by
  unfold State.met
  split
  exacts [h.note.acquire, h.note]

@[simp] theorem meet {me : Site} {n : Nat} {l : Loc} : K.holds (s.meet me n l) := h.summon.foldl (fun _ _ h => h.arrive) _

/-! ### Accesses are performed -/

@[simp] theorem atomOne {p : Pending} {op : AtomOp} {own : Option Rel} {a : Access} : K.holds (s.atomOne p op own a).1 := by
  unfold State.atomOne
  split
  · extract_lets me s₁ old met gained s₂ ds r b cmp own' id s₃
    have h₂ : K.holds s₂ := by
      simp only [s₂]
      split
      exacts [h.meet, h.meet.performFor]
    have hadd : ∀ w : InWrite, w.placed = false → w.arrived = [] → K.holds (s₂.addWrite w) := fun w => h₂.addWrite
    simp only [s₃]
    split
    · exact h₂
    · split
      · exact (hadd _ rfl rfl).place
      · exact (hadd _ rfl rfl).arrive
  · exact h

@[simp] theorem atomAll {p : Pending} {op : AtomOp} {err : Bool} {sel : Access → Bool} : K.holds (s.atomAll p op err sel).1 := by
  unfold State.atomAll
  split
  · exact h
  · extract_lets s₁ step r
    have h₁ : K.holds s₁ := h.foldl (fun _ _ h => h.performFor) _
    have hstep : ∀ x a, K.holds x.1 → K.holds (step x a).1 := fun x a hx => by
      dsimp only [step]
      refine atomOne ?_
      split
      · exact hx
      · exact hx.foldl (fun _ _ h => h.performFor) _
    have hr : K.holds r.1 := foldl_by (π := Prod.fst) (b := (s₁, [], [], [])) h₁ hstep _
    clear_value r
    exact met (Lasting.holds_mk.2 hr)

@[simp] theorem performPart {id : Nat} {sel : Access → Bool} : K.holds (s.performPart id sel) := by
  unfold State.performPart
  split
  · exact h
  · split
    · exact h
    · extract_lets me todo s₁ met fix r
      refine Lasting.holds_mk.2 (?_ : K.holds r.1)
      simp only [r]
      split
      · exact h.atomAll
      · exact (h.foldl (fun _ _ h => h.summon) todo : K.holds s₁).met

@[simp] theorem perform {id : Nat} : K.holds (s.perform id) := h.performPart

theorem performEach {ids : List Nat} : K.holds (ids.foldl State.perform s) := h.foldl (fun _ _ h => h.perform) ids

@[simp] theorem performAll {gid : Nat} : K.holds (s.performAll gid) := h.performEach

@[simp] theorem performOver {gid n : Nat} {locs : List Loc} : K.holds (s.performOver gid n locs) := h.performEach

/-! ### What release sides carry -/

theorem fulfil {r : Rel} (ht : s.fulfil r = some t) : K.holds t := by
  unfold State.fulfil at ht
  dsimp only at ht
  split at ht
  · cases ht
    exact h.performEach.performFor
  · cases ht

theorem fulfilAll {rs : List Rel} (ht : s.fulfilAll rs = some t) : K.holds t := h.foldl_bind (fun h ht => h.fulfil ht) ht

theorem observe {gid : Nat} {rs : List Rel} (ht : s.observe gid rs = some t) : K.holds t := by
  obtain ⟨u, hu, rfl⟩ := Option.map_eq_some_iff.1 ht
  exact (h.fulfilAll hu).take

end

/-- A load that meets a write of an engine or of the matrix unit. -/
@[simp] theorem tear (h : K.holds t) {n : Nat} {l : Loc} : K.holds (s.tear t n l) := by
  unfold State.tear
  extract_lets one load
  have hone : ∀ u p a, K.holds u → K.holds (one u p a).1 := fun u p a hu => by
    dsimp only [one]
    split
    exacts [hu.summon.met, hu]
  split
  · exact h
  · exact foldl (s := t) h (fun u p hu => Lasting.holds_mk.2
      (foldl_by (π := fun x : State × List Access => x.1) (b := (u, [])) hu (fun x a hx => hone _ _ _ hx) _)) _

/-! ### Translations -/

section
variable (h : K.holds s)
include h

@[simp] theorem tlbFill {e : TlbEnt} : K.holds (s.tlbFill e) := by
  unfold State.tlbFill
  dsimp only
  split_ifs <;> exact h

@[simp] theorem queueWalk {die ctx gid page : Nat} : K.holds (s.queueWalk die ctx gid page) := by
  unfold State.queueWalk
  dsimp only
  split_ifs
  exacts [h, h, h]

@[simp] theorem prefetchLines {xs : List (Nat × Nat)} : K.holds (s.prefetchLines xs) := by
  induction xs generalizing s with
  | nil => exact h
  | cons x xs ih => exact ih (s := { s with free := _, icache := _ }) h

@[simp] theorem storeEstate {e : Estate} : K.holds (s.storeEstate e) := h

theorem claimAll {ctx chain n : Nat} {ls : List (Nat × Nat)} : K.holds (State.claimAll s ctx chain n ls).1 := by
  induction ls generalizing s with
  | nil => exact h
  | cons x ls ih =>
    unfold State.claimAll
    split
    · exact ih h
    · exact ih (s := { s with estates := _ }) h

end

end Lasting.holds

namespace Lasting

/-! ### An issuing instruction -/

section
variable (h : K.holds i.s) {n : Nat} {locs : List Loc}
include h

theorem runs_observe {rs : List Rel} : K.runs (fun j => K.holds j.s) (i.observe rs) := by
  unfold Iss.observe
  split
  · exact h
  next hs => exact h.observe hs

@[simp] theorem runs_gate {Q : Unit → Prop} : K.runs Q i.gate ↔ (i.gate = .ok () → Q ()) :=
  (runs_iff_of_stops (by unfold Iss.gate; split; exacts [h, trivial])).trans ⟨fun hq => hq (), fun hq _ => hq⟩

theorem runs_over : K.runs (fun j => K.holds j.s) (i.over n locs) := by
  unfold Iss.over
  dsimp only
  split
  exacts [h, h.performOver]

theorem runs_readAll : K.runs (fun j => K.holds j.s) i.readAll := by
  unfold Iss.readAll
  dsimp only
  split
  exacts [h, h.performAll]

@[simp] theorem runs_release {sc : Nat} {Q : Rel → Prop} : K.runs Q (i.release sc) ↔ (i.gate = .ok () → Q (i.side sc)) := by
  simp [Iss.release, h]

theorem runs_settle {sc : Nat} : K.runs (fun j => K.holds j.s) (i.settle sc) := by
  unfold Iss.settle
  split
  · exact h
  next hs => exact h.fulfil hs

theorem runs_fenceIn {sc : Nat} : K.runs (fun j => K.holds j.s) (i.fenceIn sc) :=
  runs_bind (runs_readAll h) fun _ hj => hj

/-- The checks of accesses fill TLBs, queue walks and set dirty bits. -/
theorem runs_judge {cs : List Checked} : K.runs (fun r => K.holds r.1.s) (i.judge cs) := by
  unfold Iss.judge
  extract_lets pages j s₁
  have hj : K.holds j.s := h.foldl (fun _ _ h => h.tlbFill) _
  have h₁ : K.holds s₁ := hj.foldl (fun _ _ h => h.setDirty) _
  split
  · exact hj.foldl (fun _ _ h => h.queueWalk) _
  · split
    exacts [h₁, h₁]

theorem runs_bounded {base : List Field} {os : List Opnd} {x : Except Stop (Iss × List Access)} {Q : Unit → Prop}
    (hx : K.runs (fun r => K.holds r.1.s) x) :
    K.runs Q (i.bounded base os fun _ => x) ↔ ((i.bounded base os fun _ => x) = .ok () → Q ()) := by
  refine (runs_iff_of_stops ?_).trans ⟨fun hq => hq (), fun hq _ => hq⟩
  unfold Iss.bounded
  dsimp only
  split
  · trivial
  · split
    · match x, hx with
      | .ok _, hx => exact hx
      | .error (.stall _ _), hx => exact hx
      | .error (.cause _ _ _), hx => simpa using hx
    · exact h

@[simp] theorem runs_checkFence {accs : List Access} {Q : Unit → Prop} :
    K.runs Q (i.checkFence accs) ↔ (i.checkFence accs = .ok () → Q ()) :=
  (runs_iff_of_stops (by unfold Iss.checkFence; split; exacts [trivial, h])).trans ⟨fun hq => hq (), fun hq _ => hq⟩

@[simp] theorem runs_roomFor {j : Iss} {Q : Unit → Prop} :
    K.runs Q (i.roomFor j) ↔ (i.roomFor j = .ok () → Q ()) :=
  (runs_iff_of_stops (by unfold Iss.roomFor; split; exacts [trivial, h])).trans ⟨fun hq => hq (), fun hq _ => hq⟩

theorem holds_put {mca : Bool} {rel : Option Rel} {a : Access} {bs : List Byte} : K.holds (i.put mca rel a bs).s := by
  unfold Iss.put
  dsimp only
  split
  · exact h.addWrite rfl rfl
  · exact h.addWrite rfl rfl
  · exact h
  · exact h

theorem holds_putAll {mca : Bool} {rel : Option Nat} {accs : List Access} {bytes : Access → List Byte} :
    K.holds (i.putAll mca rel accs bytes).s :=
  holds.foldl_by (π := Iss.s) h (fun _ _ h => holds.foldl_by (π := Iss.s) h (fun _ _ h => holds_put h) _) _

theorem holds_reportEcc {space : Nat} {accs : List Access} : K.holds (i.reportEcc space accs).s := by
  unfold Iss.reportEcc
  split
  · exact h
  · split
    · exact h
    · exact holds.post (Lasting.holds_mk.2 h)

theorem runs_load {kind : PendKind} {base : List Field} {d : Opnd} {acq : Bool} {sc : Nat}
    {prep : Iss → Except Stop (Iss × List Access)} (hprep : ∀ i : Iss, K.holds i.s → K.runs (fun r => K.holds r.1.s) (prep i)) :
    K.runs (fun d => K.holds d.s) (i.load kind base d n acq sc prep) := by
  simp only [Iss.load, runs_bind_iff, runs_bounded h (hprep i h), runs_ready h, runs_gate h]
  intro _ _ _
  refine runs_mono (hprep i h) fun r hr => ?_
  exact runs_mono (runs_over hr) fun j hj => hj.fresh

theorem runs_store {base : List Field} {d : Opnd} {space : Nat} {mca : Bool} {rel : Option Nat}
    {prep : Iss → Except Stop (Iss × List Access)} (hprep : ∀ i : Iss, K.holds i.s → K.runs (fun r => K.holds r.1.s) (prep i)) :
    K.runs (fun d => K.holds d.s) (i.store base d n space mca rel prep) := by
  simp only [Iss.store, runs_bind_iff, runs_bounded h (hprep i h), runs_ready h, runs_gate h]
  intro _ _ _
  refine runs_mono (hprep i h) fun r hr => ?_
  simp only [runs_checkFence hr, runs_roomFor hr]
  intro _
  refine runs_mono (runs_over hr) fun j hj => ?_
  intro _
  refine holds_reportEcc (holds_putAll ?_)
  exact hj

theorem runs_nullAtomic {w : FmtMA} : K.runs (fun d => K.holds d.s) (i.nullAtomic w) := by
  simp only [Iss.nullAtomic, runs_bind_iff, runs_ready h, runs_gate h]
  intro _ _
  refine runs_optional (runs_fenceIn h) h fun j hj => runs_optional (runs_settle hj) hj fun k hk => ?_
  split
  exacts [hk, hk]

theorem runs_flat {k : Kind} {tans : Nat} {a : Opnd} {ofs : Int} : K.runs (fun r => K.holds r.1.s) (i.flat k n tans a ofs) :=
  runs_judge h

theorem runs_atomic {w : FmtMA} {fn tans : Nat} : K.runs (fun d => K.holds d.s) (i.atomic w fn tans) := by
  have hflat := runs_flat (n := szBytes w.sz) (k := .write) (tans := tans) (a := w.a) (ofs := w.ofs.toInt) h
  simp only [Iss.atomic, runs_bind_iff, runs_bounded h hflat, runs_ready h, runs_gate h]
  intro _ _ _
  refine runs_mono hflat fun c hc => ?_
  refine runs_mono (runs_over hc) fun j hj => ?_
  refine runs_optional (runs_readAll hj) hj fun k hk => ?_
  exact runs_if (runs_if hk (runs_if hk.fresh.atomAll hk.fresh.atomAll)) hk.fresh

end

end Lasting

end Sys2Proof.Machine
end

section
/-! PROOFS. Lasting properties: loads, stores, atomics, estates, barriers and commands, as instructions make them (spec/06; spec/09 R195
to R197; spec/10; spec/14 R254 to R263; spec/21 R376 to R378). -/

namespace Sys2Proof.Machine

variable {K : Lasting} {s : State} {i : Iss}

namespace Lasting

/-! ### Accesses by space -/

section spaces
variable (h : K.holds i.s) {p : Option Dual} {w : FmtM}
include h

theorem runs_tileAccess : K.runs (fun r => K.holds r.1.s) (i.tileAccess p w) := runs_judge h
theorem runs_laneAccess : K.runs (fun r => K.holds r.1.s) (i.laneAccess p w) := runs_judge h
theorem runs_windowAccess : K.runs (fun r => K.holds r.1.s) (i.windowAccess p w) := runs_judge h

/-! ### Lanes that leave -/

@[simp] theorem runs_waitProducers {Q : Unit → Prop} : K.runs Q i.waitProducers ↔ (i.waitProducers = .ok () → Q ()) :=
  (runs_iff_of_stops (by unfold Iss.waitProducers; split; exacts [h, trivial])).trans ⟨fun hq => hq (), fun hq _ => hq⟩

end spaces

theorem holds_leave (h : K.holds s) {g : Group} {statuses : List (Nat × BitVec 8)} {region : Bool} :
    K.holds (i.leave s g statuses region).s := by
  unfold Iss.leave
  extract_lets s₁ gone g' s₂
  have h₂ : K.holds s₂ := by
    simp only [s₂]
    split
    · exact holds.retireGroup (s := s₁) h
    · exact h
  split
  exacts [h₂, h₂]

/-! ### Barriers -/

theorem runs_barrier (h : K.holds i.s) {a : Opnd} {fa : Bool} {imm : W32} {more : List Opnd} {Q : Team × Nat → Prop}
    (hq : ∀ b, Q b) : K.runs Q (i.barrier a fa imm more) := by
  simp only [Iss.barrier, runs_bind_iff, runs_ready h, runs_check h]
  intro _ _
  split
  exacts [h, hq _]

/-- A command is accepted. -/
theorem holds_accept (h : K.holds i.s) {qid gslot lane : Nat} {bytes : List Byte} {ret : Option RetTo} {forks : List Rel} :
    K.holds (i.accept qid gslot lane bytes ret forks) := by
  unfold Iss.accept
  dsimp only
  split
  · exact h
  · exact h.fresh

section instructions
variable (h : K.holds s)
include h

/-! ### Loads and stores -/

theorem next_execLd {p : Option Dual} {w : FmtM} : K.next (execLd p w s) :=
  next_issue h fun _ hi => runs_load hi fun _ hi => runs_flat hi
theorem next_execLdq {p : Option Dual} {w : FmtM} : K.next (execLdq p w s) :=
  next_issue h fun _ hi => runs_load hi fun _ hi => runs_flat hi
theorem next_execLdt {p : Option Dual} {w : FmtM} : K.next (execLdt p w s) :=
  next_issue h fun _ hi => runs_load hi fun _ hi => runs_tileAccess hi
theorem next_execLdl {p : Option Dual} {w : FmtM} : K.next (execLdl p w s) :=
  next_issue h fun _ hi => runs_load hi fun _ hi => runs_laneAccess hi
theorem next_execLdw {p : Option Dual} {w : FmtM} : K.next (execLdw p w s) :=
  next_issue h fun _ hi => runs_load hi fun _ hi => runs_windowAccess hi
theorem next_execSt {p : Option Dual} {w : FmtM} : K.next (execSt p w s) :=
  next_issue h fun _ hi => runs_store hi fun _ hi => runs_flat hi
theorem next_execStt {p : Option Dual} {w : FmtM} : K.next (execStt p w s) :=
  next_issue h fun _ hi => runs_store hi fun _ hi => runs_tileAccess hi
theorem next_execStl {p : Option Dual} {w : FmtM} : K.next (execStl p w s) :=
  next_issue h fun _ hi => runs_store hi fun _ hi => runs_laneAccess hi

theorem next_execAtom {p : Option Dual} {w : FmtMA} : K.next (execAtom p w s) :=
  next_issue h fun _ hi => runs_if (runs_nullAtomic hi) (runs_atomic hi)
theorem next_execCas {w : FmtMA} : K.next (execCas w s) := next_issue h fun _ hi => runs_atomic hi

theorem next_execPfd {w : FmtM} : K.next (execPfd w s) := next_issue h fun i hi => by simp [hi]
theorem next_execPfi {w : FmtM} : K.next (execPfi w s) := next_issue h fun i hi => by simp [hi]

theorem next_execQcfg {w : FmtB} : K.next (execQcfg w s) :=
  next_issue h fun i hi => by
    split
    · simp [hi]
    · exact hi

/-! ### Estates -/

theorem next_execExit {w : FmtA} : K.next (execExit w s) := next_issue h fun i hi => by simp [hi, holds_leave hi]

theorem next_execExitE {w : FmtA} : K.next (execExitE w s) :=
  next_issue h fun i hi => by
    simp only [runs_bind_iff, runs_check hi, runs_ready hi, runs_waitProducers hi, runs_release hi]
    intro _ _ _ _
    split
    · exact hi
    · refine holds_leave (holds_onLaunch.2 (holds.foldl ?_ (fun _ _ h => h.fresh.storeEstate) _))
      exact hi

theorem next_execClaim {w : FmtA} : K.next (execClaim w s) :=
  next_issue h fun i hi => by
    simp only [runs_bind_iff, runs_check hi, runs_ready hi]
    exact fun _ _ => hi.claimAll.fresh

/-! ### Barriers -/

theorem next_execBari {w : FmtB} : K.next (execBari w s) :=
  next_issue h fun i hi => runs_bind (runs_barrier hi fun _ => trivial) fun _ _ => by simp [hi]

theorem next_execBara {w : FmtB} : K.next (execBara w s) :=
  next_issue h fun i hi => runs_bind (runs_barrier hi fun _ => trivial) fun _ _ => by simp [hi]

theorem next_execBarx {w : FmtB} : K.next (execBarx w s) :=
  next_issue h fun i hi => runs_bind (runs_barrier hi fun _ => trivial) fun _ _ => by simp [hi]

theorem next_execBarw {w : FmtB} : K.next (execBarw w s) :=
  next_issue h fun i hi => runs_bind (runs_barrier hi fun _ => trivial) fun b _ => by
    extract_lets q bar through
    have hthrough : K.runs (fun d => K.holds d.s) through := by
      have hobs := runs_observe (K := K) (rs := bar.rels) hi
      simp only [through]
      split
      next => exact hi
      next heq => exact (heq ▸ hobs :)
    refine runs_if hthrough ?_
    simp only [runs_bind_iff, runs_check hi]
    exact fun _ => runs_if hthrough hi

theorem next_execBart {w : FmtBP} : K.next (execBart w s) :=
  next_issue h fun i hi => runs_bind (runs_barrier hi fun _ => trivial) fun b _ => by
    simp only [runs_bind_iff, runs_check hi]
    exact fun _ => runs_optional (runs_observe hi) hi fun _ hj => hj

theorem next_execFbar {w : FmtB} : K.next (execFbar w s) :=
  next_issue h fun i hi => by
    simp only [runs_bind_iff, runs_check hi]
    intro _ _ _
    refine runs_if hi ?_
    simp only [runs_bind_iff, runs_release hi]
    exact fun _ => hi.fresh

/-! ### Commands -/

theorem next_execPush {w : FmtP} : K.next (execPush w s) :=
  next_issue h fun i hi => by
    simp only [runs_bind_iff, runs_ready hi, runs_check hi]
    intro _ _ _ _
    have haccept : ∀ (g : Group) qid gslot lane bytes ret forks (c : Prop) [Decidable c],
        K.holds ((if c then { i with s := i.s.fresh.2, g := g } else i).accept qid gslot lane bytes ret forks) := by
      intros
      refine holds_accept ?_
      split
      exacts [hi.fresh, hi]
    refine runs_if (runs_if ?_ (haccept ..)) (runs_if hi hi)
    simp only [runs_bind_iff, runs_release hi]
    exact fun _ => haccept ..

theorem next_execWpw {w : FmtP} : K.next (execWpw w s) :=
  next_issue h fun i hi => by
    simp only [runs_bind_iff, runs_ready hi]
    exact fun _ => runs_optional (runs_observe hi) hi fun _ hj => runs_if hj (runs_if hj hi)

theorem next_execGuard {w : FmtP} : K.next (execGuard w s) :=
  next_issue h fun i hi => by
    simp only [runs_bind_iff, runs_ready hi]
    intro _
    refine runs_if ?_ hi
    simp only [runs_bind_iff, runs_gate hi]
    exact fun _ => hi

end instructions

end Lasting

end Sys2Proof.Machine
end

section
/-! PROOFS. Lasting properties: producers that land, and steps of groups (spec/06 R140 to R154; spec/09 R192, R197; spec/17 R316, R327). -/

namespace Sys2Proof.Machine

variable {K : Lasting} {s t : State}

namespace Lasting

section
variable (h : K.holds s)
include h

/-! ### Producers that land -/

@[simp] theorem holds.asyncCause {gid : Nat} {c : Bool → CauseRec} : K.holds (s.asyncCause gid c) :=
  holds.settleFault (s := s.onGroup gid _) h

@[simp] theorem holds.failPending {p : Pending} : K.holds (s.failPending p) := by
  unfold State.failPending
  dsimp only
  split
  · exact h
  · exact holds.asyncCause (holds_mk.2 h)

@[simp] theorem holds.landPending {p : Pending} {data : List (Nat × List Datum)} : K.holds (s.landPending p data) :=
  holds.settleFault (s := State.dropPend (s.onGroup _ _) _) h

theorem next_landLoad {p : Pending} {err : Bool} : K.next (s.landLoad p err) :=
  next_unless (next_unless (next_if (next_did h.perform.failPending) (next_did h.perform.landPending)))

theorem next_execLoadLands {id : Nat} {err : Bool} : K.next (execLoadLands id err s) := by
  unfold execLoadLands
  split
  exacts [trivial, next_when (next_landLoad h)]

theorem next_execLdqEntryLands {id : Nat} {err : Bool} : K.next (execLdqEntryLands id err s) := by
  unfold execLdqEntryLands
  split
  exacts [trivial, next_when (next_landLoad h)]

theorem next_execCrndLands {id : Nat} : K.next (execCrndLands id s) := by
  unfold execCrndLands
  split
  exacts [trivial, next_when (next_did h.landPending)]

theorem next_execRemoteMfsLands {id : Nat} : K.next (execRemoteMfsLands id s) := by
  unfold execRemoteMfsLands
  split
  · trivial
  · split
    · exact next_did (holds.landPending (holds_mk.2 h))
    · trivial

theorem next_lookAt {id k : Nat} : K.next (s.lookAt id k) := by
  unfold State.lookAt
  split
  · exact next_unless (next_did h.performPart)
  · trivial

theorem next_execClaimLands {id : Nat} {err : Bool} : K.next (execClaimLands id err s) := by
  unfold execClaimLands
  split
  · trivial
  · split
    · extract_lets lost rest took
      split
      · trivial
      next u hu =>
        have hu : K.holds u := h.observe hu
        split
        · refine next_unless (next_if (next_did ?_) (next_did (holds.settleFault ?_)))
          · refine holds.asyncCause ?_
            exact hu
          · exact hu
        · trivial
    · trivial

theorem next_execAtomResultLands {id : Nat} {err : Bool} : K.next (execAtomResultLands id err s) := by
  unfold execAtomResultLands
  split
  · trivial
  · split
    · refine next_unless (next_if ?_ (next_unless ?_))
      · exact next_if (next_did h.failPending) (next_unless (next_did h.landPending))
      · exact next_if (next_did h.atomAll.failPending) (next_did h.atomAll.landPending)
    · trivial

/-! ### Steps of groups -/

theorem next_execAsyncFault {gid : Nat} : K.next (execAsyncFault gid s) := by
  unfold execAsyncFault
  split
  · trivial
  next g _ => exact next_when (next_did ((holds_setGroup.2 h : K.holds (s.setGroup g.deschedule)).dropClaims.settleFault))

theorem next_execInstructionMissFill {gid : Nat} : K.next (execInstructionMissFill gid s) := by
  unfold execInstructionMissFill
  split
  · trivial
  · split
    exacts [h, trivial]

theorem next_execTranslationWalk {die : Nat} : K.next (execTranslationWalk die s) := by
  unfold execTranslationWalk
  split
  · trivial
  · split
    · trivial
    · dsimp only
      split
      · exact next_did (holds_mk.2 (holds.tlbFill (holds_mk.2 h)))
      · exact h

theorem next_execBarrierRelease {gid : Nat} : K.next (execBarrierRelease gid s) := by
  unfold execBarrierRelease
  split
  · trivial
  · split
    exacts [h, trivial]

/-! ### Records and logs -/

theorem holds.deviceWrite {c : Ctx} {va : Nat} {bs : List Byte} (ht : s.deviceWrite c va bs = .ok (some t)) : K.holds t := by
  unfold State.deviceWrite at ht
  split at ht
  · cases ht
  · dsimp only at ht
    split at ht
    · cases ht
    · cases ht
      exact h.setDirtyAt.writeNow

@[simp] theorem holds.writeRecord {n va status : Nat} {r : Reduce} {p : Posting} : K.holds (s.writeRecord n va status r p) := by
  unfold State.writeRecord
  split
  · exact h
  next c _ =>
    extract_lets fin body s₁
    have h₁ : K.holds s₁ := h
    split
    · exact h₁.post
    · exact h₁.orphan
    next ht => exact h₁.deviceWrite ht

@[simp] theorem holds.notify {n : Nat} {yes : Bool} : K.holds (s.notify n yes) := ite h h

@[simp] theorem holds.returnWord {ret : Option RetTo} {status delivered : Nat} : K.holds (s.returnWord ret status delivered) := by
  unfold State.returnWord
  split
  exacts [h, h.fresh]

theorem next_execReturnWordLands {id : Nat} : K.next (execReturnWordLands id s) := by
  unfold execReturnWordLands
  split
  exacts [trivial, h]

theorem holds.logWrite {c : Ctx} {k va : Nat} {bs : List Byte} {full : Bool} (ht : s.logWrite c k va bs = .ok (t, full)) :
    K.holds t := by
  induction k generalizing s va bs with
  | zero =>
    cases ht
    exact h
  | succ k ih =>
    unfold State.logWrite at ht
    split at ht
    · cases ht
    · cases ht
      exact h
    next hu => exact ih (h.deviceWrite hu) ht

theorem holds.logAll {c : Ctx} {es : List Estate} {hd : Nat × Nat × Nat} : K.holds (s.logAll c es hd).1 := by
  induction es generalizing s hd with
  | nil => exact h
  | cons e es ih =>
    unfold State.logAll
    dsimp only
    split
    · exact ih h
    · split
      · exact h
      · exact ih h
      next hu => exact ih (h.logWrite hu)

@[simp] theorem holds.writeLog {c : Ctx} {l : Launch} {es : List Estate} : K.holds (s.writeLog c l es) := by
  unfold State.writeLog
  extract_lets fail part
  have hfail : ∀ u x, K.holds u → K.holds (fail u x) := fun u x hu => holds.post (s := u.onLaunch _ _) hu
  split
  · extract_lets hd r s₁ hd'
    have h₁ : K.holds s₁ := by
      simp only [s₁]
      split
      exacts [hfail _ _ h.logAll, h.logAll]
    split
    next hu => exact h₁.logWrite hu
    next => exact ite h₁ (hfail _ _ h₁)
  · exact hfail _ _ h
  · exact hfail _ _ h

/-! ### Launches and commands that end -/

@[simp] theorem holds.estateSteps {c : Ctx} {l : Launch} : K.holds (s.estateSteps c l) := by
  unfold State.estateSteps
  refine ite h (ite (holds.writeLog ?_) ?_)
  exacts [h, h]

@[simp] theorem holds.retireLaunch {l : Launch} : K.holds (s.retireLaunch l) := by
  unfold State.retireLaunch
  extract_lets status s₁ s₂ s₃ s₄ rest last
  have h₁ : K.holds s₁ := h.writeRecord
  have h₂ : K.holds s₂ := by
    simp only [s₂]
    split
    · exact h₁
    · split
      exacts [h₁, h₁.deviceArrive]
  exact Lasting.holds_mk.2 (h₂.notify.returnWord : K.holds s₄)

@[simp] theorem holds.writeRecords {ctx queue fuel : Nat} : K.holds (s.writeRecords ctx queue fuel) := by
  induction fuel generalizing s with
  | zero => exact h
  | succ fuel ih =>
    unfold State.writeRecords
    split
    exacts [h, ite (ih h.retireLaunch) h]

@[simp] theorem holds.finishLaunch {c : Ctx} {l : Launch} : K.holds (s.finishLaunch c l) :=
  holds.writeRecords (s := (s.estateSteps c l).onLaunch _ _) h.estateSteps

@[simp] theorem holds.deliver {c : Cmd} {n : Nat} : K.holds (s.deliver c n) := by
  unfold State.deliver
  extract_lets sides keepSide s₁
  have h₁ : K.holds s₁ := ite h h
  exact ite h₁.deliverBar h₁

@[simp] theorem holds.failLaunch {lid : Nat} : K.holds (s.failLaunch lid) := h

@[simp] theorem holds.leaveQueue {c : Cmd} {status : Nat} : K.holds (s.leaveQueue c status) := by
  unfold State.leaveQueue
  extract_lets s₁ s₂ rest s₃
  have h₁ : K.holds s₁ := h
  have h₂ : K.holds s₂ := ite h₁.bringAll h₁
  have h₃ : K.holds s₃ := ite h₂.deliver h₂
  exact h₃.notify.returnWord

@[simp] theorem holds.faultCmd {c : Cmd} {why : CauseRec} : K.holds (s.faultCmd c why) := h.post.leaveQueue

end

end Lasting

end Sys2Proof.Machine
end

section
/-! PROOFS. Lasting properties: launches, copy commands and task graphs (spec/09; spec/14). -/

namespace Sys2Proof.Machine

variable {K : Lasting} {s t : State}

namespace Lasting

section
variable (h : K.holds s)
include h

/-! ### Launches -/

@[simp] theorem holds.acceptLaunch {c : Ctx} {bytes : List Byte} {team : Option Nat} {ret : Option RetTo} {forks : List Rel} :
    K.holds (s.acceptLaunch c bytes team ret forks).1 := h.fresh

theorem next_execLaunchPort {port ctx : Nat} {bytes : List Byte} : K.next (execLaunchPort port ctx bytes s) := by
  unfold execLaunchPort
  split
  · exact next_if h (next_did (holds_setPortReply.2 h.acceptLaunch))
  · exact h
  · trivial

theorem next_execLaunch {ctx team lane gid : Nat} {bytes : List Byte} : K.next (execLaunch ctx team lane gid bytes s) := by
  unfold execLaunch
  split
  exacts [trivial, next_did h.acceptLaunch]

theorem holds.joinLaunch {l m : Launch} (ht : s.joinLaunch l = some (t, m)) : K.holds t := by
  obtain ⟨u, hu, heq⟩ := Option.map_eq_some_iff.1 ht
  cases heq
  exact (h.fulfilAll hu : K.holds u)

@[simp] theorem holds.close {l : Launch} {status : Nat} : K.holds (s.close l status) := h

theorem next_execDependenceResolve {ctx queue : Nat} : K.next (execDependenceResolve ctx queue s) := by
  unfold execDependenceResolve
  split
  · refine next_unless ?_
    split
    · trivial
    next u l hu =>
      extract_lets settle fail
      have hu : K.holds u := h.joinLaunch hu
      have hsettle : ∀ {v : State} {st : Nat}, K.holds v → K.holds (settle v st) := fun hv => holds.ite hv hv
      have hfail : ∀ code, K.holds (fail code) := fun code => hsettle hu.post
      split
      · exact next_did (hsettle hu)
      · refine next_unless ?_
        split
        · exact next_didPosting (hfail _)
        · exact next_if (next_didPosting (hfail _)) (next_did (hsettle hu))
  · trivial

/-! ### Teams are placed -/

@[simp] theorem holds.bearGroups {l : Launch} {t : Team} : K.holds (s.bearGroups l t) := by
  refine holds.foldl h (fun u k hu => ?_) _
  exact hu.fresh

@[simp] theorem holds.placeCluster {l : Launch} {die row col : Nat} : K.holds (s.placeCluster l die row col) := by
  refine holds_onLaunch.2 (holds.foldl h.fresh (fun u r hu => ?_) _)
  exact holds.bearGroups (holds_mk.2 hu.fresh)

theorem next_execTeamPlacement {lid die row col : Nat} : K.next (execTeamPlacement lid die row col s) := by
  unfold execTeamPlacement
  split
  · trivial
  · split
    · trivial
    · refine next_unless (next_if (next_did h) (next_unless ?_))
      split
      · exact next_didPosting (h.post : K.holds (s.post _ _))
      · refine next_unless ?_
        extract_lets dies
        refine next_if (next_did h.close) (next_when ?_)
        split
        · trivial
        next hu => exact next_did (h.joinLaunch hu).placeCluster

theorem next_execLaunchComplete {lid : Nat} : K.next (execLaunchComplete lid s) := by
  unfold execLaunchComplete
  split
  · trivial
  · split
    · trivial
    · refine next_unless ?_
      split
      · trivial
      next hu => exact next_unless (next_didPosting (h.joinLaunch hu).bringAll.finishLaunch)

/-! ### Copy commands read -/

@[simp] theorem next_stage {c : Cmd} {r : Fetched} : K.next (s.stage c r) := next_unless h

theorem holds.summonFor {c : Cmd} (ht : s.summonFor c = some t) : K.holds t := h.summonAll ht

@[simp] theorem holds.stirSource {c : Cmd} : K.holds (s.stirSource c) := by
  unfold State.stirSource
  cases s.memberTeam c with
  | none => exact h
  | some t => exact h.stirTile

theorem next_readStep {c : Cmd} {x : Ctx} {n : Nat} : K.next (s.readStep c x n) := by
  unfold State.readStep
  refine next_unless ?_
  split
  · trivial
  next old hold =>
    extract_lets s₁
    have h₁ : K.holds s₁ := (h.summonFor hold).stirSource
    split
    · exact next_stage h₁
    · exact next_stage h₁
    · exact next_stage h₁
    · split
      exacts [trivial, next_stage (holds_onCtx.2 h₁)]
    · exact next_stage h₁

/-! ### Copy commands write and deliver -/

@[simp] theorem holds.engineWrite {c : Cmd} {x : Ctx} {va pa : Nat} {bs : List Byte} : K.holds (s.engineWrite c x va pa bs) := by
  unfold State.engineWrite
  extract_lets s₁ w t
  have ht : K.holds t := h.setDirtyAt.addWrite rfl rfl
  exact ite ht ht.arrive.tear

theorem holds.putAfter {c : Cmd} {n : Nat} {l : Loc} {write : State → State} (hwrite : ∀ u, K.holds u → K.holds (write u))
    (ht : s.putAfter c n l write = .done t) : K.holds t := by
  unfold State.putAfter at ht
  dsimp only at ht
  split at ht
  · cases ht
  · cases ht
    exact hwrite _ (h.foldl (fun _ _ h => h.bring) _)

theorem holds.putBytes {c : Cmd} {x : Ctx} {a : Nat} {bs : List Byte} (ht : s.putBytes c x a bs = .done t) : K.holds t := by
  unfold State.putBytes at ht
  split at ht
  · split at ht
    · cases ht
      exact h
    · exact h.putAfter (fun _ hu => hu.writeTile.tear) ht
  · split at ht
    · cases ht
      exact h
    · split at ht
      · cases ht
      · split at ht
        · cases ht
        · exact h.putAfter (fun _ hu => hu.engineWrite) ht

@[simp] theorem holds.settleCmd {cid : Nat} : K.holds (s.settleCmd cid) := by
  unfold State.settleCmd
  split
  exacts [h, ite h.leaveQueue h]

@[simp] theorem holds.countDelivery {c : Cmd} {n : Nat} : K.holds (s.countDelivery c n) :=
  holds.settleCmd (holds.deliver (s := s.onCmd _ _) h)

@[simp] theorem holds.countMoved {c : Cmd} : K.holds (s.countMoved c) :=
  ite h (holds.countDelivery (s := s.onCmd _ _) h)

@[simp] theorem holds.countFor {cid : Option Nat} : K.holds (s.countFor cid) := by
  unfold State.countFor
  split
  exacts [h, h.countMoved]

theorem next_deliverBytes {cid : Nat} {x : Ctx} {fuel n : Nat} {some_ : Bool} : K.next (s.deliverBytes cid x fuel n some_) := by
  induction fuel generalizing s n some_ with
  | zero => exact next_when h
  | succ fuel ih =>
    unfold State.deliverBytes
    split
    · exact h
    · extract_lets at_ a page k
      refine next_if (next_when h) ?_
      split
      · exact next_when h
      · exact h
      next u hu =>
        have hu : K.holds u := h.putBytes hu
        exact next_if (ih (holds.countDelivery (holds_onCmd.2 hu))) (next_if hu (ih (holds_onCmd.2 (holds_onCmd.2 hu))))

theorem next_deliverStep {c : Cmd} {x : Ctx} {n : Nat} : K.next (s.deliverStep c x n) :=
  next_unless (next_if (next_didPosting h.countMoved) (next_unless (next_posting (next_deliverBytes h))))

omit h in
theorem next_copyStep {cid opc : Nat} {body : Cmd → Ctx → Res} (hbody : ∀ c x, K.next (body c x)) :
    K.next (s.copyStep cid opc body) := by
  unfold State.copyStep
  split
  · trivial
  · split
    exacts [trivial, next_when (hbody _ _)]

theorem next_execCopy {cid n : Nat} : K.next (execCopy cid n s) := next_copyStep fun _ _ => next_readStep h
theorem next_execCopy2d {cid n : Nat} : K.next (execCopy2d cid n s) := next_copyStep fun _ _ => next_readStep h
theorem next_execReblock {cid n : Nat} : K.next (execReblock cid n s) := next_copyStep fun _ _ => next_readStep h
theorem next_execGather {cid n : Nat} : K.next (execGather cid n s) := next_copyStep fun _ _ => next_readStep h
theorem next_execFill {cid n : Nat} : K.next (execFill cid n s) := next_copyStep fun _ _ => next_readStep h
theorem next_execWsload {cid n : Nat} : K.next (execWsload cid n s) := next_copyStep fun _ _ => next_readStep h
theorem next_execDsnap {cid : Nat} : K.next (execDsnap cid s) := next_copyStep fun _ _ => next_readStep h
theorem next_execDelivery {cid n : Nat} : K.next (execDelivery cid n s) := next_copyStep fun _ _ => next_deliverStep h

theorem next_fetchEarly {cid space va : Nat} : K.next (s.fetchEarly cid space va) :=
  next_copyStep fun c x => by
    refine next_unless ?_
    split
    · trivial
    next old hold =>
      dsimp only
      split
      · exact (h.summonFor hold).stirSource
      · trivial

/-! ### Task graphs -/

theorem holds.graphDone {n graph : Nat} (ht : s.graphDone n graph = some t) : K.holds t := by
  obtain ⟨u, hu, rfl⟩ := Option.map_eq_some_iff.1 ht
  exact (h.fulfilAll hu : K.holds u)

theorem holds.sinkDone {n : Nat} {x : Node} (ht : s.sinkDone n x = some t) : K.holds t := by
  obtain ⟨u, hu, rfl⟩ := Option.map_eq_some_iff.1 ht
  extract_lets s₁ s₂
  have h₁ : K.holds s₁ := (h.graphDone hu).writeRecord
  refine holds.notify ?_
  simp only [s₂]
  split
  exacts [h₁, h₁.deviceArrive]

theorem holds.nodeDone {n graph node : Nat} (ht : s.nodeDone n graph node = some t) : K.holds t := by
  unfold State.nodeDone at ht
  split at ht
  · cases ht
    exact h
  · exact (holds_onCtx.2 h).foldl_bind (fun h ht => h.sinkDone ht) ht

theorem holds.nodeDone_if {c : Prop} [Decidable c] {n graph node : Nat}
    (ht : (if c then s.nodeDone n graph node else some s) = some t) : K.holds t := by
  split at ht
  · exact h.nodeDone ht
  · cases ht
    exact h

theorem next_execTask {cid : Nat} : K.next (execTask cid s) := by
  unfold execTask
  split
  · trivial
  · split
    · trivial
    · refine next_unless (next_if (next_didPosting (holds.ite h.leaveQueue h.leaveQueue.deviceArrive)) ?_)
      extract_lets key held sink y y' s₀ s₁ s₂ s₃ s₄
      have h₂ : K.holds s₂ := h
      have h₃ : K.holds s₃ := holds.ite h₂ h₂.deviceArrive
      have h₄ : K.holds s₄ := holds.returnWord (holds.ite h₃ h₃.notify)
      split
      · trivial
      next hu => exact next_didPosting (h₄.nodeDone_if hu)

theorem next_execTgrab {w : FmtB} : K.next (execTgrab w s) :=
  next_issue h fun i hi => by
    simp only [runs_bind_iff, runs_ready hi]
    intro _
    split
    exacts [hi, hi.fresh]

theorem next_execTdone {w : FmtB} : K.next (execTdone w s) :=
  next_issue h fun i hi => by
    simp only [runs_bind_iff, runs_ready hi]
    intro _
    split
    · exact hi
    · simp only [runs_bind_iff, runs_release hi]
      intro _
      split
      · exact hi
      next hu =>
        have hu : K.holds _ := (holds_onCtx.2 hi).nodeDone_if hu
        exact runs_if hu hi

end

end Lasting

end Sys2Proof.Machine
end

section
/-! PROOFS. Lasting properties: the matrix unit, and the arrivals of writes (spec/12 R228; spec/15; spec/20 R358 to R360). -/

namespace Sys2Proof.Machine

variable {K : Lasting} {s t : State} {i : Iss}

namespace Lasting

section checks
variable (h : K.holds i.s) {Q : Unit → Prop}
include h

/-! ### Checks -/

theorem runs_meet {n : Nat} {locs : List Loc} : K.runs (fun j => K.holds j.s) (i.meet n locs) := by
  unfold Iss.meet
  extract_lets me s₁ met
  have h₁ : K.holds s₁ := h.foldl (fun _ _ h => h.summon) _
  exact runs_if h h₁.met

@[simp] theorem runs_operands {fs : List Field} {aligned : Bool} :
    K.runs Q (i.operands fs aligned) ↔ (i.operands fs aligned = .ok () → Q ()) := by
  refine (runs_iff_of_stops ?_).trans ⟨fun hq => hq (), fun hq _ => hq⟩
  simp only [Iss.operands, runs_bind_iff, runs_check h, runs_ready h]
  intro _ _
  split
  exacts [runs_if trivial h, trivial]

@[simp] theorem runs_claimTiles {tiles : List Nat} :
    K.runs Q (i.claimTiles tiles) ↔ (i.claimTiles tiles = .ok () → Q ()) :=
  (runs_iff_of_stops (by unfold Iss.claimTiles; dsimp only; split; exacts [trivial, h])).trans ⟨fun hq => hq (), fun hq _ => hq⟩

theorem runs_matrixDone {c : CoreSt} : K.runs (fun d => K.holds d.s) (i.matrixDone c) := h

theorem runs_mstoreChecks {w : FmtT} {m : MStore} {n : Nat} {loads : Bool} :
    K.runs Q (i.mstoreChecks w m n loads) ↔ (i.mstoreChecks w m n loads = .ok () → Q ()) :=
  (runs_iff_of_stops (by simp [Iss.mstoreChecks, h])).trans ⟨fun hq => hq (), fun hq _ => hq⟩

theorem runs_mstoreOrder {w : FmtT} {m : MStore} {n : Nat} : K.runs (fun j => K.holds j.s) (i.mstoreOrder w m n) := runs_over h

end checks

section
variable (h : K.holds s)
include h

/-! ### Instructions -/

theorem next_execTcfg {w : FmtT} : K.next (execTcfg w s) :=
  next_issue h fun i hi => by
    simp only [runs_bind_iff, runs_operands hi, runs_check hi]
    intro _ _
    refine (runs_claimTiles ?_).2 fun _ => runs_if ?_ (runs_matrixDone ?_)
    exacts [hi, hi, hi]

theorem next_execTrel {w : FmtT} : K.next (execTrel w s) := next_issue h fun i hi => by simp [hi, runs_matrixDone hi]

theorem next_execMzero {p : Option Dual} {w : FmtT} : K.next (execMzero p w s) :=
  next_issue h fun i hi => by simp [hi, runs_matrixDone hi]

theorem next_execMloop {p : Option Dual} {w : FmtT} : K.next (execMloop p w s) :=
  next_issue h fun i hi => by
    simp only [runs_bind_iff, runs_operands hi, runs_check hi, runs_gate hi]
    intro _ _ _ _ _ _
    refine runs_mono (runs_over hi) fun j hj => runs_mono (runs_meet hj) fun k hk => ?_
    simp only [runs_check hk, runs_release hk]
    exact fun _ _ _ _ => runs_if hk hk.fresh

@[simp] theorem holds.putRow {ofs : Nat} {bs : List Byte} : K.holds (i.putRow s ofs bs) :=
  holds.tear (h.addWrite rfl rfl)

theorem next_execMst {p : Option Dual} {w : FmtT} : K.next (execMst p w s) :=
  next_issue h fun i hi => by
    simp only [runs_bind_iff, runs_mstoreChecks hi]
    intro _
    refine runs_mono (runs_mstoreOrder hi) fun j hj => runs_matrixDone ?_
    exact holds_onTeam.2 (hj.foldl (fun _ _ h => h.putRow) _)

theorem next_execMld {p : Option Dual} {w : FmtT} : K.next (execMld p w s) :=
  next_issue h fun i hi => by
    simp only [runs_bind_iff, runs_mstoreChecks hi]
    exact fun _ => runs_mono (runs_mstoreOrder hi) fun j hj => runs_mono (runs_meet hj) fun k hk => runs_matrixDone hk

theorem next_execMflg {w : FmtA} : K.next (execMflg w s) :=
  next_issue h fun i hi => by
    simp only [runs_bind_iff, runs_ready hi]
    intro _
    split
    exacts [hi, runs_if hi hi]

/-! ### Steps of the unit -/

theorem next_execMatrixOperationStart {core : Nat} {queue : Bool} : K.next (execMatrixOperationStart core queue s) := by
  unfold execMatrixOperationStart
  dsimp only
  split
  · trivial
  · refine next_unless ?_
    split
    · trivial
    next hu => exact next_did (holds_setCore.2 (h.fulfilAll hu))

theorem next_execKStep {core : Nat} {err : Bool} : K.next (execKStep core err s) := by
  unfold execKStep
  extract_lets c
  split
  · trivial
  · split
    · refine next_unless (next_if (next_didPosting (holds.failLaunch (holds.post (holds_setCore.2 h)))) ?_)
      split
      · trivial
      next hu => exact next_did (holds_setCore.2 (holds_mk.2 (h.summonAll hu).stirTile))
    · trivial

theorem next_execMatrixOperationComplete {core : Nat} {queue : Bool} : K.next (execMatrixOperationComplete core queue s) := by
  unfold execMatrixOperationComplete
  dsimp only
  split
  · trivial
  next m ms _ =>
    refine next_unless (next_didPosting (holds.retireTeam ?_))
    split
    · exact h
    · exact holds.deviceArrive (holds_onTeam.2 (holds_setCore.2 h))

/-! ### Arrivals -/

omit h in
@[simp] theorem holds.meetLoads (h : K.holds t) {w : InWrite} : K.holds (s.meetLoads w t) := holds.ite h.tear h

omit h in
theorem next_afterMove (h : K.holds t) {w : InWrite} : K.next (s.afterMove t w) := next_didPosting h.meetLoads.countFor

theorem next_execWriteArrival {wid : Nat} {o : Observer} : K.next (execWriteArrival wid o s) := by
  unfold execWriteArrival
  split
  exacts [trivial, next_unless (next_afterMove h.arrive)]

theorem next_execMcaSingleMoment {wid : Nat} : K.next (execMcaSingleMoment wid s) := by
  unfold execMcaSingleMoment
  split
  exacts [trivial, next_unless (next_afterMove h.landWrite)]

theorem next_execWsRefresh {die bank : Nat} : K.next (execWsRefresh die bank s) := next_when h

theorem next_execRefreshWindowEnd {die bank : Nat} : K.next (execRefreshWindowEnd die bank s) := next_when h

end

end Lasting

end Sys2Proof.Machine
end

section
/-! PROOFS. Lasting properties: images, responses and the debugger (spec/17 R320 to R332; spec/18 R336). -/

namespace Sys2Proof.Machine

variable {K : Lasting} {s t : State} {i : Iss}

namespace Lasting

section
variable (h : K.holds s)
include h

/-! ### Images -/

@[simp] theorem holds.zeroRange {pa n : Nat} : K.holds (s.zeroRange pa n) :=
  K.clear _ (Lasting.map (fun x => by split <;> rfl) h)

@[simp] theorem holds.writePieces {base : Nat} {ps : List (Nat × List Byte)} : K.holds (s.writePieces base ps) :=
  h.foldl (fun _ _ h => h.writeRaw) ps

@[simp] theorem holds.writeImage {base : Nat} {m : Image} : K.holds (s.writeImage base m) := h.zeroRange.writePieces

@[simp] theorem holds.writeGroupImage {c : Ctx} {g : Group} {l : Launch} : K.holds (s.writeGroupImage c g l) := by
  unfold State.writeGroupImage
  dsimp only
  split
  exacts [h, h.zeroRange.writePieces]

@[simp] theorem holds.writeStateSection {c : Ctx} {cores : SMap CoreSt} : K.holds (s.writeStateSection c cores) :=
  h.writeRaw.writeRaw

/-! ### Responses and invalidations -/

@[simp] theorem holds.answer {n act : Nat} {a : Await} : K.holds (s.answer n a act) := by
  unfold State.answer
  dsimp only
  split
  · exact h
  · split
    · split
      · exact h
      · exact holds.endLaunch (holds_onCtx.2 h)
    · exact holds.ite h h

theorem next_respond {n act : Nat} {seq : W32} : K.next (s.respond n seq act) := by
  unfold State.respond
  split
  · exact h
  · split
    · exact h
    · exact next_if (next_did h.answer) h

@[simp] theorem holds.lateResponses {n : Nat} : K.holds (s.lateResponses n) := by
  unfold State.lateResponses
  split
  · exact h
  · refine holds.foldl (holds_onCtx.2 h) (fun u r hu => ?_) _
    split
    exacts [hu, hu.answer]

theorem next_execTlbinv {ctx : Nat} {bytes : List Byte} : K.next (execTlbinv ctx bytes s) := next_if h h.fresh

theorem next_execInvalidationComplete {id : Nat} : K.next (execInvalidationComplete id s) := by
  unfold execInvalidationComplete
  split
  · trivial
  · extract_lets todo s₁ writes s₂ s₃ reachable
    have h₂ : K.holds s₂ := (h.performEach : K.holds s₁)
    have h₃ : K.holds s₃ := h₂.bringAll
    exact next_unless (next_did (holds.ite h₃.writeRaw h₃))

/-! ### The debugger -/

theorem holds_debugIss {g : Group} {t : Team} {l : Launch} {c : Ctx} {lane : Nat} : K.holds (debugIss s g t l c lane).s := by
  unfold debugIss
  dsimp only
  split
  exacts [h, h]

theorem next_debug {n : Nat} {bytes : List Byte} {ops : Nat → Bool} {act : DebugOp → Iss → Res}
    (hact : ∀ d i, K.holds i.s → K.next (act d i)) : K.next (s.debug n bytes ops act) := by
  unfold State.debug
  split
  · exact h
  · refine next_if h (next_unless (next_if h ?_))
    split
    · exact h
    · exact next_if h (next_if h (hact _ _ (holds_debugIss h)))

theorem next_execDebugRead {ctx : Nat} {bytes : List Byte} : K.next (execDebugRead ctx bytes s) := next_debug h fun _ _ _ => h

@[simp] theorem holds.keepRatio {c : Ctx} {t : Team} {ratio : Nat} : K.holds (s.keepRatio c t ratio) :=
  holds.ite (holds.writeStateSection (holds_onCtx.2 h)) h

@[simp] theorem holds.setStopped {c : Ctx} {g : Group} {l : Launch} : K.holds (s.setStopped c g l) :=
  holds.ite (holds.writeGroupImage (holds_setGroup.2 h)) h

theorem next_writeReg {d : DebugOp} {n : Nat} : K.next (d.writeReg n s i) := by
  refine next_if h (next_did (holds.setStopped ?_))
  exact h

theorem next_execDebugWrite {ctx : Nat} {bytes : List Byte} : K.next (execDebugWrite ctx bytes s) :=
  next_debug h fun d i _ => by
    extract_lets ok
    have hok : ∀ u g, K.holds u → K.next (ok u g) := fun u g hu => next_did hu.setStopped
    split
    · exact hok _ _ h
    · exact next_if h (next_if (hok _ _ h.keepRatio) (next_if (hok _ _ h) (next_if (hok _ _ h) (hok _ _ h.writeSpecial))))
    · exact hok _ _ h
    · exact h
    · exact next_writeReg h

theorem next_execDebugstop {ctx : Nat} {bytes : List Byte} : K.next (execDebugstop ctx bytes s) := by
  unfold execDebugstop
  split
  · exact h
  · exact next_if h (next_unless (next_if h h))

end

end Lasting

end Sys2Proof.Machine
end

section
/-! PROOFS. Lasting properties: contexts that come, stop, move and go (spec/18 R333 to R347; spec/20 R353, R365). -/

namespace Sys2Proof.Machine

variable {K : Lasting} {s t : State}

theorem State.dropWork_nextId (s : State) (n : Nat) : (s.dropWork n).nextId = s.nextId :=
  foldl_keeps State.nextId (fun u k => by dsimp only; split <;> rfl) _ s

namespace Lasting

section
variable (h : K.holds s)
include h

theorem next_execContextCreate {bytes : List Byte} : K.next (execContextCreate bytes s) :=
  next_unless (next_if h (next_if h h))

/-! ### All that a context has on its way lands -/

@[simp] theorem holds.orKeep {r : Res} (hr : K.next r) : K.holds (r.orKeep s) := by
  unfold Res.orKeep
  split
  exacts [hr, h]

@[simp] theorem holds.countAllMoved : K.holds s.countAllMoved :=
  h.foldl (fun s id hs => by
    split
    exacts [hs, hs.countMoved]) _

@[simp] theorem holds.flushWrites {n : Nat} : K.holds (s.flushWrites n) :=
  holds.countAllMoved (h.foldl (fun _ _ hs => holds.ite hs.bring hs) _)

@[simp] theorem holds.forceLanding {id : Nat} : K.holds (s.forceLanding id) := by
  unfold State.forceLanding
  split
  · exact h
  · split
    · exact h.landPending
    · exact h.orKeep (next_execRemoteMfsLands h)
    · exact h.orKeep (next_execClaimLands h)
    · exact h.orKeep (next_execAtomResultLands h)
    · exact holds.ite h.perform (holds.ite h.perform.failPending h.perform.landPending)

@[simp] theorem holds.landAll {n : Nat} : K.holds (s.landAll n) := by
  unfold State.landAll
  extract_lets gids s₁ s₂ s₃ s₄ s₅
  have hperform : ∀ {u}, K.holds u → K.holds ((gids.foldl State.performAll u).flushWrites n) := fun hu =>
    holds.flushWrites (hu.foldl (fun _ _ h => h.performAll) gids)
  have h₂ : K.holds s₂ := hperform (hperform h)
  have h₃ : K.holds s₃ := h₂.foldl (fun _ _ h => h.forceLanding) _
  have h₅ : K.holds s₅ := h₃.flushWrites.foldl (fun _ _ h => h.orKeep (next_execReturnWordLands h)) _
  exact h₅.foldl (fun _ _ h => h.orKeep (next_execAsyncFault h)) _

/-! ### PREEMPT -/

@[simp] theorem holds.freeCores {n : Nat} {ks : List Nat} : K.holds (s.freeCores n ks) := by
  refine h.foldl (fun u k hu => ?_) ks
  exact holds.ite hu hu

@[simp] theorem holds.header {d : CtxDesc} {code : Nat} : K.holds (s.header d code) := holds.ite h.writeRaw h

@[simp] theorem holds.halt {n : Nat} : K.holds (s.halt n) := by
  have hdrop : ∀ ids : List Nat, K.holds (ids.foldl State.dropClaims (s.landAll n)) := h.landAll.foldl fun _ _ h => h.dropClaims
  exact holds_mk.2 (hdrop _)

@[simp] theorem holds.preemptStop {n : Nat} : K.holds (s.preemptStop n) := by
  unfold State.preemptStop
  dsimp only
  split
  · exact h.halt
  · exact holds.header (holds.freeCores (holds_onCtx.2 h.halt))

theorem holds.flush {n : Nat} {c : Ctx} (ht : s.flush n c = .ok t) : K.holds t := by
  unfold State.flush at ht
  dsimp only at ht
  split at ht
  · cases ht
  · split at ht
    · cases ht
    · split at ht
      · cases ht
      · cases ht
        exact holds_onCtx.2 (holds_mk.2 (holds.writeImage (holds_mk.2 h)))

@[simp] theorem holds.finishSwitch {c : Cmd} {status : Nat} : K.holds (s.finishSwitch c status) :=
  holds.leaveQueue (holds.ite h.writeRecord h)

theorem next_endSwitch {c : Cmd} {status : Nat} : K.next (s.endSwitch c status) := next_if (next_did h.finishSwitch) h

theorem next_failSwitch {c : Cmd} {n : Nat} {p : Posting} : K.next (s.failSwitch c n p) := next_when (next_endSwitch h.post)

theorem next_switchStep {cid opc : Nat} {act : Cmd → Ctx → Res} (hact : ∀ c x, K.next (act c x)) :
    K.next (s.switchStep cid opc act) := by
  unfold State.switchStep
  split
  · trivial
  · refine next_unless ?_
    split
    exacts [next_failSwitch h, hact _ _]

theorem next_execPreempt {cid : Nat} : K.next (execPreempt cid s) :=
  next_switchStep h fun c t => by
    extract_lets n s₁
    have h₁ : K.holds s₁ := holds.ite h.preemptStop h
    refine next_unless (next_unless (next_if ?_ (next_endSwitch h₁)))
    split
    · trivial
    · split
      next ht => exact next_endSwitch (h₁.flush ht)
      next => exact next_failSwitch (holds.header (holds_onCtx.2 h₁))

/-! ### RESUME -/

theorem holds.restart {n code : Nat} (ht : s.restart n code = some t) : K.holds t := by
  unfold State.restart at ht
  split at ht
  · cases ht
  · dsimp only at ht
    split at ht
    · cases ht
    · cases ht
      refine holds.lateResponses (holds.header (holds_mk.2 (holds.foldl (holds_onCtx.2 h) (fun u e hu => ?_) _)))
      exact holds.ite hu hu

@[simp] theorem holds.dropWork {n : Nat} : K.holds (s.dropWork n) := K.leave List.filter_sublist (h.freeCores (n := n))

@[simp] theorem holds.keepDiscards {n : Nat} {old new : List Launch} : K.holds (s.keepDiscards n old new) := by
  refine holds.foldl (holds_mk.2 h) (fun u l hu => ?_) _
  exact hu

@[simp] theorem holds.adopt {n : Nat} {m : Image} : K.holds (s.adopt n m) := by
  unfold State.adopt
  extract_lets old late lateCmds free s₁ s₂ s₃
  have h₁ : K.holds s₁ := h.dropWork
  have hle : s₁.nextId ≤ free + late.length + lateCmds.length := by
    rw [State.dropWork_nextId]
    exact (le_max_left s.nextId _).trans ((Nat.le_add_right _ _).trans (Nat.le_add_right _ _))
  have h₂ : K.holds s₂ := K.name hle h₁
  have h₃ : K.holds s₃ := h₂.keepDiscards
  refine h₃.foldl (fun u g hu => ?_) _
  split
  exacts [hu, holds.ite hu.post hu.post.endLaunch]

@[simp] theorem holds.orderAfter {n : Nat} {carry : List Nat} : K.holds (s.orderAfter n carry) := h

theorem next_execResume {cid : Nat} : K.next (execResume cid s) :=
  next_switchStep h fun c t => by
    refine next_unless (next_if (next_endSwitch h) (next_if ?_ ?_))
    · split
      · exact next_failSwitch h
      · split
        · trivial
        next hu => exact next_endSwitch (h.adopt.restart hu).orderAfter
    · split
      · trivial
      next hu => exact next_endSwitch (h.restart hu).orderAfter

/-! ### Contexts end -/

@[simp] theorem holds.cutShort {status id : Nat} : K.holds (s.cutShort status id) := by
  unfold State.cutShort
  split
  next l _ =>
    extract_lets s₁ s₂
    have h₁ : K.holds s₁ := by
      simp only [s₁]
      cases hu : s.fulfilAll l.forks with
      | none => exact h
      | some u => exact h.fulfilAll hu
    have h₂ : K.holds s₂ := h₁.bringAll
    split
    · exact h₂.retireLaunch
    · split
      · exact h₂
      · exact holds.retireLaunch (holds.estateSteps (holds_onLaunch.2 h₂))
  · split
    · exact holds.ite h.finishSwitch (holds.ite h.post.leaveQueue h.leaveQueue)
    · exact h

@[simp] theorem holds.tearDown {n status : Nat} : K.holds (s.tearDown n status) := by
  have hcut : ∀ ids : List Nat, K.holds (ids.foldl (fun s id => s.cutShort status id) s) := h.foldl fun _ _ h => h.cutShort
  exact holds_mk.2 (hcut _).dropWork

@[simp] theorem holds.stopFor {n : Nat} : K.holds (s.stopFor n) := holds_onCtx.2 (holds_mk.2 h.dropWork)

theorem holds.endCtx {n : Nat} {posts : State → State} (hposts : ∀ u, K.holds u → K.holds (posts u)) :
    K.holds (s.endCtx n posts) := by
  unfold State.endCtx
  extract_lets stopped t t'
  have ht : K.holds t := holds.ite h (hposts _ h)
  exact holds.ite ht.tearDown (holds.ite h ht.stopFor)

theorem next_destroyed {reply : Nat} : K.next (s.destroyed reply) := h

theorem next_destroy {n : Nat} : K.next (s.destroy n) := next_when (next_destroyed h.tearDown)

theorem next_execContextDestroy {ctx : Nat} : K.next (execContextDestroy ctx s) := by
  unfold execContextDestroy
  split
  · exact h
  · exact next_unless (next_destroy (holds.ite h.preemptStop h))

theorem next_execContextDestroyDetach {ctx : Nat} : K.next (execContextDestroyDetach ctx s) := by
  unfold execContextDestroyDetach
  split
  · exact h
  · refine next_unless (next_if h (next_destroy ?_))
    exact h

end

end Lasting

end Sys2Proof.Machine
end

section
/-! PROOFS. Lasting properties: the exchange of blocks, COMBINE, and fabric barriers (spec/21). -/

namespace Sys2Proof.Machine

variable {K : Lasting} {s t : State}

theorem State.stirMem_nextId (s : State) (die : Nat) : (s.stirMem die).nextId = s.nextId :=
  (State.eq_of_besidesWrites State.nextId (fun _ => rfl)
    (foldl_keeps State.besidesWrites (fun t _ => t.bring_besidesWrites _ _) _ s) :)

namespace Lasting

section
variable (h : K.holds s)
include h

/-! ### Writes of an exchange engine -/

@[simp] theorem holds.xPut {die : Nat} {x : Ctx} {ps : List (Nat × Nat × Nat)} {bs : List Byte} :
    K.holds (s.xPut die x ps bs) := by
  induction ps generalizing s bs with
  | nil => exact h
  | cons p ps ih => exact ih (holds.tear h.setDirtyAt.writeNow)

theorem holds.xWrite {die va : Nat} {x : Ctx} {bs : List Byte} (ht : s.xWrite die x va bs = .ok t) : K.holds t := by
  unfold State.xWrite at ht
  split at ht
  · cases ht
  · cases ht
    exact h.xPut

@[simp] theorem holds.xDeliver {c : Cmd} {n : Nat} : K.holds (s.xDeliver c n) := holds.deliver (holds_onCmd.2 h)

/-! ### Blocks leave -/

theorem holds.evict {die : Nat} (ht : s.evict die = some t) : K.holds t := by
  unfold State.evict at ht
  split at ht
  · cases ht
  · cases ht
    exact h

theorem holds.addSide {e : SideInfo} (ht : s.addSide e = some t) : K.holds t := by
  unfold State.addSide at ht
  split at ht
  · cases ht
    exact h
  · obtain ⟨u, hu, rfl⟩ := Option.map_eq_some_iff.1 ht
    have hu : K.holds u := by
      split at hu
      · cases hu
        exact h
      · refine holds.evict ?_ hu
        exact h
    exact hu

theorem holds.sendFlits {b : Block} (ht : s.sendFlits b = some t) : K.holds t := by
  unfold State.sendFlits at ht
  split at ht
  · cases ht
    exact h
  · split at ht
    · cases ht
      exact h
    · dsimp only at ht
      split at ht
      · cases ht
      · cases ht
        exact h

theorem holds.sendBlock {c : Cmd} {x : Ctx} {expert : Nat} {entry data : List Byte}
    (ht : s.sendBlock c x expert entry data = some t) : K.holds t := by
  unfold State.sendBlock at ht
  dsimp only at ht
  split at ht
  · cases ht
  next u hu =>
    split at ht
    · cases ht
    next v hv =>
      cases ht
      exact K.name (Nat.le_succ _) ((h.addSide hu).sendFlits hv)

theorem next_takeBlock {c : Cmd} {x : Ctx} {d data : List Byte} : K.next (s.takeBlock c x d data) := by
  unfold State.takeBlock
  split
  · split
    · trivial
    next hu => exact next_didPosting (h.addSide hu).xDeliver
  · split
    · exact h
    · split
      · trivial
      next hu => exact next_did (h.sendBlock hu)

theorem holds.firstLoad {old : State} {c : Cmd} {x : Ctx} (ht : old.firstLoad s c x = .ok t) : K.holds t := by
  unfold State.firstLoad at ht
  split at ht
  · split at ht
    · cases ht
    · cases ht
      exact h
  · cases ht
    exact h

theorem next_execExch {cid : Nat} : K.next (execExch cid s) := by
  unfold execExch
  split
  · trivial
  · dsimp only
    split
    · exact h
    next u hu =>
      have hu : K.holds u := h.stirMem.firstLoad hu
      split
      · split
        exacts [hu, next_takeBlock (holds_onCmd.2 hu)]
      · exact hu
      · trivial

/-! ### Blocks arrive -/

@[simp] theorem holds.writeEntry21 {b : Block} {d : Decision} : K.holds (s.writeEntry21 b d) := by
  unfold State.writeEntry21
  split
  · dsimp only
    split
    · exact h
    next hu => exact (holds.xWrite (holds_onCmd.2 h) hu).xDeliver
  · exact h

theorem holds.fillSlot {b : Block} {x : Ctx} {slot : Nat} {team : Option (Team × Launch)}
    (ht : s.fillSlot b x slot team = .ok t) : K.holds t := by
  unfold State.fillSlot at ht
  dsimp only at ht
  split at ht
  · split at ht
    · cases ht
      exact h
    · cases ht
      exact h.writeTile.tear
  · exact h.xWrite ht

@[simp] theorem holds.dropBlock {b : Block} : K.holds (s.dropBlock b) := h

@[simp] theorem holds.deliverBlock {b : Block} {slot : Nat} : K.holds (s.deliverBlock b slot) := by
  unfold State.deliverBlock
  dsimp only
  split
  · exact h
  · split
    · exact h
    next u hu =>
      have hu : K.holds u := holds.fillSlot (holds.dropBlock (b := b) h) hu
      split
      · exact hu
      · exact holds.ite (holds.deliverBar (holds_onCtx.2 hu)) hu

@[simp] theorem holds.deliverBlocks {fuel : Nat} : K.holds (s.deliverBlocks fuel) := by
  induction fuel generalizing s with
  | zero => exact h
  | succ fuel ih =>
    unfold State.deliverBlocks
    split
    exacts [h, ih h.deliverBlock]

@[simp] theorem holds.receiveBlock {old : State} {b : Block} {x : Ctx} : K.holds (old.receiveBlock s b x) := by
  unfold State.receiveBlock
  extract_lets r s₁ s₂ s₃ s₄ s₅
  have h₁ : K.holds s₁ := h
  have h₂ : K.holds s₂ := by
    simp only [s₂]
    split
    exacts [h₁, h₁.post]
  have h₃ : K.holds s₃ := h₂.writeEntry21
  have h₄ : K.holds s₄ := holds.ite h₃ h₃
  have h₅ : K.holds s₅ := by
    simp only [s₅]
    split
    exacts [h₄, h₃]
  exact h₅.deliverBlocks

@[simp] theorem holds.sendAway {b : Block} : K.holds (s.sendAway b) := by
  unfold State.sendAway
  extract_lets d s₁ s₂
  have h₁ : K.holds s₁ := holds.writeEntry21 (holds_mk.2 h)
  clear_value d
  refine holds.dropBlock ?_
  simp only [s₂]
  split
  exacts [h₁, h₁]

@[simp] theorem holds.arriveBlock {b : Block} : K.holds (s.arriveBlock b) := by
  unfold State.arriveBlock
  split
  · exact h
  · exact holds.ite h (holds.ite h.stirMem.receiveBlock h.sendAway)

@[simp] theorem holds.arriveFar {f : FarBlock} : K.holds (s.arriveFar f) := by
  unfold State.arriveFar
  split
  · exact h
  · extract_lets b rd key x t d
    have ht : K.holds { t with nextId := s.nextId + 1 } :=
      K.name ((State.stirMem_nextId s b.home).le.trans (Nat.le_succ _)) (h.stirMem : K.holds t)
    exact holds.ite h ht.receiveBlock

theorem next_execBlockArrival {n : BlockName} : K.next (execBlockArrival n s) := by
  unfold execBlockArrival
  split
  · split
    exacts [trivial, next_unless (next_didPosting h.arriveBlock)]
  · exact next_unless (next_didPosting h.arriveFar)

theorem next_firstCoded {b c : Block} : K.next (s.firstCoded b c) := by
  unfold State.firstCoded
  split
  exacts [trivial, next_unless (next_didPosting (holds_mk.2 h.arriveBlock))]

theorem next_secondCoded {b : Block} {m : Nat × Nat × Nat × List Byte} : K.next (s.secondCoded b m) := by
  unfold State.secondCoded
  split
  exacts [trivial, next_didPosting h.arriveBlock]

theorem next_execCodedPacket {n : BlockName} {c : Nat} : K.next (execCodedPacket n c s) := by
  unfold execCodedPacket
  split
  · split
    · trivial
    · split
      · exact next_when (next_secondCoded h)
      · split
        exacts [trivial, next_firstCoded h]
  · split
    exacts [trivial, next_execBlockArrival h]

theorem next_execDecodeFallback {n : BlockName} : K.next (execDecodeFallback n s) := by
  unfold execDecodeFallback
  split
  · exact next_when h
  · split
    exacts [trivial, next_unless h]

/-! ### Exchange commands start and end -/

@[simp] theorem holds.writeStat {c : Cmd} {status : Nat} : K.holds (s.writeStat c status).1 := by
  unfold State.writeStat
  split
  · exact h
  · split
    · exact h
    next hu => exact h.xWrite hu

@[simp] theorem holds.finishExchange {c : Cmd} : K.holds (s.finishExchange c) := by
  unfold State.finishExchange
  extract_lets status
  have hstat := h.writeStat (c := c) (status := status)
  generalize s.writeStat c status = r at hstat
  obtain ⟨u, _ | e⟩ := r
  · have hu : K.holds (if status = 4 then u.onLaunch c.lid fun l => { l with fate := worse l.fate 4 } else u) :=
      holds.ite hstat hstat
    exact hu.leaveQueue
  · exact holds.faultCmd hstat

@[simp] theorem holds.beginExchange {c : Cmd} {ds : List Found} {es : SMap Found} :
    K.holds (s.beginExchange c ds es) := holds.ite h h

@[simp] theorem holds.startExchange {c : Cmd} {x : Ctx} : K.holds (s.startExchange c x) := by
  unfold State.startExchange
  dsimp only
  split
  exacts [h.stirMem.faultCmd, h.stirMem.beginExchange]

/-! ### COMBINE -/

omit h in
/-- A pair of a token keeps the state or writes its entry. -/
theorem holds_pair {c : Cmd} {x : Ctx} {i : Nat} {a b : PairSum} (ha : K.holds a.s)
    (hb : a.s.pair c x i a = .ok b) : K.holds b.s := by
  simp only [State.pair, except_bind_eq_ok] at hb
  obtain ⟨p, -, w, -, hb⟩ := hb
  split at hb
  · cases hb
  · cases hb
    exact ha
  · cases hb
    exact ha
  · simp only [except_bind_eq_ok] at hb
    obtain ⟨entry, -, hb⟩ := hb
    split_ifs at hb
    · cases hb
      exact ha
    · obtain ⟨u, hu, hb⟩ := except_bind_eq_ok.1 hb
      cases hb
      exact ha.xWrite hu

omit h in
theorem holds_add {c : Cmd} {x : Ctx} {i : Nat} {a : PairSum} (ha : K.holds a.s) : K.holds (a.add c x i).s := by
  unfold PairSum.add
  split
  · exact ha
  · split
    · exact ha
    next hb => exact holds_pair ha hb

theorem holds.outputRow {old u : State} {c : Cmd} {x : Ctx} {p : Pair} {row : List W32}
    (hu : old.outputRow s c x p = .ok (u, row)) : K.holds u := by
  unfold State.outputRow at hu
  split at hu
  · cases hu
    exact h
  · have hrow : ∀ e : Except (BitVec 8) (List Byte), (do
        let e ← e
        let bs ← old.xRead s c.xdie x (XEntry.obase e + 512 * p.slot) 512
        .ok (s, wordsFrom 128 bs)) = .ok (u, row) → K.holds u := fun e hu => by
      simp only [except_bind_eq_ok] at hu
      obtain ⟨e, -, bs, -, hu⟩ := hu
      cases hu
      exact h
    split at hu
    exacts [hrow _ hu, hrow _ hu]

omit h in
theorem holds_rows {c : Cmd} {x : Ctx} {a : PairSum} (ha : K.holds a.s) : K.holds (a.rows c x).s := by
  unfold PairSum.rows
  refine holds.foldl_by (π := PairSum.s) (b := { a with live := [] }) ha (fun a p ha => ?_) _
  split
  · exact ha
  · split
    · exact ha
    next hu => exact ha.outputRow hu

theorem next_execCombine {cid : Nat} : K.next (execCombine cid s) := by
  unfold execCombine
  split
  · trivial
  next c x _ =>
    extract_lets a n r stop
    have ha : K.holds a.s := holds.foldl_by (π := PairSum.s) (b := { old := s, s := s.stirMem c.xdie }) h.stirMem
      (fun a i ha => holds_add ha) _
    have hr : K.holds r.s := by
      simp only [r]
      split
      exacts [ha, holds_rows ha]
    have hstop : ∀ e, K.next (stop e) := fun e => hr
    split
    · exact hstop _
    · split
      · exact hstop _
      next t ht =>
        have ht : K.holds (t.countPairs cid n r) := (hr.xWrite ht :)
        exact next_didPosting (holds.xDeliver (holds_onCmd.2 ht))

/-! ### Fabric barriers -/

@[simp] theorem holds.writeCnt {n r e count : Nat} {x : Expert} : K.holds (s.writeCnt n r e x count) := by
  unfold State.writeCnt
  split
  · exact h
  · split
    · exact h.post
    · exact h
    next hu => exact h.deviceWrite hu

@[simp] theorem holds.endRound {n dom : Nat} {b : FabBar} : K.holds (s.endRound n dom b) := h

@[simp] theorem holds.completeFbar {n : Nat} {c : Ctx} {b : FabBar} : K.holds (s.completeFbar n c b) := by
  unfold State.completeFbar
  extract_lets dom had s₁ rd mine s₂ s₃ s₄ s₅
  have h₁ : K.holds s₁ := h
  have h₃ : K.holds s₃ := holds.foldl (s := s₂) h₁ (fun _ _ h => h.writeCnt) _
  have h₄ : K.holds s₄ := holds.ite h₁ h₃.endRound
  exact holds.foldl (s := s₅) h₄ (fun _ _ h => h.deviceArrive) _

theorem next_execFabricBarrierComplete {ctx fid : Nat} : K.next (execFabricBarrierComplete ctx fid s) := by
  unfold execFabricBarrierComplete
  split
  · trivial
  · split
    exacts [trivial, next_unless (next_didPosting h.completeFbar)]

@[simp] theorem holds.failAdmits {gone : Admit → Bool} : K.holds (s.failAdmits gone) := by
  unfold State.failAdmits
  extract_lets rewrite
  have hrewrite : ∀ c u a, K.holds u → K.holds (rewrite c u a) := fun c u a hu => by
    dsimp only [rewrite]
    split
    · split
      · exact hu
      next hv => exact holds.xWrite (holds_onCmd.2 hu) hv
    · exact hu
  refine holds_mk.2 (h.foldl (fun u e hu => ?_) _)
  exact hu.foldl (fun v r hv => hv.foldl (hrewrite e.2) _) _

@[simp] theorem holds.failRounds {die : Nat} : K.holds (s.failRounds die) := holds.deliverBlocks (holds_mk.2 h.failAdmits)

@[simp] theorem holds.failPeers : K.holds s.failPeers := h.failAdmits

end

end Lasting

end Sys2Proof.Machine
end

section
/-! PROOFS. Lasting properties: failures, fencing, lost acknowledgements and links (spec/20 R355, R356, R361 to R363; spec/23 R393,
R394). -/

namespace Sys2Proof.Machine

variable {K : Lasting} {s t : State}

namespace Lasting

section
variable (h : K.holds s)
include h

/-! ### Fencing -/

@[simp] theorem holds.loseWrites {die : Nat} : K.holds (s.loseWrites die) := K.leave List.filter_sublist h

@[simp] theorem holds.fenceDie {die : Nat} : K.holds (s.fenceDie die) := by
  unfold State.fenceDie
  extract_lets s₁ s₂ s₃ s₄ lose
  have h₂ : K.holds s₂ := (h.loseWrites : K.holds s₁)
  have h₃ : K.holds s₃ := h₂.foldl (fun _ _ hu => hu.post.endLaunch) _
  have h₄ : K.holds s₄ := h₃.foldl (fun _ _ hu => hu.retireTeam) _
  exact holds.failRounds (holds_mk.2 h₄)

@[simp] theorem holds.postFence {n code : Nat} : K.holds (s.postFence n code) := h.foldl (fun _ _ hu => hu.post) _

@[simp] theorem holds.fenceChannel {ch : Nat} : K.holds (s.fenceChannel ch) := by
  unfold State.fenceChannel
  split
  · exact h
  · extract_lets hit pkg u
    have hu : K.holds u := h
    exact hu.foldl (fun _ _ hv => hv.endCtx fun _ hw => hw.postFence) _

@[simp] theorem holds.linkDown {port : Nat} {fenced : Bool} : K.holds (s.linkDown port fenced) := by
  unfold State.linkDown
  extract_lets l bit away pkg u move
  have hu : K.holds u := h
  have hmove : ∀ v p, K.holds v → K.holds (move v p) := fun v p hv => by
    dsimp only [move]
    split
    exacts [hv, hv]
  exact (hu.foldl hmove _).failPeers

@[simp] theorem holds.fencePart {p : Part} : K.holds (s.fencePart p) := by
  unfold State.fencePart
  extract_lets pkg u pkg₁ down v
  have hu : K.holds u := h
  have hdown : ∀ k, K.holds (down k) := fun _ => hu
  clear_value down u
  have hv : K.holds v := by
    simp only [v]
    split
    · exact holds.ite (hdown _).fenceDie (holds.ite ((hdown _).foldl (fun _ _ hw => hw.fenceChannel) _)
        ((hdown _).foldl (fun _ _ hw => hw.linkDown) _))
    · exact hu.linkDown
    · exact hu.fenceChannel
  exact hv

/-! ### Double faults -/

@[simp] theorem holds.endAll : K.holds s.endAll := h.foldl (fun _ _ hu => hu.endCtx fun _ hv => hv) _

@[simp] theorem holds.holdFailing {ps : List Part} : K.holds (s.holdFailing ps) := holds.ite h h

@[simp] theorem holds.doubleFault : K.holds s.doubleFault := by
  unfold State.doubleFault
  extract_lets all parts u pkg t
  have hu : K.holds u := h
  have ht : K.holds t := holds.endAll hu
  exact holds.holdFailing (ht.foldl (fun _ _ hv => hv.fencePart) _)

@[simp] theorem holds.fence {p : Part} : K.holds (s.fence p) := h.fencePart.holdFailing

@[simp] theorem holds.failNow {p : Part} : K.holds (s.failNow p) :=
  holds.ite h (holds.ite (holds.doubleFault h) h.fence)

theorem next_execPartFailure {p : Part} : K.next (execPartFailure p s) := by
  have hmarked : K.holds { s with pkg := { s.pkg with failing := s.pkg.failing ++ [p] } } := h
  exact next_unless (next_if hmarked (next_if hmarked.doubleFault (next_if hmarked hmarked.doubleFault)))

@[simp] theorem holds.endStopped : K.holds s.endStopped := h.foldl (fun _ _ hu => hu.endCtx fun _ hv => hv) _

theorem next_execFence {p : Part} : K.next (execFence p s) := by
  have hstop : K.holds s.endStopped := h.endStopped
  exact next_unless (next_if (next_unless h.fence) (next_unless (holds.holdFailing (holds_mk.2 hstop))))

/-! ### Lost acknowledgements -/

@[simp] theorem holds.countLost {c : Cmd} : K.holds (s.countLost c) := holds.ite h (holds.deliver (holds_onCmd.2 h))

@[simp] theorem holds.ackFault {gid : Nat} {x : InWrite} : K.holds (s.ackFault gid x) := by
  unfold State.ackFault
  dsimp only
  split
  · exact h.asyncCause
  · split
    exacts [h, h.post.endLaunch]

theorem next_execAcklost {wid : Nat} {p : Part} : K.next (execAcklost wid p s) := by
  unfold execAcklost
  split
  · trivial
  next w _ =>
    refine next_unless (next_if (holds.doubleFault (holds_mk.2 h)) ?_)
    extract_lets mine t u left settle v
    have hu : K.holds u := holds.ite h.fence h
    have hsettle : ∀ a x, K.holds a → K.holds (settle a x) := fun a x ha =>
      holds.ite ha.landWrite (K.leave List.filter_sublist ha)
    have hv : K.holds v := hu.foldl hsettle _
    clear_value v t
    split
    · refine next_didPosting (holds_onCmd.2 ?_)
      split
      · exact hv
      · exact holds.ite hv.countLost hv
    · exact next_didPosting (holds.ackFault (holds_mk.2 hv))
    · exact hv

/-! ### Links -/

theorem next_resend {port : Nat} : K.next (s.resend port) := next_if h.failNow h

theorem next_execWilkaiFlit {port : Nat} {f : Flit} : K.next (execWilkaiFlit port f s) := by
  unfold execWilkaiFlit
  refine next_unless ?_
  split
  · exact h
  · exact next_if h h
  · exact next_if h (next_resend h)

theorem next_execRetransmitTimeout {port : Nat} : K.next (execRetransmitTimeout port s) := next_unless (next_resend h)

end

end Lasting

end Sys2Proof.Machine
end

section
/-! PROOFS. Lasting properties: the Crown, the host and peer devices (spec/23 R388 to R400). -/

namespace Sys2Proof.Machine

variable {K : Lasting} {s t : State}

namespace Lasting

section
variable (h : K.holds s)
include h

/-! ### Boot and scrub -/

@[simp] theorem holds.boot : K.holds s.boot := by
  unfold State.boot
  extract_lets u recovery
  have hrecovery : ∀ v, K.holds v → K.holds (recovery v) := fun _ hv => hv
  have hu : K.holds u := h
  clear_value u
  exact holds.ite (hrecovery _ hu) (holds.ite hu (hrecovery _ hu))

@[simp] theorem holds.scrubEnd : K.holds s.scrubEnd := by
  unfold State.scrubEnd
  extract_lets u v record
  have hu : K.holds u := h.foldl (fun _ _ hv => hv.fencePart) _
  clear_value u
  exact hu

@[simp] theorem holds.scrubCheck : K.holds s.scrubCheck := holds.ite h.scrubEnd h

omit h in
/-- What the package keeps as it loses power or is cleared, has no writes on their way. -/
theorem holds.held {mem : List Host.Cell} {pkg : Pkg} (hmem : K.rel mem s.inflight s.nextId) : K.holds (s.held mem pkg) :=
  K.leave (List.nil_sublist _) hmem

/-- What stays of memory is the host's. -/
theorem holds.held_hostCells {pkg : Pkg} : K.holds (s.held (hostCells s.mem) pkg) := holds.held (K.clear _ h)

@[simp] theorem holds.scrub : K.holds s.scrub := by
  unfold State.scrub
  extract_lets c crown u
  have hu : K.holds u := h.held_hostCells
  exact holds.ite hu (holds.scrubEnd hu)

theorem next_recover {nonce : List Byte} : K.next (s.recover nonce) := by
  unfold State.recover
  split
  · trivial
  · exact h
  · exact next_did (holds.scrub (holds_onCrown.2 h))

theorem next_execRecover {nonce : List Byte} : K.next (execRecover nonce s) :=
  next_when (next_recover (holds_mk.2 h))

theorem next_execRecoverN : K.next (execRecoverN s) := next_recover h

@[simp] theorem holds.rom : K.holds s.rom := holds.ite h.scrub h.boot

/-! ### Power and readiness -/

theorem next_execPowerGood : K.next (execPowerGood s) := next_unless (next_did (holds.rom (holds_onCrown.2 h)))

theorem next_execPowerLoss : K.next (execPowerLoss s) := next_unless h.held_hostCells

theorem next_execLimitExceeded : K.next (execLimitExceeded s) := by
  unfold execLimitExceeded
  refine next_unless ?_
  extract_lets pkg t
  have ht : K.holds t := holds.endAll h
  exact next_if (next_did (holds.held ht).rom) (next_unless (next_did (holds.ite ht ht)))

theorem next_execFunctionReady {f : Func} : K.next (execFunctionReady f s) :=
  next_unless (next_did (holds.scrubCheck (holds_mk.2 h)))

theorem next_execReadinessTimeout {f : Func} : K.next (execReadinessTimeout f s) :=
  next_unless (next_if h.fencePart.scrubCheck h.failNow)

/-! ### The sideband and the registers -/

theorem next_execStatus : K.next (execStatus s) := next_unless h

theorem next_execGetrecord : K.next (execGetrecord s) := next_unless h

theorem next_execI3cAttest {nonce : List Byte} : K.next (execI3cAttest nonce s) := next_unless h

theorem next_execLoadfw {len : Nat} : K.next (execLoadfw len s) := next_unless (next_if h h)

theorem next_execSupmask {value : W64} : K.next (execSupmask value s) := next_unless h

theorem next_execAttest {nonce : List Byte} : K.next (execAttest nonce s) := next_unless (next_if h h)

theorem next_writePage {port offset : Nat} {bs : List Byte} : K.next (s.writePage port offset bs) :=
  next_unless (next_if h (next_if h h))

theorem next_writeMgmt {o : Nat} {bs : List Byte} : K.next (s.writeMgmt o bs) :=
  next_unless (next_if (next_did (holds.failPeers (holds_mk.2 h))) (next_if h
    (next_if (next_did (holds.drain (holds_mk.2 h))) (next_if (next_did h.writeRaw) h))))

theorem next_execHostRegisterWrite {port offset : Nat} {ctxPage : Bool} {bytes : List Byte} :
    K.next (execHostRegisterWrite port offset ctxPage bytes s) :=
  next_unless (next_if (next_writePage h) (next_writeMgmt h))

/-! ### Memory windows -/

@[simp] theorem holds.windowPut {n : Nat} {ps : List (Nat × Nat × Nat)} {bs : List Byte} : K.holds (s.windowPut n ps bs) := by
  induction ps generalizing s bs with
  | nil => exact h
  | cons p ps ih =>
    unfold State.windowPut
    split
    exacts [h, ih h.setDirtyAt.writeNow]

theorem next_execMemoryWindowWrite {ctx offset : Nat} {bytes : List Byte} :
    K.next (execMemoryWindowWrite ctx offset bytes s) := by
  refine next_unless (next_if h ?_)
  split
  exacts [h, next_did h.windowPut]

theorem next_execMemoryWindowRead {ctx offset len : Nat} : K.next (execMemoryWindowRead ctx offset len s) := by
  refine next_unless (next_if h ?_)
  split
  exacts [h, h]

theorem next_execPeerDeviceAccess {ctx : Nat} {va : W64} {op : PeerOp} : K.next (execPeerDeviceAccess ctx va op s) := by
  refine next_unless ?_
  split
  · split
    exacts [h, next_did h.windowPut]
  · split
    exacts [h, h]

end

end Lasting

end Sys2Proof.Machine
end

section
/-! PROOFS. Lasting properties: commands start and complete, and steps of the package (spec/14 R254 to R276; spec/09 R190). -/

namespace Sys2Proof.Machine

variable {K : Lasting} {s t : State}

namespace Lasting

section
variable (h : K.holds s)
include h

/-! ### Commands -/

@[simp] theorem holds.faultTask {c : Cmd} : K.holds (s.faultTask c) := holds.ite h.faultCmd.deviceArrive h.faultCmd

theorem next_begin {c : Cmd} {x : Ctx} : K.next (s.begin c x) := by
  unfold State.begin
  extract_lets run go
  have hrun : K.holds (run s) := h
  have hgo : ∀ {u}, K.holds u → K.next (go u) := next_didPosting
  clear_value run go
  refine next_if ?_ (next_if (hgo h.startExchange) (next_if (next_if hrun (hgo h.faultTask))
    (next_if (next_if hrun (next_failSwitch h)) (next_when (hgo h.faultCmd)))))
  split
  exacts [hgo h.faultCmd, h]

theorem holds.joinCmd {c d : Cmd} (ht : s.joinCmd c = some (t, d)) : K.holds t := by
  obtain ⟨u, hu, heq⟩ := Option.map_eq_some_iff.1 ht
  cases heq
  exact holds_onCmd.2 (h.fulfilAll hu)

theorem next_execCommandStart {cid : Nat} : K.next (execCommandStart cid s) := by
  unfold execCommandStart
  split
  · trivial
  · split
    · trivial
    · refine next_unless (next_if (next_didPosting h.faultCmd) (next_if (next_unless h) (next_unless ?_)))
      split
      · trivial
      next hu => exact next_begin (h.joinCmd hu)

theorem next_discard {c : Cmd} : K.next (s.discard c) :=
  next_if (next_endSwitch h) (next_unless (next_didPosting (holds.ite h.writeStat.leaveQueue
    (holds.ite h.leaveQueue.deviceArrive h.leaveQueue))))

theorem next_execCommandComplete {cid : Nat} : K.next (execCommandComplete cid s) := by
  unfold execCommandComplete
  split
  · trivial
  · split
    · trivial
    next c _ _ x _ =>
      extract_lets fault
      have hfault : ∀ {u}, K.holds u → K.next (fault u) := next_didPosting
      clear_value fault
      refine next_unless (next_if (next_discard h) (next_unless (next_if (next_unless (hfault h.faultCmd)) ?_)))
      split
      · exact next_when (next_didPosting h.finishSwitch)
      · exact next_unless (next_if (hfault h.writeStat.faultCmd) (hfault h.faultCmd))
      · exact next_if (next_unless (hfault h.finishExchange)) (next_when (next_didPosting h.leaveQueue))

/-! ### Forms that several instructions share -/

theorem next_alu {w : FmtA} {srcs : List Src} {f : List W32 → W32} : K.next (alu w srcs f s) := next_apply h

theorem next_aluImm {w : FmtB} {f : W32 → W32 → W32} : K.next (aluImm w f s) := next_apply h

theorem next_arithA {k : Arith} {l : Layout} {p : Option Dual} {w : FmtA} {srcs : List Src} :
    K.next (arithA k l p w srcs s) := next_apply h

theorem next_arithImm {k : Arith} {p : Option Dual} {w : FmtB} : K.next (arithImm k p w s) := next_apply h

theorem next_extreme {mx : Bool} {l : Layout} {p : Option Dual} {w : FmtA} : K.next (extreme mx l p w s) := next_apply h

theorem next_unary {f : UFn} {p : Option Dual} {w : FmtA} : K.next (unary f p w s) := next_apply h

theorem next_dotA {f : FFmt} {width : Nat} {p : Option Dual} {w : FmtA} : K.next (dotA f width p w s) := next_apply h

/-! ### Every instruction and every step -/

theorem next_exec {i : Instr} : K.next (exec i s) := by
  cases i
  all_goals dsimp only [exec]
  case iadd | isub | imul | imad | imin | imax | iabs | andL | orL | xorL | andn | shl | shr | sar | rotl | bfe | bfi | popc | clz
    | brev | dp4 | dp8 => exact next_alu h
  case iaddi | andi | ori | xori | shli | shri | sari => exact next_aluImm h
  case fadd | fsub | fmul | ffma | fdiv | hadd2 | hmul2 | hfma2 => exact next_arithA h
  case fmuli | faddi => exact next_arithImm h
  case fmin | fmax | hext2 => exact next_extreme h
  case frcp | frsq | fsqrt | fex2 | flg2 | fsin | fcos | ftanh => exact next_unary h
  case dpf8 | dpf4 => exact next_dotA h
  case icmp | icmpi | sel | mov | movi | iadd64 | lea | plop | prd | pwr | fcmp | fsgn | bscale | i2f | f2i | pack2 | tget
    | tset => exact next_apply h
  case fcvt =>
    unfold execFcvt
    exact next_apply h
  case lxch | lred | leqv | lpick => exact next_applyAll h
  case nop | region | yield | trap | bkpt => exact next_issue h fun _ hi => hi
  case bra => exact next_issue h fun _ hi => runs_branchTo hi
  case replay | endLaunch | continue_ => exact next_respond h
  case crnd => exact next_execCrnd h
  case ld => exact next_execLd h
  case st => exact next_execSt h
  case atom => exact next_execAtom h
  case cas => exact next_execCas h
  case ldq => exact next_execLdq h
  case pfd => exact next_execPfd h
  case pfi => exact next_execPfi h
  case qcfg => exact next_execQcfg h
  case ldt => exact next_execLdt h
  case stt => exact next_execStt h
  case ldl => exact next_execLdl h
  case stl => exact next_execStl h
  case ldw => exact next_execLdw h
  case ppoll => exact next_execPpoll h
  case brx => exact next_execBrx h
  case call => exact next_execCall h
  case ret => exact next_execRet h
  case loop => exact next_execLoop h
  case lbrk => exact next_execLbrk h
  case exit => exact next_execExit h
  case exitE => exact next_execExitE h
  case claim => exact next_execClaim h
  case tret => exact next_execTret h
  case waitf => exact next_execWaitf h
  case mfs => exact next_execMfs h
  case mts => exact next_execMts h
  case bari => exact next_execBari h
  case bara => exact next_execBara h
  case barw => exact next_execBarw h
  case bart => exact next_execBart h
  case barx => exact next_execBarx h
  case fbar => exact next_execFbar h
  case push => exact next_execPush h
  case wpw => exact next_execWpw h
  case guard => exact next_execGuard h
  case tgrab => exact next_execTgrab h
  case tdone => exact next_execTdone h
  case tcfg => exact next_execTcfg h
  case trel => exact next_execTrel h
  case mzero => exact next_execMzero h
  case mloop => exact next_execMloop h
  case mst => exact next_execMst h
  case mld => exact next_execMld h
  case mflg => exact next_execMflg h
  case loadLands => exact next_execLoadLands h
  case ldqEntryLands => exact next_execLdqEntryLands h
  case crndLands => exact next_execCrndLands h
  case remoteMfsLands => exact next_execRemoteMfsLands h
  case claimLands => exact next_execClaimLands h
  case atomResultLands => exact next_execAtomResultLands h
  case asyncFault => exact next_execAsyncFault h
  case instructionMissFill => exact next_execInstructionMissFill h
  case translationWalk => exact next_execTranslationWalk h
  case barrierRelease => exact next_execBarrierRelease h
  case launchPort => exact next_execLaunchPort h
  case launch => exact next_execLaunch h
  case dependenceResolve => exact next_execDependenceResolve h
  case teamPlacement => exact next_execTeamPlacement h
  case launchComplete => exact next_execLaunchComplete h
  case task => exact next_execTask h
  case copy => exact next_execCopy h
  case copy2d => exact next_execCopy2d h
  case reblock => exact next_execReblock h
  case gather => exact next_execGather h
  case fill => exact next_execFill h
  case wsload => exact next_execWsload h
  case dsnap => exact next_execDsnap h
  case exch => exact next_execExch h
  case combine => exact next_execCombine h
  case preempt => exact next_execPreempt h
  case resume => exact next_execResume h
  case commandStart => exact next_execCommandStart h
  case delivery => exact next_execDelivery h
  case commandComplete => exact next_execCommandComplete h
  case returnWordLands => exact next_execReturnWordLands h
  case matrixOperationStart => exact next_execMatrixOperationStart h
  case kStep => exact next_execKStep h
  case matrixOperationComplete => exact next_execMatrixOperationComplete h
  case blockArrival => exact next_execBlockArrival h
  case codedPacket => exact next_execCodedPacket h
  case decodeFallback => exact next_execDecodeFallback h
  case fabricBarrierComplete => exact next_execFabricBarrierComplete h
  case wsRefresh => exact next_execWsRefresh h
  case tlbinv => exact next_execTlbinv h
  case invalidationComplete => exact next_execInvalidationComplete h
  case debugRead => exact next_execDebugRead h
  case debugWrite => exact next_execDebugWrite h
  case debugstop => exact next_execDebugstop h
  case contextCreate => exact next_execContextCreate h
  case contextDestroy => exact next_execContextDestroy h
  case contextDestroyDetach => exact next_execContextDestroyDetach h
  case supmask => exact next_execSupmask h
  case attest => exact next_execAttest h
  case hostRegisterWrite => exact next_execHostRegisterWrite h
  case memoryWindowWrite => exact next_execMemoryWindowWrite h
  case memoryWindowRead => exact next_execMemoryWindowRead h
  case status => exact next_execStatus h
  case recover => exact next_execRecover h
  case recoverN => exact next_execRecoverN h
  case getrecord => exact next_execGetrecord h
  case i3cAttest => exact next_execI3cAttest h
  case loadfw => exact next_execLoadfw h
  case powerGood => exact next_execPowerGood h
  case functionReady => exact next_execFunctionReady h
  case readinessTimeout => exact next_execReadinessTimeout h
  case partFailure => exact next_execPartFailure h
  case fence => exact next_execFence h
  case acklost => exact next_execAcklost h
  case wilkaiFlit => exact next_execWilkaiFlit h
  case retransmitTimeout => exact next_execRetransmitTimeout h
  case limitExceeded => exact next_execLimitExceeded h
  case refreshWindowEnd => exact next_execRefreshWindowEnd h
  case mcaSingleMoment => exact next_execMcaSingleMoment h
  case writeArrival => exact next_execWriteArrival h
  case peerDeviceAccess => exact next_execPeerDeviceAccess h
  case powerLoss => exact next_execPowerLoss h

theorem next_issueGroup {gid : Nat} {err : Bool} : K.next (issueGroup s gid err) := by
  unfold issueGroup
  split
  · trivial
  · refine next_unless (next_if (next_execAsyncFault h) ?_)
    split
    · trivial
    · extract_lets u
      have hu : K.holds u := h
      clear_value u
      split
      · exact hu
      · exact hu.raise
      · split
        · exact hu.raise
        · exact next_exec hu

theorem next_firstEvent {is : List Instr} {r : Res} (hr : firstEvent s is = some r) : K.next r := by
  induction is with
  | nil => cases hr
  | cons i is ih =>
    unfold firstEvent at hr
    split at hr
    next hi =>
      cases hr
      exact hi ▸ next_exec h
    · exact ih hr

/-- What the default order takes is an event of the device or the issue of a group. -/
theorem next_defaultTurn : K.next (defaultTurn s) := by
  have hgroup : ∀ r, (s.pick.map fun g => issueGroup s g.id false) = some r → K.next r := by
    intro r hr
    obtain ⟨g, -, rfl⟩ := Option.map_eq_some_iff.1 hr
    exact next_issueGroup h
  have hdevice : ∀ r, firstEvent s s.events = some r → K.next r := fun _ => next_firstEvent h
  unfold defaultTurn
  dsimp only
  generalize (s.pick.map fun g => issueGroup s g.id false) = group at hgroup ⊢
  generalize firstEvent s s.events = device at hdevice ⊢
  split
  · cases group with
    | some r => exact hgroup r rfl
    | none => cases device with
      | some r => exact hdevice r rfl
      | none => exact h
  · cases device with
    | some r => exact hdevice r rfl
    | none => cases group with
      | some r => exact hgroup r rfl
      | none => exact h

theorem next_runTurn {t : Turn} : K.next (runTurn s t) := by
  cases t with
  | run i => exact next_unless (next_exec h)
  | runErr i => exact next_unless (next_exec (holds_mk.2 h))
  | issue gid err => exact next_issueGroup h
  | look id k => exact next_lookAt h
  | fetch cid space va => exact next_fetchEarly h

omit h in
theorem next_settle {r : Res} (hr : K.next r) : K.next (settle r) := by
  unfold settle
  split
  · have hr : K.holds _ := hr
    exact hr.drain.settleFaults
  · exact hr

/-- A lasting property lasts. -/
theorem next_step : K.next (step s) := by
  unfold step
  dsimp only
  split
  · exact next_settle (next_runTurn (holds_mk.2 h))
  · exact next_settle (next_defaultTurn (holds_mk.2 h))

end

end Lasting

end Sys2Proof.Machine

namespace Sys2Proof.Claims

open Sys2Proof.Machine

/-- Settles O34: that names are given once and that coherence order is whole is a lasting property (`Lasting.writes`), and a step
keeps each (`Lasting.next_step`). -/
theorem everyStepKeepsWritesInOrder : Obligations.EveryStepKeepsWritesInOrder := by
  intro s t hnamed hordered hstep
  have hnext : Lasting.writes.next (step s) := Lasting.next_step (s.ranked_iff.2 ⟨hnamed, hordered⟩)
  rw [hstep] at hnext
  exact t.ranked_iff.1 hnext

end Sys2Proof.Claims
end
